-- ==== Sys2Proof/Word.lean ====
section
/-! DEFINITION. The word types of the module and the plainest arithmetic on them. -/

namespace Sys2Proof

/-- A byte of memory (00 R4). -/
abbrev Byte := BitVec 8
/-- The 32 bits of one register element or one instruction word (02 R20, R23). -/
abbrev Word := BitVec 32
/-- A 96-bit lane mask; bit L is lane L (02 R53). -/
abbrev Mask := BitVec 96

/-- Lanes of a group (01 R13). -/
abbrev lanes : Nat := 96

/-- Bits `hi` down to `lo` of `x`, as an unsigned number (00 R10). -/
def bits (x hi lo : Nat) : Nat := x / 2 ^ lo % 2 ^ (hi + 1 - lo)

/-- Bit `n` of `x`. -/
def bit (x n : Nat) : Bool := x / 2 ^ n % 2 == 1

end Sys2Proof
end

