-- ==== Sys2Proof/Syntax.lean ====
section
/-! DEFINITION. The instruction set and the events of the module: one constructor of `Instr` per row of
spec/opcode_table.json. -/

namespace Sys2Proof

/-- The element types of GM.TYPE, codes 0 to 19 in order (02 R32). -/
inductive Ty
  | b8 | b16 | b32 | b64 | b128 | i8 | i16 | i32 | i64 | n8 | n16 | n32 | n64
  | f16 | bf16 | f32 | f64 | k8 | e4m3 | e2m1
  deriving DecidableEq, Repr, Inhabited

/-- The rounding modes of GM.ROUND, codes 0 to 5 (02 R31, 03 R72). -/
inductive Rnd
  | rne | rtz | rup | rdn | rna | sto
  deriving DecidableEq, Repr, Inhabited

/-- The scopes of GM.SCOPE, codes 0 to 6 (02 R31, 09 R207). -/
inductive Scope
  | group | team | cluster | die | module | domain | system
  deriving DecidableEq, Repr, Inhabited

/-- The group mode register GM (02 R31). -/
structure GM where
  ginv  : Bool := false
  gpred : Nat := 0
  type  : Ty := .b32
  round : Rnd := .rne
  sat   : Bool := false
  ftz   : Bool := false
  scope : Scope := .group
  ftb   : Bool := false
  deriving DecidableEq, Repr, Inhabited

/-- What an 8-bit operand specifier names (02 R23). -/
inductive Operand
  | v (n : Nat)
  | s (n : Nat)
  | zero
  | lane
  | drain
  deriving DecidableEq, Repr, Inhabited

/-- The relations of a compare, codes 0 to 7 of d[7:4] (04 R110). Codes 8 to 13 are the unordered forms of 0 to 5. -/
inductive CC
  | eq | ne | lt | le | gt | ge | tst | ntst | ueq | une | ult | ule | ugt | uge
  deriving DecidableEq, Repr, Inhabited

/-- Cache policy mod[1:0] of LDG and STG (07 R183). -/
inductive CachePol
  | normal | stream | replicate | bypass
  deriving DecidableEq, Repr, Inhabited

/-- The space of an atomic, mod[1:0] (09 R229). -/
inductive AtomSp
  | global | landing | peer | host
  deriving DecidableEq, Repr, Inhabited

/-- The operation of CCTL (07 R188). -/
inductive CctlOp
  | iinv | l1inv | vcinv | rdcinv | lineinv
  deriving DecidableEq, Repr, Inhabited

/-- The kind of FENCE (09 R232). -/
inductive FenceKind
  | acq | rel | full
  deriving DecidableEq, Repr, Inhabited

/-- The operator of GSCAN (14 R352). -/
inductive ScanOp
  | add | min | max | and | or | xor
  deriving DecidableEq, Repr, Inhabited

/-- A section of a code object (17 R399). -/
inductive Sect
  | text
  | const (k : Nat)
  | data
  | field
  | kdesc
  deriving DecidableEq, Repr, Inhabited

/-- A symbol of a code object: where it is defined (none: a reference to another object), its binding and size
(17 R405). -/
structure Sym where
  name   : Nat
  global : Bool
  weak   : Bool
  place  : Option (Sect × Nat)
  size   : Nat
  deriving DecidableEq, Repr, Inhabited

/-- A relocation: type, where it stands, the symbol's index, the addend (17 R400). -/
structure Rela where
  type   : Nat
  sect   : Sect
  off    : Nat
  sym    : Nat
  addend : Int
  deriving DecidableEq, Repr, Inhabited

/-- A code object as the driver reads it from its ELF64 file (17 R398, R399). -/
structure CodeObj where
  elf64  : Bool
  lsb    : Bool
  dyn    : Bool
  mach   : Nat
  flags  : Nat
  sects  : List (Sect × List Byte)
  syms   : List Sym
  relas  : List Rela
  deriving DecidableEq, Repr, Inhabited

/-- The operation of an atomic (09 R230). -/
inductive AtomOp
  | add | fadd | min | max | and | or | xor | xchg | cas | inc | dec
  deriving DecidableEq, Repr, Inhabited

/-- What a peer module or a host CXL.mem request does at this module's memory (08 R201, 09 R231, 19 R423): read, write, or an
atomic on an element of a type, with its operands. -/
inductive BusOp
  | read (n : Nat)
  | write (data : List Byte)
  | atomic (op : AtomOp) (ty : Ty) (v v2 : Nat)
  deriving DecidableEq, Repr, Inhabited

/-- Where a soft error strikes (08 R205). -/
inductive Struck
  | memory (pa : Nat)
  | line (die key : Nat)
  | landing (t off : Nat)
  | row (t g row : Nat)
  | cleanCopy (die : Nat)
  | walkCache (die pa : Nat)
  deriving DecidableEq, Repr, Inhabited

/-- What of a group's accesses to a peer no route can deliver (19 R427): those of an operation, of a chunk of a collective copy,
of a CSUM, or of the wait of a path. -/
inductive Lost
  | op (id : Nat)
  | chunk (id slice line : Nat)
  | csum (id : Nat)
  | wait (p : Nat)
  deriving DecidableEq, Repr, Inhabited

/-- What the compactor moves (05 R118, 07 R177): a group's register block or a team's landing block. -/
inductive Moved
  | block (g newPb : Nat)
  | granule (newBase : Nat)
  deriving DecidableEq, Repr, Inhabited

/-- What a voltage re-plan finds (19 R436, R437): the least voltage that holds 1.05 GHz, in mV, and the capacity
    lines that stay unrecovered where the die is reset for it. -/
structure VoltageNeed where
  mv : Nat
  lost : List Nat := []
  deriving DecidableEq, Repr

/-- The instruction words (02 R45) and the events of the module. Operands stand in the manual's order of meaning:
look-ahead first where the word has one, then the modifiers, then d, then a, then b. An event names the team, group,
path, operation, queue, context, core or die it happens to, and what the outside supplies. -/
inductive Instr
  -- row 0x0 (04, 05, 09 R234, 16 R393)
  | nop
  | setmode (gm : GM)
  | bra (c : Nat) (off : Int)
  | bru (c : Nat) (off : Int)
  | join
  | call (c : Nat) (off : Int)
  | callx (c : Nat) (a : Operand)
  | ret
  | brx (a : Operand)
  | exit
  | yield (b : Nat) (off : Int)
  | waitaddr (acq : Bool) (cc : CC) (d a : Operand)
  | sleep (n : Nat)
  | trap (code : Nat)
  | bkpt (tag : Nat)
  -- row 0x1 (06 R144)
  | iadd (d a b : Operand)
  | isub (d a b : Operand)
  | imul (d a b : Operand)
  | imulh (d a b : Operand)
  | imad (d a b : Operand)
  | imin (d a b : Operand)
  | imax (d a b : Operand)
  | iabsd (d a b : Operand)
  | and (d a b : Operand)
  | or (d a b : Operand)
  | xor (d a b : Operand)
  | andn (d a b : Operand)
  | shl (d a b : Operand)
  | shr (d a b : Operand)
  | sar (d a b : Operand)
  | rot (d a b : Operand)
  -- row 0x2 (06 R145)
  | popc (d a : Operand)
  | clz (d a : Operand)
  | brev (d a : Operand)
  | bfe (d a b : Operand)
  | bfi (d a b : Operand)
  | add64 (d a b : Operand)
  | lea64 (d a b : Operand)
  | iadds (d a b : Operand)
  | isubs (d a b : Operand)
  | perm (d a b : Operand)
  | mulw (d a b : Operand)
  -- row 0x3 (06 R146, R147, R150)
  | fadd (d a b : Operand)
  | fsub (d a b : Operand)
  | fmul (d a b : Operand)
  | fma (d a b : Operand)
  | fmin (d a b : Operand)
  | fmax (d a b : Operand)
  | fneg (d a : Operand)
  | fabs (d a : Operand)
  | frnd (d a : Operand)
  | fclass (d a : Operand)
  | fscale (d a b : Operand)
  | fnma (d a b : Operand)
  | fcpys (d a b : Operand)
  | fdot2 (d a b : Operand)
  -- row 0x4 (06 R148–R161)
  | cvt (src : Ty) (d a : Operand)
  | cvts (d a b : Operand)
  | pack2 (d a b : Operand)
  | unpk (d a b : Operand)
  | hfma2 (d a b : Operand)
  | hadd2 (d a b : Operand)
  | hmul2 (d a b : Operand)
  | dot4 (d a b : Operand)
  | ivadd (d a b : Operand)
  | ivsub (d a b : Operand)
  | ivmul (d a b : Operand)
  | ivsqr (d a : Operand)
  | ivhull (d a b : Operand)
  | vexpr (d a b : Operand)
  | tbl (d a b : Operand)
  -- row 0x5 (04 R110–R114, 14 R351, R352, 05 R127, R135–R138)
  | fcmp (cc : CC) (p : Nat) (a b : Operand)
  | icmp (cc : CC) (p : Nat) (a b : Operand)
  | plog (pd pa pb pc tt : Nat)
  | sel (d a b : Operand)
  | vote (p : Nat) (d m : Operand)
  | shfl (d a b : Operand)
  | shflx (d a b : Operand)
  | shflu (d a b : Operand)
  | shfld (d a b : Operand)
  | gshfl (look : Nat) (wrap : Bool) (d a : Operand)
  | gscan (op : ScanOp) (d a : Operand)
  | mov (d a : Operand)
  | smov (d a b : Operand)
  | bcast (d a : Operand)
  | sread (d : Operand) (idx : Nat)
  | swrite (idx : Nat) (a : Operand)
  -- row 0x6 (05 R128–R131)
  | lit (d : Operand) (imm : Nat)
  | lith (d : Operand) (imm : Nat)
  | addi (d : Operand) (imm : Nat)
  | andi (d : Operand) (imm : Nat)
  | ori (d : Operand) (imm : Nat)
  | xori (d : Operand) (imm : Nat)
  | shli (d : Operand) (n : Nat)
  | shri (d : Operand) (n : Nat)
  | sari (d : Operand) (n : Nat)
  | flit (d : Operand) (imm : Nat)
  | icmpi (cc : CC) (p : Nat) (a : Operand) (imm : Nat)
  | frame (n : Nat)
  -- row 0x7 (06 R152)
  | frcp (look : Nat) (d a : Operand)
  | frsq (look : Nat) (d a : Operand)
  | fsqrt (look : Nat) (d a : Operand)
  | fexp2 (look : Nat) (d a : Operand)
  | flog2 (look : Nat) (d a : Operand)
  | fsin (look : Nat) (d a : Operand)
  | fcos (look : Nat) (d a : Operand)
  | ftanh (look : Nat) (d a : Operand)
  | fdiv (look : Nat) (d a : Operand)
  | idiv (look : Nat) (d a : Operand)
  | irem (look : Nat) (d a : Operand)
  | fsigm (look : Nat) (d a : Operand)
  -- rows 0x8, 0x9, 0xA (07 R186–R188)
  | ldl (look disp : Nat) (d a : Operand)
  | stl (look disp : Nat) (d a : Operand)
  | ldp (look disp : Nat) (d a : Operand)
  | stp (look disp : Nat) (d a : Operand)
  | ldk (look bank : Nat) (d a : Operand)
  | ldg (look : Nat) (acq : Bool) (cache : CachePol) (d a : Operand)
  | stg (look : Nat) (rel : Bool) (cache : CachePol) (d a : Operand)
  | pfg (look level : Nat) (a : Operand)
  | cctl (look : Nat) (op : CctlOp) (a : Operand)
  | ldn (look : Nat) (acq na : Bool) (d a : Operand)
  | stn (look : Nat) (rel ack : Bool) (d a : Operand)
  | ldh (look : Nat) (acq nosnoop rlx : Bool) (d a : Operand)
  | sth (look : Nat) (rel nosnoop rlx : Bool) (d a : Operand)
  -- row 0xB (09 R229, R230)
  | aadd (look : Nat) (acq rel : Bool) (sp : AtomSp) (d a : Operand)
  | afadd (look : Nat) (acq rel : Bool) (sp : AtomSp) (d a : Operand)
  | amin (look : Nat) (acq rel : Bool) (sp : AtomSp) (d a : Operand)
  | amax (look : Nat) (acq rel : Bool) (sp : AtomSp) (d a : Operand)
  | aand (look : Nat) (acq rel : Bool) (sp : AtomSp) (d a : Operand)
  | aor (look : Nat) (acq rel : Bool) (sp : AtomSp) (d a : Operand)
  | axor (look : Nat) (acq rel : Bool) (sp : AtomSp) (d a : Operand)
  | axchg (look : Nat) (acq rel : Bool) (sp : AtomSp) (d a : Operand)
  | acas (look : Nat) (acq rel : Bool) (sp : AtomSp) (d a : Operand)
  | ainc (look : Nat) (acq rel : Bool) (sp : AtomSp) (d a : Operand)
  | adec (look : Nat) (acq rel : Bool) (sp : AtomSp) (d a : Operand)
  -- row 0xC (09 R232, R233, 10 R254–R260, 15 R366)
  | fence (look : Nat) (kind : FenceKind)
  | qfence (look mask : Nat) (bar : Option Nat)
  | binit (look b : Nat) (a : Operand)
  | barv (look b : Nat) (d a : Operand)
  | bwait (b : Nat) (cur : Bool) (a : Operand)
  | btest (b p : Nat) (cur : Bool) (a : Operand)
  | bexp (look b : Nat) (a : Operand)
  | copy (look b : Nat) (role : Bool) (a : Operand)
  | csum (look b : Nat) (a : Operand)
  | pipe (d : Operand)
  | piperel
  | qput (look : Nat) (d a : Operand)
  -- row 0xD (11 R283–R287, 12 R299–R301)
  | mpass (look : Nat) (bar : Option Nat) (a : Operand)
  | mzero (look n : Nat)
  | mdrain (look n : Nat)
  | mstore (look n : Nat) (glob col pair : Bool) (bar : Option Nat) (a : Operand)
  | mload (look n : Nat) (glob col pair : Bool) (bar : Option Nat) (a : Operand)
  | mwait (tile : Option Nat)
  | mdelta (look : Nat) (bar : Option Nat) (a : Operand)
  | cbind (look : Nat) (d a : Operand)
  | cdrop (look : Nat) (a : Operand)
  | cstat (look : Nat) (d a : Operand)
  | cfresh (look : Nat) (a : Operand)
  -- row 0xE (13 R333–R343, 14 R350)
  | march (look b : Nat) (d a : Operand)
  | buck (look b slot : Nat) (a : Operand)
  | cqpop (look : Nat) (d a : Operand)
  | cqret (look : Nat) (d a : Operand)
  | boxt (look : Nat) (d a : Operand)
  | trit (look : Nat) (cull : Bool) (d a : Operand)
  | vfetch (look : Nat) (grad : Bool) (d a : Operand)
  | visw (look : Nat) (d a : Operand)
  | merge (look : Nat) (bar : Option Nat) (a : Operand)
  | mstat (look : Nat) (d a : Operand)
  | feval (look mode slot : Nat) (d a : Operand)
  | fbind (look slot : Nat) (land : Bool) (d a : Operand)
  -- row 0xF (06 R162, 16 R394–R397, 18 R410, R416)
  | tblload (look k : Nat) (a : Operand)
  | sysr (d : Operand) (idx : Nat)
  | sysw (idx : Nat) (a : Operand)
  | tick (d : Operand)
  | rft (replay : Bool) (d a : Operand)
  | premask (en : Bool)
  | trace (d a b : Operand)
  -- events of groups and paths
  | pendingResultComplete (t g id : Nat)
  | asyncTrap (t g : Nat)
  | waitTimeout (t g p : Nat)
  | hangDetector (t g : Nat)
  | sleepWake (t g p : Nat)
  | joinRelease (t g : Nat)
  | joinAgeEscape (t g p : Nat)
  | voteComplete (t g p : Nat)
  | shuffleComplete (t g p : Nat)
  | bwaitComplete (t g p : Nat)
  | yieldResume (t g p : Nat)
  | barvHeldRelease (t g p : Nat)
  | waitaddrReread (t g p : Nat)
  | mwaitComplete (t g p : Nat)
  | tblloadComplete (t g id : Nat)
  | pipeDepthUpdate (t : Nat)
  -- events of the engines
  | passGrant (cluster : Nat)
  | tileOpGrant (t g : Nat)
  | passComplete (t id : Nat)
  | emulatedPassComplete (t id : Nat)
  | mdeltaGrant (cluster : Nat)
  | copyCollectiveStart (t id : Nat)
  | copyChunkLand (t id slice line : Nat)
  | copyCollectiveArrive (t id : Nat)
  | copyFault (t id slice line : Nat)
  | csumComplete (t id : Nat)
  | marchRayStep (t id lane : Nat)
  | cqRequestAppend (t id lane : Nat)
  | cqRequestTimeout (t id lane : Nat)
  | marchBatchArrive (t id : Nat)
  | buckPerform (t id : Nat)
  | fbindPerform (t id : Nat)
  | fevalComplete (t id : Nat)
  | cqpopTake (t g id : Nat)
  | mergeJobStart (t id : Nat)
  | mergeJobEnd (t id : Nat)
  | qfenceArrive (t g id : Nat)
  -- events of queues, packets and placement
  | notifyWrite (q : Nat)
  | queueExamine (q : Nat)
  | launch (q pkt : Nat)
  | barrierAnd (q pkt : Nat)
  | barrierAndComplete (q pkt : Nat)
  | signal (q pkt : Nat)
  | raster (q pkt : Nat)
  | marker (q pkt : Nat)
  | packetComplete (q pkt : Nat)
  | teamPlace (die : Nat) (priv : List Nat)
  | teamExit (t : Nat)
  | compactorRun (die : Nat)
  | compactorMove (t : Nat) (what : Moved)
  | pageMigration (ctx va newPa : Nat)
  | hotnessEpoch (die : Nat)
  | patrolScrub
  | igo (ctx : Nat)
  | invalidationComplete (ctx : Nat)
  | snap (ctx : Nat)
  -- events of contexts
  | sreq (ctx : Nat)
  | rreq (ctx : Nat)
  | priorityPreempt (ctx : Nat)
  | maskOverrun (ctx : Nat)
  | suspend (ctx : Nat)
  | coreStateWrite (core off n value : Nat)
  | controlCoreRestart (die : Nat)
  | createContext (port : Nat)
  | destroyContext (port : Nat)
  | createQueue (port : Nat)
  | destroyQueue (port : Nat)
  | reloadQueue (port : Nat)
  | unknownCommand (port : Nat)
  | binRecordWrite (core bin off n value : Nat)
  | registerWrite (bar off n value : Nat)
  | loadCodeObject (ctx va pa : Nat) (obj : CodeObj)
  -- events of the management port
  | getVersion
  | getCapabilities
  | negotiateAlgorithms (offersFalcon : Bool)
  | getDigests
  | getCertificate (off len : Nat)
  | challenge (transcript : List Byte)
  | getMeasurements (index : Nat) (signed : Bool) (transcript : List Byte)
  | getVendorDefinedMessageSupport
  | firmwareUpdate (kind version : Nat) (image sig : List Byte)
  | setPowerLimit (watts : Nat)
  | ageingReport
  | setInstructionComparator (tag die index : Nat) (enable all : Bool) (ctx addr : Nat)
  | setDataComparator (tag die index : Nat) (enable all : Bool) (ctx access : Nat) (engines : Bool) (first last : Nat)
  | armFreezeTick (tag tick : Nat)
  | freezeStatus (tag : Nat)
  | scanRead (tag addr len : Nat)
  | scanWrite (tag addr : Nat) (data : List Byte)
  | moduleResume (tag : Nat)
  | startCapture (tag ctx base len : Nat)
  | stopCapture (tag ctx : Nat)
  | captureStatus (tag ctx : Nat)
  | startReplay (tag ctx base result : Nat)
  | replayStatus (tag ctx : Nat)
  | moduleFreeze
  -- resets, links, power, errors
  | coldReset
  | dieReset (die : Nat) (lost : List Nat)
  | ioDieReset (io : Nat)
  | linkReset (link : Nat)
  | flitRetry (link : Nat)
  | linkDeliveryTimeout (t g : Nat) (id : Lost)
  | voltageReplan (die rcount : Nat) (vneed : VoltageNeed) (hours : Nat)
  | domainJoin (gt : Nat)
  | peerRequest (peer pa : Nat) (op : BusOp)
  | hostCxlMemRequest (ctx va : Nat) (op : BusOp)
  | hostSnoop (port hpa : Nat) (data : Option (List Byte))
  | softError (at_ : Struck) (symbols : Nat)
  | hbmStackFault (stack : Nat)
  deriving DecidableEq, Repr

end Sys2Proof
end

