-- ==== Sys2Proof/WellFormed.lean ====
section
/-! DEFINITION. Which terms of `Instr` a 32-bit word can hold (02 R20–R23, R48). -/

namespace Sys2Proof

/-- A specifier names v0–v191 or s0–s47 (02 R23). -/
def Operand.wf : Operand → Bool
  | .v n => n < 192
  | .s n => n < 48
  | .zero | .lane | .drain => true

/-- The fields of GM fit their bits (02 R31). -/
def GM.wf (g : GM) : Bool := g.gpred < 16

/-- off20 is a signed 20-bit word offset (02 R22). -/
def offWf (off : Int) : Bool := decide (-524288 ≤ off) && decide (off < 524288)

/-- The relations ICMP accepts: codes 0 to 7 (04 R110). -/
def CC.integer : CC → Bool
  | .eq | .ne | .lt | .le | .gt | .ge | .tst | .ntst => true
  | .ueq | .une | .ult | .ule | .ugt | .uge => false

/-- The relations WAITADDR accepts: codes 0 to 5 (09 R234). -/
def CC.waits : CC → Bool
  | .eq | .ne | .lt | .le | .gt | .ge => true
  | .tst | .ntst | .ueq | .une | .ult | .ule | .ugt | .uge => false

def barWf : Option Nat → Bool
  | none => true
  | some b => b < 16

def op2 (d a : Operand) : Bool := d.wf && a.wf
def op3 (d a b : Operand) : Bool := d.wf && a.wf && b.wf
/-- Look-ahead 0–14 (02 R42). -/
def look14 (n : Nat) : Bool := n < 15
/-- Look-ahead 0–15, on the entries that allow 15 (02 R42). -/
def look15 (n : Nat) : Bool := n < 16

/-- An instruction whose fields fit its word and are not reserved; every event is well formed (it has no word). -/
def Instr.wf : Instr → Bool
  | .nop | .join | .ret | .exit | .piperel | .premask _ => true
  | .setmode gm => gm.wf
  | .bra c off | .bru c off | .yield c off => c < 16 && offWf off
  | .call c off => c < 13 && offWf off
  | .callx c a => c < 13 && a.wf
  | .brx a => a.wf
  | .waitaddr _ cc d a => cc.waits && op2 d a
  | .sleep n => n < 16777216
  | .trap n | .bkpt n => n < 65536
  | .iadd d a b | .isub d a b | .imul d a b | .imulh d a b | .imad d a b | .imin d a b | .imax d a b
  | .iabsd d a b | .and d a b | .or d a b | .xor d a b | .andn d a b | .shl d a b | .shr d a b | .sar d a b
  | .rot d a b => op3 d a b
  | .popc d a | .clz d a | .brev d a => op2 d a
  | .bfe d a b | .bfi d a b | .add64 d a b | .lea64 d a b | .iadds d a b | .isubs d a b | .perm d a b
  | .mulw d a b => op3 d a b
  | .fneg d a | .fabs d a | .frnd d a | .fclass d a => op2 d a
  | .fadd d a b | .fsub d a b | .fmul d a b | .fma d a b | .fmin d a b | .fmax d a b | .fscale d a b
  | .fnma d a b | .fcpys d a b | .fdot2 d a b => op3 d a b
  | .cvt _ d a => op2 d a
  | .cvts d a b | .pack2 d a b | .unpk d a b | .hfma2 d a b | .hadd2 d a b | .hmul2 d a b | .dot4 d a b
  | .ivadd d a b | .ivsub d a b | .ivmul d a b | .ivhull d a b | .vexpr d a b | .tbl d a b => op3 d a b
  | .ivsqr d a => op2 d a
  | .fcmp _ p a b => p < 16 && op2 a b
  | .icmp cc p a b => cc.integer && p < 16 && op2 a b
  | .plog pd pa pb pc tt => pd < 16 && pa < 16 && pb < 16 && pc < 16 && tt < 256
  | .sel d a b | .shfl d a b | .shflx d a b | .shflu d a b | .shfld d a b | .smov d a b | .trace d a b => op3 d a b
  | .vote p d m => p < 16 && op2 d m
  | .gshfl look _ d a => look14 look && op2 d a
  | .gscan _ d a | .mov d a | .bcast d a => op2 d a
  | .sread d idx | .sysr d idx => d.wf && idx < 256
  | .swrite idx a | .sysw idx a => idx < 256 && a.wf
  | .lit d imm | .lith d imm | .addi d imm | .andi d imm | .ori d imm | .xori d imm | .flit d imm =>
      d.wf && imm < 65536
  | .shli d n | .shri d n | .sari d n => d.wf && n < 128
  | .icmpi cc p a imm => cc.integer && p < 16 && a.wf && imm < 256
  | .frame n => n < 256
  | .frcp look d a | .frsq look d a | .fsqrt look d a | .fexp2 look d a | .flog2 look d a | .fsin look d a
  | .fcos look d a | .ftanh look d a | .fdiv look d a | .idiv look d a | .irem look d a | .fsigm look d a =>
      look14 look && op2 d a
  | .ldl look n d a | .stl look n d a | .ldp look n d a | .stp look n d a | .ldk look n d a =>
      look15 look && n < 16 && op2 d a
  | .ldg look _ _ d a => look15 look && op2 d a
  | .stg look _ cache d a => look15 look && cache ≠ .replicate && op2 d a
  | .pfg look l a => look15 look && l < 3 && a.wf
  | .cctl look _ a => look15 look && a.wf
  | .ldn look _ _ d a | .stn look _ _ d a => look15 look && op2 d a
  | .ldh look _ _ _ d a | .sth look _ _ _ d a => look15 look && op2 d a
  | .aadd look _ _ _ d a | .axchg look _ _ _ d a | .acas look _ _ _ d a => look15 look && op2 d a
  | .afadd look _ _ sp d a | .amin look _ _ sp d a | .amax look _ _ sp d a | .aand look _ _ sp d a
  | .aor look _ _ sp d a | .axor look _ _ sp d a | .ainc look _ _ sp d a | .adec look _ _ sp d a =>
      look15 look && sp ≠ .host && op2 d a
  | .fence look _ => look14 look
  | .qfence look mask bar => (if bar.isSome then look15 look else look14 look) && 0 < mask && mask < 32 && barWf bar
  | .binit look b a => look14 look && b < 16 && a.wf
  | .barv look b d a => look14 look && b < 16 && op2 d a
  | .bwait b _ a => b < 16 && a.wf
  | .btest b p _ a => b < 16 && p < 16 && a.wf
  | .bexp look b a => look14 look && b < 16 && a.wf
  | .copy look b _ a | .csum look b a => look15 look && b < 16 && a.wf
  | .pipe d | .tick d => d.wf
  | .qput look d a => look14 look && op2 d a
  | .mpass look bar a | .mdelta look bar a | .merge look bar a => look15 look && barWf bar && a.wf
  | .mzero look n | .mdrain look n => look14 look && n < 16
  | .mstore look n _ _ _ bar a | .mload look n _ _ _ bar a => look15 look && n < 16 && barWf bar && a.wf
  | .mwait tile => barWf tile
  | .cbind look d a | .cstat look d a | .mstat look d a => look14 look && op2 d a
  | .cdrop look a | .cfresh look a => look15 look && a.wf
  | .march look b d a => look15 look && b < 16 && op2 d a
  | .buck look b slot a => look15 look && b < 16 && slot < 4 && a.wf
  | .cqpop look d a => look14 look && op2 d a
  | .cqret look d a | .boxt look d a | .visw look d a | .trit look _ d a | .vfetch look _ d a => look15 look && op2 d a
  | .feval look mode slot d a => look14 look && mode < 4 && slot < 4 && op2 d a
  | .fbind look slot _ d a => look14 look && slot < 4 && op2 d a
  | .tblload look k a => look14 look && k < 2 && a.wf
  | .rft _ d a => op2 d a
  | .pendingResultComplete .. | .asyncTrap .. | .waitTimeout .. | .hangDetector .. | .sleepWake .. | .joinRelease ..
  | .joinAgeEscape .. | .voteComplete .. | .shuffleComplete .. | .bwaitComplete .. | .yieldResume ..
  | .barvHeldRelease .. | .waitaddrReread .. | .mwaitComplete .. | .tblloadComplete .. | .pipeDepthUpdate ..
  | .passGrant .. | .tileOpGrant .. | .passComplete .. | .emulatedPassComplete .. | .mdeltaGrant ..
  | .copyCollectiveStart .. | .copyChunkLand .. | .copyCollectiveArrive .. | .copyFault .. | .csumComplete ..
  | .marchRayStep .. | .cqRequestAppend .. | .cqRequestTimeout .. | .marchBatchArrive .. | .buckPerform ..
  | .fbindPerform .. | .fevalComplete .. | .cqpopTake .. | .mergeJobStart .. | .mergeJobEnd .. | .qfenceArrive ..
  | .notifyWrite .. | .queueExamine .. | .launch .. | .barrierAnd .. | .barrierAndComplete .. | .signal .. | .raster ..
  | .marker .. | .packetComplete .. | .teamPlace .. | .teamExit .. | .compactorRun .. | .compactorMove ..
  | .pageMigration .. | .hotnessEpoch .. | .patrolScrub | .igo .. | .invalidationComplete .. | .snap ..
  | .sreq .. | .rreq .. | .priorityPreempt .. | .maskOverrun .. | .suspend .. | .coreStateWrite ..
  | .controlCoreRestart .. | .createContext .. | .destroyContext .. | .createQueue .. | .destroyQueue ..
  | .reloadQueue .. | .unknownCommand .. | .binRecordWrite .. | .registerWrite .. | .loadCodeObject ..
  | .getVersion | .getCapabilities | .negotiateAlgorithms .. | .getDigests | .getCertificate .. | .challenge ..
  | .getMeasurements .. | .getVendorDefinedMessageSupport | .firmwareUpdate .. | .setPowerLimit .. | .ageingReport
  | .setInstructionComparator .. | .setDataComparator .. | .armFreezeTick .. | .freezeStatus .. | .scanRead ..
  | .scanWrite .. | .moduleResume .. | .startCapture .. | .stopCapture .. | .captureStatus .. | .startReplay ..
  | .replayStatus .. | .moduleFreeze | .coldReset | .dieReset .. | .ioDieReset .. | .linkReset .. | .flitRetry ..
  | .linkDeliveryTimeout .. | .voltageReplan .. | .domainJoin .. | .peerRequest .. | .hostCxlMemRequest ..
  | .hostSnoop .. | .softError .. | .hbmStackFault .. => true

end Sys2Proof
end

