-- ==== Sys2Proof/Decode.lean ====
section
/-! DEFINITION. Decoding a 32-bit word to an instruction, refusing by name what 02 R48 makes illegal, and the encoder
written from the same formats (02 R21–R23, R45). -/

namespace Sys2Proof

/-- Why a word is no instruction (02 R34, R48). -/
inductive DecodeError
  /-- a reserved opcode -/
  | reservedOpcode
  /-- a set bit in a field the entry marks reserved -/
  | reservedField
  /-- a value the entry marks reserved in one of its fields -/
  | reservedValue
  /-- an operand specifier 0xF3–0xFF -/
  | reservedSpecifier
  /-- look = 15 (or any look outside the entry's range) -/
  | reservedLook
  deriving DecidableEq, Repr

/-- The fields of a word in every format (02 R21): opcode, the fields of T (d, a, b), of L (look, mod, d, a), imm16,
the J fields c and off20, the payload. -/
structure Fields where
  op : Nat
  d : Nat
  a : Nat
  b : Nat
  look : Nat
  mod : Nat
  imm : Nat
  off : Nat
  payload : Nat
  deriving DecidableEq, Repr

def fieldsOf (w : Nat) : Fields where
  op := w / 16777216 % 256
  d := w / 65536 % 256
  a := w / 256 % 256
  b := w % 256
  look := w / 1048576 % 16
  mod := w / 65536 % 16
  imm := w % 65536
  off := w % 1048576
  payload := w % 16777216

/-- 02 R23. -/
def operandOf (c : Nat) : Except DecodeError Operand :=
  if c < 192 then .ok (.v c)
  else if c < 240 then .ok (.s (c - 192))
  else if c = 240 then .ok .zero
  else if c = 241 then .ok .lane
  else if c = 242 then .ok .drain
  else .error .reservedSpecifier

/-- 02 R23, the code of an operand. -/
def Operand.code : Operand → Nat
  | .v n => n
  | .s n => 192 + n
  | .zero => 240
  | .lane => 241
  | .drain => 242

/-- 02 R32. -/
def tyOf (c : Nat) : Option Ty :=
  [Ty.b8, .b16, .b32, .b64, .b128, .i8, .i16, .i32, .i64, .n8, .n16, .n32, .n64,
   .f16, .bf16, .f32, .f64, .k8, .e4m3, .e2m1][c]?

def Ty.code : Ty → Nat
  | .b8 => 0 | .b16 => 1 | .b32 => 2 | .b64 => 3 | .b128 => 4
  | .i8 => 5 | .i16 => 6 | .i32 => 7 | .i64 => 8
  | .n8 => 9 | .n16 => 10 | .n32 => 11 | .n64 => 12
  | .f16 => 13 | .bf16 => 14 | .f32 => 15 | .f64 => 16 | .k8 => 17 | .e4m3 => 18 | .e2m1 => 19

/-- 02 R31, ROUND. -/
def rndOf (c : Nat) : Option Rnd := [Rnd.rne, .rtz, .rup, .rdn, .rna, .sto][c]?
def Rnd.code : Rnd → Nat
  | .rne => 0 | .rtz => 1 | .rup => 2 | .rdn => 3 | .rna => 4 | .sto => 5

/-- 02 R31, SCOPE. -/
def scopeOf (c : Nat) : Option Scope := [Scope.group, .team, .cluster, .die, .module, .domain, .system][c]?
def Scope.code : Scope → Nat
  | .group => 0 | .team => 1 | .cluster => 2 | .die => 3 | .module => 4 | .domain => 5 | .system => 6

/-- 04 R110. -/
def ccOf (c : Nat) : Option CC :=
  [CC.eq, .ne, .lt, .le, .gt, .ge, .tst, .ntst, .ueq, .une, .ult, .ule, .ugt, .uge][c]?
def CC.code : CC → Nat
  | .eq => 0 | .ne => 1 | .lt => 2 | .le => 3 | .gt => 4 | .ge => 5 | .tst => 6 | .ntst => 7
  | .ueq => 8 | .une => 9 | .ult => 10 | .ule => 11 | .ugt => 12 | .uge => 13

def cacheOf (c : Nat) : CachePol :=
  if c = 0 then .normal else if c = 1 then .stream else if c = 2 then .replicate else .bypass
def CachePol.code : CachePol → Nat
  | .normal => 0 | .stream => 1 | .replicate => 2 | .bypass => 3

def atomSpOf (c : Nat) : AtomSp :=
  if c = 0 then .global else if c = 1 then .landing else if c = 2 then .peer else .host
def AtomSp.code : AtomSp → Nat
  | .global => 0 | .landing => 1 | .peer => 2 | .host => 3

def cctlOf (c : Nat) : Option CctlOp := [CctlOp.iinv, .l1inv, .vcinv, .rdcinv, .lineinv][c]?
def CctlOp.code : CctlOp → Nat
  | .iinv => 0 | .l1inv => 1 | .vcinv => 2 | .rdcinv => 3 | .lineinv => 4

def scanOf (c : Nat) : Option ScanOp := [ScanOp.add, .min, .max, .and, .or, .xor][c]?
def ScanOp.code : ScanOp → Nat
  | .add => 0 | .min => 1 | .max => 2 | .and => 3 | .or => 4 | .xor => 5

def FenceKind.code : FenceKind → Nat
  | .acq => 1 | .rel => 2 | .full => 3

/-- off20 read as a signed number (02 R22). -/
def offOf (o : Nat) : Int := if o < 524288 then (o : Int) else (o : Int) - 1048576
def offCode (off : Int) : Nat := (off % 1048576).toNat

/-- The payload of SETMODE read as GM (02 R31, R34). -/
def gmOf (p : Nat) : Except DecodeError GM :=
  if p % 32 ≠ 0 then .error .reservedField else
  match tyOf (p / 16384 % 32), rndOf (p / 2048 % 8), scopeOf (p / 64 % 8) with
  | some ty, some r, some sc => .ok
      { ginv := p / 8388608 % 2 == 1, gpred := p / 524288 % 16, type := ty, round := r,
        sat := p / 1024 % 2 == 1, ftz := p / 512 % 2 == 1, scope := sc, ftb := p / 32 % 2 == 1 }
  | _, _, _ => .error .reservedValue

/-- GM[23:0] as bits (02 R31). -/
def GM.code (g : GM) : Nat :=
  8388608 * g.ginv.toNat + 524288 * g.gpred + 16384 * g.type.code + 2048 * g.round.code +
  1024 * g.sat.toNat + 512 * g.ftz.toNat + 64 * g.scope.code + 32 * g.ftb.toNat

/-- Refuses a set bit of a reserved field (02 R48). -/
def res (x : Nat) : Except DecodeError Unit := if x = 0 then .ok () else .error .reservedField

def need {α} : Option α → Except DecodeError α
  | some x => .ok x
  | none => .error .reservedValue

def check (c : Bool) (e : DecodeError) : Except DecodeError Unit := if c then .ok () else .error e

/-- T format with three operands. -/
def decT3 (k : Operand → Operand → Operand → Instr) (f : Fields) : Except DecodeError Instr := do
  let d ← operandOf f.d
  let a ← operandOf f.a
  let b ← operandOf f.b
  return k d a b

/-- T format with d and a, b reserved. -/
def decT2 (k : Operand → Operand → Instr) (f : Fields) : Except DecodeError Instr := do
  let d ← operandOf f.d
  let a ← operandOf f.a
  res f.b
  return k d a

/-- I format, d and imm16. -/
def decI (k : Operand → Nat → Instr) (f : Fields) : Except DecodeError Instr := do
  let d ← operandOf f.d
  return k d f.imm

/-- I format of the shifts: imm16[15:7] reserved (05 R129). -/
def decIShift (k : Operand → Nat → Instr) (f : Fields) : Except DecodeError Instr := do
  let d ← operandOf f.d
  res (f.imm / 128)
  return k d f.imm

/-- L format whose look lies below `max`: d at [15:8] and a at [7:0]. -/
def decL (max : Nat) (k : Nat → Operand → Operand → Instr) (f : Fields) : Except DecodeError Instr := do
  check (f.look < max) .reservedLook
  let d ← operandOf f.a
  let a ← operandOf f.b
  return k f.look d a

/-- L format with mod reserved. -/
def decL0 (max : Nat) (k : Nat → Operand → Operand → Instr) (f : Fields) : Except DecodeError Instr := do
  res f.mod
  decL max k f

/-- L format with only an a operand: d reserved. -/
def decLa (max : Nat) (k : Nat → Operand → Instr) (f : Fields) : Except DecodeError Instr := do
  check (f.look < max) .reservedLook
  res f.a
  let a ← operandOf f.b
  return k f.look a

/-- L format of the engine posts: d[0] = BAR, d[7:1] reserved, mod = N (11 R283). Without a barrier mod is 0 as assembled;
no entry marks another value reserved, so it is ignored (log entry 13). -/
def decBar (max : Nat) (k : Nat → Option Nat → Operand → Instr) (f : Fields) : Except DecodeError Instr := do
  check (f.look < max) .reservedLook
  res (f.a / 2)
  let a ← operandOf f.b
  return k f.look (if f.a = 1 then some f.mod else none) a

/-- The atomics: mod[1:0] the space, mod[3:2] acquire and release; only AADD, AXCHG and ACAS in host space
(09 R229, R231). -/
def decAtom (host : Bool) (k : Nat → Bool → Bool → AtomSp → Operand → Operand → Instr) (f : Fields) :
    Except DecodeError Instr := do
  check (f.look < 16) .reservedLook
  check (host || f.mod % 4 ≠ 3) .reservedValue
  let d ← operandOf f.a
  let a ← operandOf f.b
  return k f.look (f.mod / 4 % 2 == 1) (f.mod / 8 == 1) (atomSpOf (f.mod % 4)) d a

/-- MSTORE and MLOAD: d[0] SP, d[1] COL, d[2] PAIR, d[3] BAR, d[7:4] M (11 R286), ignored without BAR (log entry 13). -/
def decTile (k : Nat → Nat → Bool → Bool → Bool → Option Nat → Operand → Instr) (f : Fields) :
    Except DecodeError Instr := do
  check (f.look < 16) .reservedLook
  let a ← operandOf f.b
  let sp := f.a % 2 == 1
  let col := f.a / 2 % 2 == 1
  let pair := f.a / 4 % 2 == 1
  return k f.look f.mod sp col pair (if f.a / 8 % 2 = 1 then some (f.a / 16) else none) a

def decRow0 (f : Fields) : Except DecodeError Instr :=
  match f.op % 16 with
  | 1 => do res f.payload; return .nop
  | 2 => do let g ← gmOf f.payload; return .setmode g
  | 3 => return .bra (f.payload / 1048576) (offOf f.off)
  | 4 => return .bru (f.payload / 1048576) (offOf f.off)
  | 5 => do res f.payload; return .join
  | 6 => do
      check (f.payload / 1048576 < 13) .reservedValue
      return .call (f.payload / 1048576) (offOf f.off)
  | 7 => do
      res f.d
      res (f.b / 16)
      check (f.b < 13) .reservedValue
      let a ← operandOf f.a
      return .callx f.b a
  | 8 => do res f.payload; return .ret
  | 9 => do
      res f.d
      res f.b
      let a ← operandOf f.a
      return .brx a
  | 10 => do res f.payload; return .exit
  | 11 => return .yield (f.payload / 1048576) (offOf f.off)
  | 12 => do
      res f.look
      check (f.mod % 8 < 6) .reservedValue
      let cc ← need (ccOf (f.mod % 8))
      let d ← operandOf f.a
      let a ← operandOf f.b
      return .waitaddr (f.mod / 8 == 1) cc d a
  | 13 => return .sleep f.payload
  | 14 => do res (f.payload / 65536); return .trap f.imm
  | 15 => do res (f.payload / 65536); return .bkpt f.imm
  | _ => .error .reservedOpcode

def decRow1 (f : Fields) : Except DecodeError Instr :=
  match f.op % 16 with
  | 0 => decT3 .iadd f
  | 1 => decT3 .isub f
  | 2 => decT3 .imul f
  | 3 => decT3 .imulh f
  | 4 => decT3 .imad f
  | 5 => decT3 .imin f
  | 6 => decT3 .imax f
  | 7 => decT3 .iabsd f
  | 8 => decT3 .and f
  | 9 => decT3 .or f
  | 10 => decT3 .xor f
  | 11 => decT3 .andn f
  | 12 => decT3 .shl f
  | 13 => decT3 .shr f
  | 14 => decT3 .sar f
  | _ => decT3 .rot f

def decRow2 (f : Fields) : Except DecodeError Instr :=
  match f.op % 16 with
  | 0 => decT2 .popc f
  | 1 => decT2 .clz f
  | 2 => decT2 .brev f
  | 3 => decT3 .bfe f
  | 4 => decT3 .bfi f
  | 5 => decT3 .add64 f
  | 6 => decT3 .lea64 f
  | 7 => decT3 .iadds f
  | 8 => decT3 .isubs f
  | 9 => decT3 .perm f
  | 10 => decT3 .mulw f
  | _ => .error .reservedOpcode

def decRow3 (f : Fields) : Except DecodeError Instr :=
  match f.op % 16 with
  | 0 => decT3 .fadd f
  | 1 => decT3 .fsub f
  | 2 => decT3 .fmul f
  | 3 => decT3 .fma f
  | 4 => decT3 .fmin f
  | 5 => decT3 .fmax f
  | 6 => decT2 .fneg f
  | 7 => decT2 .fabs f
  | 8 => decT2 .frnd f
  | 9 => decT2 .fclass f
  | 10 => decT3 .fscale f
  | 11 => decT3 .fnma f
  | 12 => decT3 .fcpys f
  | 13 => decT3 .fdot2 f
  | _ => .error .reservedOpcode

def decRow4 (f : Fields) : Except DecodeError Instr :=
  match f.op % 16 with
  | 0 => do
      res (f.b / 32)
      let ty ← need (tyOf f.b)
      let d ← operandOf f.d
      let a ← operandOf f.a
      return .cvt ty d a
  | 1 => decT3 .cvts f
  | 2 => decT3 .pack2 f
  | 3 => decT3 .unpk f
  | 4 => decT3 .hfma2 f
  | 5 => decT3 .hadd2 f
  | 6 => decT3 .hmul2 f
  | 7 => decT3 .dot4 f
  | 8 => decT3 .ivadd f
  | 9 => decT3 .ivsub f
  | 10 => decT3 .ivmul f
  | 11 => decT2 .ivsqr f
  | 12 => decT3 .ivhull f
  | 13 => decT3 .vexpr f
  | 14 => decT3 .tbl f
  | _ => .error .reservedOpcode

def decRow5 (f : Fields) : Except DecodeError Instr :=
  match f.op % 16 with
  | 0 => do
      let cc ← need (ccOf (f.d / 16))
      let a ← operandOf f.a
      let b ← operandOf f.b
      return .fcmp cc (f.d % 16) a b
  | 1 => do
      check (f.d / 16 < 8) .reservedValue
      let cc ← need (ccOf (f.d / 16))
      let a ← operandOf f.a
      let b ← operandOf f.b
      return .icmp cc (f.d % 16) a b
  | 2 => return .plog (f.d % 16) (f.a % 16) (f.a / 16) (f.d / 16) f.b
  | 3 => decT3 .sel f
  | 4 => do
      res (f.a / 16)
      let d ← operandOf f.d
      let m ← operandOf f.b
      return .vote (f.a % 16) d m
  | 5 => decT3 .shfl f
  | 6 => decT3 .shflx f
  | 7 => decT3 .shflu f
  | 8 => decT3 .shfld f
  | 9 => do
      res (f.mod / 2)
      decL 15 (fun look d a => .gshfl look (f.mod % 2 == 1) d a) f
  | 10 => do
      res (f.b / 8)
      let op ← need (scanOf f.b)
      let d ← operandOf f.d
      let a ← operandOf f.a
      return .gscan op d a
  | 11 => decT2 .mov f
  | 12 => decT3 .smov f
  | 13 => decT2 .bcast f
  | 14 => do
      res f.b
      let d ← operandOf f.d
      return .sread d f.a
  | _ => do
      res f.b
      let a ← operandOf f.a
      return .swrite f.d a

def decRow6 (f : Fields) : Except DecodeError Instr :=
  match f.op % 16 with
  | 0 => decI .lit f
  | 1 => decI .lith f
  | 2 => decI .addi f
  | 3 => decI .andi f
  | 4 => decI .ori f
  | 5 => decI .xori f
  | 6 => decIShift .shli f
  | 7 => decIShift .shri f
  | 8 => decIShift .sari f
  | 9 => decI .flit f
  | 10 => do
      check (f.d / 16 < 8) .reservedValue
      let cc ← need (ccOf (f.d / 16))
      let a ← operandOf f.a
      return .icmpi cc (f.d % 16) a f.b
  | 11 => do
      res f.d
      res f.a
      return .frame f.b
  | _ => .error .reservedOpcode

def decRow7 (f : Fields) : Except DecodeError Instr :=
  match f.op % 16 with
  | 0 => decL0 15 .frcp f
  | 1 => decL0 15 .frsq f
  | 2 => decL0 15 .fsqrt f
  | 3 => decL0 15 .fexp2 f
  | 4 => decL0 15 .flog2 f
  | 5 => decL0 15 .fsin f
  | 6 => decL0 15 .fcos f
  | 7 => decL0 15 .ftanh f
  | 8 => decL0 15 .fdiv f
  | 9 => decL0 15 .idiv f
  | 10 => decL0 15 .irem f
  | 11 => decL0 15 .fsigm f
  | _ => .error .reservedOpcode

def decRow8 (f : Fields) : Except DecodeError Instr :=
  match f.op % 16 with
  | 0 => decL 16 (fun look d a => .ldl look f.mod d a) f
  | 1 => decL 16 (fun look d a => .stl look f.mod d a) f
  | 2 => decL 16 (fun look d a => .ldp look f.mod d a) f
  | 3 => decL 16 (fun look d a => .stp look f.mod d a) f
  | 4 => decL 16 (fun look d a => .ldk look f.mod d a) f
  | _ => .error .reservedOpcode

/-- The ordering field of a load: 0 or 1 (07 R182). -/
def loadOrd (m : Nat) : Except DecodeError Bool := if m = 0 then .ok false else if m = 1 then .ok true else .error .reservedValue
/-- The ordering field of a store: 0 or 2 (07 R182). -/
def storeOrd (m : Nat) : Except DecodeError Bool := if m = 0 then .ok false else if m = 2 then .ok true else .error .reservedValue

def decRow9 (f : Fields) : Except DecodeError Instr :=
  match f.op % 16 with
  | 0 => do
      let acq ← loadOrd (f.mod / 4)
      decL 16 (fun look d a => .ldg look acq (cacheOf (f.mod % 4)) d a) f
  | 1 => do
      let rel ← storeOrd (f.mod / 4)
      check (f.mod % 4 ≠ 2) .reservedValue
      decL 16 (fun look d a => .stg look rel (cacheOf (f.mod % 4)) d a) f
  | 2 => do
      res (f.mod / 4)
      check (f.mod < 3) .reservedValue
      decLa 16 (fun look a => .pfg look f.mod a) f
  | 3 => do
      let op ← need (cctlOf f.mod)
      decLa 16 (fun look a => .cctl look op a) f
  | _ => .error .reservedOpcode

def decRowA (f : Fields) : Except DecodeError Instr :=
  match f.op % 16 with
  | 0 => do
      let acq ← loadOrd (f.mod / 4)
      res (f.mod / 2 % 2)
      decL 16 (fun look d a => .ldn look acq (f.mod % 2 == 1) d a) f
  | 1 => do
      let rel ← storeOrd (f.mod / 4)
      res (f.mod % 2)
      decL 16 (fun look d a => .stn look rel (f.mod / 2 % 2 == 1) d a) f
  | 2 => do
      let acq ← loadOrd (f.mod / 4)
      decL 16 (fun look d a => .ldh look acq (f.mod / 2 % 2 == 1) (f.mod % 2 == 1) d a) f
  | 3 => do
      let rel ← storeOrd (f.mod / 4)
      decL 16 (fun look d a => .sth look rel (f.mod / 2 % 2 == 1) (f.mod % 2 == 1) d a) f
  | _ => .error .reservedOpcode

def decRowB (f : Fields) : Except DecodeError Instr :=
  match f.op % 16 with
  | 0 => decAtom true .aadd f
  | 1 => decAtom false .afadd f
  | 2 => decAtom false .amin f
  | 3 => decAtom false .amax f
  | 4 => decAtom false .aand f
  | 5 => decAtom false .aor f
  | 6 => decAtom false .axor f
  | 7 => decAtom true .axchg f
  | 8 => decAtom true .acas f
  | 9 => decAtom false .ainc f
  | 10 => decAtom false .adec f
  | _ => .error .reservedOpcode

def decRowC (f : Fields) : Except DecodeError Instr :=
  match f.op % 16 with
  | 0 => do
      check (f.look < 15) .reservedLook
      res (f.mod / 4)
      res f.imm
      if f.mod = 1 then return .fence f.look .acq
      else if f.mod = 2 then return .fence f.look .rel
      else if f.mod = 3 then return .fence f.look .full
      else .error .reservedValue
  | 1 => do
      res f.mod
      res (f.a / 32)
      res (f.b / 32)
      check (f.a ≠ 0) .reservedValue
      if f.b / 16 = 1 then return .qfence f.look f.a (some (f.b % 16))
      else do
        check (f.look < 15) .reservedLook
        return .qfence f.look f.a none
  | 2 => decLa 15 (fun look a => .binit look f.mod a) f
  | 3 => decL 15 (fun look d a => .barv look f.mod d a) f
  | 4 => do
      check (f.look = 0) .reservedLook
      res (f.a / 2)
      let a ← operandOf f.b
      return .bwait f.mod (f.a == 1) a
  | 5 => do
      check (f.look = 0) .reservedLook
      res (f.a / 32)
      let a ← operandOf f.b
      return .btest f.mod (f.a % 16) (f.a / 16 == 1) a
  | 6 => decLa 15 (fun look a => .bexp look f.mod a) f
  | 7 => do
      check (f.look < 16) .reservedLook
      res (f.a / 2)
      let a ← operandOf f.b
      return .copy f.look f.mod (f.a == 1) a
  | 8 => decLa 16 (fun look a => .csum look f.mod a) f
  | 9 => do
      check (f.look = 0) .reservedLook
      res f.mod
      res f.b
      let d ← operandOf f.a
      return .pipe d
  | 10 => do res f.payload; return .piperel
  | 11 => decL0 15 .qput f
  | _ => .error .reservedOpcode

def decRowD (f : Fields) : Except DecodeError Instr :=
  match f.op % 16 with
  | 0 => decBar 16 .mpass f
  | 1 => do check (f.look < 15) .reservedLook; res f.imm; return .mzero f.look f.mod
  | 2 => do check (f.look < 15) .reservedLook; res f.imm; return .mdrain f.look f.mod
  | 3 => decTile .mstore f
  | 4 => decTile .mload f
  | 5 => do
      check (f.look = 0) .reservedLook
      res (f.a / 2)
      res f.b
      if f.a = 1 then do
        res f.mod
        return .mwait none
      else return .mwait (some f.mod)
  | 6 => decBar 16 .mdelta f
  | 7 => decL0 15 .cbind f
  | 8 => do res f.mod; decLa 16 .cdrop f
  | 9 => decL0 15 .cstat f
  | 10 => do res f.mod; decLa 16 .cfresh f
  | _ => .error .reservedOpcode

def decRowE (f : Fields) : Except DecodeError Instr :=
  match f.op % 16 with
  | 0 => decL 16 (fun look d a => .march look f.mod d a) f
  | 1 => do
      check (f.look < 16) .reservedLook
      res (f.a / 4)
      let a ← operandOf f.b
      return .buck f.look f.mod f.a a
  | 2 => decL0 15 .cqpop f
  | 3 => decL0 16 .cqret f
  | 4 => decL0 16 .boxt f
  | 5 => do res (f.mod / 2); decL 16 (fun look d a => .trit look (f.mod % 2 == 1) d a) f
  | 6 => do res (f.mod / 2); decL 16 (fun look d a => .vfetch look (f.mod % 2 == 1) d a) f
  | 7 => decL0 16 .visw f
  | 8 => decBar 16 .merge f
  | 9 => decL0 15 .mstat f
  | 10 => decL 15 (fun look d a => .feval look (f.mod % 4) (f.mod / 4) d a) f
  | 11 => do res (f.mod / 8); decL 15 (fun look d a => .fbind look (f.mod % 4) (f.mod / 4 % 2 == 1) d a) f
  | _ => .error .reservedOpcode

def decRowF (f : Fields) : Except DecodeError Instr :=
  match f.op % 16 with
  | 0 => do
      check (f.look < 15) .reservedLook
      res f.mod
      res (f.a / 2)
      let a ← operandOf f.b
      return .tblload f.look f.a a
  | 1 => do
      res f.b
      let d ← operandOf f.d
      return .sysr d f.a
  | 2 => do
      res f.b
      let a ← operandOf f.a
      return .sysw f.d a
  | 3 => do
      res f.imm
      let d ← operandOf f.d
      return .tick d
  | 4 => do
      res (f.payload / 131072)
      let d ← operandOf f.a
      let a ← operandOf f.b
      return .rft (f.d % 2 == 1) d a
  | 5 => do res (f.payload / 2); return .premask (f.payload == 1)
  | 6 => decT3 .trace f
  | _ => .error .reservedOpcode

/-- The instruction of a word by its opcode row (02 R45). -/
def decodeFields (f : Fields) : Except DecodeError Instr :=
  match f.op / 16 with
  | 0 => decRow0 f
  | 1 => decRow1 f
  | 2 => decRow2 f
  | 3 => decRow3 f
  | 4 => decRow4 f
  | 5 => decRow5 f
  | 6 => decRow6 f
  | 7 => decRow7 f
  | 8 => decRow8 f
  | 9 => decRow9 f
  | 10 => decRowA f
  | 11 => decRowB f
  | 12 => decRowC f
  | 13 => decRowD f
  | 14 => decRowE f
  | _ => decRowF f

/-- The instruction a word holds, or why it is illegal (02 R48). -/
def decode (w : Word) : Except DecodeError Instr := decodeFields (fieldsOf w.toNat)

/-- A word from its four bytes at ascending addresses (00 R4). -/
def wordOfBytes (b0 b1 b2 b3 : Byte) : Word :=
  BitVec.ofNat 32 (b0.toNat + 256 * b1.toNat + 65536 * b2.toNat + 16777216 * b3.toNat)

/-- Decoding four bytes as memory holds them. -/
def decodeBytes : List Byte → Except DecodeError Instr
  | [b0, b1, b2, b3] => decode (wordOfBytes b0 b1 b2 b3)
  | _ => .error .reservedOpcode

/-- The bytes of the instruction word at ascending addresses (00 R4). -/
def bytesOfWord (w : Word) : List Byte :=
  [BitVec.ofNat 8 w.toNat, BitVec.ofNat 8 (w.toNat / 256), BitVec.ofNat 8 (w.toNat / 65536),
   BitVec.ofNat 8 (w.toNat / 16777216)]

/-- What the decoder reads from a row of the opcode table: every row with bits is one 32-bit word. -/
def decodeTableWord (nbits w : Nat) : Option Instr :=
  if nbits ≤ 32 then
    match decodeBytes (bytesOfWord (BitVec.ofNat 32 w)) with
    | .ok i => some i
    | .error _ => none
  else none

/-! ## The encoder -/

def encT (op d a b : Nat) : Nat := 16777216 * op + 65536 * d + 256 * a + b
def encT3 (op : Nat) (d a b : Operand) : Nat := encT op d.code a.code b.code
def encT2 (op : Nat) (d a : Operand) : Nat := encT op d.code a.code 0
def encI (op : Nat) (d : Operand) (imm : Nat) : Nat := 16777216 * op + 65536 * d.code + imm
def encL (op look mod d a : Nat) : Nat := 16777216 * op + 1048576 * look + 65536 * mod + 256 * d + a
def encLo (op look mod : Nat) (d a : Operand) : Nat := encL op look mod d.code a.code
def encJ (op c : Nat) (off : Int) : Nat := 16777216 * op + 1048576 * c + offCode off
def encM (op payload : Nat) : Nat := 16777216 * op + payload
def encBar (op look : Nat) (bar : Option Nat) (a : Operand) : Nat :=
  match bar with
  | some n => encL op look n 1 a.code
  | none => encL op look 0 0 a.code
def encAtom (op look : Nat) (acq rel : Bool) (sp : AtomSp) (d a : Operand) : Nat :=
  encLo op look (8 * rel.toNat + 4 * acq.toNat + sp.code) d a
def encTile (op look n : Nat) (sp col pair : Bool) (bar : Option Nat) (a : Operand) : Nat :=
  let flags := sp.toNat + 2 * col.toNat + 4 * pair.toNat
  match bar with
  | some m => encL op look n (flags + 8 + 16 * m) a.code
  | none => encL op look n flags a.code

/-- The word of an instruction (02 R21, R45); none for an event. -/
def encode : Instr → Option Nat
  | .nop => some (encM 0x01 0)
  | .setmode gm => some (encM 0x02 gm.code)
  | .bra c off => some (encJ 0x03 c off)
  | .bru c off => some (encJ 0x04 c off)
  | .join => some (encM 0x05 0)
  | .call c off => some (encJ 0x06 c off)
  | .callx c a => some (encT 0x07 0 a.code c)
  | .ret => some (encM 0x08 0)
  | .brx a => some (encT 0x09 0 a.code 0)
  | .exit => some (encM 0x0A 0)
  | .yield b off => some (encJ 0x0B b off)
  | .waitaddr acq cc d a => some (encLo 0x0C 0 (8 * acq.toNat + cc.code) d a)
  | .sleep n => some (encM 0x0D n)
  | .trap n => some (encM 0x0E n)
  | .bkpt n => some (encM 0x0F n)
  | .iadd d a b => some (encT3 0x10 d a b)
  | .isub d a b => some (encT3 0x11 d a b)
  | .imul d a b => some (encT3 0x12 d a b)
  | .imulh d a b => some (encT3 0x13 d a b)
  | .imad d a b => some (encT3 0x14 d a b)
  | .imin d a b => some (encT3 0x15 d a b)
  | .imax d a b => some (encT3 0x16 d a b)
  | .iabsd d a b => some (encT3 0x17 d a b)
  | .and d a b => some (encT3 0x18 d a b)
  | .or d a b => some (encT3 0x19 d a b)
  | .xor d a b => some (encT3 0x1A d a b)
  | .andn d a b => some (encT3 0x1B d a b)
  | .shl d a b => some (encT3 0x1C d a b)
  | .shr d a b => some (encT3 0x1D d a b)
  | .sar d a b => some (encT3 0x1E d a b)
  | .rot d a b => some (encT3 0x1F d a b)
  | .popc d a => some (encT2 0x20 d a)
  | .clz d a => some (encT2 0x21 d a)
  | .brev d a => some (encT2 0x22 d a)
  | .bfe d a b => some (encT3 0x23 d a b)
  | .bfi d a b => some (encT3 0x24 d a b)
  | .add64 d a b => some (encT3 0x25 d a b)
  | .lea64 d a b => some (encT3 0x26 d a b)
  | .iadds d a b => some (encT3 0x27 d a b)
  | .isubs d a b => some (encT3 0x28 d a b)
  | .perm d a b => some (encT3 0x29 d a b)
  | .mulw d a b => some (encT3 0x2A d a b)
  | .fadd d a b => some (encT3 0x30 d a b)
  | .fsub d a b => some (encT3 0x31 d a b)
  | .fmul d a b => some (encT3 0x32 d a b)
  | .fma d a b => some (encT3 0x33 d a b)
  | .fmin d a b => some (encT3 0x34 d a b)
  | .fmax d a b => some (encT3 0x35 d a b)
  | .fneg d a => some (encT2 0x36 d a)
  | .fabs d a => some (encT2 0x37 d a)
  | .frnd d a => some (encT2 0x38 d a)
  | .fclass d a => some (encT2 0x39 d a)
  | .fscale d a b => some (encT3 0x3A d a b)
  | .fnma d a b => some (encT3 0x3B d a b)
  | .fcpys d a b => some (encT3 0x3C d a b)
  | .fdot2 d a b => some (encT3 0x3D d a b)
  | .cvt src d a => some (encT 0x40 d.code a.code src.code)
  | .cvts d a b => some (encT3 0x41 d a b)
  | .pack2 d a b => some (encT3 0x42 d a b)
  | .unpk d a b => some (encT3 0x43 d a b)
  | .hfma2 d a b => some (encT3 0x44 d a b)
  | .hadd2 d a b => some (encT3 0x45 d a b)
  | .hmul2 d a b => some (encT3 0x46 d a b)
  | .dot4 d a b => some (encT3 0x47 d a b)
  | .ivadd d a b => some (encT3 0x48 d a b)
  | .ivsub d a b => some (encT3 0x49 d a b)
  | .ivmul d a b => some (encT3 0x4A d a b)
  | .ivsqr d a => some (encT2 0x4B d a)
  | .ivhull d a b => some (encT3 0x4C d a b)
  | .vexpr d a b => some (encT3 0x4D d a b)
  | .tbl d a b => some (encT3 0x4E d a b)
  | .fcmp cc p a b => some (encT 0x50 (16 * cc.code + p) a.code b.code)
  | .icmp cc p a b => some (encT 0x51 (16 * cc.code + p) a.code b.code)
  | .plog pd pa pb pc tt => some (encT 0x52 (16 * pc + pd) (16 * pb + pa) tt)
  | .sel d a b => some (encT3 0x53 d a b)
  | .vote p d m => some (encT 0x54 d.code p m.code)
  | .shfl d a b => some (encT3 0x55 d a b)
  | .shflx d a b => some (encT3 0x56 d a b)
  | .shflu d a b => some (encT3 0x57 d a b)
  | .shfld d a b => some (encT3 0x58 d a b)
  | .gshfl look wrap d a => some (encLo 0x59 look wrap.toNat d a)
  | .gscan op d a => some (encT 0x5A d.code a.code op.code)
  | .mov d a => some (encT2 0x5B d a)
  | .smov d a b => some (encT3 0x5C d a b)
  | .bcast d a => some (encT2 0x5D d a)
  | .sread d idx => some (encT 0x5E d.code idx 0)
  | .swrite idx a => some (encT 0x5F idx a.code 0)
  | .lit d imm => some (encI 0x60 d imm)
  | .lith d imm => some (encI 0x61 d imm)
  | .addi d imm => some (encI 0x62 d imm)
  | .andi d imm => some (encI 0x63 d imm)
  | .ori d imm => some (encI 0x64 d imm)
  | .xori d imm => some (encI 0x65 d imm)
  | .shli d n => some (encI 0x66 d n)
  | .shri d n => some (encI 0x67 d n)
  | .sari d n => some (encI 0x68 d n)
  | .flit d imm => some (encI 0x69 d imm)
  | .icmpi cc p a imm => some (encT 0x6A (16 * cc.code + p) a.code imm)
  | .frame n => some (encT 0x6B 0 0 n)
  | .frcp look d a => some (encLo 0x70 look 0 d a)
  | .frsq look d a => some (encLo 0x71 look 0 d a)
  | .fsqrt look d a => some (encLo 0x72 look 0 d a)
  | .fexp2 look d a => some (encLo 0x73 look 0 d a)
  | .flog2 look d a => some (encLo 0x74 look 0 d a)
  | .fsin look d a => some (encLo 0x75 look 0 d a)
  | .fcos look d a => some (encLo 0x76 look 0 d a)
  | .ftanh look d a => some (encLo 0x77 look 0 d a)
  | .fdiv look d a => some (encLo 0x78 look 0 d a)
  | .idiv look d a => some (encLo 0x79 look 0 d a)
  | .irem look d a => some (encLo 0x7A look 0 d a)
  | .fsigm look d a => some (encLo 0x7B look 0 d a)
  | .ldl look n d a => some (encLo 0x80 look n d a)
  | .stl look n d a => some (encLo 0x81 look n d a)
  | .ldp look n d a => some (encLo 0x82 look n d a)
  | .stp look n d a => some (encLo 0x83 look n d a)
  | .ldk look k d a => some (encLo 0x84 look k d a)
  | .ldg look acq cache d a => some (encLo 0x90 look (4 * acq.toNat + cache.code) d a)
  | .stg look rel cache d a => some (encLo 0x91 look (8 * rel.toNat + cache.code) d a)
  | .pfg look l a => some (encL 0x92 look l 0 a.code)
  | .cctl look op a => some (encL 0x93 look op.code 0 a.code)
  | .ldn look acq na d a => some (encLo 0xA0 look (4 * acq.toNat + na.toNat) d a)
  | .stn look rel ack d a => some (encLo 0xA1 look (8 * rel.toNat + 2 * ack.toNat) d a)
  | .ldh look acq ns rlx d a => some (encLo 0xA2 look (4 * acq.toNat + 2 * ns.toNat + rlx.toNat) d a)
  | .sth look rel ns rlx d a => some (encLo 0xA3 look (8 * rel.toNat + 2 * ns.toNat + rlx.toNat) d a)
  | .aadd look acq rel sp d a => some (encAtom 0xB0 look acq rel sp d a)
  | .afadd look acq rel sp d a => some (encAtom 0xB1 look acq rel sp d a)
  | .amin look acq rel sp d a => some (encAtom 0xB2 look acq rel sp d a)
  | .amax look acq rel sp d a => some (encAtom 0xB3 look acq rel sp d a)
  | .aand look acq rel sp d a => some (encAtom 0xB4 look acq rel sp d a)
  | .aor look acq rel sp d a => some (encAtom 0xB5 look acq rel sp d a)
  | .axor look acq rel sp d a => some (encAtom 0xB6 look acq rel sp d a)
  | .axchg look acq rel sp d a => some (encAtom 0xB7 look acq rel sp d a)
  | .acas look acq rel sp d a => some (encAtom 0xB8 look acq rel sp d a)
  | .ainc look acq rel sp d a => some (encAtom 0xB9 look acq rel sp d a)
  | .adec look acq rel sp d a => some (encAtom 0xBA look acq rel sp d a)
  | .fence look k => some (encL 0xC0 look k.code 0 0)
  | .qfence look mask bar =>
      match bar with
      | some n => some (encL 0xC1 look 0 mask (16 + n))
      | none => some (encL 0xC1 look 0 mask 0)
  | .binit look b a => some (encL 0xC2 look b 0 a.code)
  | .barv look b d a => some (encLo 0xC3 look b d a)
  | .bwait b cur a => some (encL 0xC4 0 b cur.toNat a.code)
  | .btest b p cur a => some (encL 0xC5 0 b (16 * cur.toNat + p) a.code)
  | .bexp look b a => some (encL 0xC6 look b 0 a.code)
  | .copy look b role a => some (encL 0xC7 look b role.toNat a.code)
  | .csum look b a => some (encL 0xC8 look b 0 a.code)
  | .pipe d => some (encL 0xC9 0 0 d.code 0)
  | .piperel => some (encM 0xCA 0)
  | .qput look d a => some (encLo 0xCB look 0 d a)
  | .mpass look bar a => some (encBar 0xD0 look bar a)
  | .mzero look n => some (encL 0xD1 look n 0 0)
  | .mdrain look n => some (encL 0xD2 look n 0 0)
  | .mstore look n sp col pair bar a => some (encTile 0xD3 look n sp col pair bar a)
  | .mload look n sp col pair bar a => some (encTile 0xD4 look n sp col pair bar a)
  | .mwait tile =>
      match tile with
      | some n => some (encL 0xD5 0 n 0 0)
      | none => some (encL 0xD5 0 0 1 0)
  | .mdelta look bar a => some (encBar 0xD6 look bar a)
  | .cbind look d a => some (encLo 0xD7 look 0 d a)
  | .cdrop look a => some (encL 0xD8 look 0 0 a.code)
  | .cstat look d a => some (encLo 0xD9 look 0 d a)
  | .cfresh look a => some (encL 0xDA look 0 0 a.code)
  | .march look b d a => some (encLo 0xE0 look b d a)
  | .buck look b slot a => some (encL 0xE1 look b slot a.code)
  | .cqpop look d a => some (encLo 0xE2 look 0 d a)
  | .cqret look d a => some (encLo 0xE3 look 0 d a)
  | .boxt look d a => some (encLo 0xE4 look 0 d a)
  | .trit look cull d a => some (encLo 0xE5 look cull.toNat d a)
  | .vfetch look grad d a => some (encLo 0xE6 look grad.toNat d a)
  | .visw look d a => some (encLo 0xE7 look 0 d a)
  | .merge look bar a => some (encBar 0xE8 look bar a)
  | .mstat look d a => some (encLo 0xE9 look 0 d a)
  | .feval look mode slot d a => some (encLo 0xEA look (4 * slot + mode) d a)
  | .fbind look slot land d a => some (encLo 0xEB look (4 * land.toNat + slot) d a)
  | .tblload look k a => some (encL 0xF0 look 0 k a.code)
  | .sysr d idx => some (encT 0xF1 d.code idx 0)
  | .sysw idx a => some (encT 0xF2 idx a.code 0)
  | .tick d => some (encT 0xF3 d.code 0 0)
  | .rft replay d a => some (encT 0xF4 replay.toNat d.code a.code)
  | .premask en => some (encM 0xF5 en.toNat)
  | .trace d a b => some (encT3 0xF6 d a b)
  | .pendingResultComplete .. | .asyncTrap .. | .waitTimeout .. | .hangDetector .. | .sleepWake .. | .joinRelease ..
  | .joinAgeEscape .. | .voteComplete .. | .shuffleComplete .. | .bwaitComplete .. | .yieldResume ..
  | .barvHeldRelease .. | .waitaddrReread .. | .mwaitComplete .. | .tblloadComplete .. | .pipeDepthUpdate ..
  | .passGrant .. | .tileOpGrant .. | .passComplete .. | .emulatedPassComplete .. | .mdeltaGrant ..
  | .copyCollectiveStart .. | .copyChunkLand .. | .copyCollectiveArrive .. | .copyFault .. | .csumComplete ..
  | .marchRayStep .. | .cqRequestAppend .. | .cqRequestTimeout .. | .marchBatchArrive .. | .buckPerform ..
  | .fbindPerform .. | .fevalComplete .. | .cqpopTake .. | .mergeJobStart .. | .mergeJobEnd .. | .qfenceArrive ..
  | .notifyWrite .. | .queueExamine .. | .launch .. | .barrierAnd .. | .barrierAndComplete .. | .signal .. | .raster ..
  | .marker .. | .packetComplete .. | .teamPlace .. | .teamExit .. | .compactorRun .. | .compactorMove ..
  | .pageMigration .. | .hotnessEpoch .. | .patrolScrub | .igo .. | .invalidationComplete .. | .snap ..
  | .sreq .. | .rreq .. | .priorityPreempt .. | .maskOverrun .. | .suspend .. | .coreStateWrite ..
  | .controlCoreRestart .. | .createContext .. | .destroyContext .. | .createQueue .. | .destroyQueue ..
  | .reloadQueue .. | .unknownCommand .. | .binRecordWrite .. | .registerWrite .. | .loadCodeObject ..
  | .getVersion | .getCapabilities | .negotiateAlgorithms .. | .getDigests | .getCertificate .. | .challenge ..
  | .getMeasurements .. | .getVendorDefinedMessageSupport | .firmwareUpdate .. | .setPowerLimit .. | .ageingReport
  | .setInstructionComparator .. | .setDataComparator .. | .armFreezeTick .. | .freezeStatus .. | .scanRead ..
  | .scanWrite .. | .moduleResume .. | .startCapture .. | .stopCapture .. | .captureStatus .. | .startReplay ..
  | .replayStatus .. | .moduleFreeze | .coldReset | .dieReset .. | .ioDieReset .. | .linkReset .. | .flitRetry ..
  | .linkDeliveryTimeout .. | .voltageReplan .. | .domainJoin .. | .peerRequest .. | .hostCxlMemRequest ..
  | .hostSnoop .. | .softError .. | .hbmStackFault .. => none

end Sys2Proof
end

