-- ==== Sys2Proof/Machine/Sparse.lean ====
section
/-! DEFINITION. Sparse tables: lists of key and value with strictly rising keys. A table of values with a default
lists no entry equal to the default, so equal tables are equal data. -/

namespace Sys2Proof.Machine

/-- A table from numbers to values, keys strictly rising. -/
abbrev Table (α : Type) := List (Nat × α)

/-- The entry of key `k`, if listed. -/
def tfind {α : Type} : Table α → Nat → Option α
  | [], _ => none
  | (j, v) :: m, k => if j = k then some v else tfind m k

/-- The entry of key `k`, or `d` where none is listed. -/
def tget {α : Type} (d : α) (m : Table α) (k : Nat) : α := (tfind m k).getD d

/-- `m` with key `k` bound to `v`. -/
def tput {α : Type} : Table α → Nat → α → Table α
  | [], k, v => [(k, v)]
  | (j, w) :: m, k, v =>
    if j = k then (k, v) :: m else if k < j then (k, v) :: (j, w) :: m else (j, w) :: tput m k v

/-- `m` without key `k`. -/
def tdel {α : Type} : Table α → Nat → Table α
  | [], _ => []
  | (j, w) :: m, k => if j = k then tdel m k else (j, w) :: tdel m k

/-- `m` with key `k` holding `v`, where an unlisted key holds `d`. -/
def tset {α : Type} [DecidableEq α] (d : α) (m : Table α) (k : Nat) (v : α) : Table α :=
  if v = d then tdel m k else tput m k v

/-- The keys of `m` rise strictly from at least `lo`. -/
def tsorted {α : Type} : Nat → Table α → Bool
  | _, [] => true
  | lo, (j, _) :: m => decide (lo ≤ j) && tsorted (j + 1) m

/-- The canonical form of a table with default `d`: keys strictly rising, no entry equal to `d`. -/
def twf {α : Type} [DecidableEq α] (d : α) (m : Table α) : Bool :=
  tsorted 0 m && m.all fun e => decide (e.2 ≠ d)

/-- The listed values. -/
def tvals {α : Type} (m : Table α) : List α := m.map (·.2)

/-- The listed keys. -/
def tkeys {α : Type} (m : Table α) : List Nat := m.map (·.1)

/-- `m` with `f` applied to the value of key `k`, if listed. -/
def tmod {α : Type} : Table α → Nat → (α → α) → Table α
  | [], _, _ => []
  | (j, w) :: m, k, f => if j = k then (j, f w) :: m else (j, w) :: tmod m k f

/-- `m` with `f` applied to every listed value. -/
def tmap {α β : Type} (m : Table α) (f : Nat → α → β) : Table β := m.map fun e => (e.1, f e.1 e.2)

/-- `m` with only the entries that satisfy `p`. -/
def tfilter {α : Type} (m : Table α) (p : Nat → α → Bool) : Table α := m.filter fun e => p e.1 e.2

/-- The values of n keys from k on in a table whose entries begin at k or later. -/
def twalk {α : Type} (d : α) : Table α → Nat → Nat → List α
  | _, _, 0 => []
  | [], k, n + 1 => d :: twalk d [] (k + 1) n
  | (j, v) :: m, k, n + 1 => if j = k then v :: twalk d m (k + 1) n else d :: twalk d ((j, v) :: m) (k + 1) n

/-- Reads `n` consecutive values from key `k` in one pass over a table. -/
def tspan {α : Type} (d : α) (m : Table α) (k n : Nat) : List α :=
  twalk d (m.dropWhile fun e => decide (e.1 < k)) k n

/-- Sets `vs` from key `k` in one pass over a table. -/
def tblit {α : Type} [DecidableEq α] (d : α) (m : Table α) (k : Nat) (vs : List α) : Table α :=
  let new := (vs.zip (List.range vs.length)).filterMap fun x => if x.1 = d then none else some (k + x.2, x.1)
  (m.filter fun e => decide (e.1 < k)) ++ new ++ (m.filter fun e => decide (k + vs.length ≤ e.1))

/-- The lowest number from `n` up, at most `fuel` of them tried, that satisfies `p`. -/
def firstFrom (p : Nat → Bool) (n : Nat) : Nat → Option Nat
  | 0 => none
  | fuel + 1 => if p n then some n else firstFrom p (n + 1) fuel

/-- The value of little-endian bytes (00 R4). -/
def leNat : List Byte → Nat
  | [] => 0
  | b :: bs => b.toNat + 256 * leNat bs

/-- The `n` little-endian bytes of a number (00 R4). -/
def leBytes (x : Nat) : Nat → List Byte
  | 0 => []
  | n + 1 => BitVec.ofNat 8 x :: leBytes (x / 256) n

/-- `x` with bits `hi` to `lo` replaced by `v`. -/
def setBits (x hi lo v : Nat) : Nat :=
  let w := hi + 1 - lo
  x % 2 ^ lo + (v % 2 ^ w) * 2 ^ lo + x / 2 ^ (hi + 1) * 2 ^ (hi + 1)

/-- A list of fields, each a width and a value, packed from bit 0 up. -/
def pack : List (Nat × Nat) → Nat
  | [] => 0
  | (w, v) :: fs => v % 2 ^ w + 2 ^ w * pack fs

/-- The two's-complement value of the low `w` bits. -/
def sint (w x : Nat) : Int :=
  let y := x % 2 ^ w
  if y < 2 ^ (w - 1) ∨ w = 0 then (y : Int) else (y : Int) - (2 ^ w : Nat)

/-- The low `w` bits of an integer. -/
def wrapInt (w : Nat) (x : Int) : Nat := (x % ((2 ^ w : Nat) : Int)).toNat

end Sys2Proof.Machine
end

