-- ==== Sys2Proof/Machine/Num.lean ====
section
/-! DEFINITION. Number formats and rounding (03 R63–R76): exact values as sign and fraction, decoding, RoundTo. -/

namespace Sys2Proof.Machine

/-- An exact value: NaN, an infinity, a signed zero, or ± n/d with n and d not 0. `true` is negative. -/
inductive Ex
  | nan
  | inf (neg : Bool)
  | zero (neg : Bool)
  | fin (neg : Bool) (n d : Nat)
  deriving DecidableEq, Repr, Inhabited

/-- Width in bits of a type (02 R32). -/
def tyWidth : Ty → Nat
  | .b8 | .i8 | .n8 | .k8 | .e4m3 => 8
  | .b16 | .i16 | .n16 | .f16 | .bf16 => 16
  | .b32 | .i32 | .n32 | .f32 => 32
  | .b64 | .i64 | .n64 | .f64 => 64
  | .b128 => 128
  | .e2m1 => 4

/-- Registers of an operand of width w (02 R26). -/
def regsOfWidth (w : Nat) : Nat := if w ≤ 32 then 1 else if w = 64 then 2 else 4

/-- Registers of an operand of a type (02 R26). -/
def tyRegs (t : Ty) : Nat := regsOfWidth (tyWidth t)

/-- Element size in bytes (07 R166); E2M1 has none. -/
def tyBytes (t : Ty) : Nat := tyWidth t / 8

def tySigned : Ty → Bool
  | .i8 | .i16 | .i32 | .i64 => true
  | _ => false

def tyNatural : Ty → Bool
  | .n8 | .n16 | .n32 | .n64 => true
  | _ => false

def tyBitsOnly : Ty → Bool
  | .b8 | .b16 | .b32 | .b64 | .b128 => true
  | _ => false

/-- INT of 06 R144. -/
def tyInt (t : Ty) : Bool := tySigned t || tyNatural t

/-- BITS of 06 R144. -/
def tyBITS (t : Ty) : Bool := tyInt t || tyBitsOnly t

/-- FLT of 06 R146. -/
def tyFlt : Ty → Bool
  | .f16 | .bf16 | .f32 | .f64 | .k8 | .e4m3 | .e2m1 => true
  | _ => false

/-- The types that GM.FTZ flushes (03 R75). -/
def tyIeee : Ty → Bool
  | .f16 | .bf16 | .f32 | .f64 => true
  | _ => false

/-- A binary floating format: significand bits with the hidden one, bias, and the code of the largest finite
magnitude (03 R63). -/
structure Fmt where
  p : Nat
  bias : Nat
  top : Nat

/-- The binary formats of 03 R63. -/
def fmtOf : Ty → Fmt
  | .f64 => ⟨53, 1023, 0x7FEFFFFFFFFFFFFF⟩
  | .f16 => ⟨11, 15, 0x7BFF⟩
  | .bf16 => ⟨8, 127, 0x7F7F⟩
  | .e4m3 => ⟨4, 7, 0x7E⟩
  | .e2m1 => ⟨2, 1, 7⟩
  | _ => ⟨24, 127, 0x7F7FFFFF⟩

/-- The NaN that the module writes in a format (03 R64, R72). -/
def nanOf : Ty → Nat
  | .f64 => 0x7FF8000000000000
  | .f32 => 0x7FC00000
  | .f16 => 0x7E00
  | .bf16 => 0x7FC0
  | .e4m3 => 0x7F
  | .k8 => 0x80
  | _ => 0

/-- The binary32 values T[m] of the K8 magnitude codes (03 R68). -/
def k8T : List Nat :=
  [0x00000000, 0x2D2FEBFF, 0x4E6E6B28, 0x2EDBE6FF, 0x4B189680, 0x4CBEBC20, 0x322BCC77, 0x3089705F] ++
  [0x47C35000, 0x49064700, 0x49742400, 0x4AA7D8C0, 0x358637BD, 0x36B88CA4, 0x33D6BF95, 0x3513A3B6] ++
  [0x447A0000, 0x454B2000, 0x45ABE000, 0x45F23000, 0x461C4000, 0x46FDE800, 0x4756D800, 0x47975E00] ++
  [0x38D1B717, 0x39AA64C3, 0x3A102DE0, 0x3A4B295F, 0x3727C5AC, 0x3808509C, 0x3866AFCD, 0x38A2877F] ++
  [0x41200000, 0x41AA0000, 0x42020000, 0x422F0000, 0x425C0000, 0x42848000, 0x429B0000, 0x42B18000] ++
  [0x42C80000, 0x43548000, 0x43A28000, 0x43DAC000, 0x44098000, 0x4425A000, 0x4441C000, 0x445DE000] ++
  [0x3C23D70A, 0x3CAE147B, 0x3D051EB8, 0x3D333333, 0x3D6147AE, 0x3D87AE14, 0x3D9EB852, 0x3DB5C28F] ++
  [0x3A83126F, 0x3B0B4396, 0x3B54FDF4, 0x3B8F5C29, 0x3BB43958, 0x3BD91687, 0x3BFDF3B6, 0x3C116873] ++
  [0x3DCCCCCD, 0x3E033333, 0x3E200000, 0x3E3CCCCD, 0x3E59999A, 0x3E766666, 0x3E89999A, 0x3E980000] ++
  [0x3EA66666, 0x3EB4CCCD, 0x3EC33333, 0x3ED1999A, 0x3EE00000, 0x3EEE6666, 0x3EFCCCCD, 0x3F05999A] ++
  [0x3F0CCCCD, 0x3F140000, 0x3F1B3333, 0x3F226666, 0x3F29999A, 0x3F30CCCD, 0x3F380000, 0x3F3F3333] ++
  [0x3F466666, 0x3F4D999A, 0x3F54CCCD, 0x3F5C0000, 0x3F633333, 0x3F6A6666, 0x3F71999A, 0x3F78CCCD] ++
  [0x3F800000, 0x3FA40000, 0x3FC80000, 0x3FEC0000, 0x40080000, 0x401A0000, 0x402C0000, 0x403E0000] ++
  [0x40500000, 0x40620000, 0x40740000, 0x40830000, 0x408C0000, 0x40950000, 0x409E0000, 0x40A70000] ++
  [0x40B00000, 0x40B90000, 0x40C20000, 0x40CB0000, 0x40D40000, 0x40DD0000, 0x40E60000, 0x40EF0000] ++
  [0x40F80000, 0x41008000, 0x41050000, 0x41098000, 0x410E0000, 0x41128000, 0x41170000, 0x411B8000]

/-- The value of a magnitude m × 2^(e), e given as up minus down. -/
def exDy (neg : Bool) (m up down : Nat) : Ex :=
  if m = 0 then .zero neg
  else if down ≤ up then .fin neg (m * 2 ^ (up - down)) 1 else .fin neg m (2 ^ (down - up))

/-- The value of the low bits of `x` read in the binary format of `t` (03 R63, R66). -/
def decBin (t : Ty) (x : Nat) : Ex :=
  let f := fmtOf t
  let w := tyWidth t
  let neg := bit x (w - 1)
  let c := x % 2 ^ (w - 1)
  if f.top < c then
    if tyIeee t && c == f.top + 1 then .inf neg else .nan
  else
    let e := c / 2 ^ (f.p - 1)
    let m := c % 2 ^ (f.p - 1)
    if e = 0 then exDy neg m 1 (f.bias + f.p - 1)
    else exDy neg (2 ^ (f.p - 1) + m) e (f.bias + f.p - 1)

/-- DecodeK8 as a binary32 word (03 R69). -/
def decodeK8 (c : Nat) : Nat :=
  let m := c % 128
  if m = 0 then (if bit c 7 then 0x7FC00000 else 0) else k8T.getD m 0 + (if bit c 7 then 0x80000000 else 0)

/-- The integer value of an element of an integer or bits type (03 R65). -/
def intOf (t : Ty) (x : Nat) : Int :=
  if tySigned t then sint (tyWidth t) x else ((x % 2 ^ tyWidth t : Nat) : Int)

/-- An integer as an exact value. -/
def exInt (i : Int) : Ex := if i = 0 then .zero false else .fin (decide (i < 0)) i.natAbs 1

/-- The exact value of an element (03 R63–R69). -/
def decEx (t : Ty) (x : Nat) : Ex :=
  match t with
  | .k8 => decBin .f32 (decodeK8 x)
  | .f16 | .bf16 | .f32 | .f64 | .e4m3 | .e2m1 => decBin t x
  | _ => exInt (intOf t x)

/-- Whether an element of a flushed format is subnormal (03 R75). -/
def isSub (t : Ty) (x : Nat) : Bool :=
  let c := x % 2 ^ (tyWidth t - 1)
  decide (0 < c ∧ c < 2 ^ ((fmtOf t).p - 1))

/-- The bits of an element after FTZ on input (03 R75). -/
def ftzIn (t : Ty) (ftz : Bool) (x : Nat) : Nat :=
  let w := tyWidth t
  let y := x % 2 ^ w
  if ftz && tyIeee t && isSub t y then y / 2 ^ (w - 1) * 2 ^ (w - 1) else y

def exNeg : Ex → Ex
  | .nan => .nan
  | .inf s => .inf (!s)
  | .zero s => .zero (!s)
  | .fin s n d => .fin (!s) n d

def exAbs : Ex → Ex
  | .nan => .nan
  | .inf _ => .inf false
  | .zero _ => .zero false
  | .fin _ n d => .fin false n d

def exIsNan : Ex → Bool
  | .nan => true
  | _ => false

def exSign : Ex → Bool
  | .nan => false
  | .inf s | .zero s | .fin s _ _ => s

def exIsZero : Ex → Bool
  | .zero _ => true
  | _ => false

def exIsInf : Ex → Bool
  | .inf _ => true
  | _ => false

/-- An exact fraction n/d, d not 0, as a value. -/
def exRat (n : Int) (d : Nat) : Ex := if n = 0 then .zero false else .fin (decide (n < 0)) n.natAbs d

/-- Numerator with sign and denominator of a finite value. -/
def exNum : Ex → Int
  | .fin s n _ => if s then -(n : Int) else n
  | _ => 0

def exDen : Ex → Nat
  | .fin _ _ d => d
  | _ => 1

/-- A common denominator of two, the larger when it is a multiple of the smaller. -/
def comDen (a b : Nat) : Nat := if a % b = 0 then a else if b % a = 0 then b else a * b

/-- Exact sum of two fractions. -/
def ratAdd (x y : Int × Nat) : Int × Nat :=
  let d := comDen x.2 y.2
  (x.1 * (d / x.2 : Nat) + y.1 * (d / y.2 : Nat), d)

/-- Exact sum; `rdn` is the rounding towards −∞ that makes an exact zero sum −0 (03 R64). -/
def exAdd (rdn : Bool) (x y : Ex) : Ex :=
  match x, y with
  | .nan, _ => .nan
  | _, .nan => .nan
  | .inf s, .inf t => if s = t then .inf s else .nan
  | .inf s, _ => .inf s
  | _, .inf t => .inf t
  | .zero s, .zero t => if s = t then .zero s else .zero rdn
  | .zero _, v => v
  | v, .zero _ => v
  | .fin s n d, .fin t m e =>
    let r := ratAdd (exNum (.fin s n d), d) (exNum (.fin t m e), e)
    if r.1 = 0 then .zero rdn else exRat r.1 r.2

def exSub (rdn : Bool) (x y : Ex) : Ex := exAdd rdn x (exNeg y)

/-- Exact product with IEEE signs. -/
def exMul (x y : Ex) : Ex :=
  let s := exSign x != exSign y
  match x, y with
  | .nan, _ => .nan
  | _, .nan => .nan
  | .inf _, .zero _ => .nan
  | .zero _, .inf _ => .nan
  | .inf _, _ => .inf s
  | _, .inf _ => .inf s
  | .zero _, _ => .zero s
  | _, .zero _ => .zero s
  | .fin _ n d, .fin _ m e => .fin s (n * m) (d * e)

/-- Exact quotient with IEEE signs (06 R153). -/
def exDiv (x y : Ex) : Ex :=
  let s := exSign x != exSign y
  match x, y with
  | .nan, _ => .nan
  | _, .nan => .nan
  | .inf _, .inf _ => .nan
  | .zero _, .zero _ => .nan
  | .inf _, _ => .inf s
  | _, .inf _ => .zero s
  | .zero _, _ => .zero s
  | _, .zero _ => .inf s
  | .fin _ n d, .fin _ m e => .fin s (n * e) (d * m)

/-- Whether x < y as reals, −0 = +0; both not NaN. -/
def exLt (x y : Ex) : Bool :=
  match x, y with
  | .inf s, .inf t => s && !t
  | .inf s, _ => s
  | _, .inf t => !t
  | x, y => decide (exNum x * (exDen y : Int) < exNum y * (exDen x : Int))

def exEq (x y : Ex) : Bool := !exLt x y && !exLt y x

def exLe (x y : Ex) : Bool := !exLt y x

def exMin (x y : Ex) : Ex := if exLt y x then y else x

def exMax (x y : Ex) : Ex := if exLt x y then y else x

/-- x × 2^k. -/
def exScale (x : Ex) (k : Int) : Ex :=
  match x with
  | .fin s n d => if 0 ≤ k then .fin s (n * 2 ^ k.toNat) d else .fin s n (d * 2 ^ (-k).toNat)
  | v => v

/-- ⌊log₂(n/d)⌋ for n, d not 0. -/
def ilog2 (n d : Nat) : Int :=
  let a := Nat.log2 n
  let b := Nat.log2 d
  let e : Int := (a : Int) - b
  let lt : Bool := if b ≤ a then decide (n < d * 2 ^ (a - b)) else decide (n * 2 ^ (b - a) < d)
  if lt then e - 1 else e

/-- Which of two magnitude neighbours a rounding takes: the upper one, from twice the remainder against the step
(`cmp`: less, equal, greater), the parity of the lower, the sign (03 R72). -/
def roundUp? (mode : Rnd) (neg : Bool) (cmp : Ordering) (odd : Bool) : Bool :=
  match mode with
  | .rtz => false
  | .rup => !neg
  | .rdn => neg
  | .rna => cmp != .lt
  | .rne | .sto => match cmp with
    | .lt => false
    | .eq => odd
    | .gt => true

/-- The code of a magnitude n/d rounded in the format with exponents unbounded above (03 R72, R73). -/
def roundMag (f : Fmt) (mode : Rnd) (neg : Bool) (rho : Option Nat) (n d : Nat) : Nat :=
  let e := ilog2 n d
  let emin : Int := 1 - (f.bias : Int)
  let q : Int := (if e < emin then emin else e) - (f.p - 1 : Nat)
  let num := if 0 ≤ q then n else n * 2 ^ (-q).toNat
  let den := if 0 ≤ q then d * 2 ^ q.toNat else d
  let k := num / den
  let r := num % den
  let up :=
    if r = 0 then false
    else match rho with
      | some x => decide (x < 65536 * r / den)
      | none => roundUp? mode neg (compare (2 * r) den) (k % 2 == 1)
  let ef := (q - (emin - (f.p - 1 : Nat))).toNat
  ef * 2 ^ (f.p - 1) + (if up then k + 1 else k)

/-- The code of a value beyond the largest finite one, or infinite (03 R74). -/
def overflowCode (t : Ty) (mode : Rnd) (sat neg : Bool) : Nat :=
  let f := fmtOf t
  let sb := if neg then 2 ^ (tyWidth t - 1) else 0
  let big := sb + f.top
  let ov := match t with
    | .e4m3 => 0x7F
    | .e2m1 => big
    | _ => sb + f.top + 1
  if sat then big
  else match mode with
    | .rne | .rna | .sto => ov
    | .rtz => big
    | .rup => if neg then big else ov
    | .rdn => if neg then ov else big

/-- RoundTo for the binary formats (03 R72–R75). -/
def roundBin (t : Ty) (mode : Rnd) (sat ftz : Bool) (rho : Option Nat) (x : Ex) : Nat :=
  let f := fmtOf t
  let sbit := fun (neg : Bool) => if neg then 2 ^ (tyWidth t - 1) else 0
  match x with
  | .nan => nanOf t
  | .inf s => overflowCode t mode sat s
  | .zero s => sbit s
  | .fin s n d =>
    let big := decBin t f.top
    let rho' := if exLt big (.fin false n d) then none else rho
    let c := roundMag f mode s rho' n d
    if f.top < c then overflowCode t mode sat s
    else if ftz && tyIeee t && decide (c < 2 ^ (f.p - 1)) then sbit s
    else sbit s + c

/-- The largest listed magnitude not above n/d with its code, and the smallest not below (03 R70). -/
def k8Near (n d : Nat) : List Nat → Nat → Ex × Nat → Option (Ex × Nat) → (Ex × Nat) × Option (Ex × Nat)
  | [], _, lo, hi => (lo, hi)
  | w :: ws, m, lo, hi =>
    let v := decBin .f32 w
    let a := Ex.fin false n d
    let lo' := if exLe v a && exLe lo.1 v then (v, m) else lo
    let hi' := if exLe a v then
        match hi with
        | none => some (v, m)
        | some h => if exLt v h.1 then some (v, m) else hi
      else hi
    k8Near n d ws (m + 1) lo' hi'

/-- ⌊2^16 × (a − lo)/(hi − lo)⌋ (03 R73). -/
def stoThreshold (a lo hi : Ex) : Nat :=
  let x := ratAdd (exNum a, exDen a) (-(exNum lo), exDen lo)
  let y := ratAdd (exNum hi, exDen hi) (-(exNum lo), exDen lo)
  65536 * (x.1.toNat * y.2) / (x.2 * y.1.toNat)

/-- EncodeK8 (03 R70). -/
def encodeK8 (mode : Rnd) (sat : Bool) (rho : Option Nat) (x : Ex) : Nat :=
  let beyond := fun (neg : Bool) =>
    let c := (if neg then 128 else 0) + 2
    if sat then c
    else match mode with
      | .rtz => c
      | .rup => if neg then c else 0x80
      | .rdn => if neg then 0x80 else c
      | _ => 0x80
  match x with
  | .nan => 0x80
  | .zero _ => 0
  | .inf s => beyond s
  | .fin s n d =>
    let a := Ex.fin false n d
    if exLt (decBin .f32 0x4E6E6B28) a then beyond s
    else
      let r := k8Near n d k8T 0 (.zero false, 0) none
      let lo := r.1
      let hi := r.2.getD lo
      let m :=
        if exEq lo.1 hi.1 then lo.2
        else
          let x1 := ratAdd (exNum a, exDen a) (-(exNum lo.1), exDen lo.1)
          let x2 := ratAdd (exNum hi.1, exDen hi.1) (-(exNum a), exDen a)
          let c := compare (x1.1 * (x2.2 : Int)) (x2.1 * (x1.2 : Int))
          let near := fun (tie : Nat) => match c with
            | .lt => lo.2
            | .eq => tie
            | .gt => hi.2
          match mode with
          | .rne => near (if lo.2 % 2 = 0 then lo.2 else if hi.2 % 2 = 0 then hi.2 else lo.2)
          | .rna => near hi.2
          | .rtz => lo.2
          | .rup => if s then lo.2 else hi.2
          | .rdn => if s then hi.2 else lo.2
          | .sto => if rho.getD 0 < stoThreshold a lo.1 hi.1 then hi.2 else lo.2
      if m = 0 then 0 else (if s then 128 else 0) + m

/-- A value rounded to an integer in a mode (03 R72). -/
def roundInt (mode : Rnd) (x : Ex) : Int :=
  match x with
  | .fin s n d =>
    let k := n / d
    let r := n % d
    let m := if r ≠ 0 && roundUp? mode s (compare (2 * r) d) (k % 2 == 1) then k + 1 else k
    if s then -(m : Int) else m
  | _ => 0

/-- The least and greatest values of an integer type (03 R65). -/
def intLo (t : Ty) : Int := if tySigned t then -((2 ^ (tyWidth t - 1) : Nat) : Int) else 0
def intHi (t : Ty) : Int :=
  if tySigned t then ((2 ^ (tyWidth t - 1) : Nat) : Int) - 1 else ((2 ^ tyWidth t : Nat) : Int) - 1

/-- An integer clamped to a type's range, as bits (03 R65). -/
def clampInt (t : Ty) (x : Int) : Nat :=
  wrapInt (tyWidth t) (if x < intLo t then intLo t else if intHi t < x then intHi t else x)

/-- An exact integer result reduced to its type under GM.SAT (03 R65). -/
def reduceInt (t : Ty) (sat : Bool) (x : Int) : Nat := if sat then clampInt t x else wrapInt (tyWidth t) x

/-- RoundTo(x, t, mode) with GM.SAT, GM.FTZ and a random value for stochastic rounding (03 R72–R75). -/
def roundTo (t : Ty) (mode : Rnd) (sat ftz : Bool) (rho : Option Nat) (x : Ex) : Nat :=
  match t with
  | .k8 => encodeK8 mode sat rho x
  | .f16 | .bf16 | .f32 | .f64 | .e4m3 | .e2m1 => roundBin t mode sat ftz rho x
  | _ => match x with
    | .nan => 0
    | .inf s => clampInt t (if s then intLo t else intHi t)
    | x => clampInt t (roundInt mode x)

/-- RoundTo(x, F32, mode) as the engines use it: no saturation, no flushing. -/
def toF32 (mode : Rnd) (x : Ex) : Nat := roundBin .f32 mode false false none x

/-- The value of a binary32 word. -/
def ofF32 (w : Nat) : Ex := decBin .f32 w

/-- DecodeScale (03 R71); kind 2 reads a signed decimal exponent. -/
def decodeScale (kind code : Nat) : Ex :=
  match kind with
  | 0 => .fin false 1 1
  | 1 => if code % 256 = 255 then .nan else exDy false 1 (code % 256) 127
  | 2 =>
    let s := sint 8 code
    if s < -38 ∨ 38 < s then .nan
    else
      let v := if 0 ≤ s then Ex.fin false (10 ^ s.toNat) 1 else Ex.fin false 1 (10 ^ (-s).toNat)
      ofF32 (toF32 .rne v)
  | _ => ofF32 code

/-- Bits of an element in a 32-bit register after R27: I8 and I16 sign-extended, other narrow types zero-extended. -/
def extendElem (t : Ty) (x : Nat) : Nat :=
  match t with
  | .i8 => wrapInt 32 (sint 8 x)
  | .i16 => wrapInt 32 (sint 16 x)
  | _ => x % 2 ^ (if tyWidth t < 32 then tyWidth t else 128)

/-- Whether a value is an infinity's or NaN's or finite. -/
def exFinite : Ex → Bool
  | .zero _ | .fin _ _ _ => true
  | _ => false

/-- A finite value's magnitude and sign as the value with sign `s`. -/
def exWithSign (s : Bool) : Ex → Ex
  | .nan => .nan
  | .inf _ => .inf s
  | .zero _ => .zero s
  | .fin _ n d => .fin s n d

end Sys2Proof.Machine
end

