-- ==== Sys2Proof/Config.lean ====
section
/-! DEFINITION. What an implementation fixes, and the free values: constants without a body, so that a statement
about them holds for every value the manual allows. -/

namespace Sys2Proof.Config

/-- 02 R39, R40: which of the allowed values a read inside a window, or a register written inside a window, takes;
by the machine's free counter, the register key and the lane. Free value, log entry 4. -/
opaque windowPick : Nat → Nat → Nat → Nat

/-- 02 R51: whether a fetch of a changed word takes the new word. Free value, log entry 4. -/
opaque fetchNew : Nat → Bool

/-- 08 R195: which of the values that a page-table entry has held since the last invalidation an access translates
through; by the access, the page and the level, where level 4 says whether a lookaside buffer serves it at all. Free value. -/
opaque walkAt : Nat → Nat → Nat → Nat

/-- 08 R205: whether a walk meets an entry as a page-walk cache holds it, or memory's copy; by the access and the page.
Free value. -/
opaque walkCached : Nat → Nat → Bool

/-- 08 R202, R205: whether an access goes by the line that its die's remote-data cache holds; by the access and the word.
Free value. -/
opaque copyMet : Nat → Nat → Bool

/-- 08 R193: which member of a run of 64 leaves with CONT set translates an access; by the access and the page. Free
value. -/
opaque contMember : Nat → Nat → Nat

/-- 07 R169, R180, 08 R200, R204, 09 R222, R228, 12 R289, 19 R439: which of the values that a location has held a read
returns; by the read, the lane or place and the key. Free value. -/
opaque readAt : Nat → Nat → Nat → Nat

/-- 08 R196: whether an access fills a line from memory into its home L2; by the access and the key. Free value. -/
opaque fills : Nat → Nat → Bool

/-- 07 R168, 09 R229, 16 R391: whether the access of a lane (or the n-th write) is performed where the manual
allows both. Free value. -/
opaque performed : Nat → Nat → Bool

/-- 09 R231: whether a host completes a PCIe AtomicOp with Unsupported Request or Completer Abort; by the access and the key.
Free value. -/
opaque hostRefuses : Nat → Nat → Bool

/-- 13 R323: from which number on a core takes the first identifier that no outstanding request has; by the access. Free
value. -/
opaque ticketFrom : Nat → Nat

/-- 11 R279: whether a faulted MSTORE wrote element n. Free value. -/
opaque storedElement : Nat → Nat → Bool

/-- 19 R434: the tag word of a place of a cache in a freeze, and, above it, the age of a copy. Free value. -/
opaque cacheTag : Nat → Nat → Nat

/-- 19 R434: the bytes of a place of a cache that holds no line of this module's memory, in a freeze. Free value. -/
opaque cacheLine : Nat → Nat → Byte

/-- 19 R439: whether a line is dirty in the L2 of a die that is reset; by the reset and the line. Free value. -/
opaque lineDirty : Nat → Nat → Bool

/-- 19 R429, R430: the padded Falcon-1024 signature over a digest (nonce and key are the module's). Free value. -/
opaque signature : List Byte → List Byte

/-- 19 R430: the certificates of slot 0's chain in DER, the root's first. Free value. -/
opaque certificates : List (List Byte)

/-- 19 R428: what SPDM 1.3 leaves to the module or this manual does not give of an SPDM response, by its code and the number of
the part. Free value. -/
opaque spdmBody : Nat → Nat → List Byte

/-- 19 R430, R432: Tveduasen's enterprise number. Free value. -/
opaque enterprise : Word

/-- 19 R431: whether an image's Falcon-1024 signature verifies over its digest. Free value. -/
opaque verifies : List Byte → List Byte → Bool

/-- 19 R431: the security version that an image carries. Free value. -/
opaque imageVersion : List Byte → Nat

/-- 19 R432, R433: whether the management port asks for a reset, by the reset: the tag of its request; none where something else
raises it. Free value. -/
opaque resetRequest : Nat → Option Nat

/-- 19 R432: whether the policy that a configuration image sets lets the management port make a reset of a kind. Free value. -/
opaque resetPolicy : List Byte → Nat → Bool

/-- 19 R427: whether an access is among those of an operation that no route delivers; by the time-out and the lane. Free value. -/
opaque undelivered : Nat → Nat → Bool

/-- 19 R431: whether an image that runs from a reset on starts. Free value. -/
opaque imageStarts : Nat → Bool

/-- 19 R431: whether the firmware image of a kind holds a debug enable of 1. Free value. -/
opaque debugEnable : List Byte → Bool

/-- 18 R414, R415: the die whose trace ring takes a record of a queue processor or of a context. Free value. -/
opaque traceDie : Nat → Nat

/-- 13 R331: the depth of a pixel of a triangle with a vertex depth that is no number. Free value. -/
opaque rasterDepth : Nat → Word

/-- 16 R376: where a control core's group starts in its firmware, which the manual does not give. Free value. -/
opaque ctlEntry : Nat → Nat

/-- 16 R376: what a die's control core takes an address for, which the manual does not give: a physical address, an address
of its firmware's own page table (0), or one of a context (its number + 1). Free value. -/
opaque ctlSpace : Nat → Nat → Option Nat

/-- 16 R376: where the firmware's own page table lies, by die. Free value. -/
opaque ctlRoot : Nat → Nat

/-- 19 R435: whether an issue slot of a core is withheld from issue in a tick, to keep within a power limit in watts. Free
value. -/
opaque withheld : Nat → Nat → Nat → Nat → Bool

/-- 19 R431: an image that the module was delivered with, by kind. Free value. -/
opaque shippedImage : Nat → List Byte

end Sys2Proof.Config
end

