-- ==== Sys2Proof/Machine/State.lean ====
section
/-! DEFINITION. The state of the module as plain data, the reasons a step can stop, and the state after reset. -/

namespace Sys2Proof.Machine

/-- The trap kinds of 02 R54 and 16 R370, codes 1 to 13 in order. -/
inductive TrapKind
  | illegalInstruction | illegalMode | reservedOperand | translation | permission | misaligned | uncorrected
  | waitTimeout | barrierUnderpopulated | backingStoreExhausted | deferredCopyFault | software | breakpoint
  deriving DecidableEq, Repr, Inhabited

/-- A trap record (16 R372). -/
structure TrapRec where
  tvalid : Bool := false
  kind : Nat := 0
  slot : Nat := 0
  gslot : Nat := 0
  path : Nat := 0
  async : Bool := false
  absent : Bool := false
  replayable : Bool := false
  k : Nat := 0
  ctx : Nat := 0
  pc : Nat := 0
  cpc : Nat := 0
  flm : Nat := 0
  addr : Nat := 0
  info : Nat := 0
  word : Nat := 0
  tick : Nat := 0
  deriving DecidableEq, Repr, Inhabited

/-- What a path waits for (04 R113, R114, 09 R234, 10 R252, R255, R256, 11 R287): the operands as of the issue of the waiting
instruction; `read` says that an awaited word has been read once. A snapshot of lanes is a list of a lane and its value. -/
inductive Wait
  | none
  | bwait (b tok : Nat)
  | yield (b tok at_ : Nat)
  | barv (b look : Nat) (d : Operand) (bytes : Nat) (tok : Nat)
  | addr (id va cmp : Nat) (cc : CC) (acq : Bool) (d : Operand) (read : Bool)
  | tiles (id mask : Nat) (all : Bool)
  | vote (d members captured ballot : Nat)
  | shfl (d regs : Nat) (need : List (Nat × Nat)) (got : List (Nat × Nat)) (own : List (Nat × Nat))
  deriving DecidableEq, Repr, Inhabited

/-- A path entry with its frame state (04 R92, 05 R119). -/
structure Path where
  valid : Bool := false
  state : Nat := 0
  wbar : Nat := 0
  pc : Nat := 0
  age : Nat := 0
  ageAt : Nat := 0
  gm : GM := {}
  mask : Mask := 0
  origin : Mask := 0
  wake : Nat := 0
  wcount : Nat := 0
  fb : Nat := 0
  fs : Nat := 0
  ld : Nat := 0
  wait : Wait := .none
  waitAct : Mask := 0
  waitWord : Nat := 0
  deriving DecidableEq, Repr, Inhabited

/-- The six spaces (07 R165); atomics name four of them (09 R229). -/
inductive Space
  | landing | priv | const (k : Nat) | global | peer | host
  deriving DecidableEq, Repr, Inhabited

/-- One lane's access: the lane, its address, and the data of a store or the operands of an atomic; the memory key of its
address once it has been translated (07 R168). -/
structure Acc where
  lane : Nat
  addr : Nat
  v : Nat := 0
  v2 : Nat := 0
  key : Option Nat := none
  deriving DecidableEq, Repr, Inhabited

/-- The MEM-queue work of a pending operation (09 R208, R229–R233, 06 R162, 13 R303), and what a replay performs of a CSTAT or
an FBIND that has trapped (16 R373). Rays, points and replies are lists of register words by lane. -/
inductive Work
  | ready
  | load (sp : Space) (ty : Ty) (acq : Bool) (accs : List Acc) (uni : Bool)
  | store (sp : Space) (ty : Ty) (rel : Bool) (accs : List Acc)
  | atomic (op : AtomOp) (sp : Space) (ty : Ty) (acq rel : Bool) (accs : List Acc) (uni : Bool)
  | fence (acq rel : Bool)
  | cctl (op : CctlOp) (accs : List Acc)
  | tblload (bank addr : Nat)
  | qfence (mask : Nat) (bar : Option Nat)
  | visw (accs : List Acc)
  | boxt (accs : List Acc) (rays : List (List Nat))
  | trit (cull : Bool) (accs : List Acc) (rays : List (List Nat))
  | vfetch (grad : Bool) (desc : Nat) (pts : List (Nat × List Nat))
  | cstat (slot : Nat)
  | fbind (slot : Nat) (land : Bool) (addr param cqoff : Nat)
  | cqpop (off : Nat)
  | cqret (off : Nat) (replies : List (List Nat))
  | qput (q off : Nat) (resv : Option Nat)
  deriving DecidableEq, Repr, Inhabited

/-- An outstanding L-format operation (02 R37–R43): its window, its work and the registers it will write. `left` is the
number of instructions of the path that may still issue, none for look 15. `olds` holds the value that a register had before
an instruction of the window wrote it (02 R40). Registers are named by key. `born` is the index of the history at its
posting, `at_` the tick of it, `repl` marks a replicate load (07 R183), `ack` a peer store that waits for its home (07 R184),
`noAck` one of which a part was lost on the way, which its home never acknowledges (19 R427). -/
structure Pending where
  id : Nat := 0
  path : Nat := 0
  pc : Nat := 0
  word : Nat := 0
  left : Option Nat := some 0
  k : Nat := 0
  scope : Scope := .group
  lanes : Mask := 0
  memq : Bool := false
  performed : Bool := false
  work : Work := .ready
  keys : List Nat := []
  res : List (Nat × Word) := []
  olds : List (Nat × Word) := []
  col : Option (Nat × List Word) := none
  regs : Bool := false
  born : Nat := 0
  repl : Bool := false
  ack : Bool := false
  noAck : Bool := false
  at_ : Nat := 0
  deriving DecidableEq, Repr, Inhabited

/-- The drain port (11 R281, R282). -/
structure Drain where
  dtile : Nat := 0
  dcol : Nat := 0
  armed : Bool := false
  held : Bool := false
  hcol : Nat := 0
  ready : Bool := false
  buf : List Word := []
  deriving DecidableEq, Repr, Inhabited

/-- The trap registers of a group (16 R396). -/
structure TrapRegs where
  tkind : Nat := 0
  tpc : Nat := 0
  toff : Nat := 0
  tk : Nat := 0
  tflm : Nat := 0
  taddr : Nat := 0
  tinfo : Nat := 0
  tact : Bool := false
  coff : Nat := 0
  deriving DecidableEq, Repr, Inhabited

/-- A trap met by an operation after its issue and not yet raised (16 R375, R388): the record, the operation. -/
structure Held where
  tr : TrapRec
  op : Pending
  deriving DecidableEq, Repr, Inhabited

/-- A group (05 R115–R126, 04 R88–R101, 16 R381, R396). `paused` counts down the compactor's move of its block. `shadowMore`
are the register shadow entries beyond the image's 64 (16 R387); `fenceWait` that an issue slot found it waiting at a landing
move (07 R177). `since` is,
by queue class, the index of the history at which the last operation of the queue ended. -/
structure Group where
  role : Nat := 1
  slot : Nat := 0
  gslot : Nat := 0
  present : Mask := 0
  ended : Bool := false
  paths : Table Path := []
  blk : Nat := 32
  pb : Nat := 0
  rb : Nat := 0
  rows : Table Word := []
  written : List Nat := []
  rowBad : List Nat := []
  scal : Table Word := []
  pred : Table Mask := []
  lfm : Mask := 0
  flm : Mask := 0
  swoff : Mask := 0
  exited : Mask := 0
  gscr : Table Word := []
  tregs : TrapRegs := {}
  pm : Bool := false
  ga : Nat := 0
  gaAt : Nat := 0
  issues : Nat := 0
  drain : Drain := {}
  ptrap : List Held := []
  asyncs : List Held := []
  shadowN : Nat := 0
  shadowMore : List (List Byte) := []
  pend : List Pending := []
  hang : Nat := 0
  hangFired : Bool := false
  paused : Nat := 0
  privBase : Nat := 0
  icode : Table Byte := []
  posted : Table Nat := []
  since : Table Nat := []
  tilesNamed : Nat := 0
  fenceWait : Bool := false
  deriving DecidableEq, Repr, Inhabited

/-- A barrier register (10 R236); `akind` is the kind of the deferred fault of AFLT, `fltAt` the tick in which a fault was last
delivered at it (10 R242). -/
structure Bar where
  gmem : Nat := 0
  garr : Nat := 0
  ecnt : Nat := 0
  earr : Nat := 0
  ph : Nat := 0
  pend : Nat := 0
  flt : Bool := false
  aflt : Bool := false
  fidx : Nat := 0
  akind : Nat := 0
  darr : Nat := 0
  dpend : Nat := 0
  dflt : Bool := false
  daflt : Bool := false
  dfidx : Nat := 0
  fltAt : Option Nat := none
  deriving DecidableEq, Repr, Inhabited

/-- What a launch gives every group of a role (05 R126, 15 R361, 17 R401). -/
structure RoleInfo where
  entry : Nat := 0
  groups : Nat := 0
  lanes : Nat := 0
  q : Nat := 0
  deriving DecidableEq, Repr, Inhabited

/-- A constant bank descriptor (07 R179). -/
structure Bank where
  base : Nat := 0
  len : Nat := 0
  deriving DecidableEq, Repr, Inhabited

/-- Where a team's state lies (16 R382, R389, R391): in place; being saved to an image at a virtual address; in the save
area; being restored from it, with the step of R389 that runs (0 tiles, 1 rows, 2 landing memory, 3 group blocks, 4
barriers); nowhere, its writes discarded. -/
inductive Away
  | present | saving (va : Nat) | saved (va : Nat) | restoring (va stage : Nat) | dropped
  deriving DecidableEq, Repr, Inhabited

/-- A write in the hold queue of a diversion entry (16 R386): bytes of landing memory; register results of an operation; an
arrival, a fault or a deferred fault at a barrier; a tile. -/
inductive HeldWrite
  | land (off : Nat) (bs : List Byte)
  | regs (res : List (Nat × Word))
  | arrive (b n : Nat) (bytes : Int)
  | flag (b idx : Nat)
  | tile (n : Nat) (ws : List Word)
  | late (b idx : Nat)
  deriving DecidableEq, Repr, Inhabited

/-- A slice of a collective copy (10 R244–R246), with its posting operation; `bad` is the offset of uncorrectable data
in its layout record, `born` the index of the history from which on its reads may be fixed. -/
structure Slice where
  id : Nat := 0
  g : Nat := 0
  pc : Nat := 0
  scope : Scope := .group
  full : Bool := false
  saddr : Nat := 0
  daddr : Nat := 0
  len : Nat := 0
  layout : Option (List Int × List Nat) := none
  ctl : Nat := 0
  sumrec : Nat := 0
  bad : Option Nat := none
  born : Nat := 0
  deriving DecidableEq, Repr, Inhabited

/-- A collective copy (10 R243): its key, its slices; once started, the lines of destination still to land by slice,
the destination bytes not yet counted down, the source words met so far by slice, the bytes of source words that chunks share
(09 R210); the tick of its last slice. -/
structure Copy where
  id : Nat := 0
  role : Bool := false
  of : Nat := 0
  bar : Nat := 0
  slices : List Slice := []
  started : Bool := false
  tick : Option Nat := none
  todo : List (Nat × Nat) := []
  left : Nat := 0
  part : Table Nat := []
  edges : Table Nat := []
  deriving DecidableEq, Repr, Inhabited

/-- A CSUM (10 R259); `born` as for a slice, `at_` the tick of its issue. -/
structure Csum where
  id : Nat := 0
  g : Nat := 0
  pc : Nat := 0
  scope : Scope := .group
  bar : Nat := 0
  saddr : Nat := 0
  sp : Nat := 0
  len : Nat := 0
  sumrec : Nat := 0
  born : Nat := 0
  at_ : Nat := 0
  deriving DecidableEq, Repr, Inhabited

/-- An operand of a pass (11 R268, R271): space 0 landing or 1 global. -/
structure Layout where
  base : Nat := 0
  sp : Nat := 0
  strides : List Int := []
  exts : List Nat := []
  elem : Nat := 0
  blen : Nat := 0
  skind : Nat := 0
  saxis : Bool := false
  spitch : Nat := 0
  saddr : Nat := 0
  deriving DecidableEq, Repr, Inhabited

/-- A pass record as read at issue, with its index vector (11 R268). -/
structure PassRec where
  a : Layout := {}
  b : Layout := {}
  acc : Nat := 0
  zero : Bool := false
  idxen : Bool := false
  idx : List Nat := []
  cspec : Nat := 0
  deriving DecidableEq, Repr, Inhabited

/-- The block of a CBIND (12 R300). -/
structure BindBlock where
  wbase : Nat := 0
  wlen : Nat := 0
  darea : Nat := 0
  slot : Nat := 0
  nlim : Nat := 0
  dfmt : Bool := false
  ksm : Nat := 0
  dbound : Nat := 0
  tag : Nat := 0
  deriving DecidableEq, Repr, Inhabited

/-- The operations of the MATRIX queue (11 R283–R286, 12 R299–R301). -/
inductive MKind
  | pass (r : PassRec)
  | delta (r : PassRec)
  | zero (n : Nat)
  | drain (n : Nat)
  | store (n : Nat) (glob col pair : Bool) (addr pitch : Nat)
  | load (n : Nat) (glob col pair : Bool) (addr pitch : Nat)
  | cbind (b : BindBlock)
  | cdrop (slot : Nat)
  | cstat (slot : Nat)
  | cfresh (slot : Nat)
  deriving DecidableEq, Repr, Inhabited

/-- A posted operation of the MATRIX queue: its reservation entry (0 to 127 guaranteed, 128 to 151 shared) and age (11
R264–R266); the cluster whose engine it was posted to; the index of the history at its posting; granted; performed and so
waiting only to complete; the words that firmware has fetched for an emulated pass, by key (R278); faulted, with the index of
its record. -/
structure MOp where
  id : Nat := 0
  g : Nat := 0
  pc : Nat := 0
  scope : Scope := .group
  kind : MKind := .zero 0
  bar : Option Nat := none
  entry : Option Nat := none
  age : Nat := 0
  granted : Bool := false
  done : Bool := false
  tick : Nat := 0
  born : Nat := 0
  cluster : Nat := 0
  buffer : Table Nat := []
  flt : Option Nat := none
  deriving DecidableEq, Repr, Inhabited

/-- A program slot (13 R302). -/
structure ProgSlot where
  bound : Bool := false
  image : List Byte := []
  param : Nat := 0
  cqoff : Nat := 0xFFFFFFFF
  deriving DecidableEq, Repr, Inhabited

/-- A reply to an opaque request (13 R339): lower, upper, gradient. -/
structure Reply where
  lo : Nat := 0
  hi : Nat := 0
  g : List Nat := []
  deriving DecidableEq, Repr, Inhabited

/-- What a ray evaluates next (13 R324): a bound over its segment, the point value at the segment's end, the gradient
at its start for a status. -/
inductive RayPhase
  | bound | point (t1 : Nat) | grad (status : Nat) | ended
  deriving DecidableEq, Repr, Inhabited

/-- A ray's arrival at an NFIELD byte (13 R321): the byte's offset, the node, the mode, the points at which the network is to
be evaluated, whether a request holds them. -/
structure NetAsk where
  place : Nat := 0
  node : Nat := 0
  mode : Nat := 0
  pts : List (List Nat) := []
  joined : Bool := false
  deriving DecidableEq, Repr, Inhabited

/-- A row of a neural request: its lane and points, the values so far, the row of the last tile, the F16 inputs of the layer. -/
structure NetRow where
  lane : Nat := 0
  pts : List (List Nat) := []
  vals : List Nat := []
  tile : List Nat := []
  x : List Nat := []
  deriving DecidableEq, Repr, Inhabited

/-- A neural request of 96 rows, those absent not listed (13 R321): which of its points and which pass is next; while that pass
is posted its entry, its number and tick of posting, its age, the index of the history (11 R264-R266). -/
structure NetReq where
  id : Nat := 0
  node : Nat := 0
  rows : List NetRow := []
  point : Nat := 0
  pass : Nat := 0
  entry : Option Nat := none
  seq : Nat := 0
  tick : Nat := 0
  age : Nat := 0
  born : Nat := 0
  deriving DecidableEq, Repr, Inhabited

/-- A ray, or a lane of an FEVAL: its registers; t, h and n of 13 R324 as binary32 bits and a count; the replies that its
current evaluation has received; the NFIELD byte at which it waits; the ticket it waits for, whether the request stands in
the queue, its node, mode and corners, the ticks waited; the results of an FEVAL lane. -/
structure Ray where
  lane : Nat := 0
  regs : List Nat := []
  t : Nat := 0
  h : Nat := 0
  n : Nat := 0
  phase : RayPhase := .bound
  replies : List Reply := []
  net : Option NetAsk := none
  ticket : Option Nat := none
  appended : Bool := false
  req : Nat × Nat × List Nat := (0, 0, [])
  wait : Nat := 0
  out : List Nat := []
  deriving DecidableEq, Repr, Inhabited

/-- The operations of the MARCH queue (13 R303). -/
inductive MarchKind
  | batch (slot off : Nat) (aff : Bool)
  | feval (slot mode : Nat)
  | buck (slot dst cap : Nat) (box : List Nat)
  | fbind (slot : Nat) (land : Bool) (addr param cqoff : Nat)
  deriving DecidableEq, Repr, Inhabited

/-- An operation of the MARCH queue, posted on a core. A batch or FEVAL that has started holds the binding it captured, its
neural requests, and what it has been charged for: segments and passes (01 R19). -/
structure MarchOp where
  id : Nat := 0
  g : Nat := 0
  pc : Nat := 0
  scope : Scope := .group
  lanes : Mask := 0
  kind : MarchKind := .batch 0 0 false
  bar : Option Nat := none
  started : Bool := false
  core : Nat := 0
  prog : ProgSlot := {}
  rays : List Ray := []
  nets : List NetReq := []
  steps : Nat := 0
  passes : Nat := 0
  fidx : Option Nat := none
  deriving DecidableEq, Repr, Inhabited

/-- A merge job (14 R345) of a cluster: the six stream words and the record's fields, the cursors live, the index of the
history at its issue. While it runs: `from_` that at its start, the checked coordinates of the heads of A and B, the
coordinates before them, the values of the heads already read. -/
structure Job where
  id : Nat := 0
  g : Nat := 0
  pc : Nat := 0
  scope : Scope := .group
  bar : Option Nat := none
  off : Nat := 0
  streams : List Nat := []
  na : Nat := 0
  nb : Nat := 0
  ocap : Nat := 0
  clim : Nat := 0
  vt : Nat := 0
  dropz : Bool := false
  ca : Nat := 0
  cb : Nat := 0
  co : Nat := 0
  cluster : Nat := 0
  running : Bool := false
  born : Nat := 0
  from_ : Nat := 0
  heads : Option Nat × Option Nat := (none, none)
  prevs : Option Nat × Option Nat := (none, none)
  vals : Option Nat × Option Nat := (none, none)
  deriving DecidableEq, Repr, Inhabited

/-- The compactor's copy of a landing block (07 R177): where it goes, the granule being copied, the ticks left for it,
whether a fence holds it. -/
structure LandMove where
  newBase : Nat := 0
  granule : Nat := 0
  left : Nat := 512
  fenced : Bool := true
  deriving DecidableEq, Repr, Inhabited

/-- A resident or suspended team (04 R86–R88, 07 R172, 10 R235, R251, 11 R261, 13 R302). `ctl` marks the one-lane group of a
control core (16 R376). `reload` are the function-table banks, with their SRC, that the team's core must load before its
groups issue (06 R164); `began` is the index of the history at which its launch began, `placed` the tick of its placement (02
R52); `mark` is the operation number at its last suspension: earlier ones were issued before it (16 R386); `blocked` is, by
die, the tick since which it has failed to be placed again only through fragmentation. -/
structure Team where
  ctl : Bool := false
  ctx : Nat := 0
  queue : Nat := 0
  pkt : Nat := 0
  launch : Nat := 0
  x : Nat := 0
  y : Nat := 0
  z : Nat := 0
  lin : Nat := 0
  grid : Nat × Nat × Nat := (1, 1, 1)
  die : Nat := 0
  core : Nat := 0
  tslot : Nat := 0
  prio : Nat := 0
  cb : Nat := 0
  producer : RoleInfo := {}
  consumer : RoleInfo := {}
  banks : List Bank := []
  bsz : Nat := 0
  psz : Nat := 0
  vcd : Nat := 0
  lsz : Nat := 0
  landBase : Nat := 0
  landing : Table Byte := []
  landBad : List Nat := []
  ntiles : Nat := 0
  tiles : Table Word := []
  nbar : Nat := 1
  bars : Table Bar := []
  smin : Nat := 0
  smax : Nat := 0
  head : Nat := 0
  tail : Nat := 0
  pd : Nat := 0
  pipeAt : Nat := 0
  copySum : Nat := 0
  copyN : Nat := 0
  began : Nat := 0
  placed : Nat := 0
  relLast : Option Nat := none
  relSum : Nat := 0
  relN : Nat := 0
  tstat : Table Nat := []
  tileNums : List Nat := []
  slots : Table ProgSlot := []
  copies : List Copy := []
  csums : List Csum := []
  mops : List MOp := []
  marches : List MarchOp := []
  jobs : List Job := []
  away : Away := .present
  mark : Nat := 0
  retest : List Nat := []
  reload : List (Nat × Nat) := []
  moving : Option LandMove := none
  blocked : Table Nat := []
  groups : Table Group := []
  deriving DecidableEq, Repr, Inhabited

/-- A function table: knots X0, RSTEP and Y.0 to Y.256 (06 R160). -/
structure FnTable where
  x0 : Word := 0
  rstep : Word := 0
  y : List Word := []
  deriving DecidableEq, Repr, Inhabited

/-- A TBLLOAD pending or running on a bank (06 R163): its path, its operation once it has issued, its holders. -/
structure Loader where
  path : Nat × Nat × Nat := (0, 0, 0)
  op : Option Nat := none
  holders : List (Nat × Nat × Nat) := []
  deriving DecidableEq, Repr, Inhabited

/-- A function-table bank (06 R159). -/
structure FnBank where
  src : Nat := 0
  owner : Nat := 0
  owned : Bool := false
  loading : Bool := false
  tables : List FnTable := []
  loader : List Loader := []
  deriving DecidableEq, Repr, Inhabited

/-- A diversion entry (16 R385). `team` is the model's own number of the team that it serves, `held` its hold queue, and
HOLDN the field that counts the queue, at most 16. An entry that firmware has marked not VALID keeps its other fields. -/
structure Div where
  state : Nat := 0
  kind : Nat := 0
  ctx : Nat := 0
  tslot : Nat := 0
  group : Nat := 0
  first : Nat := 0
  count : Nat := 0
  cur : Nat := 0
  target : Nat := 0
  holdn : Nat := 0
  held : List HeldWrite := []
  team : Nat := 0
  valid : Bool := true
  deriving DecidableEq, Repr, Inhabited

/-- A cruise bin (18 R412). -/
structure Bin where
  lo : Nat := 0
  hi : Nat := 0
  en : Bool := false
  allctx : Bool := false
  ctx : Nat := 0
  act : Nat := 0
  div : Nat := 0
  prd : Nat := 0
  abs : Nat := 0
  iss : Nat := 0
  deriving DecidableEq, Repr, Inhabited

/-- Per-core state (16 R371, R372, R385, 06 R159, 18 R412, R413). IDLE.k is kept as the counted ticks of the core less the
ticks in which slot k issued: `held` are the ticks since the die's reset that it was held by CHOLD before `holdAt`, the tick
at which CHOLD was set, `used` the ticks in which a slot issued, `issued` for each slot the tick after the one in which it
last issued, all in ticks that the module has run. `thaw` says that firmware has served the core's trap and unfreezes the
core at the next tick (16 R371), `retry` that it is to try a replay again that a migration held. `vcAt` is the index of the
history at which the volume cache was last dropped (08 R200); `left` the teams that have left it of late: launch, tick of
placement, tick of leaving (02 R52). `rowRest` and `landRest` are what is in the rows and the landing memory that no team
holds, `gone` by team slot the team that last left it, without its storage (20 R442). -/
structure Core where
  frozen : Bool := false
  thaw : Bool := false
  retry : Bool := false
  trap : TrapRec := {}
  trapAt : Nat × Nat := (0, 0)
  replay : Option Pending := none
  banks : Table FnBank := []
  divs : Table Div := []
  bins : Table Bin := []
  chold : Bool := false
  held : Nat := 0
  holdAt : Nat := 0
  used : Table Nat := []
  issued : Table Nat := []
  vcAt : Nat := 0
  left : List (Nat × Nat × Nat) := []
  rowRest : Table Word := []
  landRest : Table Byte := []
  gone : Table Team := []
  deriving DecidableEq, Repr, Inhabited

/-- Per-cluster counters (18 R413), and whether each of the last three grants, newest first, went to a marcher entry (11
R266); what is in the tiles that no team holds. -/
structure Cluster where
  conflict : Nat := 0
  emupass : Nat := 0
  emuticks : Nat := 0
  grants : List Bool := []
  tileRest : Table Word := []
  deriving DecidableEq, Repr, Inhabited

/-- A loaded code object (17 R399, R405): the code base, where its kernel descriptors lie, its global definitions as
name, weak, content hash and address. -/
structure Loaded where
  cb : Nat := 0
  kdesc : Nat := 0
  kdescLen : Nat := 0
  syms : List (Nat × Bool × List Byte × Nat) := []
  deriving DecidableEq, Repr, Inhabited

/-- A watch of a coppice slot at the home L2 of a physical page (12 R294): the page's first byte, the watched part of it. -/
structure Watch where
  slot : Nat := 0
  page : Nat := 0
  lo : Nat := 0
  hi : Nat := 0
  deriving DecidableEq, Repr, Inhabited

/-- An entry of the fault log whose page a migration holds against writes (08 R197, 16 R379): its bytes, whether it
interrupts the host. -/
structure LogEntry where
  bytes : List Byte := []
  irq : Bool := false
  deriving DecidableEq, Repr, Inhabited

/-- A move of a page or run between the tiers after its step 1 (08 R197): the context, the first virtual page, the leaf
entries as they were with their addresses, the old and the new place. -/
structure PageMove where
  ctx : Nat := 0
  first : Nat := 0
  es : List (Nat × Nat) := []
  old : Nat := 0
  new : Nat := 0
  deriving DecidableEq, Repr, Inhabited

/-- A context (16 R367–R369, 08 R195, 01 R17, 17 R403). `susReq` is the reason and tick of a request of suspension,
`saveWait` the writes to the save area that wait for a migration (08 R197), `maskTicks` the ticks run since it, `overrun`
that the mask limit was reached, `taking` that its teams are being saved, `preBy` the launch that pre-empts the context,
`ptAt` and `fresh` the indexes of the history from which on a lookaside buffer may hold an entry: of all pages, and of ranges
of them (first page, number) that were invalidated since. -/
structure Ctx where
  root : Nat := 0
  ctbase : Nat := 0
  flogBase : Nat := 0
  flogL : Nat := 6
  saveBase : Nat := 0
  saveLen : Nat := 0
  wl : Nat := 30
  hl : Nat := 32
  pml : Nat := 20
  demand : Bool := false
  prepol : Nat := 0
  trappol : Nat := 0
  handler : Nat := 0
  ivec : Nat := 0
  iport : Nat := 0
  desc : Nat := 0
  port : Nat := 0
  sstate : Nat := 0
  flHead : Nat := 0
  flLost : Nat := 0
  flTail : Nat := 0
  logWait : List LogEntry := []
  saveWait : List (Nat × List Byte) := []
  susReq : Option (Nat × Nat) := none
  maskTicks : Nat := 0
  overrun : Bool := false
  taking : Bool := false
  preBy : Option (Nat × Nat) := none
  objs : List Loaded := []
  icode : Table Byte := []
  ptAt : Nat := 0
  fresh : List (Nat × Nat × Nat) := []
  iva : Nat := 0
  ipages : Nat := 0
  idone : Bool := true
  watches : List Watch := []
  gticks : Nat := 0
  rbticks : Nat := 0
  lgticks : Nat := 0
  epass : Nat := 0
  msteps : Nat := 0
  snap : List Nat := [0, 0, 0, 0, 0, 0, 0, 0]
  deriving DecidableEq, Repr, Inhabited

/-- An instruction comparator (18 R417, 19 R433). -/
structure ICmp where
  en : Bool := false
  all : Bool := false
  ctx : Nat := 0
  addr : Nat := 0
  deriving DecidableEq, Repr, Inhabited

/-- A data comparator: `access` is 1 read, 2 write, 3 both (18 R417, 19 R433). -/
structure DCmp where
  en : Bool := false
  all : Bool := false
  ctx : Nat := 0
  access : Nat := 0
  engines : Bool := false
  first : Nat := 0
  last : Nat := 0
  deriving DecidableEq, Repr, Inhabited

/-- Per-die state (08 R196, 18 R414, R417). `since` is the tick of its reset, in ticks that the module has run; `out` is set
where its margin is exhausted (19 R436); `compact` is the core that the compactor works on (15 R363); `halved` the tick of
the last halving of its hotness counters. -/
structure Die where
  since : Nat := 0
  out : Bool := false
  compact : Option Nat := none
  hot : Table Nat := []
  epoch : Nat := 2 ^ 20
  halved : Nat := 0
  trBase : Nat := 0
  trCapl : Nat := 0
  trEn : Bool := false
  trMask : Nat := 0
  trHead : Nat := 0
  trTail : Nat := 0
  trLost : Nat := 0
  icmp : Table ICmp := []
  dcmp : Table DCmp := []
  deriving DecidableEq, Repr, Inhabited

/-- The first hit of a comparator (18 R418): its tick, 1 instruction or 2 data, its number, die, location and PC. -/
structure Hit where
  tick : Nat
  source : Nat
  num : Nat
  die : Nat
  loc : Nat
  pc : Nat
  ctx : Nat
  deriving DecidableEq, Repr, Inhabited

/-- The debug freeze (18 R418, R419): the hit that freezes, the further ones. `src` is what froze the module: 0 nothing, 1
and 2 as a hit, 3 an armed tick; `len` the length of the history when it froze. -/
structure Freeze where
  frozen : Bool := false
  hit : Option Hit := none
  more : List Hit := []
  armed : Option Nat := none
  src : Nat := 0
  at_ : Nat := 0
  len : Nat := 0
  deriving DecidableEq, Repr, Inhabited

/-- A packet as a capture or a replay holds it (18 R420–R422): its queue, index, 64 bytes, begin and end tick, how it
ended (0 completed, 1 failed), its destination checksum, the events logged during it; where its record lies in the capture
store. -/
structure CapPkt where
  queue : Nat := 0
  idx : Nat := 0
  raw : Nat := 0
  began : Option Nat := none
  ended : Option Nat := none
  failed : Bool := false
  sum : Nat := 0
  events : List Nat := []
  at_ : Nat := 0
  deriving DecidableEq, Repr, Inhabited

/-- Replay capture of a context (18 R420): 0 off, 1 capturing, 2 ended full. A captured page is its virtual page, its
key and where its copy lies. `wrote` are the global words that launches wrote, by launch. -/
structure Capture where
  state : Nat := 0
  base : Nat := 0
  len : Nat := 0
  used : Nat := 0
  pages : List (Nat × Nat × Nat) := []
  wrote : List (Nat × Nat) := []
  pkts : List CapPkt := []
  deriving DecidableEq, Repr, Inhabited

/-- A replay (18 R422): 0 idle, 1 running, 2 done; where results go; the packets in captured begin order, as captured and
as run; how many have been submitted; the launches that have a record, and those that diverged. -/
structure Replay where
  state : Nat := 0
  result : Nat := 0
  cap : List CapPkt := []
  run : List CapPkt := []
  records : Nat := 0
  diverged : Nat := 0
  deriving DecidableEq, Repr, Inhabited

/-- A launch that has begun (15 R360–R364): its number, kernel descriptor, code base and constant banks, priority and place
in the order of begins, the start die and size of its chunks, its number of teams; the lowest chunk never dealt, the chunks
to be dealt again, the dealt chunks with their dies, the ranges of teams still to place by die, the ranges that have exited;
`began` the index of the history at its begin; by die the tick since which its head team has failed only through
fragmentation; whether a reset struck it without IDEM. -/
structure Launch where
  id : Nat := 0
  kd : Nat := 0
  cb : Nat := 0
  banks : List Bank := []
  prio : Nat := 0
  seq : Nat := 0
  start : Nat := 0
  chunk : Nat := 64
  total : Nat := 0
  next : Nat := 0
  again : List Nat := []
  dealt : List (Nat × Nat) := []
  todo : Table (List (Nat × Nat)) := []
  exited : List (Nat × Nat) := []
  blocked : Table Nat := []
  struck : Bool := false
  began : Nat := 0
  deriving DecidableEq, Repr, Inhabited

/-- An accepted packet that has not ended (15 R357, R358): its 64 bytes, whether it has begun, how it will end once its
effects are done (0 completes, else the reason), its launch, its place in a replay. -/
structure Packet where
  raw : Nat := 0
  begun : Bool := false
  fin : Option Nat := none
  launch : Option Launch := none
  replay : Option Nat := none
  deriving DecidableEq, Repr, Inhabited

/-- A hardware queue (15 R353): its descriptor's fields, the host address of the descriptor, the tick of the last
examination, whether it waits to be examined, the accepted packets by index. -/
structure Queue where
  hdr : Nat := 0
  ring : Nat := 0
  capl : Nat := 0
  ctx : Nat := 0
  prio : Nat := 0
  devq : Bool := false
  live : Bool := false
  chunk : Nat := 0
  desc : Nat := 0
  seen : Nat := 0
  notified : Bool := false
  pkts : Table Packet := []
  deriving DecidableEq, Repr, Inhabited

/-- A command interface (19 R425). `run` is the command that runs, with its arguments, while BUSY reads 1; `go` places its GO
write after those of lower numbers. -/
structure CmdPort where
  cmd : Nat := 0
  arg0 : Nat := 0
  arg1 : Nat := 0
  run : Option (Nat × Nat × Nat) := none
  go : Nat := 0
  status : Nat := 0
  deriving DecidableEq, Repr, Inhabited

/-- What the machine does next, when something is set to move before the default order (inventory, Agents). -/
inductive Item
  | event (i : Instr)
  | issue (t g p : Nat)
  | perform (t g id : Nat)
  | slot (core k : Nat)
  | tick
  deriving DecidableEq, Repr

/-- A firmware image of the supervisor's store (19 R431): the running one and the one of the inactive bank, none for
the image the module was delivered with; the security version held; the bank that runs; whether a new one waits. -/
structure Firmware where
  run : Option (List Byte) := none
  other : Option (List Byte) := none
  version : Nat := 0
  bank : Nat := 0
  waits : Bool := false
  deriving DecidableEq, Repr, Inhabited

/-- The ageing record of a die (19 R437). -/
structure Ageing where
  rcount : Nat := 0
  vset : Nat := 400
  vneed : Nat := 400
  mexh : Bool := false
  hours : Nat := 0
  cecnt : Nat := 0
  deriving DecidableEq, Repr, Inhabited

/-- The module supervisor (19 R428–R437): the log of events, as a kind, a value and a tick; the responses sent, as a
code and the bytes after it; the power limit in watts; the debug enable; the SPDM negotiation (0 none, 1 agreed, 2
refused); firmware by kind (1 supervisor, 2 control core, 3 I/O die, 4 configuration); ageing by die; corrected errors by
stack; the uncorrectable words detected so far. -/
structure Sup where
  log : List (Nat × Nat × Nat) := []
  out : List (Nat × List Byte) := []
  power : Nat := 10000
  debug : Bool := true
  neg : Nat := 0
  fw : Table Firmware := []
  ageing : Table Ageing := []
  stackCe : Table Nat := []
  found : List Nat := []
  deriving DecidableEq, Repr, Inhabited

/-- Whose write an entry of the history tells: an agent's; a coppice slot's of its table entry or data area; a slot's version
raised in one step with the write that follows it (09 R228). -/
inductive Writer
  | agent | slot | bump
  deriving DecidableEq, Repr, Inhabited

/-- Overwritten bytes: the key of the first, what they were, whose write it was. Landing memory stands here under keys of its
own. -/
structure Past where
  key : Nat := 0
  old : List Byte := []
  writer : Writer := .agent
  deriving DecidableEq, Repr, Inhabited

/-- The module. `ran` counts the ticks that it has run, those of debug freezes left out; `past` is the history of overwritten
values, newest first: an index of the history is its length at that time. `startDie` is S of 15 R362; `qio` the I/O die that
serves the queues (15 R364); `downStacks` the HBM stacks out of service; `bad` the uncorrectable words of memory, `walkBad`
and `copyBad` those of a die's page-walk caches and of the lines in its remote-data cache, `lineBad` those of `bad` that are
bad in the line of their home L2 and not below it; `moves` the page moves under way (08 R197), `lines` what scans have
written to cache lines in this freeze, by scan address; `bus` what requesters outside the module have been answered; `loads`
the statuses of driver loads. -/
structure State where
  gt : Nat := 0
  ran : Nat := 0
  mem : Table Byte := []
  bad : List Nat := []
  walkBad : List (Nat × Nat) := []
  copyBad : List (Nat × Nat) := []
  lineBad : List Nat := []
  past : List Past := []
  downStacks : List Nat := []
  teams : Table Team := []
  cores : Table Core := []
  clusters : Table Cluster := []
  ctxs : Table Ctx := []
  dies : Table Die := []
  queues : Table Queue := []
  startDie : Nat := 0
  qio : Nat := 0
  cmds : Table CmdPort := []
  loads : List Nat := []
  moves : List PageMove := []
  lines : Table Byte := []
  freeze : Freeze := {}
  captures : Table Capture := []
  replays : Table Replay := []
  cur : Option (Nat × Nat × Nat) := none
  agenda : List Item := []
  irqs : List (Nat × Nat × Nat) := []
  windows : List (Nat × Nat × Nat) := []
  bus : List (List Byte) := []
  sup : Sup := {}
  nextId : Nat := 0
  free : Nat := 0
  deriving DecidableEq, Repr

/-- Why a run stops. Only `noIssuingPath` exists: raised by the meaning of an instruction word where no path issues,
which no step does; safe. -/
inductive Fault
  | noIssuingPath
  deriving DecidableEq, Repr

/-- What has no meaning in this model: raised by an arm of `exec` for an instruction not modelled yet; safe. -/
inductive Refusal
  | notModelled (mnemonic : String)
  deriving DecidableEq, Repr

/-- The module right after reset (19 R438). -/
def State.reset : State := {}

end Sys2Proof.Machine
end

