-- ==== Sys2Proof/Machine/Records.lean ====
section
/-! DEFINITION. The forms in which the control core, the save area and the fault log hold the machine's records (04 R92, 05
R119, 06 R159, 10 R236, 11 R281, 16 R372, R384–R387, R396). -/

namespace Sys2Proof.Machine

/-- A predicate's value; p0 reads all ones (02 R29). -/
def predOf (G : Group) (n : Nat) : Mask := if n = 0 then BitVec.allOnes 96 else tget 0 G.pred n

/-- The 64 bytes of a trap record (16 R372). -/
def trapBytes (r : TrapRec) : List Byte :=
  leBytes (pack [(1, r.tvalid.toNat), (4, r.kind), (2, r.slot), (3, r.gslot), (3, r.path), (1, r.async.toNat),
    (1, r.absent.toNat), (1, r.replayable.toNat), (4, r.k), (10, r.ctx), (2, 0), (64, r.pc), (64, r.cpc), (96, r.flm),
    (56, r.addr), (8, 0), (32, r.info), (32, r.word), (64, r.tick)]) 64

/-- The trap record that 64 bytes hold. -/
def trapOfNat (x : Nat) : TrapRec :=
  { tvalid := bit x 0, kind := bits x 4 1, slot := bits x 6 5, gslot := bits x 9 7, path := bits x 12 10,
    async := bit x 13, absent := bit x 14, replayable := bit x 15, k := bits x 19 16, ctx := bits x 29 20,
    pc := bits x 95 32, cpc := bits x 159 96, flm := bits x 255 160, addr := bits x 311 256, info := bits x 351 320,
    word := bits x 383 352, tick := bits x 447 384 }

/-- The 16 bytes of a barrier shadow record (16 R387). -/
def barShadowBytes (B : Bar) : List Byte :=
  leBytes (pack [(32, B.darr), (24, B.dpend), (1, B.dflt.toNat), (1, B.daflt.toNat), (6, 0), (16, B.dfidx), (48, 0)]) 16

/-- A barrier with the shadow that a record holds. -/
def barShadowSet (B : Bar) (x : Nat) : Bar :=
  { B with darr := bits x 31 0, dpend := bits x 55 32, dflt := bit x 56, daflt := bit x 57, dfidx := bits x 79 64 }

/-! ### Records as numbers -/

/-- A path entry (04 R92). -/
def pathNat (P : Path) : Nat :=
  pack [(1, P.valid.toNat), (3, P.state), (4, P.wbar), (56, P.pc / 4 * 4), (8, P.age), (24, P.gm.code),
    (96, P.mask.toNat), (96, P.origin.toNat), (32, P.wake), (48, P.wcount), (144, 0)]

/-- What a path waits for once its entry is set: in state 4 the barrier of WBAR, a new one for the phase that is current
then (`ph` by barrier); a changed state ends every other wait. State 7, and state 2 or 5 without such a wait, are kept as written,
wait for nothing and are never ready (DESIGN CHOICE, log entry 34). -/
def waitSet (ph : Nat → Nat) (P : Path) (state wbar pc : Nat) : Wait :=
  if state = 4 then
    match P.wait with
    | .yield b tok at_ => if P.state = 4 ∧ b = wbar then .yield b tok at_ else .yield wbar (ph wbar) at_
    | _ => .yield wbar (ph wbar) pc
  else if state = P.state then P.wait else .none

/-- A path entry set from its form. A GM that R34 calls illegal leaves the path's GM as it was: the spec is silent on a
firmware write of one (DESIGN CHOICE, log entry 34). -/
def pathSet (present : Mask) (ph : Nat → Nat) (P : Path) (x : Nat) : Path :=
  let origin := BitVec.ofNat 96 (bits x 287 192) &&& present
  let gm := match gmOf (bits x 95 72) with
    | .ok g => g
    | .error _ => P.gm
  { P with valid := bit x 0, state := bits x 3 1, wbar := bits x 7 4, pc := bits x 63 8 / 4 * 4, age := bits x 71 64,
           gm := gm, mask := BitVec.ofNat 96 (bits x 191 96) &&& origin, origin := origin, wake := bits x 319 288,
           wcount := bits x 367 320, wait := waitSet ph P (bits x 3 1) (bits x 7 4) (bits x 63 8 / 4 * 4) }

/-- A frame state (05 R119). -/
def frameNat (P : Path) : Nat := pack [(16, P.fb), (8, P.fs), (8, P.ld), (32, 0)]

/-- A frame state set from its form. FS reads 0 to 192; a firmware write above 192 leaves 192 (DESIGN CHOICE, log entry
34). -/
def frameSet (P : Path) (x : Nat) : Path :=
  { P with fb := bits x 15 0, fs := min 192 (bits x 23 16), ld := bits x 31 24 }

/-- A drain port (11 R281). -/
def drainNat (D : Drain) : Nat :=
  pack [(4, D.dtile), (7, D.dcol), (1, D.armed.toNat), (1, D.held.toNat), (6, D.hcol), (13, 0)]

/-- A drain port set from its form. DCOL reads 0 to 64; a firmware write above 64 leaves 64 (DESIGN CHOICE, log entry
34). -/
def drainSet (D : Drain) (x : Nat) : Drain :=
  { D with dtile := bits x 3 0, dcol := min 64 (bits x 10 4), armed := bit x 11, held := bit x 12, hcol := bits x 18 13 }

/-- A barrier (10 R236). -/
def barNat (B : Bar) : Nat :=
  pack [(16, B.gmem), (16, B.garr), (8, B.ecnt), (8, B.earr), (16, B.ph), (24, B.pend), (1, B.flt.toNat),
    (1, B.aflt.toNat), (6, 0), (16, B.fidx), (16, 0)]

def barSet (B : Bar) (x : Nat) : Bar :=
  { B with gmem := bits x 15 0, garr := bits x 31 16, ecnt := bits x 39 32, earr := bits x 47 40, ph := bits x 63 48,
           pend := bits x 87 64, flt := bit x 88, aflt := bit x 89, fidx := bits x 111 96 }

/-- The control state of a function-table bank (06 R159). -/
def bankNat (B : FnBank) : Nat := pack [(64, B.src), (10, B.owner), (1, B.owned.toNat), (1, B.loading.toNat), (52, 0)]

def bankSet (B : FnBank) (x : Nat) : FnBank :=
  { B with src := bits x 63 0, owner := bits x 73 64, owned := bit x 74, loading := bit x 75 }

/-- A diversion entry (16 R385). -/
def divNat (d : Option Div) : Nat :=
  match d with
  | none => 0
  | some D => pack [(1, D.valid.toNat), (3, D.state), (3, D.kind), (10, D.ctx), (3, D.tslot), (4, D.group), (5, D.holdn), (3, 0), (16, D.first),
      (16, D.count), (16, D.cur), (56, D.target), (120, 0)]

def divSet (d : Option Div) (x : Nat) : Option Div :=
  if x = 0 then none
  else
    some { (d.getD {}) with valid := bit x 0, state := bits x 3 1, kind := bits x 6 4, ctx := bits x 16 7, tslot := bits x 19 17, group := bits x 23 20,
                            holdn := bits x 28 24, first := bits x 47 32, count := bits x 63 48, cur := bits x 79 64, target := bits x 135 80 }

/-- The trap registers, 32 bits each, in index order (16 R396). -/
def trapRegWords (R : TrapRegs) : List Nat :=
  [R.tkind, bits R.tpc 31 0, bits R.tpc 63 32, R.toff, R.tk, bits R.tflm 31 0, bits R.tflm 63 32, bits R.tflm 95 64,
   bits R.taddr 31 0, bits R.taddr 63 32, R.tinfo, R.tact.toNat, R.coff]

/-- Bytes padded with zeros to a length. -/
def padTo (n : Nat) (bs : List Byte) : List Byte := bs ++ List.replicate (n - bs.length) 0

/-- A group block (16 R384). -/
def groupBlock (G : Group) : List Byte :=
  let paths := (List.range 8).map fun p => tget ({} : Path) G.paths p
  (paths.flatMap fun P => leBytes (pathNat P) 64)
    ++ (paths.flatMap fun P => leBytes (frameNat P) 8)
    ++ ((List.range 48).flatMap fun k => if k < 45 then leBytes (tget (0 : Word) G.scal k).toNat 4 else leBytes 0 4)
    ++ ((List.range 16).flatMap fun k => leBytes (predOf G k).toNat 12)
    ++ leBytes (drainNat G.drain) 4 ++ leBytes G.lfm.toNat 12 ++ leBytes G.flm.toNat 12
    ++ leBytes (pack [(8, G.ga), (16, G.rb), (1, G.pm.toNat), (4, G.ptrap.length), (259, 0)]) 36
    ++ padTo 64 ((trapRegWords G.tregs).flatMap fun w => leBytes w 4)
    ++ padTo 512 ((G.ptrap.take 8).flatMap fun h => trapBytes h.tr)
    ++ padTo 448 (if G.drain.held then (G.drain.buf.take 96).flatMap fun w => leBytes w.toNat 4 else [])

/-- A predicate file set from its 192 bytes; p0 reads all ones. -/
def predLoad (x : Nat) : Table Mask :=
  (List.range 16).foldl (fun m k => if k = 0 then m else tset 0 m k (BitVec.ofNat 96 (bits x (96 * k + 95) (96 * k)))) []

/-- The scalars s0 to s44 of a group block. -/
def scalLoad (x : Nat) : Table Word :=
  (List.range 45).foldl (fun m k => tset 0 m k (BitVec.ofNat 32 (bits x (32 * k + 31) (32 * k)))) []

/-- The trap registers from their 13 words. -/
def trapRegsLoad (x : Nat) : TrapRegs :=
  let w := fun (k : Nat) => bits x (32 * k + 31) (32 * k)
  { tkind := w 0, tpc := w 1 + 2 ^ 32 * w 2, toff := w 3, tk := w 4, tflm := w 5 + 2 ^ 32 * w 6 + 2 ^ 64 * w 7,
    taddr := w 8 + 2 ^ 32 * w 9, tinfo := w 10, tact := bit (w 11) 0, coff := w 12 }

/-- The path table of a group block; what a path waits for is the kept one's where its state is as it was. -/
def pathsLoad (ph : Nat → Nat) (G : Group) (x frames : Nat) : Table Path :=
  (List.range 8).foldl (fun m p =>
    let P := pathSet G.present ph (tget {} G.paths p) (bits x (512 * p + 511) (512 * p))
    tput m p (frameSet P (bits frames (64 * p + 63) (64 * p)))) G.paths

/-- The held traps of a group block, at most NPT, with the operations that are kept for them. -/
def ptrapLoad (G : Group) (npt x : Nat) : List Held :=
  ((G.ptrap.take npt).zip (List.range npt)).map fun h => { h.1 with tr := trapOfNat (bits x (512 * h.2 + 511) (512 * h.2)) }

/-- A group set from its block (16 R384, R389 step 5). -/
def groupLoad (ph : Nat → Nat) (G : Group) (x : Nat) : Group :=
  let drain := drainSet G.drain (bits x 7711 7680)
  { G with paths := pathsLoad ph G (bits x 4095 0) (bits x 4607 4096), scal := scalLoad (bits x 6143 4608),
           pred := predLoad (bits x 7679 6144), lfm := BitVec.ofNat 96 (bits x 7807 7712), flm := BitVec.ofNat 96 (bits x 7903 7808),
           ga := bits x 7911 7904, rb := bits x 7927 7912, pm := bit x 7928, tregs := trapRegsLoad (bits x 8703 8192),
           ptrap := ptrapLoad G (bits x 7932 7929) (bits x 12799 8704),
           drain := if drain.held then
               { drain with buf := (List.range 96).map fun l => BitVec.ofNat 32 (bits x (12800 + 32 * l + 31) (12800 + 32 * l)) }
             else drain }

end Sys2Proof.Machine
end

