-- ==== Sys2Proof/Machine/Ops.lean ====
section
/-! DEFINITION. The named operations over the state: groups, teams and contexts, memory and translation, the fault
log, taking a trap and returning from one. -/

namespace Sys2Proof.Machine

/-! ### Accessors -/

def teamOf (s : State) (t : Nat) : Team := tget {} s.teams t
def modTeam (s : State) (t : Nat) (f : Team → Team) : State := { s with teams := tmod s.teams t f }
def groupOf (s : State) (t g : Nat) : Group := tget {} (teamOf s t).groups g
def modGroup (s : State) (t g : Nat) (f : Group → Group) : State :=
  modTeam s t fun T => { T with groups := tmod T.groups g f }
def pathOf (s : State) (t g p : Nat) : Path := tget {} (groupOf s t g).paths p
def setPathG (G : Group) (p : Nat) (P : Path) : Group := { G with paths := tput G.paths p P }
def modPath (s : State) (t g p : Nat) (f : Path → Path) : State :=
  modGroup s t g fun G => setPathG G p (f (tget {} G.paths p))
def ctxOf (s : State) (c : Nat) : Ctx := tget {} s.ctxs c
def modCtx (s : State) (c : Nat) (f : Ctx → Ctx) : State := { s with ctxs := tmod s.ctxs c f }
def coreOf (s : State) (c : Nat) : Core := tget {} s.cores c
def modCore (s : State) (c : Nat) (f : Core → Core) : State := { s with cores := tput s.cores c (f (coreOf s c)) }

/-- The module-wide number of the core that holds a team (16 R377: 320 cores per die). -/
def teamCore (T : Team) : Nat := T.die * 320 + T.core

/-- The cluster, module-wide, of a team's core. -/
def teamCluster (T : Team) : Nat := T.die * 80 + T.core / 4

/-! ### Masks -/

/-- The lanes of a mask, ascending. -/
def lanesOf (m : Mask) : List Nat := (List.range lanes).filter fun l => m.getLsbD l

/-- The mask of a list of lanes. -/
def maskOf (ls : List Nat) : Mask := ls.foldl (fun m l => m ||| BitVec.ofNat 96 (2 ^ l)) 0

/-- The lowest lane of a mask, if any. -/
def lowLane (m : Mask) : Option Nat := (lanesOf m).head?

/-- The guard bits of a path (02 R35). -/
def guardOf (G : Group) (gm : GM) : Mask := if gm.ginv then ~~~ predOf G gm.gpred else predOf G gm.gpred

/-- Active(G) of 02 R53. -/
def activeOf (G : Group) (P : Path) : Mask := G.present &&& P.mask &&& guardOf G P.gm

/-! ### Physical memory -/

/-- Device physical addresses end here (08 R189). -/
def deviceTop : Nat := 0x070000000000

/-- Key of a byte of host memory behind a port. -/
def hostKey (port pa : Nat) : Nat := 2 ^ 60 + port * 2 ^ 57 + pa % 2 ^ 56

/-- Key of a byte of a peer module's memory. -/
def peerKey (m pa : Nat) : Nat := 2 ^ 61 + m * 2 ^ 56 + pa % 2 ^ 56

/-- What an unlisted byte of memory reads as (log entry 1). -/
def emptyByte : Byte := 0

def readByte (m : Table Byte) (k : Nat) : Byte := tget emptyByte m k
def readBytes (m : Table Byte) (k n : Nat) : List Byte := tspan emptyByte m k n
def readNat (m : Table Byte) (k n : Nat) : Nat := leNat (readBytes m k n)
def writeBytes (m : Table Byte) (k : Nat) (bs : List Byte) : Table Byte := tblit emptyByte m k bs

/-- The canonical form of memory. -/
def Memory.wf (m : Table Byte) : Bool := twf emptyByte m

/-- The aligned 8-byte words that `n` bytes at `k` touch. -/
def wordsTouched (k n : Nat) : List Nat :=
  (List.range ((k % 8 + n + 7) / 8)).map fun i => (k / 8 + i) * 8

/-- Whether a word of memory is uncorrectable (08 R206) or lies in a stack out of service (15 R364). -/
def wordBad (s : State) (w : Nat) : Bool := s.bad.contains w || (decide (w < 2 ^ 40) && s.downStacks.contains (w / 2 ^ 36))

/-- Whether an access of `n` bytes meets uncorrectable data (08 R206), where the wholly written words of a store do not
count, or a stack out of service (15 R364). -/
def meetsBad (s : State) (k n : Nat) (store : Bool) : Bool :=
  ((wordsTouched k n).any fun w =>
    s.bad.contains w && !(store && decide (k ≤ w) && decide (w + 8 ≤ k + n))) ||
    (decide (k < 2 ^ 40) && s.downStacks.contains (k / 2 ^ 36))

/-- Whether an access of n bytes at a key by a die goes by a line of its remote-data cache that holds uncorrectable data
(08 R202, R205). -/
def meetsCopy (s : State) (die k n : Nat) : Bool :=
  !s.copyBad.isEmpty && (wordsTouched k n).any fun w => s.copyBad.contains (die, w) && Config.copyMet s.free w

/-! ### Values that a location has held (07 R169, R180, 08 R195, R200, R204, 09 R222, 12 R289) -/

/-- The history after bytes at a key go from `old` to `new`. -/
def pastWith (s : State) (writer : Writer) (key : Nat) (old new : List Byte) : List Past :=
  if old = new ∧ writer ≠ .slot then s.past else { key := key, old := old, writer := writer } :: s.past

/-- The index of the history now. -/
def pastNow (s : State) : Nat := s.past.length

/-- The entries of the history from an index on, newest first. -/
def pastFrom (s : State) (j : Nat) : List Past := s.past.take (s.past.length - j)

/-- Memory as it was at an index of the history. -/
def memAt (s : State) (j : Nat) : Table Byte := (pastFrom s j).foldl (fun m p => if p.key < 2 ^ 80 then writeBytes m p.key p.old else m) s.mem

/-- An index of the history past the write with which a slot's version has been raised in one step (09 R228). -/
def settled (s : State) (j : Nat) : Nat :=
  if j = 0 then 0 else min (pastNow s) (j + ((s.past.reverse.drop (j - 1)).takeWhile fun p => p.writer == .bump).length)

/-- An index of the history from `from_` to now, by a free choice. -/
def chosenAt (s : State) (from_ choice : Nat) : Nat := settled s (from_ + choice % (pastNow s + 1 - from_))

/-- Bytes at a key as one read of them may find them: as they have been at some time since an index of the history. `n` and
`place` number the read. -/
def readSince (s : State) (from_ n place key len : Nat) : List Byte :=
  readBytes (memAt s (chosenAt s from_ (Config.readAt n place key))) key len

/-- The indices of the history just before each write of a byte by a coppice slot, newest first (12 R289, R290). -/
def slotTimes (s : State) (key : Nat) : List Nat :=
  ((s.past.zip (List.range s.past.length)).filter fun x =>
    x.1.writer == .slot && decide (x.1.key ≤ key) && decide (key < x.1.key + x.1.old.length)).map fun x => s.past.length - 1 - x.2

/-- The index of the history just after the last write of a byte by a coppice slot, 0 where there is none. -/
def slotFrom (s : State) (key : Nat) : Nat :=
  match slotTimes s key with
  | [] => 0
  | j :: _ => j + 1

/-- The key of a byte of a team's landing memory in the history. -/
def landPast (t off : Nat) : Nat := 2 ^ 80 + t * 2 ^ 40 + off

/-- A team's landing memory as it was at an index of the history. -/
def landAt (s : State) (t : Nat) (land : Table Byte) (j : Nat) : Table Byte :=
  (pastFrom s j).foldl (fun m p =>
    if p.key / 2 ^ 40 = 2 ^ 40 + t then tblit 0 m (p.key % 2 ^ 40) p.old else m) land

/-- The die where a device address is homed (08 R189, 01 R12). -/
def homeDie (key : Nat) : Nat := if key < 2 ^ 40 then key / 2 ^ 37 else (key - 2 ^ 40) / 2 ^ 21 % 8

/-! ### Translation (08 R190–R195, R203) -/

/-- What an access needs of its page (08 R192 check 5). -/
inductive Need
  | rd | wr | rw | ex
  deriving DecidableEq, Repr

/-- The outcome of a translation: a memory key; a write held by a migration (08 R197); a trap. -/
inductive Tr
  | key (k : Nat)
  | hold
  | fail (kind : TrapKind)
  deriving DecidableEq, Repr

/-- Checks 2 and 3 of 08 R192 on an entry at a level. -/
def entryOk (level e : Nat) : Bool :=
  let leaf := bit e 1
  let tgt := bits e 7 6
  bit e 0 && (if level < 2 then !leaf else if level = 3 then leaf else true)
    && bits e 14 11 == 0 && bits e 63 62 == 0 && tgt != 3
    && (tgt != 0 || bits e 61 56 == 0) && (tgt != 2 || bits e 61 57 == 0)
    && !(level == 2 && leaf && bits e 26 15 != 0)

/-- Check 4 of 08 R192. -/
def leafInRange (e : Nat) : Bool := bits e 7 6 != 0 || decide (bits e 55 15 * 2 ^ 15 < deviceTop)

/-- The index of a virtual address at a level (08 R190). -/
def levelIndex (level va : Nat) : Nat :=
  match level with
  | 0 => bits va 55 51
  | 1 => bits va 50 39
  | 2 => bits va 38 27
  | _ => bits va 26 15

/-- The members of a 2 MiB run whose first entry is at `base`, as index and entry. -/
def runMembers (m : Table Byte) (base : Nat) : List (Nat × Nat) :=
  (List.range 64).map fun i => (i, readNat m (base + 8 * i) 8)

/-- Whether a run with CONT meets the conditions of 08 R193. -/
def runOk (r : List (Nat × Nat)) : Bool :=
  match r with
  | [] => true
  | (_, e0) :: _ =>
    let pa0 := bits e0 55 15
    pa0 % 64 == 0 && r.all fun x =>
      entryOk 3 x.2 && bits x.2 14 0 == bits e0 14 0 && bits x.2 63 56 == bits e0 63 56 && bits x.2 55 15 == pa0 + x.1

/-- The leaf that translates page `i` of a run: its own entry, or another valid member with CONT (08 R193). -/
def runEntry (n page : Nat) (r : List (Nat × Nat)) (i own : Nat) : Nat :=
  if !(r.any fun x => bit x.2 0 && bit x.2 5) || runOk r then own
  else
    let j := Config.contMember n page % 64
    match r.find? fun x => x.1 == j with
    | some x => if entryOk 3 x.2 && bit x.2 5 then
        setBits x.2 55 15 ((bits x.2 55 15 + i + 2 ^ 41 - j) % 2 ^ 41)
      else own
    | none => own

/-- A walk from a table at a level (08 R192): the leaf entry and its level, or the trap. `m` is memory as the reads of a
level find it. -/
def walkGo (m : Nat → Table Byte) (bad : Nat → Bool) (n va : Nat) : Nat → Nat → Nat → Except TrapKind (Nat × Nat)
  | 0, _, _ => .error .translation
  | fuel + 1, level, table =>
    let at_ := table + 8 * levelIndex level va
    let own := readNat (m level) at_ 8
    let i := levelIndex 3 va
    let e := if level = 3 then runEntry n (va / 2 ^ 15) (runMembers (m level) (table + 8 * (i / 64 * 64))) (i % 64) own else own
    if bad at_ then .error .uncorrected
    else if !entryOk level e then .error .translation
    else if bit e 1 then (if leafInRange e then .ok (e, level) else .error .translation)
    else walkGo m bad n va fuel (level + 1) (bits e 55 15 * 2 ^ 15)

/-- The walk of a virtual address from a root. -/
def walk (m : Table Byte) (bad : Nat → Bool) (n root va : Nat) : Except TrapKind (Nat × Nat) :=
  walkGo (fun _ => m) bad n va 4 0 root

/-- A request for a translation: its number, for its free choices, and the die that it comes from (08 R194). -/
structure Asker where
  n : Nat
  die : Nat

/-- The next request of a die. -/
def asks (s : State) (die : Nat) : Asker := { n := s.free, die := die }

/-- Whether the walk of a request meets an entry as uncorrectable, in memory or in a page-walk cache of its die (08 R192,
R205). -/
def entryBad (s : State) (a : Asker) (page w : Nat) : Bool :=
  wordBad s w || (s.walkBad.contains (a.die, w) && Config.walkCached a.n page)

/-- The index of the history from which on a lookaside buffer may hold entries for an address (08 R195). -/
def tablesFrom (C : Ctx) (va : Nat) : Nat :=
  match C.fresh.find? fun r => decide (r.1 ≤ va / 2 ^ 15) && decide (va / 2 ^ 15 < r.1 + r.2.1) with
  | some r => r.2.2
  | none => C.ptAt

/-- The number of the page of an address that a leaf of a level maps: all lanes of an instruction in it make one lookup
(08 R194). -/
def pageNo (level va : Nat) : Nat := if level = 2 then 2 ^ 50 + va / 2 ^ 27 else va / 2 ^ 15

/-- The number of the page of an address as the tables map it now. -/
def pageNow (m : Table Byte) (n root va : Nat) : Nat :=
  match walk m (fun _ => false) n root va with
  | .ok e => pageNo e.2 va
  | .error _ => pageNo 3 va

/-- The leaf at a level that a lookaside buffer holds for an address, each entry of its walk as it has been at some time since
the last invalidation (08 R195). -/
def heldLeaf (s : State) (C : Ctx) (n va level : Nat) : Option (Nat × Nat) :=
  let page := pageNo level va
  let from_ := tablesFrom C va
  if pastNow s ≤ from_ ∨ Config.walkAt n page 4 % 2 = 0 then none
  else match walkGo (fun l => memAt s (chosenAt s from_ (Config.walkAt n page l))) (fun _ => false) n va 4 0 C.root with
    | .ok o => if o.2 = level then some o else none
    | .error _ => none

/-- The leaf that a request uses: one that a lookaside buffer holds, or the walk now. No buffer holds a failed walk
(08 R192). -/
def leafFor (s : State) (C : Ctx) (a : Asker) (va : Nat) : Except TrapKind (Nat × Nat) :=
  match (heldLeaf s C a.n va 2).or (heldLeaf s C a.n va 3) with
  | some e => .ok e
  | none => walk s.mem (entryBad s a (pageNow s.mem a.n C.root va)) a.n C.root va

/-- The memory key of an address through its leaf (08 R189, R191, R192 check 5, R197, R203). `tgt` is the page target
that the opcode's space requires, none where any will do. -/
def leafKey (s : State) (e level va : Nat) (need : Need) (tgt : Option Nat) : Tr :=
  let t := bits e 7 6
  let off := if level = 2 then va % 2 ^ 27 else va % 2 ^ 15
  let pa := bits e 55 15 * 2 ^ 15 + off
  let okNeed := match need with
    | .rd => bit e 2
    | .wr => bit e 3
    | .rw => bit e 2 && bit e 3
    | .ex => bit e 4
  let okTgt := match tgt with
    | none => true
    | some x => t == x
  let port := bits e 56 56
  let inWindow := s.windows.any fun w => w.1 == port && decide (w.2.1 ≤ pa) && decide (pa < w.2.1 + w.2.2)
  if !okNeed || !okTgt then .fail .permission
  else if t == 2 && bit e 9 && !inWindow then .fail .permission
  else if bit e 8 && (need == .wr || need == .rw) then .hold
  else if t = 0 then .key pa
  else if t = 1 then .key (peerKey (bits e 61 56) pa)
  else .key (hostKey port pa)

/-- Where the core-state windows of a die begin and end for its control core (16 R377). -/
def windowBase : Nat := 0x080000000000
def windowEnd : Nat := 0x080002800000

/-- The key that stands for a byte of a core-state window of a die. -/
def windowKey (die off : Nat) : Nat := 2 ^ 62 + die * 2 ^ 40 + off

/-- The pseudo-context of a die's control core (16 R376). -/
def ctlCtx (die : Nat) : Nat := 1024 + die

/-- A control core's physical address (16 R376, R377). -/
def physKey (die pa : Nat) (need : Need) : Tr :=
  if pa < deviceTop then .key pa
  else if windowBase ≤ pa ∧ pa < windowEnd ∧ (need = .rd ∨ need = .wr) then .key (windowKey die (pa - windowBase))
  else .fail .translation

/-- An address through the leaf that a lookup in a context's tables gives. -/
def tableKey (s : State) (C : Ctx) (a : Asker) (va : Nat) (need : Need) (tgt : Option Nat) : Tr :=
  if 2 ^ 56 ≤ va then .fail .translation
  else match leafFor s C a va with
    | .error k => .fail k
    | .ok e => leafKey s e.1 e.2 va need tgt

/-- A control core's address (16 R376): physical, or virtual through the firmware's own page table, whose leaves need no
target, or in a context's memory through its ROOT. How an address tells which is its firmware's (`Config.ctlSpace`,
log 33). -/
def ctlKey (s : State) (die : Nat) (a : Asker) (x : Nat) (need : Need) (tgt : Option Nat) : Tr :=
  match Config.ctlSpace die x with
  | none => physKey die x need
  | some 0 => tableKey s { root := Config.ctlRoot die, ptAt := pastNow s } a x need none
  | some (c + 1) => tableKey s (ctxOf s c) a x need tgt

/-- Translates a virtual address of a context (08 R190–R197). -/
def translate (s : State) (c : Nat) (a : Asker) (va : Nat) (need : Need) (tgt : Option Nat) : Tr :=
  if 1024 ≤ c then ctlKey s (c - 1024) a va need tgt else tableKey s (ctxOf s c) a va need tgt

/-! ### Stores, with the watches of coppice slots (12 R294) -/

/-- Writes bytes at a key; a wholly written word is no longer uncorrectable (08 R206). -/
def putMemAs (writer : Writer) (s : State) (k : Nat) (bs : List Byte) : State :=
  { s with mem := writeBytes s.mem k bs,
           past := pastWith s writer k (readBytes s.mem k bs.length) bs,
           bad := s.bad.filter fun w => !(decide (k ≤ w) && decide (w + 8 ≤ k + bs.length)) }

def putMem (s : State) (k : Nat) (bs : List Byte) : State := putMemAs .agent s k bs

/-- Where a virtual address of a context lies now, whatever its permissions. -/
def whereIs (s : State) (c va : Nat) : Option Nat :=
  match walk s.mem (wordBad s) 0 (ctxOf s c).root va with
  | .error _ => none
  | .ok e => match leafKey s e.1 e.2 va .rd none with
    | .key k => some k
    | _ => none

/-- Raises VER of a slot by `by_` (09 R228, 12 R294). -/
def bumpVer (s : State) (c slot by_ : Nat) : State :=
  match whereIs s c ((ctxOf s c).ctbase + 128 * slot + 24) with
  | none => s
  | some k => putMemAs .bump s k (leBytes ((readNat s.mem k 8 + by_) % 2 ^ 64) 8)

/-- The slots of a context that have watches. -/
def watchedSlots (C : Ctx) : List Nat :=
  C.watches.foldl (fun l w => if l.contains w.slot then l else l ++ [w.slot]) []

/-- The number of 128-byte lines of a write that overlap one of a slot's watched ranges. -/
def linesHit (C : Ctx) (slot k n : Nat) : Nat :=
  ((List.range ((k % 128 + n + 127) / 128)).filter fun i =>
    let l := (k / 128 + i) * 128
    C.watches.any fun w => w.slot == slot && decide (l < w.hi) && decide (w.lo < l + 128)).length

/-- The bumps that a write of `n` bytes at `k` makes, in every context with a watch it meets: one a line for each slot. -/
def bumpWatches (s : State) (k n : Nat) : State :=
  s.ctxs.foldl (fun s c => (watchedSlots c.2).foldl (fun s slot =>
    let h := linesHit c.2 slot k n
    if h = 0 then s else bumpVer s c.1 slot h) s) s

/-- A write by any agent: the watches first, then the bytes. -/
def storeMemAs (writer : Writer) (s : State) (k : Nat) (bs : List Byte) : State := putMemAs writer (bumpWatches s k bs.length) k bs

def storeMem (s : State) (k : Nat) (bs : List Byte) : State := storeMemAs .agent s k bs

/-! ### Replay capture of pages (18 R420) -/

/-- Copies n bytes of memory from one key to another. -/
def copyRange (m : Table Byte) (src dst n : Nat) : Table Byte :=
  let from_ := m.filter fun e => decide (src ≤ e.1) && decide (e.1 < src + n)
  let kept := m.filter fun e => !(decide (dst ≤ e.1) && decide (e.1 < dst + n))
  from_.foldl (fun r e => tset emptyByte r (e.1 - src + dst) e.2) kept

/-- Bytes written at the next free place of a context's capture store, with what else the capture takes down about that
place; a store without the room is full, and capture ends. -/
def capStore (s : State) (ctx : Nat) (K : Capture) (bs : List Byte) (f : Nat → Capture → Capture) : State :=
  if K.len < K.used + bs.length then { s with captures := tput s.captures ctx { K with state := 2 } }
  else
    let at_ := K.base + K.used
    storeMem { s with captures := tput s.captures ctx (f at_ { K with used := K.used + bs.length }) } at_ bs

/-- The copy of a page of a context's device memory at its first access under capture. -/
def capturePage (s : State) (ctx va key : Nat) : State :=
  match tfind s.captures ctx with
  | none => s
  | some K =>
    let vp := va / 2 ^ 15
    if K.state ≠ 1 ∨ deviceTop ≤ key ∨ (K.pages.any fun p => p.1 == vp) then s
    else
      let pa := key / 2 ^ 15 * 2 ^ 15
      capStore s ctx K (readBytes s.mem pa (2 ^ 15)) fun at_ K => { K with pages := K.pages ++ [(vp, pa, at_)] }

/-- The 128-byte record of a packet in the capture store; its layout is the model's (log entry 71). -/
def capBytes (p : CapPkt) : List Byte :=
  leBytes (pack [(512, p.raw), (64, p.idx), (12, p.queue), (1, p.began.isSome.toNat), (1, p.ended.isSome.toNat),
    (1, p.failed.toNat), (49, 0), (64, p.began.getD 0), (64, p.ended.getD 0), (64, p.sum), (192, 0)]) 128

/-- A captured packet changed, with its record in the store. -/
def capChange (s : State) (ctx : Nat) (which : CapPkt → Bool) (f : CapPkt → CapPkt) : State :=
  match tfind s.captures ctx with
  | none => s
  | some K => match K.pkts.find? which with
    | none => s
    | some p => storeMem { s with captures := tput s.captures ctx { K with pkts := K.pkts.map fun x => if x == p then f p else x } }
        p.at_ (capBytes (f p))

/-! ### Hotness (08 R196) -/

/-- A die's hotness count of a region, one more. -/
def hotter (D : Die) (key : Nat) : Table Nat := tset 0 D.hot (key / 2 ^ 21) (min 255 (tget 0 D.hot (key / 2 ^ 21) + 1))

/-- One more count of a region's hotness. -/
def heat (s : State) (key : Nat) : State :=
  if deviceTop ≤ key then s
  else
    let D := tget ({} : Die) s.dies (homeDie key)
    { s with dies := tput s.dies (homeDie key) { D with hot := hotter D key } }

/-- A line that an access fills from memory into the home L2, or finds there (08 R201). -/
def fillLine (s : State) (key : Nat) : State :=
  if deviceTop ≤ key then s
  else
    let D := tget ({} : Die) s.dies (homeDie key)
    { s with dies := tput s.dies (homeDie key) { D with hot := if Config.fills s.free key then hotter D key else D.hot } }

/-- The lines of n bytes at a key. -/
def fillLines (s : State) (key n : Nat) : State :=
  ((List.range ((key % 128 + n + 127) / 128)).map fun i => (key / 128 + i) * 128).foldl fillLine s

/-- A write to a context's memory by the module, of a page that capture copies first. -/
def storeCaptured (s : State) (ctx va key : Nat) (bs : List Byte) : State :=
  storeMem (fillLines (capturePage s ctx va key) key bs.length) key bs

/-- What a read of a context's memory by the module leaves behind. -/
def readCaptured (s : State) (ctx va key n : Nat) : State := fillLines (capturePage s ctx va key) key n

/-! ### The fault log (16 R378, R379) -/

/-- The fields of a fault-log header that its type uses (16 R378). -/
structure LogInfo where
  absent : Bool := false
  queue : Nat := 0
  pkt : Nat := 0
  engine : Nat := 0
  kind : Nat := 0
  va : Nat := 0
  bt : Nat := 0
  lin : Nat := 0
  gmask : Nat := 0

/-- The 64 bytes of a fault-log header unit (16 R378). -/
def logHeader (s : State) (c type units idx : Nat) (f : LogInfo) : List Byte :=
  leBytes (pack [(8, type), (4, units), (4, 0), (16, idx), (10, c), (1, f.absent.toNat), (5, 0), (64, s.gt),
    (12, f.queue), (4, 0), (64, f.pkt), (4, f.engine), (4, f.kind), (56, f.va), (4, f.bt), (32, f.lin),
    (16, f.gmask)]) 64

/-- The virtual address of a unit of the next entry of a context's log. -/
def logVa (C : Ctx) (u : Nat) : Nat := C.flogBase + 64 * ((C.flHead + u) % 2 ^ C.flogL)

/-- The die number of the I/O dies, for requests of queue processors and the fault log. -/
def ioDie : Nat := 8

/-- Interrupts the host for a context (16 R370, R378). -/
def interrupt (s : State) (c : Nat) : State :=
  let C := ctxOf s c
  { s with irqs := s.irqs ++ [(c, C.ivec, C.iport)] }

/-- The supervisor logs the address and tick of the first detection of each uncorrectable word (08 R206), here among the
words that n bytes at a key touch. -/
def detect (s : State) (k n : Nat) : State :=
  let new := (wordsTouched k n).filter fun w => (s.bad.contains w || s.copyBad.any fun c => c.2 == w) && !(s.sup.found.contains w)
  if new.isEmpty then s
  else { s with sup := { s.sup with found := s.sup.found ++ new, log := s.sup.log ++ new.map fun w => (2, w, s.gt) } }

/-- An entry of a context's fault log goes to the ring, the interrupt after it (16 R378): lost where it does not fit or a unit
meets a fault or uncorrected data (16 R379); none where a migration holds one of its pages (08 R197). -/
def logPut (s : State) (c : Nat) (e : LogEntry) : Option State :=
  let C := ctxOf s c
  let units := e.bytes.length / 64
  let trs := (List.range units).map fun u => translate s c (asks s ioDie) (logVa C u) .wr none
  let ks := trs.filterMap fun
    | .key k => some k
    | _ => none
  let fails := trs.any fun
    | .fail _ => true
    | _ => false
  let after := fun (s : State) => if e.irq then interrupt s c else s
  let lost := fun (s : State) => some (after (modCtx s c fun C => { C with flLost := (C.flLost + 1) % 2 ^ 32 }))
  if 2 ^ C.flogL < (C.flHead + 2 ^ 32 - C.flTail) % 2 ^ 32 + units || fails then lost s
  else if ks.any fun k => meetsBad s k 64 false then lost (ks.foldl (fun s k => detect s k 64) s)
  else if ks.length < units then none
  else
    let s' := (ks.zip (List.range units)).foldl
      (fun s x => storeCaptured s c (logVa C x.2) x.1 ((e.bytes.drop (64 * x.2)).take 64)) s
    some (after (modCtx s' c fun C => { C with flHead := (C.flHead + units) % 2 ^ 32 }))

/-- The units of a context's entries that wait for a migration. -/
def unitsWaiting (C : Ctx) : Nat := C.logWait.foldl (fun n e => n + e.bytes.length / 64) 0

/-- The index of a context's next entry. -/
def logIdx (C : Ctx) : Nat := (C.flHead + unitsWaiting C) % 2 ^ 16

/-- Appends an entry to a context's fault log, or counts it lost, or has it wait behind a migration of the log's pages
(16 R378, R379, 08 R197); also the entry's index. -/
def logAppendIrq (s : State) (c type : Nat) (f : LogInfo) (body : List Byte) (irq : Bool) : State × Nat :=
  let C := ctxOf s c
  let idx := logIdx C
  let e : LogEntry := { bytes := logHeader s c type (body.length / 64) idx f ++ body, irq := irq }
  let wait := modCtx s c fun C => { C with logWait := C.logWait ++ [e] }
  (if C.logWait.isEmpty then (logPut s c e).getD wait else wait, idx)

def logAppend (s : State) (c type : Nat) (f : LogInfo) (body : List Byte) : State × Nat := logAppendIrq s c type f body false

/-- The waiting entries of a context that can be written now, in order. -/
def drainLog (s : State) (c : Nat) : State :=
  ((ctxOf s c).logWait.foldl (fun x e =>
    if x.2 then x
    else match logPut x.1 c e with
      | some s1 => (modCtx s1 c fun C => { C with logWait := C.logWait.drop 1 }, false)
      | none => (x.1, true)) (s, false)).1

/-- A log header for work of a team. -/
def teamLog (T : Team) : LogInfo := { queue := T.queue, pkt := T.pkt, lin := T.lin }

/-! ### Trace records and events (18 R414, R415, R420) -/

/-- A group's location (05 R126). -/
def locOf (T : Team) (G : Group) : Nat := pack [(2, G.slot), (2, T.core % 4), (7, T.core / 4), (3, T.die)]

/-- What a trace record says besides its tick (18 R415). -/
structure TraceRec where
  type : Nat := 1
  ctx : Nat := 0
  queue : Nat := 0
  loc : Nat := 0
  tag : Nat := 0
  pc : Nat := 0
  d0 : Nat := 0
  d1 : Nat := 0

/-- The 32 bytes of a trace record. -/
def traceBytes (tick : Nat) (r : TraceRec) : List Byte :=
  leBytes (pack [(64, tick), (8, r.type), (10, r.ctx), (12, r.queue), (2, 0), (16, r.loc), (16, r.tag), (64, r.pc),
    (32, r.d0), (32, r.d1)]) 32

def dieOf (s : State) (d : Nat) : Die := tget {} s.dies d
def modDie (s : State) (d : Nat) (f : Die → Die) : State := { s with dies := tput s.dies d (f (dieOf s d)) }

/-- A record for a die's trace ring: written where its type is enabled, dropped where the ring is full (18 R414). -/
def traceOut (s : State) (d tick : Nat) (r : TraceRec) : State :=
  let D := dieOf s d
  let cap := 2 ^ (8 + D.trCapl)
  if !D.trEn || !bit D.trMask (r.type - 1) then s
  else if (D.trHead + 2 ^ 64 - D.trTail) % 2 ^ 64 = cap then modDie s d fun D => { D with trLost := (D.trLost + 1) % 2 ^ 64 }
  else
    let s1 := storeMem s (D.trBase + 32 * (D.trHead % cap)) (traceBytes tick r)
    modDie s1 d fun D => { D with trHead := (D.trHead + 1) % 2 ^ 64 }

/-- Whether a captured packet is the running packet of an index of a queue. -/
def capRunning (q i : Nat) (p : CapPkt) : Bool := p.queue == q && p.idx == i && p.began.isSome && p.ended.isNone

/-- An event added to the chosen packets of a list of captured ones. -/
def addEvent (which : CapPkt → Bool) (code : Nat) (l : List CapPkt) : List CapPkt :=
  l.map fun p => if which p then { p with events := p.events ++ [code] } else p

/-- The 32-byte record of an event in the capture store; its layout is the model's (log entry 71). -/
def eventBytes (p : CapPkt) (now code : Nat) : List Byte := leBytes (pack [(64, p.idx), (12, p.queue), (52, code), (64, now), (64, 0)]) 32

/-- An event for the chosen packets of a context that is captured or replayed (18 R420, R422). -/
def noteEvents (s : State) (c : Nat) (which : CapPkt → Bool) (code : Nat) : State :=
  let s1 := { s with replays := tmod s.replays c fun R => if R.state = 1 then { R with run := addEvent which code R.run } else R }
  match tfind s.captures c with
  | none => s1
  | some K =>
    let hit := K.pkts.filter which
    if K.state ≠ 1 ∨ hit.isEmpty then s1
    else capStore s1 c K (hit.flatMap fun p => eventBytes p s.gt code) fun _ K => { K with pkts := addEvent which code K.pkts }

/-- A fault, corrected error or pre-emption is logged with the packet during which it occurs, where its context is
captured or replayed. -/
def noteEvent (s : State) (c q i code : Nat) : State := noteEvents s c (capRunning q i) code

/-- The page-table entry with uncorrectable data that ends the walk of an address, if one does (08 R192 check 1). -/
def badEntry (m : Table Byte) (bad : Nat → Bool) (va : Nat) : Nat → Nat → Nat → Option Nat
  | 0, _, _ => none
  | fuel + 1, level, table =>
    let at_ := table + 8 * levelIndex level va
    let e := readNat m at_ 8
    if bad at_ then some at_
    else if bit e 1 || !bit e 0 then none
    else badEntry m bad va fuel (level + 1) (bits e 55 15 * 2 ^ 15)

/-- The detection by accesses of a context of n bytes each that have met uncorrected data: in a page-table entry of the walk,
or in the bytes themselves. -/
def detectAll (s : State) (c n : Nat) (vas : List Nat) : State :=
  vas.foldl (fun s va => match badEntry s.mem s.bad.contains va 4 0 (ctxOf s c).root with
    | some k => detect s k 8
    | none => match whereIs s c va with
      | some k => detect s k n
      | none => s) s

/-- The detection by an access of a context that has met uncorrected data at a virtual address. -/
def detectAt (s : State) (c kind va : Nat) : State := if kind = 7 then detectAll s c 1 [va] else s

/-! ### Taking a trap and returning from one (02 R53, 16 R370–R375, R394) -/

def kindCode : TrapKind → Nat
  | .illegalInstruction => 1 | .illegalMode => 2 | .reservedOperand => 3 | .translation => 4 | .permission => 5
  | .misaligned => 6 | .uncorrected => 7 | .waitTimeout => 8 | .barrierUnderpopulated => 9
  | .backingStoreExhausted => 10 | .deferredCopyFault => 11 | .software => 12 | .breakpoint => 13

/-- The service of a trap kind in a context (16 R370): 0 STOP, 1 SKIP, 2 HANDLER, 3 HOLD, 4 DEMAND. -/
def trapService (C : Ctx) (tact : Bool) (kind : Nat) : Nat :=
  if C.demand && (kind == 4 || kind == 5) then 4
  else if tact then 0
  else bits C.trappol (2 * (kind - 1) + 1) (2 * (kind - 1))

/-- Asks for a context's suspension, for a reason: 0 SREQ, 1 priority, 2 STOP (16 R380, R381). -/
def requestSuspend (s : State) (c reason : Nat) : State :=
  modCtx s c fun C =>
    if C.sstate = 0 ∨ C.sstate = 5 ∨ (C.sstate = 1 ∧ reason = 2) then
      { C with sstate := 1, susReq := some (reason, (C.susReq.getD (0, s.gt)).2),
               maskTicks := if C.sstate = 1 then C.maskTicks else 0 }
    else C

/-- Writes a type-1 entry with the trap's record, after it the interrupt if `irq` (16 R370, R378). -/
def logTrap (s : State) (t : Nat) (r : TrapRec) (irq : Bool) : State :=
  (logAppendIrq s r.ctx 1 { teamLog (teamOf s t) with absent := r.absent } (trapBytes r) irq).1

/-- On resume every window counts as closed: no path of the group issues before its pending results are there
(02 R43). -/
def closeWindows (G : Group) : Group :=
  { G with pend := G.pend.map fun (o : Pending) => { o with left := o.left.map fun _ => 0 } }

/-- Unfreezes a core and drops its trap record's valid bit. -/
def unfreeze (s : State) (core : Nat) : State :=
  let teams := tmap s.teams fun _ T =>
    if teamCore T = core ∧ T.ctl = false then { T with groups := tmap T.groups fun _ G => closeWindows G } else T
  modCore { s with teams := teams } core fun K =>
    { K with frozen := false, thaw := false, retry := false, trap := { K.trap with tvalid := false }, replay := none }

/-- Firmware has served a core's trap: the core is unfrozen at the next tick (16 R371). -/
def thawLater (s : State) (core : Nat) : State := modCore s core fun K => { K with thaw := true }

/-- The path enters the trap handler (16 R374). -/
def enterHandler (s : State) (t g : Nat) (r : TrapRec) : State :=
  let T := teamOf s t
  let s1 := modGroup s t g fun G =>
    { G with tregs := { tkind := r.kind, tpc := r.pc, toff := (r.pc + 2 ^ 64 - T.cb) % 2 ^ 64,
                        coff := (r.cpc + 2 ^ 64 - T.cb) % 2 ^ 64,
                        tk := r.k + 16 * r.async.toNat + 32 * r.absent.toNat, tflm := r.flm, taddr := r.addr,
                        tinfo := r.info, tact := true } }
  modPath s1 t g r.path fun P => { P with pc := (ctxOf s T.ctx).handler, state := 0, wait := .none }

/-- Serves the trap in a core's record by its policy (16 R370). -/
def serveTrap (s : State) (t g : Nat) (r : TrapRec) : State :=
  let T := teamOf s t
  let G := groupOf s t g
  let core := teamCore T
  match trapService (ctxOf s T.ctx) G.tregs.tact r.kind with
  | 1 => thawLater (modPath (logTrap s t r false) t g r.path fun P => { P with pc := r.cpc }) core
  | 2 => if (tget {} G.paths r.path).valid then thawLater (enterHandler s t g r) core
    else requestSuspend (logTrap s t r true) T.ctx 2
  | 0 => requestSuspend (logTrap s t r true) T.ctx 2
  | _ => logTrap s t r true

/-- A control core's own trap: firmware restarts from its signed image, which this manual does not give, and the
supervisor logs the event (16 R376). -/
def restartControl (s : State) (t : Nat) : State :=
  let T := teamOf s t
  { s with teams := tdel s.teams t, sup := { s.sup with log := s.sup.log ++ [(1, T.die, s.gt)] } }

/-- Trap(kind, lanes) of 02 R53 for a path, with the record's further fields: FLM is written, the core freezes, the
record is written, the trap is served (16 R370–R374). -/
def raise (s : State) (t g : Nat) (r : TrapRec) (op : Option Pending) : State :=
  let T := teamOf s t
  let G := groupOf s t g
  let s0 := traceOut s T.die s.gt { type := 5, ctx := T.ctx, queue := T.queue, loc := locOf T G, tag := r.kind, pc := r.pc }
  if T.ctl then restartControl s0 t
  else
    let r := { r with tvalid := true, slot := G.slot, gslot := G.gslot, ctx := T.ctx, tick := s.gt,
                      replayable := op.isSome }
    let s1 := modGroup (noteEvent s0 T.ctx T.queue T.pkt r.kind) t g fun G => { G with flm := BitVec.ofNat 96 r.flm }
    let s2 := modCore s1 (teamCore T) fun K => { K with frozen := true, trap := r, trapAt := (t, g), replay := op }
    serveTrap s2 t g r

/-- A trap raised at a path's own instruction (16 R373): the path is in RUN at that instruction. -/
def trapHere (s : State) (t g p : Nat) (kind : TrapKind) (lanes_ : Mask) (addr info word : Nat) : State :=
  let s1 := modPath s t g p fun P => { P with state := 0, wait := .none }
  let pc := (pathOf s1 t g p).pc
  raise s1 t g { kind := kindCode kind, path := p, pc := pc, cpc := pc + 4, flm := lanes_.toNat, addr := addr,
                 info := info, word := word } none

/-- A trap raised for a waiting path at the address of its waiting instruction (04 R99, 10 R240). -/
def waitTrap (s : State) (t g p : Nat) (kind : Nat) (absent : Bool) (addr info : Nat) : State :=
  let P := pathOf s t g p
  let pc := match P.wait with
    | .yield _ _ a => a
    | _ => P.pc
  let s1 := modPath s t g p fun P => { P with state := 0, wait := .none, pc := pc }
  raise s1 t g { kind := kind, path := p, pc := pc, cpc := pc + 4, flm := P.waitAct.toNat, absent := absent,
                 addr := addr, info := info, word := P.waitWord } none

/-- Whether a team's core is frozen. -/
def teamFrozen (s : State) (T : Team) : Bool := !T.ctl && (coreOf s (teamCore T)).frozen

/-! ### The image of a suspended team (16 R383, R386, R387) -/

/-- The next multiple of 256, the alignment of an image's regions. -/
def up256 (n : Nat) : Nat := (n + 255) / 256 * 256

/-- Landing granules of a team. -/
def landGranules (T : Team) : Nat := (T.lsz + 4095) / 4096

/-- Offsets of an image's regions, in their order. -/
def imgBlocks : Nat := 256
def imgRows (T : Team) : Nat := imgBlocks + 2048 * T.groups.length
def imgRegShadow (T : Team) : Nat := up256 (imgRows T + (T.groups.foldl (fun n G => n + 384 * G.2.blk) 0))
def imgLanding (T : Team) : Nat := imgRegShadow T + 64 * 400 * T.groups.length
def imgBars (T : Team) : Nat := imgLanding T + 4096 * landGranules T
def imgBarShadow (T : Team) : Nat := up256 (imgBars T + 16 * T.nbar)
def imgTiles (T : Team) : Nat := up256 (imgBarShadow T + 16 * T.nbar)
def imgSlots (T : Team) : Nat := imgTiles T + 24576 * T.ntiles
def imgPipe (T : Team) : Nat := up256 (imgSlots T + 4 * 4112)
def imgEnd (T : Team) : Nat := (imgPipe T + 16 + 4095) / 4096 * 4096

/-- Bytes cut into pieces at multiples of k of their address. -/
def cutAt (k : Nat) : Nat → Nat → List Byte → List (Nat × List Byte)
  | 0, _, _ => []
  | fuel + 1, va, bs =>
    if bs.isEmpty then []
    else
      let n := k - va % k
      (va, bs.take n) :: cutAt k fuel (va + n) (bs.drop n)

/-- A write to the save area, within one page: it waits behind a migration of the page, and behind those that wait there
(08 R197). One whose page cannot be written is lost (log entry 64). -/
def savePiece (s : State) (ctx va : Nat) (bs : List Byte) : State :=
  let wait := modCtx s ctx fun C => { C with saveWait := C.saveWait ++ [(va, bs)] }
  if (ctxOf s ctx).saveWait.any fun w => w.1 / 2 ^ 15 == va / 2 ^ 15 then wait
  else match translate s ctx (asks s ioDie) va .wr none with
    | .key k => storeCaptured s ctx va k bs
    | .hold => wait
    | .fail _ => s

/-- Bytes written to the save area, in pieces that no page bound cuts. -/
def saveWrite (s : State) (ctx va : Nat) (bs : List Byte) : State :=
  (cutAt (2 ^ 15) (bs.length + 1) va bs).foldl (fun s x => savePiece s ctx x.1 x.2) s

/-- The waiting writes to a context's save area that can be made now. -/
def drainSave (s : State) (ctx : Nat) : State :=
  (ctxOf s ctx).saveWait.foldl (fun s x => savePiece s ctx x.1 x.2) (modCtx s ctx fun C => { C with saveWait := [] })

/-- Bytes read at an address with a write over them that waits. -/
def overlay (va : Nat) (l : List Byte) (w : Nat × List Byte) : List Byte :=
  l.mapIdx fun i b => if w.1 ≤ va + i then (w.2[va + i - w.1]?).getD b else b

/-- The pieces of n bytes at an address that no page bound cuts: address and length. -/
def savePieces (va n : Nat) : List (Nat × Nat) :=
  (List.range ((va % 2 ^ 15 + n + 2 ^ 15 - 1) / 2 ^ 15)).map fun i =>
    let lo := max va ((va / 2 ^ 15 + i) * 2 ^ 15)
    (lo, min (va + n) ((va / 2 ^ 15 + i + 1) * 2 ^ 15) - lo)

/-- The bytes of the save area, none where a page cannot be read or holds uncorrectable data. -/
def saveRead (s : State) (ctx va n : Nat) : Option (List Byte) :=
  ((savePieces va n).mapM fun (p : Nat × Nat) => match translate s ctx (asks s ioDie) p.1 .rd none with
    | .key k => if meetsBad s k p.2 false then none else some (readBytes s.mem k p.2)
    | _ => none).map fun (l : List (List Byte)) => (ctxOf s ctx).saveWait.foldl (overlay va) l.flatten

/-- The detection by a read of the save area that has met uncorrected data (08 R206). -/
def saveDetect (s : State) (ctx va n : Nat) : State :=
  (savePieces va n).foldl (fun s p => match translate s ctx (asks s ioDie) p.1 .rd none with
    | .key k => detect s k p.2
    | _ => s) s

/-! ### The diversion table (16 R385, R386) -/

/-- Whether a team holds its resources on its core. -/
def inPlace (T : Team) : Bool :=
  match T.away with
  | .present | .saving _ | .restoring _ _ => true
  | .saved _ | .dropped => false

/-- The address of a team's image. -/
def imageVa (T : Team) : Option Nat :=
  match T.away with
  | .saving va | .saved va | .restoring va _ => some va
  | .present | .dropped => none

/-- The entry of a team's core that covers a unit of a kind: 0 landing granules, 1 rows of a group, 2 barriers, 3 tiles. -/
def divAt (s : State) (t kind group u : Nat) : Option (Nat × Div) :=
  (coreOf s (teamCore (teamOf s t))).divs.find? fun e =>
    e.2.valid && e.2.team == t && e.2.kind == kind && (kind != 1 || e.2.group == group) && e.2.state != 4
      && decide (e.2.first ≤ u) && decide (u < e.2.first + e.2.count)

/-- Where a write to a unit goes (16 R386): in place, to the save area behind an entry, into an entry's hold queue, nowhere. -/
inductive Route
  | inPlace | toSave (d : Div) | held (e : Nat) | discard
  deriving DecidableEq, Repr

def route (s : State) (t kind group u : Nat) : Route :=
  if (teamOf s t).away == .dropped then .discard
  else match divAt s t kind group u with
    | none => .inPlace
    | some (e, d) =>
      match d.state with
      | 0 => if u < d.cur then .toSave d else if u = d.cur then .held e else .inPlace
      | 1 => .toSave d
      | 2 => if u < d.cur then .inPlace else if u = d.cur then .held e else .toSave d
      | 3 => .discard
      | 5 => .held e
      | _ => .inPlace

/-- A write joins the hold queue of an entry of a team's core; HOLDN counts at most 16 (log entry 64). -/
def holdWrite (s : State) (t e : Nat) (w : HeldWrite) : State :=
  modCore s (teamCore (teamOf s t)) fun K =>
    { K with divs := tmod K.divs e fun d => { d with held := d.held ++ [w], holdn := min 16 (d.holdn + 1) } }

/-- The barrier shadow's place behind a barrier entry's target. -/
def shadowVa (T : Team) (d : Div) (b : Nat) : Nat := d.target + (imgBarShadow T - imgBars T) + 16 * b

/-- A change of a barrier's shadow record in the save area. -/
def modShadow (s : State) (t : Nat) (d : Div) (b : Nat) (f : Bar → Bar) : State :=
  let T := teamOf s t
  match saveRead s T.ctx (shadowVa T d b) 16 with
  | some bs => saveWrite s T.ctx (shadowVa T d b) (barShadowBytes (f (barShadowSet {} (leNat bs))))
  | none => saveDetect s T.ctx (shadowVa T d b) 16

/-- Whether a QFENCE with a barrier that names the MEM queue covers an operation; its barrier (16 R388). -/
def coveringFence (G : Group) (id : Nat) : Option Nat :=
  G.pend.findSome? fun o => match o.work with
    | .qfence m (some b) => if id < o.id ∧ bit m 0 then some b else none
    | _ => none

/-- Whether an operation is a QPUT that has reserved its slot: its write is performed again by a replay (15 R366). -/
def reserved (o : Pending) : Bool :=
  match o.work with
  | .qput _ _ (some _) => true
  | _ => false

/-- A held trap raised, its path put back to the instruction where nothing of its window had issued (15 R366, 16 R373,
R375). -/
def raiseHeld (s : State) (t g : Nat) (h : Held) : State :=
  let op := if h.tr.k = 0 ∧ h.tr.async = false ∧ reserved h.op = false then none else some h.op
  if h.tr.k = 0 ∧ h.tr.async = false then
    raise (modPath s t g h.tr.path fun P => { P with pc := h.tr.pc, state := 0, wait := .none }) t g h.tr op
  else raise s t g h.tr op

/-- The block of a group in a saved team's image, written anew (16 R384, R388). -/
def mirrorBlock (s : State) (t g : Nat) : State :=
  let T := teamOf s t
  let put := fun (va : Nat) =>
    saveWrite s T.ctx (va + imgBlocks + 2048 * (T.groups.filter fun e => decide (e.1 < g)).length) (groupBlock (groupOf s t g))
  match T.away with
  | .saved va => put va
  | .restoring va k => if k < 4 then put va else s
  | _ => s

/-- A trap joins the eight that a group holds; a ninth sets INFO[31] of the eighth (16 R388). -/
def holdTrap (G : Group) (h : Held) : Group :=
  if G.ptrap.length < 8 then { G with ptrap := G.ptrap ++ [h] }
  else { G with ptrap := G.ptrap.mapIdx fun i x => if i = 7 then { x with tr := { x.tr with info := setBits x.tr.info 31 31 1 } } else x }

/-- A deferred fault noted in a barrier's shadow: DAFLT, and DFIDX of the first (16 R388). -/
def lateBar (idx : Nat) (B : Bar) : Bar := { B with daflt := true, dfidx := if B.dflt || B.daflt then B.dfidx else idx }

/-- A deferred fault noted in a barrier in place. -/
def asyncBar (idx : Nat) (B : Bar) : Bar :=
  { B with aflt := true, daflt := false, fidx := if B.flt || B.aflt then B.fidx else idx }

/-- The deferred fault of a barrier whose QFENCE covers an operation, in place or in the shadow (16 R388). -/
def deferFault (s : State) (t b kind idx : Nat) : State :=
  let setBar := fun (s : State) (f : Bar → Bar) => modTeam s t fun T => { T with bars := tput T.bars b (f (tget {} T.bars b)) }
  let s1 := setBar s fun B => { B with akind := if B.aflt || B.daflt then B.akind else kind, daflt := true }
  match route s1 t 2 0 b with
  | .toSave d => modShadow s1 t d b (lateBar idx)
  | .held e => holdWrite s1 t e (.late b idx)
  | _ => setBar s1 (asyncBar idx)

/-- A trap met while the context is absent (16 R388): logged, then the barrier's deferred fault where a QFENCE with a
barrier covers a look-15 operation, else one of eight held traps, in the image as well. -/
def absentTrap (s : State) (t g : Nat) (h : Held) : State :=
  let T := teamOf s t
  let G := groupOf s t g
  let s1 := logTrap s t h.tr false
  let idx := logIdx (ctxOf s T.ctx)
  let cov := if h.tr.async then coveringFence G h.op.id else none
  match cov with
  | some b => mirrorBlock (deferFault s1 t b h.tr.kind idx) t g
  | none => mirrorBlock (modGroup s1 t g fun G => holdTrap G h) t g

/-- The virtual addresses and the size of the accesses of an operation of lanes, in some lanes (08 R206). -/
def workVas (T : Team) (G : Group) (w : Work) (m : Mask) : Nat × List Nat :=
  let va := fun (sp : Space) (x : Nat) => match sp with
    | .priv => G.privBase + x
    | .const k => (T.banks.getD k {}).base + x
    | _ => x
  let of_ := fun (sp : Space) (accs : List Acc) => (accs.filter fun a => m.getLsbD a.lane).map fun a => va sp a.addr
  match w with
  | .load sp ty _ accs _ => (tyWidth ty / 8, if sp = .landing then [] else of_ sp accs)
  | .store sp ty _ accs => (tyWidth ty / 8, if sp = .landing then [] else of_ sp accs)
  | .atomic _ sp ty _ _ accs _ => (tyWidth ty / 8, if sp = .landing then [] else of_ sp accs)
  | .cctl _ accs | .visw accs => (1, of_ .global accs)
  | .boxt accs _ => (128, of_ .global accs)
  | .trit _ accs _ => (36, of_ .global accs)
  | _ => (1, [])

/-- A trap met by an operation that has issued (02 R43, 15 R366, 16 R371, R373, R375, R388). With no later instruction
issued and no look of 15 the path goes back to the instruction; otherwise it stays at its next one. The arming of a group
that has ended stays ended (11 R282). The operation is kept
for replay but where the instruction issues again anew. On a frozen core the trap is held; the trap of an instruction
that is issued again anew is met afresh. -/
def trapOp (s : State) (t g : Nat) (o : Pending) (kind : TrapKind) (lanes_ : Mask) (addr : Nat) : State :=
  let s0 := modGroup s t g fun G =>
    { G with pend := G.pend.filter fun q => q.id != o.id,
             drain := match o.col with
               | some c => if G.ended then G.drain else { G.drain with held := true, hcol := c.1, buf := c.2 }
               | none => G.drain }
  let async := o.left.isNone
  let T := teamOf s t
  let first := !async && o.k == 0
  let r : TrapRec := { kind := kindCode kind, path := o.path, async := async, k := o.k, pc := o.pc,
                       cpc := if first then o.pc + 4 else (pathOf s0 t g o.path).pc, flm := lanes_.toNat, addr := addr,
                       word := o.word }
  let h : Held := { tr := r, op := { o with lanes := lanes_ } }
  match T.away with
  | .dropped => s0
  | .saving _ | .saved _ | .restoring _ _ =>
    let G := groupOf s t g
    let r' := { r with tvalid := true, ctx := T.ctx, tick := s.gt, absent := true, slot := G.slot, gslot := G.gslot,
                       replayable := !first || reserved o }
    absentTrap s0 t g { h with tr := r' }
  | .present =>
    if teamFrozen s T then
      if first && !reserved o then modPath s0 t g o.path fun P => { P with pc := o.pc, state := 0, wait := .none }
      else modGroup s0 t g fun G => { G with asyncs := G.asyncs ++ [h] }
    else if async then modGroup s0 t g fun G => { G with asyncs := G.asyncs ++ [h] }
    else raiseHeld s0 t g h

/-- The same for a fault of the operation's accesses to memory, whose uncorrected words are detected (08 R206); `addr` is
where an operation that is none of lanes meets it. -/
def trapPending (s : State) (t g : Nat) (o : Pending) (kind : TrapKind) (lanes_ : Mask) (addr : Nat) : State :=
  if kind ≠ .uncorrected then trapOp s t g o kind lanes_ addr
  else
    let T := teamOf s t
    let s1 := match o.work with
      | .load .landing _ _ _ _ | .store .landing _ _ _ | .atomic _ .landing _ _ _ _ _ => s
      | .load _ _ _ _ _ | .store _ _ _ _ | .atomic _ _ _ _ _ _ _ | .cctl _ _ | .visw _ | .boxt _ _ | .trit _ _ _ =>
        let x := workVas T (groupOf s t g) o.work lanes_
        detectAll s T.ctx x.1 x.2
      | _ => detectAt s T.ctx 7 addr
    trapOp s1 t g o kind lanes_ addr

/-- The return from a trap on a frozen core, without replay: the core runs again (16 R394). -/
def returnFromTrap (s : State) (core : Nat) : State := unfreeze s core

end Sys2Proof.Machine
end

