-- ==== Sys2Proof/Machine/Operands.lean ====
section
/-! DEFINITION. Every operand form (02 R23–R30, 05 R119–R121), the windows of pending results (02 R37–R43), the drain
port (11 R282), and the one way an instruction word issues (02 R49, R53). -/

namespace Sys2Proof.Machine

/-! ### Registers by key -/

/-- The key of a lane of a logical row; scalars have the keys below 128. -/
def keyRow (row lane : Nat) : Nat := (row + 1) * 128 + lane
def keyScal (i : Nat) : Nat := i
/-- The logical row of a key of a row. -/
def rowOfKey (key : Nat) : Nat := key / 128 - 1

/-- What a register holds now. -/
def regCur (G : Group) (key : Nat) : Word := if key < 128 then tget 0 G.scal key else tget 0 G.rows key

/-- The further values that a read of a register with a pending result may return (02 R39, R40, R42). -/
def regAlts (pend : List Pending) (key : Nat) : List Word :=
  pend.flatMap fun o =>
    if o.keys.contains key then
      ((o.olds.find? fun e => e.1 == key).map (·.2)).toList ++
        (if o.performed then ((o.res.find? fun e => e.1 == key).map (·.2)).toList else [])
    else []

/-- A register read: its value, or any of those its open windows allow, by a free choice per lane and register. -/
def regRead (n : Nat) (G : Group) (key lane : Nat) : Word :=
  match regAlts G.pend key with
  | [] => regCur G key
  | alts =>
    let c := regCur G key :: alts
    c.getD (Config.windowPick n key lane % c.length) (regCur G key)

/-- The value from before a write, kept by each pending result that the write overwrites (02 R40); the operations that
`mine` names. -/
def noteOld (G : Group) (mine : Pending → Bool) (key : Nat) (old : Word) : Group :=
  { G with pend := G.pend.map fun (o : Pending) =>
    if mine o && o.keys.contains key && !(o.olds.any fun e => e.1 == key) then { o with olds := o.olds ++ [(key, old)] } else o }

/-- A register write that keeps, for each pending result it overwrites, the value from before (02 R40). -/
def regWrite (G : Group) (key : Nat) (v : Word) : Group :=
  let G1 := noteOld G (fun _ => true) key (regCur G key)
  if key < 128 then { G1 with scal := tset 0 G1.scal key v } else { G1 with rows := tset 0 G1.rows key v }

/-! ### The issue of an instruction word -/

/-- What an instruction word sees at its issue. `s` is the state with the drain column taken. -/
structure Iss where
  s : State
  t : Nat
  g : Nat
  p : Nat
  T : Team
  G : Group
  P : Path
  act : Mask
  col : Option (Nat × List Word)
  word : Nat

/-- The end of an instruction's effect: the PC advances by 4; the entry set the PC; the path waits and the word has
not retired; a trap; the word does not issue yet. -/
inductive Eff
  | adv (s : State)
  | jump (s : State)
  | wait (s : State)
  | trap (kind : TrapKind) (lanes : Mask) (addr info : Nat)
  | stall

/-- A use of an operand: the registers it spans, and whether it is read or written. -/
structure Use where
  op : Operand
  n : Nat := 1
  src : Bool := true
  dst : Bool := false

/-- The checks of 02 R49 that depend on the mode: a reserved value in a field, operand uses, a further operand rule, the type
and rounding rules; whether the word waits for every open window (02 R41), and whether it reads its sources also where no lane is
active (02 R35). -/
structure Chk where
  illegal : Bool := false
  uses : List Use := []
  opBad : Bool := false
  modeBad : Bool := false
  waits : Bool := false
  always : Bool := false

/-- The operand rules of 02 R23, R26, R28 on one use. -/
def useBad (u : Use) : Bool :=
  let align := fun k => (u.n == 2 && k % 2 != 0) || (u.n == 4 && k % 4 != 0)
  match u.op with
  | .v k => align k || decide (192 < k + u.n)
  | .s k => align k || decide (48 < k + u.n)
  | .zero => u.dst && decide (1 < u.n)
  | .lane => u.dst || decide (1 < u.n)
  | .drain => u.dst || decide (1 < u.n)

/-- The operand rules of an instruction, with at most one drain (02 R30). -/
def usesBad (us : List Use) : Bool :=
  us.any useBad || decide (1 < (us.filter fun u => u.op == .drain).length)

/-- A vector specifier beyond the frame (05 R119). -/
def frameBad (P : Path) (us : List Use) : Bool :=
  us.any fun u => match u.op with
    | .v k => decide (P.fs < k + u.n)
    | _ => false

def namesDrain (us : List Use) : Bool := us.any fun u => u.op == .drain

/-- Whether an operand differs between lanes. -/
def perLane : Operand → Bool
  | .v _ | .lane | .drain => true
  | _ => false

def isScalar : Operand → Bool
  | .s _ => true
  | _ => false

def isVector : Operand → Bool
  | .v _ => true
  | _ => false

/-- Scalar or `zero`. -/
def isUniform : Operand → Bool
  | .s _ | .zero => true
  | _ => false

/-- The 32 bits of word `b` of a mask. -/
def maskWord (m : Mask) (b : Nat) : Nat := m.toNat / 2 ^ (32 * b) % 2 ^ 32

/-- A read of word b of em0–em2: the path's mask, or a value that its open windows allow, ANDed with the origin mask
(02 R39, 04 R93). -/
def emRead (n : Nat) (G : Group) (p : Nat) (P : Path) (b : Nat) : Nat :=
  match regAlts (G.pend.filter fun o => o.path == p) (keyScal (45 + b)) with
  | [] => maskWord P.mask b
  | alts =>
    let c := maskWord P.mask b :: alts.map fun w => w.toNat &&& maskWord P.origin b
    c.getD (Config.windowPick n (keyScal (45 + b)) 0 % c.length) (maskWord P.mask b)

/-- ReadOp (02 R53): 32 bits of element register k of an operand for a lane. -/
def rd (c : Iss) (x : Operand) (k lane : Nat) : Nat :=
  match x with
  | .v n => (regRead c.s.free c.G (keyRow (c.P.fb + n + k) lane) lane).toNat
  | .s n => if 45 ≤ n + k then emRead c.s.free c.G c.p c.P (n + k - 45) else (regRead c.s.free c.G (keyScal (n + k)) 0).toNat
  | .zero => 0
  | .lane => if k = 0 then lane else 0
  | .drain => ((c.col.getD (0, [])).2.getD lane 0).toNat

/-- An operand's element of width w for a lane (02 R26, R27). -/
def elem (c : Iss) (x : Operand) (w lane : Nat) : Nat :=
  if w ≤ 32 then rd c x 0 lane % 2 ^ w
  else if w = 64 then rd c x 0 lane + 2 ^ 32 * rd c x 1 lane
  else rd c x 0 lane + 2 ^ 32 * rd c x 1 lane + 2 ^ 64 * rd c x 2 lane + 2 ^ 96 * rd c x 3 lane

/-- Element of a type. -/
def tyElem (c : Iss) (t : Ty) (x : Operand) (lane : Nat) : Nat := elem c x (tyWidth t) lane

/-- A signed or unsigned 64-bit address pair as a number. -/
def pairOf (c : Iss) (x : Operand) (lane : Nat) : Nat := elem c x 64 lane

/-- The keys of the registers of a destination in a lane. -/
def dstKeys (P : Path) (d : Operand) (n lane : Nat) : List Nat :=
  match d with
  | .v k => (List.range n).map fun j => keyRow (P.fb + k + j) lane
  | .s k => (List.range n).map fun j => keyScal (k + j)
  | _ => []

/-- Register j of a value. -/
def regPart (v j : Nat) : Word := BitVec.ofNat 32 (v / 2 ^ (32 * j))

/-- The words that a value of n registers puts into a destination of a lane, by key. -/
def dstVals (P : Path) (d : Operand) (n lane v : Nat) : List (Nat × Word) :=
  match d with
  | .v k => (List.range n).map fun j => (keyRow (P.fb + k + j) lane, regPart v j)
  | .s k => (List.range n).map fun j => (keyScal (k + j), regPart v j)
  | _ => []

/-- Writes word b of em0–em2, ANDed with the origin mask (02 R28, 04 R93). -/
def setEm (P : Path) (b v : Nat) : Path :=
  { P with mask := BitVec.ofNat 96 (setBits P.mask.toNat (32 * b + 31) (32 * b) (v % 2 ^ 32 &&& maskWord P.origin b)) }

/-- A write of word b of em0–em2 of a path, with the value from before kept for its open windows (02 R40). -/
def emWrite (G : Group) (p b v : Nat) : Group :=
  let P := tget ({} : Path) G.paths p
  setPathG (noteOld G (fun o => o.path == p) (keyScal (45 + b)) (BitVec.ofNat 32 (maskWord P.mask b))) p (setEm P b v)

/-- Writes n registers from scalar k on; s45–s47 are the path's mask. -/
def putScal (s : State) (t g p k : Nat) : List Word → State
  | [] => s
  | v :: vs =>
    let s' := if 45 ≤ k then modGroup s t g fun G => emWrite G p (k - 45) v.toNat
      else modGroup s t g fun G => regWrite G (keyScal k) v
    putScal s' t g p (k + 1) vs

/-- Writes n registers of a vector destination in the lanes of a list. -/
def putRows (G : Group) (row n : Nat) (f : Nat → Nat) (ls : List Nat) : Group :=
  ls.foldl (fun G l => (List.range n).foldl (fun G j => regWrite G (keyRow (row + j) l) (regPart (f l) j)) G) G

/-- WriteOp (02 R53, R28): n registers of `d` from the per-lane values `f`, in the lanes of `m`; a scalar once, with
the value of the lowest lane, where `m` has a lane. A row written in every present lane holds no error any more. -/
def wrLanes (c : Iss) (s : State) (d : Operand) (n : Nat) (m : Mask) (f : Nat → Nat) : State :=
  match d with
  | .v k => modGroup s c.t c.g fun G =>
      let G1 := putRows G (c.P.fb + k) n f (lanesOf m)
      if G.rowBad.isEmpty || m != G.present then G1
      else { G1 with rowBad := G.rowBad.filter fun r => !(decide (c.P.fb + k ≤ r) && decide (r < c.P.fb + k + n)) }
  | .s k => match lowLane m with
    | none => s
    | some l => putScal s c.t c.g c.p k ((List.range n).map fun j => regPart (f l) j)
  | _ => s

/-! ### Windows (02 R37–R42) -/

/-- Operations of a path whose windows are open. -/
def openWindows (G : Group) (p : Nat) : List Pending := G.pend.filter fun o => o.path == p && o.left.isSome

/-- Whether a path must wait for a window: one whose count is used up, or any at all (02 R37, R41). -/
def windowStall (G : Group) (p : Nat) (all : Bool) : Bool :=
  (openWindows G p).any fun o => all || o.left == some 0

/-- One more instruction of a path has issued inside its windows opened before operation `id`. -/
def countIssue (G : Group) (p id : Nat) : Group :=
  { G with pend := G.pend.map fun (o : Pending) =>
      if o.path == p && decide (o.id < id) then
        match o.left with
        | some n => { o with left := some (n - 1), k := o.k + 1 }
        | none => o
      else o }

/-! ### Residence of the frame window (05 R120–R122) -/

/-- The resident base that a window needs (05 R120). -/
def newBase (G : Group) (P : Path) : Nat :=
  let rb := if G.rb + G.blk < P.fb + P.fs then P.fb + P.fs - G.blk else G.rb
  if P.fb < rb then P.fb else rb

/-- The pieces of a row in the group's backing store that no page bound cuts, as address and lanes (05 R122). -/
def rowPieces (G : Group) (row : Nat) : List (Nat × List Nat) :=
  let va := G.privBase + 384 * row
  let n := min lanes ((2 ^ 15 - va % 2 ^ 15) / 4)
  (va, List.range n) :: (if n = lanes then [] else [(va + 4 * n, (List.range lanes).drop n)])

/-- What a spill or fill comes to: a value; a page that migrates holds it; a trap with its lanes and address. -/
inductive Moving (α : Type)
  | ok (x : α)
  | hold
  | fail (kind : TrapKind) (lanes : Mask) (va : Nat)

/-- The keys of the pieces of a row (07 R168 column 3). -/
def rowKeys (s : State) (T : Team) (need : Need) : List (Nat × List Nat) → Moving (List (Nat × List Nat))
  | [] => .ok []
  | (va, ls) :: rest =>
    match translate s T.ctx (asks s T.die) va need (some 0), rowKeys s T need rest with
    | .fail k, .fail k' m _ => .fail k (if k' = k then maskOf ls ||| m else maskOf ls) va
    | .fail k, _ => .fail k (maskOf ls) va
    | _, .fail k m a => .fail k m a
    | .hold, _ => .hold
    | _, .hold => .hold
    | .key k, .ok r => .ok ((k, ls) :: r)

/-- Spills a row whole (05 R120, R122). -/
def spillRow (T : Team) (G : Group) (row : Nat) (s : State) : Moving State :=
  match rowKeys s T .wr (rowPieces G row) with
  | .ok ks => .ok (ks.foldl (fun s x =>
      storeCaptured s T.ctx (G.privBase + 384 * row + 4 * x.2.headD 0) x.1 (x.2.flatMap fun l => leBytes (tget 0 G.rows (keyRow row l)).toNat 4)) s)
  | .hold => .hold
  | .fail k m a => .fail k m a

/-- A row filled from its slot: its words by key (05 R120, R122). -/
def fillRow (s : State) (T : Team) (G : Group) (row : Nat) : Moving (List (Nat × Word)) :=
  match rowKeys s T .rd (rowPieces G row) with
  | .ok ks =>
    let at_ := ks.flatMap fun x => (x.2.zip (List.range x.2.length)).map fun y => (y.1, x.1 + 4 * y.2)
    let bad := at_.filter fun y => meetsBad s y.2 4 false || meetsCopy s T.die y.2 4
    match bad with
    | [] => .ok (at_.map fun y => (keyRow row y.1, BitVec.ofNat 32 (readNat s.mem y.2 4)))
    | (l, _) :: _ => .fail .uncorrected (maskOf (bad.map (·.1))) (G.privBase + 384 * row + 4 * l)
  | .hold => .hold
  | .fail k m a => .fail k m a

/-- Spills a list of rows. -/
def spillRows (T : Team) (G : Group) : List Nat → State → Moving State
  | [], s => .ok s
  | r :: rs, s => match spillRow T G r s with
    | .ok s' => spillRows T G rs s'
    | x => x

/-- Fills a list of rows: the words by key; rows never written are zero. -/
def fillRows (s : State) (T : Team) (G : Group) : List Nat → Moving (List (Nat × Word))
  | [] => .ok []
  | r :: rs =>
    if G.written.contains r then
      match fillRow s T G r, fillRows s T G rs with
      | .ok a, .ok b => .ok (a ++ b)
      | .ok _, x => x
      | x, _ => x
    else fillRows s T G rs

/-- Whether a path's WAITADDR, issued before operation `id`, has not made its first read, which stands in the MEM queue (09
R208, R234). -/
def unread (id : Nat) (P : Path) : Bool :=
  P.valid && (match P.wait with
    | .addr n _ _ _ _ _ read => decide (n < id) && !read
    | _ => false)

/-- Whether an operation of the MEM queue waits for an earlier one: not yet performed, or a QFENCE that names the queue (09
R208, R220). -/
def memAhead (o : Pending) : Bool :=
  (o.memq && !o.performed) || (match o.work with
    | .qfence m _ => bit m 0
    | _ => false)

/-- Whether spills, fills and call entries, the next operation of the MEM queue, must wait (05 R122, 09 R208, R220). -/
def memOpsBefore (s : State) (G : Group) : Bool := G.pend.any memAhead || G.paths.any fun e => unread s.nextId e.2

/-- Whether a result for a row of a group stands in a hold queue of its core, so that no row may leave (05 R121, 16 R386). -/
def rowsHeld (s : State) (t g : Nat) : Bool :=
  (coreOf s (teamCore (teamOf s t))).divs.any fun d => d.2.team == t && d.2.kind == 1 && d.2.group == g && !d.2.held.isEmpty

/-- What the fills of rows leave behind. -/
def noteFills (T : Team) (G : Group) (rows : List Nat) (s : State) : State :=
  rows.foldl (fun s row => match rowKeys s T .rd (rowPieces G row) with
    | .ok ks => ks.foldl (fun s x => readCaptured s T.ctx (G.privBase + 384 * row + 4 * x.2.headD 0) x.1 (4 * x.2.length)) s
    | _ => s) s

/-- Makes a path's window resident before it issues (05 R120, R121): it waits for a row with a pending write, for memory
operations before its own, for a page that migrates. -/
def makeResident (s : State) (t g p : Nat) : Moving State :=
  let T := teamOf s t
  let G := groupOf s t g
  let P := pathOf s t g p
  let rb := newBase G P
  if rb = G.rb then .ok s
  else
    let old := (List.range G.blk).map (G.rb + ·)
    let new := (List.range G.blk).map (rb + ·)
    let out := old.filter fun r => !new.contains r
    let inn := new.filter fun r => !old.contains r
    let busy := memOpsBefore s G || rowsHeld s t g
      || G.pend.any fun o => o.keys.any fun k => decide (128 ≤ k) && out.contains (rowOfKey k)
    if busy then .hold
    else match spillRows T G out s with
      | .ok s1 => match fillRows s1 T G inn with
        | .ok vs => .ok (modGroup (noteFills T G (inn.filter G.written.contains) s1) t g fun G =>
            let kept := G.rows.filter fun e => !out.contains (rowOfKey e.1)
            { G with rb := rb, written := (G.written.filter fun r => !out.contains r) ++ out,
                     rows := vs.foldl (fun m e => tset 0 m e.1 e.2) kept })
        | .hold => .hold
        | .fail k m a => .fail k m a
      | x => x

/-! ### The lanes of one access (07 R168) -/

/-- The outcome of checking the lanes of an access: their memory keys; a write held; a trap. -/
inductive Lanes
  | ok (keys : List (Nat × Nat))
  | hold
  | fail (kind : TrapKind) (lanes : Mask) (addr : Nat)

/-- One column's verdicts, lane, address and kind, as the trap they decide: the lowest failing lane's kind, every lane
that fails alike (07 R168). -/
def columnTrap (fails : List (Nat × Nat × TrapKind)) : Option (TrapKind × Mask × Nat) :=
  match fails with
  | [] => none
  | (_, a, k) :: _ => some (k, maskOf ((fails.filter fun f => f.2.2 == k).map (·.1)), a)

/-- Column 3 for lanes and virtual addresses: translation (07 R168). -/
def translateCol3 (s : State) (ctx die : Nat) (accs : List (Nat × Nat)) (need : Need) (tgt : Option Nat) : Lanes :=
  let rs := accs.map fun a => (a.1, a.2, translate s ctx (asks s die) a.2 need tgt)
  let f3 := rs.filterMap fun r => match r.2.2 with
    | .fail k => some (r.1, r.2.1, k)
    | _ => none
  match columnTrap f3 with
  | some (k, m, a) => .fail k m a
  | none =>
    if rs.any fun r => r.2.2 == .hold then .hold
    else .ok (rs.filterMap fun r => match r.2.2 with
      | .key k => some (r.1, k)
      | _ => none)

/-- Whether an access at a scope reaches a line of another home through its die's remote-data cache (08 R199). -/
def viaCopy (sc : Scope) (key : Nat) : Bool :=
  match sc with
  | .group | .team | .cluster | .die => true
  | .module => decide (2 ^ 61 ≤ key)
  | .domain | .system => false

/-- Whether an access of a lane meets uncorrected data, in memory or in the line that its die's remote-data cache holds. -/
def laneBad (s : State) (die : Nat) (sc : Scope) (key n : Nat) (store : Bool) : Bool :=
  meetsBad s key n store || (viaCopy sc key && meetsCopy s die key n && !(store && decide (key % 8 = 0) && decide (n % 8 = 0)))

/-- Column 4: the lanes that meet uncorrected data, with the address of each. -/
def col4 (s : State) (die : Nat) (sc : Scope) (accs keys : List (Nat × Nat)) (n : Nat) (store : Bool) : List (Nat × Nat × TrapKind) :=
  (accs.zip keys).filterMap fun x =>
    if laneBad s die sc x.2.2 n store then some (x.1.1, x.1.2, TrapKind.uncorrected) else none

/-- Columns 3 and 4 for lanes and virtual addresses of `n` bytes: translation, then uncorrected data where the access
reads or stores part of a word. -/
def translateLanes (s : State) (ctx die : Nat) (sc : Scope) (accs : List (Nat × Nat)) (n : Nat) (need : Need) (tgt : Option Nat)
    (store : Bool) : Lanes :=
  match translateCol3 s ctx die accs need tgt with
  | .ok keys => match columnTrap (col4 s die sc accs keys n store) with
    | some (k, m, a) => .fail k m a
    | none => .ok keys
  | r => r

/-! ### The drain port (11 R281, R282) -/

/-- The elements of a tile's column: element (r, c) at key 8192·n + 64·r + c. -/
def tileColumn (T : Team) (n c : Nat) : List Word := (List.range 96).map fun r => tget 0 T.tiles (8192 * n + 64 * r + c)

/-- Whether a reader of the drain port waits for an earlier L-format instruction that took a column (11 R282). -/
def columnOut (G : Group) : Bool := G.pend.any fun o => o.col.isSome

/-- Whether a reader of the drain port waits for a column that is not ready (11 R282). -/
def drainStall (G : Group) : Bool := !G.drain.held && !G.drain.ready

/-- The column that the next reader takes, with its number: its snapshot is taken at the reader's issue (DESIGN CHOICE, log entry
85). -/
def drainColumn (T : Team) (G : Group) : Nat × List Word :=
  if G.drain.held then (G.drain.hcol, G.drain.buf) else (G.drain.dcol, tileColumn T G.drain.dtile G.drain.dcol)

/-- The port after a column is taken. -/
def takeColumn (D : Drain) : Drain :=
  if D.held then { D with held := false }
  else { D with dcol := D.dcol + 1, armed := decide (D.dcol + 1 < 64), ready := decide (D.dcol + 1 < 64) && D.ready }

/-- The port with a column kept for the next reader (02 R30). -/
def holdColumn (D : Drain) (c : Nat × List Word) : Drain := { D with held := true, hcol := c.1, buf := c.2 }

/-! ### Function-table banks (06 R163) -/

/-- Whether a path waits because its bank is being loaded and it is not a holder. -/
def bankStall (s : State) (T : Team) (t g p : Nat) (gm : GM) : Bool :=
  let b := tget ({} : FnBank) (coreOf s (teamCore T)).banks gm.ftb.toNat
  !T.ctl && b.loading && !(b.loader.any fun l => l.holders.contains (t, g, p))

/-! ### Issue(G) -/

/-- The path that issues, if there is one. -/
def issuing (s : State) : Option (Nat × Nat × Nat) :=
  match s.cur with
  | none => none
  | some (t, g, p) =>
    match tfind s.teams t with
    | none => none
    | some T => match tfind T.groups g with
      | none => none
      | some G => if (tget {} G.paths p).valid then some (t, g, p) else none

/-- Whether a control core refuses an opcode (16 R376); the word's opcode. -/
def ctlIllegal (op : Nat) : Bool :=
  op == 0x80 || op == 0x81 || (decide (0xC2 ≤ op) && decide (op ≤ 0xCB)) || (decide (0xD0 ≤ op) && decide (op ≤ 0xDA))
    || (decide (0xE0 ≤ op) && decide (op ≤ 0xEB)) || op == 0x59

/-- Whether a path still has its GM.FTB at bank k. -/
def onBank (s : State) (k : Nat) (h : Nat × Nat × Nat) : Bool :=
  let P := pathOf s h.1 h.2.1 h.2.2
  P.valid && P.gm.ftb.toNat == k

/-- Paths that left a bank, or became invalid, hold it no more (06 R163). -/
def pruneHolders (s : State) (core : Nat) : State :=
  if (coreOf s core).banks.all fun b => b.2.loader.isEmpty then s
  else modCore s core fun K => { K with banks := K.banks.map fun b =>
    (b.1, { b.2 with loader := b.2.loader.map fun l => { l with holders := l.holders.filter (onBank s b.1) } }) }

/-- The state after an instruction of a path has issued: its windows counted, its group's stall clock restarted. -/
def retire (c : Iss) (id : Nat) (s : State) : State :=
  let s1 := modGroup s c.t c.g fun G => { countIssue G c.p id with hang := 0, hangFired := false }
  pruneHolders { s1 with free := s1.free + 1 } (teamCore c.T)

/-- The end of an instruction word's issue. -/
def finish (s0 : State) (c : Iss) (e : Eff) : State :=
  match e with
  | .adv s => retire c s0.nextId (modPath s c.t c.g c.p fun P => { P with pc := P.pc + 4 })
  | .jump s => retire c s0.nextId s
  | .wait s => s
  | .trap kind ls addr info =>
    let s1 := match c.col with
      | none => c.s
      | some col => modGroup c.s c.t c.g fun G => { G with drain := holdColumn G.drain col }
    trapHere s1 c.t c.g c.p kind ls addr info c.word
  | .stall => s0

/-- What a word sees at its issue; `col` is the drain column it takes. -/
def issCtx (s : State) (t g p word : Nat) (uses : List Use) : Iss :=
  let T := teamOf s t
  let G := groupOf s t g
  let P := pathOf s t g p
  if namesDrain uses then
    { s := modGroup s t g fun G => { G with drain := takeColumn G.drain }, t := t, g := g, p := p, T := T, G := G, P := P,
      act := activeOf G P, col := some (drainColumn T G), word := word }
  else { s := s, t := t, g := g, p := p, T := T, G := G, P := P, act := activeOf G P, col := none, word := word }

/-- Rows with uncorrectable data among the sources (08 R206). -/
def badSource (c : Iss) (us : List Use) : Bool :=
  !c.G.rowBad.isEmpty && us.any fun u => match u.op with
    | .v k => u.src && c.G.rowBad.any fun r => decide (c.P.fb + k ≤ r) && decide (r < c.P.fb + k + u.n)
    | _ => false

/-- The checks that come first among each entry's own, then the entry (05 R119, 08 R206). -/
def runBody (k : Chk) (body : Iss → Eff) (c : Iss) : Eff :=
  if frameBad c.P k.uses then .trap .reservedOperand c.P.mask 0 0
  else if badSource c k.uses && (k.always || c.act != 0) then .trap .uncorrected c.act 0 0
  else body c

/-- Issue(G) of 02 R53 for a decoded word, from a path whose window is resident: the checks of R49 in order, the waits,
then the entry. -/
def issueHere (i : Instr) (chk : Team → Group → Path → Chk) (body : Iss → Eff) (s : State) (t g p : Nat) : State :=
  let T := teamOf s t
  let G := groupOf s t g
  let P := pathOf s t g p
  let word := (encode i).getD 0
  let k := chk T G P
  if k.illegal || (T.ctl && ctlIllegal (word / 2 ^ 24)) then trapHere s t g p .illegalInstruction P.mask 0 0 word
  else if k.opBad || usesBad k.uses then trapHere s t g p .reservedOperand P.mask 0 0 word
  else if k.modeBad then trapHere s t g p .illegalMode P.mask 0 0 word
  else if windowStall G p k.waits then s
  else if namesDrain k.uses && columnOut G then s
  else if namesDrain k.uses && !G.drain.armed && !G.drain.held then
    trapHere s t g p .reservedOperand P.mask 0 0 word
  else if namesDrain k.uses && drainStall G then s
  else
    let c := issCtx s t g p word k.uses
    finish s c (runBody k body c)

/-- The detection of uncorrected data by a fill (08 R206). -/
def spillSeen (s : State) (t g : Nat) (kind : TrapKind) (m : Mask) (va : Nat) : State :=
  if kind = .uncorrected then
    let base := (groupOf s t g).privBase
    detectAll s (teamOf s t).ctx 4 ((lanesOf m).map fun l => base + 384 * ((va - base) / 384) + 4 * l)
  else s

/-- An instruction word: the path that issues, its window made resident, then the issue. A word with no issuing path
is the model's one fault. -/
def issueWord (i : Instr) (chk : Team → Group → Path → Chk) (body : Iss → Eff) (s : State) :
    Host.Outcome State Fault Refusal :=
  match issuing s with
  | none => .fault .noIssuingPath
  | some (t, g, p) =>
    if bankStall s (teamOf s t) t g p (pathOf s t g p).gm then .next s
    else match makeResident s t g p with
    | .hold => .next s
    | .fail kind m va => .next (trapHere (spillSeen s t g kind m va) t g p kind m va 0 ((encode i).getD 0))
    | .ok s1 => .next (issueHere i chk body s1 t g p)

/-! ### L-format results -/

/-- Whether a new L-format word must wait: 16 windows of its path, or 64 register-writing operations of its group
(02 R37, 16 R387). -/
def pendFull (c : Iss) (look : Nat) (regs : Bool) : Bool :=
  (look != 15 && decide (16 ≤ (openWindows c.G c.p).length)) ||
    (regs && decide (64 ≤ (c.G.pend.filter fun o => o.regs).length))

/-- Posts an outstanding operation of the issuing path, with the next operation number. -/
def post (c : Iss) (s : State) (look : Nat) (o : Pending) : State :=
  let o' := { o with id := s.nextId, path := c.p, pc := c.P.pc, word := c.word, scope := c.P.gm.scope, lanes := c.act,
                     left := if look = 15 then none else some look, col := c.col, born := pastNow s, at_ := s.gt }
  { modGroup s c.t c.g (fun G => { G with pend := G.pend ++ [o'] }) with nextId := s.nextId + 1 }

/-- Posts a result known at issue: n registers of `d` with the values `f` in the active lanes. -/
def postResult (c : Iss) (s : State) (look : Nat) (d : Operand) (n : Nat) (f : Nat → Nat) : State :=
  let vals := match d with
    | .v _ => (lanesOf c.act).flatMap fun l => dstVals c.P d n l (f l)
    | _ => match lowLane c.act with
      | none => []
      | some l => dstVals c.P d n l (f l)
  post c s look { performed := true, keys := vals.map (·.1), res := vals, regs := !vals.isEmpty }

/-- Whether a result stands: one that an instruction of the window wrote over takes either value (02 R40). -/
def stands (n : Nat) (o : Pending) (e : Nat × Word) : Bool :=
  !(o.olds.any fun x => x.1 == e.1) || Config.windowPick n e.1 128 % 2 != 0

/-- A result reaches its register in place; em0–em2 are the path's mask. -/
def commitOne (p : Nat) (G : Group) (e : Nat × Word) : Group :=
  if 45 ≤ e.1 ∧ e.1 < 128 then emWrite G p (e.1 - 45) e.2.toNat else regWrite G e.1 e.2

/-- The 400 bytes of a register shadow entry (16 R387). -/
def shadowBytes (row : Nat) (sc : Bool) (res : List (Nat × Word)) : List Byte :=
  let lane := fun (e : Nat × Word) => if sc then 0 else e.1 % 128
  let m := res.foldl (fun r e => r ||| 2 ^ lane e) 0
  let data := res.foldl (fun r e => r + e.2.toNat * 2 ^ (32 * lane e)) 0
  leBytes (pack [(16, row), (1, sc.toNat), (15, 0), (96, m), (3072, data)]) 400

/-- The results of an operation by register: a logical row or a scalar, and its words. -/
def shadowParts (res : List (Nat × Word)) : List (Nat × Bool × List (Nat × Word)) :=
  let reg := fun (e : Nat × Word) => (if e.1 < 128 then e.1 else rowOfKey e.1, decide (e.1 < 128))
  let regs := res.foldl (fun l e => if l.contains (reg e) then l else l ++ [reg e]) []
  regs.map fun r => (r.1, r.2, res.filter fun e => reg e == r)

/-- A register shadow entry appended to a team's image; those beyond its 64 places are kept with the group, as no write is
lost (16 R386, R387, log entry 64). -/
def shadowAppend (s : State) (t g : Nat) (x : Nat × Bool × List (Nat × Word)) : State :=
  let T := teamOf s t
  match imageVa T with
  | none => s
  | some va =>
    let n := (groupOf s t g).shadowN
    let at_ := va + imgRegShadow T + 400 * (64 * (T.groups.filter fun e => decide (e.1 < g)).length + n)
    let bs := shadowBytes x.1 x.2.1 x.2.2
    if n < 64 then modGroup (saveWrite s T.ctx at_ bs) t g fun G => { G with shadowN := G.shadowN + 1 }
    else modGroup s t g fun G => { G with shadowMore := G.shadowMore ++ [bs] }

/-- The results of an operation for one register, routed (16 R386): scalars go in place until the group's block is saved,
and to the shadow from then until it is restored. -/
def putReg (t g : Nat) (s : State) (x : Nat × Bool × List (Nat × Word)) : State :=
  let here := modGroup s t g fun G => x.2.2.foldl (fun G e => regWrite G e.1 e.2) G
  if x.2.1 then
    match (teamOf s t).away with
    | .saved _ => shadowAppend s t g x
    | .restoring _ k => if k < 4 then shadowAppend s t g x else here
    | _ => here
  else match route s t 1 g x.1 with
    | .inPlace => here
    | .toSave _ => shadowAppend s t g x
    | .held e => holdWrite s t e (.regs x.2.2)
    | .discard => s

/-- Register results of an operation, routed; em0–em2 are the path's mask (log entry 64). -/
def putRegs (s : State) (t g p : Nat) (res : List (Nat × Word)) : State :=
  let em := fun (e : Nat × Word) => decide (45 ≤ e.1) && decide (e.1 < 128)
  let s1 := modGroup s t g fun G => (res.filter em).foldl (commitOne p) G
  let s2 := if (res.filter em).isEmpty then s1 else mirrorBlock s1 t g
  (shadowParts (res.filter fun e => !em e)).foldl (putReg t g) s2

/-- A performed operation completes: its results are written and its window closes (02 R37). The registers of a
discarded team take nothing (16 R391). -/
def commit (s : State) (t g : Nat) (o : Pending) : State :=
  let s1 := modGroup s t g fun G => { G with pend := G.pend.filter fun q => q.id != o.id }
  let res := o.res.filter (stands s.free o)
  let s2 := match (teamOf s t).away with
    | .dropped => s1
    | .present =>
      if (coreOf s (teamCore (teamOf s t))).divs.isEmpty then modGroup s1 t g fun G => res.foldl (commitOne o.path) G
      else putRegs s1 t g o.path res
    | _ => putRegs s1 t g o.path res
  { s2 with free := s2.free + 1 }

/-- The operation of a group with a number. -/
def pendOf (s : State) (t g id : Nat) : Option Pending := (groupOf s t g).pend.find? fun o => o.id == id

end Sys2Proof.Machine
end

