-- ==== Sys2Proof/Machine/Lane.lean ====
section
/-! DEFINITION. The shape that every lane instruction shares (06 R141): its checks, then one value per active lane. -/

namespace Sys2Proof.Machine

/-- A source operand with the registers it spans under a mode. -/
structure Src where
  op : Operand
  n : GM → Nat

/-- One register whatever the mode. -/
def one (x : Operand) : Src := ⟨x, fun _ => 1⟩
/-- A register pair whatever the mode. -/
def pair (x : Operand) : Src := ⟨x, fun _ => 2⟩
/-- The registers of GM.TYPE. -/
def typed (x : Operand) : Src := ⟨x, fun gm => tyRegs gm.type⟩

/-- The destination and sources of a lane instruction: `dsrc` says that d is read too. -/
structure LaneSpec where
  d : Operand
  dn : GM → Nat := fun gm => tyRegs gm.type
  dsrc : Bool := false
  srcs : List Src
  modeBad : GM → Bool := fun _ => false
  opBad : Bool := false
  waits : Bool := false

/-- The checks of a lane instruction: a scalar d takes scalar or `zero` sources only (06 R141). -/
def laneChk (k : LaneSpec) (P : Path) : Chk :=
  { uses := { op := k.d, n := k.dn P.gm, src := k.dsrc, dst := true } ::
      k.srcs.map fun x => { op := x.op, n := x.n P.gm },
    opBad := k.opBad || (isScalar k.d && k.srcs.any fun x => perLane x.op),
    modeBad := k.modeBad P.gm,
    waits := k.waits }

/-- A lane instruction: `f` gives the registers' bits for a lane. -/
def laneOp (i : Instr) (k : LaneSpec) (f : Iss → Nat → Nat) (s : State) : Host.Outcome State Fault Refusal :=
  issueWord i (fun _ _ P => laneChk k P)
    (fun c => .adv (wrLanes c c.s k.d (k.dn c.P.gm) c.act (f c))) s

/-- A lane instruction with its result posted as an L-format result of look-ahead `look`. -/
def laneLook (i : Instr) (look : Nat) (k : LaneSpec) (f : Iss → Nat → Nat) (s : State) :
    Host.Outcome State Fault Refusal :=
  issueWord i (fun _ _ P => laneChk k P)
    (fun c =>
      if c.act == 0 then .adv c.s
      else if pendFull c look true then .stall
      else .adv (postResult c c.s look k.d (k.dn c.P.gm) (f c))) s

/-- GM.ROUND = 5 for an instruction that consults rounding (02 R34, R36). -/
def stoBad (gm : GM) : Bool := gm.round == .sto

/-- A result of GM.TYPE, as the registers hold it (02 R27). -/
def asType (gm : GM) (x : Nat) : Nat := extendElem gm.type x

end Sys2Proof.Machine
end

