-- ==== Sys2Proof/Machine/Paths.lean ====
section
/-! DEFINITION. Paths: splitting, merging and exit (04 R92–R95, R101, R105, R107), lane switch-off (07 R175), and the
translation of the lanes of one access (07 R168). -/

namespace Sys2Proof.Machine

/-- The invalid entries of a group's path table, ascending. -/
def freeEntries (G : Group) : List Nat := (List.range 8).filter fun p => !(tget ({} : Path) G.paths p).valid

/-- The valid paths of a group with their entries. -/
def validPaths (G : Group) : List (Nat × Path) := G.paths.filter fun e => e.2.valid

/-- A path made from one that holds a bank under load is a holder too (06 R163). -/
def inheritHolder (s : State) (t g p q : Nat) : State :=
  let T := teamOf s t
  let core := teamCore T
  if (coreOf s core).banks.all fun b => b.2.loader.isEmpty then s
  else modCore s core fun K => { K with banks := K.banks.map fun b =>
    (b.1, { b.2 with loader := b.2.loader.map fun l =>
      if l.holders.contains (t, g, p) && !(l.holders.contains (t, g, q)) then { l with holders := (t, g, q) :: l.holders } else l }) }

/-- Lanes leave a path for entry q, a copy of it with age 0, changed by `f` (04 R94). -/
def splitTo (s : State) (t g p q : Nat) (m : Mask) (f : Path → Path) : State :=
  let s1 := modGroup s t g fun G =>
    let P := tget {} G.paths p
    let Q := f { P with mask := m, origin := m, age := 0, state := 0, wait := .none }
    setPathG (setPathG G p { P with mask := P.mask &&& ~~~m, origin := P.origin &&& ~~~m }) q Q
  inheritHolder s1 t g p q

/-- Paths in split stall issue their branch again once an entry may be free (04 R94). -/
def wakeSplit (G : Group) : Group :=
  { G with paths := tmap G.paths fun _ P => if P.valid && P.state == 6 then { P with state := 0 } else P }

/-- Steps 2 to 6 of 04 R105: each group of lanes, ordered by lowest lane, with what it does to its path. -/
def divide (c : Iss) (s : State) (groups : List (Mask × (Path → Path))) : Eff :=
  match groups with
  | [] => .adv s
  | [(_, f)] => .jump (modPath s c.t c.g c.p f)
  | (_, f0) :: rest =>
    let free := freeEntries c.G
    if !(openWindows c.G c.p).isEmpty then .stall
    else if free.isEmpty then .wait (modPath s c.t c.g c.p fun P => { P with state := 6 })
    else
      let s1 := (rest.zip free).foldl (fun s x => splitTo s c.t c.g c.p x.2 x.1.1 x.1.2) s
      if rest.length ≤ free.length then .jump (modPath s1 c.t c.g c.p f0) else .jump s1

/-- Lanes of `m` grouped by a key, groups ordered by lowest lane. -/
def groupLanes {κ : Type} [DecidableEq κ] (m : Mask) (key : Nat → κ) : List (κ × Mask) :=
  (lanesOf m).foldl (fun gs l =>
    let k := key l
    if gs.any fun x => x.1 = k then
      gs.map fun x => if x.1 = k then (x.1, x.2 ||| BitVec.ofNat 96 (2 ^ l)) else x
    else gs ++ [(k, BitVec.ofNat 96 (2 ^ l))]) []

/-! ### JOIN (04 R95) -/

/-- The paths in state 1 at an address. -/
def parkedAt (G : Group) (pc : Nat) : List (Nat × Path) :=
  (validPaths G).filter fun e => e.2.state == 1 && e.2.pc == pc

/-- The lowest lane of a path's own lanes, or 96. -/
def lowestOwn (P : Path) : Nat := (lowLane P.origin).getD 96

/-- Of some paths, the one that holds the lowest-numbered lane (02 R33, 05 R124). -/
def lowestHolder (es : List (Nat × Path)) : Option Path :=
  (es.foldl (fun (b : Option Path) e => match b with
    | none => some e.2
    | some P => if lowestOwn e.2 < lowestOwn P then some e.2 else some P) none)

/-- The merge of the paths parked at an address into the lowest of their entries (04 R95, 05 R124). -/
def mergeParked (s : State) (t g pc : Nat) : State :=
  let G := groupOf s t g
  match parkedAt G pc with
  | [] => s
  | [_] => s
  | (q, Q) :: rest =>
    let all := (q, Q) :: rest
    let L := (lowestHolder all).getD Q
    let M : Path := { Q with mask := all.foldl (fun m e => m ||| e.2.mask) 0,
                             origin := all.foldl (fun m e => m ||| e.2.origin) 0,
                             gm := L.gm, fb := L.fb, fs := L.fs, ld := L.ld, age := 0 }
    let s1 := rest.foldl (fun s e => inheritHolder s t g e.1 q) s
    modGroup s1 t g fun G =>
      wakeSplit (rest.foldl (fun G e => setPathG G e.1 { e.2 with valid := false }) (setPathG G q M))

/-! ### Exit (04 R101, R107, 07 R175) -/

/-- Whether every present lane of a group has exited. -/
def allExited (G : Group) : Bool := G.present &&& ~~~G.exited == 0

/-- A group with no lane left ends: it holds no path, and its drain arming is over (04 R101, 11 R282). -/
def endIfDone (G : Group) : Group :=
  if allExited G then
    { G with ended := true, paths := tmap G.paths fun _ P => { P with valid := false },
             drain := { G.drain with armed := false, held := false } }
  else G

/-- Lanes leave a path and the group for good (04 R107). -/
def exitLanes (G : Group) (p : Nat) (m : Mask) : Group :=
  let P := tget {} G.paths p
  let P' := { P with mask := P.mask &&& ~~~m, origin := P.origin &&& ~~~m }
  let gone := P'.origin == 0
  let G1 := setPathG { G with exited := G.exited ||| m } p (if gone then { P' with valid := false } else P')
  endIfDone (if gone then wakeSplit G1 else G1)

/-- Landing lanes switched off (07 R175). -/
def switchOff (G : Group) (p : Nat) (m : Mask) : Group :=
  if m == 0 then G else exitLanes { G with lfm := G.lfm ||| m, swoff := G.swoff ||| m } p m

/-- Lanes that no path of the group holds any more: exited or absent. -/
def goneLanes (G : Group) : Mask := ~~~G.present ||| G.exited

/-! ### The MEM queue -/

/-- Whether the group has memory operations that have not been performed (09 R208). -/
def memBusy (G : Group) : Bool := G.pend.any fun o => o.memq && !o.performed

end Sys2Proof.Machine
end

