-- ==== Sys2Proof/Machine/FloatOps.lean ====
section
/-! DEFINITION. Floating-point, conversion, packed and dot-product instructions: row 0x3 and 0x40 to 0x47
(06 R146–R150). -/

namespace Sys2Proof.Machine

/-- The bits of an operand's element after FTZ (03 R75). -/
def fBits (c : Iss) (t : Ty) (x : Operand) (l : Nat) : Nat := ftzIn t c.P.gm.ftz (tyElem c t x l)

/-- The exact value of an operand's element (06 R146). -/
def fVal (c : Iss) (t : Ty) (x : Operand) (l : Nat) : Ex := decEx t (fBits c t x l)

/-- RoundTo under the mode (06 R146). -/
def fRes (gm : GM) (t : Ty) (x : Ex) : Nat := roundTo t gm.round gm.sat gm.ftz none x

def isRdn (gm : GM) : Bool := gm.round == .rdn

/-- FLT with a rounding mode that the instruction accepts. -/
def fltBad (gm : GM) : Bool := !tyFlt gm.type || stoBad gm

/-- A rounding instruction of row 0x3 over typed sources: `f` gives the exact result from the values of a, b and d. -/
def fltOp (i : Instr) (d a b : Operand) (dsrc : Bool) (f : Bool → Ex → Ex → Ex → Ex) (s : State) :
    Host.Outcome State Fault Refusal :=
  laneOp i { d := d, dsrc := dsrc, srcs := [typed a, typed b], modeBad := fltBad }
    (fun c l =>
      let gm := c.P.gm
      let t := gm.type
      asType gm (fRes gm t (f (isRdn gm) (fVal c t a l) (fVal c t b l) (if dsrc then fVal c t d l else .zero false)))) s

def execFadd (d a b : Operand) (s : State) := fltOp (.fadd d a b) d a b false (fun r x y _ => exAdd r x y) s
def execFsub (d a b : Operand) (s : State) := fltOp (.fsub d a b) d a b false (fun r x y _ => exSub r x y) s
def execFmul (d a b : Operand) (s : State) := fltOp (.fmul d a b) d a b false (fun _ x y _ => exMul x y) s
def execFma (d a b : Operand) (s : State) := fltOp (.fma d a b) d a b true (fun r x y z => exAdd r (exMul x y) z) s
def execFnma (d a b : Operand) (s : State) := fltOp (.fnma d a b) d a b true (fun r x y z => exSub r z (exMul x y)) s

/-- An exponent step that no format tells from a larger one of the same sign. -/
def clampScale (k : Int) : Int := if k < -6000 then -6000 else if 6000 < k then 6000 else k

def execFscale (d a b : Operand) (s : State) : Host.Outcome State Fault Refusal :=
  laneOp (.fscale d a b) { d := d, srcs := [typed a, one b], modeBad := fltBad }
    (fun c l =>
      let gm := c.P.gm
      asType gm (fRes gm gm.type (exScale (fVal c gm.type a l) (clampScale (sint 32 (rd c b 0 l)))))) s

/-- FRND's exact result (06 R146). -/
def rndEx (mode : Rnd) (x : Ex) : Ex :=
  match x with
  | .fin s n d =>
    let k := roundInt mode (.fin s n d)
    if k = 0 then .zero s else exInt k
  | v => v

/-- FRND's bits: infinities and zeros unchanged. -/
def rndBits (gm : GM) (x : Nat) : Nat :=
  match decEx gm.type x with
  | .inf _ => x
  | v => roundTo gm.type .rne false false none (rndEx gm.round v)

def execFrnd (d a : Operand) (s : State) : Host.Outcome State Fault Refusal :=
  laneOp (.frnd d a) { d := d, srcs := [typed a], modeBad := fun gm => !tyIeee gm.type || stoBad gm }
    (fun c l => asType c.P.gm (rndBits c.P.gm (fBits c c.P.gm.type a l))) s

/-- Whether x is less than y where −0 < +0 (06 R147). -/
def ltSigned (x y : Ex) : Bool := exLt x y || (exIsZero x && exIsZero y && exSign x && !exSign y)

/-- The lesser (`least`) or greater of two element bit patterns (06 R147). -/
def minmaxBits (t : Ty) (least : Bool) (x y : Nat) : Nat :=
  let u := decEx t x
  let v := decEx t y
  if exIsNan u then (if exIsNan v then nanOf t else y)
  else if exIsNan v then x
  else if least then (if ltSigned v u then y else x)
  else if ltSigned u v then y else x

/-- An instruction of 06 R147 over the flushed bits of a and b. -/
def fBitOp (i : Instr) (d a b : Operand) (f : Ty → Nat → Nat → Nat) (s : State) : Host.Outcome State Fault Refusal :=
  laneOp i { d := d, srcs := [typed a, typed b], modeBad := fun gm => !tyFlt gm.type }
    (fun c l =>
      let t := c.P.gm.type
      asType c.P.gm (f t (fBits c t a l) (fBits c t b l))) s

/-- The magnitude of x with the sign bit `sg`; NaN becomes the type's NaN, a K8 of magnitude 0 is +0 (06 R147). -/
def signBits (t : Ty) (x : Nat) (sg : Bool) : Nat :=
  let w := tyWidth t
  let m := x % 2 ^ (w - 1)
  if exIsNan (decEx t x) then nanOf t
  else if t == .k8 && m == 0 then 0
  else m + (if sg then 2 ^ (w - 1) else 0)

def execFmin (d a b : Operand) (s : State) := fBitOp (.fmin d a b) d a b (fun t x y => minmaxBits t true x y) s
def execFmax (d a b : Operand) (s : State) := fBitOp (.fmax d a b) d a b (fun t x y => minmaxBits t false x y) s
def execFcpys (d a b : Operand) (s : State) :=
  fBitOp (.fcpys d a b) d a b (fun t x y => signBits t x (bit y (tyWidth t - 1))) s

/-- A unary instruction of 06 R147. -/
def fBitUn (i : Instr) (d a : Operand) (f : Ty → Nat → Nat) (s : State) : Host.Outcome State Fault Refusal :=
  laneOp i { d := d, srcs := [typed a], modeBad := fun gm => !tyFlt gm.type }
    (fun c l => asType c.P.gm (f c.P.gm.type (fBits c c.P.gm.type a l))) s

def execFneg (d a : Operand) (s : State) :=
  fBitUn (.fneg d a) d a (fun t x => signBits t x (!(bit x (tyWidth t - 1)))) s
def execFabs (d a : Operand) (s : State) := fBitUn (.fabs d a) d a (fun t x => signBits t x false) s

/-- Whether a non-zero finite element is subnormal: never in K8 (06 R147). -/
def classSub (t : Ty) (x : Nat) : Bool := t != .k8 && isSub t x

/-- FCLASS: the one class bit of an element (06 R147). -/
def classBit (t : Ty) (x : Nat) : Nat :=
  match decEx t x with
  | .nan => 8
  | .inf s => if s then 0 else 7
  | .zero s => if s then 3 else 4
  | .fin s _ _ => if classSub t x then (if s then 2 else 5) else if s then 1 else 6

def execFclass (d a : Operand) (s : State) : Host.Outcome State Fault Refusal :=
  laneOp (.fclass d a) { d := d, dn := fun _ => 1, srcs := [typed a], modeBad := fun gm => !tyFlt gm.type }
    (fun c l => 2 ^ classBit c.P.gm.type (tyElem c c.P.gm.type a l)) s

/-! ### Conversions -/

/-- CVT's result bits (06 R148, 03 R72, R76): integers to narrower integers under GM.SAT, everything else through RoundTo. -/
def cvtBits (gm : GM) (st : Ty) (x : Nat) : Nat :=
  let dt := gm.type
  if tyBitsOnly st || tyBitsOnly dt then x % 2 ^ (min (tyWidth st) (tyWidth dt))
  else if tyInt st && tyInt dt && decide (tyWidth dt < tyWidth st) then reduceInt dt gm.sat (intOf st x)
  else roundTo dt gm.round gm.sat gm.ftz none (decEx st (ftzIn st gm.ftz x))

def execCvt (src : Ty) (d a : Operand) (s : State) : Host.Outcome State Fault Refusal :=
  laneOp (.cvt src d a) { d := d, srcs := [⟨a, fun _ => tyRegs src⟩], modeBad := stoBad }
    (fun c l => asType c.P.gm (cvtBits c.P.gm src (tyElem c src a l))) s

/-- The types CVTS rounds to (06 R149). -/
def cvtsType : Ty → Bool
  | .f16 | .bf16 | .k8 | .e4m3 | .e2m1 => true
  | _ => false

def execCvts (d a b : Operand) (s : State) : Host.Outcome State Fault Refusal :=
  laneOp (.cvts d a b) { d := d, srcs := [one a, one b], modeBad := fun gm => !cvtsType gm.type }
    (fun c l =>
      let gm := c.P.gm
      let rho := if gm.round == .sto then some (rd c b 0 l % 2 ^ 16) else none
      asType gm (roundTo gm.type gm.round gm.sat gm.ftz rho (decEx .f32 (ftzIn .f32 gm.ftz (rd c a 0 l))))) s

/-- The source type of PACK2 under GM.TYPE (06 R150). -/
def packSrc : Ty → Option Ty
  | .f16 | .bf16 => some .f32
  | .i16 => some .i32
  | .n16 => some .n32
  | .b16 => some .b32
  | _ => none

/-- Whether an instruction of a type rounds. -/
def half? : Ty → Bool
  | .f16 | .bf16 => true
  | _ => false

def execPack2 (d a b : Operand) (s : State) : Host.Outcome State Fault Refusal :=
  laneOp (.pack2 d a b)
    { d := d, srcs := [typed a, typed b],
      modeBad := fun gm => (packSrc gm.type).isNone || stoBad gm }
    (fun c l =>
      let gm := c.P.gm
      let cv := fun x => cvtBits gm ((packSrc gm.type).getD .b32) (rd c x 0 l) % 2 ^ 16
      cv a + 2 ^ 16 * cv b) s

/-- The types UNPK accepts (06 R150). -/
def unpkType : Ty → Bool
  | .i8 | .n8 | .b8 | .i16 | .n16 | .b16 | .f16 | .bf16 | .k8 | .e4m3 | .e2m1 => true
  | _ => false

/-- Element k of a packed register. -/
def packed (t : Ty) (x k : Nat) : Nat := x / 2 ^ (tyWidth t * k) % 2 ^ tyWidth t

/-- UNPK's widening (06 R150). -/
def widen (t : Ty) (x : Nat) : Nat :=
  if tyFlt t then toF32 .rne (decEx t x) else wrapInt 32 (intOf t x)

def execUnpk (d a b : Operand) (s : State) : Host.Outcome State Fault Refusal :=
  laneOp (.unpk d a b) { d := d, srcs := [typed a, one b], modeBad := fun gm => !unpkType gm.type }
    (fun c l =>
      let t := c.P.gm.type
      widen t (packed t (rd c a 0 l) (rd c b 0 l % (32 / tyWidth t)))) s

/-- A packed half instruction (06 R150): each half rounded on its own. -/
def halfOp (i : Instr) (d a b : Operand) (dsrc : Bool) (f : Bool → Ex → Ex → Ex → Ex) (s : State) :
    Host.Outcome State Fault Refusal :=
  laneOp i
    { d := d, dsrc := dsrc, srcs := [typed a, typed b],
      modeBad := fun gm => !half? gm.type || stoBad gm }
    (fun c l =>
      let gm := c.P.gm
      let t := gm.type
      let v := fun x h => decEx t (ftzIn t gm.ftz (packed t (rd c x 0 l) h))
      let r := fun h => fRes gm t (f (isRdn gm) (v a h) (v b h) (if dsrc then v d h else .zero false))
      r 0 + 2 ^ 16 * r 1) s

def execHfma2 (d a b : Operand) (s : State) := halfOp (.hfma2 d a b) d a b true (fun r x y z => exAdd r (exMul x y) z) s
def execHadd2 (d a b : Operand) (s : State) := halfOp (.hadd2 d a b) d a b false (fun r x y _ => exAdd r x y) s
def execHmul2 (d a b : Operand) (s : State) := halfOp (.hmul2 d a b) d a b false (fun _ x y _ => exMul x y) s

/-- The exact sum of a list of terms (06 R150): an exact zero sum of more than signed zeros alike is +0, −0 under RDN. -/
def sumEx (rdn : Bool) (x : Ex) (xs : List Ex) : Ex := xs.foldl (exAdd rdn) x

/-- A dot product into an F32 d: n packed elements of a and b (06 R150). -/
def dotBits (gm : GM) (t : Ty) (n a b d : Nat) : Nat :=
  let v := fun x h => decEx t (ftzIn t gm.ftz (packed t x h))
  let terms := (List.range n).map fun h => exMul (v a h) (v b h)
  fRes gm .f32 (sumEx (isRdn gm) (decEx .f32 (ftzIn .f32 gm.ftz d)) terms)

def execFdot2 (d a b : Operand) (s : State) : Host.Outcome State Fault Refusal :=
  laneOp (.fdot2 d a b)
    { d := d, dsrc := true, srcs := [typed a, typed b],
      modeBad := fun gm => !half? gm.type || stoBad gm }
    (fun c l => dotBits c.P.gm c.P.gm.type 2 (rd c a 0 l) (rd c b 0 l) (rd c d 0 l)) s

/-- The types DOT4 accepts, and those among them that round (06 R150). -/
def dot4Type : Ty → Bool
  | .i8 | .n8 | .k8 | .e4m3 => true
  | _ => false

/-- DOT4 (06 R150). -/
def dot4Bits (gm : GM) (a b d : Nat) : Nat :=
  let t := gm.type
  if tyInt t then
    let u : Ty := if t == .i8 then .i32 else .n32
    let sum := (List.range 4).foldl (fun (r : Int) h => r + intOf t (packed t a h) * intOf t (packed t b h)) (intOf u d)
    reduceInt u gm.sat sum
  else dotBits gm t 4 a b d

def execDot4 (d a b : Operand) (s : State) : Host.Outcome State Fault Refusal :=
  laneOp (.dot4 d a b)
    { d := d, dsrc := true, srcs := [typed a, typed b],
      modeBad := fun gm => !dot4Type gm.type || (tyFlt gm.type && stoBad gm) }
    (fun c l => dot4Bits c.P.gm (rd c a 0 l) (rd c b 0 l) (rd c d 0 l)) s

end Sys2Proof.Machine
end

