-- ==== Sys2Proof/Machine/Flags.lean ====
section
/-! DEFINITION. Condition computations: the relations of ICMP and FCMP (04 R110), predicate writes (02 R28). -/

namespace Sys2Proof.Machine

/-- An ICMP relation on two elements of a type; B types compare as naturals (04 R110). -/
def ccInt (cc : CC) (t : Ty) (x y : Nat) : Bool :=
  let u := intOf t x
  let v := intOf t y
  match cc with
  | .eq | .ueq => decide (u = v)
  | .ne | .une => decide (u ≠ v)
  | .lt | .ult => decide (u < v)
  | .le | .ule => decide (u ≤ v)
  | .gt | .ugt => decide (v < u)
  | .ge | .uge => decide (v ≤ u)
  | .tst => (x &&& y) % 2 ^ tyWidth t != 0
  | .ntst => (x &&& y) % 2 ^ tyWidth t == 0

/-- An FCMP relation on two exact values (04 R110). -/
def ccFlt (cc : CC) (x y : Ex) : Bool :=
  let un := exIsNan x || exIsNan y
  match cc with
  | .eq => !un && exEq x y
  | .ne => !un && !exEq x y
  | .lt => !un && exLt x y
  | .le => !un && exLe x y
  | .gt => !un && exLt y x
  | .ge => !un && exLe y x
  | .tst => !un
  | .ntst => un
  | .ueq => un || exEq x y
  | .une => un || !exEq x y
  | .ult => un || exLt x y
  | .ule => un || exLe x y
  | .ugt => un || exLt y x
  | .uge => un || exLe y x

/-- The lanes of a mask that satisfy a condition. -/
def lanesWhere (m : Mask) (f : Nat → Bool) : Mask := maskOf ((lanesOf m).filter f)

/-- Sets the bits of predicate p in the lanes of `m` to those of `v`; a write to p0 is discarded (02 R28). -/
def setPred (s : State) (t g p : Nat) (m v : Mask) : State :=
  if p = 0 then s
  else modGroup s t g fun G => { G with pred := tset 0 G.pred p ((predOf G p &&& ~~~m) ||| (v &&& m)) }

end Sys2Proof.Machine
end

