-- ==== Sys2Proof/Machine/IntOps.lean ====
section
/-! DEFINITION. Integer, bit and 64-bit address instructions: rows 0x1 and 0x2 (06 R144, R145). -/

namespace Sys2Proof.Machine

/-- A binary instruction over integer values with an exact integer result reduced under GM.SAT (03 R65, 06 R144). -/
def intOp (i : Instr) (d a b : Operand) (dsrc : Bool) (f : Int → Int → Int → Int) (s : State) :
    Host.Outcome State Fault Refusal :=
  laneOp i { d := d, dsrc := dsrc, srcs := [typed a, typed b], modeBad := fun gm => !tyInt gm.type }
    (fun c l =>
      let t := c.P.gm.type
      let v := fun x => intOf t (tyElem c t x l)
      asType c.P.gm (reduceInt t c.P.gm.sat (f (v a) (v b) (if dsrc then v d else 0)))) s

/-- A binary instruction over integer types that never saturates: `f` gives the result from the type and the exact
values, reduced modulo 2^w. -/
def intWrapOp (i : Instr) (d a b : Operand) (f : Ty → Int → Int → Int) (s : State) : Host.Outcome State Fault Refusal :=
  laneOp i { d := d, srcs := [typed a, typed b], modeBad := fun gm => !tyInt gm.type }
    (fun c l =>
      let t := c.P.gm.type
      asType c.P.gm (wrapInt (tyWidth t) (f t (intOf t (tyElem c t a l)) (intOf t (tyElem c t b l))))) s

/-- A bitwise instruction over BITS: `f` gives the result from the width and the bits of both sources. -/
def bitOp (i : Instr) (d a b : Operand) (f : Nat → Nat → Nat → Nat) (s : State) : Host.Outcome State Fault Refusal :=
  laneOp i { d := d, srcs := [typed a, typed b], modeBad := fun gm => !tyBITS gm.type }
    (fun c l =>
      let t := c.P.gm.type
      asType c.P.gm (f (tyWidth t) (tyElem c t a l) (tyElem c t b l) % 2 ^ tyWidth t)) s

/-- A shift: b is one register and n = b[6:0] (06 R144). -/
def shiftOp (i : Instr) (d a b : Operand) (f : Nat → Nat → Nat → Nat) (s : State) : Host.Outcome State Fault Refusal :=
  laneOp i { d := d, srcs := [typed a, one b], modeBad := fun gm => !tyBITS gm.type }
    (fun c l =>
      let t := c.P.gm.type
      asType c.P.gm (f (tyWidth t) (tyElem c t a l) (rd c b 0 l % 128) % 2 ^ tyWidth t)) s

/-- A unary bit instruction over BITS. -/
def bitUn (i : Instr) (d a : Operand) (f : Nat → Nat → Nat) (s : State) : Host.Outcome State Fault Refusal :=
  laneOp i { d := d, srcs := [typed a], modeBad := fun gm => !tyBITS gm.type }
    (fun c l =>
      let t := c.P.gm.type
      asType c.P.gm (f (tyWidth t) (tyElem c t a l) % 2 ^ tyWidth t)) s

/-- a << n in w bits; 0 from n = w on. -/
def shlBits (w a n : Nat) : Nat := if w ≤ n then 0 else a * 2 ^ n % 2 ^ w
/-- a >> n with zero fill. -/
def shrBits (a n : Nat) : Nat := a / 2 ^ n
/-- Arithmetic right shift in w bits (06 R144). -/
def sarBits (w a n : Nat) : Nat := wrapInt w (sint w a / ((2 ^ n : Nat) : Int))
/-- Rotate left by n mod w. -/
def rotBits (w a n : Nat) : Nat :=
  let k := n % w
  a * 2 ^ k % 2 ^ w + a / 2 ^ (w - k)
/-- Number of 1 bits among the low w. -/
def popBits (w a : Nat) : Nat := ((List.range w).filter fun i => bit a i).length
/-- Leading zeros in w bits. -/
def clzBits (w a : Nat) : Nat := if a % 2 ^ w = 0 then w else w - 1 - Nat.log2 (a % 2 ^ w)
/-- Bit i to bit w − 1 − i. -/
def revBits (w a : Nat) : Nat :=
  (List.range w).foldl (fun r i => if bit a i then r + 2 ^ (w - 1 - i) else r) 0

/-- BFE (06 R145): b[7:0] the position, b[15:8] the length. -/
def bfeBits (t : Ty) (a b : Nat) : Nat :=
  let w := tyWidth t
  let pos := bits b 7 0
  let len := min (bits b 15 8) w
  let x : Int := intOf t a / ((2 ^ pos : Nat) : Int)
  if len = 0 then 0
  else if tySigned t then wrapInt w (sint len (wrapInt len x)) else wrapInt len x

/-- BFI (06 R145). -/
def bfiBits (w d a b : Nat) : Nat :=
  let pos := bits b 7 0
  let len := min (bits b 15 8) w
  (List.range w).foldl (fun r i =>
    if (if pos ≤ i ∧ i < pos + len then bit a (i - pos) else bit d i) then r + 2 ^ i else r) 0

/-- PERM (06 R145): byte j of the result from the eight bytes of a and d. -/
def permBits (d a b : Nat) : Nat :=
  let x := a % 2 ^ 32 + 2 ^ 32 * (d % 2 ^ 32)
  (List.range 4).foldl (fun r j =>
    let t := bits b (4 * j + 3) (4 * j)
    let y := bits x (8 * (t % 8) + 7) (8 * (t % 8))
    r + 2 ^ (8 * j) * (if 8 ≤ t then (if 128 ≤ y then 255 else 0) else y)) 0

def execIadd (d a b : Operand) (s : State) := intOp (.iadd d a b) d a b false (fun x y _ => x + y) s
def execIsub (d a b : Operand) (s : State) := intOp (.isub d a b) d a b false (fun x y _ => x - y) s
def execImul (d a b : Operand) (s : State) := intOp (.imul d a b) d a b false (fun x y _ => x * y) s
def execImad (d a b : Operand) (s : State) := intOp (.imad d a b) d a b true (fun x y z => x * y + z) s
def execImulh (d a b : Operand) (s : State) :=
  intWrapOp (.imulh d a b) d a b (fun t x y => x * y / ((2 ^ tyWidth t : Nat) : Int)) s
def execImin (d a b : Operand) (s : State) := intWrapOp (.imin d a b) d a b (fun _ x y => min x y) s
def execImax (d a b : Operand) (s : State) := intWrapOp (.imax d a b) d a b (fun _ x y => max x y) s
def execIabsd (d a b : Operand) (s : State) :=
  intWrapOp (.iabsd d a b) d a b (fun _ x y => ((x - y).natAbs : Int)) s
def execAnd (d a b : Operand) (s : State) := bitOp (.and d a b) d a b (fun _ x y => x &&& y) s
def execOr (d a b : Operand) (s : State) := bitOp (.or d a b) d a b (fun _ x y => x ||| y) s
def execXor (d a b : Operand) (s : State) := bitOp (.xor d a b) d a b (fun _ x y => x ^^^ y) s
def execAndn (d a b : Operand) (s : State) := bitOp (.andn d a b) d a b (fun w x y => x &&& (2 ^ w - 1 - y)) s
def execShl (d a b : Operand) (s : State) := shiftOp (.shl d a b) d a b shlBits s
def execShr (d a b : Operand) (s : State) := shiftOp (.shr d a b) d a b (fun _ x n => shrBits x n) s
def execSar (d a b : Operand) (s : State) := shiftOp (.sar d a b) d a b sarBits s
def execRot (d a b : Operand) (s : State) := shiftOp (.rot d a b) d a b rotBits s

def execPopc (d a : Operand) (s : State) := bitUn (.popc d a) d a popBits s
def execClz (d a : Operand) (s : State) := bitUn (.clz d a) d a clzBits s
def execBrev (d a : Operand) (s : State) := bitUn (.brev d a) d a revBits s

/-- BITS up to 64 bits. -/
def bits64 (gm : GM) : Bool := tyBITS gm.type && gm.type != .b128

def execBfe (d a b : Operand) (s : State) : Host.Outcome State Fault Refusal :=
  laneOp (.bfe d a b) { d := d, srcs := [typed a, one b], modeBad := fun gm => !bits64 gm }
    (fun c l => asType c.P.gm (bfeBits c.P.gm.type (tyElem c c.P.gm.type a l) (rd c b 0 l))) s

def execBfi (d a b : Operand) (s : State) : Host.Outcome State Fault Refusal :=
  laneOp (.bfi d a b) { d := d, dsrc := true, srcs := [typed a, one b], modeBad := fun gm => !bits64 gm }
    (fun c l =>
      let t := c.P.gm.type
      asType c.P.gm (bfiBits (tyWidth t) (tyElem c t d l) (tyElem c t a l) (rd c b 0 l))) s

def execAdd64 (d a b : Operand) (s : State) : Host.Outcome State Fault Refusal :=
  laneOp (.add64 d a b) { d := d, dn := fun _ => 2, srcs := [pair a, pair b] }
    (fun c l => (pairOf c a l + pairOf c b l) % 2 ^ 64) s

def execLea64 (d a b : Operand) (s : State) : Host.Outcome State Fault Refusal :=
  laneOp (.lea64 d a b) { d := d, dn := fun _ => 2, srcs := [pair a, one b], modeBad := fun gm => gm.type == .e2m1 }
    (fun c l => wrapInt 64 ((pairOf c a l : Int) + sint 32 (rd c b 0 l) * (tyBytes c.P.gm.type : Int))) s

/-- IADDS and ISUBS: always clamped (06 R145). -/
def intSatOp (i : Instr) (d a b : Operand) (f : Int → Int → Int) (s : State) : Host.Outcome State Fault Refusal :=
  laneOp i { d := d, srcs := [typed a, typed b], modeBad := fun gm => !tyInt gm.type }
    (fun c l =>
      let t := c.P.gm.type
      asType c.P.gm (clampInt t (f (intOf t (tyElem c t a l)) (intOf t (tyElem c t b l))))) s

def execIadds (d a b : Operand) (s : State) := intSatOp (.iadds d a b) d a b (fun x y => x + y) s
def execIsubs (d a b : Operand) (s : State) := intSatOp (.isubs d a b) d a b (fun x y => x - y) s

def execPerm (d a b : Operand) (s : State) : Host.Outcome State Fault Refusal :=
  laneOp (.perm d a b) { d := d, dn := fun _ => 1, dsrc := true, srcs := [one a, one b] }
    (fun c l => permBits (rd c d 0 l) (rd c a 0 l) (rd c b 0 l)) s

/-- The type of MULW's product (06 R145). -/
def wideTy : Ty → Ty
  | .i8 => .i16 | .i16 => .i32 | .i32 => .i64 | .n8 => .n16 | .n16 => .n32 | .n32 => .n64
  | t => t

def execMulw (d a b : Operand) (s : State) : Host.Outcome State Fault Refusal :=
  laneOp (.mulw d a b)
    { d := d, dn := fun gm => if tyWidth gm.type = 32 then 2 else tyRegs gm.type, srcs := [typed a, typed b],
      modeBad := fun gm => !(tyInt gm.type && decide (tyWidth gm.type ≤ 32)) }
    (fun c l =>
      let t := c.P.gm.type
      let u := wideTy t
      extendElem u (wrapInt (tyWidth u) (intOf t (tyElem c t a l) * intOf t (tyElem c t b l)))) s

end Sys2Proof.Machine
end

