-- ==== Sys2Proof/Machine/Imm.lean ====
section
/-! DEFINITION. Immediates, FRAME excepted: row 0x6 (05 R128–R130). -/

namespace Sys2Proof.Machine

def execLit (d : Operand) (imm : Nat) (s : State) : Host.Outcome State Fault Refusal :=
  laneOp (.lit d imm) { d := d, dn := fun _ => 1, srcs := [] } (fun _ _ => imm % 2 ^ 16) s

def execLith (d : Operand) (imm : Nat) (s : State) : Host.Outcome State Fault Refusal :=
  laneOp (.lith d imm) { d := d, dn := fun _ => 1, dsrc := true, srcs := [] }
    (fun c l => rd c d 0 l % 2 ^ 16 + imm % 2 ^ 16 * 2 ^ 16) s

/-- FLIT's bits under a mode: the immediate read as BF16 (05 R128). -/
def flitBits (gm : GM) (imm : Nat) : Nat :=
  let v := decBin .bf16 imm
  match gm.type with
  | .f16 => roundTo .f16 gm.round gm.sat gm.ftz none v
  | .bf16 => imm % 2 ^ 16
  | .f64 => roundBin .f64 .rne false false none v
  | _ => imm % 2 ^ 16 * 2 ^ 16

def execFlit (d : Operand) (imm : Nat) (s : State) : Host.Outcome State Fault Refusal :=
  laneOp (.flit d imm)
    { d := d, srcs := [], modeBad := fun gm => !tyIeee gm.type || (gm.type == .f16 && stoBad gm) }
    (fun c _ => asType c.P.gm (flitBits c.P.gm imm)) s

/-- BITS of at most 64 bits (05 R129). -/
def immBad (gm : GM) : Bool := !bits64 gm

/-- An immediate instruction on register d (05 R129). -/
def immOp (i : Instr) (d : Operand) (f : GM → Nat → Nat) (s : State) : Host.Outcome State Fault Refusal :=
  laneOp i { d := d, dsrc := true, srcs := [], modeBad := immBad }
    (fun c l => asType c.P.gm (f c.P.gm (tyElem c c.P.gm.type d l))) s

/-- The low w bits of the sign-extended immediate. -/
def sextImm (w imm : Nat) : Nat := wrapInt w (sint 16 imm)

/-- ADDI: I and N types follow GM.SAT, B types wrap. -/
def addiBits (gm : GM) (x imm : Nat) : Nat :=
  reduceInt gm.type (gm.sat && tyInt gm.type) (intOf gm.type x + sint 16 imm)

def execAddi (d : Operand) (imm : Nat) (s : State) := immOp (.addi d imm) d (fun gm x => addiBits gm x imm) s
def execAndi (d : Operand) (imm : Nat) (s : State) :=
  immOp (.andi d imm) d (fun gm x => x &&& sextImm (tyWidth gm.type) imm) s
def execOri (d : Operand) (imm : Nat) (s : State) :=
  immOp (.ori d imm) d (fun gm x => x ||| imm % 2 ^ 16 % 2 ^ tyWidth gm.type) s
def execXori (d : Operand) (imm : Nat) (s : State) :=
  immOp (.xori d imm) d (fun gm x => x ^^^ imm % 2 ^ 16 % 2 ^ tyWidth gm.type) s
def execShli (d : Operand) (n : Nat) (s : State) := immOp (.shli d n) d (fun gm x => shlBits (tyWidth gm.type) x n) s
def execShri (d : Operand) (n : Nat) (s : State) := immOp (.shri d n) d (fun _ x => shrBits x n) s
def execSari (d : Operand) (n : Nat) (s : State) := immOp (.sari d n) d (fun gm x => sarBits (tyWidth gm.type) x n) s

end Sys2Proof.Machine
end

