-- ==== Sys2Proof/Machine/PredLane.lean ====
section
/-! DEFINITION. Compares, predicate logic, moves and special registers: row 0x5 but for the path waits and the register
gathers, and ICMPI (04 R110–R112, 05 R126, R127, R130, R135–R138). -/

namespace Sys2Proof.Machine

/-- A compare into predicate p of two operands that span GM.TYPE's registers. -/
def cmpOp (i : Instr) (p : Nat) (a : Operand) (b : Option Operand) (modeBad : GM → Bool) (f : Iss → Nat → Bool)
    (s : State) : Host.Outcome State Fault Refusal :=
  issueWord i
    (fun _ _ P =>
      { uses := { op := a, n := tyRegs P.gm.type } :: (b.toList.map fun x => { op := x, n := tyRegs P.gm.type }),
        modeBad := modeBad P.gm })
    (fun c => .adv (setPred c.s c.t c.g p c.act (lanesWhere c.act (f c)))) s

def execIcmp (cc : CC) (p : Nat) (a b : Operand) (s : State) :=
  cmpOp (.icmp cc p a b) p a (some b) (fun gm => !bits64 gm)
    (fun c l => ccInt cc c.P.gm.type (tyElem c c.P.gm.type a l) (tyElem c c.P.gm.type b l)) s

def execFcmp (cc : CC) (p : Nat) (a b : Operand) (s : State) :=
  cmpOp (.fcmp cc p a b) p a (some b) (fun gm => !tyFlt gm.type)
    (fun c l => ccFlt cc (fVal c c.P.gm.type a l) (fVal c c.P.gm.type b l)) s

/-- ICMPI's immediate: sign-extended for I types (05 R130). -/
def imm8 (t : Ty) (imm : Nat) : Nat := if tySigned t then wrapInt (tyWidth t) (sint 8 imm) else imm % 256

def execIcmpi (cc : CC) (p : Nat) (a : Operand) (imm : Nat) (s : State) :=
  cmpOp (.icmpi cc p a imm) p a none (fun gm => !bits64 gm)
    (fun c l => ccInt cc c.P.gm.type (tyElem c c.P.gm.type a l) (imm8 c.P.gm.type imm)) s

/-- PLOG: a truth table over three predicates, all read before pd is written (04 R111). -/
def execPlog (pd pa pb pc tt : Nat) (s : State) : Host.Outcome State Fault Refusal :=
  issueWord (.plog pd pa pb pc tt) (fun _ _ _ => {})
    (fun c =>
      let b := fun n l => ((predOf c.G n).getLsbD l).toNat
      .adv (setPred c.s c.t c.g pd c.act (lanesWhere c.act fun l => bit tt (4 * b pa l + 2 * b pb l + b pc l)))) s

/-- The registers of an operand in a lane, n of them, as one number. -/
def regsOf (c : Iss) (x : Operand) (n lane : Nat) : Nat :=
  (List.range n).foldl (fun r k => r + 2 ^ (32 * k) * rd c x k lane) 0

/-- SEL: the guard selects (04 R112). -/
def execSel (d a b : Operand) (s : State) : Host.Outcome State Fault Refusal :=
  issueWord (.sel d a b)
    (fun _ _ P =>
      let n := tyRegs P.gm.type
      { uses := [{ op := d, n := n, src := false, dst := true }, { op := a, n := n }, { op := b, n := n }],
        opBad := isScalar d, always := true })
    (fun c =>
      let n := tyRegs c.P.gm.type
      let pick := guardOf c.G c.P.gm
      .adv (wrLanes c c.s d n (c.P.mask &&& c.G.present)
        (fun l => regsOf c (if pick.getLsbD l then a else b) n l))) s

/-- MOV: whole registers, nothing converted (05 R127, log entry 10). -/
def execMov (d a : Operand) (s : State) : Host.Outcome State Fault Refusal :=
  laneOp (.mov d a) { d := d, srcs := [typed a] } (fun c l => regsOf c a (tyRegs c.P.gm.type) l) s

/-- SMOV: lane k's a to a scalar (05 R135). -/
def execSmov (d a b : Operand) (s : State) : Host.Outcome State Fault Refusal :=
  issueWord (.smov d a b)
    (fun _ _ P =>
      let n := tyRegs P.gm.type
      { uses := [{ op := d, n := n, src := false, dst := true }, { op := a, n := n }, { op := b }],
        opBad := !isScalar d || !isVector a || !isUniform b, modeBad := P.gm.type == .b128 })
    (fun c =>
      let k := rd c b 0 0
      let v := if 96 ≤ k || !c.G.present.getLsbD k then 0 else regsOf c a (tyRegs c.P.gm.type) k
      .adv (wrLanes c c.s d (tyRegs c.P.gm.type) c.act (fun _ => v))) s

/-- BCAST: the lowest active lane's a (05 R136). -/
def execBcast (d a : Operand) (s : State) : Host.Outcome State Fault Refusal :=
  issueWord (.bcast d a)
    (fun _ _ P =>
      let n := tyRegs P.gm.type
      { uses := [{ op := d, n := n, src := false, dst := true }, { op := a, n := n }],
        opBad := !isVector a, modeBad := P.gm.type == .b128 })
    (fun c =>
      let m := (lowLane c.act).getD 0
      .adv (wrLanes c c.s d (tyRegs c.P.gm.type) c.act
        (fun _ => regsOf c a (tyRegs c.P.gm.type) m))) s

/-- The role information of a group. -/
def roleOf (T : Team) (G : Group) : RoleInfo := if G.role = 0 then T.producer else T.consumer


/-- The index of a group within its role (04 R86, R87). -/
def roleIndex (T : Team) (G : Group) (g : Nat) : Nat := if G.role = 0 then g else g - T.producer.groups

/-- A special register of SREAD for a lane; none for a reserved index (05 R126). -/
def sregOf (c : Iss) (idx lane : Nat) : Option Nat :=
  let T := c.T
  let R := roleOf T c.G
  match idx with
  | 0x00 => some T.x
  | 0x01 => some T.y
  | 0x02 => some T.z
  | 0x03 => some T.grid.1
  | 0x04 => some T.grid.2.1
  | 0x05 => some T.grid.2.2
  | 0x06 => some c.g
  | 0x07 => some c.G.role
  | 0x08 => some R.groups
  | 0x09 => some R.lanes
  | 0x0A => some (96 * roleIndex T c.G c.g + lane)
  | 0x0B => some c.P.fb
  | 0x0C => some c.P.fs
  | 0x0D => some c.P.ld
  | 0x0E => some T.bsz
  | 0x0F => some T.prio
  | 0x10 => some T.ctx
  | 0x11 => some (locOf T c.G)
  | 0x12 => some T.pd
  | 0x13 => some (maskWord c.G.lfm 0)
  | 0x14 => some (maskWord c.G.lfm 1)
  | 0x15 => some (maskWord c.G.lfm 2)
  | 0x20 => some (tget 0 c.G.gscr 0).toNat
  | 0x21 => some (tget 0 c.G.gscr 1).toNat
  | 0x22 => some (tget 0 c.G.gscr 2).toNat
  | 0x23 => some (tget 0 c.G.gscr 3).toNat
  | _ => none

/-- SREAD. Its own checks come after the guard, as 02 R49 exempts only the three common ones, and name Active(G) (DEDUCED, log
entry 17). -/
def execSread (d : Operand) (idx : Nat) (s : State) : Host.Outcome State Fault Refusal :=
  issueWord (.sread d idx) (fun _ _ _ => { uses := [{ op := d, src := false, dst := true }] })
    (fun c =>
      if c.act == 0 then .adv c.s
      else if (sregOf c idx 0).isNone then .trap .illegalInstruction c.act 0 0
      else if idx = 0x0A && isScalar d then .trap .reservedOperand c.act 0 0
      else .adv (wrLanes c c.s d 1 c.act (fun l => (sregOf c idx l).getD 0 % 2 ^ 32))) s

/-- The effect of a write to a special register: LFM clears the bits given, GSCR takes the word (05 R138). -/
def writeSreg (s : State) (t g idx v : Nat) : State :=
  modGroup s t g fun G =>
    if idx ≤ 0x15 then
      let b := idx - 0x13
      { G with lfm := G.lfm &&& ~~~(BitVec.ofNat 96 (v % 2 ^ 32 * 2 ^ (32 * b))) }
    else { G with gscr := tset 0 G.gscr (idx - 0x20) (BitVec.ofNat 32 v) }

/-- SWRITE. The check of its index comes after the guard, as that of SREAD (DEDUCED, log entry 17). -/
def execSwrite (idx : Nat) (a : Operand) (s : State) : Host.Outcome State Fault Refusal :=
  issueWord (.swrite idx a) (fun _ _ _ => { uses := [{ op := a }], opBad := !isUniform a })
    (fun c =>
      if c.act == 0 then .adv c.s
      else if !((decide (0x13 ≤ idx) && decide (idx ≤ 0x15)) || (decide (0x20 ≤ idx) && decide (idx ≤ 0x23))) then
        .trap .illegalInstruction c.act 0 0
      else .adv (writeSreg c.s c.t c.g idx (rd c a 0 0))) s

end Sys2Proof.Machine
end

