-- ==== Sys2Proof/Machine/Access.lean ====
section
/-! DEFINITION. What an access leaves behind besides its effect: comparator hits (18 R417) and replay capture
(18 R420, R421); reads and writes of virtual spans by engines. -/

namespace Sys2Proof.Machine

/-- Who makes an access; `lost` says that its team has been discarded. -/
structure Who where
  ctx : Nat := 0
  launch : Nat := 0
  die : Nat := 0
  loc : Nat := 0
  pc : Nat := 0
  engine : Bool := false
  lost : Bool := false

/-- A group's operation or an engine's as the maker of an access. -/
def whoOf (T : Team) (G : Group) (pc : Nat) (engine : Bool) : Who :=
  { ctx := T.ctx, launch := T.launch, die := T.die, loc := locOf T G, pc := pc, engine := engine,
    lost := T.away == .dropped }

/-- Whether a data comparator is hit by an access of n bytes at a virtual address. -/
def dcmpHit (k : DCmp) (w : Who) (va n : Nat) (wr : Bool) : Bool :=
  k.en && decide (w.ctx < 1024) && (k.all || k.ctx == w.ctx) && (if wr then bit k.access 1 else bit k.access 0) && (!w.engine || k.engines)
    && decide (va < k.last) && decide (k.first < va + n)

/-- Records a hit: the module's first, or one that follows it (18 R418). -/
def recordHit (s : State) (h : Hit) : State :=
  if s.freeze.hit.isSome then { s with freeze := { s.freeze with more := s.freeze.more ++ [h] } }
  else { s with freeze := { s.freeze with hit := some h } }

/-- The data comparators at an access (18 R417). -/
def compareData (s : State) (w : Who) (va n : Nat) (wr : Bool) : State :=
  ((tget ({} : Die) s.dies w.die).dcmp.filter fun k => dcmpHit k.2 w va n wr).foldl (fun s k =>
    recordHit s { tick := s.gt, source := 2, num := k.1, die := w.die, loc := w.loc, pc := w.pc, ctx := w.ctx }) s

/-- The aligned 4-byte words that n bytes at an address touch. -/
def wordsOf (va n : Nat) : List Nat := (List.range ((va % 4 + n + 3) / 4)).map fun i => (va / 4 + i) * 4

/-- What a read of n bytes at a virtual address and key leaves behind. -/
def noteRead (s : State) (w : Who) (va key n : Nat) : State := readCaptured s w.ctx va key n

/-- What a write of n bytes at a virtual address and key leaves behind. -/
def noteWrite (s : State) (w : Who) (va key n : Nat) : State :=
  let s1 := readCaptured s w.ctx va key n
  match tfind s1.captures w.ctx with
  | none => s1
  | some K =>
    let new := (wordsOf va n).filter fun x => !(K.wrote.contains (w.launch, x))
    let wrote := K.wrote ++ new.map fun x => (w.launch, x)
    { s1 with captures := tput s1.captures w.ctx { K with wrote := wrote } }

/-- The words that a die's write of n bytes at a key covers whole, in the copy of its remote-data cache too (08 R202, R206). -/
def mendCopy (s : State) (die key n : Nat) : State :=
  { s with copyBad := s.copyBad.filter fun c => !(c.1 == die && decide (key ≤ c.2) && decide (c.2 + 8 ≤ key + n)) }

/-- A write by an agent at a translated address; a slot's own of its data area is marked (12 R289). -/
def agentWriteAs (writer : Writer) (s : State) (w : Who) (va key : Nat) (bs : List Byte) : State :=
  mendCopy (storeMemAs writer (noteWrite s w va key bs.length) key bs) w.die key bs.length

def agentWrite (s : State) (w : Who) (va key : Nat) (bs : List Byte) : State := agentWriteAs .agent s w va key bs

/-- The parts of n bytes at an address that lie in one aligned block of k bytes each: address and length. -/
def partsIn (k a n : Nat) : List (Nat × Nat) :=
  (List.range ((a % k + n + k - 1) / k)).map fun i =>
    let lo := max a ((a / k + i) * k)
    (lo, min (a + n) ((a / k + i + 1) * k) - lo)

/-- n bytes at a key by aligned blocks of k bytes, each part a value that the location has held since an index. -/
def readIn (k : Nat) (s : State) (from_ place key n : Nat) : List Byte :=
  (partsIn k key n).flatMap fun p => readSince s from_ s.free place p.1 p.2

/-- n bytes at a key as one access returns them, by aligned 8-byte words, each a value that the location has held since
an index (07 R169, 09 R210). -/
def readParts : State → Nat → Nat → Nat → Nat → List Byte := readIn 8

/-- Whether the page of a virtual address has WR = 0, so that a replicate load may use a copy (08 R204). -/
def readOnlyPage (s : State) (ctx die va : Nat) : Bool :=
  match leafFor s (ctxOf s ctx) (asks s die) va with
  | .ok e => !bit e.1 3
  | .error _ => false

/-! ### Spans (engine accesses) -/

/-- The detection by an access of the module to spans of a context that has met uncorrected data (08 R206). -/
def detectSpans (s : State) (ctx : Nat) (kind : TrapKind) (ps : List (Nat × Nat)) : State :=
  if kind = .uncorrected then ps.foldl (fun s p => detectAll s ctx p.2 [p.1]) s else s

/-- A span of bytes cut at 32 KiB page bounds: address and length. -/
def cutPages (va : Nat) : Nat → Nat → List (Nat × Nat)
  | 0, _ => []
  | fuel + 1, n =>
    if n = 0 then []
    else
      let k := min n (2 ^ 15 - va % 2 ^ 15)
      (va, k) :: cutPages (va + k) fuel (n - k)

/-- The outcome of an engine's access: what it read; a write held by a migration; a fault at an address. -/
inductive Span (α : Type)
  | ok (x : α)
  | hold
  | fail (kind : TrapKind) (va : Nat)

/-- The keys of a span: for each page piece, its address, its key and its length (08 R192). -/
def spanKeys (s : State) (ctx die : Nat) (need : Need) (tgt : Option Nat) : List (Nat × Nat) → Span (List (Nat × Nat × Nat))
  | [] => .ok []
  | (va, n) :: ps =>
    match translate s ctx (asks s die) va need tgt with
    | .fail k => .fail k va
    | .hold => .hold
    | .key key => match spanKeys s ctx die need tgt ps with
      | .ok r => .ok ((va, key, n) :: r)
      | r => r

/-- The first address of a span's bytes that meets uncorrectable data. -/
def spanBad (s : State) (die : Nat) (ps : List (Nat × Nat × Nat)) (store : Bool) : Option Nat :=
  (ps.find? fun p => meetsBad s p.2.1 p.2.2 store || (!store && meetsCopy s die p.2.1 p.2.2)).map fun p =>
    match (wordsTouched p.2.1 p.2.2).find? fun w => wordBad s w with
    | some w => p.1 + (w - p.2.1)
    | none => p.1

/-- An engine's read of n bytes of a context's virtual memory on pages with a target, with what it leaves behind; `rd` reads
bytes at a key. -/
def spanReadBy (rd : Nat → Nat → List Byte) (s : State) (w : Who) (tgt va n : Nat) : Span (State × List Byte) :=
  if 2 ^ 56 < va + n then .fail .translation va
  else match spanKeys s w.ctx w.die .rd (some tgt) (cutPages va (n / 2 ^ 15 + 2) n) with
    | .fail k a => .fail k a
    | .hold => .hold
    | .ok ps => match spanBad s w.die ps false with
      | some a => .fail .uncorrected a
      | none =>
        let note := fun (s : State) (p : Nat × Nat × Nat) =>
          let s1 := compareData s w p.1 p.2.2 false
          if tgt = 0 then noteRead s1 w p.1 p.2.1 p.2.2 else s1
        .ok (ps.foldl note s, ps.flatMap fun p => rd p.2.1 p.2.2)

/-- The same, of memory as it is now. -/
def spanReadT (s : State) (w : Who) (tgt va n : Nat) : Span (State × List Byte) := spanReadBy (readBytes s.mem) s w tgt va n

def spanRead (s : State) (w : Who) (va n : Nat) : Span (State × List Byte) := spanReadT s w 0 va n

/-- An engine's write of bytes to a context's virtual memory on pages with a target. A discarded team's writes are
performed or not, each by a free choice (16 R391). -/
def spanWriteAs (writer : Writer) (s : State) (w : Who) (tgt va : Nat) (bs : List Byte) : Span State :=
  let n := bs.length
  if 2 ^ 56 < va + n then .fail .translation va
  else match spanKeys s w.ctx w.die .wr (some tgt) (cutPages va (n / 2 ^ 15 + 2) n) with
    | .fail k a => .fail k a
    | .hold => .hold
    | .ok ps => match spanBad s w.die ps true with
      | some a => .fail .uncorrected a
      | none =>
        let one := fun (r : State × List Byte) (p : Nat × Nat × Nat) =>
          let s1 := compareData r.1 w p.1 p.2.2 true
          let bs := r.2.take p.2.2
          let s2 := if w.lost && !Config.performed s.free p.1 then s1
            else if tgt = 0 then agentWriteAs writer s1 w p.1 p.2.1 bs else storeMem s1 p.2.1 bs
          (s2, r.2.drop p.2.2)
        .ok (ps.foldl one (s, bs)).1

def spanWriteT (s : State) (w : Who) (tgt va : Nat) (bs : List Byte) : Span State := spanWriteAs .agent s w tgt va bs

def spanWrite (s : State) (w : Who) (va : Nat) (bs : List Byte) : Span State := spanWriteT s w 0 va bs

/-! ### Landing memory (07 R172–R175) -/

def landRead (T : Team) (off n : Nat) : List Byte := tspan 0 T.landing off n

def landNat (T : Team) (off n : Nat) : Nat := leNat (landRead T off n)

/-- Whether n bytes from an offset lie within the team's landing memory. -/
def inLanding (T : Team) (off n : Nat) : Bool := decide (off + n ≤ T.lsz)

/-- A landing offset of a record that is misplaced. -/
def recordBad (T : Team) (off n : Nat) : Bool := off % 8 != 0 || !inLanding T off n

/-- Whether a landing access meets uncorrectable data. -/
def landMeetsBad (T : Team) (off n : Nat) (store : Bool) : Bool :=
  (wordsTouched off n).any fun w =>
    T.landBad.contains w && !(store && decide (off ≤ w) && decide (w + 8 ≤ off + n))

/-- Landing memory after a write. -/
def landPut (T : Team) (off : Nat) (bs : List Byte) : Team :=
  { T with landing := tblit 0 T.landing off bs,
           landBad := T.landBad.filter fun w => !(decide (off ≤ w) && decide (w + 8 ≤ off + bs.length)) }

/-- Landing memory in place after a write, with what it overwrites in the history. -/
def putLand (s : State) (t off : Nat) (bs : List Byte) : State :=
  modTeam { s with past := pastWith s .agent (landPast t off) (landRead (teamOf s t) off bs.length) bs } t fun T => landPut T off bs

/-- The place of a landing offset behind an entry's target, in the save area. -/
def landVa (d : Div) (off : Nat) : Nat := d.target + (off - 4096 * d.first)

/-- A write to bytes of one granule, routed (16 R386). -/
def landPart (t : Nat) (s : State) (x : Nat × List Byte) : State :=
  match route s t 0 0 (x.1 / 4096) with
  | .inPlace => putLand s t x.1 x.2
  | .toSave d => saveWrite s (teamOf s t).ctx (landVa d x.1) x.2
  | .held e => holdWrite s t e (.land x.1 x.2)
  | .discard => s

/-- A write to a team's landing memory by any agent (16 R386). -/
def landWrite (s : State) (t off : Nat) (bs : List Byte) : State :=
  let T := teamOf s t
  if T.away == .present && (coreOf s (teamCore T)).divs.isEmpty then putLand s t off bs
  else (cutAt 4096 (bs.length + 1) off bs).foldl (landPart t) s

/-- The entry behind which the save area holds a granule or a tile that an engine reads (16 R386). -/
def savedBehind (s : State) (t kind u : Nat) : Option Div :=
  match divAt s t kind 0 u with
  | some (_, d) => if (d.state == 0 && decide (u < d.cur)) || d.state == 1 || (d.state == 2 && decide (d.cur ≤ u)) then some d else none
  | none => none

/-- A granule as the save area holds it; where the area cannot be read, as it was saved (log entry 64). -/
def seenGranule (s : State) (t : Nat) (T : Team) (u : Nat) : Team :=
  match savedBehind s t 0 u with
  | none => T
  | some d => match saveRead s T.ctx (landVa d (4096 * u)) 4096 with
    | some bs => { T with landing := tblit 0 T.landing (4096 * u) bs,
                          landBad := T.landBad.filter fun w => w / 4096 != u }
    | none => T

/-- A tile as the save area holds it. -/
def seenTile (s : State) (t : Nat) (T : Team) (n : Nat) : Team :=
  match savedBehind s t 3 n with
  | none => T
  | some d => match saveRead s T.ctx (d.target + 24576 * (n - d.first)) 24576 with
    | some bs => { T with tiles := tblit 0 T.tiles (8192 * n) ((List.range 6144).map fun i => BitVec.ofNat 32 (leNat ((bs.drop (4 * i)).take 4))) }
    | none => T

/-- A held write as it will be applied in place, for what reads behind the queue. -/
def seenHeld (T : Team) (w : HeldWrite) : Team :=
  match w with
  | .land off bs => landPut T off bs
  | .tile n ws => { T with tiles := tblit 0 T.tiles (8192 * n) ws }
  | _ => T

/-- A team as its engines see its landing memory and tiles (16 R386): in place, or in the save area. Reads under the
compactor's fence return the old copy (07 R177); with `queue` the hold queues are applied, which is what a
read-modify-write finds. -/
def seen (s : State) (t : Nat) (queue : Bool) : Team :=
  let T := teamOf s t
  let K := coreOf s (teamCore T)
  if K.divs.isEmpty then T
  else
    let T1 := if T.away == .present then T
      else (List.range T.ntiles).foldl (seenTile s t) ((List.range (landGranules T)).foldl (seenGranule s t) T)
    K.divs.foldl (fun T e =>
      if e.2.valid = true ∧ e.2.team = t ∧ (queue ∨ e.2.state ≠ 5) then e.2.held.foldl seenHeld T else T) T1

/-- A number read by an engine for its own update. -/
def landLatest (s : State) (t off n : Nat) : Nat := landNat (seen s t true) off n

/-- Eight bytes of landing memory raised by an engine (10 R259). -/
def landAdd (s : State) (t off x : Nat) : State := landWrite s t off (leBytes (landLatest s t off 8 + x) 8)

/-! ### Arrays in memory -/

/-- Little-endian words of bytes. -/
def words4 : List Byte → List Nat
  | a :: b :: c :: d :: r => leNat [a, b, c, d] :: words4 r
  | _ => []

/-- A list cut into n pieces of length k. -/
def pieces {α : Type} (k : Nat) : Nat → List α → List (List α)
  | 0, _ => []
  | n + 1, l => l.take k :: pieces k n (l.drop k)

/-! ### Tiles (11 R261) -/

/-- A tile's elements by row, as an engine reads them. -/
def tileRead (T : Team) (n : Nat) : List Word := tspan 0 T.tiles (8192 * n) 6144

/-- A tile written whole, routed (11 R274, 16 R386). -/
def tileWrite (s : State) (t n : Nat) (ws : List Word) : State :=
  match route s t 3 0 n with
  | .inPlace => modTeam s t fun T => { T with tiles := tblit 0 T.tiles (8192 * n) ws }
  | .toSave d => saveWrite s (teamOf s t).ctx (d.target + 24576 * (n - d.first)) (ws.flatMap fun w => leBytes w.toNat 4)
  | .held e => holdWrite s t e (.tile n ws)
  | .discard => s

end Sys2Proof.Machine
end

