-- ==== Sys2Proof/Machine/Images.lean ====
section
/-! DEFINITION. The forms in which the control core and the save area hold a core's and a team's state (04 R92, 05 R119,
10 R236, 16 R377, R383–R387), and the reads and writes of a core-state window. -/

namespace Sys2Proof.Machine

/-- The first 32 bytes of a team-image header (16 R383). -/
def teamHeader (T : Team) : Nat :=
  pack [(32, T.x), (32, T.y), (32, T.z), (12, T.queue), (4, T.groups.length - 1), (5, T.nbar), (5, T.ntiles),
    (8, landGranules T), (62, 0), (64, T.pkt)]

/-- A program slot's part of an image: the image, PARAM, CQOFF (16 R383). -/
def slotImage (S : ProgSlot) : List Byte :=
  if S.bound then padTo 4096 (S.image.take 4096) ++ padTo 16 (leBytes S.param 4 ++ leBytes S.cqoff 4) else List.replicate 4112 0

/-- The image of a team, as offsets and bytes (16 R383). It has no place for the tiles' status words, which stay with the team
(11 R263; DESIGN CHOICE, log entry 85). -/
def teamImage (T : Team) : List (Nat × List Byte) :=
  let gs := tvals T.groups
  [(0, padTo 256 (leBytes (teamHeader T) 32)), (imgBlocks, gs.flatMap groupBlock),
   (imgRows T, gs.flatMap fun G => (List.range G.blk).flatMap fun r => (List.range lanes).flatMap fun l =>
      leBytes (tget (0 : Word) G.rows (keyRow (G.rb + r) l)).toNat 4),
   (imgRegShadow T, List.replicate (64 * 400 * gs.length) 0),
   (imgLanding T, tspan 0 T.landing 0 (4096 * landGranules T)),
   (imgBars T, (List.range T.nbar).flatMap fun b => leBytes (barNat (tget {} T.bars b)) 16),
   (imgBarShadow T, List.replicate (16 * T.nbar) 0),
   (imgTiles T, (List.range T.ntiles).flatMap fun n => (tspan 0 T.tiles (8192 * n) 6144).flatMap fun w => leBytes w.toNat 4),
   (imgSlots T, (List.range 4).flatMap fun n => slotImage (tget {} T.slots n)),
   (imgPipe T, padTo 16 (leBytes T.head 2 ++ leBytes T.tail 2 ++ leBytes T.pd 2))]

/-- Program slots and pipeline state written to the image at an address (16 R382 step 3, R383). -/
def saveTail (s : State) (t va : Nat) : State :=
  let T := teamOf s t
  let s1 := saveWrite s T.ctx (va + imgSlots T) ((List.range 4).flatMap fun n => slotImage (tget {} T.slots n))
  saveWrite s1 T.ctx (va + imgPipe T) (padTo 16 (leBytes T.head 2 ++ leBytes T.tail 2 ++ leBytes T.pd 2))

/-- The same in a saved team's image, after an operation has changed them meanwhile (16 R386). -/
def mirrorTail (s : State) (t : Nat) : State :=
  match (teamOf s t).away with
  | .saved va => saveTail s t va
  | .restoring va k => if k < 4 then saveTail s t va else s
  | _ => s

/-! ### Core-state windows (16 R377) -/

/-- Whether a team is in place on a core. -/
def onCore (core : Nat) (T : Team) : Bool := teamCore T == core && !T.ctl && inPlace T

/-- The team in a team slot of a core. -/
def teamInSlot (s : State) (core k : Nat) : Option (Nat × Team) := s.teams.find? fun e => onCore core e.2 && e.2.tslot == k

/-- The group in a group slot of a core: its team's number, its index. -/
def groupInSlot (s : State) (core slot gslot : Nat) : Option (Nat × Nat × Group) :=
  s.teams.findSome? fun e =>
    if onCore core e.2 then
      (e.2.groups.find? fun x => x.2.slot == slot && x.2.gslot == gslot).map fun x => (e.1, x.1, x.2)
    else none

/-- The team that holds a tile of a cluster's engine, and which of its tiles that is. -/
def tileHolder (s : State) (cluster n : Nat) : Option (Nat × Nat) :=
  s.teams.findSome? fun e =>
    if teamCluster e.2 == cluster && !e.2.ctl && inPlace e.2 then
      (e.2.tileNums.findIdx? fun x => x == n).map fun i => (e.1, i)
    else none

/-- The records of a core-state window; a group block is cut into its path entries, its frame states, its drain port, TACT,
its held traps, and the rest. -/
inductive Unit_
  | trap
  | path (slot gslot p : Nat)
  | frame (slot gslot p : Nat)
  | drain (slot gslot : Nat)
  | tact (slot gslot : Nat)
  | ptrap (slot gslot k : Nat)
  | group (slot gslot : Nat)
  | team (k : Nat)
  | bar (k b : Nat)
  | bank (k : Nat)
  | div (e : Nat)
  | tile (n : Nat)
  | none
  deriving DecidableEq, Repr

/-- The record that byte i of a group block belongs to, with the byte's place in it. -/
def groupUnit (a b i : Nat) : Unit_ × Nat :=
  if i < 512 then (.path a b (i / 64), i % 64)
  else if i < 576 then (.frame a b ((i - 512) / 8), i % 8)
  else if 960 ≤ i ∧ i < 964 then (.drain a b, i - 960)
  else if 1068 ≤ i ∧ i < 1072 then (.tact a b, i - 1068)
  else if 1088 ≤ i ∧ i < 1600 then (.ptrap a b ((i - 1088) / 64), i % 64)
  else (.group a b, i)

/-- The record that a byte of a window belongs to, with the byte's place in it (16 R377). -/
def windowUnit (off : Nat) : Unit_ × Nat :=
  if off < 64 then (.trap, off)
  else if off < 0x800 then (.none, 0)
  else if off < 0x10800 then
    let k := (off - 0x800) / 2048
    groupUnit (k / 8) (k % 8) ((off - 0x800) % 2048)
  else if off < 0x10900 then (.team ((off - 0x10800) / 32), off % 32)
  else if off < 0x11100 then
    let k := (off - 0x10900) / 16
    (.bar (k / 16) (k % 16), off % 16)
  else if off < 0x11120 then (.bank ((off - 0x11100) / 16), off % 16)
  else if off < 0x11200 then (.none, 0)
  else if off < 0x11A00 then (.div ((off - 0x11200) / 32), off % 32)
  else if off < 0x11A40 then (.tile ((off - 0x11A00) / 4), off % 4)
  else (.none, 0)

/-- Byte i of a number. -/
def byteOf (x i : Nat) : Byte := BitVec.ofNat 8 (x / 256 ^ i)

/-- A number with byte i replaced. -/
def setByte (x i : Nat) (b : Byte) : Nat := setBits x (8 * i + 7) (8 * i) b.toNat

/-- A record of a core's window as it reads; an empty slot reads zero. -/
def windowNum (s : State) (core : Nat) (u : Unit_) : Nat :=
  let K := coreOf s core
  let inGroup := fun (a b : Nat) (f : Group → Nat) => match groupInSlot s core a b with
    | some (_, _, G) => f G
    | Option.none => 0
  match u with
  | .trap => leNat (trapBytes K.trap)
  | .path a b p => inGroup a b fun G => pathNat (tget {} G.paths p)
  | .frame a b p => inGroup a b fun G => frameNat (tget {} G.paths p)
  | .drain a b => inGroup a b fun G => drainNat G.drain
  | .tact a b => inGroup a b fun G => G.tregs.tact.toNat
  | .ptrap a b k => inGroup a b fun G => match G.ptrap[k]? with
    | some h => leNat (trapBytes h.tr)
    | Option.none => 0
  | .group a b => inGroup a b fun G => leNat (groupBlock G)
  | .team k => match teamInSlot s core k with
    | some (_, T) => teamHeader T
    | Option.none => 0
  | .bar k b => match teamInSlot s core k with
    | some (_, T) => if b < T.nbar then barNat (tget {} T.bars b) else 0
    | Option.none => 0
  | .bank k => bankNat (tget {} K.banks k)
  | .div e => divNat (tfind K.divs e)
  | .tile n => match tileHolder s (core / 4) n with
    | some (t, k) => tget 0 (teamOf s t).tstat k
    | Option.none => 0
  | .none => 0

/-- A byte of a core's window as it reads. -/
def windowByte (s : State) (core off : Nat) : Byte :=
  let u := windowUnit off
  byteOf (windowNum s core u.1) u.2

/-- n bytes of a die's windows from an offset. -/
def windowRead (s : State) (die off n : Nat) : List Byte :=
  (List.range n).map fun i => windowByte s (die * 320 + (off + i) / 0x20000) ((off + i) % 0x20000)

/-- A group with a record of its block set; only the FW fields and TACT take a write. -/
def groupPut (ph : Nat → Nat) (u : Unit_) (x : Nat) (G : Group) : Group :=
  match u with
  | .path _ _ p => setPathG G p (pathSet G.present ph (tget {} G.paths p) x)
  | .frame _ _ p => setPathG G p (frameSet (tget {} G.paths p) x)
  | .drain _ _ => { G with drain := drainSet G.drain x }
  | .tact _ _ => { G with tregs := { G.tregs with tact := G.tregs.tact && !bit x 0 } }
  | .ptrap _ _ k => { G with ptrap := G.ptrap.mapIdx fun j h => if j = k then { h with tr := trapOfNat x } else h }
  | _ => G

/-- A record of a core's window written. -/
def windowPut (s : State) (core : Nat) (u : Unit_) (x : Nat) : State :=
  let inGroup := fun (a b : Nat) => match groupInSlot s core a b with
    | some (t, g, _) => modGroup s t g (groupPut (fun b => (tget ({} : Bar) (teamOf s t).bars b).ph) u x)
    | Option.none => s
  match u with
  | .trap => modCore s core fun K => { K with trap := trapOfNat x }
  | .path a b _ | .frame a b _ | .drain a b | .tact a b | .ptrap a b _ | .group a b => inGroup a b
  | .bar k n => match teamInSlot s core k with
    | some (t, T) =>
      if n < T.nbar then modTeam s t fun T => { T with bars := tput T.bars n (barSet (tget {} T.bars n) x) } else s
    | Option.none => s
  | .bank k => modCore s core fun K => { K with banks := tput K.banks k (bankSet (tget {} K.banks k) x) }
  | .div e => modCore s core fun K =>
      { K with divs := match divSet (tfind K.divs e) x with
          | some D => tput K.divs e D
          | Option.none => tdel K.divs e }
  | .tile n => match tileHolder s (core / 4) n with
    | some (t, k) => modTeam s t fun T => { T with tstat := tput T.tstat k (x % 2 ^ 3 + bits x 31 16 * 2 ^ 16) }
    | Option.none => s
  | .team _ | .none => s

/-- The bytes of a write that fall into the record of its first byte, set in a number; TACT is written by ones, so a byte
that is not written writes zeros. -/
def putBytes (u : Unit_) : Nat → Nat → List Byte → Nat × Nat
  | x, _, [] => (x, 0)
  | x, off, b :: bs =>
    let v := windowUnit off
    if v.1 = u ∧ off < 0x20000 then
      let r := putBytes u (setByte x v.2 b) (off + 1) bs
      (r.1, r.2 + 1)
    else (x, 0)

/-- Bytes written to a die's windows, each record at once: only a frozen core's fields take them, but where a scan writes
(16 R377, 19 R434). -/
def windowGo (s : State) (scan : Bool) (die : Nat) : Nat → Nat → List Byte → State
  | 0, _, _ => s
  | fuel + 1, off, bs =>
    if bs.isEmpty then s
    else
      let core := die * 320 + off / 0x20000
      let u := (windowUnit (off % 0x20000)).1
      let old := match u with
        | .tact _ _ => 0
        | _ => windowNum s core u
      let r := putBytes u old (off % 0x20000) bs
      windowGo (if scan || (coreOf s core).frozen then windowPut s core u r.1 else s) scan die fuel (off + r.2) (bs.drop r.2)

def windowWrite (s : State) (die off : Nat) (bs : List Byte) : State := windowGo s false die bs.length off bs

end Sys2Proof.Machine
end

