-- ==== Sys2Proof/Machine/Memory.lean ====
section
/-! DEFINITION. Loads and stores of the six spaces, PFG and CCTL (07 R165–R188): their issue, and the performance of
the operations of a MEM queue (09 R208–R213). -/

namespace Sys2Proof.Machine

/-- What distinguishes a load or store word (07 R165, R182). -/
structure MemSpec where
  sp : Space
  store : Bool
  order : Bool := false
  disp : Nat := 0
  repl : Bool := false
  ack : Bool := false

def isConst : Space → Bool
  | .const _ => true
  | _ => false

/-- Registers of the address operand (07 R167). -/
def addrRegs (sp : Space) : Nat :=
  match sp with
  | .landing | .priv | .const _ => 1
  | _ => 2

/-- The page target that a space requires (07 R181). -/
def spaceTgt (sp : Space) : Option Nat :=
  match sp with
  | .peer => some 1
  | .host => some 2
  | _ => some 0

/-- The checks of 07 R166, R167 on a load or store. -/
def memChk (k : MemSpec) (d a : Operand) (P : Path) : Chk :=
  { uses := [{ op := d, n := tyRegs P.gm.type, src := k.store, dst := !k.store }, { op := a, n := addrRegs k.sp }],
    opBad := a == .lane || a == .drain || (isConst k.sp && !isUniform a) || (!k.store && isScalar d && !isUniform a),
    modeBad := P.gm.type == .e2m1 }

/-- The address or offset that a lane forms (07 R165). -/
def memAddr (c : Iss) (k : MemSpec) (a : Operand) (l : Nat) : Nat :=
  match k.sp with
  | .landing | .priv => rd c a 0 l + k.disp * tyBytes c.P.gm.type
  | .const _ => rd c a 0 l
  | _ => pairOf c a l

/-- The address that a trap of an access names: virtual but for landing memory (16 R372). -/
def memVa (T : Team) (G : Group) (sp : Space) (x : Nat) : Nat :=
  match sp with
  | .priv => G.privBase + x
  | .const k => (T.banks.getD k {}).base + x
  | _ => x

/-- Whether an access of e bytes reaches the granule that the compactor copies, with or without a fence (07 R177). -/
def inCopied (T : Team) (fenced : Bool) (off e : Nat) : Bool :=
  match T.moving with
  | none => false
  | some M => M.fenced == fenced && decide (0 < M.left) && decide (off < 4096 * (M.granule + 1)) && decide (4096 * M.granule < off + e)

/-- Landing lanes that are switched off (07 R168, R175, R177). -/
def landOff (c : Iss) (sp : Space) (e : Nat) (x : Nat → Nat) : Mask :=
  if sp = .landing then
    lanesWhere c.act fun l => x l % e != 0 || decide (c.T.lsz < x l + e) || inCopied c.T false (x l) e
  else 0

/-- Columns 1 and 2 of 07 R168 on the remaining lanes. -/
def columns12 (c : Iss) (sp : Space) (e : Nat) (x : Nat → Nat) (rest : Mask) : Option (TrapKind × Mask) :=
  let odd := if sp = .landing then 0 else lanesWhere rest fun l => x l % e != 0
  if odd != 0 then some (.misaligned, odd)
  else
    let out := match sp with
      | .landing | .const _ => 0
      | .priv => lanesWhere rest fun l => decide (c.T.psz < x l + e)
      | _ => lanesWhere rest fun l => decide (2 ^ 56 ≤ x l)
    if out != 0 then some (if sp = .priv then .permission else .translation, out) else none

/-- Switch-offs and columns 1 and 2 of an access, then `go` with the remaining lanes. -/
def memEnter (c : Iss) (sp : Space) (e : Nat) (x : Nat → Nat) (go : State → Mask → Eff) : Eff :=
  let off := landOff c sp e x
  let rest := c.act &&& ~~~off
  if sp = .landing && (lanesOf rest).any fun l => inCopied c.T true (x l) e then .stall
  else match columns12 c sp e x rest with
  | some (k, m) => .trap k m (memVa c.T c.G sp (x ((lowLane m).getD 0))) 0
  | none =>
    let s1 := if off == 0 then c.s else modGroup c.s c.t c.g fun G => switchOff G c.p off
    if rest == 0 then .adv s1 else go s1 rest

/-- The lanes whose access is performed: one for a scalar destination (07 R167). -/
def accLanes (d : Operand) (m : Mask) : List Nat := if isScalar d then (lanesOf m).take 1 else lanesOf m

/-- The data comparators at the lanes' accesses (18 R417); landing offsets are no virtual addresses. -/
def compareLanes (s : State) (c : Iss) (sp : Space) (e : Nat) (xs : List Nat) (wr : Bool) : State :=
  if sp = .landing then s
  else xs.foldl (fun s x => compareData s (whoOf c.T c.G c.P.pc false) (memVa c.T c.G sp x) e wr) s

/-- The issue of a load or store (07 R186). -/
def memIssue (c : Iss) (look : Nat) (k : MemSpec) (d a : Operand) : Eff :=
  let t := c.P.gm.type
  let e := tyBytes t
  let x := memAddr c k a
  if c.act == 0 then .adv c.s
  else if pendFull c look (!k.store && d != .zero) then .stall
  else memEnter c k.sp e x fun s rest =>
    if k.store then
      let accs := (lanesOf rest).map fun l => ({ lane := l, addr := x l, v := tyElem c t d l } : Acc)
      let s1 := compareLanes s c k.sp e (accs.map (·.addr)) true
      .adv (post { c with act := rest } s1 look { memq := true, work := .store k.sp t k.order accs, ack := k.ack })
    else
      let accs := (accLanes d rest).map fun l => ({ lane := l, addr := x l } : Acc)
      let s1 := compareLanes s c k.sp e (accs.map (·.addr)) false
      let keys := accs.flatMap fun q => dstKeys c.P d (tyRegs t) q.lane
      .adv (post { c with act := rest } s1 look
        { memq := true, work := .load k.sp t k.order accs (isScalar d), keys := keys, regs := !keys.isEmpty, repl := k.repl })

/-- A load or store word. -/
def memWord (i : Instr) (look : Nat) (k : MemSpec) (d a : Operand) (s : State) : Host.Outcome State Fault Refusal :=
  issueWord i (fun _ _ P => memChk k d a P) (fun c => memIssue c look k d a) s

def execLdl (look disp : Nat) (d a : Operand) (s : State) :=
  memWord (.ldl look disp d a) look { sp := .landing, store := false, disp := disp } d a s
def execStl (look disp : Nat) (d a : Operand) (s : State) :=
  memWord (.stl look disp d a) look { sp := .landing, store := true, disp := disp } d a s
def execLdp (look disp : Nat) (d a : Operand) (s : State) :=
  memWord (.ldp look disp d a) look { sp := .priv, store := false, disp := disp } d a s
def execStp (look disp : Nat) (d a : Operand) (s : State) :=
  memWord (.stp look disp d a) look { sp := .priv, store := true, disp := disp } d a s
def execLdk (look bank : Nat) (d a : Operand) (s : State) :=
  memWord (.ldk look bank d a) look { sp := .const bank, store := false } d a s

/-- LDG. The cache policy changes time only, but for a replicate load (07 R183, 08 R204). -/
def execLdg (look : Nat) (acq : Bool) (cache : CachePol) (d a : Operand) (s : State) :=
  memWord (.ldg look acq cache d a) look { sp := .global, store := false, order := acq, repl := cache == .replicate } d a s
def execStg (look : Nat) (rel : Bool) (cache : CachePol) (d a : Operand) (s : State) :=
  memWord (.stg look rel cache d a) look { sp := .global, store := true, order := rel } d a s
def execLdn (look : Nat) (acq na : Bool) (d a : Operand) (s : State) :=
  memWord (.ldn look acq na d a) look { sp := .peer, store := false, order := acq } d a s
def execStn (look : Nat) (rel ack : Bool) (d a : Operand) (s : State) :=
  memWord (.stn look rel ack d a) look { sp := .peer, store := true, order := rel, ack := ack } d a s
def execLdh (look : Nat) (acq nosnoop rlx : Bool) (d a : Operand) (s : State) :=
  memWord (.ldh look acq nosnoop rlx d a) look { sp := .host, store := false, order := acq } d a s
def execSth (look : Nat) (rel nosnoop rlx : Bool) (d a : Operand) (s : State) :=
  memWord (.sth look rel nosnoop rlx d a) look { sp := .host, store := true, order := rel } d a s

/-! ### PFG and CCTL -/

/-- The blocks of a size, once each, that lanes of a PFG name: lines, or the 2 MiB regions of their lines (07 R187, 08 R196). -/
def pfgBlocks (c : Iss) (a : Operand) (size : Nat) : List Nat :=
  ((lanesOf c.act).filterMap fun l => match translate c.s c.T.ctx (asks c.s c.T.die) (pairOf c a l) .rd (some 0) with
    | .key k => if meetsBad c.s k 1 false then none else some (k / size)
    | _ => none).eraseDups

/-- PFG never traps. A fetched line fills the home L2 or is found there; the tier level counts its region (07 R187). -/
def execPfg (look level : Nat) (a : Operand) (s : State) : Host.Outcome State Fault Refusal :=
  issueWord (.pfg look level a) (fun _ _ _ => { uses := [{ op := a, n := 2 }] })
    (fun c =>
      if level ≠ 2 then .adv ((pfgBlocks c a 128).foldl (fun s l => fillLine s (l * 128)) c.s)
      else .adv ((pfgBlocks c a (2 ^ 21)).foldl (fun s r => heat s (r * 2 ^ 21)) c.s)) s

def execCctl (look : Nat) (op : CctlOp) (a : Operand) (s : State) : Host.Outcome State Fault Refusal :=
  issueWord (.cctl look op a)
    (fun _ _ _ => { uses := [{ op := a, n := 2 }], opBad := op != .lineinv && a != .zero })
    (fun c =>
      if c.act == 0 then .adv c.s
      else if pendFull c look false then .stall
      else
        let x := pairOf c a
        let out := if op = .lineinv then lanesWhere c.act fun l => decide (2 ^ 56 ≤ x l) else 0
        if out != 0 then .trap .translation out (x ((lowLane out).getD 0)) 0
        else
          let accs := if op = .lineinv then (lanesOf c.act).map fun l => ({ lane := l, addr := x l } : Acc) else []
          .adv (post c c.s look { memq := true, work := .cctl op accs })) s

/-! ### The performance of MEM operations -/

/-- Whether an operation of a group's MEM queue may be performed: the earlier ones have been, the first reads of earlier
WAITADDRs have been made, and no QFENCE that names the queue is before it (09 R208, R220). -/
def memReady (G : Group) (id : Nat) : Bool :=
  (G.pend.all fun o => decide (id ≤ o.id) || !memAhead o) && !(G.paths.any fun e => unread id e.2)

/-- Whether the work of a MEM operation is an acquire. -/
def isAcquire (w : Work) : Bool :=
  match w with
  | .load _ _ acq _ _ => acq
  | .atomic _ _ _ acq _ _ _ => acq
  | .fence acq _ => acq
  | _ => false

/-- What a group has posted to some queues after operation `id` reads nothing older than now: it is ordered after that
operation (09 R212, R220). -/
def freshen (s : State) (t g id : Nat) (queue : Nat → Bool) : State :=
  let now := pastNow s
  modTeam s t fun T =>
    { T with groups := tmod T.groups g fun G =>
               { G with pend := G.pend.map fun (q : Pending) => if q.memq && queue 0 && decide (id < q.id) then { q with born := now } else q },
             copies := T.copies.map fun (C : Copy) =>
               { C with slices := C.slices.map fun (x : Slice) =>
                          if queue 1 && x.g == g && decide (id < x.id) then { x with born := now } else x },
             csums := T.csums.map fun (k : Csum) => if queue 1 && k.g == g && decide (id < k.id) then { k with born := now } else k,
             mops := T.mops.map fun (m : MOp) => if queue 2 && m.g == g && decide (id < m.id) then { m with born := now } else m }

/-- The lines of a die's remote-data cache that an acquire at a scope invalidates (08 R202). -/
def dropCopies (s : State) (die : Nat) (sc : Scope) : State :=
  let gone := fun (key : Nat) => match sc with
    | .module => decide (key < 2 ^ 60)
    | .domain | .system => decide (key < 2 ^ 60) || decide (2 ^ 61 ≤ key)
    | _ => false
  { s with copyBad := s.copyBad.filter fun c => !(c.1 == die && gone c.2) }

/-- What follows an acquire of a group reads nothing older than the acquire's end. -/
def acquired (s : State) (t g id : Nat) : State :=
  match (groupOf s t g).pend.find? fun o => o.id == id && isAcquire o.work with
  | some o => freshen (dropCopies s (teamOf s t).die o.scope) t g id fun _ => true
  | none => s

/-- The operation is performed with its results, register by register in the order of its keys. A peer store has been
acknowledged by its home, unless a part of it was lost (19 R427). -/
def doneOp (s : State) (t g id : Nat) (res : List (Nat × Word)) : State :=
  let s1 := modGroup (acquired s t g id) t g fun G =>
    { G with since := tput G.since 0 (pastNow s),
             pend := G.pend.map fun (o : Pending) =>
               if o.id == id then { o with performed := true, ack := o.noAck, res := res } else o }
  { s1 with free := s1.free + 1 }

/-- One of the accesses of an operation performed, with its value of n registers; `work` is what is left, none where it was
the last. -/
def doneLane (s : State) (t g : Nat) (o : Pending) (n v : Nat) (work : Option Work) : State :=
  let res := o.res ++ (o.keys.drop o.res.length).zip ((List.range n).map fun j => regPart v j)
  match work with
  | none => doneOp s t g o.id res
  | some w =>
    let s1 := modGroup s t g fun G =>
      { G with pend := G.pend.map fun (q : Pending) => if q.id == o.id then { q with work := w, res := res } else q }
    { s1 with free := s1.free + 1 }

/-- The registers of an operation's destination with the values of its accesses, n registers each. -/
def resOf (keys : List Nat) (n : Nat) (vals : List Nat) : List (Nat × Word) :=
  keys.zip (vals.flatMap fun v => (List.range n).map fun j => regPart v j)

/-- The lanes a trap names: all of a single access's lanes, or those that failed. -/
def failLanes (o : Pending) (uni : Bool) (m : Mask) : Mask := if uni then o.lanes else m

/-- Landing accesses that meet uncorrectable data. -/
def landFails (T : Team) (accs : List Acc) (e : Nat) (store : Bool) : List (Nat × Nat × TrapKind) :=
  accs.filterMap fun a => if landMeetsBad T a.addr e store then some (a.lane, a.addr, TrapKind.uncorrected) else none

/-- The pieces that a load translates: 4-byte words of a constant bank within its length, else the whole element. -/
def loadPieces (T : Team) (G : Group) (sp : Space) (e : Nat) (accs : List Acc) : List (Nat × Nat) :=
  match sp with
  | .const k =>
    let B := T.banks.getD k {}
    accs.flatMap fun a =>
      if B.len < a.addr + e then []
      else (List.range ((e + 3) / 4)).map fun j => (a.lane, B.base + a.addr + 4 * j)
  | _ => accs.map fun a => (a.lane, memVa T G sp a.addr)

/-- The index of the history from which on a read of an operation may be fixed: the earlier operations of its queue have been
performed, and it has issued (07 R169, 09 R208, R213). -/
def readFrom (G : Group) (o : Pending) : Nat := max o.born (tget 0 G.since 0)

/-- n bytes of a slot table or of a data area, each 8-byte part as it was before a slot operation or as it is (12 R290). -/
def slotRead (s : State) (place key n : Nat) : List Byte :=
  let part := fun (i m : Nat) =>
    let l := pastNow s :: slotTimes s (key + i)
    readBytes (memAt s (l.getD (Config.readAt s.free place (key + i) % l.length) (pastNow s))) (key + i) m
  if n ≤ 8 then part 0 n else (List.range (n / 8)).flatMap fun i => part (8 * i) 8

/-- Whether a byte of a context's memory lies in its slot table or in the data area of a bound slot (12 R288–R290). -/
def slotArea (s : State) (ctx va : Nat) : Bool :=
  let C := ctxOf s ctx
  (decide (C.ctbase ≤ va) && decide (va < C.ctbase + 2 ^ 15)) || (watchedSlots C).any fun n =>
    match whereIs s ctx (C.ctbase + 128 * n) with
    | none => false
    | some k =>
      let e := readNat s.mem k 128
      bit e 0 && decide (bits e 439 384 ≤ va) && decide (va < bits e 439 384 + 24576 * (bits e 11 8 + 2))

/-- One piece of a load: a constant bank's word as it has been at some time since the launch began, the same in every lane
(07 R169, R180); a replicate load's likewise (08 R204); any other as it is at some time before its performance, or as a
coppice slot held it (12 R290). A control core also sees its die's core-state windows (16 R377). -/
def loadPiece (s : State) (T : Team) (G : Group) (o : Pending) (sp : Space) (lane va key n : Nat) : List Byte :=
  if T.ctl && decide (2 ^ 62 ≤ key) then windowRead s T.die (key - windowKey T.die 0) n
  else if isConst sp then readParts s T.began 0 key n
  else if o.repl && readOnlyPage s T.ctx T.die va then readParts s T.began lane key n
  else if !(slotTimes s key).isEmpty && slotArea s T.ctx va then slotRead s lane key n
  else readParts s (readFrom G o) lane key n

def performLoad (s : State) (t g : Nat) (o : Pending) (sp : Space) (ty : Ty) (accs : List Acc) (uni : Bool) : State :=
  let T := if sp = .landing then seen s t true else teamOf s t
  let G := groupOf s t g
  let e := tyBytes ty
  let fin := fun (s : State) (f : Acc → Nat) =>
    doneOp s t g o.id (resOf o.keys (tyRegs ty) (accs.map fun a => extendElem ty (f a)))
  if sp = .landing then
    match columnTrap (landFails T accs e false) with
    | some (k, m, a) => trapPending s t g o k (failLanes o uni m) a
    | none => fin s fun a => landNat T a.addr e
  else
    let ps := loadPieces T G sp e accs
    let n := if isConst sp then min e 4 else e
    match translateLanes s T.ctx T.die o.scope ps n .rd (spaceTgt sp) false with
    | .hold => s
    | .fail k m a => trapPending s t g o k (failLanes o uni m) a
    | .ok keys =>
      let w := whoOf T G o.pc false
      let s1 := (ps.zip keys).foldl (fun s x => noteRead s w x.1.2 x.2.2 n) s
      let xs := (ps.zip keys).map fun x => (x.1.1, loadPiece s T G o sp x.1.1 x.1.2 x.2.2 n)
      fin s1 fun a => leNat ((xs.filter fun x => x.1 == a.lane).flatMap (·.2))

/-- What a release at system scope leaves: no write is posted since it (09 R226). -/
def releaseOp (s : State) (t g : Nat) (sc : Scope) (on : Bool) : State :=
  if on && sc == .system then modGroup s t g fun G => { G with posted := [] } else s

/-- The last write posted on a host port (09 R226). -/
def notePosted (s : State) (t g key : Nat) : State :=
  if key < 2 ^ 60 ∨ 2 ^ 61 ≤ key then s
  else modGroup s t g fun G => { G with posted := tput G.posted ((key - 2 ^ 60) / 2 ^ 57) key }

/-- One lane's store. -/
def storeLane (s : State) (t g : Nat) (w : Who) (sp : Space) (e : Nat) (va key v : Nat) : State :=
  let bs := leBytes v e
  if 2 ^ 62 ≤ key then windowWrite s (teamOf s t).die (key - windowKey (teamOf s t).die 0) bs
  else if sp = .global then agentWrite s w va key bs
  else notePosted (mendCopy (storeMem (noteRead s w va key e) key bs) w.die key e) t g key

def performStore (s : State) (t g : Nat) (o : Pending) (sp : Space) (ty : Ty) (rel : Bool) (accs : List Acc) : State :=
  let T := teamOf s t
  let G := groupOf s t g
  let e := tyBytes ty
  let s0 := releaseOp s t g o.scope rel
  let chosen := fun (bad : Mask) (l : Nat) => !bad.getLsbD l && Config.performed s.free l
  if sp = .landing then
    match columnTrap (landFails T accs e true) with
    | some (k, m, a) =>
      let s1 := accs.foldl (fun s q => if chosen m q.lane then landWrite s t q.addr (leBytes q.v e) else s) s0
      trapPending s1 t g o k m a
    | none => doneOp (accs.foldl (fun s q => landWrite s t q.addr (leBytes q.v e)) s0) t g o.id []
  else
    let ps := accs.map fun a => (a.lane, memVa T G sp a.addr)
    match translateCol3 s T.ctx T.die ps .wr (spaceTgt sp) with
    | .hold => s
    | .fail k m a => trapPending s t g o k m a
    | .ok keys =>
      let w := whoOf T G o.pc false
      let xs := (accs.zip ps).zip keys
      let put := fun (s : State) (x : (Acc × Nat × Nat) × Nat × Nat) => storeLane s t g w sp e x.1.2.2 x.2.2 x.1.1.v
      match columnTrap (col4 s T.die o.scope ps keys e true) with
      | some (k, m, a) =>
        trapPending (xs.foldl (fun s x => if chosen m x.1.1.lane then put s x else s) s0) t g o k m a
      | none => doneOp (xs.foldl put s0) t g o.id []

/-- CCTL: after iinv the group's fetches see every code store so far; vcinv drops the core's volume cache; the other
operations change time only (07 R188, 02 R51, 08 R200). -/
def performCctl (s : State) (t g : Nat) (o : Pending) (op : CctlOp) (accs : List Acc) : State :=
  match op with
  | .iinv => doneOp (modGroup s t g fun G => { G with icode := s.mem }) t g o.id []
  | .vcinv => doneOp (modCore s (teamCore (teamOf s t)) fun K => { K with vcAt := pastNow s }) t g o.id []
  | .lineinv =>
    match translateCol3 s (teamOf s t).ctx (teamOf s t).die (accs.map fun a => (a.lane, a.addr)) .rd none with
    | .hold => s
    | .fail k m a => trapPending s t g o k m a
    | .ok keys =>
      let gone := fun (c : Nat × Nat) => c.1 == (teamOf s t).die && keys.any fun k => k.2 / 128 == c.2 / 128
      doneOp { s with copyBad := s.copyBad.filter fun c => !gone c } t g o.id []
  | .rdcinv => doneOp { s with copyBad := s.copyBad.filter fun c => c.1 != (teamOf s t).die } t g o.id []
  | _ => doneOp s t g o.id []

end Sys2Proof.Machine
end

