-- ==== Sys2Proof/Machine/Queues.lean ====
section
/-! DEFINITION. Hardware queues (15 R353–R357): the accesses of a queue processor, and QPUT, which a group performs
(15 R366). -/

namespace Sys2Proof.Machine

def queueOf (s : State) (q : Nat) : Queue := tget {} s.queues q
def modQueue (s : State) (q : Nat) (f : Queue → Queue) : State := { s with queues := tmod s.queues q f }

/-! ### Accesses at system scope -/

/-- n bytes of a context's memory, within one page, as a number. -/
def sysRead (s : State) (ctx va n : Nat) (need : Need) : Span (State × Nat) :=
  match translate s ctx (asks s ioDie) va need none with
  | .fail k => .fail k va
  | .hold => .hold
  | .key k =>
    if meetsBad s k n false then .fail .uncorrected va
    else .ok (readCaptured s ctx va k n, readNat s.mem k n)

/-- Bytes written to a context's memory, within one page. -/
def sysWrite (s : State) (ctx va : Nat) (bs : List Byte) : Span State :=
  match translate s ctx (asks s ioDie) va .wr none with
  | .fail k => .fail k va
  | .hold => .hold
  | .key k =>
    if meetsBad s k bs.length true then .fail .uncorrected va
    else .ok (storeCaptured s ctx va k bs)

/-- One atomic step on a 64-bit word. -/
def sysAtomic (s : State) (ctx va : Nat) (f : Nat → Nat) : Span State :=
  match sysRead s ctx va 8 .rw with
  | .ok r => sysWrite r.1 ctx va (leBytes (f r.2 % 2 ^ 64) 8)
  | .hold => .hold
  | .fail k a => .fail k a

/-- The virtual address of a ring's slot for packet i (15 R354). -/
def slotAddr (Q : Queue) (i : Nat) : Nat := Q.ring + 64 * (i % 2 ^ Q.capl)

/-- TYPE, ACQ and REL that every packet header may hold (15 R355). -/
def headerOk (h : Nat) : Bool :=
  decide (1 ≤ bits h 7 0) && decide (bits h 7 0 ≤ 5) && bits h 12 11 != 3 && bits h 14 13 != 3

/-! ### QPUT (15 R366) -/

/-- QPUT's operand a: an even scalar pair. -/
def pairScalBad (a : Operand) : Bool :=
  match a with
  | .s k => k % 2 != 0 || decide (46 < k)
  | _ => true

def execQput (look : Nat) (d a : Operand) (s : State) : Host.Outcome State Fault Refusal :=
  issueWord (.qput look d a)
    (fun _ _ _ => { uses := [{ op := d, src := false, dst := true }, { op := a, n := 2 }],
                    opBad := !isUniform d || pairScalBad a })
    (fun c =>
      let off := rd c a 0 0
      let q := rd c a 1 0
      if c.act == 0 then .adv c.s
      else if off % 64 != 0 || !inLanding c.T off 64 || decide (2 ^ 12 ≤ q) then .trap .reservedOperand c.act 0 0
      else if pendFull c look true then .stall
      else
        let keys := dstKeys c.P d 1 0
        .adv (post c c.s look { memq := true, work := .qput q off none, keys := keys, regs := !keys.isEmpty })) s

/-- The status goes to d. -/
def qputDone (s : State) (t g : Nat) (o : Pending) (status : Nat) : State := doneOp s t g o.id (resOf o.keys 1 [status])

/-- A write of a group's QPUT into the ring. -/
def ringWrite (s : State) (t g : Nat) (o : Pending) (va : Nat) (bs : List Byte) : Span State :=
  let T := teamOf s t
  match translate s T.ctx (asks s T.die) va .wr none with
  | .fail k => .fail k va
  | .hold => .hold
  | .key k =>
    if meetsBad s k bs.length true then .fail .uncorrected va
    else
      let w := whoOf T (groupOf s t g) o.pc false
      let s1 := compareData s w va bs.length true
      if k < deviceTop then .ok (agentWrite s1 w va k bs) else .ok (notePosted (mendCopy (storeMem s1 k bs) T.die k bs.length) t g k)

/-- QPUT from its reservation of slot i on: bytes 8 to 63, the header, the notify register. -/
def qputFill (s : State) (t g : Nat) (o : Pending) (q off i : Nat) : State :=
  let T := seen s t true
  let Q := queueOf s q
  let va := slotAddr Q i
  let img := landRead T off 64
  let o' := { o with work := .qput q off (some i) }
  if landMeetsBad T (off + 8) 56 false then trapOp s t g o' .uncorrected o.lanes off
  else match ringWrite s t g o (va + 8) (img.drop 8) with
  | .hold => modGroup s t g fun G => { G with pend := G.pend.map fun (x : Pending) => if x.id == o.id then o' else x }
  | .fail k a => trapPending s t g o' k o.lanes a
  | .ok s1 =>
    match ringWrite s1 t g o va (leBytes (setBits (leNat (img.take 8)) 63 63 1) 8) with
    | .hold => modGroup s1 t g fun G => { G with pend := G.pend.map fun (x : Pending) => if x.id == o.id then o' else x }
    | .fail k a => trapPending s1 t g o' k o.lanes a
    | .ok s2 => qputDone (modQueue s2 q fun Q => { Q with notified := true }) t g o 0

/-- QPUT: its checks, the release, the reservation, the writes. -/
def performQput (s : State) (t g : Nat) (o : Pending) (q off : Nat) (resv : Option Nat) : State :=
  let T := seen s t true
  let h := landNat T off 8
  match resv with
  | some i => qputFill s t g o q off i
  | none =>
    if landMeetsBad T off 8 false then trapOp s t g o .uncorrected o.lanes off
    else match tfind s.queues q with
    | none => qputDone s t g o 2
    | some Q =>
      if !Q.live || Q.ctx != T.ctx || !Q.devq then qputDone s t g o 2
      else if !headerOk h then qputDone s t g o 3
      else
        let s0 := releaseOp s t g o.scope true
        match sysRead s0 Q.ctx Q.hdr 8 .rd with
        | .hold => s
        | .fail k a => trapPending s0 t g o k o.lanes a
        | .ok r =>
          match sysRead r.1 Q.ctx (Q.hdr + 8) 8 .rw with
          | .hold => s
          | .fail k a => trapPending r.1 t g o k o.lanes a
          | .ok w =>
            if 2 ^ Q.capl ≤ (w.2 + 2 ^ 64 - r.2) % 2 ^ 64 then qputDone w.1 t g o 1
            else match sysWrite w.1 Q.ctx (Q.hdr + 8) (leBytes ((w.2 + 1) % 2 ^ 64) 8) with
              | .hold => s
              | .fail k a => trapPending w.1 t g o k o.lanes a
              | .ok s1 => qputFill s1 t g o q off w.2

end Sys2Proof.Machine
end

