-- ==== Sys2Proof/Machine/Approx.lean ====
section
/-! DEFINITION. Square roots and the transcendental functions as exact values to be rounded once (06 R152, R153).
Square roots are exact or lie strictly between two neighbours of a grid far finer than any format. The transcendental
functions are computed in fixed point with 512 fraction bits; their error is far below the distance that any operand
of a 32-bit or narrower format keeps from a rounding boundary (log entry 8). -/

namespace Sys2Proof.Machine

/-- 2^512, the scale of the fixed-point numbers here. -/
def fxOne : Nat := 2 ^ 512

/-- π in units of 2^−512. -/
def fxPi : Nat :=
  0x3243f6a8885a308d313198a2e03707344a4093822299f31d0082efa98ec4e6c89452821e638d01377be5466cf34e90c6cc0ac29b7c97c50dd3f84d5b5b5470917

/-- ln 2 in units of 2^−512. -/
def fxLn2 : Nat :=
  0xb17217f7d1cf79abc9e3b39803f2f6af40f343267298b62d8a0d175b8baafa2be7b876206debac98559552fb4afa1b10ed2eae35c138214427573b291169b825

/-- n/d in fixed point, rounded down. -/
def toFx (n : Int) (d : Nat) : Int := n * (fxOne : Int) / (d : Int)

def fxMul (a b : Int) : Int := a * b / (fxOne : Int)

/-- Newton's iteration for the integer square root, falling from above. -/
def isqrtGo (n : Nat) : Nat → Nat → Nat
  | 0, x => x
  | fuel + 1, x =>
    let y := (x + n / x) / 2
    if y < x then isqrtGo n fuel y else x

/-- ⌊√n⌋. -/
def isqrt (n : Nat) : Nat := if n = 0 then 0 else isqrtGo n (Nat.log2 n + 8) (2 ^ (Nat.log2 n / 2 + 1))

/-- √(n/d), exact where it is rational, else a value strictly between two grid neighbours 2^−160 apart relatively. -/
def exSqrtRat (n d : Nat) : Ex :=
  let e := ilog2 n d
  let sh : Nat := (320 + (if e < 0 then (-e).toNat else 0)) / 2
  let m := n * d * 4 ^ sh
  let s := isqrt m
  if s * s = m then .fin false s (d * 2 ^ sh) else .fin false (2 * s + 1) (2 * d * 2 ^ sh)

/-- √a (06 R153). -/
def exSqrt : Ex → Ex
  | .nan => .nan
  | .zero s => .zero s
  | .inf s => if s then .nan else .inf false
  | .fin s n d => if s then .nan else exSqrtRat n d

/-- 1/a. -/
def exRcp (a : Ex) : Ex := exDiv (.fin false 1 1) a

/-- 1/√a (06 R153); both zeros give infinities of their sign. -/
def exRsqrt : Ex → Ex
  | .nan => .nan
  | .zero s => .inf s
  | .inf s => if s then .nan else .zero false
  | .fin s n d => if s then .nan else exSqrtRat d n

/-- Σ rᵏ/k! for k from `k` on, given the term before it. -/
def expGo (r : Int) : Nat → Nat → Int → Int → Int
  | 0, _, _, acc => acc
  | fuel + 1, k, term, acc =>
    let t := fxMul term r / (k : Int)
    expGo r fuel (k + 1) t (acc + t)

/-- e^r − 1 for |r| ≤ 1, fixed point. -/
def fxExpm1 (r : Int) : Int := expGo r 110 1 (fxOne : Int) 0

/-- e^(X) for a fixed-point X, as an exact value near it. -/
def exExpFx (x : Int) : Ex :=
  let i := x / (fxLn2 : Int)
  let r := x - i * (fxLn2 : Int)
  exScale (.fin false ((fxOne : Int) + fxExpm1 r).toNat fxOne) i

/-- 2^a (06 R153). -/
def exExp2 : Ex → Ex
  | .nan => .nan
  | .inf s => if s then .zero false else .inf false
  | .zero _ => .fin false 1 1
  | .fin s n d =>
    if 2000 * d < n then (if s then .fin false 1 (2 ^ 2000) else .fin false (2 ^ 2000) 1)
    else
      let v : Int := if s then -(n : Int) else n
      let i := v / (d : Int)
      let f := v - i * (d : Int)
      if f = 0 then exScale (.fin false 1 1) i
      else exScale (.fin false ((fxOne : Int) + fxExpm1 (fxMul (toFx f d) fxLn2)).toNat fxOne) i

/-- The leading binary digits of log₂ m for a fixed-point m in [1, 2). -/
def log2Go : Nat → Nat → Nat → Nat
  | 0, _, acc => acc
  | fuel + 1, m, acc =>
    let y := m * m / fxOne
    if 2 * fxOne ≤ y then log2Go fuel (y / 2) (2 * acc + 1) else log2Go fuel y (2 * acc)

/-- log₂ a (06 R153). -/
def exLog2 : Ex → Ex
  | .nan => .nan
  | .inf s => if s then .nan else .inf false
  | .zero _ => .inf true
  | .fin true _ _ => .nan
  | .fin false n d =>
    let e := ilog2 n d
    let num := if 0 ≤ e then n else n * 2 ^ (-e).toNat
    let den := if 0 ≤ e then d * 2 ^ e.toNat else d
    if num = den then exInt e
    else exRat (e * (2 ^ 160 : Nat) + (log2Go 160 (num * fxOne / den) 0 : Nat)) (2 ^ 160)

/-- Σ of the alternating series of a sine or cosine: from a term, each next is −term·r²/((k+1)(k+2)). -/
def trigGo (r2 : Int) : Nat → Nat → Int → Int → Int
  | 0, _, _, acc => acc
  | fuel + 1, k, term, acc =>
    let t := -(fxMul term r2 / ((k + 1) * (k + 2) : Nat))
    trigGo r2 fuel (k + 2) t (acc + t)

def fxSin (r : Int) : Int := trigGo (fxMul r r) 70 1 r r

def fxCos (r : Int) : Int := trigGo (fxMul r r) 70 0 (fxOne : Int) (fxOne : Int)

/-- sin of n/d turned on by q quarter turns. -/
def exTrig (neg : Bool) (n d q : Nat) : Ex :=
  let x := toFx n d
  let half : Int := (fxPi : Int)
  let k := 2 * x / half
  let r := (2 * x - k * half) / 2
  let quad := fun (j : Int) => match (j % 4).toNat with
    | 0 => fxSin r
    | 1 => fxCos r
    | 2 => -(fxSin r)
    | _ => -(fxCos r)
  let v := quad (k + (q : Int))
  exRat (if neg then -v else v) fxOne

/-- sin a (06 R153). -/
def exSin : Ex → Ex
  | .nan | .inf _ => .nan
  | .zero s => .zero s
  | .fin s n d => exTrig s n d 0

/-- cos a (06 R153). -/
def exCos : Ex → Ex
  | .nan | .inf _ => .nan
  | .zero _ => .fin false 1 1
  | .fin _ n d => exTrig false n d 1

/-- tanh a (06 R153). -/
def exTanh : Ex → Ex
  | .nan => .nan
  | .inf s => .fin s 1 1
  | .zero s => .zero s
  | .fin s n d =>
    if 200 * d < n then .fin s (2 ^ 512 - 1) (2 ^ 512)
    else
      let y := toFx (2 * n) d
      if y < (fxOne : Int) then
        let e := fxExpm1 y
        .fin s e.toNat (e + 2 * (fxOne : Int)).toNat
      else
        let e := exExpFx y
        let one := Ex.fin false 1 1
        exWithSign s (exDiv (exSub false e one) (exAdd false e one))

/-- 1/(1 + e^(−a)) (06 R153). -/
def exSigm : Ex → Ex
  | .nan => .nan
  | .inf s => if s then .zero false else .fin false 1 1
  | .zero _ => .fin false 1 2
  | .fin s n d =>
    let t := if 2000 * d < n then Ex.fin false 1 (2 ^ 2000) else exExpFx (-(toFx n d))
    let one := Ex.fin false 1 1
    if s then exDiv t (exAdd false one t) else exDiv one (exAdd false one t)

end Sys2Proof.Machine
end

