-- ==== Sys2Proof/Machine/Interval.lean ====
section
/-! DEFINITION. Interval and affine arithmetic (03 R81–R85) and the interval instructions 0x48 to 0x4C (06 R151). -/

namespace Sys2Proof.Machine

/-- An interval of binary32 values (03 R81). -/
structure Iv where
  lo : Ex
  hi : Ex
  deriving DecidableEq, Repr, Inhabited

/-- The entire interval (03 R81). -/
def ivEntire : Iv := ⟨.inf true, .inf false⟩

/-- A value rounded to binary32. -/
def r32 (mode : Rnd) (x : Ex) : Ex := ofF32 (toF32 mode x)

/-- Whether bounds form an interval (03 R81). -/
def ivValid (a : Iv) : Bool := !exIsNan a.lo && !exIsNan a.hi && exLe a.lo a.hi

def ivFix (a : Iv) : Iv := if ivValid a then a else ivEntire

/-- Bounds rounded once, outwards (03 R82). -/
def ivOut (lo hi : Ex) : Iv := ivFix ⟨r32 .rdn lo, r32 .rup hi⟩

/-- The lesser and the greater, −0 below +0. -/
def exLeast (x y : Ex) : Ex :=
  if exLt y x || (exIsZero x && exIsZero y && exSign y) then y else x
def exMost (x y : Ex) : Ex :=
  if exLt x y || (exIsZero x && exIsZero y && !exSign y) then y else x

def listLeast (x : Ex) (xs : List Ex) : Ex := xs.foldl exLeast x
def listMost (x : Ex) (xs : List Ex) : Ex := xs.foldl exMost x

def ivAdd (a b : Iv) : Iv := ivOut (exAdd true a.lo b.lo) (exAdd false a.hi b.hi)
def ivSub (a b : Iv) : Iv := ivOut (exSub true a.lo b.hi) (exSub false a.hi b.lo)

/-- A bound product, 0 × ±∞ counting as 0 (03 R81, R82). -/
def boundMul (x y : Ex) : Ex :=
  if (exIsInf x && exIsZero y) || (exIsInf y && exIsZero x) then .zero (exSign x != exSign y) else exMul x y

def ivPoint (a : Iv) : Bool := exIsInf a.lo && a.lo == a.hi

def zeroEx : Ex := .zero false
def oneEx : Ex := .fin false 1 1

def ivHasZero (a : Iv) : Bool := exLe a.lo zeroEx && exLe zeroEx a.hi

def ivMul (a b : Iv) : Iv :=
  if (ivPoint a && ivHasZero b) || (ivPoint b && ivHasZero a) then ivEntire
  else
    let x := boundMul a.lo b.lo
    let xs := [boundMul a.lo b.hi, boundMul a.hi b.lo, boundMul a.hi b.hi]
    ivOut (listLeast x xs) (listMost x xs)

def ivSqr (a : Iv) : Iv :=
  let x := exMul a.lo a.lo
  let y := exMul a.hi a.hi
  ivOut (if ivHasZero a then zeroEx else exLeast x y) (exMost x y)

def ivHull (a b : Iv) : Iv := ⟨exLeast a.lo b.lo, exMost a.hi b.hi⟩

/-- A bound quotient; ∞/∞ counts as both 0 and ∞ (03 R81). -/
def boundDiv (x y : Ex) : List Ex :=
  if exIsInf x && exIsInf y then
    let s := exSign x != exSign y
    [.zero s, .inf s]
  else [exDiv x y]

def ivDiv (a b : Iv) : Iv :=
  if ivHasZero b || (ivPoint a && ivPoint b) then ivEntire
  else
    match boundDiv a.lo b.lo ++ boundDiv a.lo b.hi ++ boundDiv a.hi b.lo ++ boundDiv a.hi b.hi with
    | [] => ivEntire
    | x :: xs => ivOut (listLeast x xs) (listMost x xs)

/-! ### Bounds of the special functions (03 R84) -/

/-- The binary32 value next to a finite or infinite one, towards +∞ or −∞; infinities stay. -/
def nextUp (w : Nat) : Nat :=
  if w = 0x80000000 then 1
  else if w = 0x7F800000 ∨ w = 0xFF800000 then w
  else if w < 0x80000000 then w + 1
  else w - 1

def nextDown (w : Nat) : Nat :=
  if w = 0 then 0x80000001
  else if w = 0x7F800000 ∨ w = 0xFF800000 then w
  else if w < 0x80000000 then w - 1
  else w + 1

/-- Two binary32 ulp outwards on each side, then the function's range (03 R84). -/
def ivUlps (lo hi : Ex) (rlo rhi : Option Ex) : Iv :=
  let l := ofF32 (nextDown (nextDown (toF32 .rne lo)))
  let h := ofF32 (nextUp (nextUp (toF32 .rne hi)))
  let l' := match rlo with
    | some b => exMost l b
    | none => l
  let h' := match rhi with
    | some b => exLeast h b
    | none => h
  ivFix ⟨l', h'⟩

/-- The bound of a monotone special function. -/
def ivMono (f : Ex → Ex) (rlo rhi : Option Ex) (a : Iv) : Iv :=
  let x := r32 .rne (f a.lo)
  let y := r32 .rne (f a.hi)
  if exIsNan x || exIsNan y then ivEntire else ivUlps (exLeast x y) (exMost x y) rlo rhi

/-- ⌊x / (π/2)⌋ of a finite value. -/
def quarterOf (x : Ex) : Int :=
  match x with
  | .fin s n d => (if s then -(2 * toFx n d) - 1 else 2 * toFx n d) / (fxPi : Int)
  | _ => 0

/-- Whether [lo, hi], finite, holds some (4k + q)·π/2. Zero itself is the point of q = 0. -/
def holdsQuarter (a : Iv) (q : Int) : Bool :=
  let i := quarterOf a.lo
  let j := quarterOf a.hi
  -- multiples m of π/2 with i < m ≤ j, and 0 when the interval starts at 0
  let first := i + 1 + (q - (i + 1)) % 4
  decide (first ≤ j) || (q == 0 && ivHasZero a)

/-- The bound of sine (`q` = 1) or cosine (`q` = 0): q is where the function reaches +1, in quarter turns. At an infinite
bound the value is NaN (06 R153), and so the interval is entire (03 R81, 13 R314). -/
def ivTrig (f : Ex → Ex) (q : Int) (a : Iv) : Iv :=
  let one := oneEx
  if !exFinite a.lo || !exFinite a.hi then ivEntire
  else
    let x := r32 .rne (f a.lo)
    let y := r32 .rne (f a.hi)
    let lo := if holdsQuarter a (q + 2) then exNeg one else exLeast x y
    let hi := if holdsQuarter a q then one else exMost x y
    ivUlps lo hi (some (exNeg one)) (some one)

def ivExp2 (a : Iv) : Iv := ivMono exExp2 (some zeroEx) none a
def ivLog2 (a : Iv) : Iv := if exLe a.lo zeroEx then ivEntire else ivMono exLog2 none none a
def ivSin (a : Iv) : Iv := ivTrig exSin 1 a
def ivCos (a : Iv) : Iv := ivTrig exCos 0 a
def ivTanh (a : Iv) : Iv := ivMono exTanh (some (exNeg oneEx)) (some oneEx) a
def ivSigm (a : Iv) : Iv := ivMono exSigm (some zeroEx) (some oneEx) a

/-! ### Affine values (03 R83) -/

/-- (c, s, e): c + s·ξ + e·ε. -/
structure Af where
  c : Ex
  s : Ex
  e : Ex
  deriving DecidableEq, Repr, Inhabited

/-- The entire interval as an affine value. -/
def afEntire : Af := ⟨zeroEx, zeroEx, .inf false⟩

def afFix (a : Af) : Af := if exFinite a.c && exFinite a.s && exFinite a.e then a else afEntire

/-- |x − y| exactly. -/
def exDist (x y : Ex) : Ex := exAbs (exSub false x y)

def afAdd (a b : Af) : Af :=
  let c := exAdd false a.c b.c
  let s := exAdd false a.s b.s
  let c' := r32 .rne c
  let s' := r32 .rne s
  let e := exAdd false (exAdd false a.e b.e) (exAdd false (exDist c c') (exDist s s'))
  afFix ⟨c', s', r32 .rup e⟩

def afMul (a b : Af) : Af :=
  let c := exMul a.c b.c
  let s := exAdd false (exMul a.c b.s) (exMul b.c a.s)
  let c' := r32 .rne c
  let s' := r32 .rne s
  let add := exAdd false
  let e := add (add (exMul (add (exAbs a.s) a.e) (add (exAbs b.s) b.e)) (add (exMul (exAbs a.c) b.e) (exMul (exAbs b.c) a.e)))
    (add (exDist c c') (exDist s s'))
  afFix ⟨c', s', r32 .rup e⟩

/-- The interval of an affine value (03 R83). -/
def afIv (a : Af) : Iv :=
  let r := exAdd false (exAbs a.s) a.e
  if exIsInf a.e then ivEntire else ivOut (exSub true a.c r) (exAdd false a.c r)

/-! ### The interval instructions -/

/-- An operand pair as an interval (06 R151). -/
def ivElem (c : Iss) (x : Operand) (l : Nat) : Iv := ⟨ofF32 (rd c x 0 l), ofF32 (rd c x 1 l)⟩

/-- An interval as a register pair. -/
def ivBits (a : Iv) : Nat := toF32 .rne a.lo + 2 ^ 32 * toF32 .rne a.hi

/-- An interval instruction over valid operands; an invalid one gives the entire interval. -/
def ivOp (i : Instr) (d a b : Operand) (f : Iv → Iv → Iv) (s : State) : Host.Outcome State Fault Refusal :=
  laneOp i { d := d, dn := fun _ => 2, srcs := [pair a, pair b], modeBad := fun gm => gm.type != .f32 }
    (fun c l =>
      let x := ivElem c a l
      let y := ivElem c b l
      ivBits (if ivValid x && ivValid y then f x y else ivEntire)) s

def execIvadd (d a b : Operand) (s : State) := ivOp (.ivadd d a b) d a b ivAdd s
def execIvsub (d a b : Operand) (s : State) := ivOp (.ivsub d a b) d a b ivSub s
def execIvmul (d a b : Operand) (s : State) := ivOp (.ivmul d a b) d a b ivMul s
def execIvhull (d a b : Operand) (s : State) := ivOp (.ivhull d a b) d a b ivHull s
def execIvsqr (d a : Operand) (s : State) := ivOp (.ivsqr d a) d a a (fun x _ => ivSqr x) s

end Sys2Proof.Machine
end

