-- ==== Sys2Proof/Machine/FieldOps.lean ====
section
/-! DEFINITION. The operators 0x00 to 0x31 of field bytecode and of VEXPR, in the four modes (13 R310–R313). -/

namespace Sys2Proof.Machine

/-- The evaluation modes (13 R310). -/
inductive EvMode
  | point | gradient | interval | affine
  deriving DecidableEq, Repr, Inhabited

/-- A stack entry: a value with its gradient, an interval, or an affine value. A point value has gradient 0. -/
structure Ent where
  v : Ex := .zero false
  g : List Ex := []
  iv : Iv := ⟨.zero false, .zero false⟩
  af : Af := ⟨.zero false, .zero false, .zero false⟩
  deriving DecidableEq, Repr, Inhabited

def rne (x : Ex) : Ex := r32 .rne x

/-- The constant k as an entry of any mode (13 R313); the interval of a NaN is entire (03 R81). -/
def entConst (k : Ex) : Ent := { v := k, g := [zeroEx, zeroEx, zeroEx], iv := ivFix ⟨k, k⟩, af := ⟨k, zeroEx, zeroEx⟩ }

def halfEx : Ex := .fin false 1 2
def twoEx : Ex := .fin false 2 1

/-! ### The exact sum of a pass (03 R77, R78) -/

/-- A value without a scale, with whether it differs from zero. -/
def plain (x : Ex) : Ex × Bool := (x, !exIsZero x)

/-- Acc plus the products, exact, of values that say whether their elements differ from zero. A zero sum is −0 where acc
is −0 and so is every product of two such elements. An infinite acc and an infinite product of the other sign, which R78
does not name, make a NaN as two products do (DESIGN CHOICE, log entry 78). -/
def passSum (acc : Ex) (xs ys : List (Ex × Bool)) : Ex :=
  let ps := List.zipWith (fun (a b : Ex × Bool) => (exMul a.1 b.1, a.2 && b.2)) xs ys
  let S := (ps.map (·.1)).foldl (exAdd false) acc
  if exIsZero S then .zero (exSign acc && exIsZero acc && ps.all fun p => !p.2 || (exIsZero p.1 && exSign p.1)) else S

/-- A sum with no product: −0 where acc is −0 and the other term is a zero (03 R78, 12 R292). -/
def sumExact (acc x : Ex) : Ex :=
  let S := exAdd false acc x
  if exIsZero S then .zero (exSign acc && exIsZero acc && exIsZero x) else S

/-! ### Point values (13 R311) -/

/-- The lesser of two values as FMIN takes it, the greater as FMAX (06 R147). -/
def exFmin (x y : Ex) : Ex :=
  if exIsNan x then y else if exIsNan y then x else exLeast x y
def exFmax (x y : Ex) : Ex :=
  if exIsNan x then y else if exIsNan y then x else exMost x y

/-- ⌊a⌋; infinities and zeros unchanged. -/
def exFloor (x : Ex) : Ex := rndEx .rdn x

def exSignum (x : Ex) : Ex :=
  match x with
  | .inf s | .fin s _ _ => .fin s 1 1
  | v => v

/-- √ of an exact sum of squares. -/
def exLen (xs : List Ex) : Ex := exSqrt (xs.foldl (fun r x => exAdd false r (exMul x x)) zeroEx)

/-- The point value of the operators 0x0D to 0x2F on the operands, the deepest first (13 R312). -/
def ptOp (code : Nat) (xs : List Ex) : Ex :=
  match code, xs with
  | 0x0D, [a, b] => rne (exAdd false a b)
  | 0x0E, [a, b] => rne (exSub false a b)
  | 0x0F, [a, b] => rne (exMul a b)
  | 0x10, [a, b] => rne (exDiv a b)
  | 0x11, [a, b, c] => rne (exAdd false (exMul a b) c)
  | 0x12, [a, b] => exFmin a b
  | 0x13, [a, b] => exFmax a b
  | 0x14, [a, b, c] => exFmin (exFmin a b) c
  | 0x15, [a, b, c] => exFmax (exFmax a b) c
  | 0x16, [a] => exNeg a
  | 0x17, [a] => exAbs a
  | 0x18, [a] => rne (exMul a a)
  | 0x19, [a] => rne (exSqrt a)
  | 0x1A, [a] => rne (exRcp a)
  | 0x1B, [a] => rne (exRsqrt a)
  | 0x1C, [a, b] => rne (exLen [a, b])
  | 0x1D, [a, b, c] => rne (exLen [a, b, c])
  | 0x1E, [a, b] => rne (exSub false (exAbs a) b)
  | 0x1F, [a] => exFmax a zeroEx
  | 0x20, [a] => rne (exFloor a)
  | 0x21, [a] => rne (exSub false a (exFloor a))
  | 0x22, [a] => rne (rndEx .rne a)
  | 0x23, [a, b] => rne (exSub false a (exMul b (exFloor (exDiv a b))))
  | 0x24, [a] => exFmin (exFmax a zeroEx) oneEx
  | 0x25, [a] => exSignum a
  | 0x26, [a] => rne (exSin a)
  | 0x27, [a] => rne (exCos a)
  | 0x28, [a] => rne (exExp2 a)
  | 0x29, [a] => rne (exLog2 a)
  | 0x2A, [a] => rne (exTanh a)
  | 0x2B, [a] => rne (exSigm a)
  | 0x2C, [a, l, h] => exFmin (exFmax a l) h
  | 0x2D, [a, b, t] => rne (exAdd false (exMul t (rne (exSub false b a))) a)
  | 0x2E, [a, b, c, d, e, f] =>
    rne (exAdd false (exAdd false (exMul a d) (exMul b e)) (exMul c f))
  | 0x2F, [a, b] => rne (exMul (exAdd false a b) halfEx)
  | _, _ => .nan

/-! ### Gradients (13 R311, R312) -/

/-- A product in a derivative: 0 and ±∞ give 0 (13 R311). -/
def dMul (x y : Ex) : Ex :=
  if (exIsInf x && exIsZero y) || (exIsInf y && exIsZero x) then zeroEx else exMul x y

def dAdd (x y : Ex) : Ex := exAdd false x y

/-- n/√q for exact n and q: the value of its square, with n's sign. -/
def overSqrt (n q : Ex) : Ex :=
  match n, q with
  | .fin s a b, .fin false c d => exWithSign s (exSqrtRat (a * a * d) (b * b * c))
  | n, q => exDiv n (exSqrt q)

def ln2Ex : Ex := .fin false fxLn2 fxOne

/-- The exact derivative of sine, cosine, 2^a, log₂, tanh and sigmoid. -/
def dSpecial (code : Nat) (a : Ex) : Ex :=
  match code with
  | 0x26 => exCos a
  | 0x27 => exNeg (exSin a)
  | 0x28 => exMul ln2Ex (exExp2 a)
  | 0x29 => exDiv oneEx (exMul a ln2Ex)
  | 0x2A =>
    let t := exTanh a
    exSub false oneEx (exMul t t)
  | _ =>
    let t := exSigm a
    exMul t (exSub false oneEx t)

/-- The operand that MIN or MAX returns, for its gradient: the second on equal values (13 R312). -/
def pickSecond (least : Bool) (a b : Ex) : Bool :=
  if exIsNan a then true else if exIsNan b then false
  else if exEq a b then true else if least then exLt b a else exLt a b

/-- ∇ of MIN or MAX, one component. -/
def dPick (least : Bool) (a b ga gb : Ex) : Ex := if pickSecond least a b then gb else ga

/-- ±∇a as ABS. -/
def dAbs (a ga : Ex) : Ex :=
  let neg := exIsNan a || exSign a
  if neg then exNeg ga else ga

/-- One gradient component of an operator from the operands' point values and components, rounded once (13 R312). -/
def gradOp (code : Nat) (xs gs : List Ex) : Ex :=
  match code, xs, gs with
  | 0x0D, _, [ga, gb] => rne (dAdd ga gb)
  | 0x0E, _, [ga, gb] => rne (exSub false ga gb)
  | 0x0F, [a, b], [ga, gb] => rne (dAdd (dMul b ga) (dMul a gb))
  | 0x10, [a, b], [ga, gb] => rne (exDiv (exSub false (dMul b ga) (dMul a gb)) (exMul b b))
  | 0x11, [a, b, _], [ga, gb, gc] => rne (dAdd (dAdd (dMul b ga) (dMul a gb)) gc)
  | 0x12, [a, b], [ga, gb] => dPick true a b ga gb
  | 0x13, [a, b], [ga, gb] => dPick false a b ga gb
  | 0x14, [a, b, c], [ga, gb, gc] => dPick true (exFmin a b) c (dPick true a b ga gb) gc
  | 0x15, [a, b, c], [ga, gb, gc] => dPick false (exFmax a b) c (dPick false a b ga gb) gc
  | 0x16, _, [ga] => exNeg ga
  | 0x17, [a], [ga] => dAbs a ga
  | 0x18, [a], [ga] => rne (dMul (exMul twoEx a) ga)
  | 0x19, [a], [ga] => rne (overSqrt ga (exMul (.fin false 4 1) a))
  | 0x1A, [a], [ga] => rne (exNeg (exDiv ga (exMul a a)))
  | 0x1B, [a], [ga] => rne (exNeg (overSqrt ga (exMul (.fin false 4 1) (exMul a (exMul a a)))))
  | 0x1C, [a, b], [ga, gb] =>
    let q := dAdd (exMul a a) (exMul b b)
    if exIsZero q then zeroEx else rne (overSqrt (dAdd (dMul a ga) (dMul b gb)) q)
  | 0x1D, [a, b, c], [ga, gb, gc] =>
    let q := dAdd (dAdd (exMul a a) (exMul b b)) (exMul c c)
    if exIsZero q then zeroEx else rne (overSqrt (dAdd (dAdd (dMul a ga) (dMul b gb)) (dMul c gc)) q)
  | 0x1E, [a, _], [ga, gb] => rne (exSub false (dAbs a ga) gb)
  | 0x1F, [a], [ga] => if !exIsNan a && exLt zeroEx a then ga else zeroEx
  | 0x21, _, [ga] => ga
  | 0x23, [a, b], [ga, gb] => rne (exSub false ga (dMul (exFloor (exDiv a b)) gb))
  | 0x24, [a], [ga] => if !exIsNan a && exLt zeroEx a && exLt a oneEx then ga else zeroEx
  | 0x2C, [a, l, h], [ga, gl, gh] => dPick true (exFmax a l) h (dPick false a l ga gl) gh
  | 0x2D, [a, b, t], [ga, gb, gt] =>
    let diff := rne (exSub false b a)
    let gd := rne (exSub false gb ga)
    rne (dAdd (dAdd (dMul diff gt) (dMul t gd)) ga)
  | 0x2E, [a, b, c, d, e, f], [ga, gb, gc, gd, ge, gf] =>
    rne ([dMul a gd, dMul e gb, dMul b ge, dMul f gc, dMul c gf].foldl dAdd (dMul d ga))
  | 0x2F, _, [ga, gb] => rne (exMul (dAdd ga gb) halfEx)
  | 0x26, [a], [ga] | 0x27, [a], [ga] | 0x28, [a], [ga] | 0x29, [a], [ga] | 0x2A, [a], [ga] | 0x2B, [a], [ga] =>
    rne (dMul (dSpecial code a) ga)
  | _, _, _ => zeroEx

/-! ### Intervals (13 R312) -/

/-- The exact least and greatest bound products, none where R81 leaves the product undefined. -/
def prodBounds (a b : Iv) : Option (Ex × Ex) :=
  if (ivPoint a && ivHasZero b) || (ivPoint b && ivHasZero a) then none
  else
    let x := boundMul a.lo b.lo
    let xs := [boundMul a.lo b.hi, boundMul a.hi b.lo, boundMul a.hi b.hi]
    some (listLeast x xs, listMost x xs)

/-- The exact bounds of |a|. -/
def absBounds (a : Iv) : Ex × Ex :=
  (if ivHasZero a then zeroEx else exLeast (exAbs a.lo) (exAbs a.hi), exMost (exAbs a.lo) (exAbs a.hi))

/-- The exact bounds of a². -/
def sqrBounds (a : Iv) : Ex × Ex :=
  let x := exMul a.lo a.lo
  let y := exMul a.hi a.hi
  (if ivHasZero a then zeroEx else exLeast x y, exMost x y)

def ivMin (a b : Iv) : Iv := ⟨exLeast a.lo b.lo, exLeast a.hi b.hi⟩
def ivMax (a b : Iv) : Iv := ⟨exMost a.lo b.lo, exMost a.hi b.hi⟩

/-- A sum of exact bounds, rounded outwards once. -/
def ivSum (xs : List (Option (Ex × Ex))) : Iv :=
  match xs.mapM id with
  | none => ivEntire
  | some [] => ⟨zeroEx, zeroEx⟩
  | some (x :: ys) =>
    ivOut (ys.foldl (fun r y => exAdd true r y.1) x.1) (ys.foldl (fun r y => exAdd false r y.2) x.2)

def ivFma (a b c : Iv) : Iv := ivSum [prodBounds a b, some (c.lo, c.hi)]

/-- √ of the exact bounds of a sum of squares. -/
def ivLen (xs : List Iv) : Iv :=
  let bs := xs.map sqrBounds
  ivOut (exSqrt (bs.foldl (fun r b => exAdd false r b.1) zeroEx))
    (exSqrt (bs.foldl (fun r b => exAdd false r b.2) zeroEx))

/-- The interval column of the operators 0x0D to 0x2F (13 R312). FRACT of an operand with an infinite bound is entire, as the
value is NaN there (13 R314, log entry 9). -/
def ivColumn (code : Nat) (xs : List Iv) : Iv :=
  match code, xs with
  | 0x0D, [a, b] => ivAdd a b
  | 0x0E, [a, b] => ivSub a b
  | 0x0F, [a, b] => ivMul a b
  | 0x10, [a, b] => ivDiv a b
  | 0x11, [a, b, c] => ivFma a b c
  | 0x12, [a, b] => ivMin a b
  | 0x13, [a, b] => ivMax a b
  | 0x14, [a, b, c] => ivMin (ivMin a b) c
  | 0x15, [a, b, c] => ivMax (ivMax a b) c
  | 0x16, [a] => ⟨exNeg a.hi, exNeg a.lo⟩
  | 0x17, [a] => ⟨(absBounds a).1, (absBounds a).2⟩
  | 0x18, [a] => ivSqr a
  | 0x19, [a] => if exLt a.lo zeroEx then ivEntire else ivOut (exSqrt a.lo) (exSqrt a.hi)
  | 0x1A, [a] => if ivHasZero a then ivEntire else ivOut (exRcp a.hi) (exRcp a.lo)
  | 0x1B, [a] => if exLe a.lo zeroEx then ivEntire else ivOut (exRsqrt a.hi) (exRsqrt a.lo)
  | 0x1C, [a, b] => ivLen [a, b]
  | 0x1D, [a, b, c] => ivLen [a, b, c]
  | 0x1E, [a, b] => ivOut (exSub true (absBounds a).1 b.hi) (exSub false (absBounds a).2 b.lo)
  | 0x1F, [a] => ⟨exMost a.lo zeroEx, exMost a.hi zeroEx⟩
  | 0x20, [a] => ivOut (exFloor a.lo) (exFloor a.hi)
  | 0x21, [a] =>
    if exIsInf a.lo || exIsInf a.hi then ivEntire
    else if exEq (exFloor a.lo) (exFloor a.hi) then
      ivOut (exSub true a.lo (exFloor a.lo)) (exSub false a.hi (exFloor a.hi))
    else ⟨zeroEx, oneEx⟩
  | 0x22, [a] => ivOut (rndEx .rne a.lo) (rndEx .rne a.hi)
  | 0x23, [a, b] =>
    if exLt zeroEx b.lo && exFinite a.lo && exFinite a.hi && exFinite b.hi then ⟨zeroEx, b.hi⟩ else ivEntire
  | 0x24, [a] => ⟨exLeast (exMost a.lo zeroEx) oneEx, exLeast (exMost a.hi zeroEx) oneEx⟩
  | 0x25, [a] => ⟨exSignum a.lo, exSignum a.hi⟩
  | 0x26, [a] => ivSin a
  | 0x27, [a] => ivCos a
  | 0x28, [a] => ivExp2 a
  | 0x29, [a] => ivLog2 a
  | 0x2A, [a] => ivTanh a
  | 0x2B, [a] => ivSigm a
  | 0x2C, [a, l, h] => ivMin (ivMax a l) h
  | 0x2D, [a, b, t] => ivFma t (ivSub b a) a
  | 0x2E, [a, b, c, d, e, f] => ivSum [prodBounds a d, prodBounds b e, prodBounds c f]
  | 0x2F, [a, b] => ivOut (exMul (exAdd true a.lo b.lo) halfEx) (exMul (exAdd false a.hi b.hi) halfEx)
  | _, _ => ivEntire

/-- Whether the value of an operator is NaN where an operand is: all but the minima, maxima and clamps (06 R147). -/
def nanPasses (code : Nat) : Bool := !([0x12, 0x13, 0x14, 0x15, 0x1F, 0x24, 0x2C].contains code)

/-- The interval rule of the operators 0x0D to 0x2F: an entire operand may stand for NaN, and where the value is then NaN
the interval is entire (13 R314, log entry 9). -/
def ivOpCode (code : Nat) (xs : List Iv) : Iv :=
  if nanPasses code && xs.any (· == ivEntire) then ivEntire else ivColumn code xs

/-! ### Affine values (13 R311, R312) -/

/-- An interval as an affine value (13 R311). -/
def afCollapse (a : Iv) : Af :=
  if exIsInf a.lo || exIsInf a.hi then afEntire
  else
    let c := rne (exMul (exAdd false a.lo a.hi) halfEx)
    ⟨c, zeroEx, r32 .rup (exMost (exSub false a.hi c) (exSub false c a.lo))⟩

def afNeg (a : Af) : Af := ⟨exNeg a.c, exNeg a.s, a.e⟩

/-- The affine rule of the operators 0x0D to 0x2F (13 R312). -/
def afOp (code : Nat) (xs : List Af) : Af :=
  match code, xs with
  | 0x0D, [a, b] => afAdd a b
  | 0x0E, [a, b] => afAdd a (afNeg b)
  | 0x0F, [a, b] => afMul a b
  | 0x11, [a, b, c] => afAdd (afMul a b) c
  | 0x16, [a] => afNeg a
  | 0x18, [a] => afMul a a
  | 0x2D, [a, b, t] => afAdd (afMul t (afAdd b (afNeg a))) a
  | code, xs => afCollapse (ivOpCode code (xs.map afIv))

/-- An operator 0x0D to 0x2F in a mode. -/
def opEnt (m : EvMode) (code : Nat) (xs : List Ent) : Ent :=
  match m with
  | .point => { v := ptOp code (xs.map (·.v)) }
  | .gradient =>
    let vs := xs.map (·.v)
    { v := ptOp code vs, g := (List.range 3).map fun j => gradOp code vs (xs.map fun x => x.g.getD j zeroEx) }
  | .interval => { iv := ivOpCode code (xs.map (·.iv)) }
  | .affine => { af := afOp code (xs.map (·.af)) }

/-- The operands that an operator 0x0D to 0x2F pops (13 R312). -/
def opArity (code : Nat) : Nat :=
  match code with
  | 0x0D | 0x0E | 0x0F | 0x10 | 0x12 | 0x13 | 0x1C | 0x1E | 0x23 | 0x2F => 2
  | 0x11 | 0x14 | 0x15 | 0x1D | 0x2C | 0x2D => 3
  | 0x2E => 6
  | _ => 1

/-- What an operator below 0x30 pops and pushes. -/
def opShape (code : Nat) : Nat × Nat :=
  if code < 4 then (0, 1)
  else match code with
    | 0x04 => (1, 2)
    | 0x05 => (2, 2)
    | 0x06 => (1, 0)
    | 0x07 => (2, 3)
    | 0x08 => (3, 3)
    | 0x09 | 0x0A | 0x0B | 0x0C => (0, 1)
    | c => (opArity c, 1)

/-- The effect of an operator below 0x30 on a stack, top first; `inp` are the inputs 0 to 3 (13 R312). -/
def stackOp (m : EvMode) (inp : List Ent) (code : Nat) (st : List Ent) : List Ent :=
  if code < 4 then inp.getD code {} :: st
  else match code, st with
    | 0x04, a :: r => a :: a :: r
    | 0x05, b :: a :: r => a :: b :: r
    | 0x06, _ :: r => r
    | 0x07, b :: a :: r => a :: b :: a :: r
    | 0x08, c :: b :: a :: r => a :: c :: b :: r
    | 0x09, r => entConst zeroEx :: r
    | 0x0A, r => entConst oneEx :: r
    | 0x0B, r => entConst halfEx :: r
    | 0x0C, r => entConst twoEx :: r
    | c, r => opEnt m c ((r.take (opArity c)).reverse) :: r.drop (opArity c)

/-- SMIN's blend h, exact (13 R313): CLAMP01 of NaN is +0. -/
def sminH (k a b : Ex) : Ex :=
  let x := exAdd false halfEx (exDiv (exMul halfEx (exSub false b a)) k)
  exFmin (exFmax x zeroEx) oneEx

/-- SMIN with constant k (13 R313). -/
def sminPt (k a b : Ex) : Ex :=
  let h := sminH k a b
  if exIsZero h then b
  else if exEq h oneEx then a
  else rne (exSub false (exAdd false b (exMul h (exSub false a b))) (exMul (exMul k h) (exSub false oneEx h)))

def ivSmin (k : Ex) (a b : Iv) : Iv :=
  if a = ivEntire ∨ b = ivEntire then ivEntire
  else ivOut (exSub true (exLeast a.lo b.lo) (exMul k (.fin false 1 4))) (exLeast a.hi b.hi)

def sminEnt (m : EvMode) (k : Ex) (a b : Ent) : Ent :=
  match m with
  | .point => { v := sminPt k a.v b.v }
  | .gradient =>
    let h := sminH k a.v b.v
    { v := sminPt k a.v b.v,
      g := (List.range 3).map fun j =>
        rne (dAdd (dMul h (a.g.getD j zeroEx)) (dMul (exSub false oneEx h) (b.g.getD j zeroEx))) }
  | .interval => { iv := ivSmin k a.iv b.iv }
  | .affine => { af := afCollapse (ivSmin k (afIv a.af) (afIv b.af)) }

end Sys2Proof.Machine
end

