-- ==== Sys2Proof/Machine/Fields.lean ====
section
/-! DEFINITION. Field programs: images and their checks (13 R306–R308, R315–R318), the nodes (13 R319–R322), the
evaluation of a program in the four modes (13 R310, R313), the pruned image (13 R328). -/

namespace Sys2Proof.Machine

/-! ### Images (13 R306, R307) -/

def imgNat (img : List Byte) (off n : Nat) : Nat := leNat ((img.drop off).take n)
def imgLen (img : List Byte) : Nat := imgNat img 0 2
def imgCp (img : List Byte) : Nat := imgNat img 2 2
def imgNd (img : List Byte) : Nat := imgNat img 4 2
def imgStk (img : List Byte) : Nat := imgNat img 6 2 % 32
def imgLip (img : List Byte) : Ex := ofF32 (imgNat img 8 4)
def imgEpsA (img : List Byte) : Ex := ofF32 (imgNat img 12 4)
def imgEpsR (img : List Byte) : Ex := ofF32 (imgNat img 16 4)
def imgH0 (img : List Byte) : Ex := ofF32 (imgNat img 20 4)
def imgHmax (img : List Byte) : Ex := ofF32 (imgNat img 24 4)
def imgLimit (img : List Byte) : Nat := imgNat img 28 4

/-- Pool word i. -/
def imgPool (img : List Byte) (i : Nat) : Ex := ofF32 (imgNat img (imgCp img + 4 * i) 4)

/-- Node record i, as a number. -/
def imgNode (img : List Byte) (i : Nat) : Nat := imgNat img (imgNd img + 64 * i) 64

/-- Nodes of the table. -/
def imgNodes (img : List Byte) : Nat := (imgLen img - imgNd img) / 64

/-- An operator of the code: its offset, its code byte, its operand. -/
abbrev FieldOp := Nat × Nat × Nat

/-- Operators with a 16-bit operand (13 R313). -/
def takesWord (c : Nat) : Bool := [0x30, 0x31, 0x32, 0x34, 0x35, 0x36].contains c

/-- The operators of code bytes from an offset, none where the code is ill-formed (13 R307, class 2 of R308). -/
def scanOps : Nat → Nat → List Byte → Option (List FieldOp)
  | 0, _, _ => some []
  | _, _, [] => some []
  | n + 1, pos, b :: bs =>
    let c := b.toNat
    if c = 0xFF then (if bs.all fun x => x.toNat == 0xFF then some [] else none)
    else if 0x36 < c then none
    else if takesWord c then
      match bs with
      | x :: y :: r => (scanOps n (pos + 3) r).map fun l => (pos, c, x.toNat + 256 * y.toNat) :: l
      | _ => none
    else (scanOps n (pos + 1) bs).map fun l => (pos, c, 0) :: l

/-- The operators of an image. -/
def imgOps (img : List Byte) : Option (List FieldOp) := scanOps 4096 32 ((img.take (imgCp img)).drop 32)

/-- Positive and finite. -/
def posFinite (x : Ex) : Bool := exFinite x && exLt zeroEx x

/-- Class 1 of 13 R308. -/
def headerBad (img : List Byte) : Bool :=
  let len := imgLen img
  let cp := imgCp img
  let nd := imgNd img
  decide (img.length < 32) || decide (len < 36) || decide (4096 < len) || decide (img.length < len) || len % 4 != 0
    || decide (cp < 36) || cp % 4 != 0 || decide (nd < cp) || decide (len < nd) || nd % 8 != 0 || (len - nd) % 64 != 0
    || imgStk img == 0 || decide (16 < imgStk img) || imgNat img 6 2 / 32 != 0
    || !posFinite (imgLip img) || !posFinite (imgEpsA img) || !exFinite (imgEpsR img) || !exLe zeroEx (imgEpsR img)
    || !posFinite (imgH0 img) || !posFinite (imgHmax img) || exLt (imgHmax img) (imgH0 img) || imgLimit img == 0

/-- The node kind that an operator requires (13 R317). -/
def opNode (c : Nat) : Nat :=
  match c with
  | 0x32 => 1
  | 0x34 => 4
  | 0x35 => 2
  | 0x36 => 3
  | _ => 0

/-- An operand that class 2 of 13 R308 refuses. -/
def operandBad (img : List Byte) (o : FieldOp) : Bool :=
  if o.2.1 = 0x30 ∨ o.2.1 = 0x31 then
    decide ((imgNd img - imgCp img) / 4 ≤ o.2.2) || (o.2.1 == 0x31 && !posFinite (imgPool img o.2.2))
  else opNode o.2.1 != 0 && (decide (imgNodes img ≤ o.2.2) || imgNode img o.2.2 % 16 != opNode o.2.1)

/-- What an operator pops and pushes (13 R312, R313). -/
def fieldShape (c : Nat) : Nat × Nat :=
  if c < 0x30 then opShape c
  else match c with
    | 0x31 => (2, 1)
    | 0x32 | 0x33 => (0, 0)
    | _ => (0, 1)

/-- Whether operators pass class 3 of 13 R308 from a stack depth and a transform depth. -/
def stackOk (most : Nat) : List FieldOp → Nat → Nat → Bool
  | [], n, x => n == 1 && x == 0
  | o :: os, n, x =>
    let p := fieldShape o.2.1
    let n' := n - p.1 + p.2
    let x' := if o.2.1 = 0x32 then x + 1 else if o.2.1 = 0x33 then x - 1 else x
    decide (p.1 ≤ n) && decide (n' ≤ most) && !(o.2.1 == 0x33 && x == 0) && decide (x' ≤ 4) && stackOk most os n' x'

/-- A node record that fails 13 R316. -/
def nodeBad (r : Nat) : Bool :=
  bits r 31 4 != 0 || match r % 16 with
    | 1 => bits r 511 416 != 0
    | 2 =>
      let lip := ofF32 (bits r 95 64)
      ((List.range 3).any fun j => bits r (35 + 2 * j) (34 + 2 * j) == 3) || bits r 63 40 != 0 || bits r 127 96 != 0
        || bits r 511 384 != 0 || !exFinite lip || !exLe zeroEx lip
        || (List.range 4).any fun j =>
          let a := bits r (191 + 64 * j) (128 + 64 * j)
          a % 256 != 0 || (decide (bits r 33 32 < j) && a != 0)
    | 3 => bits r 511 64 != 0
    | 4 =>
      !posFinite (ofF32 (bits r 159 128)) || exIsNan (ofF32 (bits r 239 208)) || bits r 255 240 != 0
        || bits r 511 320 != 0 || bits r 319 256 % 8 != 0
        || (List.range 3).any fun j =>
          let n := bits r (175 + 16 * j) (160 + 16 * j)
          n == 0 || decide (4096 < n)
    | _ => true

/-! ### The callable queue's header (13 R323) -/

def cqCap (h : Nat) : Nat := bits h 79 64
def cqRing (h : Nat) : Nat := bits h 127 96

/-- A header at an offset within landing memory that a check refuses. -/
def cqHeaderBad (T : Team) (off : Nat) : Bool :=
  let h := landNat T off 64
  !inLanding T off 64 || bits h 95 80 != 0 || bits h 511 128 != 0 || cqCap h == 0 || decide (4096 < cqCap h)
    || 2 ^ Nat.log2 (cqCap h) != cqCap h || !inLanding T (cqRing h) (64 * cqCap h)

/-- Class 4 of 13 R308 on the queue. -/
def queueBad (T : Team) (img : List Byte) (cqoff : Nat) : Bool :=
  if cqoff = 0xFFFFFFFF then (List.range (imgNodes img)).any fun i => imgNode img i % 16 == 3
  else cqoff % 64 != 0 || cqHeaderBad T cqoff

/-- FBIND's status for an image (13 R308). -/
def fbindStatus (T : Team) (img : List Byte) (cqoff : Nat) : Nat :=
  if headerBad img then 1
  else match imgOps img with
    | none => 2
    | some ops =>
      if ops.any (operandBad img) then 2
      else if !stackOk (imgStk img) ops 0 0 then 3
      else if ((List.range (imgNodes img)).any fun i => nodeBad (imgNode img i)) || queueBad T img cqoff then 4
      else 0

/-! ### Reads of a program's data -/

/-- One read after another. -/
def spanThen {α β : Type} (x : Span (State × α)) (f : State → α → Span (State × β)) : Span (State × β) :=
  match x with
  | .ok (s, a) => f s a
  | .hold => .hold
  | .fail k va => .fail k va

/-- Reads n bytes at each of some addresses, each part of at most 8 bytes as it has been at some time since an index of the
history. -/
def readLines (w : Who) (from_ n : Nat) : State → List Nat → Span (State × List (List Byte))
  | s, [] => .ok (s, [])
  | s, a :: as => spanThen (spanReadBy (readParts s from_ 0) s w 0 a n) fun s1 bs =>
    spanThen (readLines w from_ n s1 as) fun s2 r => .ok (s2, bs :: r)

/-- The same, as numbers. -/
def readMany (w : Who) (from_ n : Nat) (s : State) (as : List Nat) : Span (State × List Nat) :=
  spanThen (readLines w from_ n s as) fun s1 r => .ok (s1, r.map leNat)

/-- What an evaluation of a program depends on besides its coordinates; `from_` is the index of the history since which its
reads through the volume cache return values (08 R200). -/
structure EvEnv where
  w : Who
  from_ : Nat
  m : EvMode
  img : List Byte
  param : Nat

/-! ### Coordinates (13 R310, R319) -/

def unitG (j : Nat) : List Ex := (List.range 3).map fun i => if i = j then oneEx else zeroEx

/-- A coordinate of a mode at point value v (point, gradient). -/
def coordPt (j : Nat) (v : Ex) : Ent := { v := v, g := unitG j }

/-- The coordinate o + d·t over a segment (13 R310), the bound products counted as 03 R81 says. -/
def coordSeg (m : EvMode) (j : Nat) (o d t0 t1 : Ex) : Ent :=
  let at_ := fun t => exAdd false o (exMul d t)
  match m with
  | .point | .gradient => coordPt j (rne (at_ t0))
  | .interval =>
    let end_ := fun rdn t => exAdd rdn o (boundMul d t)
    if (exIsInf d && exLe t0 zeroEx && exLe zeroEx t1) || (exIsZero d && ivPoint ⟨t0, t1⟩)
      || exIsNan (end_ false t0) || exIsNan (end_ false t1) then { iv := ivEntire }
    else { iv := ivOut (exLeast (end_ true t0) (end_ true t1)) (exMost (end_ false t0) (end_ false t1)) }
  | .affine =>
    if !(exFinite o && exFinite d && exFinite t0 && exFinite t1) then { af := afEntire }
    else
      let x := at_ (exMul (exAdd false t0 t1) halfEx)
      let y := exMul d (exMul (exSub false t1 t0) halfEx)
      { af := afFix ⟨rne x, rne y, r32 .rup (exAdd false (exDist x (rne x)) (exDist y (rne y)))⟩ }

/-- Matrix element j of a transform node. -/
def xformM (r j : Nat) : Ex := ofF32 (bits r (63 + 32 * j) (32 + 32 * j))

/-- An exact sum of products of a row with three values. -/
def rowSum (row xs : List Ex) (mul : Ex → Ex → Ex) (z : Ex) : Ex :=
  (List.zipWith mul row xs).foldl (exAdd false) z

/-- Row r of a transform applied to coordinates (13 R319). -/
def xformRow (m : EvMode) (node : Nat) (xs : List Ent) (r : Nat) : Ent :=
  let row := (List.range 3).map fun j => xformM node (4 * r + j)
  let off := xformM node (4 * r + 3)
  match m with
  | .point | .gradient =>
    { v := rne (exAdd false (rowSum row (xs.map (·.v)) exMul (.zero true)) off),
      g := (List.range 3).map fun j => rne (rowSum row (xs.map fun x => x.g.getD j zeroEx) dMul (.zero true)) }
  | .interval =>
    if (off :: row).any exIsNan then { iv := ivEntire }
    else { iv := ivSum (List.zipWith (fun a x => prodBounds ⟨a, a⟩ x.iv) row xs ++ [some (off, off)]) }
  | .affine =>
    if !((off :: row).all exFinite) || xs.any fun x => exIsInf x.af.e then { af := afEntire }
    else
      let c := exAdd false (rowSum row (xs.map (·.af.c)) exMul (.zero true)) off
      let y := rowSum row (xs.map (·.af.s)) exMul (.zero true)
      let e := rowSum (row.map exAbs) (xs.map (·.af.e)) exMul zeroEx
      { af := afFix ⟨rne c, rne y, r32 .rup (exAdd false e (exAdd false (exDist c (rne c)) (exDist y (rne y))))⟩ }

def xform (m : EvMode) (node : Nat) (xs : List Ent) : List Ent := (List.range 3).map (xformRow m node xs)

/-- The coordinates' box: lower and upper corner. -/
def coordBox (m : EvMode) (xs : List Ent) : List Iv :=
  xs.map fun x => match m with
    | .point | .gradient => ⟨x.v, x.v⟩
    | .interval => x.iv
    | .affine => afIv x.af

/-- A gradient in the coordinates in force turned to the outer frame (13 R322). -/
def chainG (inside : Bool) (xs : List Ent) (g : List Ex) : List Ex :=
  if !inside then g
  else (List.range 3).map fun j =>
    rne ((List.zipWith (fun gr x => dMul gr (x.g.getD j zeroEx)) g xs).foldl (exAdd false) (.zero true))

/-- A value and a gradient as an entry. -/
def entPt (v : Ex) (g : List Ex) : Ent := { v := v, g := g }

/-- An interval as an entry of the interval or affine mode. -/
def entIv (m : EvMode) (i : Iv) : Ent := if m = .affine then { af := afCollapse i } else { iv := i }

/-! ### Brick grids (13 R320) -/

def brickOrg (r j : Nat) : Ex := ofF32 (bits r (63 + 32 * j) (32 + 32 * j))
def brickInv (r : Nat) : Ex := ofF32 (bits r 159 128)
def brickN (r j : Nat) : Nat := bits r (175 + 16 * j) (160 + 16 * j)
def brickOut (r : Nat) : Ex := ofF32 (bits r 239 208)

/-- u on an axis. -/
def brickU (r j : Nat) (x : Ex) : Ex := rne (exMul (exSub false x (brickOrg r j)) (brickInv r))

/-- Whether u lies within the grid's axis; NaN does not. -/
def brickIn (r j : Nat) (u : Ex) : Bool := !exIsNan u && exLe zeroEx u && exLe u (exInt (7 * brickN r j))

/-- The brick index of a u within the grid. -/
def brickAt (r j : Nat) (u : Ex) : Nat := min ((exNum u).toNat / (7 * exDen u)) (brickN r j - 1)

/-- The cell and weight of a u within the grid. -/
def brickCell (r j : Nat) (u : Ex) : Nat × Ex :=
  let f := exSub false u (exInt (7 * brickAt r j u))
  let i := min ((exNum f).toNat / exDen f) 6
  (i, exSub false f (exInt i))

/-- The address of a brick's entry, the x index fastest. -/
def brickEntry (r x y z : Nat) : Nat := bits r 319 256 + 8 * (x + brickN r 0 * (y + brickN r 1 * z))

/-- The exact trilinear sum of eight samples, index x fastest, with a pair of weights per axis. -/
def trilinear (wx wy wz : Ex × Ex) (ss : List Ex) : Ex :=
  let pick := fun (w : Ex × Ex) (b : Nat) => if b = 0 then w.1 else w.2
  (ss.zip (List.range 8)).foldl (fun acc x =>
    exAdd false acc (exMul (exMul (pick wx (x.2 % 2)) (exMul (pick wy (x.2 / 2 % 2)) (pick wz (x.2 / 4)))) x.1)) (.zero true)

/-- The weights of a cell, and those of the derivative. -/
def cellW (w : Ex) : Ex × Ex := (exSub false oneEx w, w)
def cellD : Ex × Ex := (exNeg oneEx, oneEx)

/-- A brick node's value and gradient at a point of its frame. -/
def brickPoint (env : EvEnv) (s : State) (r : Nat) (p : List Ex) : Span (State × Ex × List Ex) :=
  let us := (p.zip (List.range 3)).map fun x => brickU r x.2 x.1
  let out : Ex × List Ex := (brickOut r, [zeroEx, zeroEx, zeroEx])
  if !((us.zip (List.range 3)).all fun x => brickIn r x.2 x.1) then .ok (s, out)
  else
    let b := (us.zip (List.range 3)).map fun x => brickAt r x.2 x.1
    let cs := (us.zip (List.range 3)).map fun x => brickCell r x.2 x.1
    let i := fun j => (cs.getD j (0, zeroEx)).1
    let w := fun j => (cs.getD j (0, zeroEx)).2
    spanThen (readMany env.w env.from_ 8 s [brickEntry r (b.getD 0 0) (b.getD 1 0) (b.getD 2 0)]) fun s1 es =>
      let a := bits (es.headD 0) 55 0
      if a = 0 then .ok (s1, out)
      else
        let at_ := (List.range 8).map fun q => a + 16 + 2 * ((i 0 + q % 2) + 8 * (i 1 + q / 2 % 2) + 64 * (i 2 + q / 4))
        spanThen (readMany env.w env.from_ 2 s1 at_) fun s2 xs =>
          let ss := xs.map fun x => decBin .f16 x
          let g := fun (d : Ex) => rne (exMul (brickInv r) d)
          .ok (s2, rne (trilinear (cellW (w 0)) (cellW (w 1)) (cellW (w 2)) ss),
            [g (trilinear cellD (cellW (w 1)) (cellW (w 2)) ss), g (trilinear (cellW (w 0)) cellD (cellW (w 2)) ss),
             g (trilinear (cellW (w 0)) (cellW (w 1)) cellD ss)])

/-- The brick indices of an axis that an interval touches. -/
def brickSpan (r j : Nat) (x : Iv) : List Nat :=
  let top := exInt (7 * brickN r j)
  let lo := brickU r j x.lo
  let hi := brickU r j x.hi
  if exIsNan lo || exIsNan hi then List.range (brickN r j)
  else if exLt hi zeroEx || exLt top lo then []
  else
    let a := brickAt r j (exMost lo zeroEx)
    let b := brickAt r j (exLeast hi top)
    (List.range (b + 1 - a)).map (a + ·)

/-- Whether part of an interval lies outside the grid's axis. -/
def brickOutside (r j : Nat) (x : Iv) : Bool := !(brickIn r j (brickU r j x.lo) && brickIn r j (brickU r j x.hi))

/-- The bounds of bricks from their entries. -/
def brickBounds (env : EvEnv) (r : Nat) : State → List Nat → Span (State × List Iv)
  | s, [] => .ok (s, [])
  | s, at_ :: rest => spanThen (readMany env.w env.from_ 8 s [at_]) fun s1 es =>
    let a := bits (es.headD 0) 55 0
    if a = 0 then spanThen (brickBounds env r s1 rest) fun s2 l => .ok (s2, ⟨brickOut r, brickOut r⟩ :: l)
    else spanThen (readMany env.w env.from_ 2 s1 [a, a + 2]) fun s2 mm =>
      spanThen (brickBounds env r s2 rest) fun s3 l =>
        .ok (s3, ⟨decBin .f16 (mm.getD 0 0), decBin .f16 (mm.getD 1 0)⟩ :: l)

/-- A brick node's bound over a box of its frame. -/
def brickBox (env : EvEnv) (s : State) (r : Nat) (box : List Iv) : Span (State × Iv) :=
  let ax := fun j => brickSpan r j (box.getD j ivEntire)
  let es := (ax 2).flatMap fun z => (ax 1).flatMap fun y => (ax 0).map fun x => brickEntry r x y z
  let some_ := (List.range 3).any fun j => brickOutside r j (box.getD j ivEntire)
  spanThen (brickBounds env r s es) fun s1 bs =>
    let all := if some_ then ⟨brickOut r, brickOut r⟩ :: bs else bs
    .ok (s1, match all with
      | [] => ivEntire
      | x :: xs => xs.foldl (fun a b => ivHull a (ivFix b)) (ivFix x))

/-! ### Neural nodes (13 R321) -/

/-- Little-endian 16-bit numbers of bytes. -/
def halves : List Byte → List Nat
  | a :: b :: r => leNat [a, b] :: halves r
  | _ => []

/-- One row of a pass: each column's exact products added to its accumulator, rounded once (03 R77, R78). -/
def rowPass (acc : List Nat) (row : List Ex) (cols : List (List Ex)) : List Nat :=
  List.zipWith (fun x col =>
    toF32 .rne (passSum (ofF32 x) (row.map plain) (col.map plain))) acc cols

/-- An activation in binary32. -/
def activate (a : Nat) (x : Ex) : Ex :=
  match a with
  | 1 => if exIsNan x then x else exMost x zeroEx
  | 2 => ptOp 0x26 [x]
  | _ => x

/-- The weights of a pass of a network, by column: those of layer 0 in one pass, those of a later layer in two (13 R321). -/
def netWeights (s : State) (w : Who) (from_ node pass : Nat) : Span (State × List (List Ex)) :=
  let j := (pass + 1) / 2
  let base := bits node (191 + 64 * j) (128 + 64 * j)
  if pass = 0 then
    spanThen (readLines w from_ 64 s ((List.range 64).map fun c => base + 64 * c)) fun s1 ls =>
      .ok (s1, ls.map fun l => (words4 l).map ofF32)
  else
    spanThen (readLines w from_ 64 s ((List.range 64).map fun c => base + 128 * c + 64 * ((pass - 1) % 2))) fun s1 ls =>
      .ok (s1, ls.map fun l => (halves l).map (decBin .f16))

/-- The F16 inputs of the layer after a tile row: its activation in binary32, element 63 one. -/
def netInputs (node pass : Nat) (tile : List Nat) : List Nat :=
  let j := (pass + 1) / 2 - 1
  let act := bits node (35 + 2 * j) (34 + 2 * j)
  (tile.map fun x => roundTo .f16 .rne false false none (activate act (ofF32 x))).take 63 ++ [0x3C00]

/-- A row of a request after a pass. -/
def netRow (node point pass : Nat) (cols : List (List Ex)) (r : NetRow) : NetRow :=
  let zero := List.replicate 64 0
  if pass = 0 then
    { r with tile := rowPass zero ((r.pts.getD point []).map ofF32 ++ oneEx :: List.replicate 12 zeroEx) cols }
  else if pass % 2 = 1 then
    let x := netInputs node pass r.tile
    { r with x := x, tile := rowPass zero ((x.take 32).map (decBin .f16)) cols }
  else { r with tile := rowPass r.tile ((r.x.drop 32).map (decBin .f16)) cols }

/-- Whether a pass is the network's last. -/
def netLast (node pass : Nat) : Bool := pass == 2 * bits node 33 32

/-- The point p with coordinate i moved by a step. -/
def shifted (p : List Ex) (i : Nat) (by_ : Ex) : List Ex :=
  (p.zip (List.range 3)).map fun x => if x.2 = i then rne (exAdd false x.1 by_) else x.1

/-- 2⁻¹². -/
def netStep : Ex := .fin false 1 4096

/-- The points at which a mode evaluates a network over some coordinates. -/
def netPoints (m : EvMode) (xs : List Ent) : List (List Ex) :=
  let p := xs.map (·.v)
  match m with
  | .point => [p]
  | .gradient => p :: (List.range 3).flatMap fun i => [shifted p i netStep, shifted p i (exNeg netStep)]
  | .interval => [xs.map fun x => rne (exMul (exAdd false x.iv.lo x.iv.hi) halfEx)]
  | .affine => [xs.map (·.af.c)]

/-- The bound of a network whose value at the centre is f, within a radius. -/
def netBound (env : EvEnv) (node : Nat) (f ρ : Ex) : Iv :=
  let l0 := ofF32 (bits node 95 64)
  let d := exMul (if exIsZero l0 then imgLip env.img else l0) ρ
  if exIsNan f || exIsNan d then ivEntire else ivOut (exSub true f d) (exAdd false f d)

/-- A neural node in a mode, from the network's values at its points. -/
def netEnt (env : EvEnv) (node : Nat) (inside : Bool) (xs : List Ent) (vs : List Ex) : Ent :=
  let f := vs.headD zeroEx
  match env.m with
  | .point => entPt f []
  | .gradient => entPt f (chainG inside xs ((List.range 3).map fun i =>
      rne (exDiv (exSub false (vs.getD (2 * i + 1) zeroEx) (vs.getD (2 * i + 2) zeroEx)) (exMul twoEx netStep))))
  | .interval => { iv := netBound env node f (r32 .rup (exLen (xs.map fun x => exMul (exSub false x.iv.hi x.iv.lo) halfEx))) }
  | .affine => { af := afCollapse (netBound env node f (r32 .rup (exLen (xs.map fun x => exAdd false (exAbs x.af.s) x.af.e)))) }

/-- A brick node in a mode. -/
def brickNode (env : EvEnv) (s : State) (r : Nat) (inside : Bool) (xs : List Ent) : Span (State × Ent) :=
  match env.m with
  | .point | .gradient => spanThen (brickPoint env s r (xs.map (·.v))) fun s1 x =>
      .ok (s1, entPt x.1 (chainG inside xs x.2))
  | m => spanThen (brickBox env s r (coordBox m xs)) fun s1 i => .ok (s1, entIv m i)

/-! ### Opaque nodes (13 R322, R339) -/

/-- MODE of a request. -/
def askMode (m : EvMode) : Nat :=
  match m with
  | .point => 0
  | .gradient => 1
  | _ => 2

/-- A number for each mode, by which rays in one evaluation are told apart. -/
def evCode (m : EvMode) : Nat :=
  match m with
  | .point => 0
  | .gradient => 1
  | .interval => 2
  | .affine => 3

/-- The six corner words of a request. -/
def askBox (m : EvMode) (xs : List Ent) : List Nat :=
  let b := coordBox m xs
  b.map (fun i => toF32 .rne i.lo) ++ b.map fun i => toF32 .rne i.hi

/-- A reply as the node's value. -/
def replyEnt (m : EvMode) (inside : Bool) (xs : List Ent) (r : Reply) : Ent :=
  match m with
  | .point | .gradient => entPt (ofF32 r.lo) (chainG inside xs (r.g.map ofF32))
  | m => entIv m (ivFix ⟨ofF32 r.lo, ofF32 r.hi⟩)

/-! ### The evaluation of a program (13 R310–R313) -/

/-- An evaluation between two operators: the stack, top first; the coordinates in force; those of the transforms
pushed; the replies not yet taken. -/
structure EvSt where
  s : State
  st : List Ent
  xs : List Ent
  tx : List (List Ent)
  replies : List Reply

/-- The outcome of an evaluation: it goes on; data that it needs faults; it needs a reply; it needs a network's values. -/
inductive EvRes
  | go (e : EvSt)
  | fault (s : State) (kind : TrapKind) (va : Nat)
  | ask (s : State) (node mode : Nat) (box : List Nat)
  | net (s : State) (a : NetAsk)

/-- A node's value pushed. -/
def pushNode (e : EvSt) (x : Span (State × Ent)) : EvRes :=
  match x with
  | .ok (s1, v) => .go { e with s := s1, st := v :: e.st }
  | .hold => .fault e.s .translation 0
  | .fail k va => .fault e.s k va

/-- One operator. -/
def fieldOp (env : EvEnv) (o : FieldOp) (e : EvSt) : EvRes :=
  let node := imgNode env.img o.2.2
  let inside := !e.tx.isEmpty
  match o.2.1 with
  | 0x30 => .go { e with st := entConst (imgPool env.img o.2.2) :: e.st }
  | 0x31 => match e.st with
    | b :: a :: r => .go { e with st := sminEnt env.m (imgPool env.img o.2.2) a b :: r }
    | _ => .go e
  | 0x32 => .go { e with xs := xform env.m node e.xs, tx := e.xs :: e.tx }
  | 0x33 => match e.tx with
    | x :: r => .go { e with xs := x, tx := r }
    | [] => .go e
  | 0x34 => pushNode e (brickNode env e.s node inside e.xs)
  | 0x35 => match e.replies with
    | [] => .net e.s { place := o.1, node := o.2.2, mode := evCode env.m, pts := (netPoints env.m e.xs).map fun p => p.map (toF32 .rne) }
    | r :: rs => .go { e with replies := rs, st := netEnt env node inside e.xs (r.g.map ofF32) :: e.st }
  | 0x36 => match e.replies with
    | [] => .ask e.s o.2.2 (askMode env.m) (askBox env.m e.xs)
    | r :: rs => .go { e with replies := rs, st := replyEnt env.m inside e.xs r :: e.st }
  | c => .go { e with st := stackOp env.m (e.xs ++ [entConst (ofF32 env.param)]) c e.st }

/-- A program's operators in turn. -/
def runField (env : EvEnv) : List FieldOp → EvSt → EvRes
  | [], e => .go e
  | o :: os, e => match fieldOp env o e with
    | .go e1 => runField env os e1
    | r => r

/-- A program evaluated at coordinates, with the replies received so far. -/
def evalField (env : EvEnv) (s : State) (xs : List Ent) (replies : List Reply) : EvRes :=
  runField env ((imgOps env.img).getD []) { s := s, st := [], xs := xs, tx := [], replies := replies }

/-- The interval of a bound. -/
def boundOf (m : EvMode) (e : Ent) : Iv := if m = .affine then afIv e.af else e.iv

/-! ### Bucking (13 R328) -/

/-- A stack entry's bound with its span, as operator indexes. -/
structure Spanned where
  e : Ent
  lo : Nat
  hi : Nat

/-- A MIN or MAX with its operands' bounds and spans. -/
structure BuckCut where
  q : Nat
  least : Bool
  a : Spanned
  b : Spanned

/-- A bucking evaluation between two operators. `push` is the first transform byte that no entry's span holds yet. -/
structure BuckSt where
  s : State
  st : List Spanned := []
  xs : List Ent
  tx : List (List Ent) := []
  push : Option Nat := none
  cuts : List BuckCut := []

/-- One operator of a bucking evaluation, at index i; NFIELD and OPAQUE give the entire interval. -/
def buckOp (env : EvEnv) (i : Nat) (o : FieldOp) (k : BuckSt) : Except (TrapKind × Nat) BuckSt :=
  let c := o.2.1
  let first := k.push.getD i
  let leaf := fun (s : State) (v : Ent) => Except.ok { k with s := s, st := ⟨v, first, i⟩ :: k.st, push := none }
  let node := imgNode env.img o.2.2
  if c = 0x32 then .ok { k with xs := xform env.m node k.xs, tx := k.xs :: k.tx, push := some first }
  else if c = 0x33 then
    let k1 := { k with xs := k.tx.headD k.xs, tx := k.tx.tail }
    match k.st with
    | x :: r => .ok { k1 with st := { x with hi := i } :: r,
                              push := if (match k.push with
                                | some j => decide (x.lo ≤ j)
                                | none => false) then none else k.push }
    | [] => .ok k1
  else if c = 0x34 then
    match brickNode env k.s node false k.xs with
    | .ok (s1, v) => leaf s1 v
    | .hold => .error (.translation, 0)
    | .fail kind va => .error (kind, va)
  else if c = 0x35 ∨ c = 0x36 then leaf k.s { iv := ivEntire }
  else
    let p := fieldShape c
    let args := k.st.take p.1
    let rest := k.st.drop p.1
    if args.isEmpty then
      match fieldOp env o { s := k.s, st := [], xs := k.xs, tx := [], replies := [] } with
      | .go e => leaf e.s (e.st.headD {})
      | _ => .ok k
    else
      let lo := args.foldl (fun m x => min m x.lo) i
      let out := match fieldOp env o { s := k.s, st := args.map (·.e), xs := k.xs, tx := [], replies := [] } with
        | .go e => e.st.map fun v => (⟨v, lo, i⟩ : Spanned)
        | _ => []
      let cut := match c, args with
        | 0x12, [b, a] => [(⟨i, true, a, b⟩ : BuckCut)]
        | 0x13, [b, a] => [⟨i, false, a, b⟩]
        | _, _ => []
      .ok { k with st := out ++ rest, push := none, cuts := k.cuts ++ cut }

/-- The bucking evaluation of operators from index i on. -/
def buckRun (env : EvEnv) : Nat → List FieldOp → BuckSt → Except (TrapKind × Nat) BuckSt
  | _, [], k => .ok k
  | i, o :: os, k => match buckOp env i o k with
    | .ok k1 => buckRun env (i + 1) os k1
    | .error e => .error e

/-- Whether transform bytes of codes pair, from a depth. -/
def pairsUp : List Nat → Nat → Bool
  | [], n => n == 0
  | c :: cs, n => if c = 0x32 then pairsUp cs (n + 1) else if c = 0x33 then (n != 0 && pairsUp cs (n - 1)) else pairsUp cs n

/-- Whether a span is a tree. -/
def isTree (codes : List Nat) (x : Spanned) : Bool :=
  let cs := (codes.take (x.hi + 1)).drop x.lo
  !(cs.any fun c => decide (4 ≤ c) && decide (c ≤ 8)) && pairsUp cs 0

/-- The operator indexes that a MIN or MAX cuts. -/
def cutOf (codes : List Nat) (x : BuckCut) : List Nat :=
  let a := x.a.e.iv
  let b := x.b.e.iv
  let range := fun (y : Spanned) => x.q :: (List.range (y.hi + 1 - y.lo)).map (y.lo + ·)
  if !(isTree codes x.a && isTree codes x.b) then []
  else if x.least then (if exLt b.hi a.lo then range x.a else if exLt a.hi b.lo then range x.b else [])
  else if exLt a.hi b.lo then range x.a
  else if exLt b.hi a.lo then range x.b
  else []

/-- A pruned image with the given kept bytes of code. -/
def packImage (img code : List Byte) : List Byte :=
  let pool := imgNd img - imgCp img
  let ff := fun n => List.replicate n (0xFF : Byte)
  let c1 := code ++ ff ((4 - code.length % 4) % 4)
  let c2 := if (32 + c1.length + pool) % 8 = 4 then c1 ++ ff 4 else c1
  let cp := 32 + c2.length
  let nd := cp + pool
  let len := nd + (imgLen img - imgNd img)
  leBytes len 2 ++ leBytes cp 2 ++ leBytes nd 2 ++ (img.take 32).drop 6 ++ c2 ++ (img.take (imgLen img)).drop (imgCp img)

/-- Buck(prog, box): the pruned image. -/
def buckImage (env : EvEnv) (s : State) (box : List Iv) : Except (TrapKind × Nat) (State × List Byte) :=
  let ops := (imgOps env.img).getD []
  let codes := ops.map (·.2.1)
  match buckRun { env with m := .interval } 0 ops { s := s, xs := box.map fun i => { iv := i } } with
  | .error e => .error e
  | .ok k =>
    let gone := k.cuts.flatMap (cutOf codes)
    let kept := (ops.zip (List.range ops.length)).filter fun x => !gone.contains x.2
    let code := kept.flatMap fun x => (env.img.drop x.1.1).take (if takesWord x.1.2.1 then 3 else 1)
    .ok (k.s, packImage env.img code)

end Sys2Proof.Machine
end

