-- ==== Sys2Proof/Machine/Rays.lean ====
section
/-! DEFINITION. BOXT, TRIT, VFETCH, CQPOP and CQRET: their issue and their performance in the MEM queue (13 R323, R332,
R338–R342). -/

namespace Sys2Proof.Machine

/-! ### Vectors of exact values -/

def exSub3 (a b : List Ex) : List Ex := List.zipWith (exSub false) a b
def exDot (a b : List Ex) : Ex := (List.zipWith exMul a b).foldl (exAdd false) zeroEx
def exCross (a b : List Ex) : List Ex :=
  let x := fun (l : List Ex) (i : Nat) => l.getD i zeroEx
  [exSub false (exMul (x a 1) (x b 2)) (exMul (x a 2) (x b 1)),
   exSub false (exMul (x a 2) (x b 0)) (exMul (x a 0) (x b 2)),
   exSub false (exMul (x a 0) (x b 1)) (exMul (x a 1) (x b 0))]

/-- A real's binary32 bits; an exact zero is +0. -/
def realBits (x : Ex) : Nat := if exIsZero x then 0 else toF32 .rne x

/-! ### BOXT (13 R340) -/

/-- One axis of a child box: near and far, none where the child misses. -/
def boxAxis (o d lo hi : Ex) : Option (Ex × Ex) :=
  if exIsZero d then (if exLe lo o && exLe o hi then some (.inf true, .inf false) else none)
  else
    let a := exDiv (exSub false lo o) d
    let b := exDiv (exSub false hi o) d
    if exIsNan a || exIsNan b then none else some (r32 .rdn (exLeast a b), r32 .rup (exMost a b))

/-- The entry of a ray into child box j of a node, none where it misses. -/
def boxChild (ray : List Ex) (node : Nat) (j : Nat) : Option Ex :=
  let f := fun (k : Nat) => ofF32 (bits node (192 * j + 32 * k + 31) (192 * j + 32 * k))
  let r := fun (k : Nat) => ray.getD k zeroEx
  let full := bits node (831 + 64 * j) (768 + 64 * j) / 2 ^ 62 != 0
  let odd := (ray.any exIsNan) || (List.range 6).any fun k => exIsNan (f k)
  if !full || odd || (List.range 3).any fun k => exLt (f (k + 3)) (f k) then none
  else match (List.range 3).mapM fun k => boxAxis (r k) (r (k + 3)) (f k) (f (k + 3)) with
    | none => none
    | some axes =>
      let near := axes.foldl (fun m x => exMost m x.1) (r 6)
      let far := axes.foldl (fun m x => exLeast m x.2) (r 7)
      if exLe near far then some near else none

/-- Children in ascending entry, ties by number. -/
def sortHits : List (Nat × Ex) → List (Nat × Ex)
  | [] => []
  | x :: xs =>
    let r := sortHits xs
    (r.takeWhile fun y => exLt y.2 x.2) ++ x :: r.dropWhile fun y => exLt y.2 x.2

/-- The two result registers of a ray at a node, as one number. -/
def boxResult (ray : List Ex) (node : Nat) : Nat :=
  let hits := sortHits ((List.range 4).filterMap fun j => (boxChild ray node j).map fun e => (j, e))
  let order := hits.map (·.1) ++ (List.range 4).filter fun j => !(hits.any fun h => h.1 == j)
  let word := pack ((List.range 4).map (fun j => (1, (hits.any fun h => h.1 == j).toNat)) ++ order.map fun j => (2, j))
  word + 2 ^ 32 * (match hits with
    | [] => 0x7F800000
    | h :: _ => toF32 .rne h.2)

/-! ### TRIT (13 R341) -/

/-- The four result registers of a ray at a triangle. -/
def triResult (cull : Bool) (ray : List Ex) (vs : List Ex) : Nat :=
  let miss := 0x7F800000
  let o := ray.take 3
  let d := (ray.drop 3).take 3
  if (ray ++ vs).any exIsNan || !((o ++ d ++ vs).all exFinite) then miss
  else
    let v0 := vs.take 3
    let e1 := exSub3 ((vs.drop 3).take 3) v0
    let e2 := exSub3 (vs.drop 6) v0
    let s := exSub3 o v0
    let n := exCross e1 e2
    let D := exNeg (exDot d n)
    if exIsZero D || (cull && exLt D zeroEx) then miss
    else
      let t := exDiv (exDot s n) D
      let u := exDiv (exNeg (exDot d (exCross s e2))) D
      let v := exDiv (exNeg (exDot d (exCross e1 s))) D
      let tmin := ray.getD 6 zeroEx
      let tmax := ray.getD 7 zeroEx
      if exLe zeroEx u && exLe zeroEx v && exLe (exAdd false u v) oneEx && exLe tmin t && exLe t tmax then
        realBits t + 2 ^ 32 * realBits u + 2 ^ 64 * realBits v + 2 ^ 96
      else miss

/-! ### VFETCH (13 R342) -/

/-- The taps of an axis of n texels: index, weight, weight of the derivative. -/
def fetchTaps (n : Nat) (border : Bool) (u : Ex) : List (Option Nat × Ex × Ex) :=
  let place := fun (i : Int) => if 0 ≤ i ∧ i < n then some i.toNat else if border then none
    else some (if i < 0 then 0 else n - 1)
  match u with
  | .inf s => [(if border then none else some (if s then 0 else n - 1), oneEx, zeroEx)]
  | u =>
    let f := exSub false u halfEx
    let i := roundInt .rdn f
    let w := exSub false f (exInt i)
    [(place i, exSub false oneEx w, exNeg oneEx), (place (i + 1), w, oneEx)]

/-- The texels of a point: their offsets from BASE, if within, with the weights of the value and of each derivative. -/
def fetchPlan (desc : Nat) (p : List Nat) : List (Option Nat × List Ex) :=
  let n := fun (j : Nat) => bits desc (79 + 16 * j) (64 + 16 * j)
  let taps := fun (j : Nat) => fetchTaps (n j) (bit desc 112) (ofF32 (p.getD j 0))
  (taps 2).flatMap fun z => (taps 1).flatMap fun y => (taps 0).map fun x =>
    let at_ := match x.1, y.1, z.1 with
      | some i, some j, some k => some (4 * i + bits desc 159 128 * j + bits desc 191 160 * k)
      | _, _, _ => none
    (at_, [exMul x.2.1 (exMul y.2.1 z.2.1), exMul x.2.2 (exMul y.2.1 z.2.1), exMul x.2.1 (exMul y.2.2 z.2.1),
           exMul x.2.1 (exMul y.2.1 z.2.2)])

/-- Whether a coordinate is NaN. -/
def fetchNan (p : List Nat) : Bool := p.any fun w => exIsNan (ofF32 w)

/-- The addresses of a lane's texels. -/
def fetchAddrs (desc : Nat) (p : List Nat) : List Nat :=
  if fetchNan p then [] else (fetchPlan desc p).filterMap fun x => x.1.map fun o => bits desc 55 0 + o

/-- The result registers of a lane, from its texels in order. The derivative along an axis whose coordinate is infinite, where
all weight stays on one texel, is +0 (log entry 53). -/
def fetchResult (desc : Nat) (grad : Bool) (p : List Nat) (texels : List Nat) : Nat :=
  let n := if grad then 4 else 1
  if fetchNan p then (List.range n).foldl (fun r k => r + 0x7FC00000 * 2 ^ (32 * k)) 0
  else
    let plan := fetchPlan desc p
    let go := plan.foldl (fun (r : List Nat × List (Ex × List Ex)) x => match x.1 with
      | none => (r.1, r.2 ++ [(zeroEx, x.2)])
      | some _ => (r.1.tail, r.2 ++ [(ofF32 (r.1.headD 0), x.2)])) (texels, [])
    let flat := fun (k : Nat) => k != 0 && exIsInf (ofF32 (p.getD (k - 1) 0))
    (List.range n).foldl (fun r k =>
      let v := if flat k then zeroEx
        else go.2.foldl (fun acc x => exAdd false acc (exMul (x.2.getD k zeroEx) x.1)) (.zero true)
      r + toF32 .rne v * 2 ^ (32 * k)) 0

/-! ### Their performance -/

/-- The reads of an operation's lanes, in pieces of n bytes, each a value held since an index: columns 2 to 4 of 07 R168;
`fin` takes each piece's value with its lane. -/
def performReads (s : State) (t g : Nat) (o : Pending) (from_ : Nat) (ps : List (Nat × Nat)) (n : Nat)
    (fin : List (Nat × Nat) → List Nat) (regs : Nat) : State :=
  let T := teamOf s t
  let w := whoOf T (groupOf s t g) o.pc false
  match columnTrap ((ps.filter fun p => decide (2 ^ 56 < p.2 + n)).map fun p => (p.1, p.2, TrapKind.translation)) with
  | some (k, m, a) => trapPending s t g o k m a
  | none =>
  match translateLanes s T.ctx T.die o.scope ps n .rd (some 0) false with
  | .hold => s
  | .fail k m a => trapPending (if k = .uncorrected then detectAll s T.ctx n ((ps.filter fun p => m.getLsbD p.1).map (·.2)) else s) t g o k m a
  | .ok keys =>
    let s1 := (ps.zip keys).foldl (fun s x => noteRead s w x.1.2 x.2.2 n) s
    doneOp s1 t g o.id (resOf o.keys regs (fin (keys.map fun k => (k.1, leNat (readParts s from_ k.1 k.2 n)))))

/-- The values of a lane among pieces. -/
def ofLane (vs : List (Nat × Nat)) (l : Nat) : List Nat := (vs.filter fun x => x.1 == l).map (·.2)

def performBoxt (s : State) (t g : Nat) (o : Pending) (accs : List Acc) (rays : List (List Nat)) : State :=
  performReads s t g o (readFrom (groupOf s t g) o) (accs.map fun a => (a.lane, a.addr)) 128
    (fun vs => (accs.zip rays).map fun x => boxResult (x.2.map ofF32) ((ofLane vs x.1.lane).headD 0)) 2

def performTrit (s : State) (t g : Nat) (o : Pending) (cull : Bool) (accs : List Acc) (rays : List (List Nat)) : State :=
  performReads s t g o (readFrom (groupOf s t g) o) (accs.flatMap fun a => (List.range 9).map fun i => (a.lane, a.addr + 4 * i)) 4
    (fun vs => (accs.zip rays).map fun x => triResult cull (x.2.map ofF32) ((ofLane vs x.1.lane).map ofF32)) 4

/-- The bytes of a core's L1 that are its volume cache: the largest demand of its teams, in KiB (08 R200). -/
def volumeCache (s : State) (core : Nat) : Nat :=
  s.teams.foldl (fun n e => if teamCore e.2 = core ∧ e.2.ctl = false ∧ inPlace e.2 then max n e.2.vcd else n) 0

/-- The index of the history from which on a team's reads through the volume cache may return values: while its core has
one, those held since the launch began, or since the cache was dropped (08 R200). -/
def volumeFrom (s : State) (core began now : Nat) : Nat :=
  if volumeCache s core = 0 then now else min now (max began (coreOf s core).vcAt)

def performVfetch (s : State) (t g : Nat) (o : Pending) (grad : Bool) (desc : Nat) (pts : List (Nat × List Nat)) : State :=
  let T := teamOf s t
  performReads s t g o (volumeFrom s (teamCore T) T.began (readFrom (groupOf s t g) o)) (pts.flatMap fun x => (fetchAddrs desc x.2).map fun a => (x.1, a)) 4
    (fun vs => pts.map fun x => fetchResult desc grad x.2 (ofLane vs x.1)) (if grad then 4 else 1)

/-! ### The callable queue (13 R322, R323, R338, R339) -/

def modRay (s : State) (t id lane : Nat) (f : Ray → Ray) : State :=
  let ray := fun (r : Ray) => if r.lane == lane then f r else r
  let one := fun (m : MarchOp) => if m.id == id then { m with rays := m.rays.map ray } else m
  modTeam s t fun T => { T with marches := T.marches.map one }

/-- The queue that a batch or FEVAL uses: that of its captured binding, or of its slot before it starts. -/
def marchQueue (T : Team) (m : MarchOp) : Option Nat :=
  let slot := fun (n : Nat) => if m.started then m.prog.cqoff else (tget ({} : ProgSlot) T.slots n).cqoff
  match m.kind with
  | .batch n _ _ => some (slot n)
  | .feval n _ => some (slot n)
  | _ => none

/-- The reply of a lane's registers: ticket, lower, upper, gradient. -/
def replyOf (r : List Nat) : Reply := { lo := r.getD 1 0, hi := r.getD 2 0, g := (r.drop 3).take 3 }

/-- A reply taken by the ray that waits for its ticket in a queue, if any does. -/
def takeReply (s : State) (t off : Nat) (r : List Nat) : State :=
  let give := fun (y : Ray) =>
    if y.appended && y.ticket == some (r.getD 0 0) then
      { y with replies := y.replies ++ [replyOf r], ticket := none, appended := false, wait := 0 }
    else y
  modTeam s t fun T =>
    let one := fun (m : MarchOp) => if marchQueue T m == some off then { m with rays := m.rays.map give } else m
    { T with marches := T.marches.map one }

def performCqret (s : State) (t g : Nat) (o : Pending) (off : Nat) (replies : List (List Nat)) : State :=
  doneOp (replies.foldl (fun s r => takeReply s t off r) s) t g o.id []

/-- Requests in a queue: TAIL − HEAD. -/
def cqCount (T : Team) (off : Nat) : Nat := (landNat T (off + 4) 4 + 2 ^ 32 - landNat T off 4) % 2 ^ 32

/-- The registers of an entry as CQPOP delivers them; the entry's reserved bits read zero (13 R323, R338). -/
def entryRegs (e : Nat) : List Nat :=
  [bits e 31 0, bits e 49 32, bits e 95 64, bits e 319 288] ++ (List.range 6).map fun i => bits e (127 + 32 * i) (96 + 32 * i)

/-- Takes the entries of a CQPOP: a run for its lanes, HEAD advanced. -/
def takeEntries (s : State) (t g : Nat) (o : Pending) (off : Nat) : State :=
  let T := seen s t true
  let h := landNat T off 64
  let head := bits h 31 0
  let ls := lanesOf o.lanes
  let k := if cqCap h = 0 then 0 else min ls.length (cqCount T off)
  let at_ := fun (j : Nat) => cqRing h + 64 * ((head + j) % 2 ^ 32 % cqCap h)
  if ((List.range k).any fun j => landMeetsBad T (at_ j) 64 false) then
    trapPending s t g o .uncorrected o.lanes (at_ 0)
  else
    let lane := fun (x : Nat × Nat) =>
      let keys := (o.keys.drop (10 * x.2)).take 10
      if x.2 < k then (keys.zip (entryRegs (landNat T (at_ x.2) 64))).map fun y => (y.1, BitVec.ofNat 32 y.2)
      else (keys.take 1).map fun y => (y, (0xFFFFFFFF : Word))
    let res := (ls.zip (List.range ls.length)).flatMap lane
    doneOp (if k = 0 then s else landWrite s t off (leBytes ((head + k) % 2 ^ 32) 4)) t g o.id res

/-- CQPOP_TAKE: entries stand in the queue, or no batch or FEVAL that uses it is outstanding (13 R338, 20 R441). -/
def execCqpopTake (t g id : Nat) (s : State) : Host.Outcome State Fault Refusal :=
  match (groupOf s t g).pend.find? fun o => o.id == id with
  | none => .next s
  | some o => match o.work with
    | .cqpop off =>
      let T := seen s t true
      if o.performed || !memReady (groupOf s t g) id
        || (cqCount T off == 0 && T.marches.any fun m => marchQueue T m == some off) then .next s
      else .next (takeEntries s t g o off)
    | _ => .next s

/-! ### Entries -/

/-- The registers of a vector group in the active lanes. -/
def laneGroup (c : Iss) (x : Operand) (n : Nat) (ls : List Nat) : List (List Nat) :=
  ls.map fun l => (List.range n).map fun j => rd c x j l

/-- Register k registers beyond a vector. -/
def vecPlus (x : Operand) (k : Nat) : Operand :=
  match x with
  | .v n => .v (n + k)
  | y => y

/-- Whether a vector group does not begin at a multiple of n. -/
def vecOdd (x : Operand) (n : Nat) : Bool :=
  match x with
  | .v k => k % n != 0
  | _ => true

/-- BOXT and TRIT: rays and node addresses of the active lanes, as one load of a size and alignment. -/
def rayWord (i : Instr) (look : Nat) (nd align : Nat) (d a : Operand) (work : List Acc → List (List Nat) → Work)
    (s : State) : Host.Outcome State Fault Refusal :=
  issueWord i
    (fun _ _ _ => { uses := [{ op := d, n := nd, src := false, dst := true }, { op := a, n := 10 }],
                    opBad := vecOdd d (if nd = 4 then 4 else 2) || vecOdd a 2 })
    (fun c =>
      let x := pairOf c (vecPlus a 8)
      if c.act == 0 then .adv c.s
      else if pendFull c look true then .stall
      else memEnter c .global align x fun s rest =>
        let ls := lanesOf rest
        let accs := ls.map fun l => ({ lane := l, addr := x l } : Acc)
        let s1 := compareLanes s c .global (if nd = 4 then 36 else 128) (accs.map (·.addr)) false
        .adv (post { c with act := rest } s1 look
          { memq := true, work := work accs (laneGroup c a 8 ls), keys := ls.flatMap fun l => dstKeys c.P d nd l,
            regs := true })) s

def execBoxt (look : Nat) (d a : Operand) (s : State) : Host.Outcome State Fault Refusal :=
  rayWord (.boxt look d a) look 2 128 d a .boxt s

def execTrit (look : Nat) (cull : Bool) (d a : Operand) (s : State) : Host.Outcome State Fault Refusal :=
  rayWord (.trit look cull d a) look 4 4 d a (.trit cull) s

/-- A VFETCH descriptor that is refused. -/
def descBad (x : Nat) : Bool :=
  bits x 63 56 != 0 || bits x 127 113 != 0 || bits x 255 192 != 0
    || (List.range 3).any fun j => bits x (79 + 16 * j) (64 + 16 * j) == 0

/-- VFETCH. Its descriptor is read in the order of the MEM queue: the word waits for the earlier operations (07 R170, 13 R303). -/
def execVfetch (look : Nat) (grad : Bool) (d a : Operand) (s : State) : Host.Outcome State Fault Refusal :=
  issueWord (.vfetch look grad d a)
    (fun _ _ _ => { uses := [{ op := d, n := 4, src := false, dst := true }, { op := d, n := 3 }, { op := a }], opBad := vecOdd d 4 || !isUniform a })
    (fun c =>
      let off := rd c a 0 0
      let desc := landNat c.T off 32
      let ls := lanesOf c.act
      let pts := ls.zip (laneGroup c d 3 ls)
      if c.act == 0 then .adv c.s
      else if memOpsBefore c.s c.G then .stall
      else if recordBad c.T off 32 then .trap .reservedOperand c.act 0 0
      else if inCopied c.T true off 32 then .stall
      else if landMeetsBad c.T off 32 false then .trap .uncorrected c.act off 0
      else if descBad desc then .trap .reservedOperand c.act 0 0
      else if pendFull c look true then .stall
      else
        let odd := pts.filter fun x => (fetchAddrs desc x.2).any fun y => y % 4 != 0
        match odd with
        | x :: _ => .trap .misaligned (maskOf (odd.map (·.1))) (((fetchAddrs desc x.2).find? fun y => y % 4 != 0).getD 0) 0
        | [] =>
          let s1 := compareLanes c.s c .global 4 (pts.flatMap fun x => fetchAddrs desc x.2) false
          .adv (post c s1 look { memq := true, work := .vfetch grad desc pts, regs := true,
                                 keys := ls.flatMap fun l => dstKeys c.P d (if grad then 4 else 1) l })) s

/-- VISW: the least of the old and the new word (13 R330, R343). -/
def execVisw (look : Nat) (d a : Operand) (s : State) : Host.Outcome State Fault Refusal :=
  issueWord (.visw look d a)
    (fun _ _ _ => { uses := [{ op := d, n := 2, dst := true }, { op := a, n := 2 }], opBad := !isVector d || !isVector a })
    (fun c =>
      let x := pairOf c a
      if c.act == 0 then .adv c.s
      else if pendFull c look true then .stall
      else memEnter c .global 8 x fun s rest =>
        let ls := lanesOf rest
        let accs := ls.map fun l => ({ lane := l, addr := x l, v := pairOf c d l } : Acc)
        let s1 := compareLanes s c .global 8 (accs.map (·.addr)) true
        .adv (post { c with act := rest } s1 look
          { memq := true, work := .visw accs, keys := ls.flatMap fun l => dstKeys c.P d 2 l, regs := true })) s

/-- The checks on a queue's header at issue (13 R338). -/
def cqChecked (c : Iss) (off : Nat) (go : Unit → Eff) : Eff :=
  let h := landNat c.T off 64
  if off % 64 != 0 || !inLanding c.T off 64 then .trap .reservedOperand c.act 0 0
  else if landMeetsBad c.T off 64 false then .trap .uncorrected c.act off 0
  else if cqHeaderBad c.T off then .trap .reservedOperand c.act 0 0
  else if inCopied c.T true off 64 || inCopied c.T true (cqRing h) (64 * cqCap h) then .stall
  else go ()

def execCqpop (look : Nat) (d a : Operand) (s : State) : Host.Outcome State Fault Refusal :=
  issueWord (.cqpop look d a)
    (fun _ _ _ => { uses := [{ op := d, n := 10, src := false, dst := true }, { op := a }],
                    opBad := vecOdd d 2 || !isUniform a })
    (fun c =>
      let off := rd c a 0 0
      if c.act == 0 then .adv c.s
      else cqChecked c off fun _ =>
        if pendFull c look true then .stall
        else .adv (post c c.s look { memq := true, work := .cqpop off, regs := true,
                                     keys := (lanesOf c.act).flatMap fun l => dstKeys c.P d 10 l })) s

def execCqret (look : Nat) (d a : Operand) (s : State) : Host.Outcome State Fault Refusal :=
  issueWord (.cqret look d a)
    (fun _ _ _ => { uses := [{ op := d, n := 6 }, { op := a }], opBad := vecOdd d 2 || !isUniform a })
    (fun c =>
      let off := rd c a 0 0
      if c.act == 0 then .adv c.s
      else cqChecked c off fun _ =>
        if pendFull c look false then .stall
        else .adv (post c c.s look { memq := true, work := .cqret off (laneGroup c d 6 (lanesOf c.act)) })) s

end Sys2Proof.Machine
end

