-- ==== Sys2Proof/Machine/Vexpr.lean ====
section
/-! DEFINITION. VEXPR, TBL and the function-table banks (06 R155–R164). -/

namespace Sys2Proof.Machine

/-! ### VEXPR -/

/-- The header and operator bytes of an expression as one number: word k in [31:0], word k+1 in [63:32]. -/
def exprBytes (x : Nat) : List Nat := (List.range (x % 8)).map fun i => bits x (15 + 8 * i) (8 + 8 * i)

/-- The depth that operator bytes leave on a stack, none where one breaks 06 R157. -/
def exprDepth : List Nat → Nat → Option Nat
  | [], n => some n
  | c :: cs, n =>
    if 0x30 ≤ c ∨ n < (opShape c).1 then none else exprDepth cs (n - (opShape c).1 + (opShape c).2)

/-- Whether an expression passes 06 R157. Input pushes name indexes 0 to 3 by their code. -/
def exprOk (x : Nat) : Bool := x % 8 != 0 && bits x 7 4 == 0 && exprDepth (exprBytes x) 0 == some 1

/-- The last input register of point mode. -/
def exprLast (a : Operand) : Operand :=
  match a with
  | .v k => .v (k + 3)
  | x => x

/-- The uses of a VEXPR in a mode (06 R155). -/
def exprUses (d a b : Operand) (interval : Bool) : List Use :=
  [{ op := d, n := if interval then 2 else 1, src := false, dst := true }, { op := a, n := if interval then 8 else 3 },
   { op := if interval then a else exprLast a }, { op := b }]

/-- Operand rules of VEXPR beyond its uses (06 R155). -/
def exprBad (d a b : Operand) (interval : Bool) : Bool :=
  (match d, a, b with
    | .v _, .v y, .s k => decide (46 < k) || (interval && y % 2 != 0)
    | _, _, _ => true) || usesBad (exprUses d a b interval)

/-- The MODE bit that the register of an expression holds, no window considered. -/
def exprMode (G : Group) (P : Path) (b : Operand) : Bool :=
  match b with
  | .s k => if 45 ≤ k then bit (maskWord P.mask (k - 45)) 3 else bit (tget 0 G.scal k).toNat 3
  | _ => false

/-- The inputs of a lane in point or interval mode (06 R158). -/
def exprInputs (c : Iss) (a : Operand) (interval : Bool) (l : Nat) : List Ent :=
  (List.range 4).map fun i =>
    if interval then { iv := ivFix ⟨ofF32 (rd c a (2 * i) l), ofF32 (rd c a (2 * i + 1) l)⟩ }
    else { v := ofF32 (rd c a i l) }

/-- The value of an expression in a lane, as its registers hold it. -/
def exprRun (interval : Bool) (inp : List Ent) (ops : List Nat) : Nat :=
  let m : EvMode := if interval then .interval else .point
  let r := ((ops.foldl (fun st c => stackOp m inp c st) []).head?).getD {}
  if interval then ivBits r.iv else toF32 .rne r.v

def execVexpr (d a b : Operand) (s : State) : Host.Outcome State Fault Refusal :=
  issueWord (.vexpr d a b)
    (fun _ G P =>
      let iv := exprMode G P b
      { uses := exprUses d a b iv, opBad := exprBad d a b iv, modeBad := P.gm.type != .f32 })
    (fun c =>
      let x := rd c b 0 0 + 2 ^ 32 * rd c b 1 0
      let iv := bit x 3
      if exprBad d a b iv || frameBad c.P (exprUses d a b iv) then .trap .reservedOperand c.P.mask 0 0
      else if c.act == 0 then .adv c.s
      else if !exprOk x then .trap .illegalInstruction c.act 0 0
      else .adv (wrLanes c c.s d (if iv then 2 else 1) c.act
        (fun l => exprRun iv (exprInputs c a iv l) (exprBytes x)))) s

/-! ### TBL (06 R161) -/

/-- A table's value at x, exact; `rdn` gives an exact zero sum its sign (03 R64). -/
def tableAt (rdn : Bool) (F : FnTable) (x : Ex) : Ex :=
  let x0 := ofF32 F.x0.toNat
  let st := ofF32 F.rstep.toNat
  if exIsNan x || exIsNan x0 || exIsNan st then .nan
  else
    let u0 := boundMul (exSub false x x0) st
    if exIsNan u0 || exIsNan (exSub false x x0) then .nan
    else
      let u := exMin (exMax u0 zeroEx) (exInt 256)
      let i := min (roundInt .rdn u).toNat 255
      let f := exSub false u (exInt i)
      let y := fun j => ofF32 (F.y.getD j 0).toNat
      if exIsZero f then y i else exAdd rdn (y i) (exMul f (exSub rdn (y (i + 1)) (y i)))

def execTbl (d a b : Operand) (s : State) : Host.Outcome State Fault Refusal :=
  issueWord (.tbl d a b)
    (fun _ _ P =>
      let n := tyRegs P.gm.type
      { uses := [{ op := d, n := n, src := false, dst := true }, { op := a, n := n }, { op := b }],
        opBad := !isUniform b || (isScalar d && perLane a),
        modeBad := P.gm.type != .f32 || stoBad P.gm })
    (fun c =>
      let B := tget ({} : FnBank) (coreOf c.s (teamCore c.T)).banks c.P.gm.ftb.toNat
      if c.act == 0 then .adv c.s
      else if !B.owned || B.owner != c.T.ctx then .trap .permission c.act 0 0
      else
        let F := B.tables.getD (rd c b 0 0 % 4) {}
        .adv (wrLanes c c.s d 1 c.act
          (fun l => roundTo .f32 c.P.gm.round c.P.gm.sat false none (tableAt (c.P.gm.round == .rdn) F (ofF32 (rd c a 0 l)))))) s

/-! ### TBLLOAD (06 R160, R162, R163) -/

/-- Bytes of a bank image. -/
def bankBytes : Nat := 4160

/-- Table t of a bank image. -/
def tableOf (bs : List Byte) (t : Nat) : FnTable :=
  let r := bs.drop (1040 * t)
  let w := fun j => BitVec.ofNat 32 (leNat ((r.drop (4 * j)).take 4))
  { x0 := w 0, rstep := w 1, y := (List.range 257).map fun j => w (j + 2) }

def tablesOf (bs : List Byte) : List FnTable := (List.range 4).map (tableOf bs)

def modBank (s : State) (core k : Nat) (f : FnBank → FnBank) : State :=
  modCore s core fun K => { K with banks := tput K.banks k (f (tget {} K.banks k)) }

/-- Every valid path on a core with its GM.FTB at bank k. -/
def bankHolders (s : State) (core k : Nat) : List (Nat × Nat × Nat) :=
  (s.teams.filter fun T => teamCore T.2 == core && !T.2.ctl && inPlace T.2).flatMap fun T =>
    T.2.groups.flatMap fun G =>
      ((validPaths G.2).filter fun P => P.2.gm.ftb.toNat == k).map fun P => (T.1, G.1, P.1)

/-- A TBLLOAD of a path becomes pending on a bank, unless it is: LOADING is set, and the holders of this tick are taken. -/
def pendLoad (s : State) (me : Nat × Nat × Nat) (core k : Nat) : State :=
  if (tget ({} : FnBank) (coreOf s core).banks k).loader.any fun l => l.path == me && l.op.isNone then s
  else modBank s core k fun B =>
    { B with loading := true, loader := B.loader ++ [{ path := me, holders := bankHolders s core k }] }

def execTblload (look k : Nat) (a : Operand) (s : State) : Host.Outcome State Fault Refusal :=
  issueWord (.tblload look k a)
    (fun _ _ P =>
      { uses := [{ op := a, n := 2 }], opBad := !isScalar a, modeBad := P.gm.ftb.toNat == k % 2 })
    (fun c =>
      let va := pairOf c a 0
      let core := teamCore c.T
      let me := (c.t, c.g, c.p)
      if c.act == 0 then .adv c.s
      else if va % 16 != 0 then .trap .misaligned c.act va 0
      else if pendFull c look false then .stall
      else
        let s1 := pendLoad c.s me core k
        let B := tget ({} : FnBank) (coreOf s1 core).banks k
        let hs := (B.loader.find? fun l => l.path == me && l.op.isNone).elim [] (·.holders)
        if !hs.isEmpty then .wait s1
        else
          let s2 := modBank s1 core k fun B =>
            { B with owned := false,
                     loader := B.loader.map fun l => if l.path == me && l.op.isNone then { l with op := some s1.nextId } else l }
          .adv (post c s2 look { memq := true, work := .tblload k va })) s

end Sys2Proof.Machine
end

