-- ==== Sys2Proof/Machine/Atomics.lean ====
section
/-! DEFINITION. Atomics, FENCE and WAITADDR (09 R217–R219, R229–R234), and the completion of the operations of a MEM
queue. -/

namespace Sys2Proof.Machine

/-- The new value of an atomic (09 R230). -/
def atomNew (op : AtomOp) (t : Ty) (old v v2 : Nat) : Nat :=
  let w := tyWidth t
  match op with
  | .add => (old + v) % 2 ^ w
  | .fadd => roundTo t .rne false false none (exAdd false (decEx t old) (decEx t v))
  | .min => if intOf t v < intOf t old then v % 2 ^ w else old
  | .max => if intOf t old < intOf t v then v % 2 ^ w else old
  | .and => old &&& v
  | .or => old ||| v
  | .xor => old ^^^ v
  | .xchg => v
  | .cas => if old = v then v2 else old
  | .inc => if v ≤ old then 0 else old + 1
  | .dec => if old = 0 ∨ v < old then v else old - 1

/-- The types of each atomic (09 R230). -/
def atomType (op : AtomOp) (t : Ty) : Bool :=
  let int := match t with
    | .i32 | .i64 | .n32 | .n64 => true
    | _ => false
  let raw := match t with
    | .b32 | .b64 => true
    | _ => false
  match op with
  | .add | .min | .max => int
  | .fadd => t == .f32 || t == .f64
  | .and | .or | .xor => int || raw
  | .xchg => int || raw || t == .f32 || t == .f64
  | .cas => raw
  | .inc | .dec => t == .n32

/-- The space of an atomic. -/
def atomSpace (sp : AtomSp) : Space :=
  match sp with
  | .global => .global
  | .landing => .landing
  | .peer => .peer
  | .host => .host

/-- An atomic word (09 R229). -/
def atomWord (i : Instr) (op : AtomOp) (look : Nat) (acq rel : Bool) (asp : AtomSp) (d a : Operand) (s : State) :
    Host.Outcome State Fault Refusal :=
  let sp := atomSpace asp
  issueWord i
    (fun _ _ P =>
      let n := tyRegs P.gm.type * (if op = .cas then 2 else 1)
      { uses := [{ op := d, n := n, src := true, dst := d != .zero }, { op := a, n := addrRegs sp }],
        opBad := a == .lane || a == .drain || d == .lane || d == .drain || (isScalar d && !isUniform a),
        modeBad := !atomType op P.gm.type })
    (fun c =>
      let t := c.P.gm.type
      let n := tyRegs t
      let e := tyBytes t
      let x := fun l => if sp = .landing then rd c a 0 l else pairOf c a l
      if c.act == 0 then .adv c.s
      else if pendFull c look (d != .zero) then .stall
      else memEnter c sp e x fun s rest =>
        let v2 := fun l => if op = .cas then (List.range n).foldl (fun r j => r + 2 ^ (32 * j) * rd c d (n + j) l) 0 else 0
        let accs := (accLanes d rest).map fun l =>
          ({ lane := l, addr := x l, v := tyElem c t d l, v2 := v2 l } : Acc)
        let s1 := compareLanes (compareLanes s c sp e (accs.map (·.addr)) false) c sp e (accs.map (·.addr)) true
        let keys := accs.flatMap fun q => dstKeys c.P d n q.lane
        .adv (post { c with act := rest } s1 look
          { memq := true, work := .atomic op sp t acq rel accs (isScalar d), keys := keys, regs := !keys.isEmpty })) s

def execAadd (look : Nat) (acq rel : Bool) (sp : AtomSp) (d a : Operand) (s : State) :=
  atomWord (.aadd look acq rel sp d a) .add look acq rel sp d a s
def execAfadd (look : Nat) (acq rel : Bool) (sp : AtomSp) (d a : Operand) (s : State) :=
  atomWord (.afadd look acq rel sp d a) .fadd look acq rel sp d a s
def execAmin (look : Nat) (acq rel : Bool) (sp : AtomSp) (d a : Operand) (s : State) :=
  atomWord (.amin look acq rel sp d a) .min look acq rel sp d a s
def execAmax (look : Nat) (acq rel : Bool) (sp : AtomSp) (d a : Operand) (s : State) :=
  atomWord (.amax look acq rel sp d a) .max look acq rel sp d a s
def execAand (look : Nat) (acq rel : Bool) (sp : AtomSp) (d a : Operand) (s : State) :=
  atomWord (.aand look acq rel sp d a) .and look acq rel sp d a s
def execAor (look : Nat) (acq rel : Bool) (sp : AtomSp) (d a : Operand) (s : State) :=
  atomWord (.aor look acq rel sp d a) .or look acq rel sp d a s
def execAxor (look : Nat) (acq rel : Bool) (sp : AtomSp) (d a : Operand) (s : State) :=
  atomWord (.axor look acq rel sp d a) .xor look acq rel sp d a s
def execAxchg (look : Nat) (acq rel : Bool) (sp : AtomSp) (d a : Operand) (s : State) :=
  atomWord (.axchg look acq rel sp d a) .xchg look acq rel sp d a s
def execAcas (look : Nat) (acq rel : Bool) (sp : AtomSp) (d a : Operand) (s : State) :=
  atomWord (.acas look acq rel sp d a) .cas look acq rel sp d a s
def execAinc (look : Nat) (acq rel : Bool) (sp : AtomSp) (d a : Operand) (s : State) :=
  atomWord (.ainc look acq rel sp d a) .inc look acq rel sp d a s
def execAdec (look : Nat) (acq rel : Bool) (sp : AtomSp) (d a : Operand) (s : State) :=
  atomWord (.adec look acq rel sp d a) .dec look acq rel sp d a s

/-- One lane's atomic on landing memory: the state and the old value. -/
def atomLand (s : State) (t : Nat) (op : AtomOp) (ty : Ty) (q : Acc) : State × Nat :=
  let e := tyBytes ty
  let old := landLatest s t q.addr e
  (landWrite s t q.addr (leBytes (atomNew op ty old q.v q.v2) e), old)

/-- One lane's atomic on memory. -/
def atomMem (s : State) (t g : Nat) (w : Who) (op : AtomOp) (sp : Space) (ty : Ty) (va key : Nat) (q : Acc) :
    State × Nat :=
  let e := tyBytes ty
  let s1 := noteRead s w va key e
  let old := readNat s1.mem key e
  (storeLane s1 t g w sp e va key (atomNew op ty old q.v q.v2), old)

/-- The lanes of an atomic in ascending order (09 R219): the state and the old values. -/
def atomAll {α : Type} (f : State → α → State × Nat) (s : State) (xs : List α) : State × List Nat :=
  xs.foldl (fun r x =>
    let y := f r.1 x
    (y.1, r.2 ++ [y.2])) (s, [])

/-- The memory keys of the accesses of an operation that is performed lane by lane: translated once, before the first
(07 R168, 09 R229). -/
def accKeys (s : State) (T : Team) (accs : List Acc) (tgt : Option Nat) : Lanes :=
  if accs.all fun a => a.key.isSome then .ok (accs.map fun a => (a.lane, a.key.getD 0))
  else translateCol3 s T.ctx T.die (accs.map fun a => (a.lane, a.addr)) .rw tgt

/-- The accesses after the first, with their keys. -/
def keyed (accs : List Acc) (keys : List (Nat × Nat)) : List Acc :=
  ((accs.zip keys).map fun x => { x.1 with key := some x.2.2 }).tail

/-- An atomic on memory whose lanes `m` fail at a: each other lane is performed or not (07 R168, 09 R229). -/
def failAtomic (s : State) (t g : Nat) (o : Pending) (op : AtomOp) (sp : Space) (ty : Ty) (uni : Bool)
    (xs : List (Acc × Nat × Nat)) (k : TrapKind) (m : Mask) (a : Nat) : State :=
  let w := whoOf (teamOf s t) (groupOf s t g) o.pc false
  let one := fun (s : State) (x : Acc × Nat × Nat) => atomMem s t g w op sp ty x.1.addr x.2.2 x.1
  let go := xs.filter fun x => !m.getLsbD x.1.lane && Config.performed s.free x.1.lane
  trapPending (atomAll one s go).1 t g o k (failLanes o uni m) a

/-- One access of an atomic, that of its lowest lane left: another agent's operation may fall between two of them (09 R219).
Column 4 of 07 R168 is met by all that are left, and so is a host's refusal (09 R231). -/
def performAtomic (s : State) (t g : Nat) (o : Pending) (op : AtomOp) (sp : Space) (ty : Ty) (acq rel : Bool)
    (accs : List Acc) (uni : Bool) : State :=
  let T := teamOf s t
  let G := groupOf s t g
  let e := tyBytes ty
  let s0 := releaseOp s t g o.scope rel
  let chosen := fun (bad : Mask) (l : Nat) => !bad.getLsbD l && Config.performed s.free l
  let rest := fun (l : List Acc) => if l.isEmpty then none else some (Work.atomic op sp ty acq rel l uni)
  let fin := fun (l : List Acc) (r : State × List Nat) => doneLane r.1 t g o (tyRegs ty) (r.2.headD 0) (rest l)
  if sp = .landing then
    let one := fun (s : State) (q : Acc) => atomLand s t op ty q
    match columnTrap (landFails T accs e false) with
    | some (k, m, a) =>
      trapPending (atomAll one s0 (accs.filter fun q => chosen m q.lane)).1 t g o k (failLanes o uni m) a
    | none => fin accs.tail (atomAll one s0 (accs.take 1))
  else
    let ps := accs.map fun a => (a.lane, a.addr)
    match accKeys s T accs (spaceTgt sp) with
    | .hold => s
    | .fail k m a => trapPending s t g o k (failLanes o uni m) a
    | .ok keys =>
      let w := whoOf T G o.pc false
      let one := fun (s : State) (x : Acc × Nat × Nat) => atomMem s t g w op sp ty x.1.addr x.2.2 x.1
      let xs := accs.zip keys
      let refused := (ps.zip keys).filterMap fun x =>
        if sp = .host ∧ Config.hostRefuses s.free x.2.2 then some (x.1.1, x.1.2, TrapKind.permission) else none
      match (columnTrap (col4 s T.die o.scope ps keys e false)).or (columnTrap refused) with
      | some (k, m, a) => failAtomic s0 t g o op sp ty uni xs k m a
      | none => fin (keyed accs keys) (atomAll one s0 (xs.take 1))

/-! ### FENCE (09 R232) -/

def execFence (look : Nat) (kind : FenceKind) (s : State) : Host.Outcome State Fault Refusal :=
  issueWord (.fence look kind) (fun _ _ _ => {})
    (fun c =>
      if pendFull c look false then .stall
      else .adv (post c c.s look { memq := true, work := .fence (kind != .rel) (kind != .acq) })) s

/-! ### The performance and completion of a MEM operation -/

/-- One lane's visibility-buffer word: the lesser of the old and the new, and the old (13 R330, R343). -/
def viswLane (s : State) (w : Who) (va key v : Nat) : State × Nat :=
  let s1 := noteRead s w va key 8
  let old := readNat s1.mem key 8
  (agentWrite s1 w va key (leBytes (min old v) 8), old)

/-- One access of a VISW, that of its lowest lane left (09 R219, 13 R343). -/
def performVisw (s : State) (t g : Nat) (o : Pending) (accs : List Acc) : State :=
  let T := teamOf s t
  let w := whoOf T (groupOf s t g) o.pc false
  let ps := accs.map fun a => (a.lane, a.addr)
  let one := fun (s : State) (x : Acc × Nat × Nat) => viswLane s w x.1.addr x.2.2 x.1.v
  match accKeys s T accs (some 0) with
  | .hold => s
  | .fail k m a => trapPending s t g o k m a
  | .ok keys =>
    let xs := accs.zip keys
    match columnTrap (col4 s T.die o.scope ps keys 8 false) with
    | some (k, m, a) =>
      trapPending (atomAll one s (xs.filter fun x => !m.getLsbD x.1.lane && Config.performed s.free x.1.lane)).1 t g o k m a
    | none =>
      let r := atomAll one s (xs.take 1)
      let rest := keyed accs keys
      doneLane r.1 t g o 2 (r.2.headD 0) (if rest.isEmpty then none else some (.visw rest))

/-- Performs an operation of the MEM queue; TBLLOAD, QFENCE and CQPOP have events of their own. -/
def performMem (s : State) (t g : Nat) (o : Pending) : State :=
  match o.work with
  | .load sp ty _ accs uni => performLoad s t g o sp ty accs uni
  | .store sp ty rel accs => performStore s t g o sp ty rel accs
  | .atomic op sp ty acq rel accs uni => performAtomic s t g o op sp ty acq rel accs uni
  | .fence _ rel => doneOp (releaseOp s t g o.scope rel) t g o.id []
  | .cctl op accs => performCctl s t g o op accs
  | .visw accs => performVisw s t g o accs
  | .boxt accs rays => performBoxt s t g o accs rays
  | .trit cull accs rays => performTrit s t g o cull accs rays
  | .vfetch grad desc pts => performVfetch s t g o grad desc pts
  | .cqret off replies => performCqret s t g o off replies
  | .qput q off resv => performQput s t g o q off resv
  | .ready | .tblload _ _ | .qfence _ _ | .cqpop _ | .cstat _ | .fbind _ _ _ _ _ => s

/-- Performs a MEM operation that is ready to be. -/
def tryPerform (s : State) (t g id : Nat) : State :=
  match pendOf s t g id with
  | none => s
  | some o => if o.memq && !o.performed && memReady (groupOf s t g) id then performMem s t g o else s

/-- An operation of the MEM queue has read: no later read of the queue returns an older value (09 R213). -/
def queueRead (s : State) (t g : Nat) : State := modGroup s t g fun G => { G with since := tput G.since 0 (pastNow s) }

/-- The loaders of a bank without one operation; LOADING goes with the last (06 R159). -/
def endLoad (s : State) (core k id : Nat) : State :=
  modBank s core k fun B =>
    let l := B.loader.filter fun l => l.op != some id
    { B with loader := l, loading := !l.isEmpty }

/-- A bank holds an image (06 R162). -/
def setBank (s : State) (core k ctx src : Nat) (bs : List Byte) : State :=
  modBank s core k fun B => { B with src := src, owner := ctx, owned := true, tables := tablesOf bs }

/-- The image that a TBLLOAD reads, each 4-byte word with its old or its new value (06 R162). -/
def bankRead (s : State) (t g : Nat) (o : Pending) (va : Nat) : Span (State × List Byte) :=
  let G := groupOf s t g
  spanReadBy (readIn 4 s (readFrom G o) 0) s (whoOf (teamOf s t) G o.pc false) 0 va bankBytes

/-- TBLLOAD_COMPLETE: loads of one bank complete in the order in which they became pending (06 R162, R163). -/
def execTblloadComplete (t g id : Nat) (s : State) : Host.Outcome State Fault Refusal :=
  match pendOf s t g id with
  | none => .next s
  | some o => match o.work with
    | .tblload k va =>
      let T := teamOf s t
      let core := teamCore T
      let B := tget ({} : FnBank) (coreOf s core).banks k
      if !memReady (groupOf s t g) id || (B.loader.head?.bind (·.op)) != some id
          || B.loader.head?.any (fun l => !l.holders.isEmpty) then .next s
      else match bankRead s t g o va with
        | .hold => .next s
        | .fail kind a => .next (trapPending (modBank (endLoad s core k id) core k fun B => { B with owned := false }) t g o kind o.lanes a)
        | .ok r => .next (commit (queueRead (endLoad (setBank r.1 core k T.ctx va r.2) core k id) t g) t g { o with performed := true })
    | _ => .next s

/-! ### WAITADDR (09 R234) -/

/-- The types WAITADDR compares (09 R234). -/
def waitType : Ty → Bool
  | .b32 | .b64 | .i32 | .i64 | .n32 | .n64 => true
  | _ => false

def execWaitaddr (acq : Bool) (cc : CC) (d a : Operand) (s : State) : Host.Outcome State Fault Refusal :=
  issueWord (.waitaddr acq cc d a)
    (fun _ _ P =>
      { uses := [{ op := d, n := tyRegs P.gm.type }, { op := a, n := 2 }],
        opBad := !isUniform d || !isUniform a, modeBad := !waitType P.gm.type, waits := true })
    (fun c =>
      let va := pairOf c a 0
      if c.act == 0 then .adv c.s
      else if va % tyBytes c.P.gm.type != 0 then .trap .misaligned c.act va 0
      else
        let w := Wait.addr c.s.nextId va (tyElem c c.P.gm.type d 0) cc acq d false
        .wait { modPath c.s c.t c.g c.p (fun P => { P with state := 5, wcount := 0, waitAct := c.act, waitWord := c.word, wait := w })
                with nextId := c.s.nextId + 1 }) s

/-- The value that a satisfied WAITADDR leaves in its scalar. -/
def putWaited (s : State) (t g p : Nat) (d : Operand) (n x : Nat) : State :=
  match d with
  | .s k => putScal s t g p k ((List.range n).map fun j => regPart x j)
  | _ => s

/-- A group has retired an instruction: the stall clock of the hang detector starts again (04 R100). -/
def groupMoved (s : State) (t g : Nat) : State := modGroup s t g fun G => { G with hang := 0, hangFired := false }

/-- A path leaves its wait for the next instruction: the waiting instruction has retired (04 R92). -/
def leaveWait (s : State) (t g p : Nat) : State :=
  groupMoved (modPath s t g p fun P => { P with state := 0, wait := .none, pc := P.pc + 4 }) t g

/-- An awaited word has been read once: the MEM queue goes on. -/
def readOnce (s : State) (t g p : Nat) : State :=
  queueRead (modPath s t g p fun P => { P with wait := match P.wait with
    | .addr id va cmp cc acq d _ => .addr id va cmp cc acq d true
    | w => w }) t g

/-- WAITADDR_REREAD: one read of the awaited word, with its checks; a satisfied wait ends (09 R234). -/
def execWaitaddrReread (t g p : Nat) (s : State) : Host.Outcome State Fault Refusal :=
  let P := pathOf s t g p
  let T := teamOf s t
  if !P.valid || P.state != 5 || teamFrozen s T || T.away != .present then .next s
  else match P.wait with
    | .addr id va cmp cc acq d read =>
      if !memReady (groupOf s t g) id then .next s
      else
        let ty := P.gm.type
        let e := tyBytes ty
        match translate s T.ctx (asks s T.die) va .rd none with
        | .fail k => .next (waitTrap (detectAt s T.ctx (kindCode k) va) t g p (kindCode k) false va 0)
        | .hold => .next s
        | .key key =>
          if laneBad s T.die P.gm.scope key e false then .next (waitTrap (detect s key e) t g p 7 false va 0)
          else
            let x := readNat s.mem key e
            let w := whoOf T (groupOf s t g) P.pc false
            let s1 := noteRead (compareData s w va e false) w va key e
            if ccInt cc ty x cmp then
              let s2 := if acq then dropCopies s1 T.die P.gm.scope else s1
              .next (leaveWait (queueRead (putWaited s2 t g p d (tyRegs ty) x) t g) t g p)
            else .next (if read then s1 else readOnce s1 t g p)
    | _ => .next s

end Sys2Proof.Machine
end

