-- ==== Sys2Proof/Machine/Control.lean ====
section
/-! DEFINITION. Control: row 0x0 but YIELD and WAITADDR, FRAME, and the path waits VOTE and the shuffles
(04 R102–R109, R113, R114, 05 R131–R134, 16 R393). -/

namespace Sys2Proof.Machine

def execNop (s : State) : Host.Outcome State Fault Refusal :=
  issueWord .nop (fun _ _ _ => {}) (fun c => .adv c.s) s

/-- SETMODE waits while the bank it names is being loaded (04 R103). -/
def execSetmode (gm : GM) (s : State) : Host.Outcome State Fault Refusal :=
  issueWord (.setmode gm) (fun _ _ _ => {})
    (fun c =>
      if (tget ({} : FnBank) (coreOf c.s (teamCore c.T)).banks gm.ftb.toNat).loading then .stall
      else .adv (modPath c.s c.t c.g c.p fun P => { P with gm := gm })) s

/-- The byte address that a J word at `pc` names (02 R22). -/
def jTarget (pc : Nat) (off : Int) : Nat := wrapInt 64 ((pc : Int) + 4 * off)

def execBra (cc : Nat) (off : Int) (s : State) : Host.Outcome State Fault Refusal :=
  issueWord (.bra cc off) (fun _ _ _ => {})
    (fun c =>
      let taken := c.act &&& predOf c.G cc
      let go := fun (P : Path) => { P with pc := jTarget c.P.pc off }
      if taken == 0 then .adv c.s
      else if taken == c.P.mask then .jump (modPath c.s c.t c.g c.p go)
      else if !(openWindows c.G c.p).isEmpty then .stall
      else match freeEntries c.G with
        | [] => .wait (modPath c.s c.t c.g c.p fun P => { P with state := 6 })
        | q :: _ => .adv (splitTo c.s c.t c.g c.p q taken go)) s

def execBru (cc : Nat) (off : Int) (s : State) : Host.Outcome State Fault Refusal :=
  issueWord (.bru cc off) (fun _ _ _ => {})
    (fun c =>
      if c.act &&& predOf c.G cc == 0 then .adv c.s
      else .jump (modPath c.s c.t c.g c.p fun P => { P with pc := jTarget c.P.pc off })) s

/-- The address of an offset from the code base (04 R105). -/
def fromCb (T : Team) (x : Nat) : Nat := (T.cb + x) % 2 ^ 64

def execBrx (a : Operand) (s : State) : Host.Outcome State Fault Refusal :=
  issueWord (.brx a) (fun _ _ _ => { uses := [{ op := a }], opBad := !(isVector a || isScalar a) })
    (fun c =>
      let odd := lanesWhere c.act fun l => rd c a 0 l % 4 != 0
      if odd != 0 then .trap .misaligned odd 0 0
      else
        let dest := fun l => if c.act.getLsbD l then fromCb c.T (rd c a 0 l) else c.P.pc + 4
        divide c c.s ((groupLanes c.P.mask dest).map fun x => (x.2, fun P => { P with pc := x.1 }))) s

def execJoin (s : State) : Host.Outcome State Fault Refusal :=
  issueWord .join (fun _ _ _ => { waits := true })
    (fun c =>
      .jump (mergeParked (modPath c.s c.t c.g c.p fun P => { P with state := 1 }) c.t c.g c.P.pc)) s

def execExit (s : State) : Host.Outcome State Fault Refusal :=
  issueWord .exit (fun _ _ _ => { waits := true })
    (fun c => .adv (modGroup c.s c.t c.g fun G => exitLanes G c.p c.act)) s

/-- SLEEP: the path's age is reset (04 R109). -/
def execSleep (n : Nat) (s : State) : Host.Outcome State Fault Refusal :=
  issueWord (.sleep n) (fun _ _ _ => { waits := true })
    (fun c => .adv (modPath c.s c.t c.g c.p fun P => { P with state := 3, wake := n, age := 0 })) s

def execTrap (code : Nat) (s : State) : Host.Outcome State Fault Refusal :=
  issueWord (.trap code) (fun _ _ _ => { waits := true })
    (fun c => if c.act == 0 then .adv c.s else .trap .software c.act 0 (code % 2 ^ 16)) s

def execBkpt (tag : Nat) (s : State) : Host.Outcome State Fault Refusal :=
  issueWord (.bkpt tag) (fun _ _ _ => { waits := true }) (fun c => .trap .breakpoint c.P.mask 0 (tag % 2 ^ 16)) s

/-! ### Frames and calls (05 R119–R134) -/

/-- FRAME (05 R131). -/
def execFrame (n : Nat) (s : State) : Host.Outcome State Fault Refusal :=
  issueWord (.frame n) (fun _ _ _ => { waits := true })
    (fun c =>
      if n = 0 ∨ 192 < n ∨ c.G.blk < n then .trap .reservedOperand c.P.mask 0 0
      else if c.P.fs < n ∧ c.T.bsz < 384 * (c.P.fb + n) + 1536 * c.P.ld then .trap .backingStoreExhausted c.P.mask 0 0
      else .adv (modPath c.s c.t c.g c.p fun P => { P with fs := n })) s

/-- Offset of the call entry of a lane at a depth (05 R122). -/
def callEntry (bsz depth lane : Nat) : Nat := bsz - 1536 * (depth + 1) + 16 * lane

/-- Whether a call with shift c lacks frame (05 R132). -/
def callFrameBad (P : Path) (sh : Nat) : Bool := decide (P.fs < 16 * sh)

/-- R123 for a call: the new frame is [FB + 16c, FB + FS). -/
def callStoreBad (T : Team) (P : Path) : Bool :=
  decide (T.bsz < 384 * (P.fb + P.fs) + 1536 * (P.ld + 1)) || decide (255 < P.ld + 1)

/-- The 16 bytes of a call entry (05 R122). -/
def callBytes (P : Path) (sh : Nat) : List Byte := leBytes (pack [(64, P.pc + 4), (8, P.fs), (4, sh), (52, 0)]) 16

/-- The path of a call in its callee (05 R132). -/
def callPath (sh target : Nat) (P : Path) : Path :=
  { P with fb := P.fb + 16 * sh, fs := P.fs - 16 * sh, ld := P.ld + 1, pc := target }

/-- The private addresses of the call entries of the active lanes at the path's next depth. -/
def callAccs (c : Iss) (depth : Nat) : List (Nat × Nat) :=
  (lanesOf c.act).map fun l => (l, c.G.privBase + callEntry c.T.bsz depth l)

/-- The writes of a call's entries in the lanes of a mask. -/
def writeCalls (s : State) (c : Iss) (sh : Nat) (m : Mask) (keys : List (Nat × Nat)) : State :=
  keys.foldl (fun s k =>
    let va := c.G.privBase + callEntry c.T.bsz c.P.ld k.1
    if m.getLsbD k.1 then
      storeCaptured (compareData s (whoOf c.T c.G c.P.pc false) va 16 true) c.T.ctx va k.2 (callBytes c.P sh)
    else s) s

/-- The checks and translations that CALL and CALLX share, then `go` with the entries' keys (05 R123, R132). -/
def callChecks (c : Iss) (sh : Nat) (go : List (Nat × Nat) → Eff) : Eff :=
  if callFrameBad c.P sh then .trap .reservedOperand c.act 0 0
  else if callStoreBad c.T c.P then .trap .backingStoreExhausted c.act 0 0
  else if memOpsBefore c.s c.G then .stall
  else match translateLanes c.s c.T.ctx c.T.die .group (callAccs c c.P.ld) 16 .wr (some 0) true with
    | .hold => .stall
    | .fail k m a => .trap k m a 0
    | .ok keys => go keys

def execCall (sh : Nat) (off : Int) (s : State) : Host.Outcome State Fault Refusal :=
  issueWord (.call sh off) (fun _ _ _ => { waits := true })
    (fun c =>
      if c.act == 0 then .adv c.s
      else callChecks c sh fun keys =>
        let s1 := writeCalls c.s c sh c.act keys
        let go := callPath sh (jTarget c.P.pc off)
        if c.act == c.P.mask then .jump (modPath s1 c.t c.g c.p go)
        else match freeEntries c.G with
          | [] => .wait (modPath c.s c.t c.g c.p fun P => { P with state := 6 })
          | q :: _ => .adv (splitTo s1 c.t c.g c.p q c.act go)) s

/-- CALLX: the destinations of R105, each active group performing the call (05 R133). -/
def execCallx (sh : Nat) (a : Operand) (s : State) : Host.Outcome State Fault Refusal :=
  issueWord (.callx sh a)
    (fun _ _ _ => { uses := [{ op := a }], opBad := !(isVector a || isScalar a), waits := true })
    (fun c =>
      let odd := lanesWhere c.act fun l => rd c a 0 l % 4 != 0
      if c.act == 0 then .adv c.s
      else if odd != 0 then .trap .misaligned odd 0 0
      else callChecks c sh fun keys =>
        let gs := groupLanes c.P.mask fun l =>
          if c.act.getLsbD l then (true, fromCb c.T (rd c a 0 l)) else (false, c.P.pc + 4)
        let free := (freeEntries c.G).length
        let moved := if gs.length ≤ free + 1 then gs else (gs.drop 1).take free
        let s1 := if gs.length ≤ 1 ∨ 0 < free then
            moved.foldl (fun s x => if x.1.1 then writeCalls s c sh x.2 keys else s) c.s
          else c.s
        divide c s1 (gs.map fun x =>
          (x.2, fun P => if x.1.1 then callPath sh x.1.2 P else { P with pc := x.1.2 }))) s

/-- What the reads of a return's entries leave behind (18 R417, R420). -/
def readCalls (c : Iss) (keys : List (Nat × Nat)) : State :=
  keys.foldl (fun s k =>
    let va := c.G.privBase + callEntry c.T.bsz (c.P.ld - 1) k.1
    readCaptured (compareData s (whoOf c.T c.G c.P.pc false) va 16 false) c.T.ctx va k.2 16) c.s

/-- RET (05 R134): lanes at depth 0 exit; the others return to what their entries hold. Of an entry that a store has altered a
shift beyond FB wraps modulo 2^16, and its frame size is taken unchanged, also beyond 192 or B (DESIGN CHOICE, log entry 83). -/
def execRet (s : State) : Host.Outcome State Fault Refusal :=
  issueWord .ret (fun _ _ _ => { waits := true })
    (fun c =>
      if c.P.ld = 0 then .adv (modGroup c.s c.t c.g fun G => exitLanes G c.p c.act)
      else if c.act == 0 then .adv c.s
      else if memOpsBefore c.s c.G then .stall
      else match translateLanes c.s c.T.ctx c.T.die .group (callAccs c (c.P.ld - 1)) 16 .rd (some 0) false with
        | .hold => .stall
        | .fail k m a => .trap k m a 0
        | .ok keys =>
          let entry := fun l => match keys.find? fun k => k.1 == l with
            | some k => readNat c.s.mem k.2 16
            | none => 0
          let odd := lanesWhere c.act fun l => entry l % 4 != 0
          if odd != 0 then .trap .misaligned odd 0 0
          else
            let gs := groupLanes c.P.mask fun l =>
              if c.act.getLsbD l then (true, bits (entry l) 63 0, bits (entry l) 71 64, bits (entry l) 75 72)
              else (false, c.P.pc + 4, 0, 0)
            divide c (readCalls c keys) (gs.map fun x =>
              (x.2, fun P => if x.1.1 then
                { P with pc := x.1.2.1, fb := (P.fb + 2 ^ 16 - 16 * x.1.2.2.2) % 2 ^ 16, fs := x.1.2.2.1, ld := P.ld - 1 }
              else { P with pc := x.1.2.1 }))) s

/-! ### VOTE (04 R113) -/

/-- The paths that wait at an address in a VOTE: members, captured lanes and ballot, joined: the VOTE ends for the union of
their member masks (DEDUCED, log entry 22). -/
def voteAt (G : Group) (pc : Nat) : Option (Mask × Mask × Mask) :=
  (validPaths G).foldl (fun r e =>
    if e.2.state == 2 && e.2.pc == pc then
      match e.2.wait with
      | .vote _ m k b =>
        let x := r.getD (0, 0, 0)
        some (x.1 ||| BitVec.ofNat 96 m, x.2.1 ||| BitVec.ofNat 96 k, x.2.2 ||| BitVec.ofNat 96 b)
      | _ => r
    else r) none

/-- The three words of a mask. -/
def maskWords (m : Mask) : List Word := (List.range 3).map fun b => BitVec.ofNat 32 (maskWord m b)

/-- Whether every member is captured. -/
def voteDone (G : Group) (members captured : Mask) : Bool := members &&& ~~~(captured ||| goneLanes G) == 0

/-- Releases every path waiting at an address in state 2 with a VOTE. -/
def releaseVotes (G : Group) (pc : Nat) : Group :=
  { G with paths := tmap G.paths fun _ P =>
      if P.valid && P.state == 2 && P.pc == pc then
        match P.wait with
        | .vote _ _ _ _ => { P with state := 0, wait := .none, pc := P.pc + 4 }
        | _ => P
      else P }

/-- The end of a VOTE: ballot and exited mask to s(d) to s(d+5), every waiting path on (04 R113). Written once: of s45 to
s47 the copy of the path that completes it (DEDUCED, log entry 22). -/
def endVote (s : State) (t g p pc d : Nat) (members captured ballot : Mask) : State :=
  let G := groupOf s t g
  let s1 := putScal s t g p d
    (maskWords (ballot &&& members) ++ maskWords (members &&& goneLanes G &&& ~~~captured))
  modGroup s1 t g fun G => releaseVotes G pc

/-- Every path waiting in a VOTE at an address takes the joined captures. -/
def shareVotes (G : Group) (pc : Nat) (m k b : Mask) : Group :=
  { G with paths := tmap G.paths fun _ P =>
      if P.valid && P.state == 2 && P.pc == pc then
        match P.wait with
        | .vote d _ _ _ => { P with wait := .vote d m.toNat k.toNat b.toNat }
        | _ => P
      else P }

/-- VOTE. A path captures the lanes of its MASK: a member lane in its ORIGIN alone is captured by no path (DEDUCED, log
entry 22). -/
def execVote (p : Nat) (d m : Operand) (s : State) : Host.Outcome State Fault Refusal :=
  issueWord (.vote p d m)
    (fun _ _ _ => { opBad := match d, m with
                      | .s x, .s y => !(decide (x ≤ 42) && decide (y ≤ 45))
                      | _, _ => true,
                    waits := true })
    (fun c =>
      match d, m with
      | .s x, .s y =>
        let own : Mask := BitVec.ofNat 96 (rd c (.s y) 0 0 + 2 ^ 32 * rd c (.s y) 1 0 + 2 ^ 64 * rd c (.s y) 2 0)
        let j := (voteAt c.G c.P.pc).getD (0, 0, 0)
        let cap := j.2.1 ||| c.P.mask
        let bal := (j.2.2 &&& ~~~c.P.mask) ||| (c.act &&& predOf c.G p)
        if c.act == 0 then .adv (modGroup c.s c.t c.g fun G => shareVotes G c.P.pc j.1 cap bal)
        else
          let mem := j.1 ||| own
          if voteDone c.G mem cap then .adv (endVote c.s c.t c.g c.p c.P.pc x mem cap bal)
          else
            let s1 := modGroup c.s c.t c.g fun G => shareVotes G c.P.pc mem cap bal
            .wait (modPath s1 c.t c.g c.p fun P =>
              { P with state := 2, wcount := 0, waitAct := c.act, waitWord := c.word, wait := .vote x mem.toNat cap.toNat bal.toNat })
      | _, _ => .adv c.s) s

/-! ### Shuffles (04 R114) -/

/-- Source codes beyond the lanes: zero, and the lane's own value. -/
def srcZero : Nat := 200
def srcOwn : Nat := 201

/-- The lane values that paths waiting at an address in a shuffle hold or know. -/
def shflAt (G : Group) (pc : Nat) : List (Nat × Nat) :=
  (validPaths G).flatMap fun e =>
    if e.2.state == 2 && e.2.pc == pc then
      match e.2.wait with
      | .shfl _ _ _ got own => own ++ got
      | _ => []
    else []

/-- The value of a needed source, once it is known: of the own lanes, of another path's, or zero (04 R114). A source lane in
no path's MASK that has not exited stays unknown, and the wait limit ends the wait (DEDUCED, log entry 22). -/
def shflSource (G : Group) (got own : List (Nat × Nat)) (lane j : Nat) : Option Nat :=
  if j = srcZero then some 0
  else
    let k := if j = srcOwn then lane else j
    match own.find? fun e => e.1 == k with
    | some e => some e.2
    | none => match got.find? fun e => e.1 == k with
      | some e => some e.2
      | none => if (goneLanes G).getLsbD k then some 0 else none

/-- Whether every needed source is known. -/
def shflDone (G : Group) (need got own : List (Nat × Nat)) : Bool :=
  need.all fun e => (shflSource G got own e.1 e.2).isSome

/-- Every path waiting in a shuffle at an address learns the lanes of another that issues it. -/
def shareShfl (G : Group) (pc : Nat) (own : List (Nat × Nat)) : Group :=
  { G with paths := tmap G.paths fun _ P =>
      if P.valid && P.state == 2 && P.pc == pc then
        match P.wait with
        | .shfl d n need got mine => { P with wait := .shfl d n need (got ++ own) mine }
        | _ => P
      else P }

/-- Writes a shuffle's results. -/
def writeShfl (G : Group) (fb d n : Nat) (need got own : List (Nat × Nat)) : Group :=
  need.foldl (fun H e => putRows H (fb + d) n (fun _ => (shflSource G got own e.1 e.2).getD 0) [e.1]) G

/-- A shuffle: `src` gives a lane's source code from the lane and its k. -/
def shuffle (i : Instr) (d a b : Operand) (bVec : Bool) (src : Nat → Nat → Nat) (s : State) :
    Host.Outcome State Fault Refusal :=
  issueWord i
    (fun _ _ P =>
      let n := tyRegs P.gm.type
      { uses := [{ op := d, n := n, src := false, dst := true }, { op := a, n := n }, { op := b }],
        opBad := !isVector d || !(isVector a || isScalar a) || !(if bVec then isVector b || isScalar b else isUniform b),
        modeBad := P.gm.type == .b128, waits := true, always := true })
    (fun c =>
      let n := tyRegs c.P.gm.type
      let own := (lanesOf c.P.mask).map fun l => (l, regsOf c a n l)
      let s1 := modGroup c.s c.t c.g fun G => shareShfl G c.P.pc own
      if c.act == 0 then .adv s1
      else
        let need := (lanesOf c.act).map fun l => (l, src l (rd c b 0 l))
        let got := shflAt c.G c.P.pc
        match d with
        | .v x =>
          if shflDone c.G need got own then
            .adv (modGroup s1 c.t c.g fun G => writeShfl G c.P.fb x n need got own)
          else .wait (modPath s1 c.t c.g c.p fun P =>
            { P with state := 2, wcount := 0, waitAct := c.act, waitWord := c.word, wait := .shfl x n need got own })
        | _ => .adv s1) s

def execShfl (d a b : Operand) (s : State) :=
  shuffle (.shfl d a b) d a b true (fun _ k => if 96 ≤ k then srcZero else k) s
def execShflx (d a b : Operand) (s : State) :=
  shuffle (.shflx d a b) d a b false (fun l k => if 96 ≤ l ^^^ k then srcOwn else l ^^^ k) s
def execShflu (d a b : Operand) (s : State) :=
  shuffle (.shflu d a b) d a b false (fun l k => if l < k then srcOwn else l - k) s
def execShfld (d a b : Operand) (s : State) :=
  shuffle (.shfld d a b) d a b false (fun l k => if 96 ≤ l + k then srcOwn else l + k) s

end Sys2Proof.Machine
end

