-- ==== Sys2Proof/Machine/Bars.lean ====
section
/-! DEFINITION. Barrier registers: Arrive and Settle (10 R235–R242), YIELD, BINIT, BARV, BWAIT, BTEST, BEXP, QFENCE, and
the end of the waits on barriers (09 R208, R220, R221, R233, 10 R252–R257). -/

namespace Sys2Proof.Machine

/-! ### Arrive and Settle (10 R237–R239) -/

def barOf (T : Team) (b : Nat) : Bar := tget {} T.bars b

def modBar (s : State) (t b : Nat) (f : Bar → Bar) : State :=
  modTeam s t fun T => { T with bars := tput T.bars b (f (barOf T b)) }

/-- Whether a barrier's current phase is complete; a barrier that expects nothing has none (10 R254). -/
def phaseFull (B : Bar) : Bool :=
  B.garr == B.gmem && decide (B.ecnt ≤ B.earr) && B.pend == 0 && !(B.gmem == 0 && B.ecnt == 0)

/-- The barrier in its next phase. -/
def nextPhase (B : Bar) : Bar := { B with ph := (B.ph + 1) % 2 ^ 16, garr := 0, earr := B.earr - B.ecnt }

/-- Settle, in at most n phases. -/
def settleGo : Nat → Bar → Bar
  | 0, B => B
  | n + 1, B => if phaseFull B then settleGo n (nextPhase B) else B

/-- Settle (10 R237): a phase with members leaves none arrived, and any other takes a counted arrival, so no more phases
than counted arrivals and one can complete. -/
def settle (B : Bar) : Bar := settleGo (B.earr + 1) B

/-- PEND with signed bytes added. -/
def addPend (B : Bar) (bytes : Int) : Bar := { B with pend := wrapInt 24 ((B.pend : Int) + bytes) }

/-- Arrive(b, n, bytes) of 10 R237. -/
def arriveBar (n : Nat) (bytes : Int) (B : Bar) : Bar := settle { addPend B bytes with earr := B.earr + n }

/-- A member's arrival (10 R255). -/
def memberArrive (g : Nat) (bytes : Int) (B : Bar) : Bar :=
  settle { addPend B bytes with garr := B.garr ||| 2 ^ g }

/-- Whether n counted arrivals are accepted now (10 R237): a suspended team's shadow and a hold queue take any. -/
def canArrive (s : State) (t b n : Nat) : Bool :=
  match route s t 2 0 b with
  | .inPlace => decide ((barOf (teamOf s t) b).earr + n ≤ 255)
  | _ => true

/-- An arrival by any agent, routed: at the barrier, in a suspended team's shadow, in a hold queue (16 R386, R391). -/
def arrive (s : State) (t b n : Nat) (bytes : Int) : State :=
  match route s t 2 0 b with
  | .inPlace => modBar s t b (arriveBar n bytes)
  | .toSave d => modShadow s t d b fun B =>
      { B with darr := (B.darr + n) % 2 ^ 32, dpend := wrapInt 24 ((B.dpend : Int) + bytes) }
  | .held e => holdWrite s t e (.arrive b n bytes)
  | .discard => s

/-- A fault noted in a barrier: FLT, and FIDX of the first. -/
def fltBar (idx : Nat) (B : Bar) : Bar := { B with flt := true, fidx := if B.flt then B.fidx else idx }

/-- A deferred fault at a barrier, with the index of its log record, routed (10 R249, 16 R387). -/
def flagFault (s : State) (t b idx : Nat) : State :=
  match route s t 2 0 b with
  | .inPlace => modBar s t b (fltBar idx)
  | .toSave d => modShadow s t d b fun B =>
      { B with dflt := true, dfidx := if B.dflt || B.daflt then B.dfidx else idx }
  | .held e => holdWrite s t e (.flag b idx)
  | .discard => s

/-- Phase T of a barrier is done (10 R238). -/
def phaseDone (B : Bar) (tok : Nat) : Bool :=
  let x := (B.ph + 2 ^ 16 - tok % 2 ^ 16) % 2 ^ 16
  decide (1 ≤ x) && decide (x ≤ 32767)

/-! ### What an engine operation waits for (09 R212, R220) -/

/-- Whether an operation of a queue (its bit of 09 R208) that a group issued as number `id` must wait: for an earlier
acquire, or for an earlier QFENCE that names the queue. -/
def classHeld (G : Group) (cls id : Nat) : Bool :=
  G.pend.any fun o => decide (o.id < id) &&
    ((o.memq && !o.performed && isAcquire o.work) || (match o.work with
      | .qfence m _ => bit m cls
      | _ => false))

/-- Whether a path waits in a WAITADDR that issued before operation `id` (09 R208, R233). -/
def awaits (id : Nat) (P : Path) : Bool :=
  P.valid && (match P.wait with
    | .addr n _ _ _ _ _ _ => decide (n < id)
    | _ => false)

/-- Whether an instruction with an opcode of a range, issued before operation `id`, still has results to write. -/
def resultOut (T : Team) (g lo hi id : Nat) : Bool :=
  (tget ({} : Group) T.groups g).pend.any fun o =>
    decide (o.id < id) && !o.memq && decide (lo ≤ o.word / 2 ^ 24) && decide (o.word / 2 ^ 24 ≤ hi)

/-- Whether a group has an uncompleted operation of a queue issued before number `id` (09 R208): its results count, since
what follows the QFENCE reads them new (02 R42). -/
def classBusy (T : Team) (g cls id : Nat) : Bool :=
  match cls with
  | 0 => (tget ({} : Group) T.groups g).pend.any (fun o => o.memq && decide (o.id < id)) ||
         (tget ({} : Group) T.groups g).paths.any fun e => awaits id e.2
  | 1 => (T.copies.any fun c => c.slices.any fun x => x.g == g && decide (x.id < id)) ||
         T.csums.any fun c => c.g == g && decide (c.id < id)
  | 2 => (T.mops.any fun m => m.g == g && decide (m.id < id)) || resultOut T g 0xD0 0xDA id
  | 3 => (T.marches.any fun m => m.g == g && decide (m.id < id)) || resultOut T g 0xE0 0xE1 id || resultOut T g 0xEA 0xEB id
  | _ => T.jobs.any fun j => j.g == g && decide (j.id < id)

/-! ### Waits that cannot end (10 R240) -/

/-- The barrier of a march operation, if it arrives at one. -/
def marchBar (m : MarchOp) : Option Nat := m.bar

/-- Engine operations outstanding that will arrive at b. -/
def outArrivals (T : Team) (b : Nat) : Nat :=
  (T.copies.filter fun c => c.bar == b).length + (T.csums.filter fun c => c.bar == b).length
    + (T.mops.filter fun m => m.bar == some b).length + (T.marches.filter fun m => marchBar m == some b).length
    + (T.jobs.filter fun j => j.bar == some b).length
    + T.groups.foldl (fun n G => n + (G.2.pend.filter fun o => match o.work with
        | .qfence _ x => x == some b
        | _ => false).length) 0

/-- Whether an outstanding engine operation with byte accounting names b. -/
def bytesOut (T : Team) (b : Nat) : Bool :=
  T.copies.any fun c => c.bar == b && c.slices.any fun x => x.full && bit x.ctl 10

/-- The barrier and token that a path waits on. -/
def waitsFor (P : Path) : Option (Nat × Nat) :=
  if !P.valid then none
  else match P.wait with
    | .bwait b tok => some (b, tok)
    | .yield b tok _ => some (b, tok)
    | .barv b _ _ _ tok => some (b, tok)
    | _ => none

/-- Whether a path is in a wait on b whose phase is not done. -/
def stillWaits (T : Team) (b : Nat) (P : Path) : Bool :=
  match waitsFor P with
  | some (b', tok) => b' == b && !phaseDone (barOf T b) tok
  | none => false

/-- Whether a phase of b that is not done cannot complete (10 R240). -/
def underpopulated (T : Team) (b : Nat) : Bool :=
  let B := barOf T b
  let lacks := fun (g : Nat) => B.gmem.testBit g && !B.garr.testBit g
  (T.groups.any fun G => G.2.ended && lacks G.1) ||
    ((T.groups.all fun G => G.2.ended || (validPaths G.2).all fun P => stillWaits T b P.2) &&
      (((List.range 16).any lacks) || decide (B.earr + outArrivals T b < B.ecnt) || (B.pend != 0 && !bytesOut T b)))

/-- The paths of a team, as group and entry, in that order. -/
def teamPaths (T : Team) : List (Nat × Nat × Path) :=
  T.groups.flatMap fun G => (validPaths G.2).map fun P => (G.1, P.1, P.2)

/-- Whether waits of a team end now: it is in place and its core is not frozen. -/
def teamRuns (s : State) (t : Nat) : Bool := (teamOf s t).away == .present && !teamFrozen s (teamOf s t)

/-- Notes whether waits on b are to be tested again once the core runs. -/
def markRetest (s : State) (t b : Nat) (on : Bool) : State :=
  modTeam s t fun T =>
    let keep := T.retest.filter (· != b)
    { T with retest := if on then keep ++ [b] else keep }

/-- The test of 10 R240 on the waits on b: the first that meets it traps; the others, and all where the core does not run,
are found again after resume. -/
def testBar (s : State) (t b : Nat) : State :=
  let T := teamOf s t
  match underpopulated T b, (teamPaths T).filter fun x => stillWaits T b x.2.2 with
  | true, (g, p, _) :: rest =>
    if teamRuns s t then waitTrap (markRetest s t b (!rest.isEmpty)) t g p 9 false 0 (b * 2 ^ 16)
    else markRetest s t b true
  | _, _ => if teamRuns s t && T.retest.contains b then markRetest s t b false else s

/-- The test for every barrier of a team: a group ended or a path became invalid. -/
def testBars (s : State) (t : Nat) : State := (List.range (teamOf s t).nbar).foldl (fun s b => testBar s t b) s

/-! ### Deferred faults at a wait (10 R242) -/

/-- Whether a fault awaits delivery at a barrier. -/
def barFaulted (B : Bar) : Bool := B.flt || B.aflt

/-- The trap kind, ABSENT and the barrier once it is delivered: FLT before AFLT. -/
def takeFault (B : Bar) : Nat × Bool × Bar :=
  if B.flt then (11, false, { B with flt := false }) else (B.akind, true, { B with aflt := false })

/-- A yielded path traps at its continuation, the others at their own PC (10 R242). The record's INFO holds the barrier and,
in [15:0], FIDX (DEDUCED, log 79). -/
def deliverAt (s : State) (t b g p : Nat) : State :=
  let B := barOf (teamOf s t) b
  let x := takeFault B
  let s1 := modBar s t b fun _ => { x.2.2 with fltAt := some s.gt }
  let s2 := modPath s1 t g p fun P => match P.wait with
    | .yield _ _ _ => { P with wait := .none }
    | _ => P
  waitTrap s2 t g p x.1 x.2.1 0 (b * 2 ^ 16 + B.fidx % 2 ^ 16)

/-- The trap goes to the lowest group and path whose wait on b would complete. -/
def deliverFault (s : State) (t b : Nat) : State :=
  let T := teamOf s t
  let done := (teamPaths T).filter fun x => match waitsFor x.2.2 with
    | some (b', tok) => b' == b && phaseDone (barOf T b) tok
    | none => false
  match done with
  | [] => s
  | (g, p, _) :: _ => deliverAt s t b g p

/-! ### Entries -/

/-- A barrier that the team does not have (10 R235). -/
def noBar (c : Iss) (b : Nat) : Bool := decide (c.T.nbar ≤ b)

/-- The path of a wait. -/
def waiting (c : Iss) (state : Nat) (w : Wait) (P : Path) : Path :=
  { P with state := state, wcount := 0, waitAct := c.act, waitWord := c.word, wait := w }

/-- YIELD: the active lanes wait at the continuation (04 R108, 10 R252). -/
def execYield (b : Nat) (off : Int) (s : State) : Host.Outcome State Fault Refusal :=
  issueWord (.yield b off) (fun _ _ _ => { waits := true })
    (fun c =>
      let tok := (barOf c.T b).ph
      let go := fun (P : Path) =>
        { waiting c 4 (.yield b tok c.P.pc) P with pc := jTarget c.P.pc off, wbar := b }
      if c.act == 0 then .adv c.s
      else if noBar c b then .trap .reservedOperand c.act 0 0
      else if c.act == c.P.mask then .jump (testBar (modPath c.s c.t c.g c.p go) c.t b)
      else match freeEntries c.G with
        | [] => .wait (modPath c.s c.t c.g c.p fun P => { P with state := 6 })
        | q :: _ => .adv (testBar (splitTo c.s c.t c.g c.p q c.act go) c.t b)) s

/-- A barrier with a new membership and count (10 R254). -/
def initBar (gmem ecnt : Nat) (B : Bar) : Bar :=
  settle { B with gmem := gmem, ecnt := ecnt, garr := B.garr &&& gmem }

def execBinit (look b : Nat) (a : Operand) (s : State) : Host.Outcome State Fault Refusal :=
  issueWord (.binit look b a) (fun _ _ _ => { uses := [{ op := a }], opBad := !isUniform a })
    (fun c =>
      let v := rd c a 0 0
      let gmem := bits v 15 0 % 2 ^ c.T.groups.length
      let ecnt := bits v 23 16
      if c.act == 0 then .adv c.s
      else if noBar c b then .trap .reservedOperand c.act 0 0
      else if gmem = 0 ∧ ecnt = 0 then .trap .barrierUnderpopulated c.act 0 (b * 2 ^ 16)
      else .adv (testBar (modBar c.s c.t b (initBar gmem ecnt)) c.t b)) s

/-- Whether a group is a member of b, and has arrived. -/
def isMember (B : Bar) (g : Nat) : Bool := B.gmem.testBit g
def hasArrived (B : Bar) (g : Nat) : Bool := B.garr.testBit g

/-- A group's arrival by BARV: the token to d, the window of the result opened (10 R255). -/
def barvArrive (c : Iss) (look b : Nat) (d : Operand) (bytes : Int) : State :=
  let B := barOf c.T b
  let s1 := modBar c.s c.t b (if isMember B c.g then memberArrive c.g bytes else arriveBar 1 bytes)
  postResult c s1 look d 1 (fun _ => B.ph)

/-- BARV: release at team scope first; a group that has arrived in this phase is held (10 R255). -/
def execBarv (look b : Nat) (d a : Operand) (s : State) : Host.Outcome State Fault Refusal :=
  issueWord (.barv look b d a)
    (fun _ _ _ => { uses := [{ op := d, src := false, dst := true }, { op := a }], opBad := !isUniform d || !isUniform a })
    (fun c =>
      let B := barOf c.T b
      let bytes := rd c a 0 0
      if c.act == 0 then .adv c.s
      else if noBar c b then .trap .reservedOperand c.act 0 0
      else if memBusy c.G || pendFull c look true then .stall
      else if isMember B c.g && hasArrived B c.g then
        .wait (testBar (modPath c.s c.t c.g c.p (waiting c 5 (.barv b look d bytes B.ph))) c.t b)
      else if !isMember B c.g && !canArrive c.s c.t b 1 then .stall
      else .adv (barvArrive c look b d (sint 32 bytes))) s

/-- BWAIT (10 R256). No wait on b completes in a tick in which a fault is delivered at it (10 R242). -/
def execBwait (b : Nat) (cur : Bool) (a : Operand) (s : State) : Host.Outcome State Fault Refusal :=
  issueWord (.bwait b cur a)
    (fun _ _ _ => { uses := [{ op := a }], opBad := (cur && a != .zero) || !isUniform a, waits := true })
    (fun c =>
      let B := barOf c.T b
      let tok := if cur then B.ph else rd c a 0 0 % 2 ^ 16
      if c.act == 0 then .adv c.s
      else if noBar c b then .trap .reservedOperand c.act 0 0
      else if phaseDone B tok && !barFaulted B && B.fltAt != some c.s.gt then .adv c.s
      else .wait (testBar (modPath c.s c.t c.g c.p (waiting c 5 (.bwait b tok))) c.t b)) s

def execBtest (b p : Nat) (cur : Bool) (a : Operand) (s : State) : Host.Outcome State Fault Refusal :=
  issueWord (.btest b p cur a)
    (fun _ _ _ => { uses := [{ op := a }], opBad := (cur && a != .zero) || !isUniform a })
    (fun c =>
      let B := barOf c.T b
      let tok := if cur then B.ph else rd c a 0 0 % 2 ^ 16
      if c.act == 0 then .adv c.s
      else if noBar c b then .trap .reservedOperand c.act 0 0
      else if phaseDone B tok && barFaulted B then
        .wait (deliverAt (modPath c.s c.t c.g c.p (waiting c 0 .none)) c.t b c.g c.p)
      else .adv (setPred c.s c.t c.g p c.act (if phaseDone B tok then c.act else 0))) s

def execBexp (look b : Nat) (a : Operand) (s : State) : Host.Outcome State Fault Refusal :=
  issueWord (.bexp look b a) (fun _ _ _ => { uses := [{ op := a }], opBad := !isUniform a })
    (fun c =>
      if c.act == 0 then .adv c.s
      else if noBar c b then .trap .reservedOperand c.act 0 0
      else .adv (arrive c.s c.t b 0 (sint 32 (rd c a 0 0)))) s

/-- QFENCE is unguarded (09 R233). -/
def execQfence (look mask : Nat) (bar : Option Nat) (s : State) : Host.Outcome State Fault Refusal :=
  issueWord (.qfence look mask bar) (fun _ _ _ => {})
    (fun c =>
      if (match bar with
        | some b => noBar c b
        | none => false) then .trap .reservedOperand c.act 0 0
      else if pendFull c look false then .stall
      else .adv (post c c.s look { work := .qfence mask bar })) s

/-! ### Events -/

/-- Whether every operation that a QFENCE waits for has completed. -/
def qfenceReady (T : Team) (g mask id : Nat) : Bool :=
  (List.range 5).all fun cls => !bit mask cls || !classBusy T g cls id

/-- A QFENCE completes: its window closes, and the operations of its queues after it read nothing older (09 R220, R233). -/
def endFence (s : State) (t g mask : Nat) (o : Pending) : State :=
  commit (freshen s t g o.id fun q => bit mask q) t g { o with performed := true }

/-- A QFENCE with a barrier completes and arrives (09 R233). -/
def execQfenceArrive (t g id : Nat) (s : State) : Host.Outcome State Fault Refusal :=
  match pendOf s t g id with
  | none => .next s
  | some o => match o.work with
    | .qfence mask (some b) =>
      if qfenceReady (teamOf s t) g mask id && canArrive s t b 1 then
        .next (arrive (endFence s t g mask o) t b 1 0)
      else .next s
    | _ => .next s

/-- A performed operation's result is written (02 R37). -/
def closeDone (s : State) (t g id : Nat) : State :=
  match pendOf s t g id with
  | none => s
  | some o => if o.performed && !o.ack then commit s t g o else s

/-- PENDING_RESULT_COMPLETE: an operation is performed, if it has not been, and its result is written (02 R37); a QFENCE
without a barrier closes its window (09 R233). -/
def execPendingResultComplete (t g id : Nat) (s : State) : Host.Outcome State Fault Refusal :=
  match pendOf s t g id with
  | none => .next s
  | some o => match o.work with
    | .qfence mask none =>
      if qfenceReady (teamOf s t) g mask id then .next (endFence s t g mask o) else .next s
    | _ => .next (closeDone (tryPerform s t g id) t g id)

/-- The end of a wait on a barrier, or the delivery of its fault. -/
def endBarWait (s : State) (t b tok : Nat) (fin : State → State) : State :=
  let B := barOf (teamOf s t) b
  if !teamRuns s t || !phaseDone B tok || B.fltAt == some s.gt then s
  else if barFaulted B then deliverFault s t b
  else fin s

def execBwaitComplete (t g p : Nat) (s : State) : Host.Outcome State Fault Refusal :=
  match (pathOf s t g p).valid, (pathOf s t g p).wait with
  | true, .bwait b tok => .next (endBarWait s t b tok fun s => leaveWait s t g p)
  | _, _ => .next s

def execYieldResume (t g p : Nat) (s : State) : Host.Outcome State Fault Refusal :=
  match (pathOf s t g p).valid, (pathOf s t g p).wait with
  | true, .yield b tok _ => .next (endBarWait s t b tok fun s =>
      groupMoved (modPath s t g p fun P => { P with state := 0, wbar := 0, wait := .none }) t g)
  | _, _ => .next s

/-- What a held BARV does once the phase has advanced: it arrives, or is held again behind another path of its group. -/
def releaseBarv (s : State) (t g p b look : Nat) (d : Operand) (bytes : Nat) : State :=
  let P := pathOf s t g p
  let c : Iss := { s := s, t := t, g := g, p := p, T := teamOf s t, G := groupOf s t g, P := P, act := P.waitAct,
                   col := none, word := P.waitWord }
  let B := barOf c.T b
  if isMember B g && hasArrived B g then
    testBar (modPath s t g p fun P => { P with wait := .barv b look d bytes B.ph }) t b
  else if (!isMember B g && !canArrive s t b 1) || pendFull c look true then s
  else finish s c (.adv (modPath (barvArrive c look b d (sint 32 bytes)) t g p fun P =>
    { P with state := 0, wait := .none }))

def execBarvHeldRelease (t g p : Nat) (s : State) : Host.Outcome State Fault Refusal :=
  match (pathOf s t g p).valid, (pathOf s t g p).wait with
  | true, .barv b look d bytes tok =>
    .next (endBarWait s t b tok fun s => releaseBarv s t g p b look d bytes)
  | _, _ => .next s

end Sys2Proof.Machine
end

