-- ==== Sys2Proof/Machine/Copy.lean ====
section
/-! DEFINITION. The skidder: COPY, CSUM, their checksums and faults, PIPE and PIPEREL and the pipeline depth
(10 R243–R251, R258–R260). -/

namespace Sys2Proof.Machine

/-! ### Slices (10 R244–R247) -/

/-- Fields of CTL (10 R245). -/
def ctlSsp (c : Nat) : Nat := bits c 1 0
def ctlDsp (c : Nat) : Nat := bits c 3 2
def ctlXf (c : Nat) : Nat := bits c 7 4
def ctlBytes (c : Nat) : Bool := bit c 10
def ctlDsum (c : Nat) : Bool := bit c 11
def ctlSsum (c : Nat) : Bool := bit c 12

/-- Source bytes of an element. -/
def srcSize (x : Slice) : Nat := if ctlXf x.ctl = 0 ∧ x.layout.isSome then 2 ^ bits x.ctl 9 8 else 1

/-- Destination bytes of an element (10 R247). -/
def dstSize (x : Slice) : Nat :=
  match ctlXf x.ctl with
  | 0 => srcSize x
  | 1 | 3 => 2
  | _ => 4

/-- Elements of a slice. -/
def sliceElems (x : Slice) : Nat :=
  if !x.full then 0
  else match x.layout with
    | some (_, exts) => exts.foldl (· * ·) 1
    | none => x.len

def dstBytes (x : Slice) : Nat := sliceElems x * dstSize x

/-- The offset of element e from its strides, index 0 fastest. -/
def strideSum : List Int → List Nat → Nat → Int
  | st :: sts, ex :: exs, e => (e % ex : Nat) * st + strideSum sts exs (e / ex)
  | _, _, _ => 0

/-- The source address of element e (10 R246). -/
def srcAddr (x : Slice) (e : Nat) : Nat :=
  match x.layout with
  | some (sts, exs) => wrapInt 64 ((x.saddr : Int) + strideSum sts exs e)
  | none => x.saddr + e

/-- A source element transformed to its destination bytes (10 R247). -/
def transform (xf : Nat) (src : List Byte) : List Byte :=
  let c := leNat src
  match xf with
  | 0 => src
  | 1 => leBytes (roundTo .f16 .rne false false none (decEx .k8 c)) 2
  | 2 => leBytes (decodeK8 c) 4
  | 3 => leBytes (roundTo .f16 .rne false false none (decEx .e4m3 c)) 2
  | 4 => leBytes (toF32 .rne (decEx .e4m3 c)) 4
  | _ => leBytes (toF32 .rne (exInt c)) 4

/-! ### Checksums (10 R250) -/

/-- The term of a word at a key address. -/
def sumTerm (w a : Nat) : Nat := ((w % 2 ^ 32) ^^^ (a * 2 ^ 29 % 2 ^ 64)) * 0x9E3779B97F4A7C15 % 2 ^ 64

/-- The aligned words that bytes from an address make, every other byte zero; no bytes make none. -/
def sumWords (a : Nat) (bs : List Byte) : List (Nat × Nat) :=
  let padded := List.replicate (a % 4) (0 : Byte) ++ bs
  if bs.isEmpty then [] else (List.range ((padded.length + 3) / 4)).map fun i => (a / 4 * 4 + 4 * i, leNat ((padded.drop (4 * i)).take 4))

def sumOf (ws : List (Nat × Nat)) : Nat := ws.foldl (fun r w => (r + sumTerm w.2 w.1) % 2 ^ 64) 0

/-- An addition to a field of a checksum record. -/
def addSum (s : State) (t off x : Nat) : State :=
  if x = 0 then s else landAdd s t off x

/-! ### Chunks (10 R248, R249) -/

/-- The part of a destination line of 128 bytes that a slice writes. -/
def lineSpan (x : Slice) (line : Nat) : Nat × Nat :=
  (max x.daddr (128 * line), min (x.daddr + dstBytes x) (128 * line + 128))

/-- The source pieces of a line, as address and length. -/
def lineReads (x : Slice) (line : Nat) : List (Nat × Nat) :=
  let (lo, hi) := lineSpan x line
  let e0 := (lo - x.daddr) / dstSize x
  let n := (hi - x.daddr) / dstSize x - e0
  match x.layout with
  | none => [(x.saddr + e0, n)]
  | some _ => (List.range n).map fun i => (srcAddr x (e0 + i), srcSize x)

/-- The page target of a space code: global, landing, peer, host. -/
def spTgt (sp : Nat) : Nat := if sp = 2 then 1 else if sp = 3 then 2 else 0

/-- An engine's read in a space code; `base` is where its range begins, for the fault of a landing range. `rd` reads bytes
at a key of memory, `land` bytes at an offset of landing memory as the engine sees it. -/
def spReadBy (rd : Nat → Nat → List Byte) (land : Team → Nat → Nat → List Byte) (s : State) (t : Nat) (w : Who)
    (sp base a n : Nat) : Span (State × List Byte) :=
  let T := seen s t false
  if sp = 1 then
    if !inLanding T a n then .fail .permission (max base T.lsz)
    else if landMeetsBad T a n false then .fail .uncorrected a
    else .ok (s, land T a n)
  else spanReadBy rd s w (spTgt sp) a n

/-- The same, of memory as it is now. -/
def spRead (s : State) (t : Nat) (w : Who) (sp base a n : Nat) : Span (State × List Byte) :=
  spReadBy (readBytes s.mem) landRead s t w sp base a n

/-- The same, each aligned 8-byte word as one of the values that it has held since an index of the history (09 R210); `place`
numbers the read. -/
def spReadSince (from_ place : Nat) (s : State) (t : Nat) (w : Who) (sp base a n : Nat) : Span (State × List Byte) :=
  spReadBy (readParts s from_ place)
    (fun T off len => (partsIn 8 off len).flatMap fun p =>
      tspan 0 (landAt s t T.landing (chosenAt s from_ (Config.readAt s.free place (landPast t p.1)))) p.1 p.2)
    s t w sp base a n

def spWrite (s : State) (t : Nat) (w : Who) (sp base a : Nat) (bs : List Byte) : Span State :=
  let T := seen s t false
  if sp = 1 then
    if !inLanding T a bs.length then .fail .permission (max base T.lsz)
    else if landMeetsBad T a bs.length true then .fail .uncorrected a
    else .ok (landWrite s t a bs)
  else spanWriteT s w (spTgt sp) a bs

/-- The index of the history from which on the skidder's reads for a slice or a CSUM of a group may be fixed (09 R213). -/
def copyFrom (T : Team) (g born : Nat) : Nat := max born (tget 0 (tget ({} : Group) T.groups g).since 1)

/-- The reads of the groups' COPY queues after now find nothing older than now. -/
def copyPast (s : State) (t : Nat) (gs : List Nat) : State :=
  gs.foldl (fun s g => modGroup s t g fun G => { G with since := tput G.since 1 (pastNow s) }) s

/-- The bytes of source pieces, read as they have been since an index of the history. -/
def readPieces (t from_ : Nat) (w : Who) (sp : Nat) (base : Nat → Nat) :
    State → List (Nat × Nat) → Span (State × List (Nat × List Byte))
  | s, [] => .ok (s, [])
  | s, (a, n) :: ps => match spReadSince from_ 1 s t w sp (base a) a n with
    | .fail k v => .fail k v
    | .hold => .hold
    | .ok (s1, bs) => match readPieces t from_ w sp base s1 ps with
      | .ok (s2, r) => .ok (s2, (a, bs) :: r)
      | r => r

def modCopy (s : State) (t id : Nat) (f : Copy → Copy) : State :=
  modTeam s t fun T => { T with copies := T.copies.map fun (c : Copy) => if c.id == id then f c else c }

/-- Source words of a slice without a layout, gathered over its chunks under keys of their own. -/
def partKey (i a : Nat) : Nat := i * 2 ^ 64 + a

/-- Words added to those gathered for slice i; bit 32 marks a word, zero too. -/
def addPart (i : Nat) (part : Table Nat) (ws : List (Nat × Nat)) : Table Nat :=
  ws.foldl (fun m w => tset 0 m (partKey i w.1) (tget 0 m (partKey i w.1) ||| w.2 ||| 2 ^ 32)) part

/-- The words gathered for slice i. -/
def partOf (i : Nat) (part : Table Nat) : List (Nat × Nat) :=
  (part.filter fun e => e.1 / 2 ^ 64 == i).map fun e => (e.1 % 2 ^ 64, e.2 % 2 ^ 32)

/-- A source piece of a slice without a layout out to the aligned 8-byte words that it shares with other chunks: one read of
a word serves them all (09 R210). -/
def widened (x : Slice) (p : Nat × Nat) : Nat × Nat :=
  let lo := max x.saddr (p.1 / 8 * 8)
  (lo, min (x.saddr + x.len) ((p.1 + p.2 + 7) / 8 * 8) - lo)

/-- Bytes read from an address, those that an earlier chunk of slice i has read as it found them. -/
def withEdges (edges : Table Nat) (i a : Nat) (bs : List Byte) : List Byte :=
  bs.mapIdx fun k b => match tfind edges (partKey i (a + k)) with
    | some v => BitVec.ofNat 8 v
    | none => b

/-- The bytes of a widened piece that other chunks share, kept. -/
def keepEdges (edges : Table Nat) (i : Nat) (p : Nat × Nat) (a : Nat) (bs : List Byte) : Table Nat :=
  (bs.zip (List.range bs.length)).foldl (fun m y =>
    if p.1 ≤ a + y.2 ∧ a + y.2 < p.1 + p.2 then m else tput m (partKey i (a + y.2)) y.1.toNat) edges

/-- A chunk's source bytes out of what its reads returned, with the bytes kept for other chunks. -/
def chunkSource (C : Copy) (i : Nat) (x : Slice) (ps : List (Nat × Nat)) (rs : List (Nat × List Byte)) :
    List (Nat × List Byte) × Table Nat :=
  match x.layout, ps, rs with
  | none, [p], [r] =>
    let bs := withEdges C.edges i r.1 r.2
    ([(p.1, (bs.drop (p.1 - r.1)).take p.2)], keepEdges C.edges i p r.1 bs)
  | _, _, rs => (rs, C.edges)

/-- The checksum additions of a chunk. -/
def chunkSums (s : State) (t : Nat) (C : Copy) (i : Nat) (x : Slice) (lo : Nat) (src : List (Nat × List Byte))
    (out : List Byte) : State :=
  let s1 := if ctlDsum x.ctl then addSum s t x.sumrec (sumOf (sumWords lo out)) else s
  if !ctlSsum x.ctl then s1
  else match x.layout with
    | some _ => addSum s1 t (x.sumrec + 8) (sumOf (src.flatMap fun p => sumWords p.1 p.2))
    | none =>
      let part := addPart i C.part (src.flatMap fun p => sumWords p.1 p.2)
      let s2 := modCopy s1 t C.id fun c => { c with part := part }
      if C.todo.any fun y => y.1 == i then s2 else addSum s2 t (x.sumrec + 8) (sumOf (partOf i part))

/-- The groups that take part in a collective (10 R243). -/
def participants (T : Team) (C : Copy) : List Nat :=
  (T.groups.filter fun G => !C.role || G.2.role == C.of).map (·.1)

/-- A chunk read, transformed and written by `put`; `C` lists it no more. A fault writes nothing. -/
def chunkBy (put : State → Who → Slice → Nat → List Byte → Span State) (s : State) (t : Nat) (C : Copy) (i line : Nat) : Span State :=
  let T := teamOf s t
  let x := C.slices.getD i {}
  let w := whoOf T (groupOf s t x.g) x.pc true
  let (lo, hi) := lineSpan x line
  match x.bad with
  | some a => .fail .uncorrected a
  | none =>
    if (ctlDsum x.ctl || ctlSsum x.ctl) && landMeetsBad (seen s t true) x.sumrec 16 false then .fail .uncorrected x.sumrec
    else match readPieces t (copyFrom T x.g x.born) w (ctlSsp x.ctl) (fun a => if x.layout.isSome then a else x.saddr) s
        (if x.layout.isSome then lineReads x line else (lineReads x line).map (widened x)) with
      | .fail k v => .fail k v
      | .hold => .hold
      | .ok (s1, rs) =>
        let (src, edges) := chunkSource C i x (lineReads x line) rs
        let bytes := src.flatMap fun p => p.2
        let out := if ctlXf x.ctl = 0 then bytes else bytes.flatMap fun b => transform (ctlXf x.ctl) [b]
        match put s1 w x lo out with
        | .fail k v => .fail k v
        | .hold => .hold
        | .ok s2 =>
          let s3 := copyPast (chunkSums (modCopy s2 t C.id fun c => { c with edges := edges }) t C i x lo src out) t (participants T C)
          if ctlBytes x.ctl then
            .ok (arrive (modCopy s3 t C.id fun c => { c with left := c.left - (hi - lo) }) t C.bar 0
              (-((hi - lo : Nat) : Int)))
          else .ok s3

def chunkDo (s : State) (t : Nat) (C : Copy) (i line : Nat) : Span State :=
  chunkBy (fun s w x lo out => spWrite s t w (ctlDsp x.ctl) x.daddr lo out) s t C i line

/-! ### Order within a queue (09 R208, R212, 10 R248) -/

/-- Whether two byte ranges share a byte. -/
def overlap (a n b m : Nat) : Bool := decide (a < b + m) && decide (b < a + n)

/-- Whether some group issued its slice of A before its slice of B. -/
def issuedBefore (A B : Copy) : Bool :=
  A.slices.any fun x => B.slices.any fun y => x.g == y.g && decide (x.id < y.id)

/-- A stands before B in a queue. -/
def precedes (A B : Copy) : Bool := issuedBefore A B && (!issuedBefore B A || decide (A.id < B.id))

/-- Whether two byte ranges of a context's space codes share a byte, under one address or under two addresses of one
page. -/
def share (s : State) (c p a n q b m : Nat) : Bool :=
  if p == 1 || q == 1 then p == q && overlap a n b m
  else
    let keys := fun (va len : Nat) => (cutPages va (len / 2 ^ 15 + 2) len).filterMap fun x => (whereIs s c x.1).map fun k => (k, x.2)
    (p == q && overlap a n b m) || (keys a n).any fun x => (keys b m).any fun y => overlap x.1 x.2 y.1 y.2

/-- The lines of destination still to land by slice: those of a slice to come are all its own. -/
def sliceLines (i : Nat) (x : Slice) : List (Nat × Nat) :=
  let n := dstBytes x
  if x.bad.isSome then [(i, x.daddr / 128)]
  else if n = 0 then []
  else (List.range ((x.daddr + n - 1) / 128 - x.daddr / 128 + 1)).map fun k => (i, x.daddr / 128 + k)

/-- The chunks that a collective has still to perform. -/
def todoOf (C : Copy) : List (Nat × Nat) := if C.started then C.todo else (C.slices.mapIdx sliceLines).flatten

/-- Whether chunk (y, m) of a later collective touches bytes of an earlier one's chunk (x, l) so that their order counts. -/
def chunksMeet (s : State) (c : Nat) (x : Slice) (l : Nat) (y : Slice) (m : Nat) : Bool :=
  let (a0, a1) := lineSpan x l
  let (b0, b1) := lineSpan y m
  share s c (ctlDsp x.ctl) a0 (a1 - a0) (ctlDsp y.ctl) b0 (b1 - b0) ||
    ((lineReads y m).any fun r => share s c (ctlDsp x.ctl) a0 (a1 - a0) (ctlSsp y.ctl) r.1 r.2) ||
    (lineReads x l).any fun r => share s c (ctlSsp x.ctl) r.1 r.2 (ctlDsp y.ctl) b0 (b1 - b0)

/-- Whether a chunk must wait for an earlier operation of a common queue. -/
def chunkBlocked (s : State) (T : Team) (C : Copy) (i line : Nat) : Bool :=
  let y := C.slices.getD i {}
  let (b0, b1) := lineSpan y line
  (T.copies.any fun A => A.id != C.id && precedes A C &&
      (todoOf A).any fun z => chunksMeet s T.ctx (A.slices.getD z.1 {}) z.2 y line) ||
    T.csums.any fun k => (C.slices.any fun z => z.g == k.g && decide (k.id < z.id)) &&
      share s T.ctx k.sp k.saddr k.len (ctlDsp y.ctl) b0 (b1 - b0)

/-! ### Collectives (10 R243) -/

/-- Whether every participant has supplied its slice, or has ended. -/
def allSupplied (T : Team) (C : Copy) : Bool :=
  (participants T C).all fun g => (C.slices.any fun x => x.g == g) || (tget ({} : Group) T.groups g).ended

/-- The end of a group may be what the last collectives wait for: they are timed from now (10 R243, R251). -/
def stampCopies (s : State) (t : Nat) : State :=
  modTeam s t fun T => { T with copies := T.copies.map fun (C : Copy) =>
    if !C.started && C.tick.isNone && allSupplied T C then { C with tick := some s.gt } else C }

/-- Whether a collective may start as far as its own slices go. -/
def copyReady (T : Team) (C : Copy) : Bool :=
  !C.started && allSupplied T C && C.slices.all fun x => !classHeld (tget ({} : Group) T.groups x.g) 1 x.id

/-- The unstarted collectives that may start, no earlier one of a queue staying behind (10 R248). -/
def startable (T : Team) : Nat → List Copy → List Copy
  | 0, l => l
  | n + 1, l => startable T n (l.filter fun C => T.copies.all fun A =>
      A.id == C.id || A.started || !precedes A C || l.any fun B => B.id == A.id)

def canStart (T : Team) (id : Nat) : Bool :=
  (startable T T.copies.length (T.copies.filter (copyReady T))).any fun C => C.id == id

/-- A collective as it starts. -/
def startCopy (now : Nat) (C : Copy) : Copy :=
  { C with started := true, tick := some (C.tick.getD now),
           todo := todoOf { C with started := false },
           left := C.slices.foldl (fun n x => if ctlBytes x.ctl then n + dstBytes x else n) 0 }

def copyOf (T : Team) (id : Nat) : Option Copy := T.copies.find? fun c => c.id == id

/-- A collective leaves the skidder, timed for the pipeline depth (10 R251). -/
def endCopy (s : State) (t : Nat) (C : Copy) : State :=
  modTeam s t fun T => { T with copies := T.copies.filter fun c => c.id != C.id,
                                copySum := T.copySum + (s.gt - C.tick.getD s.gt), copyN := T.copyN + 1 }

def execCopyCollectiveStart (t id : Nat) (s : State) : Host.Outcome State Fault Refusal :=
  match copyOf (teamOf s t) id with
  | none => .next s
  | some C =>
    if !canStart (teamOf s t) id then .next s
    else
      let C1 := startCopy s.gt C
      let s1 := modCopy s t id fun _ => C1
      if C1.todo.isEmpty && canArrive s t C.bar 1 then .next (arrive (endCopy s1 t C1) t C.bar 1 0)
      else .next s1

/-- A chunk of a collective performed by `act`, once its order lets it. -/
def landChunk (act : State → Copy → Span State) (t id slice line : Nat) (s : State) : State :=
  match copyOf (teamOf s t) id with
  | none => s
  | some C =>
    if !C.todo.contains (slice, line) || chunkBlocked s (teamOf s t) C slice line then s
    else
      let C1 := { C with todo := C.todo.filter (· != (slice, line)) }
      match act (modCopy s t id fun _ => C1) C1 with
      | .ok s1 => s1
      | _ => s

def execCopyChunkLand (t id slice line : Nat) (s : State) : Host.Outcome State Fault Refusal :=
  .next (landChunk (fun s C => chunkDo s t C slice line) t id slice line s)

def execCopyCollectiveArrive (t id : Nat) (s : State) : Host.Outcome State Fault Refusal :=
  match copyOf (teamOf s t) id with
  | none => .next s
  | some C =>
    if C.started && C.todo.isEmpty && canArrive s t C.bar 1 then .next (arrive (endCopy s t C) t C.bar 1 0)
    else .next s

/-- An engine's fault record (16 R378); its index. -/
def engineLog (s : State) (t engine : Nat) (kind : TrapKind) (va bt : Nat) : State × Nat :=
  let T := teamOf s t
  let f : LogInfo := { teamLog T with absent := T.away != .present, engine := engine, kind := kindCode kind,
                                      va := va % 2 ^ 56, bt := bt }
  logAppend (noteEvent (detectAt s T.ctx (kindCode kind) va) T.ctx T.queue T.pkt (16 + kindCode kind)) T.ctx 2 f []

/-- A collective faults: the record, the rest of PEND, the flag, the arrival (10 R249). -/
def copyFails (s : State) (t : Nat) (C : Copy) (k : TrapKind) (va : Nat) : State :=
  let r := engineLog s t 1 k va C.bar
  let s1 := endCopy r.1 t C
  let s2 := if C.left = 0 then s1 else arrive s1 t C.bar 0 (-(C.left : Int))
  arrive (flagFault s2 t C.bar r.2) t C.bar 1 0

/-- A chunk of a collective that faults as `act` says, once its order lets it. -/
def faultChunk (act : State → Copy → Span State) (t id slice line : Nat) (s : State) : State :=
  match copyOf (teamOf s t) id with
  | none => s
  | some C =>
    if !C.todo.contains (slice, line) || chunkBlocked s (teamOf s t) C slice line || !canArrive s t C.bar 1 then s
    else match act s { C with todo := C.todo.filter (· != (slice, line)) } with
      | .fail k va => copyFails s t C k va
      | _ => s

/-- COPY_FAULT. -/
def execCopyFault (t id slice line : Nat) (s : State) : Host.Outcome State Fault Refusal :=
  .next (faultChunk (fun s C => chunkDo s t C slice line) t id slice line s)

/-! ### COPY and CSUM (10 R258, R259) -/

/-- The eight registers of a slice. -/
def sliceRegs (c : Iss) (a : Operand) : List Nat := (List.range 8).map fun i => rd c a i 0

/-- Check 1 of 10 R258. -/
def sliceOperandBad (a : Operand) : Bool :=
  match a with
  | .s k => k % 8 != 0 || decide (40 < k)
  | _ => true

/-- Signed 32-bit strides and 16-bit extents of a layout record (10 R246). -/
def copyLayout (T : Team) (off : Nat) : List Int × List Nat :=
  ((List.range 4).map fun j => sint 32 (landNat T (off + 4 * j) 4),
   (List.range 4).map fun j => landNat T (off + 16 + 2 * j) 2)

/-- The slice that eight registers describe. -/
def sliceOf (c : Iss) (id : Nat) (r : List Nat) : Slice :=
  let lay := r.getD 5 0
  { id := id, g := c.g, pc := c.P.pc, scope := c.P.gm.scope, full := true,
    saddr := r.getD 0 0 + 2 ^ 32 * r.getD 1 0, daddr := r.getD 2 0 + 2 ^ 32 * r.getD 3 0, len := r.getD 4 0,
    layout := if lay = 0xFFFFFFFF then none else some (copyLayout c.T lay),
    ctl := r.getD 6 0, sumrec := r.getD 7 0,
    bad := if lay != 0xFFFFFFFF && landMeetsBad c.T lay 32 false then some lay else none, born := pastNow c.s }

/-- Check 2 of 10 R258 on fields that COPY and CSUM share. -/
def ctlBad (ctl : Nat) : Bool := bits ctl 31 13 != 0 || decide (6 ≤ ctlXf ctl)

def copyBad (T : Team) (r : List Nat) (x : Slice) : Bool :=
  let lay := r.getD 5 0
  ctlBad x.ctl || (bits x.ctl 9 8 != 0 && ctlXf x.ctl != 0) || (ctlSsp x.ctl == 1 && r.getD 1 0 != 0)
    || (ctlDsp x.ctl == 1 && r.getD 3 0 != 0) || (lay != 0xFFFFFFFF && recordBad T lay 32)
    || ((ctlDsum x.ctl || ctlSsum x.ctl) && recordBad T x.sumrec 16) || decide (2 ^ 19 < dstBytes x)

/-- The collectives that a core's skidder holds (10 R248). -/
def skidderLoad (s : State) (core : Nat) : Nat :=
  s.teams.foldl (fun n T => if teamCore T.2 = core ∧ T.2.ctl = false then n + T.2.copies.length else n) 0

/-- A slice joins the first collective of its key that lacks one of its group (10 R243). -/
def joinCopy (T : Team) (now id : Nat) (role : Bool) (of b : Nat) (x : Slice) : Team :=
  let mine := fun (C : Copy) =>
    C.role == role && C.of == of && C.bar == b && !C.started && !(C.slices.any fun y => y.g == x.g)
  let stamp := fun (C : Copy) => if allSupplied T C then { C with tick := some now } else C
  match T.copies.find? mine with
  | some C => { T with copies := T.copies.map fun (D : Copy) =>
      if D.id == C.id then stamp { D with slices := D.slices ++ [x] } else D }
  | none => { T with copies := T.copies ++ [stamp { id := id, role := role, of := of, bar := b, slices := [x] }] }

/-- Whether a slice of a group would open a new collective. -/
def opensCopy (T : Team) (g : Nat) (role : Bool) (of b : Nat) : Bool :=
  !(T.copies.any fun C => C.role == role && C.of == of && C.bar == b && !C.started && !(C.slices.any fun y => y.g == g))

/-- Supplies a slice, or stalls where the skidder is full. -/
def supply (c : Iss) (b : Nat) (role : Bool) (x : Slice) : Eff :=
  let of := if role then c.G.role else 0
  if opensCopy c.T c.g role of b && decide (32 ≤ skidderLoad c.s (teamCore c.T)) then .stall
  else
    let s1 := modTeam c.s c.t fun T => joinCopy T c.s.gt c.s.nextId role of b x
    .adv { s1 with nextId := s1.nextId + 1 }

/-- COPY. A slice of LEN 0 without a layout is made none of the checks 2 and 3 (DESIGN CHOICE, log entry 84); check 1, which has
no condition on Active(G), names the path's mask. -/
def execCopy (look b : Nat) (role : Bool) (a : Operand) (s : State) : Host.Outcome State Fault Refusal :=
  issueWord (.copy look b role a)
    (fun _ _ _ => { uses := [{ op := a }], opBad := !isUniform a })
    (fun c =>
      let r := sliceRegs c a
      let x := sliceOf c c.s.nextId r
      if noBar c b then .trap .reservedOperand c.act 0 0
      else if sliceOperandBad a then .trap .reservedOperand c.P.mask 0 0
      else if c.act == 0 ∨ (r.getD 4 0 = 0 ∧ r.getD 5 0 = 0xFFFFFFFF) then
        supply c b role { id := c.s.nextId, g := c.g, pc := c.P.pc, scope := c.P.gm.scope }
      else if copyBad c.T r x then .trap .reservedOperand c.act 0 0
      else if x.layout.isSome && inCopied c.T true (r.getD 5 0) 32 then .stall
      else if x.daddr % dstSize x != 0 then .trap .misaligned c.act 0 0
      else supply c b role x) s

/-- The checks that remain for CSUM, whose destination, ESZ, BYTES, DSUM and SSUM are ignored (10 R259). -/
def csumBad (T : Team) (r : List Nat) : Bool :=
  let ctl := r.getD 6 0
  bits ctl 31 13 != 0 || ctlXf ctl != 0 || r.getD 5 0 != 0xFFFFFFFF || (ctlSsp ctl == 1 && r.getD 1 0 != 0)
    || recordBad T (r.getD 7 0) 16

def execCsum (look b : Nat) (a : Operand) (s : State) : Host.Outcome State Fault Refusal :=
  issueWord (.csum look b a)
    (fun _ _ _ => { uses := [{ op := a }], opBad := !isUniform a })
    (fun c =>
      let r := sliceRegs c a
      if c.act == 0 then .adv c.s
      else if noBar c b then .trap .reservedOperand c.act 0 0
      else if sliceOperandBad a || csumBad c.T r then .trap .reservedOperand c.act 0 0
      else if pendFull c look false then .stall
      else
        let k : Csum := { id := c.s.nextId, g := c.g, pc := c.P.pc, scope := c.P.gm.scope, bar := b,
                          saddr := r.getD 0 0 + 2 ^ 32 * r.getD 1 0, sp := ctlSsp (r.getD 6 0), len := r.getD 4 0,
                          sumrec := r.getD 7 0, born := pastNow c.s, at_ := c.s.gt }
        let s1 := modTeam c.s c.t fun T => { T with csums := T.csums ++ [k] }
        if look = 15 then .adv { s1 with nextId := s1.nextId + 1 } else .adv (post c s1 look {})) s

/-- Whether a CSUM must wait: for its group's acquires and QFENCEs, and for earlier copies that write its range. -/
def csumBlocked (s : State) (T : Team) (k : Csum) : Bool :=
  classHeld (tget ({} : Group) T.groups k.g) 1 k.id ||
    T.copies.any fun C => (C.slices.any fun x => x.g == k.g && decide (x.id < k.id)) &&
      (todoOf C).any fun z =>
        let x := C.slices.getD z.1 {}
        let (a0, a1) := lineSpan x z.2
        share s T.ctx (ctlDsp x.ctl) a0 (a1 - a0) k.sp k.saddr k.len

/-- A CSUM leaves the skidder, and its window closes. -/
def csumGone (s : State) (t : Nat) (k : Csum) : State :=
  let s1 := modTeam s t fun T => { T with csums := T.csums.filter fun j => j.id != k.id }
  match pendOf s1 t k.g k.id with
  | some o => commit s1 t k.g { o with performed := true }
  | none => s1

/-- A CSUM faults: the record, the flag, the arrival. -/
def csumFails (s : State) (t : Nat) (k : Csum) (kind : TrapKind) (va : Nat) : State :=
  let r := engineLog s t 1 kind va k.bar
  arrive (flagFault (csumGone r.1 t k) t k.bar r.2) t k.bar 1 0

def execCsumComplete (t id : Nat) (s : State) : Host.Outcome State Fault Refusal :=
  match (teamOf s t).csums.find? fun k => k.id == id with
  | none => .next s
  | some k =>
    let T := teamOf s t
    if csumBlocked s T k || !canArrive s t k.bar 1 then .next s
    else
      if landMeetsBad (seen s t true) k.sumrec 16 false then .next (csumFails s t k .uncorrected k.sumrec)
      else match spReadSince (copyFrom T k.g k.born) 1 s t (whoOf T (groupOf s t k.g) k.pc true) k.sp k.saddr k.saddr k.len with
        | .hold => .next s
        | .fail kind va => .next (csumFails s t k kind va)
        | .ok (s1, bs) => .next (arrive (addSum (copyPast (csumGone s1 t k) t [k.g]) t k.sumrec (sumOf (sumWords k.saddr bs))) t k.bar 1 0)

/-! ### Pipeline depth (10 R251, R260) -/

/-- PIPE: a stage, or a stall while none is free. In a launch without a pipeline it traps with an empty Active(G) too, where
10 R260 says both (DESIGN CHOICE, log entry 84). -/
def execPipe (d : Operand) (s : State) : Host.Outcome State Fault Refusal :=
  issueWord (.pipe d) (fun _ _ _ => { uses := [{ op := d, src := false, dst := true }], opBad := !isUniform d })
    (fun c =>
      if c.T.smax = 0 then .trap .illegalInstruction c.P.mask 0 0
      else if c.act == 0 then .adv c.s
      else if c.T.pd ≤ (c.T.head + 2 ^ 16 - c.T.tail) % 2 ^ 16 then .stall
      else
        let s1 := wrLanes c c.s d 1 c.act (fun _ => c.T.head % c.T.smax)
        .adv (modTeam s1 c.t fun T => { T with head := (T.head + 1) % 2 ^ 16 })) s

/-- A PIPEREL counted for the interval's mean time. -/
def noteRelease (now : Nat) (T : Team) : Team :=
  { T with relSum := T.relSum + (match T.relLast with
             | some l => now - l
             | none => 0),
           relLast := some now, relN := T.relN + 1 }

/-- PIPEREL: the oldest stage returned, if there is one; else it has no effect, and is not counted either. -/
def execPiperel (s : State) : Host.Outcome State Fault Refusal :=
  issueWord .piperel (fun _ _ _ => {})
    (fun c =>
      if c.T.smax = 0 then .trap .illegalInstruction c.P.mask 0 0
      else if c.act == 0 then .adv c.s
      else .adv (modTeam c.s c.t fun T =>
        if T.head = T.tail then T else { noteRelease c.s.gt T with tail := (T.tail + 1) % 2 ^ 16 })) s

/-- The depth that an interval's means give; unchanged without a collective or two PIPERELs. -/
def nextDepth (T : Team) : Nat :=
  if T.copyN = 0 ∨ T.relN < 2 then T.pd
  else
    let num := T.copySum * (T.relN - 1)
    let den := T.copyN * T.relSum
    if den = 0 then T.smax else min (max ((num + den - 1) / den + 1) T.smin) T.smax

def execPipeDepthUpdate (t : Nat) (s : State) : Host.Outcome State Fault Refusal :=
  let T := teamOf s t
  if T.smax = 0 ∨ s.gt < T.pipeAt + 16384 then .next s
  else .next (mirrorTail (modTeam s t fun T =>
    { T with pd := nextDepth T, pipeAt := T.pipeAt + 16384, copySum := 0, copyN := 0, relLast := none, relSum := 0, relN := 0 }) t)

end Sys2Proof.Machine
end

