-- ==== Sys2Proof/Machine/Matrix.lean ====
section
/-! DEFINITION. The matrix engine's data: pass records and their checks (11 R268–R274), operand fetch (R269, R273, R275,
R276), the exact pass (R277, R278, 03 R77–R80). -/

namespace Sys2Proof.Machine

/-! ### Element codes (11 R272, 03 R79) -/

/-- The width class of an element code, 0 for a reserved one. -/
def codeClass (c : Nat) : Nat :=
  match c with
  | 5 | 17 | 18 | 20 | 21 | 22 | 23 => 8
  | 13 | 14 => 16
  | 15 => 32
  | 16 => 64
  | 19 | 24 => 4
  | _ => 0

/-- Whether a scale kind is allowed for a code. -/
def scaleAllowed (c k : Nat) : Bool :=
  match c with
  | 5 | 18 | 19 | 24 => k == 0 || k == 1 || k == 3
  | 17 => k == 0 || k == 2 || k == 3
  | 20 | 21 | 22 | 23 => k == 0 || k == 1
  | _ => k == 0

def emulatedCode (c : Nat) : Bool := decide (20 ≤ c) && decide (c ≤ 24)

/-- A small format without specials: f fraction bits, a bias. -/
def smallFlt (x width f bias : Nat) : Ex :=
  let neg := bit x (width - 1)
  let m := x % 2 ^ f
  let e := x % 2 ^ (width - 1) / 2 ^ f
  if e = 0 then exDy neg m 1 (bias + f) else exDy neg (2 ^ f + m) e (bias + f)

/-- An element's exact value by code (03 R79, R80; log entry 12 for codes 21 and 22). -/
def codeVal (c x : Nat) : Ex :=
  match c with
  | 5 => exInt (sint 8 x)
  | 13 => decBin .f16 x
  | 14 => decBin .bf16 x
  | 15 => decBin .f32 x
  | 16 => decBin .f64 x
  | 17 => decEx .k8 x
  | 18 => decBin .e4m3 x
  | 19 => decBin .e2m1 x
  | 20 => decBin .f16 (x % 256 * 256)
  | 21 => smallFlt (x % 64) 6 2 3
  | 22 => smallFlt (x % 64) 6 3 1
  | 23 => exMul (exInt (sint 8 x)) (.fin false 1 64)
  | _ => exInt (sint 4 x)

/-! ### Operand layout (11 R269, R273) -/

/-- An operand of a pass: its layout, whether it is A, its K depth, the source row of each line. -/
structure Opnd where
  L : Layout
  isA : Bool
  kp : Nat
  idx : Option (List Nat) := none

/-- Elements of the layout. -/
def Layout.count (L : Layout) : Nat := L.exts.foldl (· * ·) 1

/-- The byte address and length of the element at offset m. -/
def elemPlace (L : Layout) (m : Int) : Int × Nat :=
  let w := codeClass L.elem
  if w = 4 then ((L.base : Int) + m / 2, 1) else ((L.base : Int) + m * ((w / 8 : Nat) : Int), w / 8)

/-- The element number of a position, line first. -/
def elemNo (o : Opnd) (line k : Nat) : Nat := ((o.idx.getD []).getD line line) * o.kp + k

/-- Blocks per scale line, and the pitch (11 R273). -/
def blockLen (L : Layout) : Nat := 8 * 2 ^ L.blen
def blocksPerLine (o : Opnd) : Nat :=
  let n := if o.L.saxis then (if o.isA then 96 else 64) else o.kp
  (n + blockLen o.L - 1) / blockLen o.L
def scalePitch (o : Opnd) : Nat := if o.L.spitch = 0 then blocksPerLine o else 2 ^ o.L.spitch

/-- Bytes of a scale code. -/
def scaleSize (L : Layout) : Nat := if L.skind = 3 then 4 else 1

/-- The address of the scale of a position; `src` is the line's source row. -/
def scalePlace (o : Opnd) (src line k : Nat) : Nat :=
  let (l, p) := if o.L.saxis then (k, line) else (src, k)
  o.L.saddr * 256 + (l * scalePitch o + p / blockLen o.L) * scaleSize o.L

/-- Lines of an operand: rows of A, columns of B. -/
def lineCount (isA : Bool) : Nat := if isA then 96 else 64

/-- The positions of an operand in a set of K positions, in order of use. -/
def positions (o : Opnd) (ks : List Nat) : List (Nat × Nat) :=
  (List.range (lineCount o.isA)).flatMap fun r => ks.map fun k => (r, k)

/-- The places of the elements and of the scales that positions read. -/
def elemPlaces (o : Opnd) (ps : List (Nat × Nat)) : List (Int × Nat) :=
  ps.filterMap fun p =>
    let e := elemNo o p.1 p.2
    if o.L.count ≤ e then none else some (elemPlace o.L (strideSum o.L.strides o.L.exts e))
def scalePlaces (o : Opnd) (ps : List (Nat × Nat)) : List (Int × Nat) :=
  if o.L.blen = 0 then []
  else ps.filterMap fun p =>
    if o.L.count ≤ elemNo o p.1 p.2 then none
    else some ((scalePlace o ((o.idx.getD []).getD p.1 p.1) p.1 p.2 : Nat), scaleSize o.L)

/-! ### Fetch (11 R275, R276) -/

/-- The key of an aligned word of a space, as landing or global memory; an address below 0 leaves every space. -/
def wordKey (sp : Nat) (a : Int) : Nat := sp * 2 ^ 70 + wrapInt 64 a / 8 * 8

/-- The keys of the words that places touch. -/
def placeWords (sp : Nat) (pl : List (Int × Nat)) : List Nat :=
  pl.flatMap fun p => (List.range p.2).map fun (i : Nat) => wordKey sp (p.1 + (i : Int))

/-- Words without repeats, in order of first use, leaving out those already requested. -/
def firstUses (seen : Table Unit) (ws : List Nat) : Table Unit × List Nat :=
  ws.foldl (fun r w => if (tfind r.1 w).isSome then r else (tput r.1 w (), r.2 ++ [w])) (seen, [])

/-- The requests of a pass: each operand's words, then its scales' (11 R275). -/
def requests (parts : List (List Nat)) : List (List Nat) :=
  (parts.foldl (fun (r : Table Unit × List (List Nat)) ws =>
    let x := firstUses r.1 ws
    (x.1, r.2 ++ [x.2])) ([], [])).2

/-- Groups of up to 128 requests. -/
def groups128 : Nat → List Nat → List (List Nat)
  | 0, _ => []
  | n + 1, l => if l.isEmpty then [] else l.take 128 :: groups128 n (l.drop 128)

/-- The extra ticks of a group: the most words in one bank, four a tick, less one (11 R275, 07 R173). -/
def groupConflicts (ws : List Nat) : Nat :=
  let per := fun (b : Nat) => (ws.filter fun w => w % 2 ^ 70 / 8 % 32 == b).length
  let m := (List.range 32).foldl (fun m b => max m (per b)) 0
  max 1 ((m + 3) / 4) - 1

/-- The conflicts of a list of requests; only landing words go through the port. -/
def conflictsOf (ws : List Nat) : Nat :=
  let land := ws.filter fun w => decide (w < 2 ^ 70)
  (groups128 land.length land).foldl (fun n g => n + groupConflicts g) 0

/-- The words fetched, by key, each as it has been at some time since an index of the history (09 R222). -/
def fetchWords (t from_ : Nat) (w : Who) : State → Table Nat → List Nat → Span (State × Table Nat)
  | s, m, [] => .ok (s, m)
  | s, m, k :: ks =>
    let sp := if k / 2 ^ 70 = 0 then 1 else 0
    match spReadSince from_ 0 s t w sp (k % 2 ^ 70) (k % 2 ^ 70) 8 with
    | .fail kind va => .fail kind va
    | .hold => .hold
    | .ok (s1, bs) => fetchWords t from_ w s1 (tput m k (leNat bs)) ks

/-- A value of n bytes from fetched words. -/
def fetched (m : Table Nat) (sp : Nat) (a : Int) (n : Nat) : Nat :=
  (List.range n).foldl (fun r (i : Nat) =>
    let k := wrapInt 64 (a + (i : Int))
    r + (tget 0 m (sp * 2 ^ 70 + k / 8 * 8) / 2 ^ (8 * (k % 8)) % 256) * 2 ^ (8 * i)) 0

/-- The exact value of a position, its scale applied, with whether its element differs from zero; +0 beyond the layout. -/
def opndVal (o : Opnd) (m : Table Nat) (line k : Nat) : Ex × Bool :=
  let e := elemNo o line k
  if o.L.count ≤ e then (zeroEx, false)
  else
    let off := strideSum o.L.strides o.L.exts e
    let pl := elemPlace o.L off
    let raw := fetched m o.L.sp pl.1 pl.2
    let x := if codeClass o.L.elem = 4 then (if off % 2 = 1 then raw / 16 else raw % 16) else raw
    let v := codeVal o.L.elem x
    let σ := decodeScale o.L.skind
      (fetched m o.L.sp (scalePlace o ((o.idx.getD []).getD line line) line k : Nat) (scaleSize o.L))
    (if o.L.blen = 0 then v else exMul v σ, !exIsZero v)

/-- The values of an operand over some K positions, line by line. -/
def opndVals (o : Opnd) (m : Table Nat) (ks : List Nat) : List (List (Ex × Bool)) :=
  (List.range (lineCount o.isA)).map fun r => ks.map fun k => opndVal o m r k

/-! ### The exact sum (03 R77, R78) -/

/-- An accumulator element rounded once. -/
def passRound (wide : Bool) (x : Ex) : Nat :=
  if wide then roundBin .f64 .rne false false none x else toF32 .rne x

/-- A pass over rows of A and columns of B into accumulator values by row. -/
def passRun (wide : Bool) (acc : List Nat) (A B : List (List (Ex × Bool))) : List Nat :=
  let ab := A.flatMap fun row => B.map fun col => (row, col)
  List.zipWith (fun x p => passRound wide (passSum (decBin (if wide then .f64 else .f32) x) p.1 p.2)) acc ab

/-! ### Pass records (11 R268–R274) -/

/-- An operand's part of a record: its base, space, strides, extents and format block. -/
def layoutOf (x base fmt : Nat) : Layout :=
  let f := bits x (fmt + 63) fmt
  { base := bits x (base + 55) base, sp := bits x (base + 57) (base + 56),
    strides := (List.range 4).map fun j => sint 32 (bits x (base + 64 + 32 * j + 31) (base + 64 + 32 * j)),
    exts := (List.range 4).map fun j => bits x (base + 192 + 16 * j + 15) (base + 192 + 16 * j),
    elem := bits f 4 0, blen := bits f 7 5, skind := bits f 9 8, saxis := bit f 10, spitch := bits f 15 11,
    saddr := bits f 63 16 }

/-- A record of 128 bytes, with the index vector when it has one. -/
def recordOf (T : Team) (x : Nat) : PassRec :=
  let idxen := bit x 773
  let off := bits x 807 776
  { a := layoutOf x 0 320, b := layoutOf x 384 704, acc := bits x 771 768, zero := bit x 772, idxen := idxen,
    idx := if idxen then (List.range 96).map fun r => landNat T (off + 2 * r) 2 else [], cspec := bits x 831 808 }

/-- The operands of a pass of K depth kp. -/
def opndA (r : PassRec) (kp : Nat) : Opnd := { L := r.a, isA := true, kp := kp, idx := if r.idxen then some r.idx else none }
def opndB (r : PassRec) (kp : Nat) : Opnd := { L := r.b, isA := false, kp := kp }

/-- Reserved fields of a record. -/
def recordReserved (x : Nat) : Bool :=
  bits x 63 58 != 0 || bits x 319 256 != 0 || bits x 447 442 != 0 || bits x 703 640 != 0 || bits x 775 774 != 0
    || bits x 1023 832 != 0

/-- What a format block may not hold, for a code's scale kinds and a K depth. -/
def fmtBad (o : Opnd) : Bool :=
  let L := o.L
  decide (2 ≤ L.sp) || decide (4 ≤ L.blen) || codeClass L.elem == 0 || !scaleAllowed L.elem L.skind
    || (L.blen == 0) != (L.skind == 0) || (L.spitch != 0 && L.blen != 0 && decide (2 ^ L.spitch < blocksPerLine o))

/-- A landing operand or its scales beyond LSZ, among the first elements that rows of the K depth reach. -/
def landingBad (T : Team) (o : Opnd) (rows : Nat) : Bool :=
  o.L.sp == 0 && (List.range (min o.L.count (rows * o.kp))).any fun e =>
    let pl := elemPlace o.L (strideSum o.L.strides o.L.exts e)
    let sc := scalePlace o (e / o.kp) (e / o.kp) (e % o.kp)
    decide (pl.1 < 0) || decide ((T.lsz : Int) < pl.1 + pl.2)
      || (o.L.blen != 0 && decide (T.lsz < sc + scaleSize o.L))

/-- The K depth of a pass by width class (11 R269). -/
def passDepth (elem : Nat) : Nat := 512 / codeClass elem

/-- Whether a pass accumulates binary64 in a pair of tiles. -/
def isWide (r : PassRec) : Bool := r.a.elem == 16

/-- The tiles a record names. -/
def recTiles (r : PassRec) : List Nat := if isWide r then [r.acc, r.acc + 1] else [r.acc]

/-- The checks of 11 R274 that MPASS and MDELTA share, for a K depth. -/
def recordBadFields (T : Team) (x kp : Nat) : Bool :=
  let r := recordOf T x
  let oA := opndA r kp
  let oB := opndB r kp
  recordReserved x || fmtBad oA || fmtBad oB || decide (T.ntiles ≤ r.acc) ||
    landingBad T oA (if r.idxen then 1 + r.idx.foldl max 0 else 96) || landingBad T oB 64

/-- The checks of 11 R274 on a record, its offset apart. An index vector that is not at a multiple of 8 is refused with them, as
11 R268 asks for it (DEDUCED, log entry 85). -/
def passBad (T : Team) (x : Nat) : Bool :=
  let r := recordOf T x
  recordBadFields T x (passDepth r.a.elem) || codeClass r.a.elem != codeClass r.b.elem
    || (isWide r && (r.acc % 2 == 1 || decide (T.ntiles ≤ r.acc + 1)))
    || (r.idxen && (r.a.sp != 0 || r.a.saxis || recordBad T (bits x 807 776) 192))

/-! ### A pass performed (11 R277–R279) -/

/-- The accumulator values of tiles, read as +0 under ZERO. -/
def accVals (T : Team) (r : PassRec) : List Nat :=
  if r.zero then List.replicate 6144 0
  else if isWide r then
    List.zipWith (fun lo hi => lo.toNat + 2 ^ 32 * hi.toNat) (tileRead T r.acc) (tileRead T (r.acc + 1))
  else (tileRead T r.acc).map (·.toNat)

/-- Results written to a tile or a pair. -/
def putAcc (s : State) (t : Nat) (r : PassRec) (vs : List Nat) : State :=
  let lo := tileWrite s t r.acc (vs.map fun v => BitVec.ofNat 32 v)
  if isWide r then tileWrite lo t (r.acc + 1) (vs.map fun v => BitVec.ofNat 32 (v / 2 ^ 32)) else lo

/-- Bank conflicts counted for a cluster (11 R275). -/
def addConflicts (s : State) (cluster n : Nat) : State :=
  if n = 0 then s
  else
    let K := tget ({} : Cluster) s.clusters cluster
    { s with clusters := tput s.clusters cluster { K with conflict := (K.conflict + n) % 2 ^ 64 } }

/-- The words of operands over K positions fetched, and the conflicts of their requests. -/
def fetchOpnds (s : State) (t from_ : Nat) (w : Who) (m : Table Nat) (os : List (Opnd × List Nat)) :
    Span (State × Table Nat × Nat) :=
  let parts := os.flatMap fun o =>
    let ps := positions o.1 o.2
    [placeWords o.1.L.sp (elemPlaces o.1 ps), placeWords o.1.L.sp (scalePlaces o.1 ps)]
  let reqs := (requests parts).map fun ws => ws.filter fun k => (tfind m k).isNone
  match fetchWords t from_ w s m reqs.flatten with
  | .fail k va => .fail k va
  | .hold => .hold
  | .ok (s1, m1) => .ok (s1, m1, reqs.foldl (fun n ws => n + conflictsOf ws) 0)

/-- The words that a pass reads, and their conflicts. -/
def fetchPass (s : State) (t from_ : Nat) (w : Who) (r : PassRec) : Span (State × Table Nat × Nat) :=
  let kp := passDepth r.a.elem
  fetchOpnds s t from_ w [] [(opndA r kp, List.range kp), (opndB r kp, List.range kp)]

/-- A pass's result on its tile or pair, from the words that it read. -/
def writePass (s : State) (t : Nat) (r : PassRec) (m : Table Nat) : State :=
  let kp := passDepth r.a.elem
  let ks := List.range kp
  putAcc s t r (passRun (isWide r) (accVals (seen s t true) r) (opndVals (opndA r kp) m ks) (opndVals (opndB r kp) m ks))

/-- A pass performed on its tile or pair. -/
def runPass (s : State) (t from_ cluster : Nat) (w : Who) (r : PassRec) : Span State :=
  match fetchPass s t from_ w r with
  | .fail k va => .fail k va
  | .hold => .hold
  | .ok (s1, m, n) => .ok (writePass (addConflicts s1 cluster n) t r m)

end Sys2Proof.Machine
end

