-- ==== Sys2Proof/Machine/MatrixOps.lean ====
section
/-! DEFINITION. The matrix engine's operations: the MATRIX queue and the reservation table (11 R264–R267), MPASS, MZERO,
MDRAIN, MSTORE, MLOAD, MWAIT, their faults (11 R279, R281–R287). -/

namespace Sys2Proof.Machine

/-! ### The queue -/

/-- The tiles that an operation names. -/
def mopTiles (k : MKind) : List Nat :=
  match k with
  | .pass r => recTiles r
  | .delta r => [r.acc]
  | .zero n => [n]
  | .drain n => [n]
  | .store n _ _ pair _ _ => if pair then [n, n + 1] else [n]
  | .load n _ _ pair _ _ => if pair then [n, n + 1] else [n]
  | _ => []

/-- Whether an operation writes the tiles it names. -/
def mopWrites (k : MKind) : Bool :=
  match k with
  | .pass _ | .delta _ | .zero _ | .load _ _ _ _ _ _ => true
  | _ => false

/-- Whether an operation takes an entry of the reservation table (11 R265). -/
def mopEntry (k : MKind) : Bool :=
  match k with
  | .pass _ | .delta _ => true
  | _ => false

def mopOf (T : Team) (id : Nat) : Option MOp := T.mops.find? fun m => m.id == id

def modMop (s : State) (t id : Nat) (f : MOp → MOp) : State :=
  modTeam s t fun T => { T with mops := T.mops.map fun (m : MOp) => if m.id == id then f m else m }

/-- The ungranted operations that hold entries of a cluster's table, with their teams. -/
def clusterEntries (s : State) (cluster : Nat) : List (Nat × Team × MOp) :=
  s.teams.flatMap fun T =>
    (T.2.mops.filter fun m => m.cluster == cluster && m.entry.isSome && !m.granted).map fun m => (T.1, T.2, m)

/-- A group slot's guaranteed entry; the shared ones are 128 to 151 (11 R264). -/
def ownEntry (T : Team) (G : Group) : Nat := 32 * (T.core % 4) + 8 * G.slot + G.gslot

/-- Whether the own entry of a group's slot is taken: by a pass of a group that is in place there, as a pass of a team that has
left the core gives its slot's next group no wait (01 R16, log entry 85). -/
def ownTaken (s : State) (T : Team) (G : Group) : Bool :=
  (clusterEntries s (teamCluster T)).any fun x => x.2.2.entry == some (ownEntry T G) && inPlace x.2.1

/-- The entry that a new pass takes: its own, else the lowest free shared one (11 R265). -/
def freeEntry (s : State) (T : Team) (G : Group) : Option Nat :=
  let used := (clusterEntries s (teamCluster T)).filterMap fun x => x.2.2.entry
  if !ownTaken s T G then some (ownEntry T G) else firstFrom (fun n => !used.contains n) 128 24

/-- Whether a group holds 16 MATRIX operations not yet performed (11 R265). -/
def mopsFull (c : Iss) : Bool := decide (16 ≤ (c.T.mops.filter fun m => m.g == c.g && !m.done).length)

/-- Posts an operation; the group has named its tiles. -/
def postMop (c : Iss) (s : State) (kind : MKind) (bar entry : Option Nat) : State :=
  let o : MOp := { id := s.nextId, g := c.g, pc := c.P.pc, scope := c.P.gm.scope, kind := kind, bar := bar,
                   entry := entry, tick := s.gt, born := pastNow s, cluster := teamCluster c.T }
  let s1 := modTeam s c.t fun T => { T with mops := T.mops ++ [o] }
  let s2 := modGroup s1 c.t c.g fun G => { G with tilesNamed := (mopTiles kind).foldl (fun m n => m ||| 2 ^ n) G.tilesNamed }
  { s2 with nextId := s2.nextId + 1 }

/-- An entry named by `bar` that the team lacks. -/
def optBarBad (c : Iss) (bar : Option Nat) : Bool :=
  match bar with
  | some b => noBar c b
  | none => false

/-! ### Faults (11 R263, R279) -/

/-- The TKIND of a fault, 2 for a landing range beyond LSZ. -/
def tileKind : TrapKind → Nat
  | .translation => 1
  | .uncorrected => 3
  | _ => 2

def tileTrapKind (n : Nat) : TrapKind := if n = 1 then .translation else if n = 3 then .uncorrected else .permission

/-- The lowest of some tiles whose TFLT is set. -/
def faultedTile (T : Team) (tiles : List Nat) : Option Nat :=
  (List.range 16).find? fun n => tiles.contains n && bit (tget 0 T.tstat n) 0

/-- TFLT delivered: cleared, and the trap raised at the path's PC (11 R279). -/
def deliverTile (s : State) (t g p n : Nat) (m : Mask) (word : Nat) : State :=
  let st := tget 0 (teamOf s t).tstat n
  let s1 := modTeam s t fun T => { T with tstat := tset 0 T.tstat n (setBits st 0 0 0) }
  trapHere s1 t g p (tileTrapKind (bits st 2 1)) m 0 (n * 2 ^ 16) word

/-- A matrix operation's own checks passed, unless TFLT is set on a tile that it names. -/
def tileChecked (c : Iss) (tiles : List Nat) (go : Unit → Eff) : Eff :=
  match faultedTile c.T tiles with
  | some n => .wait (deliverTile c.s c.t c.g c.p n c.act c.word)
  | none => go ()

/-- A tile's status after a fault with a record's index. -/
def faultStat (st kind idx : Nat) : Nat :=
  setBits (if bit st 0 then st else setBits st 31 16 idx) 2 0 (1 + 2 * kind)

/-- The index of the history from which on the reads of an operation may be fixed (09 R208, R213, R222). -/
def passFrom (G : Group) (m : MOp) : Nat := max m.born (tget 0 G.since 2)

/-- A MATRIX operation has been performed: the group's later ones read nothing older. -/
def matrixPast (s : State) (t g : Nat) : State := modGroup s t g fun G => { G with since := tput G.since 2 (pastNow s) }

/-- The end of an operation that faulted: its record, its tiles' status; it is done, and will arrive with FLT. -/
def faultMop (s : State) (t : Nat) (o : MOp) (kind : TrapKind) (va : Nat) : State :=
  let tiles := mopTiles o.kind
  let r := engineLog s t 2 kind va (tiles.headD 0)
  let s1 := modTeam r.1 t fun T => { T with tstat := tiles.foldl (fun m n =>
    tset 0 m n (faultStat (tget 0 m n) (tileKind kind) r.2)) T.tstat }
  modMop (matrixPast s1 t o.g) t o.id fun m => { m with granted := true, entry := none, done := true, flt := some r.2 }

/-- The end of an operation that was performed. -/
def doneMop (s : State) (t : Nat) (o : MOp) : State :=
  modMop (matrixPast s t o.g) t o.id fun m => { m with granted := true, entry := none, done := true, buffer := [] }

/-! ### Stores and loads of tiles (11 R286) -/

/-- Lines of a tile in memory: rows, or columns under COL; each with its elements. -/
def tileLines (col : Bool) (ws : List Nat) : List (List Nat) :=
  if col then
    let at_ := ws.zip (List.range ws.length)
    (List.range 64).map fun c => (at_.filter fun x => x.2 % 64 == c).map (·.1)
  else (List.range 96).map fun r => (ws.drop (64 * r)).take 64

/-- The elements of lines, by row. -/
def unTile (col : Bool) (ls : List (List Nat)) : List Nat :=
  if col then (List.range 96).flatMap fun r => ls.map fun l => l.getD r 0 else ls.flatten

/-- The elements of a tile or pair. -/
def tileElems (T : Team) (n : Nat) (pair : Bool) : List Nat :=
  if pair then List.zipWith (fun lo hi => lo.toNat + 2 ^ 32 * hi.toNat) (tileRead T n) (tileRead T (n + 1))
  else (tileRead T n).map (·.toNat)

/-- Elements written to a tile or pair. -/
def putElems (s : State) (t n : Nat) (pair : Bool) (vs : List Nat) : State :=
  let lo := tileWrite s t n (vs.map fun v => BitVec.ofNat 32 v)
  if pair then tileWrite lo t (n + 1) (vs.map fun v => BitVec.ofNat 32 (v / 2 ^ 32)) else lo

/-- Writes lines of elements of e bytes, one after another. -/
def storeLines (t : Nat) (w : Who) (sp addr pitch e : Nat) : State → Nat → List (List Nat) → Span State
  | s, _, [] => .ok s
  | s, i, l :: ls => match spWrite s t w sp addr (addr + i * pitch) (l.flatMap fun v => leBytes v e) with
    | .ok s1 => storeLines t w sp addr pitch e s1 (i + 1) ls
    | .hold => .hold
    | .fail k va => .fail k va

/-- What a faulted MSTORE wrote: any subset of its elements (11 R279). -/
def storeSome (t : Nat) (w : Who) (sp addr pitch e n : Nat) (s : State) (ls : List (List Nat)) : State :=
  let all := (ls.mapIdx fun i l => l.mapIdx fun j v => (addr + i * pitch + j * e, v)).flatten
  (all.zip (List.range all.length)).foldl (fun s x =>
    if Config.storedElement n x.2 then
      match spWrite s t w sp addr x.1.1 (leBytes x.1.2 e) with
      | .ok s1 => s1
      | _ => s
    else s) s

/-- Reads elements of e bytes at addresses, each as it has been at some time since an index of the history; `base` is
where the range begins. -/
def loadElems (t from_ : Nat) (w : Who) (sp base e : Nat) : State → List Nat → Span (State × List Nat)
  | s, [] => .ok (s, [])
  | s, a :: as => match spReadSince from_ 0 s t w sp base a e with
    | .hold => .hold
    | .fail k va => .fail k va
    | .ok (s1, bs) => match loadElems t from_ w sp base e s1 as with
      | .ok (s2, r) => .ok (s2, leNat bs :: r)
      | r => r

/-- MSTORE performed. -/
def runStore (s : State) (t : Nat) (o : MOp) (n : Nat) (glob col pair : Bool) (addr pitch : Nat) : State :=
  let T := teamOf s t
  let w := whoOf T (groupOf s t o.g) o.pc true
  let e := if pair then 8 else 4
  let sp := if glob then 0 else 1
  let ls := tileLines col (tileElems (seen s t true) n pair)
  match storeLines t w sp addr pitch e s 0 ls with
  | .ok s1 => doneMop s1 t o
  | .hold => s
  | .fail k va =>
    let s1 := storeSome t w sp addr pitch e s.free s ls
    faultMop { s1 with free := s1.free + 1 } t o k va

/-- MLOAD performed: every element is read before the tile is written. -/
def runLoad (s : State) (t : Nat) (o : MOp) (n : Nat) (glob col pair : Bool) (addr pitch : Nat) : State :=
  let w := whoOf (teamOf s t) (groupOf s t o.g) o.pc true
  let e := if pair then 8 else 4
  let m := if col then 96 else 64
  let places := (List.range (if col then 64 else 96)).flatMap fun i => (List.range m).map fun j => addr + i * pitch + j * e
  match loadElems t (passFrom (groupOf s t o.g) o) w (if glob then 0 else 1) addr e s places with
  | .ok (s1, vs) => doneMop (putElems s1 t n pair (unTile col (pieces m (if col then 64 else 96) vs))) t o
  | .hold => s
  | .fail k va => faultMop s t o k va

/-- MDRAIN performed: the port's columns are ready, unless it has been armed again since (11 R282). -/
def runDrain (s : State) (t : Nat) (o : MOp) : State :=
  let later := (teamOf s t).mops.any fun m => m.g == o.g && decide (o.id < m.id) && (match m.kind with
    | .drain _ => true
    | _ => false)
  let s1 := if later then s else modGroup s t o.g fun G => { G with drain := { G.drain with ready := true } }
  doneMop s1 t o

/-! ### Entries -/

/-- The fields and checks of MPASS and MDELTA, then the posting (11 R265, R274, R283). -/
def passWord (i : Instr) (bar : Option Nat) (a : Operand) (bad : Iss → Nat → Bool) (kind : PassRec → MKind) (s : State) :
    Host.Outcome State Fault Refusal :=
  issueWord i (fun _ _ _ => { uses := [{ op := a }], opBad := !isUniform a })
    (fun c =>
      let off := rd c a 0 0
      let x := landNat c.T off 128
      let r := recordOf c.T x
      if c.act == 0 then .adv c.s
      else if optBarBad c bar || recordBad c.T off 128 then .trap .reservedOperand c.act 0 0
      else if inCopied c.T true off 128 then .stall
      else if landMeetsBad c.T off 128 false then .trap .uncorrected c.act off 0
      else if bad c x then .trap .reservedOperand c.act 0 0
      else if r.idxen && landMeetsBad c.T (bits x 807 776) 192 false then .trap .uncorrected c.act (bits x 807 776) 0
      else if mopsFull c then .stall
      else match freeEntry c.s c.T c.G with
        | none => .stall
        | some e => .adv (postMop c c.s (kind r) bar (some e))) s

def execMpass (look : Nat) (bar : Option Nat) (a : Operand) (s : State) : Host.Outcome State Fault Refusal :=
  passWord (.mpass look bar a) bar a (fun c x => passBad c.T x) .pass s

def execMzero (look n : Nat) (s : State) : Host.Outcome State Fault Refusal :=
  issueWord (.mzero look n) (fun _ _ _ => {})
    (fun c =>
      if c.act == 0 then .adv c.s
      else if c.T.ntiles ≤ n then .trap .reservedOperand c.act 0 0
      else if mopsFull c then .stall
      else .adv (postMop c c.s (.zero n) none none)) s

/-- MDRAIN: the port is armed at issue (11 R282, R285). -/
def execMdrain (look n : Nat) (s : State) : Host.Outcome State Fault Refusal :=
  issueWord (.mdrain look n) (fun _ _ _ => {})
    (fun c =>
      if c.act == 0 then .adv c.s
      else if c.T.ntiles ≤ n then .trap .reservedOperand c.act 0 0
      else tileChecked c [n] fun _ =>
        if mopsFull c then .stall
        else .adv (modGroup (postMop c c.s (.drain n) none none) c.t c.g fun G =>
          { G with drain := { G.drain with dtile := n, dcol := 0, armed := true, held := false, ready := false } })) s

/-- Check 1 of 11 R286. -/
def tileOperandBad (a : Operand) : Bool :=
  match a with
  | .s k => k % 2 != 0 || decide (44 < k)
  | _ => true

/-- MSTORE and MLOAD: the checks of 11 R286 in order. -/
def tileWord (i : Instr) (n : Nat) (glob col pair : Bool) (bar : Option Nat) (a : Operand)
    (kind : Nat → Nat → MKind) (s : State) : Host.Outcome State Fault Refusal :=
  issueWord i (fun _ _ _ => { uses := [{ op := a, n := 2 }], opBad := tileOperandBad a })
    (fun c =>
      let hi := rd c a 1 0
      let addr := rd c a 0 0 + 2 ^ 32 * hi
      let pitch := rd c a 2 0
      let e := if pair then 8 else 4
      let line := if col then 96 * e else 64 * e
      let last := (if col then 63 else 95) * pitch + line
      let tiles := if pair then [n, n + 1] else [n]
      if c.act == 0 then .adv c.s
      else if (tiles.any fun m => decide (c.T.ntiles ≤ m)) || (pair && n % 2 == 1) then .trap .reservedOperand c.act 0 0
      else if optBarBad c bar || pitch % e != 0 || decide (pitch < line) then .trap .reservedOperand c.act 0 0
      else if addr % e != 0 then .trap .misaligned c.act addr 0
      else if !glob && (hi != 0 || !inLanding c.T addr last) then .trap .reservedOperand c.act 0 0
      else tileChecked c tiles fun _ =>
        if mopsFull c then .stall else .adv (postMop c c.s (kind addr pitch) bar none)) s

def execMstore (look n : Nat) (glob col pair : Bool) (bar : Option Nat) (a : Operand) (s : State) :
    Host.Outcome State Fault Refusal :=
  tileWord (.mstore look n glob col pair bar a) n glob col pair bar a (fun addr pitch => .store n glob col pair addr pitch) s

def execMload (look n : Nat) (glob col pair : Bool) (bar : Option Nat) (a : Operand) (s : State) :
    Host.Outcome State Fault Refusal :=
  tileWord (.mload look n glob col pair bar a) n glob col pair bar a (fun addr pitch => .load n glob col pair addr pitch) s

/-! ### MWAIT (11 R287) -/

/-- Whether a counted operation of an MWAIT issued as number `id` has not completed. -/
def mwaitBusy (T : Team) (g id mask : Nat) (all : Bool) : Bool :=
  T.mops.any fun m => m.g == g && decide (m.id < id) && (all || (mopTiles m.kind).any fun n => mask.testBit n)

/-- The counted tiles of a mask. -/
def maskTiles (mask : Nat) : List Nat := (List.range 16).filter fun n => mask.testBit n

/-- MWAIT. A tile that no operation of the group has named is not counted. -/
def execMwait (tile : Option Nat) (s : State) : Host.Outcome State Fault Refusal :=
  issueWord (.mwait tile) (fun _ _ _ => { waits := true })
    (fun c =>
      let mask := match tile with
        | some n => if c.G.tilesNamed.testBit n then 2 ^ n else 0
        | none => c.G.tilesNamed
      if c.act == 0 then .adv c.s
      else if (match tile with
        | some n => decide (c.T.ntiles ≤ n)
        | none => false) then .trap .reservedOperand c.act 0 0
      else if mwaitBusy c.T c.g c.s.nextId mask tile.isNone then
        .wait (modPath c.s c.t c.g c.p (waiting c 5 (.tiles c.s.nextId mask tile.isNone)))
      else tileChecked c (maskTiles mask) fun _ => .adv c.s) s

/-- MWAIT_COMPLETE: the wait ends, or TFLT of a counted tile is delivered. -/
def execMwaitComplete (t g p : Nat) (s : State) : Host.Outcome State Fault Refusal :=
  let P := pathOf s t g p
  match P.valid, P.wait with
  | true, .tiles id mask all =>
    if !teamRuns s t || mwaitBusy (teamOf s t) g id mask all then .next s
    else match faultedTile (teamOf s t) (maskTiles mask) with
      | some n => .next (deliverTile s t g p n P.waitAct P.waitWord)
      | none => .next (leaveWait s t g p)
  | _, _ => .next s

end Sys2Proof.Machine
end

