-- ==== Sys2Proof/Machine/Coppice.lean ====
section
/-! DEFINITION. Coppice slots: the slot table, watches, full and delta passes (12 R288–R298), MDELTA, CBIND, CDROP, CSTAT
and CFRESH (12 R299–R301, R456). -/

namespace Sys2Proof.Machine

/-! ### The slot table (12 R288, R289) -/

def slotVa (s : State) (ctx n : Nat) : Nat := (ctxOf s ctx).ctbase + 128 * (n % 256)

/-- A slot's entry with its reserved fields, which read zero and which every write of the entry leaves zero. -/
def slotClean (e : Nat) : Nat :=
  bits e 11 0 + 2 ^ 16 * bits e 311 16 + 2 ^ 320 * bits e 351 320 + 2 ^ 384 * bits e 439 384 + 2 ^ 448 * bits e 457 448
    + 2 ^ 512 * bits e 579 512

/-- A slot's memory key and entry, or the fault at its address. -/
def slotFetch (s : State) (ctx die n : Nat) : Except TrapKind (Nat × Nat) :=
  match translate s ctx (asks s die) (slotVa s ctx n) .rd (some 0) with
  | .fail k => .error k
  | .hold => .error .translation
  | .key k => if meetsBad s k 128 false then .error .uncorrected else .ok (k, slotClean (readNat s.mem k 128))

/-- A slot's weight version (12 R294). -/
def slotVer (m : Table Byte) (key : Nat) : Nat := readNat m (key + 24) 8

/-- What an engine's read of a slot's entry leaves behind. -/
def slotSeen (s : State) (w : Who) (n key : Nat) : State :=
  let va := slotVa s w.ctx n
  noteRead (compareData s w va 128 false) w va key 128

/-- An entry of a context's slot table written back; its version is as the bumps have left it (12 R294). -/
def slotPut (s : State) (w : Who) (n key e : Nat) : State :=
  let va := slotVa s w.ctx n
  let s1 := bumpWatches (noteWrite (compareData s w va 128 true) w va key 128) key 128
  putMemAs .slot s1 key (leBytes (setBits e 255 192 (slotVer s1.mem key)) 128)

def slotBound (e : Nat) : Bool := bit e 0
def slotSteps (e : Nat) : Nat := bits e 11 8 + 1

/-- K depth of a slot's calls. -/
def slotDepth (e : Nat) : Nat := 64 * slotSteps e

/-- Bytes of a data area. -/
def areaSize (kd : Nat) : Nat := 384 * kd + 24576

/-! ### Quantise (12 R293) -/

/-- The least scale exponent in −38 to 38 whose range holds m, else 38. -/
def quantExp10 (m : Ex) : Int :=
  match firstFrom (fun i => exLe m (exMul (.fin false 311 32) (decodeScale 2 (wrapInt 8 ((i : Int) - 38))))) 0 77 with
  | some i => (i : Int) - 38
  | none => 38

/-- The least e in −127 to 127 with m ≤ 127 × 2^e, else 127. -/
def quantExp2 (m : Ex) : Int :=
  match firstFrom (fun i => exLe m (exScale (.fin false 127 1) ((i : Int) - 127))) 0 255 with
  | some i => (i : Int) - 127
  | none => 127

/-- The quantised differences of a block. -/
def quantise (int8 : Bool) (ds : List Ex) : List Ex :=
  let m := ds.foldl (fun m d => exMax m (exAbs d)) zeroEx
  if exIsZero m then ds.map fun _ => zeroEx
  else if int8 then
    let e := quantExp2 m
    ds.map fun d => exScale (exInt (max (-127) (min 127 (roundInt .rne (exScale d (-e)))))) e
  else
    let σ := decodeScale 2 (wrapInt 8 (quantExp10 m))
    ds.map fun d => exMul (decEx .k8 (encodeK8 .rne true none (exDiv d σ))) σ

/-! ### Full and delta passes (12 R291, R292) -/

/-- The words of B over some K positions fetched, then one rounding per K step: `steps` lists, for each step run, its
K positions and the values of A there. -/
def coppiceRun (s : State) (t from_ cluster : Nat) (w : Who) (m : Table Nat) (oB : Opnd) (acc : List Nat)
    (steps : List (List Nat × List (List Ex))) : Span (State × List Nat) :=
  match fetchOpnds s t from_ w m [(oB, steps.flatMap fun x => x.1)] with
  | .fail k va => .fail k va
  | .hold => .hold
  | .ok (s1, m1, n) =>
    let acc' := steps.foldl (fun acc x => passRun false acc (x.2.map fun row => row.map plain) (opndVals oB m1 x.1)) acc
    .ok (addConflicts s1 cluster n, acc')

/-- The K positions of step j. -/
def stepKs (j : Nat) : List Nat := (List.range 64).map fun i => 64 * j + i

/-- The values of rows at K positions. -/
def rowsAt (rows : List (List Ex)) (j : Nat) (keep : Nat → Bool) : List (List Ex) :=
  rows.map fun row => ((((row.drop (64 * j)).take 64).zip (stepKs j)).filter fun x => keep x.2).map (·.1)

/-- The steps of a pass over the K positions that satisfy `keep`, those without any left out. -/
def stepsOf (ks : Nat) (rows : List (List Ex)) (keep : Nat → Bool) : List (List Nat × List (List Ex)) :=
  ((List.range ks).map fun j => ((stepKs j).filter keep, rowsAt rows j keep)).filter fun x => !x.1.isEmpty

/-- What an MDELTA leaves: x̂ by row, ŷ, and the entry. -/
structure SlotOut where
  xh : List (List Nat)
  yh : List Nat
  e : Nat

/-- The entry after a full pass. -/
def fullEntry (e : Nat) (r : PassRec) (reason : Nat) : Nat :=
  let e := setBits (setBits (setBits e 2 1 1) 7 4 reason) 31 24 0
  let e := setBits (setBits e 95 64 0) 191 128 (bits e 255 192)
  setBits (setBits (setBits (setBits e 567 512 r.b.base) 572 568 r.b.elem) 574 573 r.b.skind) 579 575 r.a.elem

/-- Full(S, reason). -/
def fullPass (s : State) (t from_ cluster : Nat) (w : Who) (m : Table Nat) (r : PassRec) (e reason : Nat) (x : List (List Ex)) :
    Span (State × SlotOut) :=
  let xh := x.map fun row => row.map (toF32 .rne)
  let rows := xh.map fun row => row.map ofF32
  match coppiceRun s t from_ cluster w m (opndB r (slotDepth e)) (List.replicate 6144 0) (stepsOf (slotSteps e) rows fun _ => true) with
  | .fail k va => .fail k va
  | .hold => .hold
  | .ok (s1, yh) => .ok (s1, { xh := xh, yh := yh, e := fullEntry e r reason })

/-- The quantised difference of a row. -/
def rowDelta (int8 : Bool) (nb : Nat) (x xh : List Ex) : List Ex :=
  (pieces 32 nb (List.zipWith (fun a b => exSub false a b) x xh)).flatMap (quantise int8)

/-- Delta(S). -/
def deltaPass (s : State) (t from_ cluster : Nat) (w : Who) (m : Table Nat) (r : PassRec) (e : Nat) (x : List (List Ex))
    (xh : List (List Nat)) (yh : List Nat) : Span (State × SlotOut) :=
  let nb := slotDepth e / 32
  let old := xh.map fun row => row.map ofF32
  let Δ := List.zipWith (rowDelta (bit e 3) nb) x old
  let live := (List.range nb).filter fun b => Δ.any fun row => ((row.drop (32 * b)).take 32).any fun d => !exIsZero d
  let new := List.zipWith (fun a b => List.zipWith (fun p q => toF32 .rne (sumExact p q)) a b) old Δ
  match coppiceRun s t from_ cluster w m (opndB r (slotDepth e)) yh (stepsOf (slotSteps e) Δ fun k => live.contains (k / 32)) with
  | .fail k va => .fail k va
  | .hold => .hold
  | .ok (s1, yh') =>
    let gaps := (List.zipWith (fun a b => List.zipWith (fun p q => exAbs (exSub false p (ofF32 q))) a b) x new).flatten
    let drift := toF32 .rup (exAdd false (ofF32 (bits e 95 64)) (gaps.foldl exMax zeroEx))
    let e1 := setBits (setBits (setBits e 7 4 0) 31 24 (bits e 31 24 + 1)) 95 64 drift
    .ok (s1, { xh := new, yh := yh', e := e1 })

/-- The REASON of 12 R291; `odd` says that an element of x, x̂ or ŷ is NaN or infinite. -/
def passReason (e : Nat) (r : PassRec) (odd : Bool) : Nat :=
  if !bit e 1 then 1
  else if bit e 2 then 2
  else if bits e 191 128 != bits e 255 192 then 3
  else if bits e 23 16 ≤ bits e 31 24 then 4
  else if exLe (ofF32 (bits e 127 96)) (ofF32 (bits e 95 64)) then 5
  else if r.b.base != bits e 567 512 || r.b.elem != bits e 572 568 || r.b.skind != bits e 574 573
      || r.a.elem != bits e 579 575 then 6
  else if odd then 7
  else 0

/-- The words of a data area, read and writable: each as its slot last wrote it or as it has been stored since (12 R289). -/
def areaRead (s : State) (w : Who) (va n : Nat) : Span (State × List Nat) :=
  match spanKeys s w.ctx w.die .rw (some 0) (cutPages va (n / 2 ^ 15 + 2) n) with
  | .fail k a => .fail k a
  | .hold => .hold
  | .ok ps => match spanBad s w.die ps false with
    | some a => .fail .uncorrected a
    | none => .ok (ps.foldl (fun s p => noteRead (compareData s w p.1 p.2.2 false) w p.1 p.2.1 p.2.2) s,
        ps.flatMap fun p => (List.range (p.2.2 / 4)).map fun i =>
        let k := p.2.1 + 4 * i
        leNat (readSince s (slotFrom s k) s.free 0 k 4))

/-- A binary32 word that is NaN or infinite. -/
def wordOdd (x : Nat) : Bool := bits x 30 23 == 255

/-- The slot update and the tile result of an MDELTA. The data area's writes leave the slot's own VER as it was. -/
def deltaLand (s : State) (t : Nat) (w : Who) (r : PassRec) (key darea : Nat) (o : SlotOut) : Span State :=
  match spanWriteAs .slot s w 0 darea ((o.xh.flatten ++ o.yh).flatMap fun v => leBytes v 4) with
  | .fail k va => .fail k va
  | .hold => .hold
  | .ok s1 =>
    let s2 := slotPut (putMemAs .bump s1 (key + 24) (leBytes (slotVer s.mem key) 8)) w (bits r.cspec 7 0) key o.e
    let res := if r.zero then o.yh
      else List.zipWith (fun a b => toF32 .rne (sumExact (ofF32 a.toNat) (ofF32 b))) (tileRead (seen s2 t true) r.acc) o.yh
    .ok (tileWrite s2 t r.acc (res.map fun v => BitVec.ofNat 32 v))

/-- The index of the history at which an MDELTA whose reads may be fixed from an index on reads its slot's version; its
weights are read no earlier (09 R228). -/
def checkAt (s : State) (from_ key : Nat) : Nat :=
  chosenAt s (max from_ (slotFrom s key)) (Config.readAt s.free 1 (key + 24))

/-- An MDELTA at its grant, as one indivisible operation (12 R291, R292). The fault record of a slot with BOUND = 0 names the
slot entry's address (DESIGN CHOICE, log entry 85). -/
def runDelta (s : State) (t from_ cluster : Nat) (w : Who) (r : PassRec) : Span State :=
  let slot := bits r.cspec 7 0
  let va := slotVa s w.ctx slot
  match slotFetch s w.ctx w.die slot with
  | .error k => .fail k va
  | .ok (key, e0) =>
    if !slotBound e0 then .fail .permission va
    else
      let j := checkAt s from_ key
      let e := setBits e0 255 192 (slotVer (memAt s j) key)
      let kd := slotDepth e
      let darea := bits e 439 384
      let oA := opndA r kd
      let all := List.range kd
      match areaRead (slotSeen s w slot key) w darea (areaSize kd) with
      | .fail k a => .fail k a
      | .hold => .hold
      | .ok (s0, ws) => match fetchOpnds s0 t from_ w [] [(oA, all)] with
        | .fail k a => .fail k a
        | .hold => .hold
        | .ok (s1, m, n) =>
          let s2 := addConflicts s1 cluster n
          let x := (opndVals oA m all).map fun row => row.map (·.1)
          let reason := passReason e r ((x.any fun row => row.any fun v => !exFinite v) || ws.any wordOdd)
          let out := if reason = 0 then deltaPass s2 t j cluster w m r e x (pieces kd 96 ws) (ws.drop (96 * kd))
            else fullPass s2 t j cluster w m r e reason x
          match out with
          | .fail k a => .fail k a
          | .hold => .hold
          | .ok (s3, o) => deltaLand s3 t w r key darea o

/-! ### Watches (12 R294, R300) -/

/-- The watches of a weight range, cut at the bounds of its pages, or the fault at an address. -/
def watchPages (s : State) (ctx die slot : Nat) : Nat → Nat → Nat → Except (TrapKind × Nat) (List Watch)
  | 0, _, _ => .ok []
  | fuel + 1, va, n =>
    if n = 0 then .ok []
    else match leafFor s (ctxOf s ctx) (asks s die) va with
      | .error k => .error (k, va)
      | .ok (e, level) => match leafKey s e level va .rd (some 0) with
        | .key k =>
          let size := if level = 2 then 2 ^ 27 else 2 ^ 15
          let len := min n (size - va % size)
          (watchPages s ctx die slot fuel (va + len) (n - len)).map fun r =>
            { slot := slot, page := k - va % size, lo := k, hi := k + len } :: r
        | .fail kind => .error (kind, va)
        | .hold => .error (.translation, va)

/-- The number of watches that ranges come to on a die's L2: one for each physical page of a slot. -/
def watchCount (die : Nat) (ws : List Watch) : Nat :=
  (((ws.filter fun w => homeDie w.page == die).map fun w => (w.slot, w.page)).eraseDups).length

/-- Watches on a die's L2, of every context but for one slot's. -/
def dieWatches (s : State) (die ctx slot : Nat) : Nat :=
  s.ctxs.foldl (fun n C => n + watchCount die (C.2.watches.filter fun w => !(C.1 == ctx && w.slot == slot))) 0

/-- Whether every home die has room for new watches of a slot. -/
def watchRoom (s : State) (ctx slot : Nat) (ws : List Watch) : Bool :=
  (List.range 8).all fun die =>
    watchCount die ws == 0 || decide (dieWatches s die ctx slot + watchCount die ws ≤ 16384)

def dropWatches (s : State) (ctx slot : Nat) : State :=
  modCtx s ctx fun C => { C with watches := C.watches.filter fun w => w.slot != slot }

/-- The watches of a block's weights (12 R294). -/
def weightWatches (s : State) (ctx die : Nat) (b : BindBlock) : Except (TrapKind × Nat) (List Watch) :=
  watchPages s ctx die b.slot (b.wlen / 2 ^ 15 + 2) b.wbase b.wlen

/-! ### Slot operations performed (12 R300, R301, R456) -/

/-- The result that a slot operation will write, its window still open. -/
def giveResult (s : State) (t g id : Nat) (v : Nat) (n : Nat) : State :=
  modGroup s t g fun G => { G with pend := G.pend.map fun (o : Pending) =>
    if o.id == id then
      { o with performed := true, res := (o.keys.zip (List.range n)).map fun x => (x.1, regPart v x.2) }
    else o }

/-- The entry that CBIND writes; VER is kept. -/
def boundEntry (e ctx : Nat) (b : BindBlock) : Nat :=
  let e := setBits (setBits (setBits e 2 0 1) 3 3 b.dfmt.toNat) 11 8 b.ksm
  let e := setBits (setBits (setBits (setBits e 23 16 b.nlim) 31 24 0) 63 32 b.tag) 95 64 0
  let e := setBits (setBits (setBits e 127 96 b.dbound) 311 256 b.wbase) 351 320 b.wlen
  setBits (setBits e 439 384 b.darea) 457 448 ctx

/-- The engine as the maker of a slot operation's accesses. -/
def slotWho (s : State) (t : Nat) (o : MOp) : Who := whoOf (teamOf s t) (groupOf s t o.g) o.pc true

/-- CBIND, once the slot's earlier operations are done: the weight range is translated, the watches are installed where it now
lies; its status goes to d. -/
def runCbind (s : State) (t : Nat) (o : MOp) (b : BindBlock) : State :=
  let w := slotWho s t o
  let ctx := w.ctx
  let fail := fun (k : TrapKind) (va : Nat) => doneMop (giveResult (engineLog s t 2 k va 0).1 t o.g o.id 2 1) t o
  match slotFetch s ctx w.die b.slot, weightWatches s ctx w.die b with
  | .error k, _ => fail k (slotVa s ctx b.slot)
  | _, .error (k, va) => fail k va
  | .ok (key, e), .ok ws =>
    let s1 := dropWatches (slotSeen s w b.slot key) ctx b.slot
    if watchRoom s ctx b.slot ws then
      let s2 := modCtx s1 ctx fun C => { C with watches := C.watches ++ ws }
      doneMop (giveResult (slotPut s2 w b.slot key (boundEntry e ctx b)) t o.g o.id 0 1) t o
    else doneMop (giveResult (slotPut s1 w b.slot key (setBits e 1 0 0)) t o.g o.id 1 1) t o

def runCdrop (s : State) (t : Nat) (o : MOp) (slot : Nat) : State :=
  let w := slotWho s t o
  let ctx := w.ctx
  match slotFetch s ctx w.die slot with
  | .error k => doneMop (engineLog s t 2 k (slotVa s ctx slot) 0).1 t o
  | .ok (key, e) =>
    let s1 := slotSeen s w slot key
    if slotBound e then doneMop (slotPut (dropWatches s1 ctx slot) w slot key (setBits e 2 0 0)) t o else doneMop s1 t o

def runCfresh (s : State) (t : Nat) (o : MOp) (slot : Nat) : State :=
  let w := slotWho s t o
  let ctx := w.ctx
  let s1 := giveResult s t o.g o.id 0 0
  match slotFetch s ctx w.die slot with
  | .error k => doneMop (engineLog s1 t 2 k (slotVa s ctx slot) 0).1 t o
  | .ok (key, e) => doneMop (slotPut (slotSeen s1 w slot key) w slot key (setBits e 2 2 1)) t o

/-- CSTAT: bytes 0 to 31 of the entry to eight scalars, or its trap. -/
def runCstat (s : State) (t : Nat) (o : MOp) (slot : Nat) : State :=
  let w := slotWho s t o
  let ctx := w.ctx
  match slotFetch s ctx w.die slot with
  | .error k =>
    let s1 := doneMop (engineLog s t 2 k (slotVa s ctx slot) 0).1 t o
    match pendOf s1 t o.g o.id with
    | some q => trapPending s1 t o.g { q with work := .cstat slot } k q.lanes (slotVa s ctx slot)
    | none => s1
  | .ok (key, e) => doneMop (giveResult (slotSeen s w slot key) t o.g o.id (e % 2 ^ 256) 8) t o

/-! ### Entries -/

/-- The checks of 12 R299 on an MDELTA's record. An unreadable slot is found at the grant. -/
def deltaBad (c : Iss) (x : Nat) : Bool :=
  let r := recordOf c.T x
  let kd := match slotFetch c.s c.T.ctx c.T.die (bits r.cspec 7 0) with
    | .ok (_, e) => slotDepth e
    | .error _ => 64
  recordBadFields c.T x kd || r.idxen || bits r.cspec 23 8 != 0 || !([5, 17, 18].contains r.b.elem)
    || emulatedCode r.a.elem || r.a.elem == 16

def execMdelta (look : Nat) (bar : Option Nat) (a : Operand) (s : State) : Host.Outcome State Fault Refusal :=
  passWord (.mdelta look bar a) bar a deltaBad .delta s

/-- An eight-register operand of a slot operation. -/
def eightBad (a : Operand) : Bool :=
  match a with
  | .s k => k % 8 != 0 || decide (40 < k)
  | _ => true

/-- The registers of a result. -/
def resultKeys (c : Iss) (d : Operand) (n : Nat) : List Nat := dstKeys c.P d n 0

/-- Posts a slot operation whose window stays open until it is performed. -/
def postSlot (c : Iss) (look : Nat) (kind : MKind) (keys : List Nat) : Eff :=
  if mopsFull c || pendFull c look (!keys.isEmpty) then .stall
  else
    let s1 := postMop c c.s kind none none
    let s2 := post c { s1 with nextId := c.s.nextId } look { keys := keys, regs := !keys.isEmpty }
    .adv s2

/-- The block of a CBIND (12 R300). -/
def bindBlock (r : List Nat) : BindBlock :=
  let f := r.getD 5 0
  { wbase := r.getD 0 0 + 2 ^ 32 * r.getD 1 0, wlen := r.getD 2 0, darea := r.getD 3 0 + 2 ^ 32 * r.getD 4 0,
    slot := bits f 7 0, nlim := bits f 15 8, dfmt := bit f 16, ksm := bits f 20 17, dbound := r.getD 6 0,
    tag := r.getD 7 0 }

/-- Check 1 of 12 R300. -/
def bindBad (r : List Nat) : Bool :=
  let b := bindBlock r
  bits (r.getD 5 0) 31 21 != 0 || b.nlim == 0 || exIsNan (ofF32 b.dbound) || !exLt zeroEx (ofF32 b.dbound)
    || b.wlen == 0 || decide (2 ^ 56 < b.wbase + b.wlen) || decide (2 ^ 56 < b.darea + areaSize (64 * (b.ksm + 1)))

/-- The pieces of a block's data area, written and read (12 R300). -/
def areaSpan (s : State) (ctx die : Nat) (b : BindBlock) : Span (List (Nat × Nat × Nat)) :=
  let n := areaSize (64 * (b.ksm + 1))
  spanKeys s ctx die .rw (some 0) (cutPages b.darea (n / 2 ^ 15 + 2) n)

/-- The effect of CBIND with registers r at a: the block is checked and posted (12 R300). -/
def bindEff (c : Iss) (look : Nat) (d a : Operand) (r : List Nat) : Eff :=
  let b := bindBlock r
  if c.act == 0 then .adv c.s
  else if eightBad a || bindBad r then .trap .reservedOperand c.act 0 0
  else if b.darea % 4096 != 0 then .trap .misaligned c.act b.darea 0
  else match weightWatches c.s c.T.ctx c.T.die b with
    | .error (k, va) => .trap k c.act va 0
    | .ok _ =>
      match areaSpan c.s c.T.ctx c.T.die b with
      | .fail k va => .trap k c.act va 0
      | .hold => .stall
      | .ok _ => postSlot c look (.cbind b) (resultKeys c d 1)

def execCbind (look : Nat) (d a : Operand) (s : State) : Host.Outcome State Fault Refusal :=
  issueWord (.cbind look d a)
    (fun _ _ _ => { uses := [{ op := d, src := false, dst := true }], opBad := !isUniform d })
    (fun c => bindEff c look d a ((List.range 8).map fun i => rd c a i 0)) s

def execCdrop (look : Nat) (a : Operand) (s : State) : Host.Outcome State Fault Refusal :=
  issueWord (.cdrop look a) (fun _ _ _ => { uses := [{ op := a }], opBad := !isUniform a })
    (fun c =>
      if c.act == 0 then .adv c.s
      else if mopsFull c then .stall
      else .adv (postMop c c.s (.cdrop (rd c a 0 0 % 256)) none none)) s

def execCstat (look : Nat) (d a : Operand) (s : State) : Host.Outcome State Fault Refusal :=
  issueWord (.cstat look d a)
    (fun _ _ _ => { uses := [{ op := d, n := 8, src := false, dst := true }, { op := a }],
                    opBad := eightBad d || !isUniform a })
    (fun c =>
      if c.act == 0 then .adv c.s
      else postSlot c look (.cstat (rd c a 0 0 % 256)) (resultKeys c d 8)) s

def execCfresh (look : Nat) (a : Operand) (s : State) : Host.Outcome State Fault Refusal :=
  issueWord (.cfresh look a) (fun _ _ _ => { uses := [{ op := a }], opBad := !isUniform a })
    (fun c =>
      if c.act == 0 then .adv c.s
      else postSlot c look (.cfresh (rd c a 0 0 % 256)) []) s

end Sys2Proof.Machine
end

