-- ==== Sys2Proof/Machine/Events.lean ====
section
/-! DEFINITION. What groups and paths meet besides their own instructions: asynchronous traps (16 R375), the wait limit
(04 R99), the hang detector (04 R100), the end of SLEEP, of parking at a JOIN, of VOTE and of the shuffles (04 R95, R109,
R113, R114). -/

namespace Sys2Proof.Machine

/-! ### Traps -/

/-- ASYNC_TRAP: the first held trap of a group is raised once its core is not frozen (16 R375). -/
def execAsyncTrap (t g : Nat) (s : State) : Host.Outcome State Fault Refusal :=
  match (groupOf s t g).asyncs with
  | [] => .next s
  | h :: rest =>
    if teamRuns s t then .next (raiseHeld (modGroup s t g fun G => { G with asyncs := rest }) t g h) else .next s

/-! ### Watched waits (04 R97, R99) -/

/-- Whether a path's wait is satisfied; none where it is in no watched wait. An awaited word is read by rereads alone. -/
def waitMet (T : Team) (g : Nat) (G : Group) (P : Path) : Option Bool :=
  if !P.valid then none
  else match P.wait with
    | .none => none
    | .bwait b tok => some (phaseDone (barOf T b) tok)
    | .yield b tok _ => some (phaseDone (barOf T b) tok)
    | .barv b _ _ _ tok => some (phaseDone (barOf T b) tok)
    | .addr _ _ _ _ _ _ _ => some false
    | .tiles id mask all => some (!mwaitBusy T g id mask all)
    | .vote _ m k _ => some (voteDone G (BitVec.ofNat 96 m) (BitVec.ofNat 96 k))
    | .shfl _ _ need got own => some (shflDone G need got own)

/-- WAIT_TIMEOUT: a watched wait has run to the limit of its context. -/
def execWaitTimeout (t g p : Nat) (s : State) : Host.Outcome State Fault Refusal :=
  let T := teamOf s t
  let P := pathOf s t g p
  if teamRuns s t && !T.ctl && waitMet T g (groupOf s t g) P == some false && decide (2 ^ (ctxOf s T.ctx).wl ≤ P.wcount) then
    .next (waitTrap s t g p (kindCode .waitTimeout) false 0 0)
  else .next s

/-! ### The hang detector (04 R100) -/

/-- Whether a group has an operation in flight: a pending result, engine work, a memory access. -/
def inFlight (T : Team) (g : Nat) (G : Group) : Bool :=
  !G.pend.isEmpty || (T.copies.any fun c => c.slices.any fun x => x.g == g) || (T.csums.any fun c => c.g == g)
    || (T.mops.any fun m => m.g == g) || (T.marches.any fun m => m.g == g) || T.jobs.any fun j => j.g == g

/-- HANG_DETECTOR: a hang record and the host's interrupt, once for each stall. -/
def execHangDetector (t g : Nat) (s : State) : Host.Outcome State Fault Refusal :=
  let T := teamOf s t
  let G := groupOf s t g
  if T.ctl || T.away != .present || G.hangFired || decide (G.hang < 2 ^ (ctxOf s T.ctx).hl) then .next s
  else
    let s1 := (logAppendIrq s T.ctx 3 { teamLog T with gmask := 2 ^ g } [] true).1
    .next (modGroup s1 t g fun G => { G with hangFired := true })

/-! ### SLEEP -/

/-- SLEEP_WAKE: a path whose ticks have run runs on. -/
def execSleepWake (t g p : Nat) (s : State) : Host.Outcome State Fault Refusal :=
  let P := pathOf s t g p
  if P.valid && P.state == 3 && P.wake == 0 && teamRuns s t then .next (modPath s t g p fun P => { P with state := 0 })
  else .next s

/-! ### JOIN (04 R95) -/

/-- The lowest address at which a path of a group is parked. -/
def lowestParked (G : Group) : Option Nat :=
  (validPaths G).foldl (fun r e => if e.2.state == 1 then
    match r with
    | none => some e.2.pc
    | some a => some (min a e.2.pc)
  else r) none

/-- Whether the second rule of 04 R95 applies: no path in RUN or in split stall. -/
def joinOpen (G : Group) : Bool := (validPaths G).all fun e => e.2.state != 0 && e.2.state != 6

/-- The paths parked at an address go on past the JOIN. -/
def unpark (G : Group) (a : Nat) : Group :=
  { G with paths := tmap G.paths fun _ P =>
      if P.valid && P.state == 1 && P.pc == a then { P with state := 0, pc := P.pc + 4 } else P }

/-- JOIN_RELEASE. -/
def execJoinRelease (t g : Nat) (s : State) : Host.Outcome State Fault Refusal :=
  let G := groupOf s t g
  match lowestParked G with
  | some a => if joinOpen G && teamRuns s t then .next (modGroup s t g fun G => unpark G a) else .next s
  | none => .next s

/-- JOIN_AGE_ESCAPE: with it goes whatever is parked at the same address. -/
def execJoinAgeEscape (t g p : Nat) (s : State) : Host.Outcome State Fault Refusal :=
  let P := pathOf s t g p
  if P.valid && P.state == 1 && decide (255 ≤ P.age) && teamRuns s t then .next (modGroup s t g fun G => unpark G P.pc)
  else .next s

/-! ### VOTE and the shuffles (04 R113, R114) -/

/-- VOTE_COMPLETE: the last member is captured, by exits since the last issue. -/
def execVoteComplete (t g p : Nat) (s : State) : Host.Outcome State Fault Refusal :=
  let G := groupOf s t g
  let P := pathOf s t g p
  match P.valid, P.wait with
  | true, .vote d m k b =>
    if voteDone G (BitVec.ofNat 96 m) (BitVec.ofNat 96 k) && teamRuns s t then
      .next (groupMoved (endVote s t g p P.pc d (BitVec.ofNat 96 m) (BitVec.ofNat 96 k) (BitVec.ofNat 96 b)) t g)
    else .next s
  | _, _ => .next s

/-- SHUFFLE_COMPLETE: every source is known; the path's window is made resident for the write (05 R120). -/
def execShuffleComplete (t g p : Nat) (s : State) : Host.Outcome State Fault Refusal :=
  let G := groupOf s t g
  let P := pathOf s t g p
  match P.valid, P.wait with
  | true, .shfl d n need got own =>
    if shflDone G need got own && teamRuns s t then
      match makeResident s t g p with
      | .hold => .next s
      | .fail kind m va => .next (trapHere (spillSeen s t g kind m va) t g p kind m va 0 P.waitWord)
      | .ok s1 => .next (leaveWait (modGroup s1 t g fun G => writeShfl G P.fb d n need got own) t g p)
    else .next s
  | _, _ => .next s

end Sys2Proof.Machine
end

