-- ==== Sys2Proof/Machine/March.lean ====
section
/-! DEFINITION. The marcher: the MARCH queue, ray stepping, MARCH, BUCK, FEVAL and FBIND, and the callable queue's
requests (13 R302–R305, R322–R337). -/

namespace Sys2Proof.Machine

/-! ### The MARCH queue (13 R302, R303) -/

def marchOf (T : Team) (id : Nat) : Option MarchOp := T.marches.find? fun m => m.id == id

def modMarch (s : State) (t id : Nat) (f : MarchOp → MarchOp) : State :=
  let one := fun (m : MarchOp) => if m.id == id then f m else m
  modTeam s t fun T => { T with marches := T.marches.map one }

def dropMarch (s : State) (t id : Nat) : State :=
  modTeam s t fun T => { T with marches := T.marches.filter fun m => m.id != id }

def holdsRecord (m : MarchOp) : Bool :=
  match m.kind with
  | .batch _ _ _ | .feval _ _ => true
  | _ => false

/-- Batch records in use on a core. -/
def recordsUsed (s : State) (core : Nat) : Nat :=
  s.teams.foldl (fun n T => n + (T.2.marches.filter fun m => m.core == core && holdsRecord m).length) 0

/-- Whether every ray of an operation has ended. -/
def raysEnded (m : MarchOp) : Bool := m.started && m.rays.all fun r => r.phase == .ended

/-- Whether an operation may be performed: the earlier ones of its group's queue have been (09 R208). -/
def marchReady (T : Team) (m : MarchOp) : Bool :=
  !(T.marches.any fun k => k.g == m.g && decide (k.id < m.id) && !raysEnded k)
    && !classHeld (tget ({} : Group) T.groups m.g) 3 m.id

/-- Posts an operation. -/
def postMarch (c : Iss) (s : State) (kind : MarchKind) (bar : Option Nat) (rays : List Ray) : State :=
  let o : MarchOp := { id := s.nextId, g := c.g, pc := c.P.pc, scope := c.P.gm.scope, lanes := c.act, kind := kind,
                       bar := bar, rays := rays, core := teamCore c.T }
  { modTeam s c.t (fun T => { T with marches := T.marches ++ [o] }) with nextId := s.nextId + 1 }

/-- A slot of the issuing team that has never been bound (13 R332). -/
def slotUnbound (c : Iss) (n : Nat) : Bool := !(tget ({} : ProgSlot) c.T.slots n).bound

/-! ### Requests (13 R322, R323) -/

/-- The identifiers of the outstanding requests. -/
def ticketsOut (s : State) : List Nat := s.teams.flatMap fun e => e.2.marches.flatMap fun m => m.rays.filterMap fun r => r.ticket

/-- An identifier that no outstanding request has, never 0xFFFFFFFF. -/
def newTicket (s : State) : Nat :=
  let used := ticketsOut s
  let at_ := fun (n : Nat) => (Config.ticketFrom s.free + n) % 0xFFFFFFFF
  at_ ((firstFrom (fun n => !used.contains (at_ n)) 0 (used.length + 1)).getD 0)

/-- A ray asks for a reply. -/
def askReply (s : State) (t id lane : Nat) (req : Nat × Nat × List Nat) : State :=
  let tk := newTicket s
  modRay s t id lane fun r => { r with ticket := some tk, appended := false, req := req, wait := 0 }

/-- The 64 bytes of a request. -/
def requestBytes (m : MarchOp) (r : Ray) : List Byte :=
  let user := bits (imgNode m.prog.image r.req.1) 63 32
  leBytes (pack ([(32, r.ticket.getD 0), (16, r.req.1), (2, r.req.2.1), (14, 0), (32, user)]
    ++ r.req.2.2.map (fun w => (32, w)) ++ [(32, m.prog.param)])) 64

/-- CQ_REQUEST_APPEND: the entry, then TAIL; while the ring is full the request waits. -/
def execCqRequestAppend (t id lane : Nat) (s : State) : Host.Outcome State Fault Refusal :=
  let T := seen s t true
  match marchOf T id with
  | none => .next s
  | some m => match m.rays.find? fun r => r.lane == lane with
    | none => .next s
    | some r =>
      let off := m.prog.cqoff
      let h := landNat T off 64
      let tail := bits h 63 32
      if r.ticket.isNone || r.appended || !inLanding T off 64 || cqCap h == 0 || decide (cqCap h ≤ cqCount T off) then .next s
      else
        let at_ := cqRing h + 64 * (tail % cqCap h)
        let s1 := if inLanding T at_ 64 then landWrite s t at_ (requestBytes m r) else s
        let s2 := landWrite s1 t (off + 4) (leBytes ((tail + 1) % 2 ^ 32) 4)
        .next (modRay s2 t id lane fun r => { r with appended := true })

/-! ### The end of a ray (13 R325, R327) -/

/-- A ray's result record. -/
def rayRecord (status t n : Nat) (g : List Nat) : List Byte :=
  let T := if status = 0 then 0x7F800000 else if status = 4 then 0x7FC00000 else t
  let x := fun (i : Nat) => (32, g.getD i 0)
  leBytes (pack [(8, status), (24, 0), (32, T), x 0, x 1, x 2, (32, n), (64, 0)]) 32

/-- A ray of a batch ends with a status. -/
def endRay (s : State) (t id lane status : Nat) (g : List Nat) : State :=
  match marchOf (teamOf s t) id with
  | none => s
  | some m => match m.kind, m.rays.find? fun r => r.lane == lane with
    | .batch _ off _, some r =>
      let s1 := landWrite s t (off + 32 * lane) (rayRecord status r.t r.n g)
      modRay s1 t id lane fun r => { r with phase := .ended, ticket := none, appended := false }
    | _, _ => s

/-- A lane of an FEVAL ends with its results. -/
def endLane (s : State) (t id lane : Nat) (out : List Nat) : State :=
  modRay s t id lane fun r => { r with phase := .ended, ticket := none, appended := false, out := out }

/-- The results of an FEVAL lane without a value: NaN, or the entire interval (13 R322, R337). -/
def noValue (mode : Nat) : List Nat := if mode < 2 then List.replicate 4 0x7FC00000 else [0xFF800000, 0x7F800000]

/-- Rays that met a fault: the record; the batch will arrive with FLT. The results of an FEVAL lane are free. -/
def faultRays (s : State) (t : Nat) (m : MarchOp) (ls : List Nat) (kind : TrapKind) (va : Nat) : State :=
  let r := engineLog s t 3 kind va (m.bar.getD 0)
  let s1 := modMarch r.1 t m.id fun m => { m with fidx := some (m.fidx.getD r.2) }
  let one := fun (s : State) (lane : Nat) => match m.kind with
    | .feval _ _ => endLane s t m.id lane ((List.range 4).map fun j => Config.windowPick s1.free (2 ^ 31 + j) lane % 2 ^ 32)
    | _ => endRay s t m.id lane 5 []
  ls.foldl one { s1 with free := s1.free + 1 }

def faultRay (s : State) (t : Nat) (m : MarchOp) (lane : Nat) (kind : TrapKind) (va : Nat) : State :=
  faultRays s t m [lane] kind va

/-! ### Neural requests (13 R321) -/

/-- The cluster on whose engine an operation's neural passes run. -/
def netCluster (m : MarchOp) : Nat := m.core / 4

/-- The neural requests of a cluster whose next pass is posted, with their teams. -/
def netEntries (s : State) (cluster : Nat) : List (Nat × Team × MarchOp × NetReq) :=
  s.teams.flatMap fun T => T.2.marches.flatMap fun m =>
    if netCluster m = cluster then (m.nets.filter fun q => q.entry.isSome).map fun q => (T.1, T.2, m, q) else []

/-- The marcher entries are 152 to 159 (11 R264): the lowest free one. -/
def freeNetEntry (s : State) (cluster : Nat) : Option Nat :=
  let used := (netEntries s cluster).filterMap fun x => x.2.2.2.entry
  firstFrom (fun n => !used.contains n) 152 8

def modNet (s : State) (t id req : Nat) (f : NetReq → NetReq) : State :=
  modMarch s t id fun m => { m with nets := m.nets.map fun (q : NetReq) => if q.id == req then f q else q }

/-- Whether a ray stands at an NFIELD byte and no request holds it. -/
def atNet (r : Ray) : Bool := r.net.any fun a => !a.joined

/-- Rays at one NFIELD byte in one evaluation join one request, once no other ray of the operation can still come to it without
a reply (log entry 51). `n` numbers the requests. -/
def joinNets (m : MarchOp) (n : Nat) : MarchOp :=
  let waits := m.rays.all fun r => r.phase == .ended || r.net.isSome || r.ticket.isSome
  if !waits || !(m.rays.any atNet) then m
  else
    let new : List (Nat × NetAsk) := (m.rays.filter atNet).map fun r => (r.lane, r.net.getD {})
    let keys := (new.map fun x => (x.2.place, x.2.mode)).eraseDups
    let req := fun (k : (Nat × Nat) × Nat) =>
      let mine := new.filter fun x => (x.2.place, x.2.mode) == k.1
      ({ id := n + k.2, node := (mine.head?.map fun x => x.2.node).getD 0,
         rows := mine.map fun x => ({ lane := x.1, pts := x.2.pts } : NetRow) } : NetReq)
    { m with nets := m.nets ++ (keys.zip (List.range keys.length)).map req,
             rays := m.rays.map fun r => { r with net := r.net.map fun a => { a with joined := true } } }

/-- A request's next pass posted, where a marcher entry is free. -/
def postNet (t id : Nat) (s : State) (req : Nat) : State :=
  match marchOf (teamOf s t) id with
  | none => s
  | some m => match freeNetEntry s (netCluster m) with
    | none => s
    | some e =>
      let s1 := modNet s t id req fun q => { q with entry := some e, seq := s.nextId, tick := s.gt, age := 0, born := pastNow s }
      { s1 with nextId := s1.nextId + 1 }

/-- The requests of an operation formed, and their passes posted as far as entries are free. -/
def advanceNets (s : State) (t id : Nat) : State :=
  match marchOf (teamOf s t) id with
  | none => s
  | some m =>
    let m1 := joinNets m s.nextId
    if m1.nets.isEmpty then s
    else
      let s1 := modMarch s t id fun _ => m1
      let s2 := { s1 with nextId := s1.nextId + (m1.nets.length - m.nets.length) }
      (m1.nets.filter fun q => q.entry.isNone).foldl (fun s q => postNet t id s q.id) s2

/-! ### Stepping (13 R324) -/

/-- The next binary32 above a finite value. -/
def above (t : Nat) : Ex := ofF32 (nextUp t)

/-- The end of the segment from t. -/
def segEnd (t h tmax : Ex) (tBits : Nat) : Ex := exMin (exMax (rne (exAdd false t h)) (above tBits)) tmax

/-- Whether a ray is INVALID. -/
def rayInvalid (r : List Ex) : Bool :=
  let tmax := r.getD 7 zeroEx
  !((r.take 7).all exFinite) || exIsNan tmax || ((r.drop 3).take 3).all exIsZero || exLt tmax (r.getD 6 zeroEx)

/-- The coordinates of a ray over a segment. -/
def rayCoords (m : EvMode) (r : List Ex) (t0 t1 : Ex) : List Ent :=
  (List.range 3).map fun j => coordSeg m j (r.getD j zeroEx) (r.getD (j + 3) zeroEx) t0 t1

/-- The environment of an operation's evaluations. -/
def marchEnv (s : State) (t : Nat) (m : MarchOp) (mode : EvMode) : EvEnv :=
  let T := teamOf s t
  { w := whoOf T (groupOf s t m.g) m.pc true, from_ := volumeFrom s m.core T.began (pastNow s), m := mode, img := m.prog.image,
    param := m.prog.param }

/-- An evaluation of a ray or lane: on a value the rest, else a request or its fault. -/
def rayEval (s : State) (t : Nat) (m : MarchOp) (r : Ray) (mode : EvMode) (xs : List Ent)
    (rest : State → Ent → State) : State :=
  match evalField (marchEnv s t m mode) s xs r.replies with
  | .go e => rest (modRay e.s t m.id r.lane fun r => { r with replies := [] }) (e.st.headD {})
  | .fault s1 k va => faultRay s1 t m r.lane k va
  | .ask s1 node md box => askReply s1 t m.id r.lane (node, md, box)
  | .net s1 a => modRay s1 t m.id r.lane fun r => { r with net := some a }

/-- The step after a bound. -/
def afterBound (s : State) (t : Nat) (m : MarchOp) (r : Ray) (t1 : Ex) (b : Iv) : State :=
  let img := m.prog.image
  let t0 := ofF32 r.t
  let h := ofF32 r.h
  let far := exSub false t1 t0
  let eps := exMax (imgEpsA img) (exMul (imgEpsR img) t0)
  let set := fun (f : Ray → Ray) => modRay s t m.id r.lane f
  if exLt zeroEx b.lo then
    set fun r => { r with n := r.n + 1, t := toF32 .rne t1, h := toF32 .rne (exMin (exMul twoEx h) (imgHmax img)) }
  else if exLt b.hi zeroEx then set fun r => { r with n := r.n + 1, phase := .grad 2 }
  else if exLt eps far then set fun r => { r with n := r.n + 1, h := toF32 .rne (exMul h halfEx) }
  else set fun r => { r with n := r.n + 1, phase := .point (toF32 .rne t1) }

/-- A bound evaluation counted in MSTEPS (13 R304). -/
def countStep (s : State) (t id : Nat) : State :=
  modCtx (modMarch s t id fun m => { m with steps := m.steps + 1 }) (teamOf s t).ctx fun C =>
    { C with msteps := (C.msteps + 1) % 2 ^ 64 }

/-- One step of a ray of a batch. -/
def stepRay (s : State) (t : Nat) (m : MarchOp) (r : Ray) (aff : Bool) : State :=
  let xs := r.regs.map ofF32
  let tmax := xs.getD 7 zeroEx
  let t0 := ofF32 r.t
  let mode : EvMode := if aff then .affine else .interval
  match r.phase with
  | .ended => s
  | .bound =>
    if rayInvalid xs then endRay s t m.id r.lane 4 []
    else if exLe tmax t0 then endRay s t m.id r.lane 0 []
    else if r.n = imgLimit m.prog.image then endRay s t m.id r.lane 3 []
    else
      let t1 := segEnd t0 (ofF32 r.h) tmax r.t
      rayEval s t m r mode (rayCoords mode xs t0 t1) fun s1 e =>
        afterBound (countStep s1 t m.id) t m r t1 (boundOf mode e)
  | .point t1 =>
    rayEval s t m r .point (rayCoords .point xs (ofF32 t1) (ofF32 t1)) fun s1 e =>
      if !exIsNan e.v && exLe e.v zeroEx then modRay s1 t m.id r.lane fun r => { r with phase := .grad 1 }
      else modRay s1 t m.id r.lane fun r =>
        { r with phase := .bound, t := t1, h := toF32 .rne (exMin (exMul twoEx (ofF32 r.h)) (imgHmax m.prog.image)) }
  | .grad st =>
    rayEval s t m r .gradient (rayCoords .gradient xs t0 t0) fun s1 e =>
      endRay s1 t m.id r.lane st ((List.range 3).map fun j => toF32 .rne (e.g.getD j zeroEx))

/-! ### FEVAL (13 R336, R337) -/

def fevalMode (n : Nat) : EvMode :=
  match n with
  | 0 => .point
  | 1 => .gradient
  | 2 => .interval
  | _ => .affine

/-- Whether a lane's inputs give no value. -/
def fevalBad (mode : Nat) (xs : List Ex) : Bool :=
  let x := fun (i : Nat) => xs.getD i zeroEx
  xs.any exIsNan || (mode == 2 && (List.range 3).any fun j => exLt (x (2 * j + 1)) (x (2 * j))) || (mode == 3 && exLt (x 7) (x 6))

/-- The coordinates of a lane's inputs. -/
def fevalCoords (mode : Nat) (xs : List Ex) : List Ent :=
  let x := fun (i : Nat) => xs.getD i zeroEx
  match mode with
  | 0 | 1 => (List.range 3).map fun j => coordPt j (x j)
  | 2 => (List.range 3).map fun j => { iv := ⟨x (2 * j), x (2 * j + 1)⟩ }
  | _ => rayCoords .affine xs (x 6) (x 7)

/-- A lane's results. -/
def fevalOut (mode : Nat) (e : Ent) : List Nat :=
  let w := toF32 .rne
  match mode with
  | 0 => [w e.v]
  | 1 => w e.v :: (List.range 3).map fun j => w (e.g.getD j zeroEx)
  | n =>
    let b := boundOf (fevalMode n) e
    [w b.lo, w b.hi]

/-- One lane of an FEVAL evaluated. -/
def stepLane (s : State) (t : Nat) (m : MarchOp) (r : Ray) (mode : Nat) : State :=
  let xs := r.regs.map ofF32
  if r.phase = .ended then s
  else if fevalBad mode xs then endLane s t m.id r.lane (noValue mode)
  else rayEval s t m r (fevalMode mode) (fevalCoords mode xs) fun s1 e =>
    endLane s1 t m.id r.lane (fevalOut mode e)

/-! ### Events -/

/-- A batch or FEVAL starts with the binding of its slot (13 R303). -/
def startMarch (T : Team) (slot : Nat) (m : MarchOp) : MarchOp :=
  let prog := tget ({} : ProgSlot) T.slots slot
  let h0 := imgNat prog.image 20 4
  { m with started := true, prog := prog, rays := m.rays.map fun (r : Ray) => { r with h := h0 } }

/-- The program slot of a batch or FEVAL. -/
def opSlot (k : MarchKind) : Option Nat :=
  match k with
  | .batch n _ _ => some n
  | .feval n _ => some n
  | _ => none

/-- MARCH_RAY_STEP: a ray, or a lane of an FEVAL, steps; the first step starts its batch. Neural requests are formed and
posted. -/
def execMarchRayStep (t id lane : Nat) (s : State) : Host.Outcome State Fault Refusal :=
  let T := teamOf s t
  match marchOf T id with
  | none => .next s
  | some m0 =>
    match opSlot m0.kind with
    | none => .next s
    | some n =>
      if !m0.started && !marchReady T m0 then .next s
      else
        let m := if m0.started then m0 else startMarch T n m0
        let s1 := modMarch s t id fun _ => m
        match m.rays.find? fun r => r.lane == lane with
        | none => .next s1
        | some r =>
          if r.ticket.isSome then .next s1
          else if r.net.isSome then .next (advanceNets s1 t id)
          else match m.kind with
            | .batch _ _ aff => .next (advanceNets (stepRay s1 t m r aff) t id)
            | .feval _ mode => .next (advanceNets (stepLane s1 t m r mode) t id)
            | _ => .next s1

/-- CQ_REQUEST_TIMEOUT: the wait for a reply has reached 2^WL (13 R322). -/
def execCqRequestTimeout (t id lane : Nat) (s : State) : Host.Outcome State Fault Refusal :=
  let T := teamOf s t
  match marchOf T id with
  | none => .next s
  | some m => match m.rays.find? fun r => r.lane == lane with
    | none => .next s
    | some r =>
      if r.ticket.isNone || decide (r.wait < 2 ^ (ctxOf s T.ctx).wl) then .next s
      else match m.kind with
        | .feval _ mode => .next (endLane s t id lane (noValue mode))
        | _ => .next (endRay s t id lane 6 [])

/-- An arrival at an operation's barrier, with FLT where it faulted. -/
def marchArrive (s : State) (t b : Nat) (fidx : Option Nat) : State :=
  match fidx with
  | none => arrive s t b 1 0
  | some i => arrive (flagFault s t b i) t b 1 0

def execMarchBatchArrive (t id : Nat) (s : State) : Host.Outcome State Fault Refusal :=
  match marchOf (teamOf s t) id with
  | none => .next s
  | some m => match m.kind, m.bar with
    | .batch _ _ _, some b =>
      if raysEnded m && canArrive s t b 1 then .next (marchArrive (dropMarch s t id) t b m.fidx) else .next s
    | _, _ => .next s

/-- FEVAL_COMPLETE: every lane's result is written. -/
def execFevalComplete (t id : Nat) (s : State) : Host.Outcome State Fault Refusal :=
  match marchOf (teamOf s t) id with
  | none => .next s
  | some m => match m.kind with
    | .feval _ _ =>
      if !raysEnded m then .next s
      else
        let s1 := dropMarch s t id
        match pendOf s1 t m.g id with
        | none => .next s1
        | some o =>
          let n := o.keys.length / m.rays.length
          let vals := m.rays.flatMap fun r => (List.range n).map fun j => BitVec.ofNat 32 (r.out.getD j 0)
          .next (commit s1 t m.g { o with performed := true, res := o.keys.zip vals })
    | _ => .next s

/-- BUCK_PERFORM: the pruned image, or a zero LEN; then the arrival (13 R328, R334). -/
def execBuckPerform (t id : Nat) (s : State) : Host.Outcome State Fault Refusal :=
  let T := teamOf s t
  match marchOf T id with
  | none => .next s
  | some m => match m.kind, m.bar with
    | .buck slot dst cap box, some b =>
      if !marchReady T m || !canArrive s t b 1 then .next s
      else
        let m1 := startMarch T slot m
        let x := fun (i : Nat) => ofF32 (box.getD i 0)
        let s0 := dropMarch s t id
        let put := fun (s : State) (bs : List Byte) => if inLanding T dst bs.length then landWrite s t dst bs else s
        match buckImage (marchEnv s t m1 .interval) s0 ((List.range 3).map fun j => ⟨x j, x (j + 3)⟩) with
        | .ok (s1, img) => .next (arrive (put s1 (if img.length ≤ cap then img else [0, 0])) t b 1 0)
        | .error (k, va) =>
          let r := engineLog (put s0 [0, 0]) t 3 k va b
          .next (marchArrive r.1 t b (some r.2))
    | _, _ => .next s

/-- The image that an FBIND reads: its header, then LEN bytes; a landing image may pass LSZ. -/
def fbindRead (s : State) (t : Nat) (w : Who) (land : Bool) (addr : Nat) : Span (State × List Byte) :=
  let T := seen s t false
  if land then
    let n := max 32 (landNat T addr 2)
    if !inLanding T addr 32 || landMeetsBad T addr 32 false then .fail .uncorrected addr
    else if !inLanding T addr n then .fail .reservedOperand 0
    else if landMeetsBad T addr n false then .fail .uncorrected addr
    else .ok (s, landRead T addr n)
  else spanThen (spanRead s w addr 32) fun s1 h => spanRead s1 w addr (max 32 (imgLen h))

/-- An FBIND's image checked and bound: the state, and the status. -/
def fbindBind (s : State) (t slot : Nat) (img : List Byte) (param cqoff : Nat) : State × Nat :=
  let st := fbindStatus (teamOf s t) img cqoff
  let prog : ProgSlot := { bound := true, image := img.take (imgLen img), param := param, cqoff := cqoff }
  (if st = 0 then mirrorTail (modTeam s t fun T => { T with slots := tput T.slots slot prog }) t else s, st)

/-- FBIND_PERFORM: the image read, checked and bound; the status to d; or its trap (13 R335). -/
def execFbindPerform (t id : Nat) (s : State) : Host.Outcome State Fault Refusal :=
  let T := teamOf s t
  match marchOf T id with
  | none => .next s
  | some m => match m.kind, pendOf s t m.g id with
    | .fbind slot land addr param cqoff, some o =>
      if !marchReady T m then .next s
      else match fbindRead s t (whoOf T (groupOf s t m.g) m.pc true) land addr with
        | .hold => .next s
        | .fail k va =>
          let s1 := dropMarch s t id
          let o' := { o with work := .fbind slot land addr param cqoff }
          .next (if land then trapOp s1 t m.g o' k o.lanes va else trapPending s1 t m.g o' k o.lanes va)
        | .ok (s1, img) =>
          let r := fbindBind s1 t slot img param cqoff
          .next (commit (dropMarch r.1 t id) t m.g { o with performed := true, res := o.keys.map fun k => (k, BitVec.ofNat 32 r.2) })
    | _, _ => .next s

/-! ### Entries (13 R332–R337) -/

def execMarch (look b : Nat) (d a : Operand) (s : State) : Host.Outcome State Fault Refusal :=
  issueWord (.march look b d a)
    (fun _ _ _ => { uses := [{ op := d, n := 8 }, { op := a, n := 2 }], opBad := vecOdd d 2 || !isScalar a })
    (fun c =>
      let off := rd c a 0 0
      let f := rd c a 1 0
      let slot := f % 4
      if c.act == 0 then .adv c.s
      else if slotUnbound c slot || noBar c b then .trap .reservedOperand c.act 0 0
      else if bits f 31 3 != 0 || off % 32 != 0 || !inLanding c.T off 3072 then .trap .reservedOperand c.act 0 0
      else if 16 ≤ recordsUsed c.s (teamCore c.T) then .stall
      else
        let ls := lanesOf c.act
        let rays := (ls.zip (laneGroup c d 8 ls)).map fun x => ({ lane := x.1, regs := x.2, t := x.2.getD 6 0 } : Ray)
        .adv (postMarch c c.s (.batch slot off (bit f 2)) (some b) rays)) s

/-- Whether a box's corners are refused (13 R334). -/
def boxBad (w : List Nat) : Bool :=
  (List.range 3).any fun j =>
    let lo := ofF32 (w.getD j 0)
    let hi := ofF32 (w.getD (j + 3) 0)
    exIsNan lo || exIsNan hi || exLt hi lo

def execBuck (look b slot : Nat) (a : Operand) (s : State) : Host.Outcome State Fault Refusal :=
  issueWord (.buck look b slot a) (fun _ _ _ => { uses := [{ op := a, n := 8 }], opBad := eightBad a })
    (fun c =>
      let w := (List.range 8).map fun i => rd c a i 0
      let dst := w.getD 0 0
      let cap := w.getD 1 0
      if c.act == 0 then .adv c.s
      else if slotUnbound c slot || noBar c b || dst % 8 != 0 || !inLanding c.T dst cap || boxBad (w.drop 2) then
        .trap .reservedOperand c.act 0 0
      else .adv (postMarch c c.s (.buck slot dst cap (w.drop 2)) (some b) [])) s

/-- Input and result registers of an FEVAL, and the alignments of their groups (13 R337). -/
def fevalRegs (mode : Nat) : Nat × Nat × Nat × Nat :=
  match mode with
  | 0 => (3, 1, 1, 1)
  | 1 => (3, 4, 1, 4)
  | 2 => (6, 2, 2, 2)
  | _ => (8, 2, 2, 2)

def execFeval (look mode slot : Nat) (d a : Operand) (s : State) : Host.Outcome State Fault Refusal :=
  issueWord (.feval look mode slot d a)
    (fun _ _ _ =>
      let k := fevalRegs mode
      { uses := [{ op := d, n := k.2.1, src := false, dst := true }, { op := a, n := k.1 }],
        opBad := vecOdd d k.2.2.2 || vecOdd a k.2.2.1 })
    (fun c =>
      let k := fevalRegs mode
      if c.act == 0 then .adv c.s
      else if slotUnbound c slot then .trap .reservedOperand c.act 0 0
      else if decide (16 ≤ recordsUsed c.s (teamCore c.T)) || pendFull c look true then .stall
      else
        let ls := lanesOf c.act
        let rays := (ls.zip (laneGroup c a k.1 ls)).map fun x => ({ lane := x.1, regs := x.2 } : Ray)
        let s1 := postMarch c c.s (.feval slot mode) none rays
        .adv (post c { s1 with nextId := c.s.nextId } look
          { keys := ls.flatMap fun l => dstKeys c.P d k.2.1 l, regs := true })) s

def execFbind (look slot : Nat) (land : Bool) (d a : Operand) (s : State) : Host.Outcome State Fault Refusal :=
  issueWord (.fbind look slot land d a)
    (fun _ _ _ => { uses := [{ op := d, src := false, dst := true }, { op := a, n := 4 }],
                    opBad := !isUniform d || !isScalar a })
    (fun c =>
      let w := (List.range 4).map fun i => rd c a i 0
      let addr := w.getD 0 0 + 2 ^ 32 * w.getD 1 0
      if c.act == 0 then .adv c.s
      else if addr % 4 != 0 then .trap (if land then .reservedOperand else .misaligned) c.act (if land then 0 else addr) 0
      else if land && (w.getD 1 0 != 0 || !inLanding c.T addr 32) then .trap .reservedOperand c.act 0 0
      else
        let keys := dstKeys c.P d 1 0
        if pendFull c look (!keys.isEmpty) then .stall
        else
          let s1 := postMarch c c.s (.fbind slot land addr (w.getD 2 0) (w.getD 3 0)) none []
          .adv (post c { s1 with nextId := c.s.nextId } look { keys := keys, regs := !keys.isEmpty })) s

end Sys2Proof.Machine
end

