-- ==== Sys2Proof/Machine/Service.lean ====
section
/-! DEFINITION. What the control core does for a frozen core: the replay of a faulted operation and the core's resume
(16 R373, R394), and the resume of cores whose translation the driver has repaired (22 R447). -/

namespace Sys2Proof.Machine

/-! ### Replay (16 R373) -/

/-- An operation for some of its lanes alone. Results in scalars stay. -/
def narrow (m : Mask) (o : Pending) : Pending :=
  let inM := fun (l : Nat) => m.getLsbD l
  let accs := fun (l : List Acc) => l.filter fun a => inM a.lane
  let work := match o.work with
    | .load sp ty acq xs uni => .load sp ty acq (accs xs) uni
    | .store sp ty rel xs => .store sp ty rel (accs xs)
    | .atomic op sp ty acq rel xs uni => .atomic op sp ty acq rel (accs xs) uni
    | .cctl op xs => .cctl op (accs xs)
    | .visw xs => .visw (accs xs)
    | .boxt xs rays => .boxt (accs xs) (((xs.zip rays).filter fun x => inM x.1.lane).map (·.2))
    | .trit cull xs rays => .trit cull (accs xs) (((xs.zip rays).filter fun x => inM x.1.lane).map (·.2))
    | .vfetch grad desc pts => .vfetch grad desc (pts.filter fun x => inM x.1)
    | w => w
  { o with lanes := m, work := work, performed := false, res := [],
           keys := o.keys.filter fun k => decide (k < 128) || inM (k % 128) }

/-- The outcome of a replay: the results are written; the operation faults again; a migration holds its write. -/
inductive Replayed
  | done (s : State)
  | again (s : State) (h : Held)
  | hold

/-- An operation performed access by access, at most n of them, until one of them waits or it is done. -/
def performAll (t g id : Nat) : Nat → State → State
  | 0, s => s
  | n + 1, s => match pendOf s t g id with
    | none => s
    | some o =>
      if o.performed then s
      else
        let s1 := performMem s t g o
        if pendOf s1 t g id = some o then s1 else performAll t g id n s1

/-- The performance of a replayed operation. -/
def replayWork (s : State) (t g : Nat) (o : Pending) : State :=
  match o.work with
  | .tblload k va =>
    let T := teamOf s t
    match bankRead s t g o va with
    | .hold => s
    | .fail kind a => trapPending s t g o kind o.lanes a
    | .ok r => doneOp (setBank r.1 (teamCore T) k T.ctx va r.2) t g o.id []
  | .cqpop off => takeEntries s t g o off
  | .cstat slot =>
    let w := whoOf (teamOf s t) (groupOf s t g) o.pc true
    match slotFetch s w.ctx w.die slot with
    | .error k => trapPending s t g o k o.lanes (slotVa s w.ctx slot)
    | .ok (key, e) => giveResult (slotSeen s w slot key) t g o.id (e % 2 ^ 256) 8
  | .fbind slot land addr param cqoff =>
    match fbindRead s t (whoOf (teamOf s t) (groupOf s t g) o.pc true) land addr with
    | .hold => s
    | .fail k va => if land then trapOp s t g o k o.lanes va else trapPending s t g o k o.lanes va
    | .ok (s1, img) => let r := fbindBind s1 t slot img param cqoff; giveResult r.1 t g o.id r.2 1
  | _ => performAll t g o.id lanes s

/-- The faulted operation again, on a frozen core, for some lanes; a column that it held is released. -/
def replayOp (s : State) (t g : Nat) (o : Pending) (m : Mask) : Replayed :=
  let o' := narrow m o
  let s1 := modGroup s t g fun G => { G with pend := G.pend ++ [o'] }
  let s2 := replayWork s1 t g o'
  match pendOf s2 t g o.id with
  | some r =>
    if r.performed then
      .done (modGroup (commit s2 t g r) t g fun G =>
        { G with drain := if o.col.isSome then { G.drain with held := false } else G.drain })
    else .hold
  | none =>
    match (groupOf s2 t g).asyncs.getLast? with
    | some h => .again (modGroup s2 t g fun G => { G with asyncs := G.asyncs.dropLast }) h
    | none => .done s2

/-! ### RFT (16 R394) -/

/-- The outcome of RFT for a core: the state and the status; none where the word waits for a migrating page. -/
inductive Resumed
  | status (s : State) (n : Nat)
  | again (s : State) (t g : Nat) (h : Held)
  | hold

/-- RFT on a core of the module. -/
def resumeCore (s : State) (core : Nat) (replay : Bool) : Resumed :=
  let K := coreOf s core
  let r := K.trap
  let t := K.trapAt.1
  let g := K.trapAt.2
  if !K.frozen || !r.tvalid then .status s 1
  else if !replay then .status (unfreeze s core) 0
  else match r.replayable, K.replay with
    | true, some o =>
      match replayOp s t g o (BitVec.ofNat 96 r.flm) with
      | .hold => .hold
      | .again s1 h => .again (modPath s1 t g r.path fun P => { P with pc := r.cpc }) t g { h with tr := { h.tr with cpc := r.cpc } }
      | .done s1 => .status (unfreeze (modPath s1 t g r.path fun P => { P with pc := r.cpc }) core) 0
    | _, _ => .status s 3

/-- The record of a replay that faults again; the core stays frozen. -/
def againRecord (s : State) (core t g : Nat) (h : Held) : State :=
  let T := teamOf s t
  let G := groupOf s t g
  let r := { h.tr with tvalid := true, slot := G.slot, gslot := G.gslot, ctx := T.ctx, tick := s.gt, replayable := true }
  let s0 := traceOut s T.die s.gt { type := 5, ctx := T.ctx, queue := T.queue, loc := locOf T G, tag := r.kind, pc := r.pc }
  let s1 := modGroup (noteEvent s0 T.ctx T.queue T.pkt r.kind) t g fun G => { G with flm := BitVec.ofNat 96 r.flm }
  modCore s1 core fun K => { K with frozen := true, trap := r, trapAt := (t, g), replay := some h.op }

/-! ### Repaired translations (22 R447) -/

/-- Whether a core is held by a Translation or Permission trap of a context with its address in a range of pages; a count
of 0 means the whole context. -/
def heldIn (K : Core) (ctx first pages : Nat) : Bool :=
  K.frozen && K.trap.tvalid && K.trap.ctx == ctx && (K.trap.kind == 4 || K.trap.kind == 5) &&
    (pages == 0 || (decide (first ≤ K.trap.addr / 2 ^ 15) && decide (K.trap.addr / 2 ^ 15 < first + pages)))

/-- Firmware resumes one held core: without replay where the path stands at the trapping instruction. A replay that
faults again is a trap to be served, and one whose write a migration holds is tried again in the next tick (08 R197). -/
def repairCore (s : State) (core : Nat) : State :=
  let r := (coreOf s core).trap
  match resumeCore s core (r.k != 0 || r.async) with
  | .status s1 _ => s1
  | .hold => modCore s core fun K => { K with retry := true }
  | .again s1 t g h => raise s1 t g h.tr (some h.op)

/-- The cores whose replay waits for a migration try again. -/
def retryCores (s : State) : State :=
  s.cores.foldl (fun s e => if e.2.retry then repairCore (modCore s e.1 fun K => { K with retry := false }) e.1 else s) s

/-- Every core that an invalidation frees. -/
def repairCores (s : State) (ctx first pages : Nat) : State :=
  if (ctxOf s ctx).demand then
    (s.cores.filter fun e => heldIn e.2 ctx first pages).foldl (fun s e => repairCore s e.1) s
  else s

end Sys2Proof.Machine
end

