-- ==== Sys2Proof/Machine/Paging.lean ====
section
/-! DEFINITION. What the control core, the memories and the supervisor do to pages: invalidations (08 R195, 12 R295),
migration (08 R197, R198), hotness epochs (08 R196), soft errors and scrubbing (08 R205, R206), stacks out of service (15
R364), and the accounting snapshot (01 R17, R18). -/

namespace Sys2Proof.Machine

/-! ### Invalidation -/

/-- An invalidation starts unless one is running. -/
def startInval (s : State) (ctx : Nat) : State :=
  if (tfind s.ctxs ctx).isSome && (ctxOf s ctx).idone then modCtx s ctx fun C => { C with idone := false } else s

/-- IGO. -/
def execIgo (ctx : Nat) (s : State) : Host.Outcome State Fault Refusal := .next (startInval s ctx)

/-- Whether the weight range of a slot overlaps a range of pages; a count of 0 means the whole context. -/
def slotOverlaps (s : State) (ctx slot first pages : Nat) : Bool :=
  match whereIs s ctx (slotVa s ctx slot) with
  | none => false
  | some k =>
    let e := readNat s.mem k 128
    let lo := bits e 311 256
    let hi := lo + bits e 351 320
    slotBound e && (pages == 0 || (decide (lo < (first + pages) * 2 ^ 15) && decide (first * 2 ^ 15 < hi)))

/-- A completed invalidation of a range: the bound slots it overlaps are bumped, and no older translation is left. -/
def invalidated (s : State) (ctx first pages : Nat) : State :=
  let s1 := (watchedSlots (ctxOf s ctx)).foldl (fun s n =>
    if slotOverlaps s ctx n first pages then bumpVer s ctx n 1 else s) s
  modCtx { s1 with walkBad := [] } ctx fun C =>
    if pages = 0 then { C with ptAt := pastNow s1, fresh := [] }
    else { C with fresh := (first, pages, pastNow s1) :: C.fresh }

/-- The accesses of an operation that are performed lane by lane. -/
def Work.accs : Work → List Acc
  | .atomic _ _ _ _ _ accs _ | .visw accs => accs
  | _ => []

/-- Whether an operation under way has translated an access that it has not performed yet, whose address and memory key are
such (08 R195, 09 R229). -/
def translated (s : State) (at_ : Nat → Nat → Nat → Bool) : Bool :=
  s.teams.any fun T => T.2.groups.any fun G => G.2.pend.any fun o => o.work.accs.any fun a => match a.key with
    | some k => at_ T.2.ctx a.addr k
    | none => false

/-- INVALIDATION_COMPLETE: once every access translated before is performed; also the resume of repaired cores (22 R447). -/
def execInvalidationComplete (ctx : Nat) (s : State) : Host.Outcome State Fault Refusal :=
  let C := ctxOf s ctx
  let first := C.iva / 2 ^ 15
  if C.idone || translated s (fun c va _ => c == ctx && (C.ipages == 0 || (decide (first ≤ va / 2 ^ 15) && decide (va / 2 ^ 15 < first + C.ipages)))) then .next s
  else
    let s1 := modCtx (invalidated s ctx first C.ipages) ctx fun C => { C with idone := true }
    .next (repairCores s1 ctx first C.ipages)

/-! ### Migration -/

/-- Where the leaf entry of an address lies, with its level. -/
def leafPlace (m : Table Byte) (va : Nat) : Nat → Nat → Nat → Option (Nat × Nat)
  | 0, _, _ => none
  | fuel + 1, level, table =>
    let at_ := table + 8 * levelIndex level va
    let e := readNat m at_ 8
    if !entryOk level e then none
    else if bit e 1 then some (at_, level)
    else leafPlace m va fuel (level + 1) (bits e 55 15 * 2 ^ 15)

/-- A leaf that the control core may move: a 32 KiB page of this module without NOMIG. -/
def mayMove (e : Nat) : Bool := entryOk 3 e && leafInRange e && bits e 7 6 == 0 && !bit e 10 && !bit e 8

/-- The entries to be rewritten for a move of the page at an address, with the old physical address: one, or the 64 of a
run. -/
def moveEntries (m : Table Byte) (root va : Nat) : Option (List (Nat × Nat) × Nat) :=
  match leafPlace m va 4 0 root with
  | some (at_, 3) =>
    let e := readNat m at_ 8
    if !bit e 5 then (if mayMove e then some ([(at_, e)], bits e 55 15 * 2 ^ 15) else none)
    else
      let base := at_ - 8 * (levelIndex 3 va % 64)
      let run := runMembers m base
      if runOk run && run.all fun x => mayMove x.2 then
        some (run.map fun x => (base + 8 * x.1, x.2), bits (readNat m base 8) 55 15 * 2 ^ 15)
      else none
  | _ => none

/-- The tier of a physical address: HBM or capacity. -/
def inHbm (pa : Nat) : Bool := decide (pa < 2 ^ 40)

/-- The history of a page that moves goes with it; what the new place held before is no value of the page. -/
def movePast (old new n : Nat) (p : Past) : Past :=
  if new ≤ p.key ∧ p.key < new + n then { p with old := [] }
  else if old ≤ p.key ∧ p.key < old + n then { p with key := p.key - old + new }
  else p

/-- Whether two ranges of the given places and lengths have a byte in common. -/
def meet (a n b k : Nat) : Bool := decide (a < b + k) && decide (b < a + n)

/-- The leaf entries of a move that are still as step 1 left them, written anew by `f` of the index of their page. -/
def rewrite (s : State) (m : PageMove) (f : Nat → Nat → Nat) : State :=
  (m.es.zip (List.range m.es.length)).foldl (fun s x =>
    let e := readNat s.mem x.1.1 8
    if bit e 8 && bits e 55 15 == bits x.1.2 55 15 then storeMem s x.1.1 (leBytes (f x.2 e) 8) else s) s

/-- Steps 2 and 3 of a move: copied, the entries rewritten; abandoned where the copy meets uncorrected data or a stack out of
service (08 R197, R198). The copy is a write of the new place (12 R294). -/
def movePages (s : State) (m : PageMove) : State :=
  let n := m.es.length * 2 ^ 15
  let hit := s.bad.filter fun w => decide (m.old ≤ w) && decide (w < m.old + n)
  if !hit.isEmpty || wordBad s m.old then
    rewrite (hit.foldl (fun s w => detect s w 8) s) m fun _ e => setBits e 8 8 0
  else
    let s1 := bumpWatches s m.new n
    rewrite { s1 with mem := copyRange s1.mem m.old m.new n, past := s1.past.map (movePast m.old m.new n),
                      bad := s1.bad.filter fun w => !(decide (m.new ≤ w) && decide (w < m.new + n)) } m
      fun i e => setBits (setBits e 55 15 (m.new / 2 ^ 15 + i)) 8 8 0

/-- The listed entries of a table of n bytes, each with its index. -/
def tableEntries (m : Table Byte) (table n : Nat) : List Nat :=
  ((m.filter fun e => decide (table ≤ e.1) && decide (e.1 < table + n)).map fun e => (e.1 - table) / 8).eraseDups

/-- The ranges of physical memory that the entries of a table name, as place and length: of the leaves (`true`) and of the
tables below (`false`). -/
def namedBy (m : Table Byte) : Nat → Nat → Nat → List (Bool × Nat × Nat)
  | 0, _, _ => []
  | fuel + 1, level, table =>
    (tableEntries m table (if level = 0 then 256 else 32768)).foldl (fun r i =>
      let e := readNat m (table + 8 * i) 8
      let pa := bits e 55 15 * 2 ^ 15
      if !entryOk level e then r
      else if !bit e 1 then (false, pa, 32768) :: namedBy m fuel (level + 1) pa ++ r
      else if bits e 7 6 == 0 then (true, pa, if level = 2 then 2 ^ 27 else 2 ^ 15) :: r
      else r) []

/-- What all contexts name of physical memory. -/
def named (s : State) : List (Bool × Nat × Nat) := s.ctxs.flatMap fun C => (false, C.2.root, 256) :: namedBy s.mem 4 0 C.2.root

/-- The leaves of all contexts that map a page of a range: the control core moves a page only where the entries that it
rewrites are all that name it, so that no read can return another value (08 R197). -/
def leavesOf (s : State) (old n : Nat) : Nat := ((named s).filter fun x => x.1 && meet old n x.2.1 x.2.2).length

/-- Whether a range of physical memory is free: no context names a part of it, no move is under way there, no capture store
holds it (DEDUCED, log entry 73). -/
def freeRange (s : State) (pa n : Nat) : Bool :=
  (named s).all (fun x => !meet pa n x.2.1 x.2.2) &&
  s.moves.all (fun m => !meet pa n m.new (m.es.length * 2 ^ 15)) &&
  s.captures.all fun c => !meet pa n c.2.base c.2.len

/-- The first virtual page of the move of an address whose entries are so many: of a page, or of a run. -/
def moveFirst (n va : Nat) : Nat := if n = 1 then va / 2 ^ 15 else va / 2 ^ 21 * 64

/-- Step 1 of a move: MIG set in the leaf entries, and the range invalidated. -/
def startMove (s : State) (m : PageMove) : State :=
  let s1 := m.es.foldl (fun s x => storeMem s x.1 (leBytes (setBits x.2 8 8 1) 8)) s
  invalidated { s1 with moves := s1.moves ++ [m] } m.ctx m.first m.es.length

/-- The move under way of a context's page. -/
def moveAt (s : State) (ctx va : Nat) : Option PageMove :=
  s.moves.find? fun m => m.ctx == ctx && decide (m.first ≤ va / 2 ^ 15) && decide (va / 2 ^ 15 < m.first + m.es.length)

/-- PAGE_MIGRATION: step 1 of a move between the tiers, to the free page that firmware chose; for a page of a move under way
the later steps, once every write that was translated before step 1 is performed. -/
def execPageMigration (ctx va newPa : Nat) (s : State) : Host.Outcome State Fault Refusal :=
  match moveAt s ctx va with
  | some m =>
    if translated s fun _ _ k => decide (m.old ≤ k) && decide (k < m.old + m.es.length * 2 ^ 15) then .next s
    else .next (invalidated { movePages s m with moves := s.moves.filter fun x => x != m } ctx m.first m.es.length)
  | none => match tfind s.ctxs ctx with
    | none => .next s
    | some C => match moveEntries s.mem C.root va with
      | none => .next s
      | some (es, old) =>
        let n := es.length * 2 ^ 15
        if newPa % n != 0 || deviceTop < newPa + n || inHbm newPa == inHbm old || leavesOf s old n != es.length
            || !freeRange s newPa n then .next s
        else .next (startMove s { ctx := ctx, first := moveFirst es.length va, es := es, old := old, new := newPa })

/-! ### Hotness -/

/-- HOTNESS_EPOCH: at the end of an epoch every counter of a die is halved. -/
def execHotnessEpoch (die : Nat) (s : State) : Host.Outcome State Fault Refusal :=
  let D := dieOf s die
  if s.gt < D.halved + D.epoch ∨ 8 ≤ die then .next s
  else .next (modDie s die fun D =>
    { D with halved := s.gt, hot := D.hot.foldl (fun h e => tset 0 h e.1 (e.2 / 2)) [] })

/-! ### Soft errors -/

/-- A corrected error is counted for its die, and noted with the packets that run in captured contexts (18 R420). -/
def corrected (s : State) (die : Nat) : State :=
  let A := tget ({} : Ageing) s.sup.ageing die
  let s1 := { s with sup := { s.sup with ageing := tput s.sup.ageing die { A with cecnt := (A.cecnt + 1) % 2 ^ 32 },
                                         log := s.sup.log ++ [(4, die, s.gt)] } }
  s1.ctxs.foldl (fun s c => noteEvents s c.1 (fun p => p.began.isSome && p.ended.isNone) 64) s1

/-- One more place in a list of struck places. -/
def withWord {α : Type} [DecidableEq α] (l : List α) (w : α) : List α := if l.contains w then l else w :: l

/-- Words of memory that become uncorrectable; each is detected anew. -/
def markBad (s : State) (ws : List Nat) : State :=
  { s with bad := ws.foldl withWord s.bad,
           sup := { s.sup with found := s.sup.found.filter fun w => !ws.contains w } }

/-- The four words that one ECC code of HBM or the capacity tier protects (08 R205). -/
def eccBlock (pa : Nat) : List Nat := (List.range 4).map fun i => pa / 32 * 32 + 8 * i

/-- SOFT_ERROR: one symbol in error is corrected, more are detected by the access that meets them: a block of 32 bytes in
memory, a word in a line of an L2 or a remote-data cache. In the page-walk caches an uncorrectable entry lasts until it is
dropped. -/
def execSoftError (at_ : Struck) (symbols : Nat) (s : State) : Host.Outcome State Fault Refusal :=
  if symbols = 0 then .next s
  else match at_ with
    | .memory pa =>
      let w := pa / 8 * 8
      let die := homeDie w
      if deviceTop ≤ w then .next s
      else if symbols = 1 then
        let s1 := corrected s die
        .next (if inHbm w then { s1 with sup := { s1.sup with stackCe := tput s1.sup.stackCe (w / 2 ^ 36) (tget 0 s1.sup.stackCe (w / 2 ^ 36) + 1) } } else s1)
      else .next (markBad { s with lineBad := s.lineBad.filter fun x => !(eccBlock w).contains x } (eccBlock w))
    | .line die key =>
      let w := key / 8 * 8
      if 8 ≤ die ∨ (deviceTop ≤ w ∧ (w < 2 ^ 60 ∨ 2 ^ 62 ≤ w)) then .next s
      else if symbols = 1 then .next (corrected s die)
      else if w < deviceTop ∧ homeDie w = die then .next (markBad { s with lineBad := withWord s.lineBad w } [w])
      else .next { s with copyBad := withWord s.copyBad (die, w), sup := { s.sup with found := s.sup.found.filter fun x => x != w } }
    | .landing t off =>
      let T := teamOf s t
      let w := off / 8 * 8
      if (tfind s.teams t).isNone || !inPlace T || decide (T.lsz ≤ w) then .next s
      else if symbols = 1 then .next (corrected s T.die)
      else .next (modTeam s t fun T => { T with landBad := withWord T.landBad w })
    | .row t g row =>
      let T := teamOf s t
      if (tfind T.groups g).isNone || !inPlace T then .next s
      else if symbols = 1 then .next (corrected s T.die)
      else .next (modGroup s t g fun G => { G with rowBad := withWord G.rowBad row })
    | .cleanCopy die => .next (corrected s die)
    | .walkCache die pa =>
      let w := pa / 8 * 8
      if symbols = 1 then .next (corrected s die)
      else .next { s with walkBad := withWord s.walkBad (die, w) }

/-- PATROL_SCRUB: every uncorrectable word of device memory is detected. -/
def execPatrolScrub (s : State) : Host.Outcome State Fault Refusal := .next (s.bad.foldl (fun s w => detect s w 8) s)

/-- HBM_STACK_FAULT: a stack goes out of service; accesses that meet it then see memory faults. -/
def execHbmStackFault (stack : Nat) (s : State) : Host.Outcome State Fault Refusal :=
  if 16 ≤ stack ∨ s.downStacks.contains stack then .next s
  else .next { s with downStacks := s.downStacks ++ [stack], sup := { s.sup with log := s.sup.log ++ [(3, stack, s.gt)] } }

/-! ### The accounting snapshot -/

/-- The resident 32 KiB pages that a table maps, in HBM and in the capacity tier. -/
def pagesUnder (m : Table Byte) : Nat → Nat → Nat → Nat × Nat
  | 0, _, _ => (0, 0)
  | fuel + 1, level, table =>
    (tableEntries m table (if level = 0 then 256 else 32768)).foldl (fun r i =>
      let e := readNat m (table + 8 * i) 8
      if !entryOk level e then r
      else if bit e 1 then
        let k := if level = 2 then 4096 else 1
        if bits e 7 6 != 0 || !leafInRange e then r
        else if inHbm (bits e 55 15 * 2 ^ 15) then (r.1 + k, r.2) else (r.1, r.2 + k)
      else
        let x := pagesUnder m fuel (level + 1) (bits e 55 15 * 2 ^ 15)
        (r.1 + x.1, r.2 + x.2)) (0, 0)

/-- Every live counter of a context copied at one tick. -/
def takeSnap (s : State) (ctx : Nat) : State :=
  modCtx s ctx fun C =>
    let p := pagesUnder s.mem 4 0 C.root
    let w := fun (n : Nat) => n % 2 ^ 64
    { C with snap := [w C.gticks, w C.rbticks, w C.lgticks, w C.epass, w C.msteps, p.1 % 2 ^ 32, p.2 % 2 ^ 32, s.gt % 2 ^ 64] }

/-- SNAP. -/
def execSnap (ctx : Nat) (s : State) : Host.Outcome State Fault Refusal := .next (takeSnap s ctx)

end Sys2Proof.Machine
end

