-- ==== Sys2Proof/Machine/Contexts.lean ====
section
/-! DEFINITION. The context descriptor: its fields and the checks of its creation (16 R367, R368), and the request to
resume a context (16 R380, R389). -/

namespace Sys2Proof.Machine

/-- Whether a policy of TRAPPOL is SKIP for a kind that may not be skipped (16 R368). -/
def skipBad (x : Nat) : Bool :=
  (List.range 13).any fun j => decide (j < 11) && bits x (320 + 2 * j + 1) (320 + 2 * j) == 1

/-- The reserved bits of a descriptor (16 R367). -/
def descReserved (x : Nat) : Bool :=
  [(63, 56), (127, 120), (191, 188), (255, 248), (309, 308), (351, 346), (415, 408), (1023, 433)].any
    fun r => bits x r.1 r.2 != 0

/-- The checks of 16 R368 but for a number already in use. -/
def ctxDescBad (x : Nat) : Bool :=
  let wl := bits x 293 288
  let hl := bits x 299 294
  let pml := bits x 304 300
  let flogl := bits x 187 184
  descReserved x || decide (wl < 16) || decide (44 < wl) || decide (hl < 16) || decide (44 < hl) || decide (pml < 10)
    || decide (30 < pml) || decide (flogl < 6) || bits x 307 306 == 3 || skipBad x
    || bits x 7 0 != 0 || decide (deviceTop ≤ bits x 55 0) || bits x 78 64 != 0 || bits x 139 128 != 0
    || bits x 203 192 != 0 || bits x 353 352 != 0

/-- CTXNUM of a descriptor. -/
def descNum (x : Nat) : Nat := bits x 319 310

/-- A context with a descriptor's fields (16 R367). -/
def applyDesc (x : Nat) (C : Ctx) : Ctx :=
  { C with root := bits x 55 0, ctbase := bits x 119 64, flogBase := bits x 183 128, flogL := bits x 187 184,
           saveBase := bits x 247 192, saveLen := bits x 287 256, wl := bits x 293 288, hl := bits x 299 294,
           pml := bits x 304 300, demand := bit x 305, prepol := bits x 307 306, trappol := bits x 345 320,
           handler := bits x 407 352, ivec := bits x 431 416, iport := bits x 432 432 }

/-- The teams of a context, by number. -/
def teamsOf (s : State) (c : Nat) : List (Nat × Team) := s.teams.filter fun e => e.2.ctx == c && !e.2.ctl

/-- Whether a team waits in the save area. -/
def isSaved (T : Team) : Bool :=
  match T.away with
  | .saved _ => true
  | _ => false

/-- Whether a team waits in the save area, or is being restored from it. -/
def isAbsent (T : Team) : Bool :=
  match T.away with
  | .saved _ | .restoring _ _ => true
  | _ => false

/-- A context whose last saved team has been restored runs again (16 R389). -/
def endResume (s : State) (c : Nat) : State :=
  if (ctxOf s c).sstate = 3 ∧ !((teamsOf s c).any fun e => isAbsent e.2) then
    traceOut { modCtx s c (fun C => { C with sstate := 0 }) with free := s.free + 1 } (Config.traceDie s.free % 8) s.gt
      { type := 8, ctx := c }
  else s

/-- A resume request: the descriptor is read again, and the saved teams wait to be placed (16 R367, R369, R389). A
descriptor that creation would refuse leaves the context as it is. -/
def askResume (s : State) (c : Nat) : State :=
  let C := ctxOf s c
  let x := readNat s.mem C.desc 128
  if !(C.sstate == 2 || C.sstate == 4) || ctxDescBad x || descNum x != c || meetsBad s C.desc 128 false then s
  else endResume (modCtx s c fun C =>
    { applyDesc x C with sstate := 3, susReq := none, maskTicks := 0, overrun := false, taking := false, preBy := none }) c

end Sys2Proof.Machine
end

