-- ==== Sys2Proof/Machine/Packets.lean ====
section
/-! DEFINITION. Packets: acceptance, beginning and end (15 R355–R359), BARRIER-AND, SIGNAL, MARKER and RASTER packets
(15 R358, 13 R330, R331), and the record that a replayed launch leaves (18 R421, R422). -/

namespace Sys2Proof.Machine

def packetOf (s : State) (q i : Nat) : Option Packet := tfind (queueOf s q).pkts i
def modPacket (s : State) (q i : Nat) (f : Packet → Packet) : State :=
  modQueue s q fun Q => { Q with pkts := tmod Q.pkts i f }

/-! ### The fields of a packet (15 R355, R358, R360) -/

def pktType (x : Nat) : Nat := bits x 7 0
def pktBar (x : Nat) : Bool := bit x 8
def pktIdem (x : Nat) : Bool := bit x 9
def pktOrds (x : Nat) : Bool := bit x 10
def pktSig (x : Nat) : Nat := bits x 127 64

/-- The five signal addresses of a BARRIER-AND. -/
def barSignals (x : Nat) : List Nat := (List.range 5).map fun k => bits x (128 + 64 * k + 63) (128 + 64 * k)

/-- The causes of reason 1 (15 R359). -/
def packetBad (x : Nat) : Bool :=
  let t := pktType x
  !headerOk x || bits x 62 15 != 0 || pktSig x % 8 != 0
    || (t == 1 && (bits x 511 502 != 0 || decide (2 ^ 32 < bits x 223 192 * bits x 255 224 * bits x 287 256)
          || (bit x 501 && !pktIdem x)))
    || (t == 2 && (bits x 511 448 != 0 || (barSignals x).any fun a => a % 8 != 0))
    || (t == 3 && (bits x 511 264 != 0 || decide (2 < bits x 263 256) || bits x 191 128 % 8 != 0))
    || (t == 4 && bits x 511 352 != 0)

/-! ### Checksums and result records (18 R421, R422) -/

/-- The destination checksum of a launch: one term for each word it wrote, with the word's value now. -/
def launchSum (s : State) (ctx launch : Nat) : Nat :=
  match tfind s.captures ctx with
  | none => 0
  | some K => sumOf ((K.wrote.filter fun w => w.1 == launch).filterMap fun w =>
      (whereIs s ctx w.2).map fun k => (w.2, readNat s.mem k 4))

/-- The events of one list that the other lacks, and the other way round, counted. -/
def eventDiff : List Nat → List Nat → Nat
  | [], ys => ys.length
  | x :: xs, ys => if ys.contains x then eventDiff xs (ys.erase x) else 1 + eventDiff xs ys

/-- The 64-byte result record of a replayed launch (18 R422). -/
def resultRecord (cap run : CapPkt) : List Byte :=
  let res := if pktOrds cap.raw then 2 else if cap.failed != run.failed then 3 else if cap.sum != run.sum then 1 else 0
  leBytes (pack [(64, cap.idx), (12, cap.queue), (2, res), (50, 0), (64, cap.sum), (64, run.sum), (64, 0), (64, 0),
    (32, eventDiff cap.events run.events), (96, 0)]) 64

/-- The end of a packet in a list of captured ones. -/
def endCap (q i now sum : Nat) (failed : Bool) (l : List CapPkt) : List CapPkt :=
  l.map fun p => if p.queue == q && p.idx == i && p.ended.isNone then
    { p with ended := some now, failed := failed, sum := sum } else p

/-- What capture and replay note at the end of a packet; a launch that is replayed leaves a record (18 R420, R422). -/
def noteEnd (s : State) (ctx q i : Nat) (P : Packet) (failed : Bool) : State :=
  let sum := match P.launch with
    | some L => launchSum s ctx L.id
    | none => 0
  let s1 := if P.replay.isNone then capChange s ctx (fun p => p.queue == q && p.idx == i && p.ended.isNone)
      fun p => { p with ended := some s.gt, failed := failed, sum := sum } else s
  match P.replay with
  | none => s1
  | some n =>
    let R := tget ({} : Replay) s1.replays ctx
    let run := endCap q i s.gt sum failed R.run
    let a := R.cap.getD n {}
    let b := run.getD n {}
    let last := run.all fun p => p.ended.isSome
    if pktType P.raw = 1 then
      let rec_ := resultRecord a b
      let s2 := storeMem s1 (R.result + 64 * R.records) rec_
      { s2 with replays := tput s2.replays ctx { R with run := run, records := R.records + 1, state := if last then 2 else 1,
                                                        diverged := R.diverged + (if bits (leNat rec_) 77 76 = 1 then 1 else 0) } }
    else { s1 with replays := tput s1.replays ctx { R with run := run, state := if last then 2 else 1 } }

/-! ### The end of a packet (15 R358, R359) -/

/-- F, the failure value of a signal (15 R358). -/
def failValue : Nat := 2 ^ 63

/-- A packet-failure entry of the fault log (15 R359, 16 R378). -/
def logPacket (s : State) (ctx q i reason : Nat) : State :=
  (logAppend s ctx 5 { queue := q, pkt := i, engine := reason % 16, kind := reason / 16 } []).1

/-- The signal step of an ending packet: none where it waits for a migrating page, else the state and the reason. -/
def signalStep (s : State) (ctx sig reason : Nat) : Option (State × Nat) :=
  if sig = 0 ∨ sig % 8 ≠ 0 then some (s, reason)
  else match sysAtomic s ctx sig (fun v => if reason = 0 then v + 2 ^ 64 - 1 else failValue) with
    | .ok s1 => some (s1, reason)
    | .hold => none
    | .fail k a => some (detectAt s ctx (kindCode k) a, 7)

/-- The contexts that a launch had pre-empted resume at its end (16 R380). -/
def resumeAfter (s : State) (q i : Nat) : State :=
  s.ctxs.foldl (fun s c => if c.2.preBy = some (q, i) then askResume s c.1 else s) s

/-- A packet whose effects are done ends (15 R358): the queue is examined next (15 R356). -/
def endPacket (s : State) (q i : Nat) : State :=
  match packetOf s q i with
  | none => s
  | some P =>
    match P.fin with
    | none => s
    | some reason =>
      let ctx := (queueOf s q).ctx
      match signalStep s ctx (pktSig P.raw) reason with
      | none => s
      | some (s1, r) =>
        let s2 := if r = 0 then s1 else noteEvent (logPacket s1 ctx q i r) ctx q i (32 + r)
        let s3 := noteEnd s2 ctx q i P (r != 0)
        let s4 := traceOut { s3 with free := s3.free + 1 } (Config.traceDie s3.free % 8) s3.gt { type := 3, ctx := ctx, queue := q, pc := i }
        resumeAfter (modQueue s4 q fun Q => { Q with pkts := tdel Q.pkts i, notified := true }) q i

/-- A packet fails with a reason (15 R359). -/
def failPacket (s : State) (q i reason : Nat) : State :=
  endPacket (modPacket s q i fun P => { P with fin := some reason }) q i

/-- PACKET_COMPLETE. -/
def execPacketComplete (q i : Nat) (s : State) : Host.Outcome State Fault Refusal := .next (endPacket s q i)

/-! ### Acceptance (15 R357) -/

/-- An accepted packet is recorded where its context is captured (18 R420). -/
def notePacket (s : State) (ctx q i raw : Nat) : State :=
  match tfind s.captures ctx with
  | none => s
  | some K =>
    if K.state ≠ 1 then s
    else
      let p : CapPkt := { queue := q, idx := i, raw := raw }
      capStore s ctx K (capBytes p) fun at_ K => { K with pkts := K.pkts ++ [{ p with at_ := at_ }] }

/-- The packet of a slot whose header has been read; where bytes 8 to 63 meet a fault it is known by its header, with SIG
where that can be read, and `true` is answered (15 R359). None where they wait for a migration. -/
def slotBody (s : State) (ctx va head : Nat) : Option (State × Nat × Bool) :=
  match sysRead s ctx va 64 .rd with
  | .ok (s1, raw) => some (s1, raw, false)
  | .hold => none
  | .fail k a =>
    let s1 := detectAt s ctx (kindCode k) a
    match sysRead s1 ctx va 16 .rd with
    | .ok (s2, raw) => some (s2, raw, true)
    | .hold => none
    | .fail _ _ => some (s1, head, true)

/-- What a queue processor reads: the state after it, with what it detected, and the value, none where it meets a fault or
waits for a migration. -/
def queueSees (s : State) (ctx va n : Nat) : State × Option Nat :=
  match sysRead s ctx va n .rd with
  | .ok (s1, x) => (s1, some x)
  | .hold => (s, none)
  | .fail k a => (detectAt s ctx (kindCode k) a, none)

/-- What a queue processor writes: the state after it, with what it detected, and whether it is done. -/
def queuePuts (s : State) (ctx va : Nat) (bs : List Byte) : State × Bool :=
  match sysWrite s ctx va bs with
  | .ok s1 => (s1, true)
  | .hold => (s, false)
  | .fail k a => (detectAt s ctx (kindCode k) a, false)

/-- Tries to accept one packet: the state after it, and whether one was accepted. A header that cannot be read is no packet
yet (15 R357). -/
def acceptOne (s : State) (q : Nat) : State × Bool :=
  let Q := queueOf s q
  if !Q.live || decide (64 ≤ (Q.pkts.filter fun p => p.2.replay.isNone).length) then (s, false)
  else match queueSees s Q.ctx Q.hdr 8 with
    | (s1, none) => (s1, false)
    | (s1, some i) => match queueSees s1 Q.ctx (slotAddr Q i) 8 with
      | (s2, none) => (s2, false)
      | (s2, some head) =>
        if !bit head 63 then (s2, false)
        else match slotBody s2 Q.ctx (slotAddr Q i) head with
        | none => (s2, false)
        | some (s3, raw, lost) => match queuePuts s3 Q.ctx (slotAddr Q i) (leBytes (raw % 2 ^ 63) 8) with
          | (s4, false) => (s4, false)
          | (s4, true) => match queuePuts s4 Q.ctx Q.hdr (leBytes ((i + 1) % 2 ^ 64) 8) with
            | (s5, false) => (s5, false)
            | (s5, true) =>
              let s6 := modQueue (notePacket s5 Q.ctx q i raw) q fun Q => { Q with pkts := tput Q.pkts i { raw := raw } }
              (if lost then failPacket s6 q i 7 else if packetBad raw then failPacket s6 q i 1 else s6, true)

/-- Accept(Q), at most n packets. -/
def acceptMany (q : Nat) : Nat → State → State
  | 0, s => s
  | n + 1, s => match acceptOne s q with
    | (s1, true) => acceptMany q n s1
    | (s1, false) => s1

/-- The examination of a queue. -/
def examine (s : State) (q : Nat) : State :=
  if (queueOf s q).live then
    let s1 := modQueue s q fun Q => { Q with seen := s.gt, notified := false }
    acceptMany q 64 s1
  else s

/-- NOTIFY_WRITE: a write to the notify register of a queue (15 R356, 19 R424). -/
def execNotifyWrite (q : Nat) (s : State) : Host.Outcome State Fault Refusal := .next (examine s q)

/-- QUEUE_EXAMINE (15 R356). -/
def execQueueExamine (q : Nat) (s : State) : Host.Outcome State Fault Refusal := .next (examine s q)

/-! ### Beginning (15 R358) -/

/-- Whether packet j of a queue stands before packet i (15 R354: indices count modulo 2⁶⁴). -/
def before (j i : Nat) : Bool := j != i && decide ((i + 2 ^ 64 - j) % 2 ^ 64 < 2 ^ 63)

/-- Whether a packet's BAR condition and its place in the queue let it begin: those before it have begun, and with BAR have
ended; a replayed packet counts as BAR and follows the captured order of begins (18 R422). -/
def packetReady (s : State) (q i : Nat) : Bool :=
  let Q := queueOf s q
  match tfind Q.pkts i with
  | none => false
  | some P =>
    let bar := pktBar P.raw || P.replay.isSome
    let own := Q.pkts.all fun p => !before p.1 i || (p.2.begun && !bar)
    let order := match P.replay with
      | none => true
      | some n => s.queues.all fun e => e.2.ctx != Q.ctx || e.2.pkts.all fun p => match p.2.replay with
        | some m => decide (n ≤ m) || p.2.begun
        | none => true
    !P.begun && P.fin.isNone && own && order

/-- Whether a packet of a type may begin: a LAUNCH only where no launch of a higher priority is ready (15 R358, R362). -/
def mayBegin (s : State) (q i type : Nat) : Bool :=
  let higher := type == 1 && s.queues.any fun e => decide ((queueOf s q).prio < e.2.prio) &&
    e.2.pkts.any fun p => pktType p.2.raw == 1 && packetReady s e.1 p.1
  packetReady s q i && pktType (((packetOf s q i).getD {}).raw) == type && !higher

/-- Whether a captured packet is the one of an index of a queue, and has not begun. -/
def capWaits (q i : Nat) (p : CapPkt) : Bool := p.queue == q && p.idx == i && p.began.isNone

/-- A packet begins. -/
def beginPacket (s : State) (q i : Nat) : State :=
  let ctx := (queueOf s q).ctx
  let start := fun (p : CapPkt) => { p with began := some s.gt }
  let s0 := modPacket s q i fun P => { P with begun := true }
  let s1 := if ((packetOf s q i).getD {}).replay.isNone then capChange s0 ctx (capWaits q i) start else s0
  let s2 := { s1 with
    replays := tmod s1.replays ctx fun R => if R.state = 1 then { R with run := R.run.map fun p => if capWaits q i p then start p else p } else R,
    free := s1.free + 1 }
  traceOut s2 (Config.traceDie s.free % 8) s.gt { type := 2, ctx := ctx, queue := q, pc := i }

/-- The effects of a packet are done: it completes next. -/
def finishPacket (s : State) (q i : Nat) : State := modPacket s q i fun P => { P with fin := some 0 }

/-- MARKER. -/
def execMarker (q i : Nat) (s : State) : Host.Outcome State Fault Refusal :=
  if !mayBegin s q i 5 then .next s
  else
    let s1 := beginPacket s q i
    .next (finishPacket (traceOut { s1 with free := s1.free + 1 } (Config.traceDie s1.free % 8) s1.gt
      { type := 4, ctx := (queueOf s q).ctx, queue := q, pc := i }) q i)

/-- The new value of a SIGNAL's target (15 R358). -/
def signalValue (op v old : Nat) : Nat := if op = 0 then v else if op = 1 then old + v else old + 2 ^ 64 - v

/-- SIGNAL: one atomic on its target. -/
def execSignal (q i : Nat) (s : State) : Host.Outcome State Fault Refusal :=
  if !mayBegin s q i 3 then .next s
  else
    let x := ((packetOf s q i).getD {}).raw
    let ctx := (queueOf s q).ctx
    match sysAtomic s ctx (bits x 191 128) (signalValue (bits x 263 256) (bits x 255 192)) with
    | .hold => .next s
    | .fail k a => .next (failPacket (beginPacket (detectAt s ctx (kindCode k) a) q i) q i 7)
    | .ok s1 => .next (finishPacket (beginPacket s1 q i) q i)

/-- BARRIER_AND: the packet begins to wait. -/
def execBarrierAnd (q i : Nat) (s : State) : Host.Outcome State Fault Refusal :=
  if mayBegin s q i 2 then .next (beginPacket s q i) else .next s

/-- The named signals' values, each read at system scope, none where a read meets a fault; with the state after them. -/
def readSignals (ctx : Nat) : List Nat → State → State × Option (List Nat)
  | [], s => (s, some [])
  | a :: as, s =>
    if a = 0 then readSignals ctx as s
    else match sysRead s ctx a 8 .rd with
      | .ok r => let x := readSignals ctx as r.1; (x.1, x.2.map fun l => r.2 :: l)
      | .hold => let x := readSignals ctx as s; (x.1, x.2.map fun l => 1 :: l)
      | .fail k at_ => (detectAt s ctx (kindCode k) at_, none)

/-- BARRIER_AND_COMPLETE: one reading of the signals of a packet that waits (15 R358). -/
def execBarrierAndComplete (q i : Nat) (s : State) : Host.Outcome State Fault Refusal :=
  match packetOf s q i with
  | none => .next s
  | some P =>
    if !P.begun || P.fin.isSome || pktType P.raw != 2 then .next s
    else match readSignals (queueOf s q).ctx (barSignals P.raw) s with
      | (s1, none) => .next (failPacket s1 q i 7)
      | (s1, some vs) =>
        if vs.any fun v => bit v 63 then .next (failPacket s1 q i 9)
        else if vs.all fun v => v == 0 then .next (finishPacket s1 q i)
        else .next s1

/-! ### RASTER (13 R330, R331) -/

/-- A coordinate snapped to 1/256 pixel, none for one that is no finite number. -/
def snap (w : Nat) : Option Int :=
  let x := ofF32 w
  if exFinite x then some (roundInt .rne (exScale x 8)) else none

/-- Twice the signed area of the triangle a, b, p. -/
def edge (a b p : Int × Int) : Int := (b.1 - a.1) * (p.2 - a.2) - (b.2 - a.2) * (p.1 - a.1)

/-- Whether an edge of a triangle whose area is positive is a top or a left edge; rows go downwards. -/
def topLeft (a b : Int × Int) : Bool := (decide (b.2 = a.2) && decide (a.1 < b.1)) || decide (b.2 < a.2)

/-- Whether a point is inside an edge, or on one that counts. -/
def insideEdge (a b p : Int × Int) : Bool := decide (0 < edge a b p) || (decide (edge a b p = 0) && topLeft a b)

/-- A triangle of a RASTER packet: its snapped corners, turned so that its area is positive, with their depths. -/
structure Tri where
  a : Int × Int
  b : Int × Int
  c : Int × Int
  da : Ex
  db : Ex
  dc : Ex
  ident : Nat

/-- A triangle from its ten words, none where it covers nothing. -/
def triOf (w : List Nat) : Option Tri :=
  let at_ := fun i => w.getD i 0
  match snap (at_ 0), snap (at_ 1), snap (at_ 3), snap (at_ 4), snap (at_ 6), snap (at_ 7) with
  | some x0, some y0, some x1, some y1, some x2, some y2 =>
    let d := fun i => ofF32 (at_ i)
    let area := edge (x0, y0) (x1, y1) (x2, y2)
    if area = 0 then none
    else if 0 < area then some { a := (x0, y0), b := (x1, y1), c := (x2, y2), da := d 2, db := d 5, dc := d 8, ident := at_ 9 }
    else some { a := (x0, y0), b := (x2, y2), c := (x1, y1), da := d 2, db := d 8, dc := d 5, ident := at_ 9 }
  | _, _, _, _, _, _ => none

/-- The centre of a pixel, in 1/256 pixels. -/
def centre (x y : Nat) : Int × Int := (256 * (x : Int) + 128, 256 * (y : Int) + 128)

def covers (t : Tri) (p : Int × Int) : Bool := insideEdge t.a t.b p && insideEdge t.b t.c p && insideEdge t.c t.a p

/-- The depth at a point: the exact plane through the corners, rounded once; free where a corner's depth is no finite
number. -/
def depthAt (n : Nat) (t : Tri) (p : Int × Int) : Nat :=
  if exFinite t.da && exFinite t.db && exFinite t.dc then
    let part := fun (e : Int) (d : Ex) => exMul (exInt e) d
    let sum := exAdd false (exAdd false (part (edge t.b t.c p) t.da) (part (edge t.c t.a p) t.db)) (part (edge t.a t.b p) t.dc)
    toF32 .rne (exDiv sum (exInt (edge t.a t.b t.c)))
  else (Config.rasterDepth n).toNat

/-- The pixels of one axis, n of them, whose centres lie between two bounds. -/
def pixelsIn (n : Nat) (lo hi : Int) : List Nat :=
  let first := ((lo - 128) / 256).toNat
  ((List.range (((hi - lo) / 256).toNat + 2)).map fun k => first + k).filter fun x =>
    decide (x < n) && decide (lo ≤ 256 * (x : Int) + 128) && decide (256 * (x : Int) + 128 ≤ hi)

/-- The pixels that a triangle covers in a buffer of some width and height. -/
def coveredPixels (t : Tri) (w h : Nat) : List (Nat × Nat) :=
  let xs := pixelsIn w (min t.a.1 (min t.b.1 t.c.1)) (max t.a.1 (max t.b.1 t.c.1))
  let ys := pixelsIn h (min t.a.2 (min t.b.2 t.c.2)) (max t.a.2 (max t.b.2 t.c.2))
  (ys.flatMap fun y => xs.map fun x => (x, y)).filter fun q => covers t (centre q.1 q.2)

/-- The engine that runs a RASTER packet of a context, for the data comparators (18 R417); its die is left free (log entry 71). -/
def rasterWho (s : State) (ctx : Nat) : Who := { ctx := ctx, die := Config.traceDie s.free % 8, engine := true }

/-- Updates of visibility words by the minimum rule (13 R330): addresses and values. With the state, whether a write
waits for a migrating page, and whether a fault ended the updates. -/
def minWords (ctx : Nat) : List (Nat × Nat) → State → State × Bool × Bool
  | [], s => (s, false, false)
  | (va, v) :: rest, s =>
    match translate s ctx (asks s ioDie) va .rw (some 0) with
    | .fail k => (detectAt s ctx (kindCode k) va, false, true)
    | .hold => (s, true, false)
    | .key k =>
      if meetsBad s k 8 false then (detect s k 8, false, true)
      else
        let s0 := compareData (compareData s (rasterWho s ctx) va 8 false) (rasterWho s ctx) va 8 true
        let s1 := readCaptured s0 ctx va k 8
        minWords ctx rest (storeMem s1 k (leBytes (min (readNat s1.mem k 8) v) 8))

/-- The ten words of a triangle at an address. -/
def readTriangle (s : State) (ctx va : Nat) : Span (State × List Nat) :=
  match spanKeys s ctx ioDie .rd none (cutPages va 2 40) with
  | .fail k a => .fail k a
  | .hold => .hold
  | .ok ps => match spanBad s ioDie ps false with
    | some a => .fail .uncorrected a
    | none => .ok (ps.foldl (fun s p => readCaptured (compareData s (rasterWho s ctx) p.1 p.2.2 false) ctx p.1 p.2.1 p.2.2) s,
        words4 (ps.flatMap fun p => readBytes s.mem p.2.1 p.2.2))

/-- The updates that a triangle makes in a buffer. -/
def triangleWords (n : Nat) (tr : List Nat) (buf w h pitch : Nat) : List (Nat × Nat) :=
  match triOf tr with
  | none => []
  | some t => (coveredPixels t w h).map fun q =>
      (buf + 8 * (pitch * q.2 + q.1), t.ident + 2 ^ 32 * depthAt n t (centre q.1 q.2))

/-- The n triangles of a RASTER packet from an address on, in array order: each is read, then its updates are made. -/
def rasterAll (ctx buf w h pitch : Nat) : Nat → Nat → State → State × Bool × Bool
  | 0, _, s => (s, false, false)
  | n + 1, va, s =>
    match readTriangle s ctx va with
    | .fail k _ => (detectSpans s ctx k (cutPages va 2 40), false, true)
    | .hold => (s, true, false)
    | .ok (s0, tr) =>
      match minWords ctx (triangleWords s0.free tr buf w h pitch) s0 with
      | (s1, false, false) => rasterAll ctx buf w h pitch n (va + 40) { s1 with free := s1.free + 1 }
      | r => r

/-- RASTER. A fault fails the packet with reason 7, after the updates made before it; a write that a migration holds
delays the whole. -/
def execRaster (q i : Nat) (s : State) : Host.Outcome State Fault Refusal :=
  if !mayBegin s q i 4 then .next s
  else
    let x := ((packetOf s q i).getD {}).raw
    let ctx := (queueOf s q).ctx
    match rasterAll ctx (bits x 287 224) (bits x 303 288) (bits x 319 304) (bits x 351 320) (bits x 223 192) (bits x 191 128) s with
    | (_, true, _) => .next s
    | (s1, false, true) => .next (failPacket (beginPacket s1 q i) q i 7)
    | (s1, false, false) => .next (finishPacket (beginPacket s1 q i) q i)

end Sys2Proof.Machine
end

