-- ==== Sys2Proof/Machine/Place.lean ====
section
/-! DEFINITION. Launches and teams: the kernel descriptor and the checks of a LAUNCH (15 R359–R361, 17 R401, R402, R407),
dealing (15 R362), placement on a core (05 R116, R117, 07 R172, R178, 11 R261, 15 R363), exit (04 R101, 07 R176), and the
compactor (05 R118, 07 R177). -/

namespace Sys2Proof.Machine

/-! ### Kernel descriptors (17 R401, R407) -/

def noEntry : Nat := 0xFFFFFFFF
def kdPEntry (k : Nat) : Nat := bits k 31 0
def kdCEntry (k : Nat) : Nat := bits k 63 32
def kdPQ (k : Nat) : Nat := bits k 73 64
def kdCQ (k : Nat) : Nat := bits k 83 74
def kdLand (k : Nat) : Nat := bits k 103 84
def kdBars (k : Nat) : Nat := bits k 108 104
def kdTiles (k : Nat) : Nat := bits k 113 109
def kdVcd (k : Nat) : Nat := [0, 32, 64, 128].getD (bits k 115 114) 0
def kdBsz (k : Nat) : Nat := 4096 * bits k 140 128
def kdPsz (k : Nat) : Nat := 4096 * bits k 157 141

/-- Whether a kernel lies within the resource floor (17 R407). -/
def inFloor (k : Nat) : Bool :=
  decide (kdPQ k ≤ 128) && decide (kdCQ k ≤ 128) && decide (kdLand k ≤ 65536) && decide (kdBars k ≤ 8)
    && !bit k 164 && !bit k 165

/-- A descriptor with a reserved bit or a field outside its range (17 R401, R402, R407). -/
def kdBad (k : Nat) : Bool :=
  bits k 127 116 != 0 || bits k 159 158 != 0 || bits k 191 166 != 0 || bits k 511 224 != 0
    || decide (512 < kdPQ k) || decide (512 < kdCQ k) || decide (524288 < kdLand k) || kdBars k == 0
    || decide (16 < kdBars k) || decide (16 < kdTiles k) || decide (4096 < bits k 140 128)
    || decide (bits k 157 141 < bits k 140 128) || decide (65536 < bits k 157 141)
    || (kdPEntry k == noEntry && kdPQ k != 0) || decide (1 < bits k 163 160) || (bits k 163 160 == 0 && !inFloor k)

/-- Whether a role with lanes has an entry and registers in a descriptor. -/
def roleBad (lanes_ entry q : Nat) : Bool := decide (0 < lanes_) && (entry == noEntry || q == 0)

/-! ### The register blocks of a core (05 R116, 15 R361, R363) -/

/-- The groups of a role. -/
def groupsOf (lanes_ : Nat) : Nat := (lanes_ + 95) / 96

/-- B of 05 R116. -/
def blockOf (q : Nat) : Nat := if q ≤ 32 then 32 else if q ≤ 64 then 64 else if q ≤ 128 then 128 else if q ≤ 256 then 256 else 512

/-- A block held on a core: issue slot, group slot, first row, rows. -/
structure Held_ where
  slot : Nat
  gslot : Nat
  pb : Nat
  blk : Nat
  deriving DecidableEq, Repr

/-- The free rows of an issue slot. -/
def slotFree (occ : List Held_) (k : Nat) : Nat := 512 - (occ.filter fun h => h.slot == k).foldl (fun n h => n + h.blk) 0

/-- The lowest free aligned place of a size among held ranges, below a bound: of several free blocks the rules name none
(DESIGN CHOICE, log entry 87). -/
def buddyPlace (held : List (Nat × Nat)) (size bound : Nat) : Option Nat :=
  ((List.range (bound / size)).map (· * size)).find? fun b => held.all fun h => decide (h.1 + h.2 ≤ b) || decide (b + size ≤ h.1)

/-- The place that a slot gives a block, with a group slot. -/
def slotPlace (occ : List Held_) (k blk : Nat) : Option Held_ :=
  let here := occ.filter fun h => h.slot == k
  match (List.range 8).find? (fun g => !(here.any fun h => h.gslot == g)), buddyPlace (here.map fun h => (h.pb, h.blk)) blk 512 with
  | some g, some pb => some { slot := k, gslot := g, pb := pb, blk := blk }
  | _, _ => none

/-- The slot with the most free group-registers that can take a block, ties to the lowest (15 R363). -/
def bestPlace (occ : List Held_) (blk : Nat) : Option Held_ :=
  (List.range 4).foldl (fun best k => match best, slotPlace occ k blk with
    | none, r => r
    | some b, some h => if slotFree occ b.slot < slotFree occ k then some h else some b
    | some b, none => some b) none

/-- Groups in index order, each placed. -/
def placeGroups (occ : List Held_) : List Nat → Option (List Held_)
  | [] => some []
  | b :: bs => match bestPlace occ b with
    | none => none
    | some h => (placeGroups (occ ++ [h]) bs).map fun r => h :: r

/-- The same by sums of free rows alone, as if blocks could lie anywhere. -/
def sumGroups (free : List (Nat × Nat)) : List Nat → Bool
  | [] => true
  | b :: bs =>
    let best := free.foldl (fun (m : Option (Nat × Nat)) f =>
      if decide (b ≤ f.1) && decide (0 < f.2) then (match m with
        | some x => if x.1 < f.1 then some f else some x
        | none => some f) else m) none
    match best with
    | none => false
    | some f => sumGroups ((f.1 - b, f.2 - 1) :: free.erase f) bs

/-! ### The checks of a LAUNCH -/

/-- The blocks that a launch's groups need, in index order. -/
def blocksOf (x kd : Nat) : List Nat :=
  List.replicate (groupsOf (bits x 303 288)) (blockOf (kdPQ kd)) ++ List.replicate (groupsOf (bits x 319 304)) (blockOf (kdCQ kd))

/-- Whether p groups of one block size and c of another can stand on n issue slots, at most 8 groups and 512 group-registers
each: by the number of the first kind on a slot, with as many of the second as fit beside it (15 R361). -/
def fitSlots (bp bc : Nat) : Nat → Nat → Nat → Bool
  | 0, p, c => p == 0 && c == 0
  | n + 1, p, c => (List.range 9).any fun a =>
      decide (a ≤ p) && decide (a * bp ≤ 512) && fitSlots bp bc n (p - a) (c - min (8 - a) ((512 - a * bp) / bc))

/-- Whether the groups of a launch's team fit an empty core. -/
def fitsEmpty (x kd : Nat) : Bool :=
  fitSlots (blockOf (kdPQ kd)) (blockOf (kdCQ kd)) 4 (groupsOf (bits x 303 288)) (groupsOf (bits x 319 304))

/-- Granules of a landing block for a demand in bytes (07 R172). -/
def landBlock (bytes : Nat) : Nat :=
  let g := (bytes + 4095) / 4096
  if g = 0 then 0 else if g ≤ 1 then 1 else 2 ^ ((g - 1).log2 + 1)

/-- A context's memory over several pages, as a number; a fault, a hold. -/
def sysSpan (s : State) (ctx va n : Nat) : Span (State × Nat) :=
  match spanKeys s ctx ioDie .rd none (cutPages va 2 n) with
  | .fail k a => .fail k a
  | .hold => .hold
  | .ok ps => match spanBad s ioDie ps false with
    | some a => .fail .uncorrected a
    | none => .ok (ps.foldl (fun s p => readCaptured s ctx p.1 p.2.1 p.2.2) s, leNat (ps.flatMap fun p => readBytes s.mem p.2.1 p.2.2))

/-- The constant-bank descriptors of a table (07 R179). -/
def banksOf (x : Nat) : List Bank :=
  (List.range 16).map fun k => { base := bits x (128 * k + 63) (128 * k), len := bits x (128 * k + 95) (128 * k + 64) }

def bankBad (b : Bank) : Bool := b.base % 4 != 0 || b.len % 4 != 0

/-- Reasons 3 and 4 of 15 R359 for a packet and its kernel descriptor. -/
def launchReason34 (x kd : Nat) : Nat :=
  let pl := bits x 303 288
  let cl := bits x 319 304
  let n := groupsOf pl + groupsOf cl
  let regBad := fun (l r q : Nat) => (decide (0 < l) && r == 0) || decide (r < q) || decide (512 < r)
  let smin := bits x 496 493
  let smax := bits x 500 497
  let stage := (smin == 0 && smax == 0) || (decide (2 ≤ smin) && decide (smin ≤ smax) && decide (smax ≤ 8))
  if n = 0 ∨ 16 < n ∨ regBad pl (bits x 477 468) (kdPQ kd) ∨ regBad cl (bits x 487 478) (kdCQ kd) then 3
  else if 524288 < bits x 467 448 ∨ bits x 467 448 < kdLand kd ∨ bits x 492 488 = 0 ∨ 16 < bits x 492 488
      ∨ bits x 492 488 < kdBars kd ∨ !stage then 4
  else 0

/-- What the checks of a LAUNCH find: it waits for a migrating page, it fails with the state after its reads, or its kernel
descriptor, code base and constant banks. -/
inductive LaunchCheck
  | wait
  | bad (s : State) (reason : Nat)
  | good (s : State) (kd cb : Nat) (banks : List Bank)

/-- The loaded object that holds a kernel descriptor (17 R403). -/
def objectAt (C : Ctx) (va : Nat) : Option Loaded :=
  C.objs.find? fun o => decide (o.kdesc ≤ va) && decide (va < o.kdesc + o.kdescLen) && (va - o.kdesc) % 64 == 0

/-- The constant banks of a launch, each absent where CBANKS is 0 (15 R360). -/
def checkBanks (s : State) (ctx x kd cb : Nat) : LaunchCheck :=
  let a := bits x 447 384
  let fit := fun (s : State) (bs : List Bank) =>
    if fitsEmpty x kd then LaunchCheck.good s kd cb bs else .bad s 6
  if a = 0 then fit s (List.replicate 16 {})
  else if a % 16 ≠ 0 then .bad s 5
  else match sysSpan s ctx a 256 with
    | .hold => .wait
    | .fail k _ => .bad (detectSpans s ctx k (cutPages a 2 256)) 7
    | .ok (s1, t) => if (banksOf t).any bankBad then .bad s1 5 else fit s1 (banksOf t)

/-- The checks of a LAUNCH at its beginning, in the order of their codes (15 R359). -/
def checkLaunch (s : State) (ctx x : Nat) : LaunchCheck :=
  match sysSpan s ctx (bits x 191 128) 64 with
  | .hold => .wait
  | .fail k _ => .bad (detectSpans s ctx k (cutPages (bits x 191 128) 2 64)) 7
  | .ok (s1, kd) =>
    match objectAt (ctxOf s ctx) (bits x 191 128) with
    | none => .bad s1 2
    | some o =>
      if kdBad kd || roleBad (bits x 303 288) (kdPEntry kd) (kdPQ kd) || roleBad (bits x 319 304) (kdCEntry kd) (kdCQ kd) then .bad s1 2
      else
        let r := launchReason34 x kd
        if r ≠ 0 then .bad s1 r else checkBanks s1 ctx x kd o.cb

/-! ### Dealing (15 R362) -/

/-- Chunks of a launch. -/
def chunkCount (L : Launch) : Nat := (L.total + L.chunk - 1) / L.chunk

/-- A range of teams without those of a list of ranges. -/
def rangeMinus (a n : Nat) : List (Nat × Nat) → List (Nat × Nat)
  | [] => if n = 0 then [] else [(a, n)]
  | (b, m) :: rest =>
    if b + m ≤ a ∨ a + n ≤ b then rangeMinus a n rest
    else rangeMinus a (b - a) rest ++ rangeMinus (b + m) (a + n - (b + m)) rest

/-- The teams of a chunk that have not exited. -/
def chunkTeams (L : Launch) (c : Nat) : List (Nat × Nat) :=
  rangeMinus (c * L.chunk) (min L.chunk (L.total - c * L.chunk)) L.exited

/-- A list of ranges with one more team. -/
def rangeAdd : List (Nat × Nat) → Nat → List (Nat × Nat)
  | [], t => [(t, 1)]
  | (a, n) :: r, t =>
    if t + 1 < a then (t, 1) :: (a, n) :: r
    else if t + 1 = a then (t, n + 1) :: r
    else if t < a + n then (a, n) :: r
    else if t = a + n then (match r with
      | (b, m) :: r' => if b = t + 1 then (a, n + 1 + m) :: r' else (a, n + 1) :: r
      | [] => [(a, n + 1)])
    else (a, n) :: rangeAdd r t

/-- The lowest undealt chunk, taken. -/
def takeChunk (L : Launch) : Option (Nat × Launch) :=
  let fresh := if L.next < chunkCount L then some L.next else none
  match L.again, fresh with
  | c :: cs, some f => if c < f then some (c, { L with again := cs }) else some (f, { L with next := f + 1 })
  | c :: cs, none => some (c, { L with again := cs })
  | [], some f => some (f, { L with next := f + 1 })
  | [], none => none

/-- Ranges of teams without those of a list of ranges. -/
def rangesMinus (rs out : List (Nat × Nat)) : List (Nat × Nat) := rs.flatMap fun r => rangeMinus r.1 r.2 out

/-- The teams of a launch that are in the module. -/
def liveTeams (s : State) (L : Launch) : List (Nat × Nat) :=
  (s.teams.filter fun e => !e.2.ctl && e.2.launch == L.id && e.2.away != .dropped).foldl (fun r e => rangeAdd r e.2.lin) []

/-- A chunk given to a die, but for teams that live on after a reset (15 R364, R365). -/
def dealTo (live : List (Nat × Nat)) (L : Launch) (c die : Nat) : Launch :=
  let ts := tget [] L.todo die ++ rangesMinus (chunkTeams L c) live
  { L with dealt := L.dealt ++ [(c, die)], todo := if ts.isEmpty then L.todo else tput L.todo die ts }

/-- Undealt chunks, the lowest first, for a die that has placed every team of its chunks: n at most, until it has a team to
place. -/
def dealMore (live : List (Nat × Nat)) (die : Nat) : Nat → Launch → Launch
  | 0, L => L
  | n + 1, L =>
    if !(tget [] L.todo die).isEmpty then L
    else match takeChunk L with
      | some (c, L') => dealMore live die n (dealTo live L' c die)
      | none => L

/-- A die that has placed every team of its chunks is dealt the lowest undealt one. -/
def dealIdle (s : State) (L : Launch) : Launch :=
  (List.range 8).foldl (fun L d =>
    if (dieOf s d).out then L else dealMore (liveTeams s L) d (L.again.length + (chunkCount L - L.next)) L) L

/-- The first deal: chunks 0 to 7 from the start die on; a die out of service takes none. -/
def dealFirst (s : State) (L : Launch) : Launch :=
  let L1 := (List.range (min 8 (chunkCount L))).foldl (fun L c =>
    let d := (L.start + c) % 8
    if (dieOf s d).out then { L with again := L.again ++ [c] } else dealTo [] L c d)
    { L with next := min 8 (chunkCount L), again := [], dealt := [], todo := [] }
  dealIdle s L1

def modLaunch (s : State) (q i : Nat) (f : Launch → Launch) : State :=
  modPacket s q i fun P => { P with launch := P.launch.map f }

/-- A kernel boundary on a context: every later fetch sees the code as it is now, or later (02 R51, R52). -/
def kernelBoundary (s : State) (c : Nat) : State :=
  let s1 := modCtx s c fun C => { C with icode := s.mem }
  { s1 with teams := tmap s1.teams fun _ T =>
      if T.ctx = c ∧ T.ctl = false then { T with groups := tmap T.groups fun _ G => { G with icode := s.mem } } else T }

/-- LAUNCH: the packet begins; its checks, the kernel boundary, the first deal (15 R358–R362, 02 R52). -/
def execLaunch (q i : Nat) (s : State) : Host.Outcome State Fault Refusal :=
  if !mayBegin s q i 1 then .next s
  else
    let Q := queueOf s q
    let x := ((packetOf s q i).getD {}).raw
    match checkLaunch s Q.ctx x with
    | .wait => .next s
    | .bad s1 r => .next (failPacket (kernelBoundary (beginPacket s1 q i) Q.ctx) q i r)
    | .good s1 kd cb banks =>
      let s2 := kernelBoundary (beginPacket s1 q i) Q.ctx
      let total := bits x 223 192 * bits x 255 224 * bits x 287 256
      if total = 0 then .next (finishPacket s2 q i)
      else
        let L : Launch := { id := s2.nextId, kd := kd, cb := cb, banks := banks, prio := Q.prio, seq := s2.nextId,
                            start := s2.startDie, chunk := if Q.chunk = 0 then 64 else Q.chunk, total := total, began := pastNow s2 }
        let s3 := modPacket s2 q i fun P => { P with launch := some (dealFirst s2 L) }
        .next { s3 with startDie := (s2.startDie + 1) % 8, nextId := s2.nextId + 1 }

/-! ### Placement (15 R363) -/

/-- What a team asks of a core. -/
structure Ask where
  blocks : List Nat
  land : Nat
  tiles : Nat

/-- What a core gives a team. -/
structure Given where
  tslot : Nat
  groups : List Held_
  landBase : Nat
  tiles : List Nat

/-- The teams in place on a core. -/
def coreTeams (s : State) (core : Nat) : List Team := (s.teams.filter fun e => onCore core e.2).map (·.2)

def heldBlocks (ts : List Team) : List Held_ :=
  ts.flatMap fun T => T.groups.map fun G => { slot := G.2.slot, gslot := G.2.gslot, pb := G.2.pb, blk := G.2.blk }

/-- The tiles of a cluster's engine that no team in place holds. -/
def freeTiles (s : State) (cluster : Nat) : List Nat :=
  let held := s.teams.flatMap fun e =>
    if teamCluster e.2 == cluster && !e.2.ctl && inPlace e.2 then e.2.tileNums else []
  (List.range 16).filter fun n => !held.contains n

/-- The landing blocks held on a core: of a team whose block moves the old and the new one (DESIGN CHOICE, log entry 62). -/
def heldLand (ts : List Team) : List (Nat × Nat) :=
  ts.flatMap fun T => (if T.lsz = 0 then [] else [(T.landBase, landBlock T.lsz)]) ++ (match T.moving with
    | some M => [(M.newBase, landBlock T.lsz)]
    | none => [])

/-- What a core gives a team, if it holds all of it at once. -/
def coreGives (s : State) (core : Nat) (a : Ask) : Option Given :=
  let ts := coreTeams s core
  let tiles := (freeTiles s (core / 4)).take a.tiles
  let land := if a.land = 0 then some 0 else buddyPlace (heldLand ts) a.land 128
  match (List.range 8).find? (fun k => !(ts.any fun T => T.tslot == k)), land, placeGroups (heldBlocks ts) a.blocks with
  | some k, some b, some gs => if tiles.length < a.tiles then none else some { tslot := k, groups := gs, landBase := b, tiles := tiles }
  | _, _, _ => none

/-- Whether only fragmentation keeps a core from a team. -/
def fragmented (s : State) (core : Nat) (a : Ask) : Bool :=
  let ts := coreTeams s core
  let occ := heldBlocks ts
  let free := (List.range 4).map fun k => (slotFree occ k, 8 - (occ.filter fun h => h.slot == k).length)
  let land := (heldLand ts).foldl (fun n h => n + h.2) 0
  decide (ts.length < 8) && decide (a.tiles ≤ (freeTiles s (core / 4)).length) && decide (land + a.land ≤ 128)
    && sumGroups free a.blocks && (coreGives s core a).isNone

/-- The cores of a die, lowest first. -/
def coresOf (die : Nat) : List Nat := (List.range 320).map fun c => die * 320 + c

/-- The first core of a die that gives a team all it asks. -/
def findCore (s : State) (die : Nat) (a : Ask) : Option (Nat × Given) :=
  (coresOf die).findSome? fun c => (coreGives s c a).map fun g => (c, g)

/-- What a team of a launch asks. -/
def askOf (x : Nat) (L : Launch) : Ask := { blocks := blocksOf x L.kd, land := landBlock (kdLand L.kd), tiles := kdTiles L.kd }

/-- The present lanes of group k of a role (04 R87). -/
def presentLanes (lanes_ k : Nat) : Mask := maskOf ((List.range lanes).filter fun l => decide (96 * k + l < lanes_))

/-- A group at its start (04 R93, 05 R116, R117). Its private space holds the bytes that memory holds there (07 R178:
undefined; DESIGN CHOICE, log entry 59). -/
def newGroup (s : State) (role entry q args priv : Nat) (m : Mask) (h : Held_) (code : Table Byte) : Group :=
  { role := role, slot := h.slot, gslot := h.gslot, present := m,
    paths := [(0, { valid := true, pc := entry, mask := m, origin := m, fs := min q 192 })],
    blk := h.blk, pb := h.pb, gaAt := s.gt, privBase := priv, icode := code,
    scal := tset 0 (tset 0 [] 0 (BitVec.ofNat 32 args)) 1 (BitVec.ofNat 32 (args / 2 ^ 32)) }

/-- A team of a launch at placement (04 R86, 07 R172, 10 R236, R251, 11 R261). -/
def newTeam (s : State) (q i x : Nat) (L : Launch) (n core : Nat) (g : Given) (priv : List Nat) : Team :=
  let pl := bits x 303 288
  let cl := bits x 319 304
  let np := groupsOf pl
  let gx := bits x 223 192
  let gy := bits x 255 224
  let Q := queueOf s q
  let code := (ctxOf s Q.ctx).icode
  let p : RoleInfo := { entry := L.cb + kdPEntry L.kd, groups := np, lanes := pl, q := kdPQ L.kd }
  let c : RoleInfo := { entry := L.cb + kdCEntry L.kd, groups := groupsOf cl, lanes := cl, q := kdCQ L.kd }
  let groups := g.groups.mapIdx fun k h =>
    let R := if k < np then p else c
    let idx := if k < np then k else k - np
    (k, newGroup s (if k < np then 0 else 1) R.entry R.q (bits x 383 320) (priv.getD k 0) (presentLanes R.lanes idx) h code)
  let nb := kdBars L.kd
  { ctx := Q.ctx, queue := q, pkt := i, launch := L.id, x := n % gx, y := n / gx % gy, z := n / gx / gy, lin := n,
    grid := (gx, gy, bits x 287 256), die := core / 320, core := core % 320, tslot := g.tslot, prio := L.prio, cb := L.cb, began := L.began,
    placed := s.gt,
    producer := p, consumer := c, banks := L.banks, bsz := kdBsz L.kd, psz := kdPsz L.kd, vcd := kdVcd L.kd,
    lsz := (kdLand L.kd + 4095) / 4096 * 4096, landBase := g.landBase, ntiles := kdTiles L.kd, tileNums := g.tiles, nbar := nb,
    bars := (List.range nb).map fun b => (b, { gmem := 2 ^ g.groups.length - 1 }),
    smin := bits x 496 493, smax := bits x 500 497, pd := bits x 496 493, pipeAt := s.gt, groups := groups }

/-- Whether a context's teams may be placed: it runs. -/
def ctxRuns (C : Ctx) : Bool := C.sstate == 0 || C.sstate == 1 || C.sstate == 5

/-- Whether the driver's private bases suit a team (07 R178). -/
def privOk (psz n : Nat) (priv : List Nat) : Bool :=
  psz == 0 || (decide (n ≤ priv.length) && (priv.take n).all fun b => b % 4096 == 0)

/-- A waiting team of a die: a launch's head team, or a saved team. -/
inductive Cand
  | head (q i : Nat) (L : Launch) (x n : Nat)
  | saved (t : Nat) (T : Team)

/-- The priority of a candidate; saved teams go first within one, then launches in the order of their begins. -/
def candKey : Cand → Nat × Nat × Nat
  | .head _ _ L _ _ => (3 - L.prio, 1, L.seq)
  | .saved t T => (3 - T.prio, 0, t)

def keyLt (a b : Nat × Nat × Nat) : Bool :=
  decide (a.1 < b.1) || (a.1 == b.1 && (decide (a.2.1 < b.2.1) || (a.2.1 == b.2.1 && decide (a.2.2 < b.2.2))))

def insertCand (c : Cand) : List Cand → List Cand
  | [] => [c]
  | d :: ds => if keyLt (candKey c) (candKey d) then c :: d :: ds else d :: insertCand c ds

/-- The head teams of the launches dealt to a die. -/
def headTeams (s : State) (die : Nat) : List Cand :=
  s.queues.flatMap fun e => e.2.pkts.filterMap fun p => match p.2.launch with
    | some L => match tget [] L.todo die with
      | (n, _) :: _ => if ctxRuns (ctxOf s e.2.ctx) then some (.head e.1 p.1 L p.2.raw n) else none
      | [] => none
    | none => none

/-- The saved teams of contexts that resume (16 R389). -/
def savedTeams (s : State) : List Cand :=
  s.teams.filterMap fun e =>
    if isSaved e.2 && (ctxOf s e.2.ctx).sstate == 3 then some (.saved e.1 e.2) else none

/-- The candidates of a die in the order in which they are tried (15 R363, 16 R380). -/
def candidates (s : State) (die : Nat) : List Cand :=
  (savedTeams s ++ headTeams s die).foldl (fun l c => insertCand c l) []

/-- What a saved team asks of a core. -/
def askSaved (T : Team) : Ask :=
  { blocks := T.groups.map fun G => G.2.blk, land := landBlock T.lsz, tiles := T.ntiles }

/-- The diversion entries that a team takes, by kind, with the places of its image (16 R385). -/
def teamDivs (t : Nat) (T : Team) (state va : Nat) : List Div :=
  let mk := fun (kind group first count target : Nat) =>
    { state := state, kind := kind, ctx := T.ctx, tslot := T.tslot, group := group, first := first, count := count,
      cur := first, target := target, team := t : Div }
  (if T.lsz = 0 then [] else [mk 0 0 0 (landGranules T) (va + imgLanding T)])
    ++ (T.groups.map fun G => mk 1 G.1 G.2.rb G.2.blk (va + imgRows T + 384 * (T.groups.filter fun e => decide (e.1 < G.1)).foldl (fun n e => n + e.2.blk) 0))
    ++ [mk 2 0 0 T.nbar (va + imgBars T)]
    ++ (if T.ntiles = 0 then [] else [mk 3 0 0 T.ntiles (va + imgTiles T)])

/-- Free entries of a core's diversion table. -/
def divRoom (K : Core) : Nat := 64 - (K.divs.filter fun e => e.2.valid).length

/-- Entries put at the lowest free numbers. -/
def addDivs (m : Table Div) : List Div → Table Div
  | [] => m
  | d :: ds => match (List.range 64).find? fun e => match tfind m e with
      | none => true
      | some x => !x.valid with
    | some e => addDivs (tput m e d) ds
    | none => addDivs m ds

/-- The first core of a die that gives a saved team all it asks, its diversion entries among it (16 R385, R389). -/
def findSaved (s : State) (die t : Nat) (T : Team) : Option (Nat × Given) :=
  (coresOf die).findSome? fun c =>
    if c ≠ teamCore T ∧ divRoom (coreOf s c) < (teamDivs t T 0 0).length then none
    else (coreGives s c (askSaved T)).map fun g => (c, g)

/-- Whether a candidate can be placed on a die now, and where. -/
def candCore (s : State) (die : Nat) (priv : List Nat) (c : Cand) : Option (Nat × Given) :=
  match c with
  | .head _ _ L x _ =>
    let a := askOf x L
    if privOk (kdPsz L.kd) a.blocks.length priv then findCore s die a else none
  | .saved t T => findSaved s die t T

/-- The head team of a launch leaves a die's list. -/
def popHead (die : Nat) (L : Launch) : Launch :=
  match tget [] L.todo die with
  | (n, k) :: rest =>
    let r := if k ≤ 1 then rest else (n + 1, k - 1) :: rest
    { L with todo := if r.isEmpty then tdel L.todo die else tput L.todo die r, blocked := tdel L.blocked die }
  | [] => L

/-! ### The kernel boundary on a core (02 R52) -/

/-- Whether a launch had a team resident on a core in the tick before. -/
def wasResident (s : State) (core launch : Nat) : Bool :=
  ((coreTeams s core).any fun T => T.launch == launch && decide (T.placed < s.gt)) ||
    (coreOf s core).left.any fun x => x.1 == launch && ((x.2.2 == s.gt && decide (x.2.1 < s.gt)) || x.2.2 + 1 == s.gt)

/-- A team of a launch comes to a core: the volume cache is dropped at a kernel boundary (08 R200). -/
def enterCore (s : State) (core launch : Nat) : State :=
  if wasResident s core launch then s else modCore s core fun K => { K with vcAt := pastNow s }

/-- The place of a lane's word of a physical row of an issue slot (05 R120). -/
def rowPlace (slot row lane : Nat) : Nat := (512 * slot + row) * 128 + lane

/-- The rows that a group held, as they stay on its core. -/
def leaveRows (m : Table Word) (G : Group) : Table Word :=
  let kept := m.filter fun e => !(decide (rowPlace G.slot G.pb 0 ≤ e.1) && decide (e.1 < rowPlace G.slot (G.pb + G.blk) 0))
  G.rows.foldl (fun m e =>
    let row := e.1 / 128 - 1
    if G.rb ≤ row ∧ row < G.rb + G.blk then tset 0 m (rowPlace G.slot (G.pb + row % G.blk) (e.1 % 128)) e.2 else m) kept

/-- The landing memory that a team held, as it stays on its core. -/
def leaveLand (m : Table Byte) (T : Team) : Table Byte :=
  let base := T.landBase * 4096
  let kept := m.filter fun e => !(decide (base ≤ e.1) && decide (e.1 < base + landBlock T.lsz * 4096))
  T.landing.foldl (fun m e => tset 0 m (base + e.1) e.2) kept

/-- The tiles that a team held, as they stay in its engine: 8,192 places for a tile. -/
def leaveTiles (m : Table Word) (T : Team) : Table Word :=
  let kept := m.filter fun e => !(T.tileNums.contains (e.1 / 8192))
  T.tiles.foldl (fun m e => match T.tileNums[e.1 / 8192]? with
    | some n => tset 0 m (8192 * n + e.1 % 8192) e.2
    | none => m) kept

/-- A team's resources on its core are reclaimed; their contents stay until a placement zeroes them (05 R116, 07 R172,
20 R442). -/
def leaveCore (s : State) (T : Team) : State :=
  let s1 := modCore s (teamCore T) fun K =>
    { K with left := (T.launch, T.placed, s.gt) :: K.left.filter fun x => decide (s.gt ≤ x.2.2 + 1),
             rowRest := T.groups.foldl (fun m G => leaveRows m G.2) K.rowRest,
             landRest := leaveLand K.landRest T,
             gone := tput K.gone T.tslot
               { T with landing := [], tiles := [], groups := tmap T.groups fun _ G => { G with rows := [] } } }
  let C := tget ({} : Cluster) s1.clusters (teamCluster T)
  { s1 with clusters := tput s1.clusters (teamCluster T) { C with tileRest := leaveTiles C.tileRest T } }

/-! ### Resume of a saved team (16 R389, R390, 06 R164) -/

/-- The barrier with its shadow folded in (16 R389 step 6). -/
def foldBar (B : Bar) : Bar :=
  settle { B with pend := wrapInt 24 ((B.pend : Int) + sint 24 B.dpend), flt := B.flt || B.dflt, aflt := B.aflt || B.daflt,
                  fidx := if B.flt || B.aflt then B.fidx else B.dfidx,
                  earr := B.earr + B.darr, darr := 0, dpend := 0, dflt := false, daflt := false, dfidx := 0 }

/-- A group at its new place. -/
def resumeGroup (h : Held_) (G : Group) : Group := { G with slot := h.slot, gslot := h.gslot, pb := h.pb }

/-- The banks that a resumed team's core must load: those its context owned and does not own here (06 R164). -/
def banksToLoad (s : State) (core ctx : Nat) (l : List (Nat × Nat)) : List (Nat × Nat) :=
  l.filter fun b =>
    let B := tget ({} : FnBank) (coreOf s core).banks b.1
    !(B.owned && B.owner == ctx)

/-- What stands for a path in the reload of a bank for a context. -/
def reloadPath (ctx k : Nat) : Nat × Nat × Nat := (2 ^ 50 + ctx, 16, k)

/-- The teams that wait for a reload hold no bank. -/
def waitsReload (s : State) (h : Nat × Nat × Nat) : Bool :=
  let T := teamOf s h.1
  T.away != .present || !T.reload.isEmpty

/-- Whether a team waits on its core for reloads: it is in place, or its blocks have been restored. -/
def waitsHere (T : Team) : Bool :=
  match T.away with
  | .present => true
  | .restoring _ k => decide (4 ≤ k)
  | _ => false

/-- The reload of a bank for a context becomes pending, unless it is already: LOADING is set, and the holders of this tick
are taken (06 R163, R164). -/
def startReload (s : State) (ctx core k : Nat) : State :=
  let hs := (bankHolders s core k).filter fun h => !waitsReload s h
  modCore s core fun K =>
    let B := tget ({} : FnBank) K.banks k
    if B.loader.any fun l => l.path == reloadPath ctx k then K
    else { K with banks := tput K.banks k { B with loading := true, loader := B.loader ++ [{ path := reloadPath ctx k, holders := hs }] } }

/-- The loads of banks that a team's paths posted are pending on its core again. -/
def pendLoads (s : State) (t : Nat) : State :=
  let T := teamOf s t
  let core := teamCore T
  T.groups.foldl (fun s G => G.2.pend.foldl (fun s o => match o.work with
    | .tblload k _ => modCore s core fun K =>
        let B := tget ({} : FnBank) K.banks k
        { K with banks := tput K.banks k { B with loading := true, loader := B.loader ++
            [{ path := (t, G.1, o.path), op := some o.id, holders := (bankHolders s core k).filter fun h => h.1 != t }] } }
    | _ => s) s) s

/-- The diversion entries of a team on a core, changed or dropped. -/
def mapDivs (s : State) (core t : Nat) (f : Div → Option Div) : State :=
  modCore s core fun K => { K with divs := K.divs.filterMap fun e =>
    if e.2.team = t then (f e.2).map fun d => (e.1, d) else some e }

/-- Whether a team still has operations that were posted by its groups. -/
def opsOut (T : Team) : Bool :=
  !T.copies.isEmpty || !T.csums.isEmpty || !T.mops.isEmpty || !T.marches.isEmpty || !T.jobs.isEmpty
    || T.groups.any fun G => !G.2.pend.isEmpty

/-- The entries of the old core: freed, or forwarding to another core while operations can still write (16 R386, R390). -/
def leaveDivs (s : State) (t : Nat) (T : Team) (core : Nat) (g : Given) : State :=
  if !opsOut T then mapDivs s (teamCore T) t fun _ => none
  else mapDivs s (teamCore T) t fun d => some { d with state := 4, target := pack [(9, core % 320), (3, core / 320), (3, g.tslot)] }

/-- The state of an entry at a resume: RESTORING from its first unit, the barriers on HOLD (16 R389 step 1). -/
def restoreDiv (d : Div) : Div := { d with state := if d.kind = 2 then 5 else 2, cur := d.first }

/-- A saved team takes its place on a core; its image is folded back step by step (16 R389, R390). -/
def resumeTeam (s : State) (t core : Nat) (g : Given) : State :=
  let T := teamOf s t
  let va := (imageVa T).getD 0
  let s1 :=
    if teamCore T = core then mapDivs s core t fun d => some (restoreDiv { d with tslot := g.tslot })
    else modCore (leaveDivs s t T core g) core fun K =>
      { K with divs := addDivs K.divs ((teamDivs t { T with tslot := g.tslot } 2 va).map restoreDiv) }
  modTeam s1 t fun T =>
    { T with away := .restoring va 0, blocked := [], placed := s.gt, die := core / 320, core := core % 320, tslot := g.tslot, landBase := g.landBase,
             tileNums := g.tiles, groups := (T.groups.zip g.groups).map fun x => (x.1.1, resumeGroup x.2 x.1.2) }

/-! ### TEAM_PLACE and TEAM_EXIT -/

/-- A candidate placed on a core. -/
def placeCand (s : State) (die : Nat) (priv : List Nat) (c : Cand) (core : Nat) (g : Given) : State :=
  match c with
  | .saved t T => modDie (resumeTeam (enterCore s core T.launch) t core g) die fun D => { D with compact := none }
  | .head q i L x n =>
    let T := newTeam s q i x L n core g priv
    let s0 := enterCore s core L.id
    let s1 := { s0 with teams := tput s.teams s.nextId T, nextId := s.nextId + 1 }
    modDie (modLaunch s1 q i fun L => dealIdle s (popHead die L)) die fun D => { D with compact := none }

/-- The first candidate that a die can place, with its place. -/
def firstPlaced (s : State) (die : Nat) (priv : List Nat) : List Cand → Option (Cand × Nat × Given)
  | [] => none
  | c :: cs => match candCore s die priv c with
    | some r => some (c, r.1, r.2)
    | none => firstPlaced s die priv cs

/-- TEAM_PLACE: one placement by the distributor of a die; the driver gives the private bases. -/
def execTeamPlace (die : Nat) (priv : List Nat) (s : State) : Host.Outcome State Fault Refusal :=
  if 8 ≤ die ∨ (dieOf s die).out then .next s
  else match firstPlaced s die priv (candidates s die) with
    | none => .next s
    | some (c, core, g) => .next (placeCand s die priv c core g)

/-- Whether a team may exit: its groups have ended and all they posted has completed (04 R101). -/
def teamDone (T : Team) : Bool :=
  !T.ctl && !opsOut T && (T.away == .dropped ||
    (T.away == .present && T.groups.all fun G => G.2.ended && G.2.asyncs.isEmpty && G.2.ptrap.isEmpty))

/-- The 320 bytes of an exit record (07 R176). -/
def exitRecord (T : Team) (now : Nat) : List Byte :=
  let gmask := T.groups.foldl (fun m G => if G.2.swoff != 0 then m + 2 ^ G.1 else m) 0
  let head := pack [(32, T.x), (32, T.y), (32, T.z), (12, T.queue), (4, 1), (16, gmask), (64, now), (320, 0)]
  leBytes head 64 ++ (List.range 16).flatMap fun k => match tfind T.groups k with
    | some G => leBytes (pack [(96, G.lfm.toNat), (32, (lanesOf G.swoff).length)]) 16
    | none => leBytes 0 16

/-- Whether every team of a launch has exited. -/
def allTeamsOut (L : Launch) : Bool := L.exited == [(0, L.total)]

/-- The teams of a launch in the module. -/
def launchTeams (s : State) (q i : Nat) : List (Nat × Team) :=
  s.teams.filter fun e => !e.2.ctl && e.2.queue == q && e.2.pkt == i && e.2.away != .dropped

/-- A launch whose last team has exited completes; one struck by a reset without IDEM fails (15 R358, R364). -/
def launchEnd (s : State) (q i : Nat) : State :=
  match packetOf s q i with
  | some P => match P.launch with
    | some L =>
      if L.struck then (if (launchTeams s q i).isEmpty && P.fin.isNone then failPacket s q i 8 else s)
      else if allTeamsOut L then finishPacket s q i else s
    | none => s
  | none => s

/-- The chunk of a team is done once all its teams have exited. -/
def exitFrom (n : Nat) (L : Launch) : Launch :=
  let L1 := { L with exited := rangeAdd L.exited n }
  { L1 with dealt := L1.dealt.filter fun d => !(chunkTeams L1 d.1).isEmpty }

/-- TEAM_EXIT: the exit record, the resources, the launch (04 R101, 07 R176). -/
def execTeamExit (t : Nat) (s : State) : Host.Outcome State Fault Refusal :=
  match tfind s.teams t with
  | none => .next s
  | some T =>
    if !teamDone T then .next s
    else
      let s0 := mapDivs { s with teams := tdel s.teams t } (teamCore T) t fun _ => none
      if T.away == .dropped then .next s0
      else
        let s0 := leaveCore s0 T
        let s1 := if T.groups.any fun G => G.2.swoff != 0 then
          (logAppend s0 T.ctx 4 (teamLog T) (exitRecord T s.gt)).1 else s0
        .next (launchEnd (modLaunch s1 T.queue T.pkt (exitFrom T.lin)) T.queue T.pkt)

end Sys2Proof.Machine
end

