-- ==== Sys2Proof/Machine/Restore.lean ====
section
/-! DEFINITION. The units of a team's image: saved under SAVING, folded back under RESTORING, with their hold queues
(16 R382–R392). -/

namespace Sys2Proof.Machine

/-! ### Hold queues (16 R386) -/

/-- A held write applied in place. -/
def applyHeld (t g : Nat) (s : State) (w : HeldWrite) : State :=
  match w with
  | .land off bs => putLand s t off bs
  | .regs res => modGroup s t g fun G => res.foldl (fun G e => regWrite G e.1 e.2) G
  | .arrive b n bytes => modBar s t b (arriveBar n bytes)
  | .flag b idx => modBar s t b (fltBar idx)
  | .tile n ws => modTeam s t fun T => { T with tiles := tblit 0 T.tiles (8192 * n) ws }
  | .late b idx => modBar s t b (asyncBar idx)

/-- A held write applied in the save area. -/
def applySaved (t g : Nat) (d : Div) (s : State) (w : HeldWrite) : State :=
  match w with
  | .land off bs => saveWrite s (teamOf s t).ctx (landVa d off) bs
  | .regs res => (shadowParts res).foldl (shadowAppend · t g) s
  | .arrive b n bytes => modShadow s t d b fun B =>
      { B with darr := (B.darr + n) % 2 ^ 32, dpend := wrapInt 24 ((B.dpend : Int) + bytes) }
  | .flag b idx => modShadow s t d b fun B =>
      { B with dflt := true, dfidx := if B.dflt || B.daflt then B.dfidx else idx }
  | .tile n ws => saveWrite s (teamOf s t).ctx (d.target + 24576 * (n - d.first)) (ws.flatMap fun w => leBytes w.toNat 4)
  | .late b idx => modShadow s t d b (lateBar idx)

/-- CUR moves past the unit being copied; the queue is empty. -/
def nextUnit (s : State) (core e : Nat) (f : Div → Div) : State :=
  modCore s core fun K => { K with divs := tmod K.divs e fun d => f { d with cur := d.cur + 1, held := [], holdn := 0 } }

/-- Whether an entry has units left to copy. -/
def unitsLeft (d : Div) : Bool := decide (d.cur < d.first + d.count)

/-- Whether an operation on a tile is in progress (16 R382 step 5, R389 step 2). -/
def tileBusy (T : Team) (n : Nat) : Bool := T.mops.any fun m => m.granted && !m.done && (mopTiles m.kind).contains n

/-! ### Saving (16 R382) -/

/-- The bytes of a unit in place, and where they go. -/
def unitImage (T : Team) (d : Div) : Nat × List Byte :=
  let i := d.cur - d.first
  match d.kind with
  | 0 => (d.target + 4096 * i, tspan 0 T.landing (4096 * d.cur) 4096)
  | 1 => (d.target + 384 * i, (List.range lanes).flatMap fun l =>
      leBytes (tget (0 : Word) (tget ({} : Group) T.groups d.group).rows (keyRow d.cur l)).toNat 4)
  | 2 => (d.target + 16 * i, leBytes (barNat (tget {} T.bars d.cur)) 16)
  | _ => (d.target + 24576 * i, (tspan 0 T.tiles (8192 * d.cur) 6144).flatMap fun w => leBytes w.toNat 4)

/-- One unit of a team saved: its bytes, then its hold queue; behind its last unit an entry diverts. -/
def saveUnit (s : State) (t e : Nat) (d : Div) : State :=
  let T := teamOf s t
  let x := unitImage T d
  let s1 := d.held.foldl (applySaved t d.group d) (saveWrite s T.ctx x.1 x.2)
  nextUnit s1 (teamCore T) e fun d => if unitsLeft d then d else { d with state := 1 }

/-- The entry of a team whose next unit may be saved now. -/
def nextSave (s : State) (t : Nat) : Option (Nat × Div) :=
  let T := teamOf s t
  (coreOf s (teamCore T)).divs.find? fun e =>
    e.2.team == t && e.2.state == 0 && (e.2.kind != 3 || !tileBusy T e.2.cur)

/-- Whether every entry of a team diverts. -/
def allSaved (s : State) (t : Nat) : Bool :=
  (coreOf s (teamCore (teamOf s t))).divs.all fun e => e.2.team != t || e.2.state != 0

/-- The end of a team's save: its blocks, slots and pipeline; its resources are reclaimed (16 R382 steps 3 and 7). -/
def endSave (s : State) (t : Nat) : State :=
  let T := teamOf s t
  match T.away with
  | .saving va =>
    let s1 := saveWrite s T.ctx (va + imgBlocks) ((tvals T.groups).flatMap groupBlock)
    modTeam (leaveCore (saveTail s1 t va) T) t fun T => { T with away := .saved va }
  | _ => s

/-! ### Restoring (16 R389) -/

/-- A register shadow entry: its register, and its words by key. -/
def shadowEntry (bs : List Byte) : Nat × Bool × List (Nat × Word) :=
  let x := leNat bs
  let row := bits x 15 0
  let sc := bit x 16
  let word := fun (l : Nat) => BitVec.ofNat 32 (bits x (128 + 32 * l + 31) (128 + 32 * l))
  (row, sc, if sc then [(keyScal row, word 0)]
    else ((List.range lanes).filter fun l => bit x (32 + l)).map fun l => (keyRow row l, word l))

/-- Where an entry of a group's register shadow lies. -/
def shadowPlace (T : Team) (g n : Nat) : Nat :=
  (imageVa T).getD 0 + imgRegShadow T + 400 * (64 * (T.groups.filter fun e => decide (e.1 < g)).length + n)

/-- A register shadow entry applied, where `want` names its register. -/
def applyEntry (t g : Nat) (want : Nat → Bool → Bool) (s : State) (bs : List Byte) : State :=
  let x := shadowEntry bs
  if want x.1 x.2.1 then modGroup s t g fun G => x.2.2.foldl (fun G e => regWrite G e.1 e.2) G else s

/-- The register shadow entries of a group that `want` names, applied in append order (16 R389 step 3): those of the image,
then those beyond its 64 places. -/
def applyShadow (s : State) (t g : Nat) (want : Nat → Bool → Bool) : State :=
  let s1 := (List.range (min 64 (groupOf s t g).shadowN)).foldl (fun s n =>
    let T := teamOf s t
    match saveRead s T.ctx (shadowPlace T g n) 400 with
    | some bs => applyEntry t g want s bs
    | none => saveDetect s T.ctx (shadowPlace T g n) 400) s
  (groupOf s t g).shadowMore.foldl (applyEntry t g want) s1

/-- A unit's bytes put in place; a unit that cannot be read stays as it was saved (log entry 64). -/
def putUnit (T : Team) (d : Div) (bs : List Byte) : Team :=
  let words := (words4 bs).map fun (w : Nat) => (BitVec.ofNat 32 w : Word)
  match d.kind with
  | 0 => { T with landing := tblit 0 T.landing (4096 * d.cur) bs, landBad := T.landBad.filter fun w => w / 4096 != d.cur }
  | 1 => { T with groups := tmod T.groups d.group fun G =>
      { G with rows := tblit 0 G.rows (keyRow d.cur 0) words, rowBad := G.rowBad.filter (· != d.cur) } }
  | 3 => { T with tiles := tblit 0 T.tiles (8192 * d.cur) words }
  | _ => T

/-- The size of a unit of a kind. -/
def unitSize (kind : Nat) : Nat := if kind = 0 then 4096 else if kind = 1 then 384 else 24576

/-- One unit of a team copied in: its bytes, a row's shadow entries, then its hold queue. -/
def restoreUnit (s : State) (t e : Nat) (d : Div) : State :=
  let T := teamOf s t
  let n := unitSize d.kind
  let s1 := match saveRead s T.ctx (d.target + n * (d.cur - d.first)) n with
    | some bs => modTeam s t fun T => putUnit T d bs
    | none => saveDetect s T.ctx (d.target + n * (d.cur - d.first)) n
  let s2 := if d.kind = 1 then applyShadow s1 t d.group fun row sc => !sc && row == d.cur else s1
  nextUnit (d.held.foldl (applyHeld t d.group) s2) (teamCore T) e id

/-- The entry of a kind of a team with units left to copy in. -/
def nextRestore (s : State) (t kind : Nat) : Option (Nat × Div) :=
  (coreOf s (teamCore (teamOf s t))).divs.find? fun e =>
    e.2.team == t && e.2.kind == kind && e.2.state == 2 && unitsLeft e.2

/-- A team at a step of its restore. -/
def setStage (s : State) (t va k : Nat) : State := modTeam s t fun T => { T with away := .restoring va k }

/-- A program slot from its part of an image. -/
def slotLoad (S : ProgSlot) (bs : List Byte) : ProgSlot :=
  if S.bound then
    { S with image := bs.take S.image.length, param := leNat ((bs.drop 4096).take 4), cqoff := leNat ((bs.drop 4100).take 4) }
  else S

/-- Step 5: group blocks, with the shadow entries of scalars after them; program slots, pipeline state; the reload of function
tables becomes pending. -/
def restoreBlocks (s : State) (t va : Nat) : State :=
  let T := teamOf s t
  let ph := fun (b : Nat) => (tget ({} : Bar) T.bars b).ph
  let gs := T.groups.zip (List.range T.groups.length)
  let s1 := gs.foldl (fun s x => match saveRead s T.ctx (va + imgBlocks + 2048 * x.2) 2048 with
    | some bs => modGroup s t x.1.1 fun G => groupLoad ph G (leNat bs)
    | none => saveDetect s T.ctx (va + imgBlocks + 2048 * x.2) 2048) s
  let s2 := T.groups.foldl (fun s G =>
    modGroup (applyShadow s t G.1 fun _ sc => sc) t G.1 fun G => { G with shadowN := 0, shadowMore := [] }) s1
  let s3 := (List.range 4).foldl (fun s n => match saveRead s T.ctx (va + imgSlots T + 4112 * n) 4112 with
    | some bs => modTeam s t fun T => { T with slots := tmod T.slots n fun S => slotLoad S bs }
    | none => saveDetect s T.ctx (va + imgSlots T + 4112 * n) 4112) s2
  let s4 := match saveRead s3 T.ctx (va + imgPipe T) 16 with
    | some bs => modTeam s3 t fun T =>
        { T with head := leNat (bs.take 2), tail := leNat ((bs.drop 2).take 2), pd := leNat ((bs.drop 4).take 2) }
    | none => saveDetect s3 T.ctx (va + imgPipe T) 16
  let load := banksToLoad s4 (teamCore T) T.ctx T.reload
  let s5 := modTeam s4 t fun T => { T with reload := load }
  pendLoads (load.foldl (fun s b => startReload s T.ctx (teamCore T) b.1) s5) t

/-- Step 6: barrier words, each with its shadow folded in, then the hold queue in order. -/
def restoreBars (s : State) (t : Nat) : State :=
  let core := teamCore (teamOf s t)
  match (coreOf s core).divs.find? fun e => e.2.team == t && e.2.kind == 2 && e.2.state == 5 with
  | none => s
  | some (e, d) =>
    let T := teamOf s t
    let one := fun (s : State) (b : Nat) =>
      match saveRead s T.ctx (d.target + 16 * (b - d.first)) 16, saveRead s T.ctx (shadowVa T d b) 16 with
      | some w, some x => modBar s t b fun B => foldBar (barShadowSet (barSet B (leNat w)) (leNat x))
      | _, _ => saveDetect (saveDetect s T.ctx (d.target + 16 * (b - d.first)) 16) T.ctx (shadowVa T d b) 16
    let s1 := (List.range T.nbar).foldl one s
    let s2 := d.held.foldl (applyHeld t 0) s1
    modCore s2 core fun K => { K with divs := tmod K.divs e fun d => { d with state := 2, cur := d.first + d.count, held := [], holdn := 0 } }

/-- Step 7: the team is in place; windows count as closed, held traps are the groups' first events (02 R43, 16 R375, R388). -/
def endRestore (s : State) (t : Nat) : State :=
  let s1 := modTeam s t fun T =>
    { T with away := .present,
             groups := tmap T.groups fun _ G => closeWindows { G with asyncs := G.ptrap ++ G.asyncs, ptrap := [] } }
  endResume s1 (teamOf s t).ctx

/-- One step of the restore of a team. -/
def restoreStep (s : State) (t : Nat) : State :=
  let T := teamOf s t
  let copy := fun (va k kind : Nat) => match nextRestore s t kind with
    | some (e, d) => if d.kind = 3 ∧ tileBusy T d.cur then s else restoreUnit s t e d
    | none => setStage s t va (k + 1)
  match T.away with
  | .restoring va 0 => copy va 0 3
  | .restoring va 1 => copy va 1 1
  | .restoring va 2 => copy va 2 0
  | .restoring va 3 => setStage (restoreBlocks s t va) t va 4
  | .restoring _ _ => endRestore (restoreBars s t) t
  | _ => s

/-! ### The compactor's entries (05 R118, 07 R177, 16 R392) -/

/-- An entry in state HOLD over a unit range of a team (16 R392). -/
def holdDiv (t : Nat) (T : Team) (kind group first count : Nat) : Div :=
  { state := 5, kind := kind, ctx := T.ctx, tslot := T.tslot, group := group, first := first, count := count, cur := first, team := t }

/-- The end of every copy of the compactor on a team: its hold queues are applied. -/
def flushHolds (s : State) (t : Nat) : State :=
  let core := teamCore (teamOf s t)
  let es := (coreOf s core).divs.filter fun e => e.2.team == t && e.2.state == 5
  es.foldl (fun s e => e.2.held.foldl (applyHeld t e.2.group)
    (modCore s core fun K => { K with divs := tdel K.divs e.1 })) s

/-- The end of a copy under an entry: its hold queue is applied, and the entry is freed. -/
def freeHold (s : State) (t kind group : Nat) : State :=
  let core := teamCore (teamOf s t)
  match (coreOf s core).divs.find? fun e => e.2.team == t && e.2.kind == kind && e.2.group == group && e.2.state == 5 with
  | none => s
  | some (e, d) =>
    let s1 := modCore s core fun K => { K with divs := tdel K.divs e }
    d.held.foldl (applyHeld t group) s1

end Sys2Proof.Machine
end

