-- ==== Sys2Proof/Machine/Suspend.lean ====
section
/-! DEFINITION. Suspension and resume of a context (16 R380–R391, 06 R164, 15 R365): the requests, the mask limit, the save
area, discard. A suspension begins at one SUSPEND; each further one saves a unit, and the last ends it. -/

namespace Sys2Proof.Machine

/-! ### Requests -/

/-- SREQ: software asks for a context's suspension (16 R369, R380). -/
def execSreq (ctx : Nat) (s : State) : Host.Outcome State Fault Refusal := .next (requestSuspend s ctx 0)

/-- The groups of a team that hold PM (16 R381). -/
def maskedGroups (T : Team) : Nat := T.groups.foldl (fun m G => if G.2.pm && !G.2.ended then m + 2 ^ G.1 else m) 0

/-- The first team of a context in place with a group that holds PM. -/
def maskedTeam (s : State) (c : Nat) : Option (Nat × Team) :=
  (teamsOf s c).find? fun e => e.2.away == .present && maskedGroups e.2 != 0

/-- MASK_OVERRUN: the limit is reached; an entry is logged, and the context is taken anyway (16 R381). -/
def execMaskOverrun (ctx : Nat) (s : State) : Host.Outcome State Fault Refusal :=
  let C := ctxOf s ctx
  match maskedTeam s ctx with
  | some (_, T) =>
    if C.sstate = 1 ∧ C.overrun = false ∧ 2 ^ C.pml ≤ C.maskTicks then
      let s1 := (logAppend s ctx 6 { teamLog T with gmask := maskedGroups T } []).1
      .next (modCtx s1 ctx fun C => { C with overrun := true })
    else .next s
  | none => .next s

/-! ### Priority pre-emption (16 R367, R380) -/

/-- The greatest PRIO of a context's launches that have a team in place, if there is one. -/
def runningPrio (s : State) (c : Nat) : Option Nat :=
  (teamsOf s c).foldl (fun r e => if e.2.away == .present then some (max e.2.prio (r.getD 0)) else r) none

/-- The launches with a head team that no core of its die can take, as queue, packet and PRIO. -/
def unplaced (s : State) : List (Nat × Nat × Nat) :=
  (List.range 8).flatMap fun d => (headTeams s d).filterMap fun c => match c with
    | .head q i L x _ => if (findCore s d (askOf x L)).isNone then some (q, i, L.prio) else none
    | .saved _ _ => none

/-- PRIORITY_PREEMPT: a waiting launch of another context that cannot be placed pre-empts a context under PREPOL. -/
def execPriorityPreempt (ctx : Nat) (s : State) : Host.Outcome State Fault Refusal :=
  let C := ctxOf s ctx
  match runningPrio s ctx with
  | none => .next s
  | some p =>
    if C.prepol = 0 ∨ ¬(C.sstate = 0 ∨ C.sstate = 5) then .next s
    else match (unplaced s).find? fun x => (queueOf s x.1).ctx != ctx && decide (p + C.prepol ≤ x.2.2) with
      | some x => .next (modCtx (requestSuspend s ctx 1) ctx fun C => { C with preBy := some (x.1, x.2.1) })
      | none => .next s

/-! ### The save (16 R382–R385) -/

/-- Whether a team's launch has PCLASS = 1. -/
def isDiscarded (s : State) (T : Team) : Bool :=
  match packetOf s T.queue T.pkt with
  | some P => bit P.raw 501
  | none => false

/-- The banks of a team's core that its context owns, and those it still had to load (06 R164). -/
def ownedBanks (s : State) (T : Team) : List (Nat × Nat) :=
  let mine := (coreOf s (teamCore T)).banks.filterMap fun b => if b.2.owned && b.2.owner == T.ctx then some (b.1, b.2.src) else none
  mine ++ T.reload.filter fun r => !(mine.any fun b => b.1 == r.1)

/-- Whether another team of a context waits on a core for the reload of a bank. -/
def reloadWanted (s : State) (t ctx core k : Nat) : Bool :=
  s.teams.any fun e => e.1 != t && e.2.ctx == ctx && teamCore e.2 == core && waitsHere e.2 && e.2.reload.any fun b => b.1 == k

/-- A team's paths hold no bank, its loads are no longer pending on its core, nor is a reload that no other team waits for. -/
def leaveBanks (s : State) (t core : Nat) (ids : List Nat) : State :=
  let ctx := (teamOf s t).ctx
  modCore s core fun K => { K with banks := tmap K.banks fun k B =>
    let gone := fun (l : Loader) => l.path == reloadPath ctx k && !reloadWanted s t ctx core k
    let l := (B.loader.filter fun l => l.path.1 != t && !(l.op.any fun o => ids.contains o) && !gone l).map fun l =>
      { l with holders := l.holders.filter fun h => h.1 != t }
    { B with loader := l, loading := !l.isEmpty } }

/-- The numbers of a team's pending loads of banks. -/
def loadIds (T : Team) : List Nat :=
  T.groups.flatMap fun G => G.2.pend.filterMap fun o => match o.work with
    | .tblload _ _ => some o.id
    | _ => none

/-- Results of the VA and SF pipes that are pending complete (16 R382 step 2). -/
def finishPipes (s : State) (t : Nat) : State :=
  (teamOf s t).groups.foldl (fun s G =>
    (G.2.pend.filter fun o => o.performed && !o.memq).foldl (fun s o => commit s t G.1 o) s) s

/-- The traps that wait on a group's core go with it: the first eight are held in its block (16 R375, R388). -/
def takeAsyncs (G : Group) : Group :=
  { G with ptrap := (G.asyncs ++ G.ptrap).take 8, asyncs := (G.asyncs ++ G.ptrap).drop 8, paused := 0 }

/-- Step 1 and 2 of a team's suspension, at an address of the save area: its groups stop, its pipes complete, its entries
save, the image's header and empty shadows are written (16 R382, R383). -/
def beginSave (s : State) (t va : Nat) : State :=
  let s1 := finishPipes (flushHolds s t) t
  let T := teamOf s1 t
  let core := teamCore T
  let s2 := modTeam s1 t fun T =>
    { T with away := .saving va, mark := s.nextId, reload := ownedBanks s1 T, moving := none,
             groups := tmap T.groups fun _ G => { takeAsyncs G with shadowN := 0 } }
  let s3 := mapDivs (leaveBanks s2 t core (loadIds T)) core t fun _ => none
  let s4 := modCore s3 core fun K => { K with divs := addDivs K.divs (teamDivs t T 0 va) }
  let s5 := saveWrite s4 T.ctx va (padTo 256 (leBytes (teamHeader T) 32))
  let s6 := saveWrite s5 T.ctx (va + imgRegShadow T) (List.replicate (64 * 400 * T.groups.length) 0)
  saveWrite s6 T.ctx (va + imgBarShadow T) (List.replicate (16 * T.nbar) 0)

/-- The begin of the save of teams, their images at successive addresses. -/
def beginSaves (s : State) : Nat → List (Nat × Team) → State
  | _, [] => s
  | va, (t, T) :: rest => beginSaves (beginSave s t va) (va + imgEnd T) rest

/-! ### Discard (16 R391) -/

/-- A discarded team: its groups end, its batches stop and are not charged (01 R19), its ungranted MDELTAs and its jobs are
dropped. -/
def dropTeam (s : State) (t : Nat) : State :=
  let T := teamOf s t
  let core := teamCore T
  let keep := fun (m : MOp) => match m.kind with
    | .delta _ => m.granted
    | _ => true
  let end_ := fun (G : Group) =>
    { G with ended := true, paths := tmap G.paths fun _ P => { P with valid := false, wait := .none }, asyncs := [], ptrap := [],
             pend := G.pend.filter fun o => o.memq && !o.performed, drain := { G.drain with armed := false, held := false } }
  let steps := T.marches.foldl (fun n m => n + m.steps) 0
  let passes := T.marches.foldl (fun n m => n + m.passes) 0
  let s0 := modCtx s T.ctx fun C =>
    { C with msteps := (C.msteps + 2 ^ 64 - steps % 2 ^ 64) % 2 ^ 64, epass := (C.epass + 2 ^ 64 - passes % 2 ^ 64) % 2 ^ 64 }
  let s1 := modTeam (leaveCore s0 T) t fun T =>
    { T with away := .dropped, groups := tmap T.groups fun _ G => end_ G, marches := [], jobs := [], mops := T.mops.filter keep,
             moving := none, reload := [] }
  modCore (leaveBanks s1 t core (loadIds T)) core fun K => { K with divs := addDivs K.divs (teamDivs t T 3 0) }

/-- The launches that had a team discarded are dealt afresh, but for their exited teams. -/
def redeal (s : State) (ls : List (Nat × Nat)) : State :=
  ls.foldl (fun s x => modLaunch s x.1 x.2 fun L => dealFirst s { L with blocked := [] }) s

/-- A discarded launch's teams that were not yet placed, or in place elsewhere, go with it: the launches that have a
discarded team in a context. -/
def discardedLaunches (s : State) (c : Nat) : List (Nat × Nat) :=
  ((teamsOf s c).filterMap fun e =>
    if e.2.away == .present && isDiscarded s e.2 then some (e.2.queue, e.2.pkt) else none).eraseDups

/-! ### SUSPEND -/

/-- Whether a suspension may be carried out: no group holds PM, or the limit is reached, or a trap's STOP asked for it. -/
def mayTake (s : State) (c : Nat) : Bool :=
  let C := ctxOf s c
  C.sstate == 1 && (C.overrun || (maskedTeam s c).isNone || (C.susReq.getD (0, 0)).1 == 2)

/-- Whether the pre-empting launch of a priority request has ended. -/
def preemptOver (s : State) (C : Ctx) : Bool :=
  (C.susReq.getD (0, 0)).1 == 1 && (match C.preBy with
    | some (q, i) => (packetOf s q i).isNone
    | none => true)

/-- Whether every core has the diversion entries that the teams need (16 R385). -/
def divsFit (s : State) (ts : List (Nat × Team)) : Bool :=
  ts.all fun e =>
    let core := teamCore e.2
    let mine := fun (d : Div) => ts.any fun x => x.1 == d.team
    decide ((ts.filter fun x => teamCore x.2 == core).foldl (fun n x => n + (teamDivs x.1 x.2 0 0).length) 0
      + ((coreOf s core).divs.filter fun d => !mine d.2).length ≤ 64)

/-- A trap of the context that holds a core, put off to the resume: one whose path has gone on is held by its group, unless
STOP has served it (16 R373, R375). -/
def releaseCore (s : State) (c core : Nat) (stopped : Bool) : State :=
  let K := coreOf s core
  if K.frozen && K.trap.ctx == c then
    let t := K.trapAt.1
    let g := K.trapAt.2
    let s1 := match K.replay with
      | some o => if stopped then s else modGroup s t g fun G => { G with asyncs := { tr := K.trap, op := o } :: G.asyncs }
      | none => s
    unfreeze s1 core
  else s

/-- What a suspension leaves in traces and captures: a record of type 7, a pre-emption for each running packet. -/
def noteSuspend (s : State) (c : Nat) (ts : List (Nat × Team)) : State :=
  let s1 := traceOut { s with free := s.free + 1 } (Config.traceDie s.free % 8) s.gt { type := 7, ctx := c }
  ((ts.map fun e => (e.2.queue, e.2.pkt)).eraseDups).foldl (fun s x => noteEvent s c x.1 x.2 48) s1

/-- A context is taken: its cores' traps are put off, the save of its teams begins, discards are carried out. -/
def takeContext (s : State) (c : Nat) (saved dropped : List (Nat × Team)) : State :=
  let C := ctxOf s c
  let stop := (C.susReq.getD (0, 0)).1 == 2
  let ls := discardedLaunches s c
  let s1 := noteSuspend s c (saved ++ dropped)
  let cores := ((saved ++ dropped).map fun e => teamCore e.2).eraseDups
  let s2 := cores.foldl (fun s k => releaseCore s c k stop) s1
  let s3 := saveWrite s2 c C.saveBase (leBytes saved.length 64)
  let s4 := beginSaves s3 (C.saveBase + 4096) saved
  let s5 := redeal (dropped.foldl (fun s e => dropTeam s e.1) s4) ls
  modCtx s5 c fun C => { C with taking := true }

/-- The end of a suspension (16 R382 step 7). -/
def endTake (s : State) (c : Nat) : State :=
  modCtx s c fun C => { C with sstate := if (C.susReq.getD (0, 0)).1 = 2 then 4 else 2, taking := false, maskTicks := 0, overrun := false }

/-- The teams of a context that are being saved. -/
def savingTeams (s : State) (c : Nat) : List (Nat × Team) :=
  (teamsOf s c).filter fun e => match e.2.away with
    | .saving _ => true
    | _ => false

/-- A further step of a suspension: a unit of the first team that has one to save, or a team's end, or the context's. It
waits while what is written to the save area does (08 R197). -/
def takeStep (s : State) (c : Nat) : State :=
  if !(ctxOf s c).saveWait.isEmpty then s
  else match savingTeams s c with
  | [] => endTake s c
  | ts => match ts.findSome? fun x => (nextSave s x.1).map fun e => (x.1, e) with
    | some (t, e, d) => saveUnit s t e d
    | none => match ts.find? fun x => allSaved s x.1 with
      | some (t, _) => endSave s t
      | none => s

/-- The discarded and the saved teams of a suspension. -/
def takenTeams (s : State) (c : Nat) (discard : Bool) : List (Nat × Team) :=
  (teamsOf s c).filter fun e => e.2.away == .present && isDiscarded s e.2 == discard

/-- SUSPEND: a context is taken off the module, a step at a time. -/
def execSuspend (ctx : Nat) (s : State) : Host.Outcome State Fault Refusal :=
  let C := ctxOf s ctx
  if C.taking then .next (takeStep s ctx)
  else if !mayTake s ctx then .next s
  else
    let dropped := takenTeams s ctx true
    let saved := takenTeams s ctx false
    if preemptOver s C then
      .next (modCtx s ctx fun C => { C with sstate := 0, susReq := none, overrun := false, maskTicks := 0, preBy := none })
    else if C.saveLen * 4096 < 4096 + saved.foldl (fun n e => n + imgEnd e.2) 0 then
      .next (modCtx (logAppend s ctx 7 {} []).1 ctx fun C =>
        { C with sstate := 5, susReq := none, overrun := false, maskTicks := 0, preBy := none })
    else if !divsFit s (saved ++ dropped) then .next s
    else .next (takeContext s ctx saved dropped)

/-! ### RREQ (16 R389) -/

/-- The dies in the order in which a saved team is tried: its own first. -/
def diesFrom (d : Nat) : List Nat := d :: (List.range 8).filter (· != d)

/-- One saved team of the module placed by the first distributor that takes one before any other work. -/
def placeOne (s : State) (d : Nat) : State :=
  (diesFrom d).foldl (fun (r : State × Bool) die =>
    if r.2 || (dieOf r.1 die).out then r
    else match firstPlaced r.1 die [] (candidates r.1 die) with
      | some (.saved t T, core, g) => (placeCand r.1 die [] (.saved t T) core g, true)
      | _ => r) (s, false) |>.1

/-- A resume: the saved teams that have room are placed at once, the others as room appears. -/
def resumeNow (s : State) (ctx : Nat) : State :=
  let s1 := askResume s ctx
  if (ctxOf s1 ctx).sstate = 3 ∧ (ctxOf s ctx).sstate ≠ 3 then
    (teamsOf s1 ctx).foldl (fun s e => if isSaved e.2 then placeOne s e.2.die else s) s1
  else s1

/-- RREQ. -/
def execRreq (ctx : Nat) (s : State) : Host.Outcome State Fault Refusal := .next (resumeNow s ctx)

end Sys2Proof.Machine
end

