-- ==== Sys2Proof/Machine/Commands.lean ====
section
/-! DEFINITION. What the host reaches through the BARs: the commands of the device control page (19 R425), the register
pages with their access codes (00 R7, R9, 19 R424), cruise bins (18 R412, R413), trace ring control (18 R414). -/

namespace Sys2Proof.Machine

/-! ### The command interfaces -/

def cmdOf (s : State) (p : Nat) : CmdPort := tget {} s.cmds p
def putCmd (s : State) (p : Nat) (C : CmdPort) : State := { s with cmds := tput s.cmds p C }

/-- A command of a port ends with a status. -/
def endCmd (s : State) (p status : Nat) : State := putCmd s p { cmdOf s p with run := none, status := status }

/-- n bytes of host memory behind a port, none where they are uncorrectable. -/
def hostDesc (s : State) (p pa n : Nat) : Option Nat :=
  if meetsBad s (hostKey p pa) n false then none else some (readNat s.mem (hostKey p pa) n)

/-- The contexts and queues that the running command of a port names: true and a context's number, false and a queue's. -/
def cmdNames (s : State) (p : Nat) : List (Bool × Nat) :=
  match (cmdOf s p).run with
  | some (1, _, a) => ((hostDesc s p a 128).map fun x => (true, descNum x)).toList
  | some (2, c, _) => [(true, c)]
  | some (3, n, a) => (false, n) :: ((hostDesc s p a 32).map fun x => (true, bits x 137 128)).toList
  | some (4, n, _) | some (5, n, _) => [(false, n)]
  | _ => []

/-- Whether the command of a port waits for one of the other port, whose GO was written before and which names the same
context or queue. -/
def cmdWaits (s : State) (p : Nat) : Bool :=
  s.cmds.any fun e => e.1 != p && e.2.run.isSome && decide (e.2.go < (cmdOf s p).go)
    && (cmdNames s p).any fun x => (cmdNames s e.1).contains x

/-- Runs a command's effect where the port runs that command: the effect sees the arguments, and gives the state and
status. -/
def runCmd (s : State) (p code : Nat) (f : Nat → Nat → State × Nat) : Host.Outcome State Fault Refusal :=
  match (cmdOf s p).run with
  | some (c, a0, a1) => if c = code ∧ cmdWaits s p = false then .next (let r := f a0 a1; endCmd r.1 p r.2) else .next s
  | none => .next s

/-- The place of a GO write: after those of the commands that run. -/
def nextGo (s : State) : Nat := s.cmds.foldl (fun n e => max n (e.2.go + 1)) 0

/-- CREATE_CONTEXT (16 R367, R368). -/
def execCreateContext (port : Nat) (s : State) : Host.Outcome State Fault Refusal :=
  runCmd s port 1 fun _ a =>
    match hostDesc s port a 128 with
    | none => (s, 1)
    | some x =>
      if a % 128 != 0 || ctxDescBad x || (tfind s.ctxs (descNum x)).isSome then (s, 1)
      else
        let C := applyDesc x { desc := hostKey port a, port := port, ptAt := pastNow s, icode := s.mem }
        ({ s with ctxs := tput s.ctxs (descNum x) C }, 0)

/-- The banks that a context owned lose their owner. -/
def disown (s : State) (c : Nat) : State :=
  { s with cores := tmap s.cores fun _ K => { K with banks := tmap K.banks fun _ B =>
      if B.owned && B.owner == c then { B with owned := false } else B } }

/-- DESTROY_CONTEXT: nothing is left of what a discard let run on. -/
def execDestroyContext (port : Nat) (s : State) : Host.Outcome State Fault Refusal :=
  runCmd s port 2 fun c _ =>
    if (tfind s.ctxs c).isNone then (s, 1)
    else if (s.queues.any fun e => e.2.ctx == c) || (teamsOf s c).any fun e => e.2.away != .dropped then (s, 2)
    else
      let s1 := disown s c
      ({ s1 with ctxs := tdel s1.ctxs c, teams := s1.teams.filter fun e => e.2.ctl || e.2.ctx != c }, 0)

/-- The reserved bits and alignments of a queue descriptor (15 R353). -/
def queueDescBad (x : Nat) : Bool :=
  bits x 63 56 != 0 || bits x 127 124 != 0 || bits x 255 154 != 0 || bits x 5 0 != 0 || bits x 69 64 != 0

/-- A queue with a descriptor's fields. -/
def queueFrom (x desc now : Nat) : Queue :=
  { hdr := bits x 55 0, ring := bits x 119 64, capl := bits x 123 120, ctx := bits x 137 128, prio := bits x 139 138,
    devq := bit x 140, live := bit x 141, chunk := bits x 153 142, desc := desc, seen := now }

/-- CREATE_QUEUE. -/
def execCreateQueue (port : Nat) (s : State) : Host.Outcome State Fault Refusal :=
  runCmd s port 3 fun n a =>
    match hostDesc s port a 32 with
    | none => (s, 1)
    | some x =>
      if a % 32 != 0 || decide (2 ^ 12 ≤ n) || (tfind s.queues n).isSome || (tfind s.ctxs (bits x 137 128)).isNone || queueDescBad x then
        (s, 1)
      else ({ s with queues := tput s.queues n (queueFrom x a s.gt) }, 0)

/-- DESTROY_QUEUE. -/
def execDestroyQueue (port : Nat) (s : State) : Host.Outcome State Fault Refusal :=
  runCmd s port 4 fun n _ =>
    match tfind s.queues n with
    | none => (s, 1)
    | some Q => if Q.pkts.isEmpty then ({ s with queues := tdel s.queues n }, 0) else (s, 2)

/-- RELOAD_QUEUE: the descriptor is read again over the port that issued the command. -/
def execReloadQueue (port : Nat) (s : State) : Host.Outcome State Fault Refusal :=
  runCmd s port 5 fun n _ =>
    match tfind s.queues n with
    | none => (s, 1)
    | some Q =>
      let x := readNat s.mem (hostKey port Q.desc) 32
      let N := queueFrom x Q.desc s.gt
      if meetsBad s (hostKey port Q.desc) 32 false || queueDescBad x || N.hdr != Q.hdr || N.ring != Q.ring || N.capl != Q.capl || N.ctx != Q.ctx then
        (s, 1)
      else (modQueue s n fun Q => { Q with prio := N.prio, devq := N.devq, live := N.live, chunk := N.chunk }, 0)

/-- UNKNOWN_COMMAND. -/
def execUnknownCommand (port : Nat) (s : State) : Host.Outcome State Fault Refusal :=
  match (cmdOf s port).run with
  | some (c, _, _) => if c = 0 ∨ 5 < c then .next (endCmd s port 3) else .next s
  | none => .next s

/-! ### Cruise bins (18 R412) and core headers (18 R413) -/

/-- A bin's record. -/
def binNat (B : Bin) : Nat :=
  pack [(56, B.lo), (8, 0), (56, B.hi), (1, B.en.toNat), (1, B.allctx.toNat), (10, B.ctx), (60, 0),
    (64, B.act % 2 ^ 64), (64, B.div % 2 ^ 64), (64, B.prd % 2 ^ 64), (64, B.abs % 2 ^ 64), (64, B.iss % 2 ^ 64)]

/-- A bin with one byte of its record written: bytes 0 to 23 clear the counters. -/
def binPut (B : Bin) (i : Nat) (b : Byte) : Bin :=
  if 24 ≤ i then B
  else
    let x := setByte (binNat B) i b
    { lo := bits x 55 0, hi := bits x 119 64, en := bit x 120, allctx := bit x 121, ctx := bits x 131 122 }

/-- The slots of a core that have issued in this tick. -/
def issuedNow (s : State) (K : Core) : List Nat := (K.issued.filter fun e => e.2 == s.ran + 1).map (·.1)

/-- CHOLD written: while it is 1 no tick counts, the one of the write among them. -/
def setChold (s : State) (core : Nat) (on : Bool) : State :=
  let K := coreOf s core
  let count := fun (f : Nat → Nat) => (issuedNow s K).foldl (fun m k => tput m k (f (tget 0 m k))) K.used
  if K.chold = on then s
  else if on then modCore s core fun K => { K with chold := true, holdAt := s.ran, used := count (· - 1) }
  else modCore s core fun K => { K with chold := false, held := K.held + (s.ran - K.holdAt), used := count (· + 1) }

/-- IDLE.k of a core: 96 units for each counted tick that is over and in which slot k issued nothing. -/
def idleUnits (s : State) (core k : Nat) : Nat :=
  let K := coreOf s core
  let now := if K.chold then K.holdAt else s.ran
  let used := tget 0 K.used k - (if !K.chold && (issuedNow s K).contains k then 1 else 0)
  96 * (now - (dieOf s (core / 320)).since - K.held - used) % 2 ^ 64

/-- BIN_RECORD_WRITE: n bytes written at an offset of a bin's record. -/
def execBinRecordWrite (core bin off n value : Nat) (s : State) : Host.Outcome State Fault Refusal :=
  if 2560 ≤ core ∨ 64 ≤ bin ∨ 64 < off + n then .next s
  else
    let put := fun (B : Bin) => ((leBytes value n).zip (List.range n)).foldl (fun B x => binPut B (off + x.2) x.1) B
    .next (modCore s core fun K => { K with bins := tput K.bins bin (put (tget {} K.bins bin)) })

/-! ### Register pages (19 R424) -/

/-- The trace ring control of a die (18 R414). -/
def traceNat (D : Die) : Nat :=
  pack [(56, D.trBase), (8, 0), (4, D.trCapl), (1, D.trEn.toNat), (8, D.trMask), (51, 0), (64, D.trHead), (64, D.trTail),
    (64, D.trLost)]

/-- One byte written to a trace ring control. A TRBASE that is no multiple of 4 KiB is kept as written: DESIGN CHOICE, log
entry 34. -/
def tracePut (D : Die) (i : Nat) (b : Byte) : Die :=
  let x := setByte (traceNat D) i b
  { D with trBase := bits x 55 0, trCapl := bits x 67 64, trEn := bit x 68, trMask := bits x 76 69, trTail := bits x 255 192 }

/-- One byte written to a context control page. -/
def ctxPut (s : State) (c i : Nat) (b : Byte) : State :=
  if (tfind s.ctxs c).isNone then s
  else if i = 56 then (if bit b.toNat 0 then takeSnap s c else s)
  else if 64 ≤ i ∧ i < 72 then modCtx s c fun C => { C with iva := setByte C.iva (i - 64) b }
  else if 72 ≤ i ∧ i < 76 then modCtx s c fun C => { C with ipages := setByte C.ipages (i - 72) b }
  else if i = 76 then (if bit b.toNat 0 then startInval s c else s)
  else if i = 80 then
    let s1 := if bit b.toNat 0 then requestSuspend s c 0 else s
    if bit b.toNat 1 then resumeNow s1 c else s1
  else s

/-- One byte written to a port's command interface. GO while a command runs is ignored. -/
def cmdPut (s : State) (p i : Nat) (b : Byte) : State :=
  let C := cmdOf s p
  if i = 0 then putCmd s p { C with cmd := b.toNat }
  else if 4 ≤ i ∧ i < 8 then putCmd s p { C with arg0 := setByte C.arg0 (i - 4) b }
  else if 8 ≤ i ∧ i < 16 then putCmd s p { C with arg1 := setByte C.arg1 (i - 8) b }
  else if i = 16 ∧ bit b.toNat 0 ∧ C.run.isNone then putCmd s p { C with run := some (C.cmd, C.arg0, C.arg1), go := nextGo s }
  else s

/-- One byte written to a die's observation window. -/
def observePut (s : State) (die i : Nat) (b : Byte) : State :=
  if i < 0x140000 then
    modCore s (die * 320 + i / 4096) fun K =>
      let n := i % 4096 / 64
      { K with bins := tput K.bins n (binPut (tget {} K.bins n) (i % 64) b) }
  else if i < 0x145000 then
    (if (i - 0x140000) % 64 = 0 then setChold s (die * 320 + (i - 0x140000) / 64) (bit b.toNat 0) else s)
  else if 0x146000 ≤ i ∧ i < 0x146028 then modDie s die fun D => tracePut D (i - 0x146000) b
  else s

/-- One byte written to a BAR. -/
def barPut (s : State) (bar off : Nat) (b : Byte) : State :=
  if bar = 0 then
    if off < 0x400000 then ctxPut s (off / 4096) (off % 4096) b
    else if off < 0x400080 then cmdPut s ((off - 0x400000) / 64) ((off - 0x400000) % 64) b
    else s
  else if bar = 2 ∧ off < 0x1000000 then
    (if off % 4096 < 8 then modQueue s (off / 4096) fun Q => { Q with notified := true } else s)
  else if bar = 4 ∧ off < 0x1000000 then observePut s (off / 0x200000) (off % 0x200000) b
  else s

/-- REGISTER_WRITE: n bytes written at an offset of a BAR, lowest first. -/
def execRegisterWrite (bar off n value : Nat) (s : State) : Host.Outcome State Fault Refusal :=
  if 8 < n then .next s
  else .next (((leBytes value n).zip (List.range n)).foldl (fun s x => barPut s bar (off + x.2) x.1) s)

/-! ### What a read of a register page returns -/

/-- A context control page's first 96 bytes (01 R17, 08 R195, 16 R369). -/
def ctxPage (C : Ctx) : Nat :=
  let w := fun (k : Nat) => C.snap.getD k 0
  pack [(64, w 0), (64, w 1), (64, w 2), (64, w 3), (64, w 4), (32, w 5), (32, w 6), (64, w 7), (64, 0), (64, C.iva),
    (32, C.ipages), (1, 0), (1, C.idone.toNat), (30, 0), (2, 0), (3, C.sstate), (27, 0), (32, C.flHead), (32, C.flLost), (32, 0)]

/-- A command interface's 64 bytes. -/
def cmdNat (C : CmdPort) : Nat :=
  pack [(8, C.cmd), (24, 0), (32, C.arg0), (64, C.arg1), (1, 0), (1, C.run.isSome.toNat), (6, 0), (8, C.status), (368, 0)]

/-- One byte of a die's observation window. -/
def observeByte (s : State) (die i : Nat) : Byte :=
  if i < 0x140000 then byteOf (binNat (tget {} (coreOf s (die * 320 + i / 4096)).bins (i % 4096 / 64))) (i % 64)
  else if i < 0x145000 then
    let core := die * 320 + (i - 0x140000) / 64
    byteOf (pack [(64, (coreOf s core).chold.toNat), (64, idleUnits s core 0), (64, idleUnits s core 1), (64, idleUnits s core 2),
      (64, idleUnits s core 3), (192, 0)]) ((i - 0x140000) % 64)
  else if i < 0x145A00 then
    let L := tget ({} : Cluster) s.clusters (die * 80 + (i - 0x145000) / 32)
    byteOf (pack [(64, L.conflict % 2 ^ 64), (64, L.emupass % 2 ^ 64), (64, L.emuticks % 2 ^ 64), (64, 0)]) ((i - 0x145000) % 32)
  else if 0x146000 ≤ i ∧ i < 0x146028 then byteOf (traceNat (dieOf s die)) (i - 0x146000)
  else 0

/-- One byte of a BAR as a read returns it; reads change nothing. -/
def barByte (s : State) (bar off : Nat) : Byte :=
  if bar = 0 then
    if off < 0x400000 then
      match tfind s.ctxs (off / 4096) with
      | some C => if off % 4096 < 96 then byteOf (ctxPage C) (off % 4096) else 0
      | none => 0
    else if off < 0x400080 then byteOf (cmdNat (cmdOf s ((off - 0x400000) / 64))) ((off - 0x400000) % 64)
    else 0
  else if bar = 4 ∧ off < 0x1000000 then observeByte s (off / 0x200000) (off % 0x200000)
  else 0

end Sys2Proof.Machine
end

