-- ==== Sys2Proof/Machine/Compactor.lean ====
section
/-! DEFINITION. The compactor: which head team it works for, the core and the moves it takes, and the moves themselves (05 R118,
07 R177, 15 R363, 16 R392). -/

namespace Sys2Proof.Machine

/-! ### Plans (15 R363) -/

/-- A block that may lie elsewhere: its base, its size, what its move counts. -/
structure Block where
  base : Nat
  size : Nat
  weight : Nat

/-- A plan for a range: how much it moves, and the moves as old and new base, in an order in which each finds its place free. -/
structure Plan where
  cost : Nat := 0
  moves : List (Nat × Nat) := []

/-- The ways to part a list: what moves, what stays. -/
def parts {α : Type} : List α → List (List α × List α)
  | [] => [([], [])]
  | x :: xs => (parts xs).flatMap fun p => [(p.1, x :: p.2), (x :: p.1, p.2)]

/-- Blocks by falling size, those of one size in their order; none as a base is a block that is wanted. -/
def bySize (l : List (Option Nat × Nat)) : List (Option Nat × Nat) :=
  l.foldl (fun r x => (r.filter fun y => decide (x.2 ≤ y.2)) ++ [x] ++ r.filter fun y => decide (y.2 < x.2)) []

/-- Blocks put one after another, each at the lowest place that is free: the moves of those that had a place, the last block
first. Where blocks are put by falling size it finds places for all if there are any: their sizes are powers of two. -/
def putBlocks (bound : Nat) : List (Nat × Nat) → List (Option Nat × Nat) → Option (List (Nat × Nat))
  | _, [] => some []
  | held, (from_, n) :: rest => (buddyPlace held n bound).bind fun b =>
      (putBlocks bound ((b, n) :: held) rest).map fun r => r ++ (from_.map fun a => (a, b)).toList

/-- The way to make room for blocks of some sizes below a bound that moves the least; `fixed` may not move. In such a way each
block that moves makes room for a larger one, so the smaller ones move first. -/
def leastMoves (held : List Block) (fixed : List (Nat × Nat)) (wanted : List Nat) (bound : Nat) : Option Plan :=
  ((parts held).filterMap fun p =>
    let stay := fixed ++ p.2.map fun b => (b.base, b.size)
    (putBlocks bound stay (bySize ((wanted.map fun n => (none, n)) ++ p.1.map fun b => (some b.base, b.size)))).map fun m =>
      { cost := p.1.foldl (fun n b => n + b.weight) 0, moves := m : Plan }).foldl
    (fun (best : Option Plan) P => match best with
      | none => some P
      | some Q => if P.cost < Q.cost then some P else some Q) none

/-- A move of the compactor on a core: a block of rows of an issue slot, or a landing block. -/
inductive PlanMove
  | rows (slot pb dst : Nat)
  | land (base dst : Nat)
  deriving DecidableEq, Repr

/-- The plans of an issue slot for some groups of one block size and some of another. -/
def slotPlans (ts : List Team) (k bp bc p c : Nat) : List (Nat × Nat × Plan) :=
  let blocks := fun (ts : List Team) => (heldBlocks ts).filter fun h => h.slot == k
  let held := (blocks (ts.filter fun T => T.away == .present)).map fun h => { base := h.pb, size := h.blk, weight := h.blk : Block }
  let fixed := (blocks (ts.filter fun T => T.away != .present)).map fun h => (h.pb, h.blk)
  let room := 8 - (blocks ts).length
  ((List.range (p + 1)).flatMap fun a => (List.range (c + 1)).map fun b => (a, b)).filterMap fun x =>
    if room < x.1 + x.2 ∨ slotFree (heldBlocks ts) k < x.1 * bp + x.2 * bc then none
    else (leastMoves held fixed (List.replicate x.1 bp ++ List.replicate x.2 bc) 512).map fun P => (x.1, x.2, P)

/-- The ways to share groups of two block sizes out among slots, each slot with its plan. -/
def shareOut : List (Nat × List (Nat × Nat × Plan)) → Nat → Nat → List (Nat × List PlanMove)
  | [], p, c => if p = 0 ∧ c = 0 then [(0, [])] else []
  | (k, plans) :: rest, p, c => plans.flatMap fun x =>
      if p < x.1 ∨ c < x.2.1 then []
      else (shareOut rest (p - x.1) (c - x.2.1)).map fun r =>
        (x.2.2.cost + r.1, (x.2.2.moves.map fun m => .rows k m.1 m.2) ++ r.2)

/-- A held block after some moves. -/
def afterMoves (ms : List PlanMove) (h : Held_) : Held_ :=
  match ms.find? fun m => match m with
      | .rows k pb _ => k == h.slot && pb == h.pb
      | .land _ _ => false with
  | some (.rows _ _ dst) => { h with pb := dst }
  | _ => h

/-- The fewest rows moved on a core after which the distributor finds a place for every group, with the moves (15 R363). -/
def planGroups (ts : List Team) (blocks : List Nat) : Option (Nat × List PlanMove) :=
  let bp := blocks.headD 32
  let others := blocks.filter (· != bp)
  let bc := others.headD bp
  let plans := (List.range 4).map fun k => (k, slotPlans ts k bp bc (blocks.length - others.length) others.length)
  (shareOut plans (blocks.length - others.length) others.length).foldl (fun (best : Option (Nat × List PlanMove)) r =>
    if (best.all fun b => decide (r.1 < b.1)) && (placeGroups ((heldBlocks ts).map (afterMoves r.2)) blocks).isSome then some r
    else best) none

/-- The fewest granules moved on a core after which a landing block of a size has a place, with the moves. -/
def planLand (ts : List Team) (size : Nat) : Option Plan :=
  if size = 0 then some {}
  else
    let still := fun (T : Team) => T.away != .present || T.moving.isSome
    let held := (ts.filter fun T => !still T && T.lsz != 0).map fun T =>
      { base := T.landBase, size := landBlock T.lsz, weight := landGranules T : Block }
    leastMoves held (heldLand (ts.filter still)) [size] 128

/-- What the moves that would place a team on a core come to, and the moves. -/
def planCore (s : State) (core : Nat) (a : Ask) : Option (Nat × List PlanMove) :=
  let ts := coreTeams s core
  (planLand ts a.land).bind fun P => (planGroups ts a.blocks).map fun r =>
    (P.cost + r.1, (P.moves.map fun m => .land m.1 m.2) ++ r.2)

/-! ### The head team (15 R363) -/

/-- What a candidate asks of a core. -/
def candAsk : Cand → Ask
  | .head _ _ L x _ => askOf x L
  | .saved _ T => askSaved T

/-- Whether a candidate has a place on a die. -/
def hasPlace (s : State) (die : Nat) (c : Cand) : Bool :=
  match c with
  | .head _ _ L x _ => (findCore s die (askOf x L)).isSome
  | .saved t T => (findSaved s die t T).isSome

/-- The cores of a die that only fragmentation keeps from a candidate, where no core takes it. -/
def fragCores (s : State) (die : Nat) (c : Cand) : List Nat :=
  if hasPlace s die c then [] else (coresOf die).filter fun k => fragmented s k (candAsk c)

/-- The tick since which a candidate has failed on a die only through fragmentation. -/
def blockedSince (die : Nat) : Cand → Option Nat
  | .head _ _ L _ _ => tfind L.blocked die
  | .saved _ T => tfind T.blocked die

/-- In each tick: since when each head team, and each saved team, has failed on a die only through fragmentation. -/
def noteBlocked (s : State) (die : Nat) : State :=
  (candidates s die).foldl (fun s c =>
    let put := fun (m : Table Nat) =>
      if (fragCores s die c).isEmpty then tdel m die else if (tfind m die).isSome then m else tput m die s.gt
    match c with
    | .head q i _ _ _ => modLaunch s q i fun L => { L with blocked := put L.blocked }
    | .saved t _ => modTeam s t fun T => { T with blocked := put T.blocked }) s

/-- The first candidate of a die that has been blocked for 4,096 ticks, in the order of placement. -/
def lateCand (s : State) (die : Nat) : Option Cand :=
  (candidates s die).find? fun c => match blockedSince die c with
    | some since => decide (since + 4096 ≤ s.gt)
    | none => false

/-- The core whose moves place a candidate with the fewest granules and rows moved, the lowest of several; with the moves. -/
def bestCore (s : State) (die : Nat) (c : Cand) : Option (Nat × List PlanMove) :=
  ((fragCores s die c).foldl (fun (best : Option (Nat × Nat × List PlanMove)) k =>
    match planCore s k (candAsk c), best with
    | none, b => b
    | some p, none => some (p.1, k, p.2)
    | some p, some b => if p.1 < b.1 then some (p.1, k, p.2) else some b) none).map (·.2)

/-- Whether the compactor of a die works for a candidate, on a core where moves would still place it. -/
def compactsFor (s : State) (die : Nat) (c : Cand) : Bool :=
  match (dieOf s die).compact with
  | some k => fragmented s k (candAsk c) && (planCore s k (candAsk c)).isSome
  | none => false

/-- COMPACTOR_RUN: the compactor starts on the core that the rule names, and stays there while its moves serve. -/
def execCompactorRun (die : Nat) (s : State) : Host.Outcome State Fault Refusal :=
  match lateCand s die with
  | some c =>
    if compactsFor s die c then .next s
    else match bestCore s die c with
      | some (k, _) => .next (modDie s die fun D => { D with compact := some k })
      | none => .next s
  | none => .next s

/-! ### The moves (05 R118, 07 R177, 16 R392) -/

/-- Whether the compactor works on a team's core. -/
def compacting (s : State) (T : Team) : Bool := (dieOf s T.die).compact == some (teamCore T) && T.away == .present && !T.ctl

/-- Whether a block of rows is free on a slot but for its owner (05 R118). -/
def blockFree (s : State) (T : Team) (G : Group) (pb : Nat) : Bool :=
  pb % G.blk == 0 && decide (pb + G.blk ≤ 512) && (heldBlocks (coreTeams s (teamCore T))).all fun h =>
    h.slot != G.slot || h.gslot == G.gslot || decide (h.pb + h.blk ≤ pb) || decide (pb + G.blk ≤ h.pb)

/-- Whether a landing block is free on a core but for the team's own (07 R177). -/
def landFree (s : State) (T : Team) (base : Nat) : Bool :=
  let n := landBlock T.lsz
  decide (0 < n) && base % n == 0 && decide (base + n ≤ 128) && decide (base ≠ T.landBase) &&
    (heldLand (coreTeams s (teamCore T))).all fun h => decide (h.1 + h.2 ≤ base) || decide (base + n ≤ h.1)

/-- A copy of a granule that may start: fenced while a diversion entry is free, unfenced where none is and no engine
operation of the team is outstanding (07 R177). -/
def granuleStart (s : State) (T : Team) : Option Bool :=
  if 0 < divRoom (coreOf s (teamCore T)) then some true
  else if T.copies.isEmpty && T.csums.isEmpty && T.mops.isEmpty && T.marches.isEmpty && T.jobs.isEmpty then some false
  else none

/-- An entry in state HOLD over units of a team, while the compactor copies them (16 R392). -/
def hold (s : State) (t kind group first count : Nat) : State :=
  let T := teamOf s t
  modCore s (teamCore T) fun K => { K with divs := addDivs K.divs [holdDiv t T kind group first count] }

/-- The copy of a granule begins. -/
def moveGranule (s : State) (t base granule : Nat) (fenced : Bool) : State :=
  let s1 := modTeam s t fun T => { T with moving := some { newBase := base, granule := granule, fenced := fenced } }
  if fenced then hold s1 t 0 0 granule 1 else s1

/-- COMPACTOR_MOVE: a group's block moves while the group is paused, under an entry; a team's landing block begins to
move. -/
def execCompactorMove (t : Nat) (what : Moved) (s : State) : Host.Outcome State Fault Refusal :=
  match tfind s.teams t with
  | none => .next s
  | some T =>
    if !compacting s T then .next s
    else match what with
      | .block g pb => match tfind T.groups g with
        | none => .next s
        | some G =>
          if blockFree s T G pb && decide (pb ≠ G.pb) && decide (0 < divRoom (coreOf s (teamCore T)))
            && (coreTeams s (teamCore T)).all fun T => T.groups.all fun G => G.2.paused == 0 then
            .next (modGroup (hold s t 1 g G.rb G.blk) t g fun G => { G with pb := pb, paused := 4 * G.blk })
          else .next s
      | .granule base =>
        if !landFree s T base || T.moving.isSome then .next s
        else match granuleStart s T with
          | some f => .next (moveGranule s t base 0 f)
          | none => .next s

/-- One tick of a landing block's move; behind each granule its hold queue is applied and its entry freed. -/
def tickMove (s : State) (t : Nat) : State :=
  match (teamOf s t).moving with
  | none => s
  | some M =>
    if 1 < M.left then modTeam s t fun T => { T with moving := some { M with left := M.left - 1 } }
    else
      let s1 := if M.left = 1 then
        modTeam (if M.fenced then freeHold s t 0 0 else s) t fun T => { T with moving := some { M with left := 0 } } else s
      let T := teamOf s1 t
      if landGranules T ≤ M.granule + 1 then modTeam s1 t fun T => { T with moving := none, landBase := M.newBase }
      else match granuleStart s1 T with
        | some f => moveGranule s1 t M.newBase (M.granule + 1) f
        | none => s1

/-- The end of a group's pause: the hold queue of its block is applied (05 R118). -/
def endPauses (s0 s : State) (t : Nat) : State :=
  (teamOf s t).groups.foldl (fun s G =>
    if G.2.paused = 0 ∧ (groupOf s0 t G.1).paused ≠ 0 then freeHold s t 1 G.1 else s) s

/-- The next move of the plan that places a die's late team on the core where the compactor works. -/
def nextMove (s : State) (die : Nat) : Option (Nat × Moved) :=
  (dieOf s die).compact.bind fun k => (lateCand s die).bind fun c => (planCore s k (candAsk c)).bind fun p =>
    p.2.head?.bind fun m => match m with
      | .rows slot pb dst => s.teams.findSome? fun e =>
          if onCore k e.2 then (e.2.groups.find? fun G => G.2.slot == slot && G.2.pb == pb).map fun G => (e.1, Moved.block G.1 dst) else none
      | .land base dst => (s.teams.find? fun e => onCore k e.2 && e.2.lsz != 0 && e.2.landBase == base).map fun e => (e.1, Moved.granule dst)

end Sys2Proof.Machine
end

