-- ==== Sys2Proof/Machine/Gather.lean ====
section
/-! DEFINITION. Register gather and prefix scan: GSHFL and GSCAN (14 R351, R352). -/

namespace Sys2Proof.Machine

/-- A word of an eight-row window: word j is row j div 96, lane j mod 96; zero beyond it or in an absent lane. -/
def windowWord (c : Iss) (a : Operand) (j : Nat) : Nat :=
  if 768 ≤ j || !c.G.present.getLsbD (j % 96) then 0 else rd c a (j / 96) (j % 96)

def execGshfl (look : Nat) (wrap : Bool) (d a : Operand) (s : State) : Host.Outcome State Fault Refusal :=
  laneLook (.gshfl look wrap d a) look
    { d := d, dn := fun _ => 1, dsrc := true, srcs := [⟨a, fun _ => 8⟩],
      opBad := match d, a with
        | .v _, .v k => k % 8 != 0
        | _, _ => true }
    (fun c l =>
      let j := rd c d 0 l
      windowWord c a (if wrap then j % 768 else j)) s

/-- The active lanes up to a lane. -/
def lanesUpTo (m : Mask) (l : Nat) : List Nat := (lanesOf m).filter fun k => decide (k ≤ l)

/-- The types of GSCAN's operators. -/
def scanBad (op : ScanOp) (gm : GM) : Bool :=
  match op with
  | .add => !tyInt gm.type && !(tyIeee gm.type && !stoBad gm)
  | .min | .max => !tyInt gm.type && !tyFlt gm.type
  | .and | .or | .xor => !bits64 gm

/-- One floating step: the sum of the values read under FTZ, rounded; the first two terms are summed in one step. -/
def scanAdd (gm : GM) (x y : Nat) : Nat :=
  let t := gm.type
  let v := fun (w : Nat) => decEx t (ftzIn t gm.ftz w)
  fRes gm t (exAdd (isRdn gm) (v x) (v y))

/-- The value of a lone floating term, which no step rounds; any NaN is the canonical one (03 R64). `ftz` reads a subnormal term
as zero (03 R75). -/
def scanOne (t : Ty) (ftz : Bool) (x : Nat) : Nat := if exIsNan (decEx t x) then nanOf t else ftzIn t ftz x

/-- The lesser or greater of two integer elements. -/
def intPick (t : Ty) (least : Bool) (x y : Nat) : Nat :=
  if (if least then decide (intOf t y < intOf t x) else decide (intOf t x < intOf t y)) then y else x

/-- The scan of a list of elements, the lowest lane first. -/
def scanFold (op : ScanOp) (gm : GM) (xs : List Nat) : Nat :=
  let t := gm.type
  let fold := fun (f : Nat → Nat → Nat) => match xs with
    | [] => 0
    | x :: rest => rest.foldl f x
  let floats := fun (ftz : Bool) (f : Nat → Nat → Nat) => match xs with
    | [x] => scanOne t ftz x
    | _ => fold f
  match op with
  | .add =>
    if tyInt t then reduceInt t gm.sat (xs.foldl (fun r x => r + intOf t x) 0)
    else floats gm.ftz (scanAdd gm)
  | .min => if tyInt t then fold (intPick t true) else floats false (minmaxBits t true)
  | .max => if tyInt t then fold (intPick t false) else floats false (minmaxBits t false)
  | .and => fold fun r x => r &&& x
  | .or => fold fun r x => r ||| x
  | .xor => fold fun r x => r ^^^ x

def execGscan (op : ScanOp) (d a : Operand) (s : State) : Host.Outcome State Fault Refusal :=
  laneOp (.gscan op d a) { d := d, srcs := [typed a], modeBad := scanBad op, opBad := !isVector d || a == .drain }
    (fun c l =>
      let t := c.P.gm.type
      asType c.P.gm (scanFold op c.P.gm ((lanesUpTo c.act l).map fun k => tyElem c t a k))) s

end Sys2Proof.Machine
end

