-- ==== Sys2Proof/Machine/Grants.lean ====
section
/-! DEFINITION. The grants and completions of the MATRIX queue: the arbiter of the reservation table (11 R265–R267), the
operations without an entry, emulated passes (11 R278), arrivals (11 R279, R283). -/

namespace Sys2Proof.Machine

/-! ### Eligibility (11 R266, R267, R282) -/

/-- Whether two operations name a common tile. -/
def sameTile (a b : MOp) : Bool := (mopTiles a.kind).any fun n => (mopTiles b.kind).contains n

def isDrain (k : MKind) : Bool :=
  match k with
  | .drain _ => true
  | _ => false

/-- Whether the group's arming, which ends with the group, keeps an operation from writing its tile (11 R282). -/
def armingHolds (T : Team) (m : MOp) : Bool :=
  let D := (tget ({} : Group) T.groups m.g).drain
  mopWrites m.kind && !(tget ({} : Group) T.groups m.g).ended && (D.armed || D.held) && (mopTiles m.kind).contains D.dtile
    && !(T.mops.any fun k => k.g == m.g && isDrain k.kind && decide (m.id < k.id) && !k.done)

/-- Whether an operation can be granted. -/
def mopEligible (T : Team) (m : MOp) : Bool :=
  !m.granted && !(T.mops.any fun k => k.g == m.g && decide (k.id < m.id) && (!k.granted || (isDrain m.kind && !k.done)))
    && !classHeld (tget ({} : Group) T.groups m.g) 2 m.id
    && !(T.mops.any fun k => k.id != m.id && k.granted && !k.done && sameTile k m) && !armingHolds T m

/-! ### The arbiter (11 R266) -/

/-- A posted pass that holds an entry: a group's, or one of a neural request. -/
inductive Posted
  | pass (m : MOp)
  | net (m : MarchOp) (q : NetReq)

def Posted.num (w : Posted) : Nat :=
  match w with
  | .pass m => m.entry.getD 0
  | .net _ q => q.entry.getD 0
def Posted.seq (w : Posted) : Nat :=
  match w with
  | .pass m => m.id
  | .net _ q => q.seq
def Posted.tick (w : Posted) : Nat :=
  match w with
  | .pass m => m.tick
  | .net _ q => q.tick
def Posted.age (w : Posted) : Nat :=
  match w with
  | .pass m => m.age
  | .net _ q => q.age
def Posted.isNet (w : Posted) : Bool :=
  match w with
  | .pass _ => false
  | .net _ _ => true

/-- An entry of the table with its team. -/
abbrev Entrant := Nat × Team × Posted

/-- Whether an entry was posted before another. -/
def postedBefore (a b : Entrant) : Bool :=
  decide (a.2.2.tick < b.2.2.tick) || (a.2.2.tick == b.2.2.tick && decide (a.2.2.seq < b.2.2.seq))

/-- Whether an entry comes before another under rule 3: priority, posting, entry number. -/
def ranksBefore (a b : Entrant) : Bool :=
  decide (b.2.1.prio < a.2.1.prio) || (a.2.1.prio == b.2.1.prio && (decide (a.2.2.tick < b.2.2.tick)
    || (a.2.2.tick == b.2.2.tick && decide (a.2.2.num < b.2.2.num))))

/-- The first of a list by an order. -/
def firstBy {α : Type} (lt : α → α → Bool) : List α → Option α
  | [] => none
  | x :: xs => match firstBy lt xs with
    | none => some x
    | some y => if lt y x then some y else some x

/-- The eligible entries of a cluster; those of the marchers always are. -/
def eligibleEntries (s : State) (cluster : Nat) : List Entrant :=
  ((clusterEntries s cluster).filter fun x => mopEligible x.2.1 x.2.2).map (fun x => (x.1, x.2.1, .pass x.2.2))
    ++ (netEntries s cluster).map fun x => (x.1, x.2.1, .net x.2.2.1 x.2.2.2)

/-- The entry that the arbiter grants next. -/
def arbiter (s : State) (cluster : Nat) : Option Entrant :=
  let es := eligibleEntries s cluster
  let recent := (tget ({} : Cluster) s.clusters cluster).grants
  match firstBy postedBefore (es.filter fun x => decide (255 ≤ x.2.2.age)) with
  | some x => some x
  | none => match firstBy postedBefore (es.filter fun x => x.2.2.isNet && !recent.contains true) with
    | some x => some x
    | none => firstBy ranksBefore es

/-- Whether an operation without an entry is eligible on a cluster: it goes ahead of passes. -/
def tileOpWaits (s : State) (cluster : Nat) : Bool :=
  s.teams.any fun T => T.2.mops.any fun m => m.cluster == cluster && !mopEntry m.kind && mopEligible T.2 m

/-- What the arbiter grants: nothing while an operation without an entry is eligible. -/
def nextGrant (s : State) (cluster : Nat) : Option Entrant := if tileOpWaits s cluster then none else arbiter s cluster

/-- A grant: the other eligible entries of the cluster grow older, and whose it was is kept. -/
def noteGrant (s : State) (cluster : Nat) (x : Entrant) : State :=
  let older := fun (r : State) (y : Entrant) =>
    if y.2.2.seq = x.2.2.seq then r
    else match y.2.2 with
      | .pass m => modMop r y.1 m.id fun m => { m with age := min 255 (m.age + 1) }
      | .net m q => modNet r y.1 m.id q.id fun q => { q with age := min 255 (q.age + 1) }
  let s1 := (eligibleEntries s cluster).foldl older s
  let K := tget ({} : Cluster) s1.clusters cluster
  { s1 with clusters := tput s1.clusters cluster { K with grants := (x.2.2.isNet :: K.grants).take 3 } }

/-! ### Passes -/

def addEmulated (s : State) (cluster passes ticks : Nat) : State :=
  let K := tget ({} : Cluster) s.clusters cluster
  let K' := { K with emupass := (K.emupass + passes) % 2 ^ 64, emuticks := (K.emuticks + ticks) % 2 ^ 64 }
  { s with clusters := tput s.clusters cluster K' }

/-- Whether a pass names an emulated element code (11 R278). -/
def isEmulated (r : PassRec) : Bool := emulatedCode r.a.elem || emulatedCode r.b.elem

/-- The values of a request's rows given to its rays, which go on; the request is done. -/
def giveNet (s : State) (t id req : Nat) (rows : List NetRow) : State :=
  modMarch s t id fun m =>
    { m with nets := m.nets.filter fun q => q.id != req,
             rays := m.rays.map fun r => match rows.find? fun x => x.lane == r.lane with
               | some x => { r with net := none, replies := r.replies ++ [{ g := x.vals }] }
               | none => r }

/-- A neural pass completed: counted (01 R17), and the request's next one posted, or its values given. -/
def netPassed (s : State) (t : Nat) (m : MarchOp) (q : NetReq) (node : Nat) (rows : List NetRow) : State :=
  let s1 := modCtx (modMarch s t m.id fun m => { m with passes := m.passes + 1 }) (teamOf s t).ctx fun C =>
    { C with epass := (C.epass + 1) % 2 ^ 64 }
  if !netLast node q.pass then
    advanceNets (modNet s1 t m.id q.id fun q => { q with rows := rows, pass := q.pass + 1, entry := none }) t m.id
  else
    let rows1 := rows.map fun r => { r with vals := r.vals ++ [r.tile.headD 0] }
    if rows1.all fun r => decide (r.pts.length ≤ q.point + 1) then giveNet s1 t m.id q.id rows1
    else advanceNets (modNet s1 t m.id q.id fun q => { q with rows := rows1, pass := 0, point := q.point + 1, entry := none }) t m.id

/-- A pass of a neural request performed: its rows, or the fault of every ray of it (13 R321, R327). -/
def runNet (s : State) (t : Nat) (T : Team) (m : MarchOp) (q : NetReq) : State :=
  let node := imgNode m.prog.image q.node
  match netWeights s (whoOf T (groupOf s t m.g) m.pc true) q.born node q.pass with
  | .hold => s
  | .fail k va =>
    let s1 := modMarch s t m.id fun m =>
      { m with nets := m.nets.filter fun (x : NetReq) => x.id != q.id,
               rays := m.rays.map fun r => if q.rows.any fun x => x.lane == r.lane then { r with net := none } else r }
    faultRays s1 t m (q.rows.map (·.lane)) k va
  | .ok (s1, cols) => netPassed s1 t m q node (q.rows.map (netRow node q.point q.pass cols))

/-- A group's pass at its grant: a native one is performed; of an emulated one firmware fetches the words (11 R278),
which adds nothing to the conflict counter (DESIGN CHOICE, log entry 85). -/
def grantPass (s : State) (cluster t : Nat) (T : Team) (m : MOp) (r : PassRec) : Span State :=
  let w := whoOf T (groupOf s t m.g) m.pc true
  let from_ := passFrom (groupOf s t m.g) m
  if isEmulated r then
    match fetchPass s t from_ w r with
    | .fail k va => .fail k va
    | .hold => .hold
    | .ok (s1, words, _) => .ok (addEmulated
        (modMop (matrixPast s1 t m.g) t m.id fun m => { m with granted := true, entry := none, tick := s.gt, buffer := words }) cluster 1 0)
  else match runPass s t from_ cluster w r with
    | .ok s1 => .ok (doneMop s1 t m)
    | x => x

/-- The end of a grant: what was performed, or its fault; nothing where a write is held by a migration. -/
def endGrant (s aged : State) (t : Nat) (m : MOp) (x : Span State) : State :=
  match x with
  | .ok s1 => s1
  | .hold => s
  | .fail k va => faultMop aged t m k va

/-- PASS_GRANT: the arbiter's choice, when it is a pass of a group or of a neural request. -/
def execPassGrant (cluster : Nat) (s : State) : Host.Outcome State Fault Refusal :=
  match nextGrant s cluster with
  | none => .next s
  | some x =>
    let aged := noteGrant s cluster x
    match x.2.2 with
    | .net m q => .next (runNet aged x.1 x.2.1 m q)
    | .pass m => match m.kind with
      | .pass r => .next (endGrant s aged x.1 m (grantPass aged cluster x.1 x.2.1 m r))
      | _ => .next s

/-- MDELTA_GRANT: the arbiter's choice, when it is an MDELTA. -/
def execMdeltaGrant (cluster : Nat) (s : State) : Host.Outcome State Fault Refusal :=
  match nextGrant s cluster with
  | none => .next s
  | some x => match x.2.2 with
    | .pass m => match m.kind with
      | .delta r =>
        let aged := noteGrant s cluster x
        let G := groupOf s x.1 m.g
        let out := match runDelta aged x.1 (passFrom G m) cluster (whoOf x.2.1 G m.pc true) r with
          | .ok s1 => .ok (doneMop s1 x.1 m)
          | y => y
        .next (endGrant s aged x.1 m out)
      | _ => .next s
    | .net _ _ => .next s

/-- EMULATED_PASS_COMPLETE: firmware writes the tile bits that 03 R80 gives (11 R278). -/
def execEmulatedPassComplete (t id : Nat) (s : State) : Host.Outcome State Fault Refusal :=
  match mopOf (teamOf s t) id with
  | none => .next s
  | some m => match m.kind with
    | .pass r =>
      if !m.granted || m.done then .next s
      else .next (addEmulated (doneMop (writePass s t r m.buffer) t m) m.cluster 0 (s.gt - m.tick))
    | _ => .next s

/-! ### Operations without an entry (11 R266) -/

/-- An operation without an entry performed at its grant. -/
def runTileOp (s : State) (t : Nat) (m : MOp) : State :=
  match m.kind with
  | .zero n => doneMop (tileWrite s t n (List.replicate 6144 0)) t m
  | .drain _ => runDrain s t m
  | .store n glob col pair addr pitch => runStore s t m n glob col pair addr pitch
  | .load n glob col pair addr pitch => runLoad s t m n glob col pair addr pitch
  | .cbind b => runCbind s t m b
  | .cdrop slot => runCdrop s t m slot
  | .cstat slot => runCstat s t m slot
  | .cfresh slot => runCfresh s t m slot
  | .pass _ | .delta _ => s

/-- TILE_OP_GRANT: the first ungranted operation of a group's queue, when it takes no entry. -/
def execTileOpGrant (t g : Nat) (s : State) : Host.Outcome State Fault Refusal :=
  let T := teamOf s t
  match T.mops.find? fun m => m.g == g && !m.granted with
  | none => .next s
  | some m => if mopEntry m.kind || !mopEligible T m then .next s else .next (runTileOp s t m)

/-! ### Completion -/

/-- Whether a completed operation counts in EPASS (01 R19). -/
def countsPass (T : Team) (m : MOp) : Bool := mopEntry m.kind && m.flt.isNone && T.away != .dropped

/-- PASS_COMPLETE: an operation performed leaves the queue and arrives at its barrier, with FLT where it faulted. -/
def execPassComplete (t id : Nat) (s : State) : Host.Outcome State Fault Refusal :=
  let T := teamOf s t
  match mopOf T id with
  | none => .next s
  | some m =>
    if !m.done || (match m.bar with
      | some b => !canArrive s t b 1
      | none => false) then .next s
    else
      let s1 := modTeam s t fun T => { T with mops := T.mops.filter fun k => k.id != id }
      let s2 := if countsPass T m then modCtx s1 T.ctx fun C => { C with epass := (C.epass + 1) % 2 ^ 64 } else s1
      match m.bar, m.flt with
      | none, _ => .next s2
      | some b, none => .next (arrive s2 t b 1 0)
      | some b, some idx => .next (arrive (flagFault s2 t b idx) t b 1 0)

end Sys2Proof.Machine
end

