-- ==== Sys2Proof/Machine/Keccak.lean ====
section
/-! DEFINITION. SHAKE256 and SHA3-512, which 17 R405 and 19 R429 to R431 use and this manual does not define: the functions of
FIPS 202 (PRESUMED, log entry 7). -/

namespace Sys2Proof.Machine

/-! ### The permutation Keccak-f[1600] -/

/-- The 25 lanes of the state; lane (x, y) is the one at x + 5 y. -/
abbrev Sponge := List (BitVec 64)

/-- A lane of the state. -/
def laneAt (A : Sponge) (i : Nat) : BitVec 64 := A.getD i 0

/-- The five values of a function of the columns. -/
def columns (f : Nat → BitVec 64) : List (BitVec 64) := (List.range 5).map f

/-- The sum of the lanes of a column. -/
def column (A : Sponge) (x : Nat) : BitVec 64 :=
  laneAt A x ^^^ laneAt A (x + 5) ^^^ laneAt A (x + 10) ^^^ laneAt A (x + 15) ^^^ laneAt A (x + 20)

/-- Theta: each lane with the sums of two columns. -/
def spongeTheta (A : Sponge) : Sponge :=
  let c := columns (column A)
  let d := columns fun x => laneAt c ((x + 4) % 5) ^^^ (laneAt c ((x + 1) % 5)).rotateLeft 1
  (A.zip (List.range 25)).map fun a => a.1 ^^^ laneAt d (a.2 % 5)

/-- How far rho turns each lane. -/
def spongeTurns : List Nat :=
  [0, 1, 62, 28, 27] ++ [36, 44, 6, 55, 20] ++ [3, 10, 43, 25, 39] ++ [41, 45, 15, 21, 8] ++ [18, 2, 61, 56, 14]

/-- Rho and pi: each lane turned, and put in its new place. -/
def spongeTurn (A : Sponge) : Sponge :=
  (List.range 25).map fun i =>
    let j := (i % 5 + 3 * (i / 5)) % 5 + 5 * (i % 5)
    (laneAt A j).rotateLeft (spongeTurns.getD j 0)

/-- Chi: each lane with the next two of its row. -/
def spongeChi (A : Sponge) : Sponge :=
  (List.range 25).map fun i =>
    let at_ := fun (k : Nat) => laneAt A (i / 5 * 5 + (i + k) % 5)
    at_ 0 ^^^ (~~~ at_ 1 &&& at_ 2)

/-- The constants of iota. -/
def spongeConsts : List (BitVec 64) :=
  [0x0000000000000001, 0x0000000000008082, 0x800000000000808A, 0x8000000080008000, 0x000000000000808B, 0x0000000080000001] ++
  [0x8000000080008081, 0x8000000000008009, 0x000000000000008A, 0x0000000000000088, 0x0000000080008009, 0x000000008000000A] ++
  [0x000000008000808B, 0x800000000000008B, 0x8000000000008089, 0x8000000000008003, 0x8000000000008002, 0x8000000000000080] ++
  [0x000000000000800A, 0x800000008000000A, 0x8000000080008081, 0x8000000000008080, 0x0000000080000001, 0x8000000080008008]

/-- One round. -/
def spongeRound (A : Sponge) (c : BitVec 64) : Sponge :=
  match spongeChi (spongeTurn (spongeTheta A)) with
  | a :: r => (a ^^^ c) :: r
  | [] => []

/-- The 24 rounds. -/
def keccak (A : Sponge) : Sponge := spongeConsts.foldl spongeRound A

/-! ### The functions over bytes -/

/-- A block of whole lanes as numbers, little-endian. -/
def blockLanes : Nat → List Byte → List (BitVec 64)
  | 0, _ => []
  | n + 1, bs => BitVec.ofNat 64 (leNat (bs.take 8)) :: blockLanes n (bs.drop 8)

/-- A block of `rate` bytes taken in. -/
def absorb (rate : Nat) (A : Sponge) (bs : List Byte) : Sponge :=
  let b := blockLanes (rate / 8) bs
  keccak ((A.zip (List.range 25)).map fun a => a.1 ^^^ laneAt b a.2)

/-- A message padded to whole blocks: the suffix byte, zeros, and the last bit. -/
def padded (rate : Nat) (suffix : Byte) (bs : List Byte) : List Byte :=
  let k := rate - bs.length % rate
  if k = 1 then bs ++ [suffix ||| 0x80] else bs ++ [suffix] ++ List.replicate (k - 2) 0 ++ [0x80]

/-- The blocks of a padded message taken in one after another. -/
def absorbAll (rate : Nat) (A : Sponge) : Nat → List Byte → Sponge
  | 0, _ => A
  | n + 1, bs => absorbAll rate (absorb rate A (bs.take rate)) n (bs.drop rate)

/-- The digest of n bytes, no more than a block of it. -/
def digest (rate : Nat) (suffix : Byte) (n : Nat) (bs : List Byte) : List Byte :=
  ((absorbAll rate (List.replicate 25 0) (bs.length / rate + 1) (padded rate suffix bs)).flatMap fun w => leBytes w.toNat 8).take n

/-- SHAKE256 with an output of n bytes, at most 136. -/
def shake256 (n : Nat) (bs : List Byte) : List Byte := digest 136 0x1F n bs

/-- SHA3-512. -/
def sha3 (bs : List Byte) : List Byte := digest 72 0x06 64 bs

end Sys2Proof.Machine
end

