-- ==== Sys2Proof/Machine/Loader.lean ====
section
/-! DEFINITION. Loading a code object into a context (17 R398–R406): the checks, symbols and merges, mapping, relocation. -/

namespace Sys2Proof.Machine

/-! ### Checks (17 R398–R401, R404, R407) -/

/-- The bytes of a section, if the object has it. -/
def sectBytes (o : CodeObj) (x : Sect) : Option (List Byte) := (o.sects.find? fun e => e.1 == x).map (·.2)

/-- Whether n bytes at an offset lie in a section of the object. -/
def inSect (o : CodeObj) (x : Sect) (off n : Nat) : Bool :=
  match sectBytes o x with
  | some bs => decide (off + n ≤ bs.length)
  | none => false

/-- The kernel descriptors of an object. -/
def kdescsOf (o : CodeObj) : List Nat :=
  let bs := (sectBytes o .kdesc).getD []
  (List.range (bs.length / 64)).map fun i => leNat ((bs.drop (64 * i)).take 64)

def relaSize (r : Rela) : Nat := if r.type = 1 then 8 else 4

/-- A class that this module does not launch: status 3. -/
def classBad (o : CodeObj) : Bool := decide (1 < o.flags % 16) || (kdescsOf o).any fun k => decide (1 < bits k 163 160)

/-- A malformed object: status 2. -/
def objBad (o : CodeObj) : Bool :=
  !o.elf64 || !o.lsb || !o.dyn || o.mach != 0x5954 || o.flags / 16 != 0
    || (o.sects.map (·.1)).eraseDups.length != o.sects.length
    || (o.sects.any fun e => match e.1 with
        | .const k => decide (15 < k)
        | .text => e.2.length % 4 != 0
        | .kdesc => e.2.length % 64 != 0
        | _ => false)
    || (kdescsOf o).any (fun k => decide (bits k 163 160 ≤ 1) && (kdBad k || decide (o.flags % 16 < bits k 163 160) || decide (o.syms.length ≤ bits k 223 192)))
    || (o.syms.any fun y => match y.place with
        | some (x, off) => !inSect o x off y.size || (x == .field && off % 4 != 0)
        | none => false)
    || o.relas.any fun r => (r.type != 1 && r.type != 2) || decide (o.syms.length ≤ r.sym) || !inSect o r.sect r.off (relaSize r)

/-! ### Symbols (17 R405) -/

/-- A definition's content hash: its bytes before relocation, then its relocation entries, as 24 bytes each with the
offset from its start. -/
def symHash (o : CodeObj) (x : Sect) (off size : Nat) : List Byte :=
  let body := (((sectBytes o x).getD []).drop off).take size
  let rs := o.relas.filter fun r => r.sect == x && decide (off ≤ r.off) && decide (r.off < off + size)
  shake256 32 (body ++ rs.flatMap fun r =>
    leBytes (r.off - off) 8 ++ leBytes (r.type + 2 ^ 32 * r.sym) 8 ++ leBytes (r.addend % 2 ^ 64).toNat 8)

/-- The bound definition of a name in a context: weak, hash, address. -/
def boundSym (C : Ctx) (name : Nat) : Option (Bool × List Byte × Nat) :=
  C.objs.findSome? fun o => (o.syms.find? fun y => y.1 == name).map (·.2)

/-- What the load makes of a symbol: a conflict; unresolved; the existing address that it takes; its own definition. -/
inductive SymUse
  | conflict | missing
  | old (addr : Nat)
  | own (x : Sect) (off : Nat)
  deriving DecidableEq, Repr

def useSym (C : Ctx) (o : CodeObj) (y : Sym) : SymUse :=
  match y.place with
  | none => match boundSym C y.name with
    | some b => .old b.2.2
    | none => .missing
  | some (x, off) =>
    if !y.global then .own x off
    else match boundSym C y.name with
      | none => .own x off
      | some b => if b.1 && y.weak && b.2.1 == symHash o x off y.size then .old b.2.2 else .conflict

/-- The ranges of a section's definitions that the load takes as its own, or not. -/
def defRanges (C : Ctx) (o : CodeObj) (x : Sect) (own : Bool) : List (Nat × Nat) :=
  o.syms.filterMap fun y => match y.place with
    | some (z, off) => if z = x ∧ y.size ≠ 0 ∧ (useSym C o y == .own z off) = own then some (off, y.size) else none
    | none => none

/-- The ranges of a section that only definitions fill which merge with existing ones: they are not mapped again. -/
def mergedRanges (C : Ctx) (o : CodeObj) (x : Sect) : List (Nat × Nat) :=
  rangesMinus (defRanges C o x false) (defRanges C o x true)

/-! ### Mapping (17 R399) -/

/-- The leaf bits of a section's pages: V, LEAF, and RD, WR, EX. -/
def sectPerm : Sect → Nat
  | .text => 0x17
  | .data => 0x0F
  | _ => 0x07

/-- The sections in the order of 17 R399. -/
def sectRank : Sect → Nat
  | .text => 0
  | .const k => 1 + k
  | .data => 20
  | .field => 21
  | .kdesc => 22

def insertSect (e : Sect × List Byte) : List (Sect × List Byte) → List (Sect × List Byte)
  | [] => [e]
  | d :: ds => if sectRank e.1 < sectRank d.1 then e :: d :: ds else d :: insertSect e ds

/-- Sections in order with their offsets from the load's base, each at a page of 32 KiB. -/
def layoutSects : Nat → List (Sect × List Byte) → List (Sect × List Byte × Nat)
  | _, [] => []
  | at_, (x, bs) :: r => (x, bs, at_) :: layoutSects (at_ + (bs.length + 32767) / 32768 * 32768) r

/-- The layout of an object. -/
def sectLayout (o : CodeObj) : List (Sect × List Byte × Nat) :=
  layoutSects 0 (o.sects.foldl (fun l e => insertSect e l) [])

/-- Where a section begins, from the load's base. -/
def sectOff (l : List (Sect × List Byte × Nat)) (x : Sect) : Nat :=
  match l.find? fun e => e.1 == x with
  | some e => e.2.2
  | none => 0

/-- Maps one page, with tables taken from a cursor where the walk has none: the memory and the cursor, or none where the
page is mapped already or memory is exhausted. -/
def mapPage (leaf va : Nat) : Nat → Nat → Nat → Table Byte × Nat → Option (Table Byte × Nat)
  | 0, _, _, _ => none
  | fuel + 1, level, table, (m, cur) =>
    let at_ := table + 8 * levelIndex level va
    let e := readNat m at_ 8
    if level = 3 then (if bit e 0 then none else some (writeBytes m at_ (leBytes leaf 8), cur))
    else if bit e 0 then (if bit e 1 then none else mapPage leaf va fuel (level + 1) (bits e 55 15 * 2 ^ 15) (m, cur))
    else if deviceTop < cur + 32768 then none
    else
      let m1 := m.filter fun x => !(decide (cur ≤ x.1) && decide (x.1 < cur + 32768))
      mapPage leaf va fuel (level + 1) cur (writeBytes m1 at_ (leBytes (cur + 1) 8), cur + 32768)

/-- The pages of the sections to be mapped: offset from the base and leaf bits. A page that only merged definitions
would fill is left out. -/
def objPages (C : Ctx) (o : CodeObj) : List (Nat × Nat) :=
  (sectLayout o).flatMap fun e =>
    let ms := mergedRanges C o e.1
    ((List.range ((e.2.1.length + 32767) / 32768)).filter fun p =>
      let lo := 32768 * p
      let hi := min (lo + 32768) e.2.1.length
      !(rangesMinus [(lo, hi - lo)] ms).isEmpty).map fun p => (e.2.2 + 32768 * p, sectPerm e.1)

/-- Maps pages of a load. -/
def mapPages (root va pa : Nat) : List (Nat × Nat) → Table Byte × Nat → Option (Table Byte × Nat)
  | [], r => some r
  | (off, perm) :: ps, r =>
    match mapPage (pa + off + perm) (va + off) 4 0 root r with
    | none => none
    | some r1 => mapPages root va pa ps r1

/-! ### Contents and relocation (17 R400) -/

/-- The address of a symbol of the load. -/
def symAddr (C : Ctx) (o : CodeObj) (va : Nat) (y : Sym) : Nat :=
  match useSym C o y with
  | .old a => a
  | .own x off => va + sectOff (sectLayout o) x + off
  | _ => 0

/-- A section's bytes with its relocations applied. -/
def relocated (C : Ctx) (o : CodeObj) (va : Nat) (x : Sect) (bs : List Byte) : List Byte :=
  let cb := va + sectOff (sectLayout o) .text
  (o.relas.filter fun r => r.sect == x).foldl (fun bs r =>
    let S := match o.syms[r.sym]? with
      | some y => symAddr C o va y
      | none => 0
    let v := (S : Int) + r.addend
    let w := if r.type = 1 then leBytes (wrapInt 64 v) 8 else leBytes (wrapInt 32 (v - (cb : Int))) 4
    bs.take r.off ++ w ++ bs.drop (r.off + w.length)) bs

/-- The sections' bytes in memory, but for the merged definitions. -/
def writeSects (s : State) (C : Ctx) (o : CodeObj) (va pa : Nat) : State :=
  (sectLayout o).foldl (fun s e =>
    let bs := relocated C o va e.1 e.2.1
    (rangesMinus [(0, bs.length)] (mergedRanges C o e.1)).foldl (fun s r =>
      storeMem s (pa + e.2.2 + r.1) ((bs.drop r.1).take r.2)) s) s

/-- The record of a loaded object. -/
def loadedOf (C : Ctx) (o : CodeObj) (va : Nat) : Loaded :=
  { cb := va + sectOff (sectLayout o) .text, kdesc := va + sectOff (sectLayout o) .kdesc, kdescLen := 64 * (kdescsOf o).length,
    syms := o.syms.filterMap fun y => match y.place with
      | some (x, off) => if y.global && useSym C o y == .own x off then
          some (y.name, y.weak, symHash o x off y.size, va + sectOff (sectLayout o) x + off) else none
      | none => none }

/-- Bytes that the sections take. -/
def objSize (o : CodeObj) : Nat := (sectLayout o).foldl (fun n e => max n (e.2.2 + (e.2.1.length + 32767) / 32768 * 32768)) 0

/-- Whether the text of a load lies so near to that of a loaded object that a branch could reach the one from the other: a driver
chooses no such address (17 R399; log entry 68). -/
def nearText (C : Ctx) (o : CodeObj) (va : Nat) : Bool :=
  let cb := va + sectOff (sectLayout o) .text
  C.objs.any fun x => decide (cb < x.cb + 2 ^ 33) && decide (x.cb < cb + 2 ^ 33)

/-- The load, with its status. -/
def loadObject (s : State) (ctx : Nat) (C : Ctx) (va pa : Nat) (o : CodeObj) : State × Nat :=
  let uses := o.syms.map (useSym C o)
  if objBad o then (s, 2)
  else if classBad o then (s, 3)
  else if uses.contains .missing then (s, 2)
  else if uses.contains .conflict then (s, 1)
  else if va % 32768 != 0 || pa % 32768 != 0 || deviceTop < pa + objSize o || 2 ^ 56 < va + objSize o || nearText C o va then (s, 4)
  else match mapPages C.root va pa (objPages C o) (s.mem, pa + objSize o) with
    | none => (s, 4)
    | some (m, _) =>
      let s1 := writeSects { s with mem := m } C o va pa
      (modCtx s1 ctx fun C1 => { C1 with objs := C1.objs ++ [loadedOf C o va] }, 0)

/-- LOAD_CODE_OBJECT: the driver's load at the addresses it chose. -/
def execLoadCodeObject (ctx va pa : Nat) (obj : CodeObj) (s : State) : Host.Outcome State Fault Refusal :=
  match tfind s.ctxs ctx with
  | none => .next s
  | some C =>
    let r := loadObject s ctx C va pa obj
    .next { r.1 with loads := r.1.loads ++ [r.2] }

end Sys2Proof.Machine
end

