-- ==== Sys2Proof/Machine/Merge.lean ====
section
/-! DEFINITION. The merge unit: MERGE, MSTAT, the start and end of a job (14 R344–R350). -/

namespace Sys2Proof.Machine

/-- The value size and type of VT. -/
def vtSize (vt : Nat) : Nat := if vt % 2 = 1 then 8 else 4
def vtType (vt : Nat) : Ty := match vt with
  | 0 => .f32
  | 1 => .f64
  | 2 => .i32
  | _ => .i64

/-- The sum of two values (14 R346). -/
def mergeAdd (vt a b : Nat) : Nat :=
  let t := vtType vt
  if 2 ≤ vt then (a + b) % 2 ^ tyWidth t
  else roundTo t .rne false false none (exAdd false (decEx t a) (decEx t b))

/-- Whether a result is a zero that DROPZ drops. -/
def mergeZero (vt v : Nat) : Bool := if 2 ≤ vt then v == 0 else v % 2 ^ (8 * vtSize vt - 1) == 0

/-- The status of a fault (14 R347). -/
def mergeFault : TrapKind → Nat
  | .permission => 7
  | .uncorrected => 8
  | _ => 6

/-- Why a job's step does not complete: a status, or a write held by a migration. -/
inductive MergeStop
  | status (n : Nat)
  | hold

/-- Element i of a stream, of n bytes each. -/
def streamAddr (word i n : Nat) : Nat := bits word 55 0 + n * i

/-- Whether bytes of a stream lie where the job writes its output. -/
def inOutput (J : Job) (word a n : Nat) : Bool :=
  [(4, 4), (5, vtSize J.vt)].any fun x =>
    let out := J.streams.getD x.1 0
    bits out 57 56 == bits word 57 56 && overlap a n (bits out 55 0) (x.2 * (J.co + J.na + J.nb + 1))

/-- Reads an element of a stream: one of the values that it has held since the job started, or since its issue where the job
overwrites its own input (14 R348). -/
def mergeRead (s : State) (t : Nat) (w : Who) (J : Job) (word i n : Nat) : Except MergeStop (State × Nat) :=
  let a := streamAddr word i n
  let land := bits word 57 56 == 0
  if land && !inLanding (teamOf s t) a n then .error (.status 9)
  else match spReadSince (if inOutput J word a n then J.born else J.from_) 0 s t w (if land then 1 else 0) a a n with
    | .ok (s1, bs) => .ok (s1, leNat bs)
    | .hold => .error .hold
    | .fail k _ => .error (.status (mergeFault k))

def mergeWrite (s : State) (t : Nat) (w : Who) (word i n v : Nat) : Except MergeStop State :=
  let a := streamAddr word i n
  let land := bits word 57 56 == 0
  if land && !inLanding (teamOf s t) a n then .error (.status 9)
  else match spWrite s t w (if land then 1 else 0) a a (leBytes v n) with
    | .ok s1 => .ok s1
    | .hold => .error .hold
    | .fail k _ => .error (.status (mergeFault k))

/-- An element that is read once: kept where it has been read. -/
def readKept (s : State) (t : Nat) (w : Who) (J : Job) (word i n : Nat) (kept : Option Nat) : Except MergeStop (State × Nat) :=
  match kept with
  | some v => .ok (s, v)
  | none => mergeRead s t w J word i n

/-- The head of a stream at index i of n, checked against the coordinate before it and CLIM: the state, the head, the
coordinate before it. -/
def mergeHead (m : State) (t : Nat) (w : Who) (J : Job) (word i n code : Nat) (h p : Option Nat) :
    Except MergeStop (State × Option Nat × Option Nat) :=
  if n ≤ i || h.isSome then .ok (m, h, p)
  else match mergeRead m t w J word i 4 with
    | .error e => .error e
    | .ok (m1, c) =>
      let prev := if i = 0 then .ok (m1, none) else (readKept m1 t w J word (i - 1) 4 p).map fun r => (r.1, some r.2)
      match prev with
      | .error e => .error e
      | .ok (m2, q) =>
        if (match q with
          | some q => decide (c ≤ q)
          | none => false) then .error (.status code)
        else if J.clim != 0 && decide (J.clim ≤ c) then .error (.status 4)
        else .ok (m2, some c, q)

/-- What a step of a job consumes of A and of B, by its heads. -/
def mergeTakes (J : Job) : Bool × Bool :=
  let cA := J.heads.1.getD 0
  let cB := J.heads.2.getD 0
  if J.nb ≤ J.cb ∨ (J.ca < J.na ∧ cA < cB) then (true, false)
  else if J.na ≤ J.ca ∨ cB < cA then (false, true)
  else (true, true)

/-- The values that a step consumes. -/
def mergeVals (s : State) (t : Nat) (w : Who) (J : Job) : Except MergeStop (State × Option Nat × Option Nat) :=
  let n := vtSize J.vt
  let x := mergeTakes J
  let one := fun (s : State) (take : Bool) (word i : Nat) (kept : Option Nat) =>
    if take then (readKept s t w J word i n kept).map fun r => (r.1, some r.2) else .ok (s, kept)
  match one s x.1 (J.streams.getD 1 0) J.ca J.vals.1 with
  | .error e => .error e
  | .ok (s1, a) => (one s1 x.2 (J.streams.getD 3 0) J.cb J.vals.2).map fun r => (r.1, a, r.2)

/-- The outcome of a step: the job goes on; it ends with a status; a write waits for a migration, the job as far as it is. -/
inductive MergeNext
  | go (s : State) (J : Job)
  | done (s : State) (J : Job) (status : Nat)
  | hold (s : State) (J : Job)

/-- The outcome of a part of a step that does not complete: the cursors stay on it. -/
def mergeStopped (s : State) (J : Job) (e : MergeStop) : MergeNext :=
  match e with
  | .status n => .done s J n
  | .hold => .hold s J

/-- The job past a step. -/
def mergePast (J : Job) (o : Nat) : Job :=
  let x := mergeTakes J
  { J with ca := J.ca + x.1.toNat, cb := J.cb + x.2.toNat, co := o,
           heads := (if x.1 then none else J.heads.1, if x.2 then none else J.heads.2),
           prevs := (if x.1 then J.heads.1 else J.prevs.1, if x.2 then J.heads.2 else J.prevs.2),
           vals := (if x.1 then none else J.vals.1, if x.2 then none else J.vals.2) }

/-- The coordinate and the value of a step's result (14 R346). -/
def mergeResult (J : Job) : Nat × Nat :=
  match mergeTakes J with
  | (true, false) => (J.heads.1.getD 0, J.vals.1.getD 0)
  | (false, _) => (J.heads.2.getD 0, J.vals.2.getD 0)
  | (true, true) => (J.heads.1.getD 0, mergeAdd J.vt (J.vals.1.getD 0) (J.vals.2.getD 0))

/-- The write of a step's result, and the step's end. -/
def mergeOut (s : State) (t : Nat) (w : Who) (J : Job) : MergeNext :=
  let r := mergeResult J
  if J.dropz && mergeZero J.vt r.2 then .go s (mergePast J J.co)
  else if J.co = J.ocap then .done s J 5
  else match mergeWrite s t w (J.streams.getD 4 0) J.co 4 r.1 with
    | .error e => mergeStopped s J e
    | .ok s1 => match mergeWrite s1 t w (J.streams.getD 5 0) J.co (vtSize J.vt) r.2 with
      | .error e => mergeStopped s1 J e
      | .ok s2 => .go s2 (mergePast J (J.co + 1))

/-- One step of a job (14 R346). -/
def mergeStep (s : State) (t : Nat) (w : Who) (J : Job) : MergeNext :=
  match mergeHead s t w J (J.streams.getD 0 0) J.ca J.na 2 J.heads.1 J.prevs.1 with
  | .error e => mergeStopped s J e
  | .ok (s1, hA, pA) =>
    let J1 := { J with heads := (hA, J.heads.2), prevs := (pA, J.prevs.2) }
    match mergeHead s1 t w J1 (J.streams.getD 2 0) J.cb J.nb 3 J.heads.2 J.prevs.2 with
    | .error e => mergeStopped s1 J1 e
    | .ok (s2, hB, pB) =>
      let J2 := { J1 with heads := (hA, hB), prevs := (pA, pB) }
      if J.na ≤ J.ca ∧ J.nb ≤ J.cb then .done s2 J2 1
      else match mergeVals s2 t w J2 with
        | .error e => mergeStopped s2 J2 e
        | .ok (s3, a, b) => mergeOut s3 t w { J2 with vals := (a, b) }

/-- The record's fields that a job writes back (14 R345). -/
def mergeBack (s : State) (t : Nat) (J : Job) (status : Nat) : State :=
  landWrite (landWrite s t (J.off + 66) [BitVec.ofNat 8 status]) t (J.off + 68)
    (leBytes (J.ca % 2 ^ 32 + 2 ^ 32 * (J.cb % 2 ^ 32) + 2 ^ 64 * (J.co % 2 ^ 32)) 12)

def jobOf (T : Team) (id : Nat) : Option Job := T.jobs.find? fun j => j.id == id

def modJob (s : State) (t id : Nat) (f : Job → Job) : State :=
  modTeam s t fun T => { T with jobs := T.jobs.map fun (j : Job) => if j.id == id then f j else j }

/-- Jobs running on a cluster (14 R344). -/
def jobsRunning (s : State) (cluster : Nat) : Nat :=
  s.teams.foldl (fun n T => n + (T.2.jobs.filter fun j => j.cluster == cluster && j.running).length) 0

/-- Jobs that a cluster's merge unit holds. -/
def jobsHeld (s : State) (cluster : Nat) : Nat :=
  s.teams.foldl (fun n T => n + (T.2.jobs.filter fun j => j.cluster == cluster).length) 0

/-- MERGE_JOB_START: at most four run, one of a group's queue at a time (14 R344, 09 R208). -/
def execMergeJobStart (t id : Nat) (s : State) : Host.Outcome State Fault Refusal :=
  let T := teamOf s t
  match jobOf T id with
  | none => .next s
  | some J =>
    if J.running || classBusy T J.g 4 id || classHeld (tget ({} : Group) T.groups J.g) 4 id
      || decide (4 ≤ jobsRunning s J.cluster) then .next s
    else .next (modJob s t id fun j => { j with running := true, from_ := pastNow s })

/-- MERGE_JOB_END: the job's next step; at its last one its record and its arrival (14 R346, R347). -/
def execMergeJobEnd (t id : Nat) (s : State) : Host.Outcome State Fault Refusal :=
  let T := teamOf s t
  match jobOf T id with
  | none => .next s
  | some J =>
    if !J.running || (match J.bar with
      | some b => !canArrive s t b 1
      | none => false) then .next s
    else
      let w := whoOf T (groupOf s t J.g) J.pc true
      match mergeStep s t w J with
      | .hold s1 J1 => .next (modJob s1 t id fun _ => J1)
      | .go s1 J1 => .next (modJob s1 t id fun _ => J1)
      | .done s0 J1 st =>
        let s1 := mergeBack s0 t J1 st
        let s2 := modTeam s1 t fun T => { T with jobs := T.jobs.filter fun j => j.id != id }
        .next (match J.bar with
          | some b => arrive s2 t b 1 0
          | none => s2)

/-- The job of a record of 128 bytes (14 R345). -/
def jobOfRecord (r : Nat) : Job :=
  { streams := (List.range 6).map fun k => bits r (64 * k + 63) (64 * k), na := bits r 415 384, nb := bits r 447 416,
    ocap := bits r 479 448, clim := bits r 511 480, vt := bits r 513 512, dropz := bit r 514, ca := bits r 575 544,
    cb := bits r 607 576, co := bits r 639 608 }

/-- The faults of a record (14 R350). -/
def jobBad (r : Nat) : Bool :=
  let J := jobOfRecord r
  let bad := fun (word align : Nat) =>
    bits word 63 58 != 0 || decide (2 ≤ bits word 57 56) || (bits word 57 56 == 0 && bits word 55 19 != 0)
      || bits word 55 0 % align != 0
  bits r 527 515 != 0 || bits r 543 536 != 0 || bits r 1023 640 != 0 ||
    ([0, 2, 4].any fun k => bad (J.streams.getD k 0) 4) || [1, 3, 5].any fun k => bad (J.streams.getD k 0) (vtSize J.vt)

def execMerge (look : Nat) (bar : Option Nat) (a : Operand) (s : State) : Host.Outcome State Fault Refusal :=
  issueWord (.merge look bar a) (fun _ _ _ => { uses := [{ op := a }], opBad := !isUniform a })
    (fun c =>
      let off := rd c a 0 0
      let r := landNat c.T off 128
      if c.act == 0 then .adv c.s
      else if (match bar with
        | some b => noBar c b
        | none => false) || recordBad c.T off 128 then .trap .reservedOperand c.act 0 0
      else if inCopied c.T true off 128 then .stall
      else if landMeetsBad c.T off 128 false then .trap .uncorrected c.act off 0
      else if jobBad r then .trap .reservedOperand c.act 0 0
      else if 64 ≤ jobsHeld c.s (teamCluster c.T) then .stall
      else
        let J := { jobOfRecord r with id := c.s.nextId, g := c.g, pc := c.P.pc, scope := c.P.gm.scope, bar := bar, off := off,
                                        cluster := teamCluster c.T, born := pastNow c.s }
        let s1 := modTeam c.s c.t fun T => { T with jobs := T.jobs ++ [J] }
        .adv { s1 with nextId := s1.nextId + 1 }) s

/-- MSTAT's four words: live where a job of the team has its record there, else the record's (14 R350). -/
def mstatWords (T : Team) (off : Nat) : List Nat :=
  match T.jobs.find? fun j => j.off == off with
  | some j => [if j.running then 0x81 else 0x80, j.ca, j.cb, j.co]
  | none => [landNat T (off + 66) 1, landNat T (off + 68) 4, landNat T (off + 72) 4, landNat T (off + 76) 4]

def execMstat (look : Nat) (d a : Operand) (s : State) : Host.Outcome State Fault Refusal :=
  issueWord (.mstat look d a)
    (fun _ _ _ => { uses := [{ op := d, n := 4, src := false, dst := true }, { op := a }],
                    opBad := !isScalar d || !isUniform a })
    (fun c =>
      let off := rd c a 0 0
      let live := c.T.jobs.any fun j => j.off == off
      if c.act == 0 then .adv c.s
      else if recordBad c.T off 128 then .trap .reservedOperand c.act 0 0
      else if inCopied c.T true off 128 then .stall
      else if !live && landMeetsBad c.T (off + 64) 16 false then .trap .uncorrected c.act off 0
      else if pendFull c look true then .stall
      else
        let ws := mstatWords c.T off
        let v := (List.range 4).foldl (fun r k => r + 2 ^ (32 * k) * (ws.getD k 0 % 2 ^ 32)) 0
        .adv (postResult c c.s look d 4 (fun _ => v))) s

end Sys2Proof.Machine
end

