-- ==== Sys2Proof/Machine/Scan.lean ====
section
/-! DEFINITION. Scan addresses: what the management port reads and writes in a frozen module (18 R419, 19 R434). -/

namespace Sys2Proof.Machine

/-! ### Units -/

/-- A unit of state that a scan address names, with the byte at which the scan begins. -/
inductive ScanUnit
  | mem (pa : Nat)
  | core (core off : Nat)
  | row (core slot row off : Nat)
  | land (core off : Nat)
  | tile (cluster n off : Nat)
  | line (id off : Nat)
  deriving DecidableEq, Repr

/-- The unit of a scan address; none where it is malformed. -/
def scanUnit (a : Nat) : Option ScanUnit :=
  let die := bits a 58 56
  let core := die * 320 + bits a 55 47
  match bits a 63 60 with
  | 0 => if bits a 59 43 = 0 then some (.mem (bits a 42 0)) else none
  | 1 => if bits a 59 59 = 0 ∧ bits a 46 32 = 0 then some (.core core (bits a 31 0)) else none
  | 2 => if bits a 59 59 = 0 ∧ bits a 35 9 = 0 then some (.row core (bits a 46 45) (bits a 44 36) (bits a 8 0)) else none
  | 3 => if bits a 59 59 = 0 ∧ bits a 46 19 = 0 then some (.land core (bits a 18 0)) else none
  | 4 => if bits a 59 59 = 0 ∧ bits a 44 15 = 0 then
      some (.tile (die * 80 + bits a 55 49) (bits a 48 45) (bits a 14 0)) else none
  | 5 => if bits a 59 59 = 0 ∧ bits a 55 52 ≤ 2 ∧ (bits a 55 52 = 2 ∨ bits a 51 43 = 0) then
      some (.line (a / 256) (bits a 7 0)) else none
  | _ => none

/-- Where a unit ends, and whether the address names a core or cluster that exists. -/
def scanFits (a len : Nat) : ScanUnit → Bool
  | .mem pa => decide (pa + len ≤ deviceTop)
  | .core _ off => decide (bits a 55 47 < 320) && decide (off + len ≤ 0x20000)
  | .row _ _ _ off => decide (bits a 55 47 < 320) && decide (off + len ≤ 384)
  | .land _ off => decide (bits a 55 47 < 320) && decide (off + len ≤ 524288)
  | .tile _ _ off => decide (bits a 55 49 < 80) && decide (off + len ≤ 24576)
  | .line _ off => (bits a 55 52 != 2 || decide (bits a 51 43 < 320)) && decide (off + len ≤ 136)

/-- The group whose block holds a physical row of a slot, with the logical row (05 R120). -/
def rowHolder (s : State) (core slot row : Nat) : Option (Nat × Nat × Nat) :=
  s.teams.findSome? fun e =>
    if onCore core e.2 then e.2.groups.findSome? fun G =>
      if G.2.slot = slot ∧ G.2.pb ≤ row ∧ row < G.2.pb + G.2.blk then
        let x := G.2.rb - G.2.rb % G.2.blk + (row - G.2.pb)
        some (e.1, G.1, if x < G.2.rb then x + G.2.blk else x)
      else none
    else none

/-- The team whose landing block holds a byte of a core's landing memory, with the team's offset. -/
def landHolder (s : State) (core off : Nat) : Option (Nat × Nat) :=
  s.teams.findSome? fun e =>
    if onCore core e.2 && decide (e.2.landBase * 4096 ≤ off) && decide (off < (e.2.landBase + landBlock e.2.lsz) * 4096) then
      some (e.1, off - e.2.landBase * 4096)
    else none

/-! ### Cache lines (19 R434) -/

/-- The scan address of the first byte of a line's unit. -/
def lineUnit (id : Nat) : Nat := id * 256

/-- The die of a line's structure, and whether that is its L2. -/
def lineDie (id : Nat) : Nat := bits (lineUnit id) 58 56
def lineHome (id : Nat) : Bool := bits (lineUnit id) 55 52 == 0

/-- A cluster of the module. -/
def clusterOf (s : State) (k : Nat) : Cluster := tget {} s.clusters k

/-- What is held of a line in one freeze: a free value, but for what scans have written. -/
def lineHeld (s : State) (id i : Nat) : Byte :=
  match tfind s.lines (lineUnit id + i) with
  | some b => b
  | none => if i < 8 then byteOf (Config.cacheTag id s.freeze.at_) i else Config.cacheLine (id + 2 ^ 64 * s.freeze.at_) i

/-- The tag word of a line as it is held. -/
def lineWord (s : State) (id : Nat) : Nat := leNat ((List.range 8).map (lineHeld s id))

/-- The physical address of the line that a place of a cache holds; none where it is not valid. An L2 holds lines that its die
homes; the other caches hold lines of this module's memory, and of memory elsewhere, whose contents are left open. -/
def lineAddr (s : State) (id : Nat) : Option Nat :=
  let w := lineWord s id
  let pa := bits w 55 7 * 128
  if bit w 0 && (!lineHome id || (decide (pa < deviceTop) && homeDie pa == lineDie id)) then some pa else none

/-- A byte of the tag word: only a valid line of an L2 is dirty (08 R201), and the bits that have no meaning are 0. -/
def tagByte (s : State) (id i : Nat) : Byte :=
  let w := lineWord s id
  let valid := (lineAddr s id).isSome
  byteOf (valid.toNat + 2 * (valid && lineHome id && bit w 1).toNat + bits w 55 7 * 128) i

/-- A byte of a line's unit: a home L2 holds memory at the point of coherence, a clean copy holds what memory held at some time
before the freeze. -/
def lineByte (s : State) (id i : Nat) : Byte :=
  if i < 8 then tagByte s id i
  else match lineAddr s id with
    | none => lineHeld s id i
    | some pa =>
      if lineHome id then readByte s.mem (pa + (i - 8))
      else if deviceTop ≤ pa ∨ (tfind s.lines (lineUnit id + i)).isSome then lineHeld s id i
      else readByte (memAt s (Config.cacheTag id s.freeze.at_ / 2 ^ 64 % (s.freeze.len + 1))) (pa + (i - 8))

/-- A byte written to a line's unit. In a home L2 it is memory's; a copy of memory elsewhere may be read from its cache until it
is dropped, so the byte is a value that the location has held (DESIGN CHOICE, log entry 46). -/
def linePut (s : State) (id i : Nat) (b : Byte) : State :=
  let kept := { s with lines := tput s.lines (lineUnit id + i) b }
  if i < 8 then kept
  else match lineAddr s id with
    | none => kept
    | some pa =>
      let k := pa + (i - 8)
      if lineHome id then storeMem s k [b]
      else if deviceTop ≤ pa then kept
      else
        let now := readByte s.mem k
        { kept with past := { key := k, old := [b] } :: { key := k, old := [now] } :: s.past }

/-! ### Reads -/

/-- One byte of a unit. Storage that no team holds keeps what the last team left there (20 R442). -/
def scanByte (s : State) (i : Nat) : ScanUnit → Byte
  | .mem pa => readByte s.mem (pa + i)
  | .core core off => windowByte s core (off + i)
  | .row core slot row off => match rowHolder s core slot row with
    | some (t, g, x) => byteOf (tget 0 (groupOf s t g).rows (keyRow x ((off + i) / 4))).toNat ((off + i) % 4)
    | none => byteOf (tget 0 (coreOf s core).rowRest (rowPlace slot row ((off + i) / 4))).toNat ((off + i) % 4)
  | .land core off => match landHolder s core (off + i) with
    | some (t, k) => tget 0 (teamOf s t).landing k
    | none => tget 0 (coreOf s core).landRest (off + i)
  | .tile cluster n off => match tileHolder s cluster n with
    | some (t, k) => byteOf (tget 0 (teamOf s t).tiles (8192 * k + (off + i) / 4)).toNat ((off + i) % 4)
    | none => byteOf (tget 0 (clusterOf s cluster).tileRest (8192 * n + (off + i) / 4)).toNat ((off + i) % 4)
  | .line id off => lineByte s id (off + i)

/-- n bytes from a scan address. -/
def scanBytes (s : State) (u : ScanUnit) (n : Nat) : List Byte := (List.range n).map fun i => scanByte s i u

/-! ### Writes -/

/-- Bytes of a core-state window that hold RO fields alone (16 R377, R384). -/
def windowRo (off : Nat) : Bool :=
  match (windowUnit off).1 with
  | .team _ | .group _ _ => true
  | _ => false

/-- Whether a range holds an RO field. -/
def scanRo (n : Nat) : ScanUnit → Bool
  | .core _ off => (List.range n).any fun i => windowRo (off + i)
  | _ => false

/-- One byte of a word replaced. -/
def wordByte (w : Word) (i : Nat) (b : Byte) : Word := BitVec.ofNat 32 (setByte w.toNat i b)

/-- One byte of a word of a table replaced. -/
def putIn (m : Table Word) (k i : Nat) (b : Byte) : Table Word := tset 0 m k (wordByte (tget 0 m k) i b)

/-- One byte written to a unit that takes bytes one by one. -/
def scanPut (s : State) (i : Nat) (b : Byte) : ScanUnit → State
  | .mem pa => storeMem s (pa + i) [b]
  | .core _ _ => s
  | .row core slot row off => match rowHolder s core slot row with
    | some (t, g, x) =>
      let k := keyRow x ((off + i) / 4)
      modGroup s t g fun G => { G with rows := putIn G.rows k ((off + i) % 4) b }
    | none => modCore s core fun K => { K with rowRest := putIn K.rowRest (rowPlace slot row ((off + i) / 4)) ((off + i) % 4) b }
  | .land core off => match landHolder s core (off + i) with
    | some (t, k) => putLand s t k [b]
    | none => modCore s core fun K => { K with landRest := tset 0 K.landRest (off + i) b }
  | .tile cluster n off => match tileHolder s cluster n with
    | some (t, k) =>
      let at_ := 8192 * k + (off + i) / 4
      modTeam s t fun T => { T with tiles := putIn T.tiles at_ ((off + i) % 4) b }
    | none =>
      let C := clusterOf s cluster
      { s with clusters := tput s.clusters cluster { C with tileRest := putIn C.tileRest (8192 * n + (off + i) / 4) ((off + i) % 4) b } }
  | .line id off => linePut s id (off + i) b

/-- Bytes written from a scan address; whole words of memory at once, so that they end an error (08 R206), and whole
records of a core's window. -/
def scanWrite (s : State) (u : ScanUnit) (data : List Byte) : State :=
  match u with
  | .mem pa => storeMem s pa data
  | .core core off => windowGo s true (core / 320) data.length (core % 320 * 0x20000 + off) data
  | _ => (data.zip (List.range data.length)).foldl (fun s x => scanPut s x.2 x.1 u) s

end Sys2Proof.Machine
end

