-- ==== Sys2Proof/Machine/Mgmt.lean ====
section
/-! DEFINITION. The management port: attestation (19 R428–R430), firmware (19 R431), the vendor messages (19 R432, R433),
debug freeze (18 R417–R419), capture and replay (18 R420–R422), power and ageing (19 R435, R437). -/

namespace Sys2Proof.Machine

/-! ### Responses -/

/-- The supervisor's response: a code and the bytes after it. -/
def respond (s : State) (code : Nat) (bs : List Byte) : State := { s with sup := { s.sup with out := s.sup.out ++ [(code, bs)] } }

/-- A vendor response: the code with bit 7, the tag, the status, the body (19 R432). -/
def vendorOut (s : State) (code tag status : Nat) (body : List Byte) : State :=
  respond s (code + 128) (leBytes tag 1 ++ leBytes status 1 ++ [0] ++ body)

/-- A vendor command: refused while the debug enable is 0; else its state, status and body. -/
def vendor (s : State) (code tag : Nat) (f : State → State × Nat × List Byte) : Host.Outcome State Fault Refusal :=
  if !s.sup.debug then .next (vendorOut s code tag 5 [])
  else
    let r := f s
    .next (vendorOut r.1 code tag r.2.1 (if r.2.1 = 0 then r.2.2 else []))

/-! ### Attestation (19 R428–R430). Codes and layouts are SPDM 1.3's (PRESUMED, log entry 44) -/

/-- n bytes of a response that SPDM 1.3 leaves to the module. -/
def openPart (code i n : Nat) : List Byte := padTo n ((Config.spdmBody code i).take n)

def execGetVersion (s : State) : Host.Outcome State Fault Refusal := .next (respond s 0x04 (Config.spdmBody 0x04 0))

def execGetCapabilities (s : State) : Host.Outcome State Fault Refusal := .next (respond s 0x61 (Config.spdmBody 0x61 0))

/-- The ERROR response. -/
def spdmError (s : State) : State := respond s 0x7F (Config.spdmBody 0x7F 0)

/-- The extended algorithm entry of Falcon-1024 over SHAKE256: the registry of IANA, the identifier 0x0001 and the enterprise
number (19 R430). -/
def falconEntry : List Byte := [4, 0] ++ leBytes 1 2 ++ leBytes Config.enterprise.toNat 4

/-- ALGORITHMS after its code: parameters, length, measurement specification and other parameters, MeasurementHashAlgo (raw bit
stream), BaseAsymSel (0), BaseHashSel (SHA3-512), 12 bytes, the counts of extended entries, the entry. -/
def algorithms : List Byte :=
  let tail := Config.spdmBody 0x63 3
  openPart 0x63 0 2 ++ leBytes (44 + tail.length) 2 ++ openPart 0x63 1 2 ++ leBytes 1 4 ++ leBytes 0 4 ++ leBytes 0x20 4
    ++ openPart 0x63 2 12 ++ [1, 0, 0, 0] ++ falconEntry ++ tail

/-- NEGOTIATE_ALGORITHMS: ERROR where the requester offers no entry for Falcon-1024. -/
def execNegotiateAlgorithms (offersFalcon : Bool) (s : State) : Host.Outcome State Fault Refusal :=
  if offersFalcon then .next (respond { s with sup := { s.sup with neg := 1 } } 0x63 algorithms)
  else .next (spdmError { s with sup := { s.sup with neg := 2 } })

/-- The chain of slot 0 in the SPDM format: its length, the digest of the root certificate, the certificates. -/
def certChain : List Byte :=
  let certs := Config.certificates.flatMap id
  leBytes (68 + certs.length) 2 ++ [0, 0] ++ sha3 (Config.certificates.headD []) ++ certs

/-- GET_DIGESTS: slot 0 alone, and the digest of its chain. -/
def execGetDigests (s : State) : Host.Outcome State Fault Refusal := .next (respond s 0x01 ([1, 1] ++ sha3 certChain ++ Config.spdmBody 0x01 0))

/-- GET_CERTIFICATE: a part of slot 0's chain, with the lengths of the part and of what remains. -/
def execGetCertificate (off len : Nat) (s : State) : Host.Outcome State Fault Refusal :=
  let part := (certChain.drop off).take len
  .next (respond s 0x02 ([0] ++ openPart 0x02 0 1 ++ leBytes part.length 2 ++ leBytes (certChain.length - off - part.length) 2 ++ part))

/-- The bytes of a string's characters. -/
def asciiBytes (x : String) : List Byte := x.toList.map fun c => BitVec.ofNat 8 c.toNat

/-- The combined signing prefix of SPDM 1.3 for a context: 64 bytes of version, zeros, the context, 100 bytes in all. -/
def signPrefix (context : String) : List Byte :=
  (List.replicate 4 (asciiBytes "dmtf-spdm-v1.3.*")).flatten ++ List.replicate (36 - context.length) 0 ++ asciiBytes context

/-- A signature field: 1,280 bytes, over the SHAKE256 digest of the combined prefix and the transcript's hash (19 R429, R430). -/
def signed (context : String) (transcript : List Byte) : List Byte :=
  padTo 1280 ((Config.signature (shake256 64 (signPrefix context ++ sha3 transcript))).take 1280)

/-- CHALLENGE: needs the negotiated signature. -/
def execChallenge (transcript : List Byte) (s : State) : Host.Outcome State Fault Refusal :=
  if s.sup.neg = 1 then
    .next (respond s 0x03 ([0, 1] ++ sha3 certChain ++ Config.spdmBody 0x03 0 ++ signed "responder-challenge_auth signing" transcript))
  else .next (spdmError s)

/-- The running image of a kind. -/
def imageOf (s : State) (kind : Nat) : List Byte := ((tget ({} : Firmware) s.sup.fw kind).run).getD (Config.shippedImage kind)

/-- The measurement block of an index: raw bit-stream form, the 64-byte digest of the image (19 R429). -/
def measureBlock (s : State) (i : Nat) : List Byte :=
  leBytes i 1 ++ leBytes 1 1 ++ leBytes 67 2 ++ leBytes (if i = 4 then 0x83 else 0x81) 1 ++ leBytes 64 2
    ++ shake256 64 (imageOf s i)

/-- The parameters, the number and length of the blocks that an index asks for, and the blocks: 0 their number alone, 255 all. -/
def measureBlocks (s : State) (index : Nat) : Option (List Byte) :=
  let record := fun (is : List Nat) =>
    let bs := is.flatMap (measureBlock s)
    some ([0] ++ openPart 0x60 0 1 ++ leBytes is.length 1 ++ leBytes bs.length 3 ++ bs)
  if index = 0 then some ([4] ++ openPart 0x60 0 1 ++ leBytes 0 4)
  else if index = 255 then record [1, 2, 3, 4]
  else if index ≤ 4 then record [index]
  else none

/-- GET_MEASUREMENTS. -/
def execGetMeasurements (index : Nat) (signed_ : Bool) (transcript : List Byte) (s : State) : Host.Outcome State Fault Refusal :=
  match measureBlocks s index with
  | none => .next (spdmError s)
  | some bs =>
    let body := bs ++ Config.spdmBody 0x60 1
    if !signed_ then .next (respond s 0x60 body)
    else if s.sup.neg = 1 then .next (respond s 0x60 (body ++ signed "responder-measurements signing" transcript))
    else .next (spdmError s)

/-- GET_VENDOR_DEFINED_MESSAGE_SUPPORT: Tveduasen's enterprise number (19 R432). -/
def execGetVendorDefinedMessageSupport (s : State) : Host.Outcome State Fault Refusal :=
  .next (respond s 0x06 (leBytes Config.enterprise.toNat 4))

/-! ### Firmware (19 R431) -/

/-- FIRMWARE_UPDATE: an image, which carries its version, goes to the inactive bank if it verifies and is not older. Answers 0, or
1 for refused. -/
def execFirmwareUpdate (kind version : Nat) (image sig : List Byte) (s : State) : Host.Outcome State Fault Refusal :=
  let F := tget ({} : Firmware) s.sup.fw kind
  if Config.imageVersion image ≠ version then .next s
  else if kind = 0 ∨ 4 < kind ∨ Config.verifies (shake256 64 image) sig = false ∨ version < F.version then
    .next (respond s 0x100 (leBytes kind 1 ++ [1]))
  else
    let F' := { F with other := some image, version := version, waits := true }
    .next (respond { s with sup := { s.sup with fw := tput s.sup.fw kind F' } } 0x100 (leBytes kind 1 ++ [0]))

/-! ### Power and ageing (19 R435, R437) -/

/-- SET_POWER_LIMIT: from 2,000 W to 10,000 W. Answers 0, or 1 for a limit outside. -/
def execSetPowerLimit (watts : Nat) (s : State) : Host.Outcome State Fault Refusal :=
  if 2000 ≤ watts ∧ watts ≤ 10000 then .next (respond { s with sup := { s.sup with power := watts } } 0x101 [0])
  else .next (respond s 0x101 [1])

/-- A die's ageing record. -/
def ageingBytes (A : Ageing) : List Byte :=
  leBytes (pack [(32, A.rcount), (10, A.vset), (10, A.vneed), (1, A.mexh.toNat), (11, 0), (32, A.hours), (32, A.cecnt), (128, 0)]) 32

/-- AGEING_REPORT: one record per compute die, then the corrected errors of each HBM stack (08 R205, 19 R428). -/
def execAgeingReport (s : State) : Host.Outcome State Fault Refusal :=
  .next (respond s 0x102 (((List.range 8).flatMap fun d => ageingBytes (tget {} s.sup.ageing d))
    ++ (List.range 16).flatMap fun k => leBytes (tget 0 s.sup.stackCe k) 4))

/-! ### Comparators and freeze (18 R417–R419) -/

def execSetInstructionComparator (tag die index : Nat) (enable all : Bool) (ctx addr : Nat) (s : State) :
    Host.Outcome State Fault Refusal :=
  vendor s 0x01 tag fun s =>
    if 8 ≤ die ∨ 8 ≤ index ∨ 1024 ≤ ctx then (s, 6, [])
    else
      let k : ICmp := { en := enable, all := all, ctx := ctx, addr := addr }
      (modDie s die fun D => { D with icmp := tput D.icmp index k }, 0, [])

def execSetDataComparator (tag die index : Nat) (enable all : Bool) (ctx access : Nat) (engines : Bool) (first last : Nat)
    (s : State) : Host.Outcome State Fault Refusal :=
  vendor s 0x02 tag fun s =>
    if 8 ≤ die ∨ 8 ≤ index ∨ 1024 ≤ ctx then (s, 6, [])
    else if access = 0 ∨ 3 < access then (s, 2, [])
    else
      let k : DCmp := { en := enable, all := all, ctx := ctx, access := access, engines := engines, first := first, last := last }
      (modDie s die fun D => { D with dcmp := tput D.dcmp index k }, 0, [])

/-- ARM_FREEZE_TICK: 0 cancels; a tick already past is out of range. -/
def execArmFreezeTick (tag tick : Nat) (s : State) : Host.Outcome State Fault Refusal :=
  vendor s 0x03 tag fun s =>
    if tick = 0 then ({ s with freeze := { s.freeze with armed := none } }, 0, [])
    else if tick ≤ s.gt then (s, 6, [])
    else ({ s with freeze := { s.freeze with armed := some tick } }, 0, [])

def execFreezeStatus (tag : Nat) (s : State) : Host.Outcome State Fault Refusal :=
  vendor s 0x04 tag fun s =>
    let F := s.freeze
    let h := F.hit.getD { tick := 0, source := 0, num := 0, die := 0, loc := 0, pc := 0, ctx := 0 }
    (s, 0, leBytes (pack [(8, F.frozen.toNat), (8, F.src), (8, h.num), (8, h.die), (16, h.loc), (16, 0), (64, h.tick),
      (64, F.at_), (64, h.pc)]) 32)

/-- The tick at which the module freezes, and why: the first hit's or the armed one, the earlier. -/
def freezeAt (F : Freeze) : Option (Nat × Nat) :=
  let byHit := F.hit.map fun h => (h.tick + 64, h.source)
  let byArm := F.armed.map fun a => (a, 3)
  match byHit, byArm with
  | some x, some y => if y.1 < x.1 then some y else some x
  | some x, none => some x
  | none, r => r

/-- MODULE_FREEZE: every clock domain of the module is gated. -/
def execModuleFreeze (s : State) : Host.Outcome State Fault Refusal :=
  match freezeAt s.freeze with
  | some (t, src) =>
    if s.freeze.frozen || decide (s.gt < t) then .next s
    else .next { s with freeze := { s.freeze with frozen := true, src := src, at_ := t, len := pastNow s } }
  | none => .next s

/-- What is left of a freeze once the module is ungated: a hit or an armed tick whose freeze is still to come. -/
def thawed (gt : Nat) (F : Freeze) : Freeze :=
  let hit := F.hit.filter fun h => decide (gt < h.tick + 64)
  { hit := hit, more := if hit.isSome then F.more else [], armed := F.armed.filter fun a => decide (gt < a) }

/-- MODULE_RESUME: every domain is ungated, and the hit that froze the module leaves its record in the trace ring of its
die. -/
def execModuleResume (tag : Nat) (s : State) : Host.Outcome State Fault Refusal :=
  vendor s 0x07 tag fun s =>
    if !s.freeze.frozen then (s, 3, [])
    else
      let s1 := { s with freeze := thawed s.gt s.freeze, lines := [] }
      match s.freeze.hit.filter fun h => decide (h.tick + 64 ≤ s.gt) with
      | some h => (traceOut s1 h.die h.tick { type := 6, ctx := h.ctx, loc := h.loc, tag := h.num, pc := h.pc }, 0, [])
      | none => (s1, 0, [])

/-! ### Scan (18 R419, 19 R433, R434) -/

/-- A scan's length: 8 to 1,024 bytes, a multiple of 8. -/
def scanLen (n : Nat) : Bool := decide (8 ≤ n) && decide (n ≤ 1024) && n % 8 == 0

def execScanRead (tag addr len : Nat) (s : State) : Host.Outcome State Fault Refusal :=
  vendor s 0x05 tag fun s =>
    if !s.freeze.frozen then (s, 3, [])
    else match scanUnit addr with
      | none => (s, 2, [])
      | some u =>
        if !scanLen len then (s, 2, [])
        else if !scanFits addr len u then (s, 6, [])
        else ({ s with free := s.free + 1 }, 0, scanBytes s u len)

def execScanWrite (tag addr : Nat) (data : List Byte) (s : State) : Host.Outcome State Fault Refusal :=
  vendor s 0x06 tag fun s =>
    if !s.freeze.frozen then (s, 3, [])
    else match scanUnit addr with
      | none => (s, 2, [])
      | some u =>
        if !scanLen data.length then (s, 2, [])
        else if !scanFits addr data.length u || scanRo data.length u then (s, 6, [])
        else (scanWrite s u data, 0, [])

/-! ### Capture (18 R420) -/

def captureOf (s : State) (c : Nat) : Capture := tget {} s.captures c
def replayOf (s : State) (c : Nat) : Replay := tget {} s.replays c

def execStartCapture (tag ctx base len : Nat) (s : State) : Host.Outcome State Fault Refusal :=
  vendor s 0x10 tag fun s =>
    if s.freeze.frozen then (s, 4, [])
    else if (captureOf s ctx).state = 1 ∨ (replayOf s ctx).state = 1 then (s, 1, [])
    else if (tfind s.ctxs ctx).isNone ∨ base % 4096 ≠ 0 ∨ len % 4096 ≠ 0 ∨ deviceTop < base + len then (s, 6, [])
    else
      let K : Capture := { state := 1, base := base, len := len }
      ({ s with captures := tput s.captures ctx K }, 0, [])

/-- Packets recorded and bytes used. -/
def captureCounts (K : Capture) : List Byte := leBytes K.pkts.length 8 ++ leBytes K.used 8

def execStopCapture (tag ctx : Nat) (s : State) : Host.Outcome State Fault Refusal :=
  vendor s 0x11 tag fun s =>
    if 1024 ≤ ctx then (s, 6, [])
    else ({ s with captures := tmod s.captures ctx fun K => { K with state := 0 } }, 0, captureCounts (captureOf s ctx))

def execCaptureStatus (tag ctx : Nat) (s : State) : Host.Outcome State Fault Refusal :=
  vendor s 0x12 tag fun s =>
    if 1024 ≤ ctx then (s, 6, [])
    else (s, 0, leBytes (captureOf s ctx).state 8 ++ captureCounts (captureOf s ctx))

/-! ### Replay (18 R422) -/

/-- A captured page put back where its virtual page lies now. -/
def restorePage (s : State) (ctx : Nat) (p : Nat × Nat × Nat) : State :=
  let pa := (whereIs s ctx (p.1 * 2 ^ 15)).getD p.2.1
  storeMem s pa (readBytes s.mem p.2.2 (2 ^ 15))

/-- Packets in the captured order of begins; those that never began come last. -/
def insertPkt (p : CapPkt) : List CapPkt → List CapPkt
  | [] => [p]
  | q :: qs =>
    let earlier := match p.began, q.began with
      | some a, some b => decide (a < b)
      | some _, none => true
      | none, _ => false
    if earlier then p :: q :: qs else q :: insertPkt p qs

/-- A captured packet submitted again. -/
def submit (s : State) (n : Nat) (p : CapPkt) : State :=
  let P : Packet := { raw := p.raw, replay := some n }
  modQueue s p.queue fun Q => { Q with pkts := tput Q.pkts p.idx P }

/-- A submitted packet that its acceptance would refuse fails as it did (15 R359). -/
def submitCheck (s : State) (p : CapPkt) : State := if packetBad p.raw then failPacket s p.queue p.idx 1 else s

/-- START_REPLAY: pages restored, packets submitted. A store that holds no finished capture of the context is out of
range. -/
def execStartReplay (tag ctx base result : Nat) (s : State) : Host.Outcome State Fault Refusal :=
  vendor s 0x13 tag fun s =>
    let K := captureOf s ctx
    if s.freeze.frozen then (s, 4, [])
    else if K.state = 1 ∨ (replayOf s ctx).state = 1 ∨ (s.queues.any fun e => e.2.ctx == ctx && !e.2.pkts.isEmpty) then (s, 1, [])
    else if (tfind s.captures ctx).isNone ∨ K.base ≠ base ∨ result % 64 ≠ 0 ∨ deviceTop < result + 64 * K.pkts.length then (s, 6, [])
    else
      let ps := K.pkts.foldl (fun l p => insertPkt p l) []
      let s1 := K.pages.foldl (fun s p => restorePage s ctx p) s
      let s2 := (ps.zip (List.range ps.length)).foldl (fun s x => submit s x.2 x.1) s1
      let run := ps.map fun p => { queue := p.queue, idx := p.idx, raw := p.raw : CapPkt }
      let R : Replay := { state := if ps.isEmpty then 2 else 1, result := result, cap := ps, run := run }
      (ps.foldl submitCheck { s2 with replays := tput s2.replays ctx R }, 0, [])

def execReplayStatus (tag ctx : Nat) (s : State) : Host.Outcome State Fault Refusal :=
  vendor s 0x14 tag fun s =>
    if 1024 ≤ ctx then (s, 6, [])
    else
      let R := replayOf s ctx
      (s, 0, leBytes R.state 8 ++ leBytes R.records 8 ++ leBytes R.diverged 8)

end Sys2Proof.Machine
end

