-- ==== Sys2Proof/Machine/Resets.lean ====
section
/-! DEFINITION. Resets (19 R438, R439, 15 R364), links (19 R427), voltage (19 R436), the load-store domain (18 R409), and
requesters outside the module (08 R201, R203, 19 R423). -/

namespace Sys2Proof.Machine

/-! ### Firmware at a reset (19 R431) -/

/-- The other bank's image runs. -/
def otherBank (F : Firmware) : Firmware := { F with run := F.other, other := F.run, bank := 1 - F.bank, waits := false }

/-- The debug enable of a configuration image; the one that the module was delivered with has 1. -/
def debugOf (image : Option (List Byte)) : Bool := match image with
  | some i => Config.debugEnable i
  | none => true

/-- Firmware of a kind starts at a reset: from the image that waits, where it takes effect at such a reset. An image that fails to
start is replaced by the other bank's (19 R431). -/
def startImage (s : State) (kind : Nat) (takes : Bool) : State :=
  let F := tget ({} : Firmware) s.sup.fw kind
  let F1 := if takes && F.waits then otherBank F else F
  let F2 := if Config.imageStarts s.free then F1 else { otherBank F1 with waits := F1.waits }
  { s with sup := { s.sup with fw := tput s.sup.fw kind F2, debug := if kind = 4 then debugOf F2.run else s.sup.debug },
           free := s.free + 1 }

/-- A reset of a kind of 19 R433 that the management port asks for, as the policy of the configuration image and the target let
it, with its response; or one that something else raises (19 R438). -/
def asked (s : State) (kind : Nat) (exists_ : Bool) (act : State → State) : Host.Outcome State Fault Refusal :=
  let s1 := { s with free := s.free + 1 }
  .next (match Config.resetRequest s.free with
    | none => if exists_ then act s1 else s
    | some tag =>
      if !Config.resetPolicy (imageOf s 4) kind then vendorOut s1 0x20 tag 5 []
      else if exists_ then vendorOut (act s1) 0x20 tag 0 []
      else vendorOut s1 0x20 tag 6 [])

/-! ### Cold reset -/

/-- A die's ageing record after a cold reset: MEXH stays while the margin is not enough. -/
def coldAgeing (A : Ageing) : Ageing := { A with mexh := A.mexh && decide (600 < A.vneed), cecnt := 0 }

/-- A cold reset: every field at its reset value but those that the supervisor keeps; memory outside the module stays. What
is the model's own (the agenda, what was put out, the counters) goes on. -/
def coldReset (s : State) : State :=
  let ageing := tmap s.sup.ageing fun _ A => coldAgeing A
  let sup : Sup := { log := s.sup.log, out := s.sup.out, debug := s.sup.debug, fw := s.sup.fw, ageing := ageing }
  let dies := (ageing.filter fun e => e.2.mexh).map fun e => (e.1, ({ out := true } : Die))
  let s1 : State := { mem := s.mem.filter fun e => decide (2 ^ 60 ≤ e.1), bad := s.bad.filter fun w => decide (2 ^ 60 ≤ w),
                      dies := dies, sup := sup, agenda := s.agenda, irqs := s.irqs, bus := s.bus, loads := s.loads, free := s.free,
                      nextId := s.nextId }
  [1, 2, 3, 4].foldl (fun s k => startImage s k true) s1

/-- COLD_RESET. -/
def execColdReset (s : State) : Host.Outcome State Fault Refusal := asked s 0 true coldReset

/-! ### Die reset (19 R439, 15 R364) -/

/-- Chunks in ascending order. -/
def insertNat (n : Nat) : List Nat → List Nat
  | [] => [n]
  | x :: xs => if n < x then n :: x :: xs else if n = x then x :: xs else x :: insertNat n xs

/-- A launch after the reset of a die where it lost some teams: without IDEM it is struck; else the die's chunks and those of
the lost teams are undealt again, whole. -/
def strikeLaunch (die : Nat) (lost : List Nat) (idem : Bool) (L : Launch) : Launch :=
  if !lost.isEmpty && !idem then { L with struck := true, next := chunkCount L, again := [], dealt := [], todo := [], blocked := [] }
  else
    let back := (L.dealt.filter fun d => d.2 == die).map (·.1) ++ lost.map (· / L.chunk)
    let out := fun (ts : List (Nat × Nat)) => back.foldl (fun ts c => rangesMinus ts [(c * L.chunk, L.chunk)]) ts
    { L with again := back.foldl (fun l c => insertNat c l) L.again, dealt := L.dealt.filter fun d => !back.contains d.1,
             todo := (tmap (tdel L.todo die) fun _ ts => out ts).filter fun e => !e.2.isEmpty, blocked := tdel L.blocked die }

/-- The launches of a queue after the reset; `had` are the teams that were in place on the die, as queue, packet and number
in the grid. -/
def strikeAll (s : State) (die : Nat) (had : List (Nat × Nat × Nat)) : State :=
  let one := fun (s : State) (q i : Nat) (P : Packet) =>
    if P.launch.isNone || P.fin.isSome then s
    else
      let lost := (had.filter fun h => h.1 == q && h.2.1 == i).map (·.2.2)
      let s1 := modLaunch s q i fun L => dealIdle s (strikeLaunch die lost (pktIdem P.raw) L)
      launchEnd s1 q i
  s.queues.foldl (fun s e => e.2.pkts.foldl (fun s p => one s e.1 p.1 p.2) s) s

/-- A saved team whose operations ran on the die's engines loses them. -/
def loseOps (T : Team) : Team :=
  { T with copies := [], csums := [], mops := [], marches := [], jobs := [],
           groups := tmap T.groups fun _ G => { G with pend := [] } }

/-- A line that could not be written back: it has a value that it had earlier, and is logged. What was bad in the L2 alone is not
so in memory. -/
def loseLine (s : State) (die a : Nat) : State :=
  let k := a / 128 * 128
  if deviceTop ≤ k ∨ homeDie k ≠ die then s
  else
    let s1 := putMem s k (readSince s 0 s.free 0 k 128)
    let inL2 := fun (w : Nat) => s.lineBad.contains w && w / 128 * 128 == k
    { s1 with bad := s.bad.filter fun w => !inL2 w, lineBad := s.lineBad.filter fun w => !inL2 w, free := s.free + 1,
              sup := { s.sup with log := s.sup.log ++ [(5, k, s.gt)] } }

/-- The other lines of a die's L2 leave it: words that are bad there stay so in memory where the line was dirty, and was thus
written back (08 R206). -/
def leaveL2 (s : State) (die : Nat) : State :=
  let here := fun (w : Nat) => s.lineBad.contains w && homeDie w == die
  { s with bad := s.bad.filter fun w => !(here w && !Config.lineDirty s.free (w / 128)),
           lineBad := s.lineBad.filter fun w => !here w, free := s.free + 1 }

/-- Entries of a table whose key, divided by n, is not the die. -/
def offDie {α : Type} (m : Table α) (n die : Nat) : Table α := m.filter fun e => e.1 / n != die

/-- The reset of a compute die; `out` leaves it out of service. -/
def resetDie (s : State) (die : Nat) (lost : List Nat) (out : Bool) : State :=
  let here := fun (T : Team) => T.die == die
  let placed := s.teams.filter fun e => here e.2 && inPlace e.2 && !e.2.ctl
  let had := placed.map fun e => (e.2.queue, e.2.pkt, e.2.lin)
  let teams := (s.teams.filter fun e => !here e.2 || isSaved e.2).map fun e => if here e.2 then (e.1, loseOps e.2) else e
  let D : Die := { since := s.ran, out := out, halved := s.gt }
  let s1 := { s with teams := teams, cores := offDie s.cores 320 die, clusters := offDie s.clusters 80 die,
                     dies := tput s.dies die D, walkBad := s.walkBad.filter fun w => w.1 != die,
                     copyBad := s.copyBad.filter fun w => w.1 != die, cur := none }
  let s2 := lost.foldl (fun s a => loseLine s die a) s1
  strikeAll (startImage (leaveL2 s2 die) 2 true) die had

/-- DIE_RESET. -/
def execDieReset (die : Nat) (lost : List Nat) (s : State) : Host.Outcome State Fault Refusal :=
  asked s 1 (decide (die < 8)) fun s => resetDie s die lost (tget ({} : Ageing) s.sup.ageing die).mexh

/-- IO_DIE_RESET: queue service moves to the other I/O die; the port's command interface and coherent windows are gone. -/
def execIoDieReset (io : Nat) (s : State) : Host.Outcome State Fault Refusal :=
  asked s 2 (decide (io < 2)) fun s =>
    let s1 := startImage s 3 false
    { s1 with qio := if s.qio = io then 1 - io else s.qio, cmds := tdel s.cmds io,
              windows := s.windows.filter fun w => w.1 != io }

/-! ### Links (19 R427) -/

/-- LINK_RESET: a link, 0 to 11, or a host port, 12 and 13, is retrained and its traffic rerouted, in the order of each path:
nothing a program sees. -/
def execLinkReset (link : Nat) (s : State) : Host.Outcome State Fault Refusal := asked s 3 (decide (link ≤ 13)) fun s => s

/-- FLIT_RETRY: a flit is sent again on the same link. -/
def execFlitRetry (_link : Nat) (s : State) : Host.Outcome State Fault Refusal := .next s

/-- A peer store that its home never acknowledges: the queue goes on, and the store does not complete (07 R184). -/
def lostStore (s : State) (t g id : Nat) : State :=
  modGroup s t g fun G => { G with pend := G.pend.map fun (o : Pending) => if o.id == id then { o with performed := true } else o }

/-- The accesses of an operation that no route delivers: some of them, at least one. -/
def undelivered (s : State) (accs : List Acc) : List Acc :=
  let l := accs.filter fun a => Config.undelivered s.free a.lane
  if l.isEmpty then accs else l

/-- Stores dropped on the way, logged with address and tick. -/
def logDropped (s : State) (as : List Nat) : State :=
  { s with sup := { s.sup with log := s.sup.log ++ as.map fun a => (6, a, s.gt) } }

/-- Accesses of a pending operation that no route delivers: a load or atomic traps for their lanes; a store goes on without them,
and where it waits for its home, it waits for ever (07 R184). -/
def opLost (s : State) (t g : Nat) (o : Pending) : State :=
  let fails := fun (accs : List Acc) => columnTrap ((undelivered s accs).map fun a => (a.lane, a.addr, TrapKind.uncorrected))
  match o.work with
  | .load .peer _ _ accs uni => match fails accs with
    | some (k, m, a) => trapPending s t g o k (failLanes o uni m) a
    | none => s
  | .atomic op .peer ty _ rel accs uni => match accKeys s (teamOf s t) accs (spaceTgt .peer), fails accs with
    | .ok keys, some (k, m, a) => failAtomic (releaseOp s t g o.scope rel) t g o op .peer ty uni (accs.zip keys) k m a
    | _, _ => s
  | .store .peer ty rel accs =>
    let lost := undelivered s accs
    let rest := accs.filter fun a => !lost.contains a
    let s1 := logDropped s (lost.map (·.addr))
    if rest.isEmpty then (if o.ack then lostStore s1 t g o.id else doneOp s1 t g o.id [])
    else modGroup { s1 with free := s1.free + 1 } t g fun G => { G with pend := G.pend.map fun (q : Pending) =>
      if q.id == o.id then { q with work := .store .peer ty rel rest, noAck := q.noAck || q.ack } else q }
  | _ => s

/-- A chunk of a collective copy that no route delivers: its read is uncorrected data, its write is dropped. -/
def chunkLost (s : State) (t id slice line : Nat) : State :=
  match copyOf (teamOf s t) id with
  | none => s
  | some C =>
    let x := C.slices.getD slice {}
    let reads := ctlSsp x.ctl == 2
    let writes := ctlDsp x.ctl == 2
    if !C.started || decide (s.gt < C.tick.getD s.gt + 2 ^ 20) then s
    else if reads && (!writes || Config.undelivered s.free 0) then
      faultChunk (fun _ _ => .fail .uncorrected (((lineReads x line).head?.map (·.1)).getD x.saddr)) t id slice line s
    else if writes then
      landChunk (fun s C => chunkBy (fun s _ _ lo _ => .ok (logDropped s [lo])) s t C slice line) t id slice line s
    else s

/-- A CSUM whose read of a peer no route delivers. -/
def csumLost (s : State) (t id : Nat) : State :=
  match (teamOf s t).csums.find? fun k => k.id == id with
  | none => s
  | some k =>
    if k.sp != 2 || decide (s.gt < k.at_ + 2 ^ 20) || csumBlocked s (teamOf s t) k || !canArrive s t k.bar 1 then s
    else csumFails s t k .uncorrected k.saddr

/-- A wait whose read of a peer no route delivers. -/
def waitLost (s : State) (t g p : Nat) : State :=
  let P := pathOf s t g p
  let T := teamOf s t
  if !P.valid || P.state != 5 || P.wcount < 2 ^ 20 || teamFrozen s T || T.away != .present then s
  else match P.wait with
    | .addr _ va _ _ _ _ _ => match translate s T.ctx (asks s T.die) va .rd none with
      | .key k => if 2 ^ 61 ≤ k ∧ k < 2 ^ 62 then waitTrap s t g p 7 false va 0 else s
      | _ => s
    | _ => s

/-- LINK_DELIVERY_TIMEOUT: after 2^20 ticks a load or atomic that no route can deliver meets uncorrected data; a store is dropped
and logged (19 R427). -/
def execLinkDeliveryTimeout (t g : Nat) (id : Lost) (s : State) : Host.Outcome State Fault Refusal :=
  .next (match id with
    | .op n => match pendOf s t g n with
      | none => s
      | some o => if o.performed || decide (s.gt < o.at_ + 2 ^ 20) then s else opLost s t g o
    | .chunk n slice line => chunkLost s t n slice line
    | .csum n => csumLost s t n
    | .wait p => waitLost s t g p)

/-! ### Voltage and the domain -/

/-- VOLTAGE_REPLAN: voltage is raised, never above 600 mV; a die that needs more is reset and out of service. -/
def execVoltageReplan (die rcount : Nat) (vneed : VoltageNeed) (hours : Nat) (s : State) : Host.Outcome State Fault Refusal :=
  if 8 ≤ die then .next s
  else
    let A := tget ({} : Ageing) s.sup.ageing die
    let A' : Ageing := { A with rcount := rcount, vneed := vneed.mv, hours := hours, vset := max A.vset (min vneed.mv 600),
                                mexh := A.mexh || decide (600 < vneed.mv) }
    let s1 := { s with sup := { s.sup with ageing := tput s.sup.ageing die A' } }
    .next (if vneed.mv ≤ 600 then s1 else resetDie s1 die vneed.lost true)

/-- DOMAIN_JOIN: the module takes the domain's global tick. -/
def execDomainJoin (gt : Nat) (s : State) : Host.Outcome State Fault Refusal := .next { s with gt := gt }

/-! ### Requesters outside the module -/

/-- Bytes that a requester's operation covers. -/
def busLen : BusOp → Nat
  | .read n => n
  | .write d => d.length
  | .atomic _ ty _ _ => tyBytes ty

/-- A requester's operation on memory at a key, through the home L2: the state and the answer; none for uncorrectable data,
which is thereby detected. -/
def busDo (s : State) (k : Nat) (op : BusOp) : State × List Byte :=
  let n := busLen op
  let store := match op with
    | .write _ => true
    | _ => false
  if meetsBad s k n store then (detect s k n, [])
  else
    let s1 := fillLine s k
    match op with
    | .read _ => (s1, readBytes s.mem k n)
    | .write d => (storeMem s1 k d, [])
    | .atomic op ty v v2 =>
      let old := readNat s.mem k n
      (storeMem s1 k (leBytes (atomNew op ty old v v2) n), leBytes old n)

/-- Whether an operation is one that a host makes: its AtomicOps are FetchAdd, Swap and CAS of 32 and 64 bits (19 R423). -/
def hostMakes : BusOp → Bool
  | .atomic op ty _ _ => (op == .add || op == .xchg || op == .cas) && (tyBytes ty == 4 || tyBytes ty == 8)
  | _ => true

/-- The operation at a device address, with its answer noted; an address that is none is answered with nothing. -/
def busAt (s : State) (k : Option Nat) (op : BusOp) : State :=
  match k with
  | some k =>
    if k + busLen op ≤ deviceTop then
      let r := busDo s k op
      { r.1 with bus := r.1.bus ++ [r.2] }
    else { s with bus := s.bus ++ [[]] }
  | none => { s with bus := s.bus ++ [[]] }

/-- PEER_REQUEST: an access from a peer module reaches the home L2. -/
def execPeerRequest (_peer pa : Nat) (op : BusOp) (s : State) : Host.Outcome State Fault Refusal := .next (busAt s (some pa) op)

/-- HOST_CXL_MEM_REQUEST: a host access to device memory, on a page of a context with NOMIG = 1 (08 R191). -/
def execHostCxlMemRequest (ctx va : Nat) (op : BusOp) (s : State) : Host.Outcome State Fault Refusal :=
  let k := match walk s.mem (wordBad s) 0 (ctxOf s ctx).root va with
    | .error _ => none
    | .ok e => if bits e.1 7 6 = 0 ∧ bit e.1 10 = true ∧ hostMakes op = true then whereIs s ctx va else none
  .next (busAt s k op)

/-- HOST_SNOOP: the host takes a coherent line, with new data where it writes it (08 R203). -/
def execHostSnoop (port hpa : Nat) (data : Option (List Byte)) (s : State) : Host.Outcome State Fault Refusal :=
  match data with
  | none => .next s
  | some d => .next (putMem s (hostKey port hpa) d)

end Sys2Proof.Machine
end

