-- ==== Sys2Proof/Machine/Sfu.lean ====
section
/-! DEFINITION. Special function, divide and remainder: row 0x7 (06 R152–R154). -/

namespace Sys2Proof.Machine

/-- A result, exact or special, rounded. The infinity of a special operand stands as 06 R153 gives it, whatever the rounding,
but that SAT clamps it (06 R152, log entry 82). -/
def sfRes (t : Ty) (mode : Rnd) (sat ftz : Bool) (x : Ex) : Nat :=
  match x with
  | .inf _ => roundTo t .rne sat ftz none x
  | _ => roundTo t mode sat ftz none x

/-- The destination of row 0x7: a vector, or a scalar (06 R152). -/
def sfDst (d : Operand) : Bool := !isVector d && !isScalar d

/-- The types of the floating rows: F64 where `wide`. -/
def sfBad (wide : Bool) (gm : GM) : Bool := !(tyIeee gm.type && (wide || gm.type != .f64))

/-- A unary function rounded in GM.ROUND (`directed`) or RNE; SAT consulted where `satur`. -/
def sfUn (i : Instr) (look : Nat) (d a : Operand) (wide directed satur : Bool) (f : Ex → Ex) (s : State) :
    Host.Outcome State Fault Refusal :=
  laneLook i look
    { d := d, srcs := [typed a], opBad := sfDst d, modeBad := fun gm => sfBad wide gm || (directed && stoBad gm) }
    (fun c l =>
      let gm := c.P.gm
      asType gm (sfRes gm.type (if directed then gm.round else .rne) (satur && gm.sat) gm.ftz
        (f (fVal c gm.type a l)))) s

def execFrcp (look : Nat) (d a : Operand) (s : State) := sfUn (.frcp look d a) look d a true true true exRcp s
def execFrsq (look : Nat) (d a : Operand) (s : State) := sfUn (.frsq look d a) look d a true true false exRsqrt s
def execFsqrt (look : Nat) (d a : Operand) (s : State) := sfUn (.fsqrt look d a) look d a true true false exSqrt s
def execFexp2 (look : Nat) (d a : Operand) (s : State) := sfUn (.fexp2 look d a) look d a false false true exExp2 s
def execFlog2 (look : Nat) (d a : Operand) (s : State) := sfUn (.flog2 look d a) look d a false false false exLog2 s
def execFsin (look : Nat) (d a : Operand) (s : State) := sfUn (.fsin look d a) look d a false false false exSin s
def execFcos (look : Nat) (d a : Operand) (s : State) := sfUn (.fcos look d a) look d a false false false exCos s
def execFtanh (look : Nat) (d a : Operand) (s : State) := sfUn (.ftanh look d a) look d a false false false exTanh s
def execFsigm (look : Nat) (d a : Operand) (s : State) := sfUn (.fsigm look d a) look d a false false false exSigm s

/-- FDIV divides d by a (06 R152). -/
def execFdiv (look : Nat) (d a : Operand) (s : State) : Host.Outcome State Fault Refusal :=
  laneLook (.fdiv look d a) look
    { d := d, dsrc := true, srcs := [typed a], opBad := sfDst d, modeBad := fun gm => sfBad true gm || stoBad gm }
    (fun c l =>
      let gm := c.P.gm
      asType gm (sfRes gm.type gm.round gm.sat gm.ftz (exDiv (fVal c gm.type d l) (fVal c gm.type a l)))) s

/-- The quotient of 06 R154. -/
def idivBits (t : Ty) (sat : Bool) (d a : Int) : Nat :=
  if a = 0 then 2 ^ tyWidth t - 1
  else if tySigned t && d == intLo t && a == -1 then wrapInt (tyWidth t) (if sat then intHi t else intLo t)
  else wrapInt (tyWidth t) (Int.tdiv d a)

/-- The remainder of 06 R154. -/
def iremBits (t : Ty) (d a : Int) : Nat :=
  if a = 0 then wrapInt (tyWidth t) d
  else if tySigned t && d == intLo t && a == -1 then 0
  else wrapInt (tyWidth t) (d - a * Int.tdiv d a)

/-- IDIV and IREM. -/
def sfInt (i : Instr) (look : Nat) (d a : Operand) (f : Ty → Bool → Int → Int → Nat) (s : State) :
    Host.Outcome State Fault Refusal :=
  laneLook i look { d := d, dsrc := true, srcs := [typed a], opBad := sfDst d, modeBad := fun gm => !tyInt gm.type }
    (fun c l =>
      let gm := c.P.gm
      let t := gm.type
      asType gm (f t gm.sat (intOf t (tyElem c t d l)) (intOf t (tyElem c t a l)))) s

def execIdiv (look : Nat) (d a : Operand) (s : State) := sfInt (.idiv look d a) look d a idivBits s
def execIrem (look : Nat) (d a : Operand) (s : State) :=
  sfInt (.irem look d a) look d a (fun t _ x y => iremBits t x y) s

end Sys2Proof.Machine
end

