-- ==== Sys2Proof/Machine/System.lean ====
section
/-! DEFINITION. System registers, RFT, PREMASK (16 R394–R397), TICK and TRACE (18 R410, R416), core-state windows and the
restart of a control core (16 R376, R377). -/

namespace Sys2Proof.Machine

/-! ### System registers (16 R396, R397) -/

/-- The value of a system register; none for a reserved index. -/
def sysReg (G : Group) (C : Ctx) (idx : Nat) : Option Nat :=
  let R := G.tregs
  match idx with
  | 0x00 => some R.tkind
  | 0x01 => some (bits R.tpc 31 0)
  | 0x02 => some (bits R.tpc 63 32)
  | 0x03 => some (bits R.toff 31 0)
  | 0x04 => some R.tk
  | 0x05 => some (bits R.tflm 31 0)
  | 0x06 => some (bits R.tflm 63 32)
  | 0x07 => some (bits R.tflm 95 64)
  | 0x08 => some (bits R.taddr 31 0)
  | 0x09 => some (bits R.taddr 63 32)
  | 0x0A => some R.tinfo
  | 0x0B => some R.tact.toNat
  | 0x0C => some (bits R.coff 31 0)
  | 0x10 => some C.flHead
  | 0x11 => some C.flTail
  | 0x12 => some C.flLost
  | 0x13 => some (G.pm.toNat + 2 * (if C.sstate = 1 then 1 else 0))
  | 0x14 => some C.wl
  | 0x15 => some C.hl
  | 0x16 => some C.pml
  | _ => none

def execSysr (d : Operand) (idx : Nat) (s : State) : Host.Outcome State Fault Refusal :=
  issueWord (.sysr d idx)
    (fun T G _ => { illegal := (sysReg G (ctxOf s T.ctx) idx).isNone, uses := [{ op := d, src := false, dst := true }] })
    (fun c => .adv (wrLanes c c.s d 1 c.act fun _ => (sysReg c.G (ctxOf c.s c.T.ctx) idx).getD 0 % 2 ^ 32)) s

/-- A write of FLTAIL, ignored beyond FLHEAD. -/
def putTail (v : Nat) (C : Ctx) : Ctx :=
  if (v + 2 ^ 32 - C.flTail) % 2 ^ 32 ≤ (C.flHead + 2 ^ 32 - C.flTail) % 2 ^ 32 then { C with flTail := v } else C

/-- The effect of a write of a system register. -/
def writeSysReg (s : State) (t g idx v : Nat) : State :=
  if idx = 0x0B then modGroup s t g fun G => { G with tregs := { G.tregs with tact := G.tregs.tact && !bit v 0 } }
  else modCtx s (teamOf s t).ctx (putTail v)

def execSysw (idx : Nat) (a : Operand) (s : State) : Host.Outcome State Fault Refusal :=
  issueWord (.sysw idx a)
    (fun _ _ _ => { illegal := idx != 0x0B && idx != 0x11, uses := [{ op := a }], opBad := !isUniform a })
    (fun c => if c.act == 0 then .adv c.s else .adv (writeSysReg c.s c.t c.g idx (rd c a 0 0))) s

/-! ### TICK and TRACE -/

def execTick (d : Operand) (s : State) : Host.Outcome State Fault Refusal :=
  issueWord (.tick d)
    (fun _ _ _ => { uses := if d == .zero then [] else [{ op := d, n := 2, src := false, dst := true }] })
    (fun c => .adv (wrLanes c c.s d 2 c.act fun _ => c.s.gt % 2 ^ 64)) s

def execTrace (d a b : Operand) (s : State) : Host.Outcome State Fault Refusal :=
  issueWord (.trace d a b)
    (fun _ _ _ => { uses := [{ op := d }, { op := a }, { op := b }], opBad := !isUniform d || !isUniform a || !isUniform b })
    (fun c =>
      if c.act == 0 then .adv c.s
      else .adv (traceOut c.s c.T.die c.s.gt
        { type := 1, ctx := c.T.ctx % 2 ^ 10, queue := c.T.queue, loc := locOf c.T c.G, tag := rd c d 0 0 % 2 ^ 16,
          pc := c.P.pc, d0 := rd c a 0 0, d1 := rd c b 0 0 })) s

/-! ### PREMASK -/

def execPremask (en : Bool) (s : State) : Host.Outcome State Fault Refusal :=
  issueWord (.premask en) (fun _ _ _ => {}) (fun c => .adv (modGroup c.s c.t c.g fun G => { G with pm := en })) s

/-! ### RFT -/

/-- RFT's status in its scalar. -/
def putStatus (s : State) (c : Iss) (d : Operand) (n : Nat) : State :=
  match d with
  | .s k => putScal s c.t c.g c.p k [BitVec.ofNat 32 n]
  | _ => s

/-- RFT: on a control core alone. -/
def execRft (replay : Bool) (d a : Operand) (s : State) : Host.Outcome State Fault Refusal :=
  issueWord (.rft replay d a)
    (fun T _ _ => { illegal := !T.ctl, uses := [{ op := d, src := false, dst := true }, { op := a }],
                    opBad := !isScalar d || !isScalar a })
    (fun c =>
      let k := rd c a 0 0
      if c.act == 0 then .adv c.s
      else if 320 ≤ k then .adv (putStatus c.s c d 2)
      else match resumeCore c.s (c.T.die * 320 + k) replay with
        | .hold => .stall
        | .status s1 n => .adv (putStatus s1 c d n)
        | .again s1 t g h => .adv (putStatus (againRecord s1 (c.T.die * 320 + k) t g h) c d 4)) s

/-! ### Control cores -/

/-- CORE_STATE_WRITE: n bytes written at an offset of a core's window; only a frozen core takes them. -/
def execCoreStateWrite (core off n value : Nat) (s : State) : Host.Outcome State Fault Refusal :=
  if 2560 ≤ core ∨ 8 < n ∨ 0x20000 < off + n then .next s
  else .next (windowWrite s (core / 320) (core % 320 * 0x20000 + off) (leBytes value n))

/-- The number under which a die's control core stands among the teams. -/
def ctlKeyOf (die : Nat) : Nat := 2 ^ 40 + die

/-- A control core at the start of its firmware: one group of one lane with one path. -/
def ctlTeam (die : Nat) (code : Table Byte) : Team :=
  let P : Path := { valid := true, pc := Config.ctlEntry die, mask := 1, origin := 1, fs := 192 }
  { ctl := true, ctx := ctlCtx die, die := die, consumer := { groups := 1, lanes := 1, q := 192 },
    groups := [(0, { present := 1, paths := [(0, P)], blk := 512, icode := code })] }

/-- CONTROL_CORE_RESTART: a control core that does not run starts from its signed image. -/
def execControlCoreRestart (die : Nat) (s : State) : Host.Outcome State Fault Refusal :=
  if 8 ≤ die ∨ (tfind s.teams (ctlKeyOf die)).isSome then .next s
  else .next { s with teams := tput s.teams (ctlKeyOf die) (ctlTeam die s.mem) }

end Sys2Proof.Machine
end

