-- ==== Sys2Proof/Machine/Dispatch.lean ====
section
/-! DEFINITION. The dispatch of every instruction word and event to its meaning. -/

namespace Sys2Proof.Machine

def exec (i : Instr) (s : State) : Host.Outcome State Fault Refusal :=
  match i with
  | .nop => Sys2Proof.Machine.execNop s
  | .setmode gm => Sys2Proof.Machine.execSetmode gm s
  | .bra c off => Sys2Proof.Machine.execBra c off s
  | .bru c off => Sys2Proof.Machine.execBru c off s
  | .join => Sys2Proof.Machine.execJoin s
  | .call c off => Sys2Proof.Machine.execCall c off s
  | .callx c a => Sys2Proof.Machine.execCallx c a s
  | .ret => Sys2Proof.Machine.execRet s
  | .brx a => Sys2Proof.Machine.execBrx a s
  | .exit => Sys2Proof.Machine.execExit s
  | .yield b off => Sys2Proof.Machine.execYield b off s
  | .waitaddr acq cc d a => Sys2Proof.Machine.execWaitaddr acq cc d a s
  | .sleep n => Sys2Proof.Machine.execSleep n s
  | .trap code => Sys2Proof.Machine.execTrap code s
  | .bkpt tag => Sys2Proof.Machine.execBkpt tag s
  | .iadd d a b => Sys2Proof.Machine.execIadd d a b s
  | .isub d a b => Sys2Proof.Machine.execIsub d a b s
  | .imul d a b => Sys2Proof.Machine.execImul d a b s
  | .imulh d a b => Sys2Proof.Machine.execImulh d a b s
  | .imad d a b => Sys2Proof.Machine.execImad d a b s
  | .imin d a b => Sys2Proof.Machine.execImin d a b s
  | .imax d a b => Sys2Proof.Machine.execImax d a b s
  | .iabsd d a b => Sys2Proof.Machine.execIabsd d a b s
  | .and d a b => Sys2Proof.Machine.execAnd d a b s
  | .or d a b => Sys2Proof.Machine.execOr d a b s
  | .xor d a b => Sys2Proof.Machine.execXor d a b s
  | .andn d a b => Sys2Proof.Machine.execAndn d a b s
  | .shl d a b => Sys2Proof.Machine.execShl d a b s
  | .shr d a b => Sys2Proof.Machine.execShr d a b s
  | .sar d a b => Sys2Proof.Machine.execSar d a b s
  | .rot d a b => Sys2Proof.Machine.execRot d a b s
  | .popc d a => Sys2Proof.Machine.execPopc d a s
  | .clz d a => Sys2Proof.Machine.execClz d a s
  | .brev d a => Sys2Proof.Machine.execBrev d a s
  | .bfe d a b => Sys2Proof.Machine.execBfe d a b s
  | .bfi d a b => Sys2Proof.Machine.execBfi d a b s
  | .add64 d a b => Sys2Proof.Machine.execAdd64 d a b s
  | .lea64 d a b => Sys2Proof.Machine.execLea64 d a b s
  | .iadds d a b => Sys2Proof.Machine.execIadds d a b s
  | .isubs d a b => Sys2Proof.Machine.execIsubs d a b s
  | .perm d a b => Sys2Proof.Machine.execPerm d a b s
  | .mulw d a b => Sys2Proof.Machine.execMulw d a b s
  | .fadd d a b => Sys2Proof.Machine.execFadd d a b s
  | .fsub d a b => Sys2Proof.Machine.execFsub d a b s
  | .fmul d a b => Sys2Proof.Machine.execFmul d a b s
  | .fma d a b => Sys2Proof.Machine.execFma d a b s
  | .fmin d a b => Sys2Proof.Machine.execFmin d a b s
  | .fmax d a b => Sys2Proof.Machine.execFmax d a b s
  | .fneg d a => Sys2Proof.Machine.execFneg d a s
  | .fabs d a => Sys2Proof.Machine.execFabs d a s
  | .frnd d a => Sys2Proof.Machine.execFrnd d a s
  | .fclass d a => Sys2Proof.Machine.execFclass d a s
  | .fscale d a b => Sys2Proof.Machine.execFscale d a b s
  | .fnma d a b => Sys2Proof.Machine.execFnma d a b s
  | .fcpys d a b => Sys2Proof.Machine.execFcpys d a b s
  | .fdot2 d a b => Sys2Proof.Machine.execFdot2 d a b s
  | .cvt src d a => Sys2Proof.Machine.execCvt src d a s
  | .cvts d a b => Sys2Proof.Machine.execCvts d a b s
  | .pack2 d a b => Sys2Proof.Machine.execPack2 d a b s
  | .unpk d a b => Sys2Proof.Machine.execUnpk d a b s
  | .hfma2 d a b => Sys2Proof.Machine.execHfma2 d a b s
  | .hadd2 d a b => Sys2Proof.Machine.execHadd2 d a b s
  | .hmul2 d a b => Sys2Proof.Machine.execHmul2 d a b s
  | .dot4 d a b => Sys2Proof.Machine.execDot4 d a b s
  | .ivadd d a b => Sys2Proof.Machine.execIvadd d a b s
  | .ivsub d a b => Sys2Proof.Machine.execIvsub d a b s
  | .ivmul d a b => Sys2Proof.Machine.execIvmul d a b s
  | .ivsqr d a => Sys2Proof.Machine.execIvsqr d a s
  | .ivhull d a b => Sys2Proof.Machine.execIvhull d a b s
  | .vexpr d a b => Sys2Proof.Machine.execVexpr d a b s
  | .tbl d a b => Sys2Proof.Machine.execTbl d a b s
  | .fcmp cc p a b => Sys2Proof.Machine.execFcmp cc p a b s
  | .icmp cc p a b => Sys2Proof.Machine.execIcmp cc p a b s
  | .plog pd pa pb pc tt => Sys2Proof.Machine.execPlog pd pa pb pc tt s
  | .sel d a b => Sys2Proof.Machine.execSel d a b s
  | .vote p d m => Sys2Proof.Machine.execVote p d m s
  | .shfl d a b => Sys2Proof.Machine.execShfl d a b s
  | .shflx d a b => Sys2Proof.Machine.execShflx d a b s
  | .shflu d a b => Sys2Proof.Machine.execShflu d a b s
  | .shfld d a b => Sys2Proof.Machine.execShfld d a b s
  | .gshfl look wrap d a => Sys2Proof.Machine.execGshfl look wrap d a s
  | .gscan op d a => Sys2Proof.Machine.execGscan op d a s
  | .mov d a => Sys2Proof.Machine.execMov d a s
  | .smov d a b => Sys2Proof.Machine.execSmov d a b s
  | .bcast d a => Sys2Proof.Machine.execBcast d a s
  | .sread d idx => Sys2Proof.Machine.execSread d idx s
  | .swrite idx a => Sys2Proof.Machine.execSwrite idx a s
  | .lit d imm => Sys2Proof.Machine.execLit d imm s
  | .lith d imm => Sys2Proof.Machine.execLith d imm s
  | .addi d imm => Sys2Proof.Machine.execAddi d imm s
  | .andi d imm => Sys2Proof.Machine.execAndi d imm s
  | .ori d imm => Sys2Proof.Machine.execOri d imm s
  | .xori d imm => Sys2Proof.Machine.execXori d imm s
  | .shli d n => Sys2Proof.Machine.execShli d n s
  | .shri d n => Sys2Proof.Machine.execShri d n s
  | .sari d n => Sys2Proof.Machine.execSari d n s
  | .flit d imm => Sys2Proof.Machine.execFlit d imm s
  | .icmpi cc p a imm => Sys2Proof.Machine.execIcmpi cc p a imm s
  | .frame n => Sys2Proof.Machine.execFrame n s
  | .frcp look d a => Sys2Proof.Machine.execFrcp look d a s
  | .frsq look d a => Sys2Proof.Machine.execFrsq look d a s
  | .fsqrt look d a => Sys2Proof.Machine.execFsqrt look d a s
  | .fexp2 look d a => Sys2Proof.Machine.execFexp2 look d a s
  | .flog2 look d a => Sys2Proof.Machine.execFlog2 look d a s
  | .fsin look d a => Sys2Proof.Machine.execFsin look d a s
  | .fcos look d a => Sys2Proof.Machine.execFcos look d a s
  | .ftanh look d a => Sys2Proof.Machine.execFtanh look d a s
  | .fdiv look d a => Sys2Proof.Machine.execFdiv look d a s
  | .idiv look d a => Sys2Proof.Machine.execIdiv look d a s
  | .irem look d a => Sys2Proof.Machine.execIrem look d a s
  | .fsigm look d a => Sys2Proof.Machine.execFsigm look d a s
  | .ldl look disp d a => Sys2Proof.Machine.execLdl look disp d a s
  | .stl look disp d a => Sys2Proof.Machine.execStl look disp d a s
  | .ldp look disp d a => Sys2Proof.Machine.execLdp look disp d a s
  | .stp look disp d a => Sys2Proof.Machine.execStp look disp d a s
  | .ldk look bank d a => Sys2Proof.Machine.execLdk look bank d a s
  | .ldg look acq cache d a => Sys2Proof.Machine.execLdg look acq cache d a s
  | .stg look rel cache d a => Sys2Proof.Machine.execStg look rel cache d a s
  | .pfg look level a => Sys2Proof.Machine.execPfg look level a s
  | .cctl look op a => Sys2Proof.Machine.execCctl look op a s
  | .ldn look acq na d a => Sys2Proof.Machine.execLdn look acq na d a s
  | .stn look rel ack d a => Sys2Proof.Machine.execStn look rel ack d a s
  | .ldh look acq nosnoop rlx d a => Sys2Proof.Machine.execLdh look acq nosnoop rlx d a s
  | .sth look rel nosnoop rlx d a => Sys2Proof.Machine.execSth look rel nosnoop rlx d a s
  | .aadd look acq rel sp d a => Sys2Proof.Machine.execAadd look acq rel sp d a s
  | .afadd look acq rel sp d a => Sys2Proof.Machine.execAfadd look acq rel sp d a s
  | .amin look acq rel sp d a => Sys2Proof.Machine.execAmin look acq rel sp d a s
  | .amax look acq rel sp d a => Sys2Proof.Machine.execAmax look acq rel sp d a s
  | .aand look acq rel sp d a => Sys2Proof.Machine.execAand look acq rel sp d a s
  | .aor look acq rel sp d a => Sys2Proof.Machine.execAor look acq rel sp d a s
  | .axor look acq rel sp d a => Sys2Proof.Machine.execAxor look acq rel sp d a s
  | .axchg look acq rel sp d a => Sys2Proof.Machine.execAxchg look acq rel sp d a s
  | .acas look acq rel sp d a => Sys2Proof.Machine.execAcas look acq rel sp d a s
  | .ainc look acq rel sp d a => Sys2Proof.Machine.execAinc look acq rel sp d a s
  | .adec look acq rel sp d a => Sys2Proof.Machine.execAdec look acq rel sp d a s
  | .fence look kind => Sys2Proof.Machine.execFence look kind s
  | .qfence look mask bar => Sys2Proof.Machine.execQfence look mask bar s
  | .binit look b a => Sys2Proof.Machine.execBinit look b a s
  | .barv look b d a => Sys2Proof.Machine.execBarv look b d a s
  | .bwait b cur a => Sys2Proof.Machine.execBwait b cur a s
  | .btest b p cur a => Sys2Proof.Machine.execBtest b p cur a s
  | .bexp look b a => Sys2Proof.Machine.execBexp look b a s
  | .copy look b role a => Sys2Proof.Machine.execCopy look b role a s
  | .csum look b a => Sys2Proof.Machine.execCsum look b a s
  | .pipe d => Sys2Proof.Machine.execPipe d s
  | .piperel => Sys2Proof.Machine.execPiperel s
  | .qput look d a => Sys2Proof.Machine.execQput look d a s
  | .mpass look bar a => Sys2Proof.Machine.execMpass look bar a s
  | .mzero look n => Sys2Proof.Machine.execMzero look n s
  | .mdrain look n => Sys2Proof.Machine.execMdrain look n s
  | .mstore look n glob col pair bar a => Sys2Proof.Machine.execMstore look n glob col pair bar a s
  | .mload look n glob col pair bar a => Sys2Proof.Machine.execMload look n glob col pair bar a s
  | .mwait tile => Sys2Proof.Machine.execMwait tile s
  | .mdelta look bar a => Sys2Proof.Machine.execMdelta look bar a s
  | .cbind look d a => Sys2Proof.Machine.execCbind look d a s
  | .cdrop look a => Sys2Proof.Machine.execCdrop look a s
  | .cstat look d a => Sys2Proof.Machine.execCstat look d a s
  | .cfresh look a => Sys2Proof.Machine.execCfresh look a s
  | .march look b d a => Sys2Proof.Machine.execMarch look b d a s
  | .buck look b slot a => Sys2Proof.Machine.execBuck look b slot a s
  | .cqpop look d a => Sys2Proof.Machine.execCqpop look d a s
  | .cqret look d a => Sys2Proof.Machine.execCqret look d a s
  | .boxt look d a => Sys2Proof.Machine.execBoxt look d a s
  | .trit look cull d a => Sys2Proof.Machine.execTrit look cull d a s
  | .vfetch look grad d a => Sys2Proof.Machine.execVfetch look grad d a s
  | .visw look d a => Sys2Proof.Machine.execVisw look d a s
  | .merge look bar a => Sys2Proof.Machine.execMerge look bar a s
  | .mstat look d a => Sys2Proof.Machine.execMstat look d a s
  | .feval look mode slot d a => Sys2Proof.Machine.execFeval look mode slot d a s
  | .fbind look slot land d a => Sys2Proof.Machine.execFbind look slot land d a s
  | .tblload look k a => Sys2Proof.Machine.execTblload look k a s
  | .sysr d idx => Sys2Proof.Machine.execSysr d idx s
  | .sysw idx a => Sys2Proof.Machine.execSysw idx a s
  | .tick d => Sys2Proof.Machine.execTick d s
  | .rft replay d a => Sys2Proof.Machine.execRft replay d a s
  | .premask en => Sys2Proof.Machine.execPremask en s
  | .trace d a b => Sys2Proof.Machine.execTrace d a b s
  | .pendingResultComplete t g id => Sys2Proof.Machine.execPendingResultComplete t g id s
  | .asyncTrap t g => Sys2Proof.Machine.execAsyncTrap t g s
  | .waitTimeout t g p => Sys2Proof.Machine.execWaitTimeout t g p s
  | .hangDetector t g => Sys2Proof.Machine.execHangDetector t g s
  | .sleepWake t g p => Sys2Proof.Machine.execSleepWake t g p s
  | .joinRelease t g => Sys2Proof.Machine.execJoinRelease t g s
  | .joinAgeEscape t g p => Sys2Proof.Machine.execJoinAgeEscape t g p s
  | .voteComplete t g p => Sys2Proof.Machine.execVoteComplete t g p s
  | .shuffleComplete t g p => Sys2Proof.Machine.execShuffleComplete t g p s
  | .bwaitComplete t g p => Sys2Proof.Machine.execBwaitComplete t g p s
  | .yieldResume t g p => Sys2Proof.Machine.execYieldResume t g p s
  | .barvHeldRelease t g p => Sys2Proof.Machine.execBarvHeldRelease t g p s
  | .waitaddrReread t g p => Sys2Proof.Machine.execWaitaddrReread t g p s
  | .mwaitComplete t g p => Sys2Proof.Machine.execMwaitComplete t g p s
  | .tblloadComplete t g id => Sys2Proof.Machine.execTblloadComplete t g id s
  | .pipeDepthUpdate t => Sys2Proof.Machine.execPipeDepthUpdate t s
  | .passGrant cluster => Sys2Proof.Machine.execPassGrant cluster s
  | .tileOpGrant t g => Sys2Proof.Machine.execTileOpGrant t g s
  | .passComplete t id => Sys2Proof.Machine.execPassComplete t id s
  | .emulatedPassComplete t id => Sys2Proof.Machine.execEmulatedPassComplete t id s
  | .mdeltaGrant cluster => Sys2Proof.Machine.execMdeltaGrant cluster s
  | .copyCollectiveStart t id => Sys2Proof.Machine.execCopyCollectiveStart t id s
  | .copyChunkLand t id slice line => Sys2Proof.Machine.execCopyChunkLand t id slice line s
  | .copyCollectiveArrive t id => Sys2Proof.Machine.execCopyCollectiveArrive t id s
  | .copyFault t id slice line => Sys2Proof.Machine.execCopyFault t id slice line s
  | .csumComplete t id => Sys2Proof.Machine.execCsumComplete t id s
  | .marchRayStep t id lane => Sys2Proof.Machine.execMarchRayStep t id lane s
  | .cqRequestAppend t id lane => Sys2Proof.Machine.execCqRequestAppend t id lane s
  | .cqRequestTimeout t id lane => Sys2Proof.Machine.execCqRequestTimeout t id lane s
  | .marchBatchArrive t id => Sys2Proof.Machine.execMarchBatchArrive t id s
  | .buckPerform t id => Sys2Proof.Machine.execBuckPerform t id s
  | .fbindPerform t id => Sys2Proof.Machine.execFbindPerform t id s
  | .fevalComplete t id => Sys2Proof.Machine.execFevalComplete t id s
  | .cqpopTake t g id => Sys2Proof.Machine.execCqpopTake t g id s
  | .mergeJobStart t id => Sys2Proof.Machine.execMergeJobStart t id s
  | .mergeJobEnd t id => Sys2Proof.Machine.execMergeJobEnd t id s
  | .qfenceArrive t g id => Sys2Proof.Machine.execQfenceArrive t g id s
  | .notifyWrite q => Sys2Proof.Machine.execNotifyWrite q s
  | .queueExamine q => Sys2Proof.Machine.execQueueExamine q s
  | .launch q pkt => Sys2Proof.Machine.execLaunch q pkt s
  | .barrierAnd q pkt => Sys2Proof.Machine.execBarrierAnd q pkt s
  | .barrierAndComplete q pkt => Sys2Proof.Machine.execBarrierAndComplete q pkt s
  | .signal q pkt => Sys2Proof.Machine.execSignal q pkt s
  | .raster q pkt => Sys2Proof.Machine.execRaster q pkt s
  | .marker q pkt => Sys2Proof.Machine.execMarker q pkt s
  | .packetComplete q pkt => Sys2Proof.Machine.execPacketComplete q pkt s
  | .teamPlace die priv => Sys2Proof.Machine.execTeamPlace die priv s
  | .teamExit t => Sys2Proof.Machine.execTeamExit t s
  | .compactorRun die => Sys2Proof.Machine.execCompactorRun die s
  | .compactorMove t what => Sys2Proof.Machine.execCompactorMove t what s
  | .pageMigration ctx va newPa => Sys2Proof.Machine.execPageMigration ctx va newPa s
  | .hotnessEpoch die => Sys2Proof.Machine.execHotnessEpoch die s
  | .patrolScrub => Sys2Proof.Machine.execPatrolScrub s
  | .igo ctx => Sys2Proof.Machine.execIgo ctx s
  | .invalidationComplete ctx => Sys2Proof.Machine.execInvalidationComplete ctx s
  | .snap ctx => Sys2Proof.Machine.execSnap ctx s
  | .sreq ctx => Sys2Proof.Machine.execSreq ctx s
  | .rreq ctx => Sys2Proof.Machine.execRreq ctx s
  | .priorityPreempt ctx => Sys2Proof.Machine.execPriorityPreempt ctx s
  | .maskOverrun ctx => Sys2Proof.Machine.execMaskOverrun ctx s
  | .suspend ctx => Sys2Proof.Machine.execSuspend ctx s
  | .coreStateWrite core off n value => Sys2Proof.Machine.execCoreStateWrite core off n value s
  | .controlCoreRestart die => Sys2Proof.Machine.execControlCoreRestart die s
  | .createContext port => Sys2Proof.Machine.execCreateContext port s
  | .destroyContext port => Sys2Proof.Machine.execDestroyContext port s
  | .createQueue port => Sys2Proof.Machine.execCreateQueue port s
  | .destroyQueue port => Sys2Proof.Machine.execDestroyQueue port s
  | .reloadQueue port => Sys2Proof.Machine.execReloadQueue port s
  | .unknownCommand port => Sys2Proof.Machine.execUnknownCommand port s
  | .binRecordWrite core bin off n value => Sys2Proof.Machine.execBinRecordWrite core bin off n value s
  | .registerWrite bar off n value => Sys2Proof.Machine.execRegisterWrite bar off n value s
  | .loadCodeObject ctx va pa obj => Sys2Proof.Machine.execLoadCodeObject ctx va pa obj s
  | .getVersion => Sys2Proof.Machine.execGetVersion s
  | .getCapabilities => Sys2Proof.Machine.execGetCapabilities s
  | .negotiateAlgorithms offersFalcon => Sys2Proof.Machine.execNegotiateAlgorithms offersFalcon s
  | .getDigests => Sys2Proof.Machine.execGetDigests s
  | .getCertificate off len => Sys2Proof.Machine.execGetCertificate off len s
  | .challenge transcript => Sys2Proof.Machine.execChallenge transcript s
  | .getMeasurements index signed transcript => Sys2Proof.Machine.execGetMeasurements index signed transcript s
  | .getVendorDefinedMessageSupport => Sys2Proof.Machine.execGetVendorDefinedMessageSupport s
  | .firmwareUpdate kind version image sig => Sys2Proof.Machine.execFirmwareUpdate kind version image sig s
  | .setPowerLimit watts => Sys2Proof.Machine.execSetPowerLimit watts s
  | .ageingReport => Sys2Proof.Machine.execAgeingReport s
  | .setInstructionComparator tag die index enable all ctx addr => Sys2Proof.Machine.execSetInstructionComparator tag die index enable all ctx addr s
  | .setDataComparator tag die index enable all ctx access engines first last => Sys2Proof.Machine.execSetDataComparator tag die index enable all ctx access engines first last s
  | .armFreezeTick tag tick => Sys2Proof.Machine.execArmFreezeTick tag tick s
  | .freezeStatus tag => Sys2Proof.Machine.execFreezeStatus tag s
  | .scanRead tag addr len => Sys2Proof.Machine.execScanRead tag addr len s
  | .scanWrite tag addr data => Sys2Proof.Machine.execScanWrite tag addr data s
  | .moduleResume tag => Sys2Proof.Machine.execModuleResume tag s
  | .startCapture tag ctx base len => Sys2Proof.Machine.execStartCapture tag ctx base len s
  | .stopCapture tag ctx => Sys2Proof.Machine.execStopCapture tag ctx s
  | .captureStatus tag ctx => Sys2Proof.Machine.execCaptureStatus tag ctx s
  | .startReplay tag ctx base result => Sys2Proof.Machine.execStartReplay tag ctx base result s
  | .replayStatus tag ctx => Sys2Proof.Machine.execReplayStatus tag ctx s
  | .moduleFreeze => Sys2Proof.Machine.execModuleFreeze s
  | .coldReset => Sys2Proof.Machine.execColdReset s
  | .dieReset die lost => Sys2Proof.Machine.execDieReset die lost s
  | .ioDieReset io => Sys2Proof.Machine.execIoDieReset io s
  | .linkReset link => Sys2Proof.Machine.execLinkReset link s
  | .flitRetry link => Sys2Proof.Machine.execFlitRetry link s
  | .linkDeliveryTimeout t g id => Sys2Proof.Machine.execLinkDeliveryTimeout t g id s
  | .voltageReplan die rcount vneed hours => Sys2Proof.Machine.execVoltageReplan die rcount vneed hours s
  | .domainJoin gt => Sys2Proof.Machine.execDomainJoin gt s
  | .peerRequest peer pa op => Sys2Proof.Machine.execPeerRequest peer pa op s
  | .hostCxlMemRequest ctx va op => Sys2Proof.Machine.execHostCxlMemRequest ctx va op s
  | .hostSnoop port hpa data => Sys2Proof.Machine.execHostSnoop port hpa data s
  | .softError at_ symbols => Sys2Proof.Machine.execSoftError at_ symbols s
  | .hbmStackFault stack => Sys2Proof.Machine.execHbmStackFault stack s

end Sys2Proof.Machine
end

