-- ==== Sys2Proof/Machine/Tick.lean ====
section
/-! DEFINITION. One tick of the module: the tick counter, the counts of waits, stalls and sleeps (04 R99, R100, R109),
function-table reloads (06 R164), the compactor's moves (05 R118, 07 R177), accounting (01 R17, R19). -/

namespace Sys2Proof.Machine

/-! ### Fetch -/

/-- The memory key that a path fetches from (16 R376, 08 R192). -/
def fetchKey (s : State) (T : Team) (pc : Nat) : Tr := translate s T.ctx (asks s T.die) pc .ex (some 0)

/-- The word a path fetches: the current one, or the one of the last boundary (02 R51). -/
def fetchWord (s : State) (t g p : Nat) : Except TrapKind Nat :=
  let T := teamOf s t
  let pc := (pathOf s t g p).pc
  match fetchKey s T pc with
  | .fail k => .error k
  | .hold => .error .translation
  | .key k =>
    if laneBad s T.die .group k 4 false then .error .uncorrected
    else
      let now := readNat s.mem k 4
      let old := readNat (groupOf s t g).icode k 4
      .ok (if now = old then now else if Config.fetchNew s.free then now else old)

/-- The detection of uncorrected data by a fetch (08 R206). -/
def fetchSeen (s : State) (T : Team) (kind : TrapKind) (pc : Nat) : State :=
  if kind ≠ .uncorrected then s
  else match fetchKey s T pc with
    | .key k => detect s k 4
    | _ => detectAt s T.ctx 7 pc

/-- Whether a path is ready but for its pipe and the waits of its next word: valid, in RUN, its used-up windows closed (04
R89). -/
def pathReady (G : Group) (p : Nat) : Bool :=
  let P := tget ({} : Path) G.paths p
  P.valid && P.state == 0 && !windowStall G p false

/-- Whether a team's core is frozen since an earlier tick: in the tick of the trap its other slots still issue (16 R371). -/
def coreStopped (s : State) (T : Team) : Bool :=
  teamFrozen s T && (coreOf s (teamCore T)).trap.tick != s.gt

/-- Whether a group of a team may issue at all. -/
def groupReady (s : State) (T : Team) (G : Group) : Bool :=
  T.away == .present && !coreStopped s T && T.reload.isEmpty && G.asyncs.isEmpty && G.paused == 0

/-- The copy of the page of an instruction under capture (18 R420); the state before the issue gives its key. -/
def noteFetch (s s1 : State) (T : Team) (pc : Nat) : State :=
  match fetchKey s T pc with
  | .key k => readCaptured s1 T.ctx pc k 4
  | _ => s1

/-! ### The ticks in which TBLLOADs become ready (06 R163) -/

/-- The bank that the next word of a path loads, where the path is ready for that TBLLOAD. -/
def loadsBank (s : State) (t g p : Nat) : Option Nat :=
  match fetchWord s t g p with
  | .error _ => none
  | .ok w => match decode (BitVec.ofNat 32 w) with
    | .ok (.tblload look k a) =>
      let c := issCtx s t g p w []
      if usesBad [{ op := a, n := 2 }] || !isScalar a || c.P.gm.ftb.toNat == k % 2 || c.act == 0
        || pairOf c a 0 % 16 != 0 || pendFull c look false then none
      else some k
    | _ => none

/-- LOADING is set, and the holders taken, in the tick in which a path becomes ready for a TBLLOAD. -/
def noteLoads (s : State) : State :=
  s.teams.foldl (fun s e => e.2.groups.foldl (fun s G =>
    if e.2.ctl || !groupReady s e.2 G.2 then s
    else (List.range 8).foldl (fun s p =>
      if !pathReady G.2 p || bankStall s e.2 e.1 G.1 p (tget {} G.2.paths p).gm then s
      else match loadsBank s e.1 G.1 p with
        | some k => pendLoad s (e.1, G.1, p) (teamCore e.2) k
        | none => s) s) s) s

/-! ### What stops the counts (04 R99, 05 R118, 07 R177, 16 R371) -/

/-- Whether a core that holds a group of a context is frozen, for a trap or for suspension (04 R99, 16 R371, R382). -/
def ctxStopped (s : State) (c : Nat) : Bool :=
  (teamsOf s c).any fun e => inPlace e.2 && (teamFrozen s e.2 || e.2.away != .present)

/-- Whether the counts of a team stand still: it is away, or its context is stopped. -/
def teamStopped (s : State) (T : Team) : Bool := T.ctl || T.away != .present || ctxStopped s T.ctx

/-- Whether the compactor holds a group up: its block moves, or it waits for the copy of a landing granule (05 R118, 07
R177). -/
def heldUp (T : Team) (G : Group) : Bool := G.paused != 0 || (G.fenceWait && T.moving.isSome)

/-! ### Groups -/

/-- One tick of a path: WAKE counts down, WCOUNT up while its watched wait is not satisfied. -/
def tickPath (stopped frozen : Bool) (T : Team) (g : Nat) (G : Group) (P : Path) : Path :=
  if !P.valid then P
  else if P.state == 3 then (if frozen then P else { P with wake := P.wake - 1 })
  else if stopped || heldUp T G || waitMet T g G P != some false then P
  else { P with wcount := P.wcount + 1 }

/-- One tick of a group: its paths, its stall count, its pause. -/
def tickGroup (stopped frozen : Bool) (T : Team) (g : Nat) (G : Group) : Group :=
  let hang := if stopped || heldUp T G || G.ended then G.hang else if inFlight T g G then 0 else G.hang + 1
  { G with paths := tmap G.paths fun _ P => tickPath stopped frozen T g G P, hang := hang, paused := G.paused - 1 }

/-- One tick of a ray that waits for a reply (13 R322). -/
def tickMarch (m : MarchOp) : MarchOp :=
  { m with rays := m.rays.map fun r => if r.ticket.isSome then { r with wait := r.wait + 1 } else r }

/-- One tick of a team, in a state whose tick has advanced. -/
def tickTeam (s : State) (T : Team) : Team :=
  let stopped := teamStopped s T
  let T1 := if stopped then T else { T with marches := T.marches.map tickMarch }
  if T.away != .present then T1
  else { T1 with groups := tmap T1.groups fun g G => tickGroup stopped (teamFrozen s T) T g G }

/-! ### Reloads of function tables (06 R164) -/

/-- The end of the reload of a bank for a context on a core: no team of it waits for the bank any more. -/
def endReload (s : State) (ctx core k : Nat) : State :=
  let s1 := modBank s core k fun B =>
    let l := B.loader.filter fun l => l.path != reloadPath ctx k
    { B with loader := l, loading := !l.isEmpty }
  { s1 with teams := tmap s1.teams fun _ T =>
      if T.ctx = ctx ∧ teamCore T = core ∧ waitsHere T = true then { T with reload := T.reload.filter fun b => b.1 != k } else T }

/-- The reloads of a team's banks whose turn has come, and whose holders have gone; one that faults ends without an
owner. -/
def reloadBanks (s : State) (t : Nat) : State :=
  let T := teamOf s t
  let core := teamCore T
  T.reload.foldl (fun s b =>
    let B := tget ({} : FnBank) (coreOf s core).banks b.1
    match B.loader with
    | l :: _ =>
      if l.path = reloadPath T.ctx b.1 ∧ l.holders.isEmpty then
        match spanRead s (whoOf T {} 0 true) b.2 bankBytes with
        | .ok r => endReload (setBank r.1 core b.1 T.ctx b.2 r.2) T.ctx core b.1
        | .fail k _ => endReload (modBank (detectSpans s T.ctx k (cutPages b.2 2 bankBytes)) core b.1 fun B => { B with owned := false }) T.ctx core b.1
        | .hold => s
      else s
    | [] => s) s

/-! ### Diversion entries (16 R386) -/

/-- Whether a team has operations out that were issued before its last suspension. -/
def oldOps (T : Team) : Bool :=
  let old := fun (id : Nat) => decide (id < T.mark)
  (T.copies.any fun c => c.slices.any fun x => old x.id) || (T.csums.any fun c => old c.id) || (T.mops.any fun m => old m.id)
    || (T.marches.any fun m => old m.id) || (T.jobs.any fun j => old j.id) || T.groups.any fun G => G.2.pend.any fun o => old o.id

/-- Whether an entry must stay (16 R386): discard and forwarding while an operation of the team can still write through them,
a restored range while one issued before the suspension can, every other until its copy ends. -/
def divLive (s : State) (core : Nat) (d : Div) : Bool :=
  match tfind s.teams d.team with
  | none => false
  | some T =>
    if d.state = 3 then opsOut T
    else if d.state = 4 ∨ teamCore T ≠ core then oldOps T
    else if d.state = 2 then unitsLeft d || oldOps T
    else true

/-- The entries that have served are freed. -/
def freeDivs (s : State) : State :=
  { s with cores := tmap s.cores fun c K =>
      if K.divs.isEmpty then K else { K with divs := K.divs.filter fun d => divLive s c d.2 } }

/-- Whether the writes of a team that is away must wait (16 R386): an entry's hold queue is full, or a page of its image
migrates. -/
def divBlocked (s : State) (t : Nat) (T : Team) : Bool :=
  let full := (coreOf s (teamCore T)).divs.any fun d => d.2.team == t && decide (16 ≤ d.2.held.length)
  let moves := match imageVa T with
    | none => false
    | some va => (List.range ((imgEnd T + 2 ^ 15 - 1) / 2 ^ 15 + 1)).any fun i => translate s T.ctx (asks s ioDie) (va + 2 ^ 15 * i) .wr none == .hold
  full || moves

/-! ### Accounting (01 R17, R19) -/

/-- What the teams of a context in place are charged for a tick: group slots, units of 32 rows, landing granules. A team
whose landing block moves is charged for one block (DESIGN CHOICE, log entry 62). -/
def chargeOf (s : State) (c : Nat) : Nat × Nat × Nat :=
  (teamsOf s c).foldl (fun r e =>
    if inPlace e.2 then
      (r.1 + e.2.groups.length, r.2.1 + e.2.groups.foldl (fun n G => n + G.2.blk / 32) 0, r.2.2 + landBlock e.2.lsz)
    else r) (0, 0, 0)

/-- One tick charged to every context; the ticks of a suspension request are counted for the mask limit (16 R381). -/
def chargeAll (s : State) (frozen : Bool) : State :=
  { s with ctxs := tmap s.ctxs fun c C =>
      let x := chargeOf s c
      let mask := if C.sstate = 1 ∧ frozen = false ∧ ctxStopped s c = false then C.maskTicks + 1 else C.maskTicks
      { C with gticks := C.gticks + x.1, rbticks := C.rbticks + x.2.1, lgticks := C.lgticks + x.2.2, maskTicks := mask } }

/-! ### The tick -/

/-- A tick in which the module is frozen for debug: GT runs, and the context is charged (18 R418, R419). -/
def frozenTick (s : State) : State :=
  chargeAll { s with gt := s.gt + 1 } true

/-- The barriers whose waits are to be tested again, on a core that runs again (10 R240). -/
def retestTeam (s : State) (t : Nat) : State := (teamOf s t).retest.foldl (fun s b => testBar s t b) s

/-- Cores whose trap firmware has served run again (16 R371). -/
def thawCores (s : State) : State :=
  s.cores.foldl (fun s e => if e.2.thaw then unfreeze s e.1 else s) s

/-- What waits behind a migration, tried again: entries of fault logs, writes to save areas, replays (08 R197). -/
def drainAll (s : State) : State :=
  retryCores (s.ctxs.foldl (fun s c =>
    let s1 := if c.2.logWait.isEmpty then s else drainLog s c.1
    if c.2.saveWait.isEmpty then s1 else drainSave s1 c.1) s)

/-- One tick of a team's moves, restore and reloads, in a module whose groups were as in `before` a tick ago. -/
def tickTeamState (before s : State) (t : Nat) (T : Team) : State :=
  let s1 := endPauses before (if T.moving.isSome then tickMove s t else s) t
  let s2 := restoreStep s1 t
  let s3 := if T.reload.isEmpty || !inPlace T then s2 else reloadBanks s2 t
  if T.retest.isEmpty then s3 else retestTeam s3 t

/-- A tick in which the module runs. -/
def runningTick (s : State) : State :=
  let s0 := drainAll (thawCores s)
  let s1 := { s0 with gt := s0.gt + 1, ran := s0.ran + 1 }
  let s2 := { s1 with teams := tmap s1.teams fun _ T => tickTeam s1 T }
  let s3 := s2.teams.foldl (fun s e => tickTeamState s0 s e.1 e.2) s2
  let s4 := if s3.queues.isEmpty then s3 else (List.range 8).foldl noteBlocked s3
  chargeAll (freeDivs s4) false

/-- In the tick of a freeze the module is gated before anything else happens (18 R418). -/
def freezeNext (s : State) : State :=
  match freezeAt s.freeze with
  | some (t, _) => if t ≤ s.gt then { s with agenda := .event .moduleFreeze :: s.agenda } else s
  | none => s

/-- One tick. -/
def tickAll (s : State) : State := if s.freeze.frozen then frozenTick s else freezeNext (noteLoads (runningTick s))

end Sys2Proof.Machine
end

