-- ==== Sys2Proof/Machine/Sched.lean ====
section
/-! DEFINITION. What an issue leaves behind besides the instruction's own effect (04 R89, R90, 10 R240, 18
R411, R412, R417), the choice of the group and path that issue (04 R89, R90), and the order of internal events. -/

namespace Sys2Proof.Machine

/-! ### Slots -/

/-- The core under which a team's issues are counted; a control core has a number of its own. -/
def issueCore (T : Team) : Nat := if T.ctl then 2560 + T.die else teamCore T

/-- Whether a slot has issued in this tick (04 R89). -/
def slotUsed (s : State) (T : Team) (G : Group) : Bool := tget 0 (coreOf s (issueCore T)).issued G.slot == s.ran + 1

/-- Whether a path may issue now: a path whose bank is being loaded for others does not (06 R163). -/
def canIssue (s : State) (t g p : Nat) : Bool :=
  match tfind s.teams t with
  | none => false
  | some T => match tfind T.groups g with
    | none => false
    | some G => groupReady s T G && !slotUsed s T G && pathReady G p && !bankStall s T t g p (tget {} G.paths p).gm

/-! ### What an issue leaves behind -/

/-- Whether the issue of a path's instruction took place: its word retired, its path moved on, or a trap was taken. -/
def hasIssued (s s1 : State) (t g p : Nat) : Bool :=
  s1.free != s.free || (pathOf s1 t g p) != (pathOf s t g p)
    || ((coreOf s1 (teamCore (teamOf s t))).frozen && !(coreOf s (teamCore (teamOf s t))).frozen)

/-- What an instruction does. -/
abbrev Run := Instr → State → Host.Outcome State Fault Refusal

/-- Fetches, decodes and runs the next instruction of a path, by `run`; a word that is no instruction traps. -/
def rawIssue (run : Run) (s : State) (t g p : Nat) : Host.Outcome State Fault Refusal :=
  let s1 := { s with cur := some (t, g, p) }
  let P := pathOf s t g p
  match fetchWord s t g p with
  | .error k => .next (trapHere (fetchSeen s1 (teamOf s t) k P.pc) t g p k P.mask P.pc 0 0)
  | .ok w => match decode (BitVec.ofNat 32 w) with
    | .error _ => .next (trapHere s1 t g p .illegalInstruction P.mask 0 0 w)
    | .ok i => run i s1

/-- The core of a path as its slot finds it: where it froze in this tick, the slot still issues (16 R371). -/
def openCore (s : State) (T : Team) : State :=
  if T.ctl || coreStopped s T then s else modCore s (teamCore T) fun K => { K with frozen := false }

/-- The trap of a core that froze before an instruction of another slot of its tick. -/
def closeCore (s s1 : State) (T : Team) : State :=
  let K := coreOf s (teamCore T)
  if T.ctl || !K.frozen then s1
  else modCore s1 (teamCore T) fun J => { J with frozen := true, thaw := K.thaw, trap := K.trap, trapAt := K.trapAt, replay := K.replay }

/-- Whether a path is ready (04 R89): its next word would issue now. A path whose word stalls on a resource of 01 R16, on the
load of its bank or on a page that migrates counts as not ready, for GA and AGE too (DESIGN CHOICE, log entry 86). -/
def wouldIssue (run : Run) (s : State) (t g p : Nat) : Bool :=
  pathReady (groupOf s t g) p && !bankStall s (teamOf s t) t g p (pathOf s t g p).gm && (match rawIssue run s t g p with
    | .next s1 => hasIssued s s1 t g p
    | _ => false)

/-- Path ages at an issue of their group (04 R90, R95), whose paths were `G0` before it: the chosen one's is 0, those of the
others that were ready or parked rise; a path that a merge or a split formed has its own. -/
def agePaths (G0 G : Group) (ready : Nat → Bool) (p : Nat) : Group :=
  let n := G.issues + 1
  { G with issues := n, paths := tmap G.paths fun k P =>
      let P0 := tget ({} : Path) G0.paths k
      if k = p then { P with age := 0 }
      else if P.valid && P0.valid && P.origin == P0.origin && (P0.state == 1 || ready k) && decide (P.age < 255) then
        { P with age := P.age + 1, ageAt := if P.age = 254 then n else P.ageAt }
      else P }

/-- Group ages of a slot at an issue (04 R89), in a state before it: the chosen group's is 0, those of the others that were
ready rise. -/
def ageGroups (run : Run) (s s1 : State) (t g : Nat) : State :=
  let T0 := teamOf s t
  let slot := (groupOf s t g).slot
  let rise := fun (G : Group) =>
    if 254 ≤ G.ga then { G with ga := 255, gaAt := if G.ga = 255 then G.gaAt else s1.gt } else { G with ga := G.ga + 1 }
  { s1 with teams := tmap s1.teams fun k T =>
      if issueCore T != issueCore T0 || T.away != .present then T
      else { T with groups := tmap T.groups fun j G =>
        if G.slot != slot then G
        else if k = t ∧ j = g then { G with ga := 0 }
        else if groupReady s (teamOf s k) (groupOf s k j) && (List.range 8).any (wouldIssue run s k j) then rise G else G } }

/-- The lanes of an issue by class (18 R411): active, masked by divergence, predicated off, absent. -/
def laneUnits (G : Group) (P : Path) : Nat × Nat × Nat × Nat :=
  let n := fun (m : Mask) => (lanesOf m).length
  let here := G.present &&& ~~~G.exited
  let act := n (activeOf G P)
  let inMask := n (here &&& P.mask)
  let all := n here
  (act, all - inMask, inMask - act, 96 - all)

/-- The lane units charged to the lowest bin that meets the issue (18 R412), and the slot counted as used (18 R413). -/
def chargeBins (s : State) (T : Team) (G : Group) (P : Path) (K : Core) : Core :=
  let K1 := { K with issued := tput K.issued G.slot (s.ran + 1) }
  if K.chold then K1
  else
    let K2 := { K1 with used := tput K1.used G.slot (tget 0 K1.used G.slot + 1) }
    match K2.bins.find? fun b => b.2.en && decide (b.2.lo ≤ P.pc) && decide (P.pc < b.2.hi) && (b.2.allctx || b.2.ctx == T.ctx) with
    | none => K2
    | some (n, B) =>
      let u := laneUnits G P
      let B' : Bin := { B with act := B.act + u.1, div := B.div + u.2.1, prd := B.prd + u.2.2.1, abs := B.abs + u.2.2.2, iss := B.iss + 1 }
      { K2 with bins := tput K2.bins n B' }

/-- The hits of instruction comparators at an issue of a context's path (18 R417, R418). -/
def compareIssue (s : State) (T : Team) (G : Group) (pc : Nat) : State :=
  ((dieOf s T.die).icmp.filter fun k => !T.ctl && k.2.en && k.2.addr == pc && (k.2.all || k.2.ctx == T.ctx)).foldl (fun s k =>
    recordHit s { tick := s.gt, source := 1, num := k.1, die := T.die, loc := locOf T G, pc := pc, ctx := T.ctx }) s

/-- Whether a group ended or one of its paths became invalid. -/
def pathsLost (G0 G1 : Group) : Bool :=
  (G1.ended && !G0.ended) || G0.paths.any fun e => e.2.valid && !(tget ({} : Path) G1.paths e.1).valid

/-- The state after an issue of a path, from the states before and after its instruction. -/
def afterIssue (run : Run) (s : State) (t g p : Nat) (s1 : State) : State :=
  let T := teamOf s t
  let G := groupOf s t g
  let P := pathOf s t g p
  let s0 := openCore s T
  let s2 := compareIssue (modCore (noteFetch s s1 T P.pc) (issueCore T) fun K => chargeBins s T G P K) T G P.pc
  let s3 := ageGroups run s0 (modGroup s2 t g fun H => agePaths G H (wouldIssue run s0 t g) p) t g
  if pathsLost G (groupOf s3 t g) then testBars (stampCopies s3 t) t else s3

/-- The issue of a path with what it leaves behind, and whether its slot has had its pick. Where the core froze earlier in
this tick an instruction that traps is not performed (16 R371): the slot's ages stay, as they do in the ticks in which the core
is frozen (DESIGN CHOICE, log entry 86). -/
def tryIssueOne (run : Run) (s : State) (t g p : Nat) : Host.Outcome State Fault Refusal × Bool :=
  let T := teamOf s t
  let s0 := openCore s T
  match rawIssue run s0 t g p with
  | .next s1 =>
    if !hasIssued s0 s1 t g p then (.next (closeCore s s1 T), false)
    else if teamFrozen s T && teamFrozen s1 T then (.next s, true)
    else (.next (afterIssue run s t g p (closeCore s s1 T)), true)
  | o => (o, true)

/-- The issue of a path, if it may. -/
def issueAt (run : Run) (s : State) (t g p : Nat) : Host.Outcome State Fault Refusal :=
  if canIssue s t g p then (tryIssueOne run s t g p).1 else .next s

/-! ### The choice of a slot (04 R89, R90) -/

/-- A group that may issue: its key in the order of 04 R89, its team, its number. -/
structure Pick where
  key : List Nat
  t : Nat
  g : Nat

/-- A lexicographic order of keys of one length. -/
def listLt : List Nat → List Nat → Bool
  | [], _ => false
  | _, [] => false
  | a :: as, b :: bs => decide (a < b) || (a == b && listLt as bs)

def insertBy {α : Type} (lt : α → α → Bool) (x : α) : List α → List α
  | [] => [x]
  | y :: ys => if lt x y then x :: y :: ys else y :: insertBy lt x ys

/-- The order of a group: those of age 255 by the tick they reached it, then by priority and age, then by group slot. -/
def groupKey (T : Team) (G : Group) : List Nat :=
  if G.ga = 255 then [0, G.gaAt, 0, G.gslot] else [1, 3 - T.prio, 255 - G.ga, G.gslot]

/-- The groups of a slot that are ready, in order. -/
def slotGroups (s : State) (core k : Nat) : List Pick :=
  (s.teams.flatMap fun e =>
    if issueCore e.2 != core then []
    else e.2.groups.filterMap fun G =>
      if G.2.slot == k && groupReady s e.2 G.2 && !slotUsed s e.2 G.2 then some { key := groupKey e.2 G.2, t := e.1, g := G.1 } else none).foldl
    (fun l x => insertBy (fun (a b : Pick) => listLt a.key b.key) x l) []

/-- The ready paths of a group, in the order of 04 R90. -/
def pathOrder (G : Group) : List Nat :=
  (((List.range 8).filter (pathReady G)).map fun p =>
    let P := tget ({} : Path) G.paths p
    (if P.age = 255 then [0, P.ageAt, p] else [1, P.pc, p], p)).foldl
    (fun l x => insertBy (fun (a b : List Nat × Nat) => listLt a.1 b.1) x l) [] |>.map (·.2)

/-- The first of some paths that is ready issues: one whose word must wait changes nothing. -/
def tryIssue (run : Run) (s : State) : List (Nat × Nat × Nat) → Host.Outcome State Fault Refusal
  | [] => .next s
  | (t, g, p) :: rest =>
    if !canIssue s t g p then tryIssue run s rest
    else match tryIssueOne run s t g p with
      | (.next s1, false) => tryIssue run s1 rest
      | (o, _) => o

/-- Whether a path of a group waits at issue for the copy of a landing granule: it would issue, were the block not moving
(07 R177). -/
def atFence (run : Run) (s : State) (t g : Nat) : Bool :=
  let s1 := modTeam s t fun T => { T with moving := none }
  (List.range 8).any fun p => !wouldIssue run s t g p && wouldIssue run s1 t g p

/-- The groups of a slot that wait at a fence, noted: their counts stop. -/
def noteFences (run : Run) (s : State) (core k : Nat) : State :=
  s.teams.foldl (fun r e =>
    if issueCore e.2 != core || e.2.moving.isNone then r
    else e.2.groups.foldl (fun r G => if G.2.slot != k then r else
      modGroup r e.1 G.1 fun H => { H with fenceWait := atFence run s e.1 G.1 }) r) s

/-- One tick of a slot; one that is withheld for the power limit issues nothing (19 R435). -/
def issueSlot (run : Run) (s : State) (core k : Nat) : Host.Outcome State Fault Refusal :=
  if Config.withheld s.sup.power s.free core k then .next s
  else
    let s1 := noteFences run s core k
    tryIssue run s1 ((slotGroups s1 core k).flatMap fun x => (pathOrder (groupOf s1 x.t x.g)).map fun p => (x.t, x.g, p))

/-- The slots that hold a group in place, as core and slot, ascending: the first trap of a core in a tick is that of its
lowest slot (16 R371). -/
def slotsInUse (s : State) : List (Nat × Nat) :=
  let before := fun (a b : Nat × Nat) => decide (a.1 < b.1) || (a.1 == b.1 && decide (a.2 < b.2))
  s.teams.foldl (fun l e =>
    if e.2.away != .present then l
    else e.2.groups.foldl (fun l G =>
      let x := (issueCore e.2, G.2.slot)
      if G.2.ended || l.contains x then l else insertBy before x l) l) []

/-! ### Internal events -/

/-- What an internal event does. -/
abbrev Act := State → Host.Outcome State Fault Refusal

/-- The events that a group may meet. -/
def groupEvents (t g : Nat) (G : Group) : List Act :=
  (if G.asyncs.isEmpty then [] else [execAsyncTrap t g])
    ++ (G.pend.map fun o => match o.work with
        | .qfence _ (some _) => execQfenceArrive t g o.id
        | .tblload _ _ => execTblloadComplete t g o.id
        | .cqpop _ => if o.performed then execPendingResultComplete t g o.id else execCqpopTake t g o.id
        | _ => execPendingResultComplete t g o.id)
    ++ ((validPaths G).flatMap fun e => match e.2.wait with
        | .none => if e.2.state == 3 then [execSleepWake t g e.1] else if e.2.state == 1 then [execJoinAgeEscape t g e.1] else []
        | .bwait _ _ => [execBwaitComplete t g e.1, execWaitTimeout t g e.1]
        | .yield _ _ _ => [execYieldResume t g e.1, execWaitTimeout t g e.1]
        | .barv _ _ _ _ _ => [execBarvHeldRelease t g e.1, execWaitTimeout t g e.1]
        | .addr _ _ _ _ _ _ _ => [execWaitaddrReread t g e.1, execWaitTimeout t g e.1]
        | .tiles _ _ _ => [execMwaitComplete t g e.1, execWaitTimeout t g e.1]
        | .vote _ _ _ _ => [execVoteComplete t g e.1, execWaitTimeout t g e.1]
        | .shfl _ _ _ _ _ => [execShuffleComplete t g e.1, execWaitTimeout t g e.1])
    ++ (if (lowestParked G).isSome then [execJoinRelease t g] else [])
    ++ [execHangDetector t g]

/-- The events of an operation of the MARCH queue. -/
def marchEvents (t : Nat) (m : MarchOp) : List Act :=
  match m.kind with
  | .batch _ _ _ | .feval _ _ =>
    (m.rays.flatMap fun r => if r.phase == .ended then [] else if r.ticket.isSome then
      [execCqRequestAppend t m.id r.lane, execCqRequestTimeout t m.id r.lane] else [execMarchRayStep t m.id r.lane])
      ++ (if m.rays.isEmpty && !m.started then [execMarchRayStep t m.id 0] else [])
      ++ [execMarchBatchArrive t m.id, execFevalComplete t m.id]
  | .buck _ _ _ _ => [execBuckPerform t m.id]
  | .fbind _ _ _ _ _ => [execFbindPerform t m.id]

/-- The events of a team. -/
def teamEvents (t : Nat) (T : Team) : List Act :=
  (T.groups.flatMap fun G => groupEvents t G.1 G.2)
    ++ (T.copies.flatMap fun c =>
      if c.started then (match c.todo with
        | x :: _ => [execCopyChunkLand t c.id x.1 x.2, execCopyFault t c.id x.1 x.2]
        | [] => []) ++ [execCopyCollectiveArrive t c.id]
      else [execCopyCollectiveStart t c.id])
    ++ (T.csums.map fun c => execCsumComplete t c.id)
    ++ (T.groups.map fun G => execTileOpGrant t G.1)
    ++ (T.mops.flatMap fun m => if m.done then [execPassComplete t m.id] else if m.granted then [execEmulatedPassComplete t m.id] else [])
    ++ (T.marches.flatMap (marchEvents t))
    ++ (T.jobs.map fun j => if j.running then execMergeJobEnd t j.id else execMergeJobStart t j.id)
    ++ [execPipeDepthUpdate t, execTeamExit t]

/-- The events of a queue. -/
def queueEvents (s : State) (q : Nat) (Q : Queue) : List Act :=
  (if Q.notified || decide (Q.seen + 2 ^ 20 ≤ s.gt) then [execQueueExamine q] else [])
    ++ Q.pkts.flatMap fun p =>
      if p.2.fin.isSome then [execPacketComplete q p.1]
      else if p.2.begun then [execBarrierAndComplete q p.1]
      else match pktType p.2.raw with
        | 1 => [execLaunch q p.1]
        | 2 => [execBarrierAnd q p.1]
        | 3 => [execSignal q p.1]
        | 4 => [execRaster q p.1]
        | _ => [execMarker q p.1]

/-- The clusters whose engines have operations. -/
def busyClusters (s : State) : List Nat :=
  s.teams.foldl (fun l e =>
    (e.2.mops.map (·.cluster) ++ (e.2.marches.filter fun m => !m.nets.isEmpty).map netCluster).foldl (fun l c =>
      if l.contains c then l else l ++ [c]) l) []

/-- The next move of the compactor's plan on a die. -/
def compactMoves (s : State) (die : Nat) : List Act :=
  if (dieOf s die).compact.isNone then []
  else match nextMove s die with
    | some m => [execCompactorMove m.1 m.2]
    | none => []

/-- The events of a die. -/
def dieEvents (s : State) (die : Nat) : List Act :=
  (if (candidates s die).isEmpty then [] else [execTeamPlace die [], execCompactorRun die]) ++ compactMoves s die ++ [execHotnessEpoch die]

/-- The events of contexts, page moves and command interfaces. -/
def ctxEvents (s : State) : List Act :=
  (s.ctxs.flatMap fun c => (if c.2.idone then [] else [execInvalidationComplete c.1]) ++
    (if c.2.sstate = 1 then [execMaskOverrun c.1, execSuspend c.1] else if c.2.prepol = 0 then [] else [execPriorityPreempt c.1]))
    ++ (s.moves.map fun m => execPageMigration m.ctx (m.first * 2 ^ 15) m.new)
    ++ s.cmds.flatMap fun p => match p.2.run with
      | some (1, _, _) => [execCreateContext p.1]
      | some (2, _, _) => [execDestroyContext p.1]
      | some (3, _, _) => [execCreateQueue p.1]
      | some (4, _, _) => [execDestroyQueue p.1]
      | some (5, _, _) => [execReloadQueue p.1]
      | some _ => [execUnknownCommand p.1]
      | none => []

/-- Every event that the module itself may make now, in a fixed order. -/
def internalEvents (s : State) : List Act :=
  (if (freezeAt s.freeze).isSome then [execModuleFreeze] else [])
    ++ (s.teams.flatMap fun e => if divBlocked s e.1 e.2 then [] else teamEvents e.1 e.2)
    ++ (busyClusters s).flatMap (fun c => [execPassGrant c, execMdeltaGrant c])
    ++ (s.queues.flatMap fun e => queueEvents s e.1 e.2)
    ++ ((List.range 8).flatMap (dieEvents s))
    ++ ctxEvents s

/-- The first of some events that changes the state; none where none does. -/
def firstEvent (s : State) : List Act → Option State
  | [] => none
  | act :: rest => match act s with
    | .next s1 => if s1 = s then firstEvent s rest else some s1
    | _ => firstEvent s rest

/-- Whether an event is of the management port, the supervisor or a reset: the others wait in a frozen module
(18 R418). -/
def mgmtEvent : Instr → Bool
  | .getVersion | .getCapabilities | .negotiateAlgorithms _ | .getDigests | .getCertificate _ _ | .challenge _
  | .getMeasurements _ _ _ | .getVendorDefinedMessageSupport | .firmwareUpdate _ _ _ _ | .setPowerLimit _ | .ageingReport
  | .setInstructionComparator .. | .setDataComparator .. | .armFreezeTick _ _ | .freezeStatus _ | .scanRead _ _ _
  | .scanWrite _ _ _ | .moduleResume _ | .startCapture _ _ _ _ | .stopCapture _ _ | .captureStatus _ _
  | .startReplay _ _ _ _ | .replayStatus _ _ | .moduleFreeze | .coldReset | .dieReset _ _ | .ioDieReset _ | .linkReset _
  | .voltageReplan .. | .domainJoin _ => true
  | _ => false

/-- The default order: while the module is frozen a tick; else the first event that changes something; else a tick, and
the turn of every slot. -/
def idleStep (s : State) : State :=
  if s.freeze.frozen then tickAll s
  else match firstEvent s (internalEvents s) with
    | some s1 => s1
    | none =>
      let s1 := tickAll s
      { s1 with agenda := s1.agenda ++ (slotsInUse s1).map fun x => .slot x.1 x.2 }

end Sys2Proof.Machine
end

