-- ==== Sys2Proof/Machine/Step.lean ====
section
/-! DEFINITION. One step of the module. -/

namespace Sys2Proof.Machine

/-- The state in which a step does an item of the agenda: the rest stands there, and the free values are numbered anew. -/
def taken (s : State) (rest : List Item) : State := { s with agenda := rest, free := s.free + 1 }

/-- Whether an item of the agenda may come now: in a frozen module only ticks and what the management port asks for; the
others wait (18 R418). -/
def mayCome (s : State) : Item → Bool
  | .event i => !s.freeze.frozen || mgmtEvent i
  | .tick => true
  | .issue _ _ _ | .perform _ _ _ | .slot _ _ => !s.freeze.frozen

/-- The first item of an agenda that may come, with the others in their order. -/
def firstItem (p : Item → Bool) : List Item → Option (Item × List Item)
  | [] => none
  | x :: xs => if p x then some (x, xs) else (firstItem p xs).map fun r => (r.1, x :: r.2)

/-- One step: the first item of the agenda that may come, or the default order where there is none. -/
def step (s : State) : Host.Outcome State Fault Refusal :=
  match firstItem (mayCome s) s.agenda with
  | none => .next (idleStep { s with free := s.free + 1 })
  | some (.event i, rest) => exec i (taken s rest)
  | some (.issue t g p, rest) => issueAt exec (taken s rest) t g p
  | some (.perform t g id, rest) => .next (tryPerform (taken s rest) t g id)
  | some (.slot core k, rest) => issueSlot exec (taken s rest) core k
  | some (.tick, rest) => .next (tickAll (taken s rest))

/-- Where the code of `withFetchWord` lies, in virtual and physical memory. -/
def State.fetchPlace : Nat := 0x8000

/-- The state with an instruction where the next step fetches it: a page table that maps one executable page, a
context, a team of one group with one present lane at that page, and the group's turn to issue (log entry 11). -/
def State.withFetchWord (s : State) (nbits w : Nat) : State :=
  let code := (bytesOfWord (BitVec.ofNat 32 (w % 2 ^ nbits))).zip (List.range 4)
  let put := fun (m : Table Byte) (e : Nat × List Byte) => writeBytes m e.1 e.2
  let m := [(0x100000, leBytes (0x108000 + 1) 8), (0x108000, leBytes (0x110000 + 1) 8),
            (0x110000, leBytes (0x118000 + 1) 8),
            (0x118000 + 8, leBytes (0x8000 + 0x1F) 8)].foldl put s.mem
  let m := code.foldl (fun m e => tset emptyByte m (State.fetchPlace + e.2) e.1) m
  let P : Path := { valid := true, pc := State.fetchPlace, mask := 1, origin := 1, fs := 32 }
  let G : Group := { present := 1, paths := [(0, P)], icode := m }
  let T : Team := { groups := [(0, G)], cb := State.fetchPlace, consumer := { entry := 0, groups := 1, lanes := 1, q := 32 } }
  { s with mem := m, ctxs := tput s.ctxs 0 { root := 0x100000, ptAt := pastNow s }, teams := tput s.teams 0 T,
           cores := tdel s.cores 0, freeze := { s.freeze with frozen := false }, agenda := [.issue 0 0 0] }

end Sys2Proof.Machine
end

