-- ==== Sys2Proof/Safety.lean ====
section
/-! DEFINITION. What counts as a safe run, and the terms in which statements speak of a step: when a word issues, what it
leaves unchanged. -/

namespace Sys2Proof.Safety
open Machine

/-! ### Runs -/

/-- The step at `s` answers a next state: it neither faults nor refuses. -/
def Proceeds (s : State) : Prop := ∃ t, step s = .next t

/-- `P` is kept by every step that answers a next state, from every state, reached or not. -/
def KeptByStep (P : State → Prop) : Prop := ∀ s t, P s → step s = .next t → P t

/-- Memory is in its canonical form. -/
def MemOk (s : State) : Prop := Memory.wf s.mem = true

/-! ### When a word issues -/

/-- Group `g` of team `t` is listed. -/
def Listed (s : State) (t g : Nat) : Prop := ∃ T G, tfind s.teams t = some T ∧ tfind T.groups g = some G

/-- Path p of group g of team t issues the word i now: it is valid, its register window is resident, no window of a
result has used up its count (with `all`, none is open), its function-table bank is not being loaded, and on a control
core the word is one that a control core runs (02 R37, R41, 05 R120, 06 R163, 16 R376). -/
structure Issues (i : Instr) (s : State) (t g p : Nat) (all : Bool) : Prop where
  cur : s.cur = some (t, g, p)
  listed : Listed s t g
  valid : (pathOf s t g p).valid = true
  resident : newBase (groupOf s t g) (pathOf s t g p) = (groupOf s t g).rb
  windows : windowStall (groupOf s t g) p all = false
  bank : bankStall s (teamOf s t) t g p (pathOf s t g p).gm = false
  control : ((teamOf s t).ctl && ctlIllegal ((encode i).getD 0 / 2 ^ 24)) = false

/-- The operands of a word pass the checks of 02 R23, R26, R28 and R30, lie in the path's frame (05 R119) and hold no
uncorrectable data (08 R206); where one is the drain port, a column is there and no earlier word holds another (11 R282). -/
structure Operands (s : State) (t g p : Nat) (us : List Use) : Prop where
  uses : usesBad us = false
  frame : frameBad (pathOf s t g p) us = false
  rows : (groupOf s t g).rowBad = []
  drain : namesDrain us = true → ((groupOf s t g).drain.armed || (groupOf s t g).drain.held) = true ∧
    drainStall (groupOf s t g) = false ∧ columnOut (groupOf s t g) = false

/-- What the word i of the path sees at its issue. -/
def view (i : Instr) (s : State) (t g p : Nat) (us : List Use) : Iss := issCtx s t g p ((encode i).getD 0) us

/-! ### What a word changes -/

/-- A register by key as the path sees it: s45 to s47 are its mask (04 R93). -/
def regNow (s : State) (t g p key : Nat) : Word :=
  if 45 ≤ key ∧ key < 128 then BitVec.ofNat 32 (maskWord (pathOf s t g p).mask (key - 45)) else regCur (groupOf s t g) key

/-- The registers, by key, that n registers of `d` are for the lanes of `m`, with what the values `f` put there: every
lane of a vector, a scalar once with the lowest lane's value (02 R28). -/
def written (P : Path) (d : Operand) (n : Nat) (m : Mask) (f : Nat → Nat) : List (Nat × Word) :=
  match d with
  | .v _ => (lanesOf m).flatMap fun l => dstVals P d n l (f l)
  | .s _ => match lowLane m with
    | none => []
    | some l => dstVals P d n l (f l)
  | _ => []

/-- What a written register holds: a part of the mask only the bits of the origin mask (02 R28, 04 R93). -/
def landed (P : Path) (key : Nat) (w : Word) : Word :=
  if 45 ≤ key ∧ key < 128 then w &&& BitVec.ofNat 32 (maskWord P.origin (key - 45)) else w

/-- An outstanding operation apart from the old values kept for it (02 R40). -/
def opCore (o : Pending) : Pending := { o with olds := [] }

/-- An outstanding operation after a word of path p, whose own operation would have number `id`, has issued: where its window is
open, on that path and opened earlier, one word fewer may issue in it, and one more has (02 R37). -/
def counted (p id : Nat) (o : Pending) : Pending :=
  if o.path = p ∧ o.id < id then
    match o.left with
    | some n => { o with left := some (n - 1), k := o.k + 1 }
    | none => o
  else o

/-- Everything that a retiring register instruction leaves alone, from s to u, but for the registers with keys in `ks`:
memory and every other piece of state of the module, other teams, other groups, other paths; of the group its predicates,
trap registers and all but its registers, the counts of the path's windows, the old values kept for them, its drain port
(only where it is named) and its stall clock; of the path all but its PC, which goes on by 4, and its mask where s45 to s47
are among `ks`. -/
structure OnlyRegs (s u : State) (t g p : Nat) (ks : List Nat) (drain : Bool) : Prop where
  module : u = { s with teams := u.teams, cores := u.cores, free := u.free }
  cores : ∀ k, coreOf u k = { coreOf s k with banks := (coreOf u k).banks }
  teams : ∀ t', t' ≠ t → tfind u.teams t' = tfind s.teams t'
  team : teamOf u t = { teamOf s t with groups := (teamOf u t).groups }
  groups : ∀ g', g' ≠ g → tfind (teamOf u t).groups g' = tfind (teamOf s t).groups g'
  group : groupOf u t g = { groupOf s t g with
    paths := (groupOf u t g).paths, rows := (groupOf u t g).rows, scal := (groupOf u t g).scal,
    pend := (groupOf u t g).pend, drain := (groupOf u t g).drain, hang := 0, hangFired := false }
  ops : (groupOf u t g).pend.map opCore = (groupOf s t g).pend.map fun o => opCore (counted p s.nextId o)
  drained : drain = false → (groupOf u t g).drain = (groupOf s t g).drain
  regs : ∀ key, key ∉ ks → regNow u t g p key = regNow s t g p key
  paths : ∀ q, q ≠ p → pathOf u t g q = pathOf s t g q
  path : pathOf u t g p = { pathOf s t g p with pc := (pathOf s t g p).pc + 4, mask := (pathOf u t g p).mask }
  mask : (∀ key ∈ ks, key < 45 ∨ 128 ≤ key) → (pathOf u t g p).mask = (pathOf s t g p).mask

/-- The word i completes at s: exec answers a state in which n registers of `d` hold the values `f` in the lanes of
`m`, and nothing else has changed but the PC, which has gone on by 4. -/
def Results (i : Instr) (s : State) (t g p : Nat) (d : Operand) (n : Nat) (m : Mask) (f : Nat → Nat) (drain : Bool) : Prop :=
  ∃ u, exec i s = .next u ∧
    (∀ e ∈ written (pathOf s t g p) d n m f, regNow u t g p e.1 = landed (pathOf s t g p) e.1 e.2) ∧
    OnlyRegs s u t g p ((written (pathOf s t g p) d n m f).map (·.1)) drain

/-- u is x once a word of path p of its group g has retired, whose own operation would have number `id`: the path's windows are
counted, the group's stall clock starts again, a function-table bank is held by no path that left it, and nothing else has
changed. -/
structure Retired (x u : State) (t g p id : Nat) : Prop where
  module : u = { x with teams := u.teams, cores := u.cores, free := u.free }
  cores : ∀ k, coreOf u k = { coreOf x k with banks := (coreOf u k).banks }
  teams : ∀ t', t' ≠ t → tfind u.teams t' = tfind x.teams t'
  team : teamOf u t = { teamOf x t with groups := (teamOf u t).groups }
  groups : ∀ g', g' ≠ g → tfind (teamOf u t).groups g' = tfind (teamOf x t).groups g'
  group : groupOf u t g = { groupOf x t g with pend := (groupOf u t g).pend, hang := 0, hangFired := false }
  ops : (groupOf u t g).pend = (groupOf x t g).pend.map (counted p id)

/-- The path goes on by one word. -/
def goOn (x : State) (t g p : Nat) : State := modPath x t g p fun P => { P with pc := P.pc + 4 }

/-- How a word ends: its path goes on by one word; the word has set the PC; the path waits at the word, which has not
retired. -/
inductive Ending
  | next | jump | wait
  deriving DecidableEq, Repr

/-- The word i completes at s with the effect x: exec answers x, with the word retired unless its path waits, and with
the path at the next word unless it jumps or waits. -/
def Completes (i : Instr) (s : State) (t g p : Nat) (us : List Use) (way : Ending) (x : State) : Prop :=
  exec i s = .next (match way with
    | .next => retire (view i s t g p us) s.nextId (goOn x t g p)
    | .jump => retire (view i s t g p us) s.nextId x
    | .wait => x)

end Sys2Proof.Safety
end

