-- ==== Sys2Proof/Certificates/Slice0/Obligations.lean ====
section
/-! DEFINITION. The statements for the provers. -/

namespace Sys2Proof.Claims
open Machine Safety

/-! ### Lane instructions -/

/-- What the spec says of a lane instruction: its destination and how many registers it has under a mode, whether d is
also a source, the sources, the accepted types, whether it consults ROUND under a mode, and the value that lane l of d
takes, from what the word sees at its issue. -/
structure LaneForm where
  d : Operand
  n : GM → Nat := fun gm => tyRegs gm.type
  dsrc : Bool := false
  srcs : List Src
  types : Ty → Bool := fun _ => true
  rounds : GM → Bool := fun _ => false
  val : Iss → Nat → Nat

/-- The operand uses of a form under a mode. -/
def LaneForm.uses (F : LaneForm) (gm : GM) : List Use :=
  { op := F.d, n := F.n gm, src := F.dsrc, dst := true } :: F.srcs.map fun x => { op := x.op, n := x.n gm }

/-- Every instruction of a table of lane forms: where it issues, its operands pass, a scalar d has no per-lane source,
its type is accepted and ROUND is not 5 where it is consulted, it completes with the form's value in the active lanes of
d, and changes nothing else but the PC (06 R141, 02 R28). -/
def LaneTable (form : Instr → Option LaneForm) : Prop :=
  ∀ (i : Instr) (F : LaneForm) (s : State) (t g p : Nat), form i = some F →
    let G := groupOf s t g
    let P := pathOf s t g p
    Issues i s t g p false → Operands s t g p (F.uses P.gm) →
    (isScalar F.d = true → ∀ x ∈ F.srcs, perLane x.op = false) → F.types P.gm.type = true →
    (F.rounds P.gm = true → P.gm.round ≠ .sto) →
    Results i s t g p F.d (F.n P.gm) (activeOf G P) (F.val (view i s t g p (F.uses P.gm))) (namesDrain (F.uses P.gm))

/-- An instruction over integers: `f` gives the exact result from a, b and the old d, which GM.SAT clamps or wraps. -/
def intForm (d a b : Operand) (dsrc : Bool) (f : Int → Int → Int → Int) : LaneForm :=
  { d := d, dsrc := dsrc, srcs := [typed a, typed b], types := tyInt,
    val := fun c l =>
      let t := c.P.gm.type
      let v := fun x => intOf t (tyElem c t x l)
      extendElem t (reduceInt t c.P.gm.sat (f (v a) (v b) (v d))) }

/-- An instruction over integers that never saturates: the result modulo 2^w. -/
def modForm (d a b : Operand) (f : Nat → Int → Int → Int) : LaneForm :=
  { d := d, srcs := [typed a, typed b], types := tyInt,
    val := fun c l =>
      let t := c.P.gm.type
      extendElem t (wrapInt (tyWidth t) (f (tyWidth t) (intOf t (tyElem c t a l)) (intOf t (tyElem c t b l)))) }

/-- A bitwise instruction. -/
def bitForm (d a b : Operand) (f : Nat → Nat → Nat → Nat) : LaneForm :=
  { d := d, srcs := [typed a, typed b], types := tyBITS,
    val := fun c l =>
      let t := c.P.gm.type
      extendElem t (f (tyWidth t) (tyElem c t a l) (tyElem c t b l) % 2 ^ tyWidth t) }

/-- A shift or rotation: b is one register and n = b[6:0]. -/
def shiftForm (d a b : Operand) (f : Nat → Nat → Nat → Nat) : LaneForm :=
  { d := d, srcs := [typed a, one b], types := tyBITS,
    val := fun c l =>
      let t := c.P.gm.type
      extendElem t (f (tyWidth t) (tyElem c t a l) (rd c b 0 l % 2 ^ 7) % 2 ^ tyWidth t) }

/-- Row 0x1 (06 R144). -/
def row1 : Instr → Option LaneForm
  | .iadd d a b => some (intForm d a b false fun x y _ => x + y)
  | .isub d a b => some (intForm d a b false fun x y _ => x - y)
  | .imul d a b => some (intForm d a b false fun x y _ => x * y)
  | .imad d a b => some (intForm d a b true fun x y z => x * y + z)
  | .imulh d a b => some (modForm d a b fun w x y => x * y / 2 ^ w)
  | .imin d a b => some (modForm d a b fun _ x y => min x y)
  | .imax d a b => some (modForm d a b fun _ x y => max x y)
  | .iabsd d a b => some (modForm d a b fun _ x y => ((x - y).natAbs : Int))
  | .and d a b => some (bitForm d a b fun _ x y => x &&& y)
  | .or d a b => some (bitForm d a b fun _ x y => x ||| y)
  | .xor d a b => some (bitForm d a b fun _ x y => x ^^^ y)
  | .andn d a b => some (bitForm d a b fun w x y => x &&& (2 ^ w - 1 - y))
  | .shl d a b => some (shiftForm d a b fun w x n => if w ≤ n then 0 else x <<< n)
  | .shr d a b => some (shiftForm d a b fun w x n => if w ≤ n then 0 else x >>> n)
  | .sar d a b => some (shiftForm d a b fun w x n => wrapInt w (sint w x / 2 ^ n))
  | .rot d a b => some (shiftForm d a b fun w x n => x <<< (n % w) ||| x >>> (w - n % w))
  | _ => none

/-- Row 0x2 (06 R145); lane values by the bit operations of the model. -/
def row2 : Instr → Option LaneForm
  | .popc d a => some
    { d := d, srcs := [typed a], types := tyBITS,
      val := fun c l => let t := c.P.gm.type;
        extendElem t (((List.range (tyWidth t)).filter fun i => (tyElem c t a l).testBit i).length) }
  | .clz d a => some
    { d := d, srcs := [typed a], types := tyBITS,
      val := fun c l => let t := c.P.gm.type; extendElem t (clzBits (tyWidth t) (tyElem c t a l)) }
  | .brev d a => some
    { d := d, srcs := [typed a], types := tyBITS,
      val := fun c l => let t := c.P.gm.type; extendElem t (revBits (tyWidth t) (tyElem c t a l)) }
  | .bfe d a b => some
    { d := d, srcs := [typed a, one b], types := fun t => tyBITS t && t != .b128,
      val := fun c l => let t := c.P.gm.type; extendElem t (bfeBits t (tyElem c t a l) (rd c b 0 l)) }
  | .bfi d a b => some
    { d := d, dsrc := true, srcs := [typed a, one b], types := fun t => tyBITS t && t != .b128,
      val := fun c l => let t := c.P.gm.type;
        extendElem t (bfiBits (tyWidth t) (tyElem c t d l) (tyElem c t a l) (rd c b 0 l)) }
  | .add64 d a b => some
    { d := d, n := fun _ => 2, srcs := [pair a, pair b],
      val := fun c l => (pairOf c a l + pairOf c b l) % 2 ^ 64 }
  | .lea64 d a b => some
    { d := d, n := fun _ => 2, srcs := [pair a, one b], types := fun t => t != .e2m1,
      val := fun c l => wrapInt 64 (pairOf c a l + sint 32 (rd c b 0 l) * (tyWidth c.P.gm.type / 8 : Nat)) }
  | .iadds d a b => some
    { d := d, srcs := [typed a, typed b], types := tyInt,
      val := fun c l => let t := c.P.gm.type;
        extendElem t (clampInt t (intOf t (tyElem c t a l) + intOf t (tyElem c t b l))) }
  | .isubs d a b => some
    { d := d, srcs := [typed a, typed b], types := tyInt,
      val := fun c l => let t := c.P.gm.type;
        extendElem t (clampInt t (intOf t (tyElem c t a l) - intOf t (tyElem c t b l))) }
  | .perm d a b => some
    { d := d, n := fun _ => 1, dsrc := true, srcs := [one a, one b],
      val := fun c l => permBits (rd c d 0 l) (rd c a 0 l) (rd c b 0 l) }
  | .mulw d a b => some
    { d := d, n := fun gm => if tyWidth gm.type = 32 then 2 else tyRegs gm.type,
      srcs := [typed a, typed b], types := fun t => tyInt t && decide (tyWidth t ≤ 32),
      val := fun c l => let t := c.P.gm.type; let u := wideTy t;
        extendElem u (wrapInt (tyWidth u) (intOf t (tyElem c t a l) * intOf t (tyElem c t b l))) }
  | _ => none

/-- A rounding instruction: `f` gives the exact value from whether ROUND is RDN and the values of a, b and the old d;
RoundTo takes it to the type under ROUND, SAT and FTZ. -/
def fltForm (d a b : Operand) (dsrc : Bool) (f : Bool → Ex → Ex → Ex → Ex) : LaneForm :=
  { d := d, dsrc := dsrc, srcs := [typed a, typed b], types := tyFlt, rounds := fun _ => true,
    val := fun c l =>
      let gm := c.P.gm
      let v := fun x => decEx gm.type (ftzIn gm.type gm.ftz (tyElem c gm.type x l))
      extendElem gm.type (roundTo gm.type gm.round gm.sat gm.ftz none (f (gm.round == .rdn) (v a) (v b) (v d))) }

/-- An instruction on the bits of a and b, subnormals flushed under FTZ. -/
def fbitForm (d : Operand) (srcs : List Operand) (f : Ty → (Operand → Nat) → Nat) : LaneForm :=
  { d := d, srcs := srcs.map typed, types := tyFlt,
    val := fun c l =>
      let gm := c.P.gm
      extendElem gm.type (f gm.type fun x => ftzIn gm.type gm.ftz (tyElem c gm.type x l)) }

/-- The two halves of a packed instruction, each rounded on its own. -/
def halfForm (d a b : Operand) (dsrc : Bool) (f : Bool → Ex → Ex → Ex → Ex) : LaneForm :=
  { d := d, dsrc := dsrc, srcs := [typed a, typed b], types := fun t => t == .f16 || t == .bf16, rounds := fun _ => true,
    val := fun c l =>
      let gm := c.P.gm
      let v := fun x h => decEx gm.type (ftzIn gm.type gm.ftz (packed gm.type (rd c x 0 l) h))
      let r := fun h => roundTo gm.type gm.round gm.sat gm.ftz none (f (gm.round == .rdn) (v a h) (v b h) (v d h))
      r 0 + 2 ^ 16 * r 1 }

/-- Row 0x3 (06 R146, R147, R150). -/
def row3 : Instr → Option LaneForm
  | .fadd d a b => some (fltForm d a b false fun r x y _ => exAdd r x y)
  | .fsub d a b => some (fltForm d a b false fun r x y _ => exSub r x y)
  | .fmul d a b => some (fltForm d a b false fun _ x y _ => exMul x y)
  | .fma d a b => some (fltForm d a b true fun r x y z => exAdd r (exMul x y) z)
  | .fnma d a b => some (fltForm d a b true fun r x y z => exSub r z (exMul x y))
  | .fmin d a b => some (fbitForm d [a, b] fun t v => minmaxBits t true (v a) (v b))
  | .fmax d a b => some (fbitForm d [a, b] fun t v => minmaxBits t false (v a) (v b))
  | .fneg d a => some (fbitForm d [a] fun t v => signBits t (v a) (!(v a).testBit (tyWidth t - 1)))
  | .fabs d a => some (fbitForm d [a] fun t v => signBits t (v a) false)
  | .fcpys d a b => some (fbitForm d [a, b] fun t v => signBits t (v a) ((v b).testBit (tyWidth t - 1)))
  | .frnd d a => some
    { d := d, srcs := [typed a], types := tyIeee, rounds := fun _ => true,
      val := fun c l => let gm := c.P.gm;
        extendElem gm.type (rndBits gm (ftzIn gm.type gm.ftz (tyElem c gm.type a l))) }
  | .fclass d a => some
    { d := d, n := fun _ => 1, srcs := [typed a], types := tyFlt,
      val := fun c l => 2 ^ classBit c.P.gm.type (tyElem c c.P.gm.type a l) }
  | .fscale d a b => some
    { d := d, srcs := [typed a, one b], types := tyFlt, rounds := fun _ => true,
      val := fun c l => let gm := c.P.gm;
        extendElem gm.type (roundTo gm.type gm.round gm.sat gm.ftz none
          (exScale (decEx gm.type (ftzIn gm.type gm.ftz (tyElem c gm.type a l))) (clampScale (sint 32 (rd c b 0 l))))) }
  | .fdot2 d a b => some
    { d := d, dsrc := true, srcs := [typed a, typed b], types := fun t => t == .f16 || t == .bf16,
      rounds := fun _ => true, val := fun c l => dotBits c.P.gm c.P.gm.type 2 (rd c a 0 l) (rd c b 0 l) (rd c d 0 l) }
  | _ => none

/-- An interval instruction: every operand a pair, GM.TYPE F32; an invalid operand gives the entire interval. -/
def ivForm (d a b : Operand) (f : Iv → Iv → Iv) : LaneForm :=
  { d := d, n := fun _ => 2, srcs := [pair a, pair b], types := fun t => t == .f32,
    val := fun c l => let x := ivElem c a l; let y := ivElem c b l;
      ivBits (if ivValid x && ivValid y then f x y else ivEntire) }

/-- Row 0x4 but for VEXPR and TBL (06 R148 to R151). -/
def row4 : Instr → Option LaneForm
  | .cvt st d a => some
    { d := d, srcs := [⟨a, fun _ => tyRegs st⟩], rounds := fun _ => true,
      val := fun c l => extendElem c.P.gm.type (cvtBits c.P.gm st (tyElem c st a l)) }
  | .cvts d a b => some
    { d := d, srcs := [one a, one b],
      types := fun t => t == .f16 || t == .bf16 || t == .k8 || t == .e4m3 || t == .e2m1,
      val := fun c l => let gm := c.P.gm;
        extendElem gm.type (roundTo gm.type gm.round gm.sat gm.ftz
          (if gm.round = .sto then some (rd c b 0 l % 2 ^ 16) else none) (decEx .f32 (ftzIn .f32 gm.ftz (rd c a 0 l)))) }
  | .pack2 d a b => some
    { d := d, srcs := [typed a, typed b],
      types := fun t => t == .f16 || t == .bf16 || t == .i16 || t == .n16 || t == .b16,
      rounds := fun _ => true,
      val := fun c l =>
        let gm := c.P.gm
        let st : Ty := if gm.type = .i16 then .i32 else if gm.type = .n16 then .n32 else if gm.type = .b16 then .b32 else .f32
        cvtBits gm st (rd c a 0 l) % 2 ^ 16 + 2 ^ 16 * (cvtBits gm st (rd c b 0 l) % 2 ^ 16) }
  | .unpk d a b => some
    { d := d, srcs := [typed a, one b], types := unpkType,
      val := fun c l => let t := c.P.gm.type;
        let e := rd c a 0 l / 2 ^ (tyWidth t * (rd c b 0 l % (32 / tyWidth t))) % 2 ^ tyWidth t
        if tyFlt t then toF32 .rne (decEx t e) else wrapInt 32 (intOf t e) }
  | .hfma2 d a b => some (halfForm d a b true fun r x y z => exAdd r (exMul x y) z)
  | .hadd2 d a b => some (halfForm d a b false fun r x y _ => exAdd r x y)
  | .hmul2 d a b => some (halfForm d a b false fun _ x y _ => exMul x y)
  | .dot4 d a b => some
    { d := d, dsrc := true, srcs := [typed a, typed b],
      types := fun t => t == .i8 || t == .n8 || t == .k8 || t == .e4m3, rounds := fun gm => tyFlt gm.type,
      val := fun c l => dot4Bits c.P.gm (rd c a 0 l) (rd c b 0 l) (rd c d 0 l) }
  | .ivadd d a b => some (ivForm d a b ivAdd)
  | .ivsub d a b => some (ivForm d a b ivSub)
  | .ivmul d a b => some (ivForm d a b ivMul)
  | .ivsqr d a => some (ivForm d a a fun x _ => ivSqr x)
  | .ivhull d a b => some (ivForm d a b ivHull)
  | _ => none

/-- An instruction on d and an immediate, over BITS of at most 64 bits. -/
def immForm (d : Operand) (f : GM → Nat → Nat) : LaneForm :=
  { d := d, dsrc := true, srcs := [], types := fun t => tyBITS t && t != .b128,
    val := fun c l => let gm := c.P.gm; extendElem gm.type (f gm (tyElem c gm.type d l)) }

/-- Row 0x6 but for ICMPI and FRAME, and MOV (05 R127 to R129). -/
def row6 : Instr → Option LaneForm
  | .lit d imm => some { d := d, n := fun _ => 1, srcs := [], val := fun _ _ => imm % 2 ^ 16 }
  | .lith d imm => some
    { d := d, n := fun _ => 1, dsrc := true, srcs := [],
      val := fun c l => rd c d 0 l % 2 ^ 16 + 2 ^ 16 * (imm % 2 ^ 16) }
  | .addi d imm => some (immForm d fun gm x => reduceInt gm.type (gm.sat && tyInt gm.type) (intOf gm.type x + sint 16 imm))
  | .andi d imm => some (immForm d fun gm x => x &&& wrapInt (tyWidth gm.type) (sint 16 imm))
  | .ori d imm => some (immForm d fun gm x => x ||| imm % 2 ^ 16 % 2 ^ tyWidth gm.type)
  | .xori d imm => some (immForm d fun gm x => x ^^^ imm % 2 ^ 16 % 2 ^ tyWidth gm.type)
  | .shli d n => some (immForm d fun gm x =>
      if tyWidth gm.type ≤ n then 0 else x <<< n % 2 ^ tyWidth gm.type)
  | .shri d n => some (immForm d fun _ x => x >>> n)
  | .sari d n => some (immForm d fun gm x => wrapInt (tyWidth gm.type) (sint (tyWidth gm.type) x / 2 ^ n))
  | .flit d imm => some
    { d := d, srcs := [], types := tyIeee, rounds := fun gm => gm.type == .f16,
      val := fun c _ => extendElem c.P.gm.type (flitBits c.P.gm imm) }
  | .mov d a => some { d := d, srcs := [typed a], val := fun c l => regsOf c a (tyRegs c.P.gm.type) l }
  | _ => none

/-- Every instruction of a table of forms with a look-ahead, where it issues and its operands pass and d is a vector or a
scalar: with no active lane it
does nothing; with one, where fewer than 16 windows of its path are open (unless look is 15) and fewer than 64 operations of
its group write registers, it completes with an outstanding operation posted that holds the form's values for d (02 R37, 06
R152). -/
def LookTable (form : Instr → Option (Nat × LaneForm)) : Prop :=
  ∀ (i : Instr) (look : Nat) (F : LaneForm) (s : State) (t g p : Nat), form i = some (look, F) →
    let G := groupOf s t g
    let P := pathOf s t g p
    let c := view i s t g p (F.uses P.gm)
    Issues i s t g p false → Operands s t g p (F.uses P.gm) →
    (isVector F.d || isScalar F.d) = true → (isScalar F.d = true → ∀ x ∈ F.srcs, perLane x.op = false) →
    F.types P.gm.type = true → (F.rounds P.gm = true → P.gm.round ≠ .sto) →
    (activeOf G P = 0 → Completes i s t g p (F.uses P.gm) .next c.s) ∧
    (activeOf G P ≠ 0 → (look ≠ 15 → (openWindows G p).length < 16) → (G.pend.filter fun o => o.regs).length < 64 →
      Completes i s t g p (F.uses P.gm) .next (postResult c c.s look F.d (F.n P.gm) (F.val c)))

/-- A unary function of row 0x7: F64 only where `wide`; ROUND only where `directed`; SAT only where `satur`. -/
def sfForm (look : Nat) (d a : Operand) (wide directed satur : Bool) (f : Ex → Ex) : Option (Nat × LaneForm) :=
  some (look,
    { d := d, srcs := [typed a], types := fun t => tyIeee t && (wide || t != .f64), rounds := fun _ => directed,
      val := fun c l => let gm := c.P.gm;
      extendElem gm.type (sfRes gm.type (if directed then gm.round else .rne) (satur && gm.sat) gm.ftz
        (f (decEx gm.type (ftzIn gm.type gm.ftz (tyElem c gm.type a l))))) })

/-- Row 0x7 (06 R152 to R154). -/
def row7 : Instr → Option (Nat × LaneForm)
  | .frcp look d a => sfForm look d a true true true exRcp
  | .frsq look d a => sfForm look d a true true false exRsqrt
  | .fsqrt look d a => sfForm look d a true true false exSqrt
  | .fexp2 look d a => sfForm look d a false false true exExp2
  | .flog2 look d a => sfForm look d a false false false exLog2
  | .fsin look d a => sfForm look d a false false false exSin
  | .fcos look d a => sfForm look d a false false false exCos
  | .ftanh look d a => sfForm look d a false false false exTanh
  | .fsigm look d a => sfForm look d a false false false exSigm
  | .fdiv look d a => some (look,
    { d := d, dsrc := true, srcs := [typed a], types := tyIeee, rounds := fun _ => true,
      val := fun c l => let gm := c.P.gm;
        let v := fun x => decEx gm.type (ftzIn gm.type gm.ftz (tyElem c gm.type x l))
        extendElem gm.type (sfRes gm.type gm.round gm.sat gm.ftz (exDiv (v d) (v a))) })
  | .idiv look d a => some (look,
    { d := d, dsrc := true, srcs := [typed a], types := tyInt,
      val := fun c l => let t := c.P.gm.type;
        let x := intOf t (tyElem c t d l)
        let y := intOf t (tyElem c t a l)
        extendElem t (if y = 0 then 2 ^ tyWidth t - 1
          else if tySigned t = true ∧ x = intLo t ∧ y = -1 then
            wrapInt (tyWidth t) (if c.P.gm.sat then intHi t else intLo t)
          else wrapInt (tyWidth t) (x.tdiv y)) })
  | .irem look d a => some (look,
    { d := d, dsrc := true, srcs := [typed a], types := tyInt,
      val := fun c l => let t := c.P.gm.type;
        let x := intOf t (tyElem c t d l)
        let y := intOf t (tyElem c t a l)
        extendElem t (if y = 0 then wrapInt (tyWidth t) x
          else if tySigned t = true ∧ x = intLo t ∧ y = -1 then 0
          else wrapInt (tyWidth t) (x - y * x.tdiv y)) })
  | _ => none

/-- GSHFL (14 R351): lane l takes word j of the eight rows at a, with j its own d. -/
def gathers : Instr → Option (Nat × LaneForm)
  | .gshfl look wrap d (.v k) => if k % 8 = 0 ∧ isVector d = true then some (look,
      { d := d, n := fun _ => 1, dsrc := true, srcs := [⟨.v k, fun _ => 8⟩],
        val := fun c l =>
          let j := if wrap then rd c d 0 l % 768 else rd c d 0 l
          if j < 768 ∧ c.G.present.getLsbD (j % 96) = true then rd c (.v k) (j / 96) (j % 96) else 0 }) else none
  | _ => none

/-! ### Words that write registers with rules of their own -/

/-- One form of such a word: its operand uses, the conditions, the destination and its registers, the lanes written and
their values. -/
structure RegForm where
  uses : Group → Path → List Use
  pre : Iss → Prop := fun _ => True
  d : Operand
  n : Group → Path → Nat := fun _ P => tyRegs P.gm.type
  mask : Iss → Mask := fun c => c.act
  val : Iss → Nat → Nat

/-- Every form of a table completes with its values in d and changes nothing else. -/
def RegTable (form : Instr → Option RegForm) : Prop :=
  ∀ (i : Instr) (F : RegForm) (s : State) (t g p : Nat), form i = some F →
    let P := pathOf s t g p
    let us := F.uses (groupOf s t g) P
    let c := view i s t g p us
    Issues i s t g p false → Operands s t g p us → F.pre c →
    Results i s t g p F.d (F.n (groupOf s t g) P) (F.mask c) (F.val c) (namesDrain us)

/-- Lane l's special register (05 R126). -/
def special (c : Iss) (idx l : Nat) : Option Nat :=
  let T := c.T
  let R := if c.G.role = 0 then T.producer else T.consumer
  let word := fun (m : Mask) (b : Nat) => m.toNat / 2 ^ (32 * b) % 2 ^ 32
  match idx with
  | 0x00 => some T.x
  | 0x01 => some T.y
  | 0x02 => some T.z
  | 0x03 => some T.grid.1
  | 0x04 => some T.grid.2.1
  | 0x05 => some T.grid.2.2
  | 0x06 => some c.g
  | 0x07 => some c.G.role
  | 0x08 => some R.groups
  | 0x09 => some R.lanes
  | 0x0A => some (96 * (if c.G.role = 0 then c.g else c.g - T.producer.groups) + l)
  | 0x0B => some c.P.fb
  | 0x0C => some c.P.fs
  | 0x0D => some c.P.ld
  | 0x0E => some T.bsz
  | 0x0F => some T.prio
  | 0x10 => some T.ctx
  | 0x11 => some (locOf T c.G)
  | 0x12 => some T.pd
  | 0x13 => some (word c.G.lfm 0)
  | 0x14 => some (word c.G.lfm 1)
  | 0x15 => some (word c.G.lfm 2)
  | 0x20 => some (tget 0 c.G.gscr 0).toNat
  | 0x21 => some (tget 0 c.G.gscr 1).toNat
  | 0x22 => some (tget 0 c.G.gscr 2).toNat
  | 0x23 => some (tget 0 c.G.gscr 3).toNat
  | _ => none

/-- The system registers of a group and its context (16 R396, R397). -/
def system (G : Group) (C : Ctx) (idx : Nat) : Option Nat :=
  let R := G.tregs
  match idx with
  | 0x00 => some R.tkind
  | 0x01 => some (R.tpc % 2 ^ 32)
  | 0x02 => some (R.tpc / 2 ^ 32 % 2 ^ 32)
  | 0x03 => some (R.toff % 2 ^ 32)
  | 0x04 => some R.tk
  | 0x05 => some (R.tflm % 2 ^ 32)
  | 0x06 => some (R.tflm / 2 ^ 32 % 2 ^ 32)
  | 0x07 => some (R.tflm / 2 ^ 64 % 2 ^ 32)
  | 0x08 => some (R.taddr % 2 ^ 32)
  | 0x09 => some (R.taddr / 2 ^ 32 % 2 ^ 32)
  | 0x0A => some R.tinfo
  | 0x0B => some R.tact.toNat
  | 0x0C => some (R.coff % 2 ^ 32)
  | 0x10 => some C.flHead
  | 0x11 => some C.flTail
  | 0x12 => some C.flLost
  | 0x13 => some (G.pm.toNat + 2 * (if C.sstate = 1 then 1 else 0))
  | 0x14 => some C.wl
  | 0x15 => some C.hl
  | 0x16 => some C.pml
  | _ => none

/-- SEL, SMOV, BCAST, SREAD, SYSR, TICK, GSCAN, VEXPR and TBL (04 R112, 05 R126, R135 to R137, 06 R155 to R161, 14 R352,
16 R396, 18 R410). -/
def moves : Instr → Option RegForm
  | .sel d a b => some {
      uses := fun _ P => [{ op := d, n := tyRegs P.gm.type, src := false, dst := true }, { op := a, n := tyRegs P.gm.type },
                          { op := b, n := tyRegs P.gm.type }],
      pre := fun _ => isScalar d = false,
      d := d, mask := fun c => c.P.mask &&& c.G.present,
      val := fun c l => regsOf c (if (guardOf c.G c.P.gm).getLsbD l then a else b) (tyRegs c.P.gm.type) l }
  | .smov d a b => some {
      uses := fun _ P => [{ op := d, n := tyRegs P.gm.type, src := false, dst := true }, { op := a, n := tyRegs P.gm.type },
                          { op := b }],
      pre := fun c => isScalar d = true ∧ isVector a = true ∧ isUniform b = true ∧ c.P.gm.type ≠ .b128,
      d := d,
      val := fun c _ =>
        let k := rd c b 0 0
        if k < 96 ∧ c.G.present.getLsbD k = true then regsOf c a (tyRegs c.P.gm.type) k else 0 }
  | .bcast d a => some {
      uses := fun _ P => [{ op := d, n := tyRegs P.gm.type, src := false, dst := true }, { op := a, n := tyRegs P.gm.type }],
      pre := fun c => isVector a = true ∧ c.P.gm.type ≠ .b128,
      d := d, val := fun c _ => regsOf c a (tyRegs c.P.gm.type) ((lowLane c.act).getD 0) }
  | .sread d idx => some {
      uses := fun _ _ => [{ op := d, src := false, dst := true }],
      pre := fun c => c.act ≠ 0 → special c idx 0 ≠ none ∧ (idx = 0x0A → isScalar d = false),
      d := d, n := fun _ _ => 1, val := fun c l => (special c idx l).getD 0 % 2 ^ 32 }
  | .sysr d idx => some {
      uses := fun _ _ => [{ op := d, src := false, dst := true }],
      pre := fun c => system c.G (ctxOf c.s c.T.ctx) idx ≠ none,
      d := d, n := fun _ _ => 1, val := fun c _ => (system c.G (ctxOf c.s c.T.ctx) idx).getD 0 % 2 ^ 32 }
  | .tick d => some {
      uses := fun _ _ => if d == .zero then [] else [{ op := d, n := 2, src := false, dst := true }],
      d := d, n := fun _ _ => 2, val := fun c _ => c.s.gt % 2 ^ 64 }
  | .gscan op d a => some {
      uses := fun _ P => [{ op := d, n := tyRegs P.gm.type, dst := true, src := false }, { op := a, n := tyRegs P.gm.type }],
      pre := fun c => isVector d = true ∧ a ≠ .drain ∧ scanBad op c.P.gm = false,
      d := d, val := fun c l => extendElem c.P.gm.type
        (scanFold op c.P.gm (((lanesOf c.act).filter fun k => k ≤ l).map fun k => tyElem c c.P.gm.type a k)) }
  | .vexpr d a b => some {
      uses := fun G P => exprUses d a b (exprMode G P b),
      pre := fun c =>
        let x := rd c b 0 0 + 2 ^ 32 * rd c b 1 0
        exprBad d a b (exprMode c.G c.P b) = false ∧ c.P.gm.type = .f32 ∧ x.testBit 3 = exprMode c.G c.P b ∧
          (c.act ≠ 0 → exprOk x = true),
      d := d, n := fun G P => if exprMode G P b then 2 else 1,
      val := fun c l =>
        let iv := exprMode c.G c.P b
        exprRun iv (exprInputs c a iv l) (exprBytes (rd c b 0 0 + 2 ^ 32 * rd c b 1 0)) }
  | .tbl d a b => some {
      uses := fun _ P => [{ op := d, n := tyRegs P.gm.type, src := false, dst := true }, { op := a, n := tyRegs P.gm.type },
                          { op := b }],
      pre := fun c =>
        let B := tget ({} : FnBank) (coreOf c.s (teamCore c.T)).banks c.P.gm.ftb.toNat
        isUniform b = true ∧ (isScalar d = true → perLane a = false) ∧ c.P.gm.type = .f32 ∧ c.P.gm.round ≠ .sto ∧
          (c.act ≠ 0 → B.owned = true ∧ B.owner = c.T.ctx),
      d := d, n := fun _ _ => 1,
      val := fun c l =>
        let B := tget ({} : FnBank) (coreOf c.s (teamCore c.T)).banks c.P.gm.ftb.toNat
        roundTo .f32 c.P.gm.round c.P.gm.sat false none
          (tableAt (c.P.gm.round == .rdn) (B.tables.getD (rd c b 0 0 % 4) {}) (ofF32 (rd c a 0 l))) }
  | _ => none

/-! ### Other words -/

/-- One form of a word: its operand uses under a mode, whether it waits for every open window of its path, how it
ends, the conditions on state and operands, and its effect, from what the word sees at its issue. -/
structure EffForm where
  uses : GM → List Use := fun _ => []
  all : Bool := false
  way : Ending := .next
  pre : Iss → Prop := fun _ => True
  eff : Iss → State

/-- Every form of a table completes: where the word issues, its operands pass and the form's conditions hold, exec
answers the form's effect with the word retired. -/
def EffTable (forms : Instr → List EffForm) : Prop :=
  ∀ (i : Instr) (F : EffForm) (s : State) (t g p : Nat), F ∈ forms i →
    let us := F.uses (pathOf s t g p).gm
    Issues i s t g p F.all → Operands s t g p us → F.pre (view i s t g p us) →
    Completes i s t g p us F.way (F.eff (view i s t g p us))

/-- A guarded word: with no active lane it does nothing; with one, under its conditions, it has its effect. `ok` holds of
its operands and its mode either way. -/
def guarded (uses : GM → List Use) (all : Bool) (ok : GM → Prop) (pre : Iss → Prop) (eff : Iss → State) : List EffForm :=
  [{ uses := uses, all := all, pre := fun c => ok c.P.gm ∧ c.act = 0, eff := fun c => c.s },
   { uses := uses, all := all, pre := fun c => ok c.P.gm ∧ c.act ≠ 0 ∧ pre c, eff := eff }]

/-- Room for a further outstanding operation of the path: 16 windows, 64 operations that write registers (02 R37, 16
R387). -/
def room (c : Iss) (look : Nat) (regs : Bool) : Prop :=
  (look ≠ 15 → (openWindows c.G c.p).length < 16) ∧ (regs = true → (c.G.pend.filter fun o => o.regs).length < 64)

/-- A form of a compare into a predicate: the active lanes take the relation (04 R110, R111). -/
def predForm (uses : GM → List Use) (pd : Nat) (types : Ty → Bool) (rel : Iss → Nat → Bool) : List EffForm :=
  [{ uses := uses, pre := fun c => types c.P.gm.type = true,
     eff := fun c => setPred c.s c.t c.g pd c.act (lanesWhere c.act (rel c)) }]

/-- FCMP, ICMP, ICMPI and PLOG (04 R110, R111, 05 R130). -/
def compares : Instr → List EffForm
  | .fcmp cc p a b => predForm (fun gm => [{ op := a, n := tyRegs gm.type }, { op := b, n := tyRegs gm.type }]) p tyFlt
      fun c l =>
        let v := fun x => decEx c.P.gm.type (ftzIn c.P.gm.type c.P.gm.ftz (tyElem c c.P.gm.type x l))
        ccFlt cc (v a) (v b)
  | .icmp cc p a b => predForm (fun gm => [{ op := a, n := tyRegs gm.type }, { op := b, n := tyRegs gm.type }]) p
      (fun t => tyBITS t && t != .b128)
      fun c l => ccInt cc c.P.gm.type (tyElem c c.P.gm.type a l) (tyElem c c.P.gm.type b l)
  | .icmpi cc p a imm => predForm (fun gm => [{ op := a, n := tyRegs gm.type }]) p (fun t => tyBITS t && t != .b128)
      fun c l => ccInt cc c.P.gm.type (tyElem c c.P.gm.type a l)
        (if tySigned c.P.gm.type then wrapInt (tyWidth c.P.gm.type) (sint 8 imm) else imm % 2 ^ 8)
  | .plog pd pa pb pc tt => predForm (fun _ => []) pd (fun _ => true)
      fun c l =>
        let b := fun n => ((predOf c.G n).getLsbD l).toNat
        tt.testBit (4 * b pa + 2 * b pb + b pc)
  | _ => []

/-- NOP, SETMODE, EXIT, SLEEP, FRAME, SWRITE and PREMASK (04 R102, R103, R107, R109, 05 R131, R138, 16 R395). -/
def controls : Instr → List EffForm
  | .nop => [{ eff := fun c => c.s }]
  | .setmode gm => [{
      pre := fun c => (tget ({} : FnBank) (coreOf c.s (teamCore c.T)).banks gm.ftb.toNat).loading = false,
      eff := fun c => modPath c.s c.t c.g c.p fun P => { P with gm := gm } }]
  | .exit => [{ all := true, eff := fun c => modGroup c.s c.t c.g fun G => exitLanes G c.p c.act }]
  | .sleep n => [{
      all := true,
      eff := fun c => modPath c.s c.t c.g c.p fun P => { P with state := 3, wake := n, age := 0 } }]
  | .frame n => [{
      all := true,
      pre := fun c => 1 ≤ n ∧ n ≤ 192 ∧ n ≤ c.G.blk ∧ (c.P.fs < n → 384 * (c.P.fb + n) + 1536 * c.P.ld ≤ c.T.bsz),
      eff := fun c => modPath c.s c.t c.g c.p fun P => { P with fs := n } }]
  | .swrite idx a =>
      guarded (fun _ => [{ op := a }]) false (fun _ => isUniform a = true) (fun _ => 0x13 ≤ idx ∧ idx ≤ 0x15)
        (fun c => modGroup c.s c.t c.g fun G =>
          { G with lfm := G.lfm &&& ~~~(BitVec.ofNat 96 (rd c a 0 0 % 2 ^ 32 * 2 ^ (32 * (idx - 0x13)))) }) ++
      guarded (fun _ => [{ op := a }]) false (fun _ => isUniform a = true) (fun _ => 0x20 ≤ idx ∧ idx ≤ 0x23)
        (fun c => modGroup c.s c.t c.g fun G =>
          { G with gscr := tset 0 G.gscr (idx - 0x20) (BitVec.ofNat 32 (rd c a 0 0)) })
  | .premask en => [{ eff := fun c => modGroup c.s c.t c.g fun G => { G with pm := en } }]
  | _ => []

/-- The byte address `off` words from a word at `pc` (02 R22). -/
def wordsFrom (pc : Nat) (off : Int) : Nat := wrapInt 64 ((pc : Int) + 4 * off)

/-- The lanes that leave a path, or stay on it, of a divided path: the lowest free entry takes them (04 R94). -/
def nextFree (c : Iss) : Nat := (freeEntries c.G).headD 0

/-- The lowest lane of a mask. -/
def lowest (m : Mask) : Nat := (lowLane m).getD 0

/-- A path that divides (04 R94, R105): the first group of lanes stays on it, the others take the free entries in order. -/
def divided (c : Iss) (s : State) (gs : List (Mask × (Path → Path))) : State :=
  modPath (((gs.drop 1).zip (freeEntries c.G)).foldl (fun s x => splitTo s c.t c.g c.p x.2 x.1.1 x.1.2) s) c.t c.g c.p
    ((gs.map fun x => x.2).headD id)

/-- A path may divide into n groups: its windows are closed and the entries suffice (04 R94, R105). -/
def mayDivide (c : Iss) (n : Nat) : Prop :=
  openWindows c.G c.p = [] ∧ 1 < n ∧ n ≤ (freeEntries c.G).length + 1

/-- A path whose groups exceed the entries: the groups after the first take the free entries in order as far as they go; the
path keeps its own PC and the lanes that found no entry (04 R105 step 5). -/
def dividedPart (c : Iss) (s : State) (gs : List (Mask × (Path → Path))) : State :=
  ((gs.drop 1).zip (freeEntries c.G)).foldl (fun s x => splitTo s c.t c.g c.p x.2 x.1.1 x.1.2) s

/-- A path of n groups finds some free entries, but not one for each (04 R105 step 5). -/
def dividesPart (c : Iss) (n : Nat) : Prop :=
  openWindows c.G c.p = [] ∧ freeEntries c.G ≠ [] ∧ (freeEntries c.G).length + 1 < n

/-- A split stalls: the path's windows are closed and no entry is free (04 R94). -/
def noneFree (c : Iss) : Prop := openWindows c.G c.p = [] ∧ freeEntries c.G = []

/-- The path in split stall, STATE 6; the word has not retired (04 R94). -/
def stalled (c : Iss) (s : State) : State := modPath s c.t c.g c.p fun P => { P with state := 6 }

/-- The address at which a lane of BRX goes on (04 R105). -/
def brxTo (c : Iss) (a : Operand) (l : Nat) : Nat :=
  if c.act.getLsbD l then (c.T.cb + rd c a 0 l) % 2 ^ 64 else c.P.pc + 4

/-- BRA, BRU, BRX and JOIN (04 R94, R95, R104 to R106). -/
def branches : Instr → List EffForm
  | .bra k off => [
      { pre := fun c => c.act &&& predOf c.G k = 0, eff := fun c => c.s },
      { way := .jump, pre := fun c => c.act &&& predOf c.G k ≠ 0 ∧ c.act &&& predOf c.G k = c.P.mask,
        eff := fun c => modPath c.s c.t c.g c.p fun P => { P with pc := wordsFrom c.P.pc off } },
      { pre := fun c => c.act &&& predOf c.G k ≠ 0 ∧ c.act &&& predOf c.G k ≠ c.P.mask ∧
          openWindows c.G c.p = [] ∧ freeEntries c.G ≠ [],
        eff := fun c => splitTo c.s c.t c.g c.p (nextFree c) (c.act &&& predOf c.G k) fun P =>
          { P with pc := wordsFrom c.P.pc off } },
      { way := .wait, pre := fun c => c.act &&& predOf c.G k ≠ 0 ∧ c.act &&& predOf c.G k ≠ c.P.mask ∧ noneFree c,
        eff := fun c => stalled c c.s }]
  | .bru k off => [
      { pre := fun c => c.act &&& predOf c.G k = 0, eff := fun c => c.s },
      { way := .jump, pre := fun c => c.act &&& predOf c.G k ≠ 0,
        eff := fun c => modPath c.s c.t c.g c.p fun P => { P with pc := wordsFrom c.P.pc off } }]
  | .brx a =>
      let uses := fun (_ : GM) => [{ op := a }]
      let ok := fun (c : Iss) => (isVector a || isScalar a) = true ∧ ∀ l ∈ lanesOf c.act, rd c a 0 l % 4 = 0
      let lanes := fun (c : Iss) => groupLanes c.P.mask (brxTo c a)
      let gs := fun (c : Iss) => (lanes c).map fun x => (x.2, fun (P : Path) => { P with pc := x.1 })
      [{ uses := uses, pre := fun c => ok c ∧ c.P.mask = 0, eff := fun c => c.s },
       { uses := uses, way := .jump,
         pre := fun c => ok c ∧ c.P.mask ≠ 0 ∧ ∀ l ∈ lanesOf c.P.mask, brxTo c a l = brxTo c a (lowest c.P.mask),
         eff := fun c => modPath c.s c.t c.g c.p fun P => { P with pc := brxTo c a (lowest c.P.mask) } },
       { uses := uses, way := .jump, pre := fun c => ok c ∧ mayDivide c (lanes c).length,
         eff := fun c => divided c c.s (gs c) },
       { uses := uses, way := .jump, pre := fun c => ok c ∧ dividesPart c (lanes c).length,
         eff := fun c => dividedPart c c.s (gs c) },
       { uses := uses, way := .wait, pre := fun c => ok c ∧ 1 < (lanes c).length ∧ noneFree c,
         eff := fun c => stalled c c.s }]
  | .join => [{
      all := true, way := .jump,
      eff := fun c => mergeParked (modPath c.s c.t c.g c.p fun P => { P with state := 1 }) c.t c.g c.P.pc }]
  | _ => []

/-- The keys of the call entries of the active lanes at a depth, where translation gives them (05 R122, 07 R168). -/
def entryKeys (c : Iss) (depth : Nat) (need : Need) (store : Bool) : List (Nat × Nat) :=
  match translateLanes c.s c.T.ctx c.T.die .group (callAccs c depth) 16 need (some 0) store with
  | .ok ks => ks
  | _ => []

/-- What CALL and CALLX need: a frame of 16c registers or more, backing store and call stack for the deeper frame, no
memory operation of the group before them, and entries that translate (05 R123, R132). -/
def callReady (c : Iss) (sh : Nat) : Prop :=
  16 * sh ≤ c.P.fs ∧ 384 * (c.P.fb + c.P.fs) + 1536 * (c.P.ld + 1) ≤ c.T.bsz ∧ c.P.ld + 1 ≤ 255 ∧ memOpsBefore c.s c.G = false ∧
    translateLanes c.s c.T.ctx c.T.die .group (callAccs c c.P.ld) 16 .wr (some 0) true = .ok (entryKeys c c.P.ld .wr true)

/-- The call entry of a lane: the return address, FS and the shift (05 R122). -/
def entryOf (c : Iss) (keys : List (Nat × Nat)) (l : Nat) : Nat :=
  match keys.find? fun k => k.1 == l with
  | some k => readNat c.s.mem k.2 16
  | none => 0

/-- The groups of lanes of CALLX (05 R133): whether they call, and the address at which they go on. -/
def callGroups (c : Iss) (a : Operand) : List ((Bool × Nat) × Mask) :=
  groupLanes c.P.mask fun l => if c.act.getLsbD l then (true, (c.T.cb + rd c a 0 l) % 2 ^ 64) else (false, c.P.pc + 4)

/-- What a return needs: no memory operation of the group before it, and entries that translate and are aligned (05 R134). -/
def retReady (c : Iss) : Prop :=
  c.P.ld ≠ 0 ∧ c.act ≠ 0 ∧ memOpsBefore c.s c.G = false ∧
    translateLanes c.s c.T.ctx c.T.die .group (callAccs c (c.P.ld - 1)) 16 .rd (some 0) false =
      .ok (entryKeys c (c.P.ld - 1) .rd false) ∧
    ∀ l ∈ lanesOf c.act, entryOf c (entryKeys c (c.P.ld - 1) .rd false) l % 4 = 0

/-- The groups of lanes of RET (05 R134): whether they return, and the return address, FS and shift of their entries. -/
def retGroups (c : Iss) (keys : List (Nat × Nat)) : List ((Bool × Nat × Nat × Nat) × Mask) :=
  groupLanes c.P.mask fun l =>
    let e := entryOf c keys l
    if c.act.getLsbD l then (true, bits e 63 0, bits e 71 64, bits e 75 72) else (false, c.P.pc + 4, 0, 0)

/-- CALL, CALLX and RET: the whole path goes on at one address, or it divides into as many groups as it has entries for
(05 R132 to R134). -/
def calls : Instr → List EffForm
  | .call sh off =>
      let goes := callPath sh
      let wrote := fun (c : Iss) => writeCalls c.s c sh c.act (entryKeys c c.P.ld .wr true)
      [{ all := true, pre := fun c => c.act = 0, eff := fun c => c.s },
       { all := true, way := .jump, pre := fun c => c.act ≠ 0 ∧ c.act = c.P.mask ∧ callReady c sh,
         eff := fun c => modPath (wrote c) c.t c.g c.p (goes (wordsFrom c.P.pc off)) },
       { all := true, pre := fun c => c.act ≠ 0 ∧ c.act ≠ c.P.mask ∧ callReady c sh ∧ freeEntries c.G ≠ [],
         eff := fun c => splitTo (wrote c) c.t c.g c.p (nextFree c) c.act (goes (wordsFrom c.P.pc off)) },
       { all := true, way := .wait, pre := fun c => c.act ≠ 0 ∧ c.act ≠ c.P.mask ∧ callReady c sh ∧ freeEntries c.G = [],
         eff := fun c => stalled c c.s }]
  | .callx sh a =>
      let uses := fun (_ : GM) => [{ op := a }]
      let ok := fun (c : Iss) => (isVector a || isScalar a) = true
      let ready := fun (c : Iss) => ok c ∧ c.act ≠ 0 ∧ (∀ l ∈ lanesOf c.act, rd c a 0 l % 4 = 0) ∧ callReady c sh
      let called := fun (c : Iss) (gs : List ((Bool × Nat) × Mask)) =>
        gs.foldl (fun s x => if x.1.1 then writeCalls s c sh x.2 (entryKeys c c.P.ld .wr true) else s) c.s
      let paths := fun (gs : List ((Bool × Nat) × Mask)) =>
        gs.map fun x => (x.2, fun P => if x.1.1 then callPath sh x.1.2 P else { P with pc := x.1.2 })
      [{ uses := uses, all := true, pre := fun c => ok c ∧ c.act = 0, eff := fun c => c.s },
       { uses := uses, all := true, way := .jump,
         pre := fun c => ready c ∧ c.act = c.P.mask ∧ ∀ l ∈ lanesOf c.act, rd c a 0 l = rd c a 0 (lowest c.act),
         eff := fun c => modPath (writeCalls c.s c sh c.act (entryKeys c c.P.ld .wr true)) c.t c.g c.p
           (callPath sh ((c.T.cb + rd c a 0 (lowest c.act)) % 2 ^ 64)) },
       { uses := uses, all := true, way := .jump, pre := fun c => ready c ∧ mayDivide c (callGroups c a).length,
         eff := fun c => divided c (called c (callGroups c a)) (paths (callGroups c a)) },
       { uses := uses, all := true, way := .jump, pre := fun c => ready c ∧ dividesPart c (callGroups c a).length,
         eff := fun c => dividedPart c (called c (((callGroups c a).drop 1).take (freeEntries c.G).length))
           (paths (callGroups c a)) },
       { uses := uses, all := true, way := .wait, pre := fun c => ready c ∧ 1 < (callGroups c a).length ∧ noneFree c,
         eff := fun c => stalled c c.s }]
  | .ret =>
      let keys := fun (c : Iss) => entryKeys c (c.P.ld - 1) .rd false
      let gs := fun (c : Iss) => retGroups c (keys c)
      let paths := fun (c : Iss) => (gs c).map fun x => (x.2, fun (P : Path) => if x.1.1 then
            { P with pc := x.1.2.1, fs := x.1.2.2.1, fb := (P.fb + 2 ^ 16 - 16 * x.1.2.2.2) % 2 ^ 16, ld := P.ld - 1 }
          else { P with pc := x.1.2.1 })
      [{ all := true, pre := fun c => c.P.ld = 0, eff := fun c => modGroup c.s c.t c.g fun G => exitLanes G c.p c.act },
       { all := true, pre := fun c => c.P.ld ≠ 0 ∧ c.act = 0, eff := fun c => c.s },
       { all := true, way := .jump,
         pre := fun c => retReady c ∧ c.act = c.P.mask ∧
           ∀ l ∈ lanesOf c.act, entryOf c (keys c) l % 2 ^ 76 = entryOf c (keys c) (lowest c.act) % 2 ^ 76,
         eff := fun c =>
           let e := entryOf c (keys c) (lowest c.act)
           modPath (readCalls c (keys c)) c.t c.g c.p fun P =>
             { P with pc := bits e 63 0, fs := bits e 71 64, fb := (P.fb + 2 ^ 16 - 16 * bits e 75 72) % 2 ^ 16,
                      ld := P.ld - 1 } },
       { all := true, way := .jump, pre := fun c => retReady c ∧ mayDivide c (gs c).length,
         eff := fun c => divided c (readCalls c (keys c)) (paths c) },
       { all := true, way := .jump, pre := fun c => retReady c ∧ dividesPart c (gs c).length,
         eff := fun c => dividedPart c (readCalls c (keys c)) (paths c) },
       { all := true, way := .wait, pre := fun c => retReady c ∧ 1 < (gs c).length ∧ noneFree c,
         eff := fun c => stalled c (readCalls c (keys c)) }]
  | _ => []


/-- A barrier that the team has (10 R235). -/
def hasBar (c : Iss) (b : Nat) : Prop := b < c.T.nbar

/-- A barrier that an optional field names, if any, is one that the team has. -/
def hasOptBar (c : Iss) (bar : Option Nat) : Prop := ∀ b, bar = some b → b < c.T.nbar

/-- The token that a wait or test compares: the current phase, or a's low half (10 R256). -/
def tokenOf (c : Iss) (b : Nat) (cur : Bool) (a : Operand) : Nat :=
  if cur then (tget ({} : Bar) c.T.bars b).ph else rd c a 0 0 % 2 ^ 16

/-- The path as it waits: its state, what it waits for, its active lanes and its word kept, WCOUNT 0 (04 R92, R99). -/
def waits (c : Iss) (state : Nat) (w : Wait) : State :=
  modPath c.s c.t c.g c.p fun P => { P with state := state, wcount := 0, waitAct := c.act, waitWord := c.word, wait := w }

/-- The path of YIELD at its continuation (04 R108). -/
def yielded (c : Iss) (b : Nat) (off : Int) (P : Path) : Path :=
  { P with state := 4, wcount := 0, waitAct := c.act, waitWord := c.word,
           wait := .yield b (tget ({} : Bar) c.T.bars b).ph c.P.pc, pc := wordsFrom c.P.pc off, wbar := b }

/-- YIELD, BINIT, BARV, BWAIT, BTEST and BEXP (04 R108, 10 R252 to R257). A wait and a new membership test whether the
phase can still complete (10 R240). -/
def barrierWords : Instr → List EffForm
  | .yield b off => [
      { all := true, pre := fun c => c.act = 0, eff := fun c => c.s },
      { all := true, way := .jump, pre := fun c => c.act ≠ 0 ∧ hasBar c b ∧ c.act = c.P.mask,
        eff := fun c => testBar (modPath c.s c.t c.g c.p (yielded c b off)) c.t b },
      { all := true, pre := fun c => c.act ≠ 0 ∧ hasBar c b ∧ c.act ≠ c.P.mask ∧ freeEntries c.G ≠ [],
        eff := fun c => testBar (splitTo c.s c.t c.g c.p (nextFree c) c.act (yielded c b off)) c.t b },
      { all := true, way := .wait, pre := fun c => c.act ≠ 0 ∧ hasBar c b ∧ c.act ≠ c.P.mask ∧ freeEntries c.G = [],
        eff := fun c => stalled c c.s }]
  | .binit _ b a => guarded (fun _ => [{ op := a }]) false (fun _ => isUniform a = true)
      (fun c => hasBar c b ∧ ¬(rd c a 0 0 % 2 ^ 16 % 2 ^ c.T.groups.length = 0 ∧ bits (rd c a 0 0) 23 16 = 0))
      (fun c =>
        let new := initBar (rd c a 0 0 % 2 ^ 16 % 2 ^ c.T.groups.length) (bits (rd c a 0 0) 23 16)
        testBar (modTeam c.s c.t fun T => { T with bars := tput T.bars b (new (tget {} T.bars b)) }) c.t b)
  | .barv look b d a =>
      guarded (fun _ => [{ op := d, src := false, dst := true }, { op := a }]) false
        (fun _ => isUniform d = true ∧ isUniform a = true)
        (fun c => hasBar c b ∧ memBusy c.G = false ∧ room c look true ∧
          let B := tget ({} : Bar) c.T.bars b
          if B.gmem.testBit c.g then B.garr.testBit c.g = false else canArrive c.s c.t b 1 = true)
        (fun c =>
          let B := tget ({} : Bar) c.T.bars b
          let bytes := sint 32 (rd c a 0 0)
          let new := if B.gmem.testBit c.g then memberArrive c.g bytes else arriveBar 1 bytes
          postResult c (modTeam c.s c.t fun T => { T with bars := tput T.bars b (new (tget {} T.bars b)) })
            look d 1 fun _ => B.ph) ++
      [{ uses := fun _ => [{ op := d, src := false, dst := true }, { op := a }], way := .wait,
         pre := fun c => isUniform d = true ∧ isUniform a = true ∧ c.act ≠ 0 ∧ hasBar c b ∧ memBusy c.G = false ∧
           room c look true ∧ (tget ({} : Bar) c.T.bars b).gmem.testBit c.g = true ∧
           (tget ({} : Bar) c.T.bars b).garr.testBit c.g = true,
         eff := fun c => testBar (waits c 5 (.barv b look d (rd c a 0 0) (tget ({} : Bar) c.T.bars b).ph)) c.t b }]
  | .bwait b cur a =>
      guarded (fun _ => [{ op := a }]) true (fun _ => isUniform a = true ∧ (cur = true → a = .zero))
        (fun c => hasBar c b ∧
          let B := tget ({} : Bar) c.T.bars b
          phaseDone B (tokenOf c b cur a) = true ∧ B.flt = false ∧ B.aflt = false ∧ B.fltAt ≠ some c.s.gt)
        (fun c => c.s) ++
      [{ uses := fun _ => [{ op := a }], all := true, way := .wait,
         pre := fun c => isUniform a = true ∧ (cur = true → a = .zero) ∧ c.act ≠ 0 ∧ hasBar c b ∧
           let B := tget ({} : Bar) c.T.bars b
           (phaseDone B (tokenOf c b cur a) = false ∨ B.flt = true ∨ B.aflt = true ∨ B.fltAt = some c.s.gt),
         eff := fun c => testBar (waits c 5 (.bwait b (tokenOf c b cur a))) c.t b }]
  | .btest b p cur a => guarded (fun _ => [{ op := a }]) false (fun _ => isUniform a = true ∧ (cur = true → a = .zero))
      (fun c => hasBar c b ∧
        let B := tget ({} : Bar) c.T.bars b
        phaseDone B (tokenOf c b cur a) = true → B.flt = false ∧ B.aflt = false)
      (fun c => setPred c.s c.t c.g p c.act
        (if phaseDone (tget ({} : Bar) c.T.bars b) (tokenOf c b cur a) then c.act else 0))
  | .bexp _ b a => guarded (fun _ => [{ op := a }]) false (fun _ => isUniform a = true) (fun c => hasBar c b)
      (fun c => arrive c.s c.t b 0 (sint 32 (rd c a 0 0)))
  | _ => []

/-- VOTE and the shuffles (04 R113, R114): a word whose members or sources are all known ends; otherwise its path waits.
-/
def shuffleForms (d a b : Operand) (vec : Bool) (src : Nat → Nat → Nat) : List EffForm :=
  let uses := fun (gm : GM) =>
    [{ op := d, n := tyRegs gm.type, src := false, dst := true }, { op := a, n := tyRegs gm.type }, { op := b }]
  let own := fun (c : Iss) => (lanesOf c.P.mask).map fun l => (l, regsOf c a (tyRegs c.P.gm.type) l)
  let need := fun (c : Iss) => (lanesOf c.act).map fun l => (l, src l (rd c b 0 l))
  let share := fun (c : Iss) => modGroup c.s c.t c.g fun G => shareShfl G c.P.pc (own c)
  match d with
  | .v x =>
    let ok := fun (c : Iss) => (isVector a || isScalar a) = true ∧
      (if vec then isVector b || isScalar b else isUniform b) = true ∧
      c.P.gm.type ≠ .b128
    [{ uses := uses, all := true, pre := fun c => ok c ∧ c.act = 0, eff := share },
     { uses := uses, all := true,
       pre := fun c => ok c ∧ c.act ≠ 0 ∧ shflDone c.G (need c) (shflAt c.G c.P.pc) (own c) = true,
       eff := fun c => modGroup (share c) c.t c.g fun G =>
         writeShfl G c.P.fb x (tyRegs c.P.gm.type) (need c) (shflAt c.G c.P.pc) (own c) },
     { uses := uses, all := true, way := .wait,
       pre := fun c => ok c ∧ c.act ≠ 0 ∧ shflDone c.G (need c) (shflAt c.G c.P.pc) (own c) = false,
       eff := fun c => waits { c with s := share c } 2
         (.shfl x (tyRegs c.P.gm.type) (need c) (shflAt c.G c.P.pc) (own c)) }]
  | _ => []

/-- The lanes that a VOTE at the path's address has: members named, captured, ballot, joined over its waiting paths. -/
def voteNow (c : Iss) (p y : Nat) : Mask × Mask × Mask :=
  let j := (voteAt c.G c.P.pc).getD (0, 0, 0)
  (j.1 ||| (if c.act = 0 then 0 else
      BitVec.ofNat 96 (rd c (.s y) 0 0 + 2 ^ 32 * rd c (.s y) 1 0 + 2 ^ 64 * rd c (.s y) 2 0)),
   j.2.1 ||| c.P.mask, (j.2.2 &&& ~~~c.P.mask) ||| (c.act &&& predOf c.G p))

def groupWords : Instr → List EffForm
  | .vote p (.s x) (.s y) =>
    let share := fun (c : Iss) => modGroup c.s c.t c.g fun G =>
      shareVotes G c.P.pc (voteNow c p y).1 (voteNow c p y).2.1 (voteNow c p y).2.2
    [{ all := true, pre := fun c => x ≤ 42 ∧ y ≤ 45 ∧ c.act = 0, eff := share },
     { all := true,
       pre := fun c => x ≤ 42 ∧ y ≤ 45 ∧ c.act ≠ 0 ∧ voteDone c.G (voteNow c p y).1 (voteNow c p y).2.1 = true,
       eff := fun c => endVote c.s c.t c.g c.p c.P.pc x (voteNow c p y).1 (voteNow c p y).2.1 (voteNow c p y).2.2 },
     { all := true, way := .wait,
       pre := fun c => x ≤ 42 ∧ y ≤ 45 ∧ c.act ≠ 0 ∧ voteDone c.G (voteNow c p y).1 (voteNow c p y).2.1 = false,
       eff := fun c => waits { c with s := share c } 2
         (.vote x (voteNow c p y).1.toNat (voteNow c p y).2.1.toNat (voteNow c p y).2.2.toNat) }]
  | .shfl d a b => shuffleForms d a b true fun _ k => if 96 ≤ k then srcZero else k
  | .shflx d a b => shuffleForms d a b false fun l k => if 96 ≤ l ^^^ k then srcOwn else l ^^^ k
  | .shflu d a b => shuffleForms d a b false fun l k => if l < k then srcOwn else l - k
  | .shfld d a b => shuffleForms d a b false fun l k => if 96 ≤ l + k then srcOwn else l + k
  | _ => []

/-- The landing lanes that an access of e bytes switches off: one misaligned, out of the block, or in a granule that the
compactor copies without a fence (07 R168, R175, R177). -/
def lanesOff (c : Iss) (sp : Space) (e : Nat) (x : Nat → Nat) : Mask :=
  if sp = .landing then
    lanesWhere c.act fun l => decide (x l % e ≠ 0 ∨ c.T.lsz < x l + e) || inCopied c.T false (x l) e
  else 0

/-- Every other active lane's access of e bytes lies in its space and is aligned, and no landing lane meets a granule that is
copied behind a fence (07 R165 to R168, R177). -/
def laneFits (c : Iss) (sp : Space) (e : Nat) (x : Nat → Nat) : Prop :=
  ∀ l ∈ lanesOf (c.act &&& ~~~lanesOff c sp e x), match sp with
    | .landing => inCopied c.T true (x l) e = false
    | .priv => x l % e = 0 ∧ x l + e ≤ c.T.psz
    | .const _ => x l % e = 0
    | _ => x l % e = 0 ∧ x l < 2 ^ 56

/-- An access goes on, by `go`, with the lanes that are left: those switched off leave the path and the group, and are noted
in the landing fault mask (07 R175). -/
def goesOn (c : Iss) (sp : Space) (e : Nat) (x : Nat → Nat) (go : State → Iss → State) : State :=
  let off := lanesOff c sp e x
  let s1 := if off = 0 then c.s
    else modGroup c.s c.t c.g fun G => exitLanes { G with lfm := G.lfm ||| off, swoff := G.swoff ||| off } c.p off
  if c.act &&& ~~~off = 0 then s1 else go s1 { c with act := c.act &&& ~~~off }

/-- The address or offset that a lane of a load or store forms (07 R165). -/
def laneAddr (c : Iss) (sp : Space) (disp : Nat) (a : Operand) (l : Nat) : Nat :=
  match sp with
  | .landing | .priv => rd c a 0 l + disp * (tyWidth c.P.gm.type / 8)
  | .const _ => rd c a 0 l
  | _ => pairOf c a l

/-- The operand uses of a load, a store and an atomic under a mode (07 R167, 09 R230). -/
def loadUses (sp : Space) (d a : Operand) (gm : GM) : List Use :=
  [{ op := d, n := tyRegs gm.type, src := false, dst := true }, { op := a, n := addrRegs sp }]
def storeUses (sp : Space) (d a : Operand) (gm : GM) : List Use :=
  [{ op := d, n := tyRegs gm.type }, { op := a, n := addrRegs sp }]
def atomUses (op : AtomOp) (sp : Space) (d a : Operand) (gm : GM) : List Use :=
  [{ op := d, n := tyRegs gm.type * (if op = .cas then 2 else 1), dst := d != .zero }, { op := a, n := addrRegs sp }]

/-- A load: its address operand is two registers but in the spaces of offsets; an operation is posted in the MEM queue that
reads the element of each active lane that is left, the lowest alone for a scalar d (07 R166, R167, R186); `repl` marks one
under the replicate policy (07 R183). -/
def loadForm (look : Nat) (sp : Space) (order repl : Bool) (disp : Nat) (d a : Operand) : List EffForm :=
  guarded (loadUses sp d a) false
    (fun gm => a ≠ .lane ∧ a ≠ .drain ∧ (isConst sp = true → isUniform a = true) ∧
      (isScalar d = true → isUniform a = true) ∧ gm.type ≠ .e2m1)
    (fun c => room c look (d != .zero) ∧
      laneFits c sp (tyWidth c.P.gm.type / 8) (laneAddr c sp disp a))
    (fun c => goesOn c sp (tyWidth c.P.gm.type / 8) (laneAddr c sp disp a) fun s c =>
      let accs := (accLanes d c.act).map fun l => ({ lane := l, addr := laneAddr c sp disp a l } : Acc)
      let keys := accs.flatMap fun q => dstKeys c.P d (tyRegs c.P.gm.type) q.lane
      post c (compareLanes s c sp (tyWidth c.P.gm.type / 8) (accs.map (·.addr)) false) look
        { memq := true, work := .load sp c.P.gm.type order accs (isScalar d), keys := keys, regs := !keys.isEmpty, repl := repl })

/-- A store: an operation is posted that writes the element of each active lane that is left, its data as of the issue; `ack`
marks one that completes with the peer's acknowledgement (07 R184). -/
def storeForm (look : Nat) (sp : Space) (order ack : Bool) (disp : Nat) (d a : Operand) : List EffForm :=
  guarded (storeUses sp d a) false (fun gm => a ≠ .lane ∧ a ≠ .drain ∧ gm.type ≠ .e2m1)
    (fun c => room c look false ∧ laneFits c sp (tyWidth c.P.gm.type / 8) (laneAddr c sp disp a))
    (fun c => goesOn c sp (tyWidth c.P.gm.type / 8) (laneAddr c sp disp a) fun s c =>
      let accs := (lanesOf c.act).map fun l =>
        ({ lane := l, addr := laneAddr c sp disp a l, v := tyElem c c.P.gm.type d l } : Acc)
      post c (compareLanes s c sp (tyWidth c.P.gm.type / 8) (accs.map (·.addr)) true) look
        { memq := true, work := .store sp c.P.gm.type order accs, ack := ack })

/-- The loads and stores of rows 0x8, 0x9 and 0xA (07 R186). -/
def loadsStores : Instr → List EffForm
  | .ldl look disp d a => loadForm look .landing false false disp d a
  | .ldp look disp d a => loadForm look .priv false false disp d a
  | .ldk look k d a => loadForm look (.const k) false false 0 d a
  | .ldg look acq cache d a => loadForm look .global acq (cache == .replicate) 0 d a
  | .ldn look acq _ d a => loadForm look .peer acq false 0 d a
  | .ldh look acq _ _ d a => loadForm look .host acq false 0 d a
  | .stl look disp d a => storeForm look .landing false false disp d a
  | .stp look disp d a => storeForm look .priv false false disp d a
  | .stg look rel _ d a => storeForm look .global rel false 0 d a
  | .stn look rel ack d a => storeForm look .peer rel ack 0 d a
  | .sth look rel _ _ d a => storeForm look .host rel false 0 d a
  | _ => []

/-- The space of an atomic (09 R230). -/
def spaceOf : AtomSp → Space
  | .global => .global
  | .landing => .landing
  | .peer => .peer
  | .host => .host

/-- The address or offset of an atomic's lane. -/
def atomAddr (c : Iss) (sp : Space) (a : Operand) (l : Nat) : Nat := if sp = .landing then rd c a 0 l else pairOf c a l

/-- An atomic: an operation is posted that reads, computes and writes the word of each active lane that is left, the lowest
alone for a scalar d; ACAS takes the value to write from the registers above (09 R229, R230). -/
def atomForm (op : AtomOp) (look : Nat) (acq rel : Bool) (asp : AtomSp) (d a : Operand) : List EffForm :=
  let sp := spaceOf asp
  guarded (atomUses op sp d a) false
    (fun gm => a ≠ .lane ∧ a ≠ .drain ∧ d ≠ .lane ∧ d ≠ .drain ∧ (isScalar d = true → isUniform a = true) ∧
      atomType op gm.type = true)
    (fun c => room c look (d != .zero) ∧ laneFits c sp (tyWidth c.P.gm.type / 8) (atomAddr c sp a))
    (fun c => goesOn c sp (tyWidth c.P.gm.type / 8) (atomAddr c sp a) fun s c =>
      let t := c.P.gm.type
      let v2 := fun l => if op = .cas then
        (List.range (tyRegs t)).foldl (fun r j => r + 2 ^ (32 * j) * rd c d (tyRegs t + j) l) 0 else 0
      let accs := (accLanes d c.act).map fun l => ({ lane := l, addr := atomAddr c sp a l, v := tyElem c t d l, v2 := v2 l } : Acc)
      let keys := accs.flatMap fun q => dstKeys c.P d (tyRegs t) q.lane
      let s1 := compareLanes s c sp (tyWidth t / 8) (accs.map (·.addr)) false
      post c (compareLanes s1 c sp (tyWidth t / 8) (accs.map (·.addr)) true) look
        { memq := true, work := .atomic op sp t acq rel accs (isScalar d), keys := keys, regs := !keys.isEmpty })

/-- Row 0xB (09 R230). -/
def atomics : Instr → List EffForm
  | .aadd look acq rel sp d a => atomForm .add look acq rel sp d a
  | .afadd look acq rel sp d a => atomForm .fadd look acq rel sp d a
  | .amin look acq rel sp d a => atomForm .min look acq rel sp d a
  | .amax look acq rel sp d a => atomForm .max look acq rel sp d a
  | .aand look acq rel sp d a => atomForm .and look acq rel sp d a
  | .aor look acq rel sp d a => atomForm .or look acq rel sp d a
  | .axor look acq rel sp d a => atomForm .xor look acq rel sp d a
  | .axchg look acq rel sp d a => atomForm .xchg look acq rel sp d a
  | .acas look acq rel sp d a => atomForm .cas look acq rel sp d a
  | .ainc look acq rel sp d a => atomForm .inc look acq rel sp d a
  | .adec look acq rel sp d a => atomForm .dec look acq rel sp d a
  | _ => []

/-- PFG, CCTL, FENCE, QFENCE, TBLLOAD, QPUT and WAITADDR (06 R162, R163, 07 R187, R188, 09 R232 to R234, 15 R366). -/
def memoryWords : Instr → List EffForm
  | .pfg _ level a => [{
      uses := fun _ => [{ op := a, n := 2 }],
      eff := fun c =>
        let keys := (lanesOf c.act).filterMap fun l =>
          match translate c.s c.T.ctx (asks c.s c.T.die) (pairOf c a l) .rd (some 0) with
          | .key k => if meetsBad c.s k 1 false then none else some k
          | _ => none
        if level = 2 then ((keys.map (· / 2 ^ 21)).eraseDups).foldl (fun s r => heat s (r * 2 ^ 21)) c.s
        else ((keys.map (· / 128)).eraseDups).foldl (fun s x => fillLine s (x * 128)) c.s }]
  | .cctl look op a => guarded (fun _ => [{ op := a, n := 2 }]) false (fun _ => op = .lineinv ∨ a = .zero)
      (fun c => room c look false ∧ (op = .lineinv → ∀ l ∈ lanesOf c.act, pairOf c a l < 2 ^ 56))
      (fun c =>
        let accs := if op = .lineinv then (lanesOf c.act).map fun l => ({ lane := l, addr := pairOf c a l } : Acc) else []
        post c c.s look { memq := true, work := .cctl op accs })
  | .fence look kind => [{
      pre := fun c => room c look false,
      eff := fun c => post c c.s look { memq := true, work := .fence (kind != .rel) (kind != .acq) } }]
  | .qfence look mask bar => [{
      pre := fun c => hasOptBar c bar ∧ room c look false,
      eff := fun c => post c c.s look { work := .qfence mask bar } }]
  | .tblload look k a =>
      let uses := fun (_ : GM) => [{ op := a, n := 2 }]
      let ok := fun (c : Iss) => isScalar a = true ∧ c.P.gm.ftb.toNat ≠ k % 2
      let ready := fun (c : Iss) => ok c ∧ c.act ≠ 0 ∧ pairOf c a 0 % 16 = 0 ∧ room c look false
      let mine := fun (c : Iss) => (tget ({} : FnBank) (coreOf c.s (teamCore c.T)).banks k).loader.find? fun l =>
        l.path == (c.t, c.g, c.p) && l.op.isNone
      let queued := fun (c : Iss) => modBank c.s (teamCore c.T) k fun B =>
        { B with loading := true,
                 loader := B.loader ++ [{ path := (c.t, c.g, c.p), holders := bankHolders c.s (teamCore c.T) k }] }
      let begun := fun (c : Iss) (s : State) =>
        post c (modBank s (teamCore c.T) k fun B =>
          { B with owned := false,
                   loader := B.loader.map fun l =>
                     if l.path == (c.t, c.g, c.p) && l.op.isNone then { l with op := some c.s.nextId } else l })
          look { memq := true, work := .tblload k (pairOf c a 0) }
      [{ uses := uses, pre := fun c => ok c ∧ c.act = 0, eff := fun c => c.s },
       { uses := uses, pre := fun c => ready c ∧ mine c = none ∧ bankHolders c.s (teamCore c.T) k = [],
         eff := fun c => begun c (queued c) },
       { uses := uses, pre := fun c => ready c ∧ ∃ l, mine c = some l ∧ l.holders = [], eff := fun c => begun c c.s },
       { uses := uses, way := .wait, pre := fun c => ready c ∧ mine c = none ∧ bankHolders c.s (teamCore c.T) k ≠ [],
         eff := queued },
       { uses := uses, way := .wait, pre := fun c => ready c ∧ ∃ l, mine c = some l ∧ l.holders ≠ [],
         eff := fun c => c.s }]
  | .qput look d a => guarded (fun _ => [{ op := d, src := false, dst := true }, { op := a, n := 2 }]) false
      (fun _ => isUniform d = true ∧ ∃ k, a = .s k ∧ k % 2 = 0 ∧ k ≤ 46)
      (fun c => rd c a 0 0 % 64 = 0 ∧ rd c a 0 0 + 64 ≤ c.T.lsz ∧ rd c a 1 0 < 2 ^ 12 ∧ room c look true)
      (fun c => post c c.s look { memq := true, work := .qput (rd c a 1 0) (rd c a 0 0) none,
                                  keys := dstKeys c.P d 1 0, regs := !(dstKeys c.P d 1 0).isEmpty })
  | .waitaddr acq cc d a =>
      let uses := fun (gm : GM) => [{ op := d, n := tyRegs gm.type }, { op := a, n := 2 }]
      let ok := fun (c : Iss) => isUniform d = true ∧ isUniform a = true ∧ waitType c.P.gm.type = true
      [{ uses := uses, all := true, pre := fun c => ok c ∧ c.act = 0, eff := fun c => c.s },
       { uses := uses, all := true, way := .wait,
         pre := fun c => ok c ∧ c.act ≠ 0 ∧ pairOf c a 0 % (tyWidth c.P.gm.type / 8) = 0,
         eff := fun c => { waits c 5 (.addr c.s.nextId (pairOf c a 0) (tyElem c c.P.gm.type d 0) cc acq d false) with
           nextId := c.s.nextId + 1 } }]
  | _ => []

/-- COPY, CSUM, PIPE and PIPEREL (10 R243 to R246, R251, R258 to R260). -/
def copyWords : Instr → List EffForm
  | .copy _ b role a =>
      let part := fun (c : Iss) => if role then c.G.role else 0
      let seat := fun (c : Iss) => opensCopy c.T c.g role (part c) b = true → skidderLoad c.s (teamCore c.T) < 32
      let join := fun (c : Iss) (x : Slice) =>
        { modTeam c.s c.t (fun T => joinCopy T c.s.gt c.s.nextId role (part c) b x) with nextId := c.s.nextId + 1 }
      let empty := fun (c : Iss) => c.act = 0 ∨ (rd c a 4 0 = 0 ∧ rd c a 5 0 = 0xFFFFFFFF)
      let slice := fun (c : Iss) => sliceOf c c.s.nextId (sliceRegs c a)
      [{ uses := fun _ => [{ op := a }],
         pre := fun c => (∃ k, a = .s k ∧ k % 8 = 0 ∧ k ≤ 40) ∧ hasBar c b ∧ empty c ∧ seat c,
         eff := fun c => join c { id := c.s.nextId, g := c.g, pc := c.P.pc, scope := c.P.gm.scope } },
       { uses := fun _ => [{ op := a }],
         pre := fun c => (∃ k, a = .s k ∧ k % 8 = 0 ∧ k ≤ 40) ∧ hasBar c b ∧ ¬empty c ∧ seat c ∧
           copyBad c.T (sliceRegs c a) (slice c) = false ∧
           ((slice c).layout.isSome = true → inCopied c.T true (rd c a 5 0) 32 = false) ∧
           (slice c).daddr % dstSize (slice c) = 0,
         eff := fun c => join c (slice c) }]
  | .csum look b a => guarded (fun _ => [{ op := a }]) false (fun _ => isUniform a = true)
      (fun c => hasBar c b ∧ (∃ k, a = .s k ∧ k % 8 = 0 ∧ k ≤ 40) ∧ csumBad c.T (sliceRegs c a) = false ∧ room c look false)
      (fun c =>
        let u := modTeam c.s c.t fun T => { T with csums := T.csums ++
          [{ id := c.s.nextId, g := c.g, pc := c.P.pc, scope := c.P.gm.scope, bar := b,
             saddr := rd c a 0 0 + 2 ^ 32 * rd c a 1 0, sp := ctlSsp (rd c a 6 0), len := rd c a 4 0,
             sumrec := rd c a 7 0, born := pastNow c.s, at_ := c.s.gt }] }
        if look = 15 then { u with nextId := u.nextId + 1 } else post c u look {})
  | .pipe d => [
      { uses := fun _ => [{ op := d, src := false, dst := true }],
        pre := fun c => isUniform d = true ∧ c.T.smax ≠ 0 ∧ c.act = 0, eff := fun c => c.s },
      { uses := fun _ => [{ op := d, src := false, dst := true }],
        pre := fun c => isUniform d = true ∧ c.T.smax ≠ 0 ∧ c.act ≠ 0 ∧ (c.T.head + 2 ^ 16 - c.T.tail) % 2 ^ 16 < c.T.pd,
        eff := fun c => modTeam (wrLanes c c.s d 1 c.act fun _ => c.T.head % c.T.smax) c.t fun T =>
          { T with head := (T.head + 1) % 2 ^ 16 } }]
  | .piperel => [
      { pre := fun c => c.T.smax ≠ 0 ∧ c.act = 0, eff := fun c => c.s },
      { pre := fun c => c.T.smax ≠ 0 ∧ c.act ≠ 0,
        eff := fun c => modTeam c.s c.t fun T =>
          if T.head = T.tail then T else { noteRelease c.s.gt T with tail := (T.tail + 1) % 2 ^ 16 } }]
  | _ => []

/-- The operands that a record word of MATRIX needs: an 8-aligned record inside landing memory, readable (11 R274), in no
granule that the compactor copies (07 R177). -/
def recordOk (c : Iss) (a : Operand) (n : Nat) : Prop :=
  rd c a 0 0 % 8 = 0 ∧ rd c a 0 0 + n ≤ c.T.lsz ∧ inCopied c.T true (rd c a 0 0) n = false ∧
    landMeetsBad c.T (rd c a 0 0) n false = false

/-- MPASS and MDELTA: the record passes its checks and a reservation entry is free; the operation is posted with the
record as it stands (11 R264, R268, R274, 12 R299). -/
def passForm (bar : Option Nat) (a : Operand) (bad : Iss → Nat → Bool) (kind : PassRec → MKind) : List EffForm :=
  guarded (fun _ => [{ op := a }]) false (fun _ => isUniform a = true)
    (fun c =>
      let x := landNat c.T (rd c a 0 0) 128
      hasOptBar c bar ∧ recordOk c a 128 ∧ bad c x = false ∧
      ((recordOf c.T x).idxen = true → landMeetsBad c.T (bits x 807 776) 192 false = false) ∧ mopsFull c = false ∧
      freeEntry c.s c.T c.G ≠ none)
    (fun c => postMop c c.s (kind (recordOf c.T (landNat c.T (rd c a 0 0) 128))) bar (freeEntry c.s c.T c.G))

/-- MSTORE and MLOAD of tile n, or of n and n + 1: the address and pitch in three scalars (11 R286). -/
def tileForm (n : Nat) (glob col pair : Bool) (bar : Option Nat) (a : Operand) (kind : Nat → Nat → MKind) : List EffForm :=
  let e := if pair then 8 else 4
  let line := if col then 96 * e else 64 * e
  let tiles := if pair then [n, n + 1] else [n]
  let addr := fun (c : Iss) => rd c a 0 0 + 2 ^ 32 * rd c a 1 0
  let pitch := fun (c : Iss) => rd c a 2 0
  guarded (fun _ => [{ op := a, n := 2 }]) false (fun _ => ∃ k, a = .s k ∧ k % 2 = 0 ∧ k ≤ 44)
    (fun c => (∀ m ∈ tiles, m < c.T.ntiles) ∧ (pair = true → n % 2 = 0) ∧ hasOptBar c bar ∧ pitch c % e = 0 ∧
      line ≤ pitch c ∧ addr c % e = 0 ∧
      (glob = false → rd c a 1 0 = 0 ∧ addr c + ((if col then 63 else 95) * pitch c + line) ≤ c.T.lsz) ∧
      faultedTile c.T tiles = none ∧ mopsFull c = false)
    (fun c => postMop c c.s (kind (addr c) (pitch c)) bar none)

/-- Posting a slot operation and its result's window. -/
def slotPost (c : Iss) (look : Nat) (kind : MKind) (keys : List Nat) : State :=
  post c { postMop c c.s kind none none with nextId := c.s.nextId } look { keys := keys, regs := !keys.isEmpty }

/-- Eight aligned scalars. -/
def eight (a : Operand) : Prop := ∃ k, a = .s k ∧ k % 8 = 0 ∧ k ≤ 40

/-- CBIND's eight scalars (12 R300). -/
def bindRegs (c : Iss) (a : Operand) : List Nat := (List.range 8).map fun i => rd c a i 0

/-- Row 0xD (11 R283 to R287, 12 R299 to R301). -/
def matrixWords : Instr → List EffForm
  | .mpass _ bar a => passForm bar a (fun c x => passBad c.T x) .pass
  | .mdelta _ bar a => passForm bar a deltaBad .delta
  | .mzero _ n => guarded (fun _ => []) false (fun _ => True) (fun c => n < c.T.ntiles ∧ mopsFull c = false)
      (fun c => postMop c c.s (.zero n) none none)
  | .mdrain _ n => guarded (fun _ => []) false (fun _ => True)
      (fun c => n < c.T.ntiles ∧ faultedTile c.T [n] = none ∧ mopsFull c = false)
      (fun c => modGroup (postMop c c.s (.drain n) none none) c.t c.g fun G =>
        { G with drain := { G.drain with dtile := n, dcol := 0, armed := true, held := false, ready := false } })
  | .mstore _ n glob col pair bar a => tileForm n glob col pair bar a fun x y => .store n glob col pair x y
  | .mload _ n glob col pair bar a => tileForm n glob col pair bar a fun x y => .load n glob col pair x y
  | .mwait tile =>
      let mask := fun (c : Iss) => match tile with
        | some n => if c.G.tilesNamed.testBit n then 2 ^ n else 0
        | none => c.G.tilesNamed
      let ok := fun (c : Iss) => ∀ n, tile = some n → n < c.T.ntiles
      guarded (fun _ => []) true (fun _ => True)
        (fun c => ok c ∧ mwaitBusy c.T c.g c.s.nextId (mask c) tile.isNone = false ∧
          faultedTile c.T (maskTiles (mask c)) = none) (fun c => c.s) ++
      [{ all := true, way := .wait,
         pre := fun c => c.act ≠ 0 ∧ ok c ∧ mwaitBusy c.T c.g c.s.nextId (mask c) tile.isNone = true,
         eff := fun c => waits c 5 (.tiles c.s.nextId (mask c) tile.isNone) }]
  | .cbind look d a =>
      let uses := fun (_ : GM) => [{ op := d, src := false, dst := true }]
      [{ uses := uses, pre := fun c => isUniform d = true ∧ c.act = 0, eff := fun c => c.s },
       { uses := uses,
         pre := fun c =>
           let b := bindBlock (bindRegs c a)
           isUniform d = true ∧ eight a ∧ c.act ≠ 0 ∧ bindBad (bindRegs c a) = false ∧ b.darea % 4096 = 0 ∧
           (∃ ws, weightWatches c.s c.T.ctx c.T.die b = .ok ws) ∧ (∃ ks, areaSpan c.s c.T.ctx c.T.die b = .ok ks) ∧
           mopsFull c = false ∧ room c look (!(dstKeys c.P d 1 0).isEmpty),
         eff := fun c => slotPost c look (.cbind (bindBlock (bindRegs c a))) (dstKeys c.P d 1 0) }]
  | .cdrop _ a => guarded (fun _ => [{ op := a }]) false (fun _ => isUniform a = true) (fun c => mopsFull c = false)
      (fun c => postMop c c.s (.cdrop (rd c a 0 0 % 2 ^ 8)) none none)
  | .cstat look d a => guarded (fun _ => [{ op := d, n := 8, src := false, dst := true }, { op := a }]) false
      (fun _ => eight d ∧ isUniform a = true)
      (fun c => mopsFull c = false ∧ room c look (!(dstKeys c.P d 8 0).isEmpty))
      (fun c => slotPost c look (.cstat (rd c a 0 0 % 2 ^ 8)) (dstKeys c.P d 8 0))
  | .cfresh look a => guarded (fun _ => [{ op := a }]) false (fun _ => isUniform a = true)
      (fun c => mopsFull c = false ∧ room c look false)
      (fun c => slotPost c look (.cfresh (rd c a 0 0 % 2 ^ 8)) [])
  | _ => []

/-- A vector whose number is a multiple of n. -/
def vecAt (x : Operand) (n : Nat) : Prop := ∃ k, x = .v k ∧ k % n = 0

/-- A group of registers of x in each active lane. -/
def laneRegs (c : Iss) (x : Operand) (n l : Nat) : List Nat := (List.range n).map fun j => rd c x j l

/-- A callable queue's header passes 13 R323 and is readable; neither it nor the ring lies where the compactor copies. -/
def queueOk (c : Iss) (off : Nat) : Prop :=
  off % 64 = 0 ∧ off + 64 ≤ c.T.lsz ∧ landMeetsBad c.T off 64 false = false ∧ cqHeaderBad c.T off = false ∧
    inCopied c.T true off 64 = false ∧
    inCopied c.T true (cqRing (landNat c.T off 64)) (64 * cqCap (landNat c.T off 64)) = false

/-- BOXT and TRIT: the rays and node addresses of the active lanes (13 R340, R341). -/
def rayForm (look nd align : Nat) (d a : Operand) (work : List Acc → List (List Nat) → Work) : List EffForm :=
  guarded (fun _ => [{ op := d, n := nd, src := false, dst := true }, { op := a, n := 10 }]) false
    (fun _ => vecAt d nd ∧ vecAt a 2)
    (fun c => room c look true ∧ laneFits c .global align (pairOf c (vecPlus a 8)))
    (fun c =>
      let accs := (lanesOf c.act).map fun l => ({ lane := l, addr := pairOf c (vecPlus a 8) l } : Acc)
      post c (compareLanes c.s c .global (if nd = 4 then 36 else 128) (accs.map (·.addr)) false) look
        { memq := true, work := work accs ((lanesOf c.act).map (laneRegs c a 8)),
          keys := (lanesOf c.act).flatMap fun l => dstKeys c.P d nd l, regs := true })

/-- Row 0xE (13 R332 to R343, 14 R345 to R350). -/
def marchWords : Instr → List EffForm
  | .march _ b d a => guarded (fun _ => [{ op := d, n := 8 }, { op := a, n := 2 }]) false
      (fun _ => vecAt d 2 ∧ isScalar a = true)
      (fun c => hasBar c b ∧ slotUnbound c (rd c a 1 0 % 4) = false ∧ bits (rd c a 1 0) 31 3 = 0 ∧
        rd c a 0 0 % 32 = 0 ∧ rd c a 0 0 + 3072 ≤ c.T.lsz ∧ recordsUsed c.s (teamCore c.T) < 16)
      (fun c => postMarch c c.s (.batch (rd c a 1 0 % 4) (rd c a 0 0) (bit (rd c a 1 0) 2)) (some b)
        ((lanesOf c.act).map fun l => { lane := l, regs := laneRegs c d 8 l, t := rd c d 6 l }))
  | .buck _ b slot a => guarded (fun _ => [{ op := a, n := 8 }]) false (fun _ => eight a)
      (fun c => hasBar c b ∧ slotUnbound c slot = false ∧ rd c a 0 0 % 8 = 0 ∧ rd c a 0 0 + rd c a 1 0 ≤ c.T.lsz ∧
        boxBad ((List.range 6).map fun i => rd c a (i + 2) 0) = false)
      (fun c => postMarch c c.s (.buck slot (rd c a 0 0) (rd c a 1 0) ((List.range 6).map fun i => rd c a (i + 2) 0))
        (some b) [])
  | .feval look mode slot d a =>
      guarded (fun _ => [{ op := d, n := (fevalRegs mode).2.1, src := false, dst := true },
                         { op := a, n := (fevalRegs mode).1 }]) false
        (fun _ => vecAt d (fevalRegs mode).2.2.2 ∧ vecAt a (fevalRegs mode).2.2.1)
        (fun c => slotUnbound c slot = false ∧ recordsUsed c.s (teamCore c.T) < 16 ∧ room c look true)
        (fun c => post c { postMarch c c.s (.feval slot mode) none ((lanesOf c.act).map fun l =>
              { lane := l, regs := laneRegs c a (fevalRegs mode).1 l }) with nextId := c.s.nextId } look
            { keys := (lanesOf c.act).flatMap fun l => dstKeys c.P d (fevalRegs mode).2.1 l, regs := true })
  | .fbind look slot land d a =>
      guarded (fun _ => [{ op := d, src := false, dst := true }, { op := a, n := 4 }]) false
        (fun _ => isUniform d = true ∧ isScalar a = true)
        (fun c => rd c a 0 0 % 4 = 0 ∧ (land = true → rd c a 1 0 = 0 ∧ rd c a 0 0 + 32 ≤ c.T.lsz) ∧
          room c look (!(dstKeys c.P d 1 0).isEmpty))
        (fun c => post c { postMarch c c.s (.fbind slot land (rd c a 0 0 + 2 ^ 32 * rd c a 1 0) (rd c a 2 0) (rd c a 3 0))
              none [] with nextId := c.s.nextId } look
            { keys := dstKeys c.P d 1 0, regs := !(dstKeys c.P d 1 0).isEmpty })
  | .cqpop look d a => guarded (fun _ => [{ op := d, n := 10, src := false, dst := true }, { op := a }]) false
      (fun _ => vecAt d 2 ∧ isUniform a = true) (fun c => queueOk c (rd c a 0 0) ∧ room c look true)
      (fun c => post c c.s look { memq := true, work := .cqpop (rd c a 0 0), regs := true,
                                  keys := (lanesOf c.act).flatMap fun l => dstKeys c.P d 10 l })
  | .cqret look d a => guarded (fun _ => [{ op := d, n := 6 }, { op := a }]) false
      (fun _ => vecAt d 2 ∧ isUniform a = true) (fun c => queueOk c (rd c a 0 0) ∧ room c look false)
      (fun c => post c c.s look { memq := true, work := .cqret (rd c a 0 0) ((lanesOf c.act).map (laneRegs c d 6)) })
  | .boxt look d a => rayForm look 2 128 d a .boxt
  | .trit look cull d a => rayForm look 4 4 d a (.trit cull)
  | .vfetch look grad d a => guarded (fun _ => [{ op := d, n := 4, src := false, dst := true }, { op := d, n := 3 }, { op := a }]) false
      (fun _ => vecAt d 4 ∧ isUniform a = true)
      (fun c => memOpsBefore c.s c.G = false ∧ recordOk c a 32 ∧ descBad (landNat c.T (rd c a 0 0) 32) = false ∧ room c look true ∧
        ∀ l ∈ lanesOf c.act, ∀ y ∈ fetchAddrs (landNat c.T (rd c a 0 0) 32) (laneRegs c d 3 l), y % 4 = 0)
      (fun c =>
        let pts := (lanesOf c.act).map fun l => (l, laneRegs c d 3 l)
        post c (compareLanes c.s c .global 4 (pts.flatMap fun x => fetchAddrs (landNat c.T (rd c a 0 0) 32) x.2) false) look
          { memq := true, work := .vfetch grad (landNat c.T (rd c a 0 0) 32) pts, regs := true,
            keys := (lanesOf c.act).flatMap fun l => dstKeys c.P d (if grad then 4 else 1) l })
  | .visw look d a => guarded (fun _ => [{ op := d, n := 2, dst := true }, { op := a, n := 2 }]) false
      (fun _ => isVector d = true ∧ isVector a = true)
      (fun c => room c look true ∧ laneFits c .global 8 (pairOf c a))
      (fun c =>
        let accs := (lanesOf c.act).map fun l => ({ lane := l, addr := pairOf c a l, v := pairOf c d l } : Acc)
        post c (compareLanes c.s c .global 8 (accs.map (·.addr)) true) look
          { memq := true, work := .visw accs, keys := (lanesOf c.act).flatMap fun l => dstKeys c.P d 2 l, regs := true })
  | .merge _ bar a => guarded (fun _ => [{ op := a }]) false (fun _ => isUniform a = true)
      (fun c => hasOptBar c bar ∧ recordOk c a 128 ∧ jobBad (landNat c.T (rd c a 0 0) 128) = false ∧
        jobsHeld c.s (teamCluster c.T) < 64)
      (fun c => { modTeam c.s c.t (fun T => { T with jobs := T.jobs ++
        [{ jobOfRecord (landNat c.T (rd c a 0 0) 128) with
           id := c.s.nextId, g := c.g, pc := c.P.pc, scope := c.P.gm.scope, bar := bar, off := rd c a 0 0,
           cluster := teamCluster c.T, born := pastNow c.s }] }) with
        nextId := c.s.nextId + 1 })
  | .mstat look d a => guarded (fun _ => [{ op := d, n := 4, src := false, dst := true }, { op := a }]) false
      (fun _ => isScalar d = true ∧ isUniform a = true)
      (fun c => rd c a 0 0 % 8 = 0 ∧ rd c a 0 0 + 128 ≤ c.T.lsz ∧ inCopied c.T true (rd c a 0 0) 128 = false ∧
        ((∀ j ∈ c.T.jobs, j.off ≠ rd c a 0 0) → landMeetsBad c.T (rd c a 0 0 + 64) 16 false = false) ∧ room c look true)
      (fun c => postResult c c.s look d 4 fun _ =>
        (List.range 4).foldl (fun r k => r + 2 ^ (32 * k) * ((mstatWords c.T (rd c a 0 0)).getD k 0 % 2 ^ 32)) 0)
  | _ => []

/-- What the operation of a core's replayable trap record gives when it is performed again for the record's lanes (16
R373, R394). -/
def replayed (s : State) (core : Nat) : Option Replayed :=
  let K := coreOf s core
  match K.trap.replayable, K.replay with
  | true, some o => some (replayOp s K.trapAt.1 K.trapAt.2 o (BitVec.ofNat 96 K.trap.flm))
  | _, _ => none

/-- The trapped path goes on at the record's CPC (16 R394). -/
def atCpc (s x : State) (core : Nat) : State :=
  let K := coreOf s core
  modPath x K.trapAt.1 K.trapAt.2 K.trap.path fun P => { P with pc := K.trap.cpc }

/-- A further fault of a replay, with the record's CPC. -/
def withCpc (s : State) (core : Nat) (h : Held) : Held := { h with tr := { h.tr with cpc := (coreOf s core).trap.cpc } }

/-- SYSW, TRACE and RFT (16 R394, R396, R397, 18 R416). -/
def systemWords : Instr → List EffForm
  | .sysw idx a =>
      guarded (fun _ => [{ op := a }]) false (fun _ => isUniform a = true ∧ idx = 0x0B) (fun _ => True)
        (fun c => modGroup c.s c.t c.g fun G =>
          { G with tregs := { G.tregs with tact := G.tregs.tact && !(rd c a 0 0).testBit 0 } }) ++
      guarded (fun _ => [{ op := a }]) false (fun _ => isUniform a = true ∧ idx = 0x11) (fun _ => True)
        (fun c => modCtx c.s (teamOf c.s c.t).ctx fun C =>
          if (rd c a 0 0 + 2 ^ 32 - C.flTail) % 2 ^ 32 ≤ (C.flHead + 2 ^ 32 - C.flTail) % 2 ^ 32 then
            { C with flTail := rd c a 0 0 } else C)
  | .trace d a b => guarded (fun _ => [{ op := d }, { op := a }, { op := b }]) false
      (fun _ => isUniform d = true ∧ isUniform a = true ∧ isUniform b = true) (fun _ => True)
      (fun c => traceOut c.s c.T.die c.s.gt
        { type := 1, ctx := c.T.ctx % 2 ^ 10, queue := c.T.queue, loc := locOf c.T c.G, tag := rd c d 0 0 % 2 ^ 16,
          pc := c.P.pc, d0 := rd c a 0 0, d1 := rd c b 0 0 })
  | .rft replay (.s k) a =>
      let uses := fun (_ : GM) => [{ op := .s k, src := false, dst := true }, { op := a }]
      let core := fun (c : Iss) => c.T.die * 320 + rd c a 0 0
      let answer := fun (c : Iss) (s : State) (n : Nat) => putScal s c.t c.g c.p k [BitVec.ofNat 32 n]
      let ok := fun (c : Iss) => c.T.ctl = true ∧ isScalar a = true ∧ c.act ≠ 0
      [{ uses := uses, pre := fun c => c.T.ctl = true ∧ isScalar a = true ∧ c.act = 0, eff := fun c => c.s },
       { uses := uses, pre := fun c => ok c ∧ 320 ≤ rd c a 0 0, eff := fun c => answer c c.s 2 },
       { uses := uses,
         pre := fun c => ok c ∧ rd c a 0 0 < 320 ∧
           ((coreOf c.s (core c)).frozen = false ∨ (coreOf c.s (core c)).trap.tvalid = false),
         eff := fun c => answer c c.s 1 },
       { uses := uses,
         pre := fun c => ok c ∧ rd c a 0 0 < 320 ∧ (coreOf c.s (core c)).frozen = true ∧
           (coreOf c.s (core c)).trap.tvalid = true ∧ replay = false,
         eff := fun c => answer c (unfreeze c.s (core c)) 0 },
       { uses := uses,
         pre := fun c => ok c ∧ rd c a 0 0 < 320 ∧ (coreOf c.s (core c)).frozen = true ∧
           (coreOf c.s (core c)).trap.tvalid = true ∧ replay = true ∧
           replayed c.s (core c) = none,
         eff := fun c => answer c c.s 3 },
       { uses := uses,
         pre := fun c => ok c ∧ rd c a 0 0 < 320 ∧ (coreOf c.s (core c)).frozen = true ∧
           (coreOf c.s (core c)).trap.tvalid = true ∧ replay = true ∧ ∃ x, replayed c.s (core c) = some (.done x),
         eff := fun c => match replayed c.s (core c) with
           | some (.done x) => answer c (unfreeze (atCpc c.s x (core c)) (core c)) 0
           | _ => c.s },
       { uses := uses,
         pre := fun c => ok c ∧ rd c a 0 0 < 320 ∧ (coreOf c.s (core c)).frozen = true ∧
           (coreOf c.s (core c)).trap.tvalid = true ∧ replay = true ∧ ∃ x h, replayed c.s (core c) = some (.again x h),
         eff := fun c => match replayed c.s (core c) with
           | some (.again x h) => answer c (againRecord (atCpc c.s x (core c)) (core c) (coreOf c.s (core c)).trapAt.1
               (coreOf c.s (core c)).trapAt.2 (withCpc c.s (core c) h)) 4
           | _ => c.s }]
  | _ => []

/-! ### Events -/

/-- Events by their rules: wherever a rule relates the state to an outcome, exec answers it. That an event for which no rule
gives an outcome in a state is not enabled there, and exec leaves the state as it is, is the model's choice and no rule of the
manual (DESIGN CHOICE, log entry 15). -/
def EventTable (rules : Instr → Option (State → State → Prop)) : Prop :=
  ∀ (i : Instr) (R : State → State → Prop) (s : State), rules i = some R →
    (∀ u, R s u → exec i s = .next u) ∧ ((∀ u, ¬R s u) → exec i s = .next s)

/-- The team is in place and its core is not frozen. -/
def running (s : State) (t : Nat) : Prop :=
  (teamOf s t).away = .present ∧
    ((teamOf s t).ctl = true ∨ (coreOf s (teamCore (teamOf s t))).frozen = false)

/-- Those accesses of an operation that no route delivers, as lanes that meet uncorrected data (19 R427). -/
def lostLanes (s : State) (accs : List Acc) : Option (TrapKind × Mask × Nat) :=
  columnTrap ((undelivered s accs).map fun a => (a.lane, a.addr, TrapKind.uncorrected))

/-- What no route delivers for 2^20 ticks (19 R427, 10 R245): a load or an atomic traps for those of its lanes; a store goes on
without them, and each is logged. -/
def opUndelivered (s u : State) (t g : Nat) (o : Pending) : Prop :=
  (∃ ty acq accs uni k m a, o.work = .load .peer ty acq accs uni ∧ lostLanes s accs = some (k, m, a) ∧
    u = trapPending s t g o k (failLanes o uni m) a) ∨
  (∃ op ty acq rel accs uni keys k m a, o.work = .atomic op .peer ty acq rel accs uni ∧
    accKeys s (teamOf s t) accs (spaceTgt .peer) = .ok keys ∧ lostLanes s accs = some (k, m, a) ∧
    u = failAtomic (releaseOp s t g o.scope rel) t g o op .peer ty uni (accs.zip keys) k m a) ∨
  ∃ ty rel accs, o.work = .store .peer ty rel accs ∧
    let lost := undelivered s accs
    let rest := accs.filter fun a => !lost.contains a
    let s1 := { s with sup := { s.sup with log := s.sup.log ++ lost.map fun a => (6, a.addr, s.gt) } }
    (rest = [] ∧ o.ack = true ∧ u = lostStore s1 t g o.id) ∨
    (rest = [] ∧ o.ack = false ∧ u = doneOp s1 t g o.id []) ∨
    (rest ≠ [] ∧ u = modGroup { s1 with free := s1.free + 1 } t g fun G => { G with pend := G.pend.map fun (q : Pending) =>
      if q.id == o.id then { q with work := .store .peer ty rel rest, noAck := q.noAck || q.ack } else q })

/-- A collective after its chunk has been taken off those to do. -/
def without (C : Copy) (slice line : Nat) : Copy := { C with todo := C.todo.filter (· != (slice, line)) }

/-- What no route delivers for 2^20 ticks of a copy's chunk: its read is uncorrected data, its write is dropped and logged. -/
def chunkUndelivered (s u : State) (t id slice line : Nat) : Prop :=
  ∃ C, copyOf (teamOf s t) id = some C ∧ C.started = true ∧ C.tick.getD s.gt + 2 ^ 20 ≤ s.gt ∧ (slice, line) ∈ C.todo ∧
    chunkBlocked s (teamOf s t) C slice line = false ∧
    let x := C.slices.getD slice {}
    let reads := ctlSsp x.ctl = 2 ∧ (ctlDsp x.ctl = 2 → Config.undelivered s.free 0 = true)
    ((reads ∧ canArrive s t C.bar 1 = true ∧
        u = copyFails s t C .uncorrected (((lineReads x line).head?.map (·.1)).getD x.saddr)) ∨
     (¬reads ∧ ctlDsp x.ctl = 2 ∧
        chunkBy (fun s _ _ lo _ => .ok { s with sup := { s.sup with log := s.sup.log ++ [(6, lo, s.gt)] } })
          (modCopy s t id fun _ => without C slice line) t (without C slice line) slice line = .ok u))

/-- PENDING_RESULT_COMPLETE, ASYNC_TRAP, TBLLOAD_COMPLETE, QFENCE_ARRIVE, CQPOP_TAKE and LINK_DELIVERY_TIMEOUT (02 R37, 06
R162, R163, 09 R233, 13 R338, 16 R375, 19 R437). -/
def operationRules : Instr → Option (State → State → Prop)
  | .pendingResultComplete t g id => some fun s u => ∃ o, pendOf s t g id = some o ∧
      ((∃ mask, o.work = .qfence mask none ∧
          (∀ k < 5, mask.testBit k = true → classBusy (teamOf s t) g k id = false) ∧
          u = endFence s t g mask o) ∨
       (∀ mask, o.work ≠ .qfence mask none) ∧
         ((o.performed = true ∧ o.ack = false ∧ u = commit s t g o) ∨
          (o.performed = false ∧ o.memq = true ∧ memReady (groupOf s t g) id = true ∧
            u = closeDone (performMem s t g o) t g id)))
  | .asyncTrap t g => some fun s u => ∃ h rest, (groupOf s t g).asyncs = h :: rest ∧ running s t ∧
      u = raiseHeld (modGroup s t g fun G => { G with asyncs := rest }) t g h
  | .tblloadComplete t g id => some fun s u => ∃ o k va l rest, pendOf s t g id = some o ∧ o.work = .tblload k va ∧
      memReady (groupOf s t g) id = true ∧
      (tget ({} : FnBank) (coreOf s (teamCore (teamOf s t))).banks k).loader = l :: rest ∧ l.op = some id ∧ l.holders = [] ∧
      ((∃ kind a, bankRead s t g o va = .fail kind a ∧
          u = trapPending (modBank (endLoad s (teamCore (teamOf s t)) k id) (teamCore (teamOf s t)) k fun B =>
            { B with owned := false }) t g o kind o.lanes a) ∨
       ∃ s1 bs, bankRead s t g o va = .ok (s1, bs) ∧
          u = commit (queueRead (endLoad (setBank s1 (teamCore (teamOf s t)) k (teamOf s t).ctx va bs) (teamCore (teamOf s t)) k id)
            t g) t g { o with performed := true })
  | .qfenceArrive t g id => some fun s u => ∃ o mask b, pendOf s t g id = some o ∧ o.work = .qfence mask (some b) ∧
      (∀ k < 5, mask.testBit k = true → classBusy (teamOf s t) g k id = false) ∧ canArrive s t b 1 = true ∧
      u = arrive (endFence s t g mask o) t b 1 0
  | .cqpopTake t g id => some fun s u => ∃ o off, pendOf s t g id = some o ∧ o.work = .cqpop off ∧ o.performed = false ∧
      memReady (groupOf s t g) id = true ∧
      (cqCount (seen s t true) off ≠ 0 ∨
        ∀ m ∈ (seen s t true).marches, marchQueue (seen s t true) m ≠ some off) ∧
      u = takeEntries s t g o off
  | .linkDeliveryTimeout t g (.op id) => some fun s u => ∃ o, pendOf s t g id = some o ∧ o.performed = false ∧
      o.at_ + 2 ^ 20 ≤ s.gt ∧ opUndelivered s u t g o
  | .linkDeliveryTimeout t _ (.chunk id slice line) => some fun s u => chunkUndelivered s u t id slice line
  | .linkDeliveryTimeout t _ (.csum id) => some fun s u => ∃ k, ((teamOf s t).csums.find? fun k => k.id == id) = some k ∧
      k.sp = 2 ∧ k.at_ + 2 ^ 20 ≤ s.gt ∧ csumBlocked s (teamOf s t) k = false ∧ canArrive s t k.bar 1 = true ∧
      u = csumFails s t k .uncorrected k.saddr
  | .linkDeliveryTimeout t g (.wait p) => some fun s u => ∃ id va cmp cc acq d read key, (pathOf s t g p).valid = true ∧
      (pathOf s t g p).state = 5 ∧ (pathOf s t g p).wait = .addr id va cmp cc acq d read ∧ 2 ^ 20 ≤ (pathOf s t g p).wcount ∧
      running s t ∧ translate s (teamOf s t).ctx (asks s (teamOf s t).die) va .rd none = .key key ∧
      2 ^ 61 ≤ key ∧ key < 2 ^ 62 ∧ u = waitTrap s t g p 7 false va 0
  | _ => none

/-- A path in a wait on barrier b for the token: its wait is delivered a fault of the barrier, or ends as `fin` says, once
the phase is done, and in no tick in which a fault has been delivered there (10 R238, R242). -/
def barWait (s u : State) (t b tok : Nat) (fin : State) : Prop :=
  running s t ∧ phaseDone (tget ({} : Bar) (teamOf s t).bars b) tok = true ∧
    let B := tget ({} : Bar) (teamOf s t).bars b
    B.fltAt ≠ some s.gt ∧
    (((B.flt = true ∨ B.aflt = true) ∧ u = deliverFault s t b) ∨ (B.flt = false ∧ B.aflt = false ∧ u = fin))

/-- The path has retired its waiting word: it goes on by one word, and the group's stall clock starts again. -/
def waitEnded (s : State) (t g p : Nat) : State :=
  modGroup (modPath s t g p fun P => { P with state := 0, wait := .none, pc := P.pc + 4 }) t g fun G =>
    { G with hang := 0, hangFired := false }

/-- WAIT_TIMEOUT, HANG_DETECTOR and the ends of waits (04 R95, R99, R100, R109, R113, R114, 09 R234, 10 R252 to R256, 11
R287). -/
def waitRules : Instr → Option (State → State → Prop)
  | .waitTimeout t g p => some fun s u => running s t ∧ (teamOf s t).ctl = false ∧
      waitMet (teamOf s t) g (groupOf s t g) (pathOf s t g p) = some false ∧
      2 ^ (ctxOf s (teamOf s t).ctx).wl ≤ (pathOf s t g p).wcount ∧ u = waitTrap s t g p 8 false 0 0
  | .hangDetector t g => some fun s u => (teamOf s t).ctl = false ∧ (teamOf s t).away = .present ∧
      (groupOf s t g).hangFired = false ∧ 2 ^ (ctxOf s (teamOf s t).ctx).hl ≤ (groupOf s t g).hang ∧
      u = modGroup (logAppendIrq s (teamOf s t).ctx 3 { teamLog (teamOf s t) with gmask := 2 ^ g } [] true).1 t g fun G =>
        { G with hangFired := true }
  | .sleepWake t g p => some fun s u => (pathOf s t g p).valid = true ∧ (pathOf s t g p).state = 3 ∧
      (pathOf s t g p).wake = 0 ∧ running s t ∧ u = modPath s t g p fun P => { P with state := 0 }
  | .joinRelease t g => some fun s u => ∃ a, (∃ e ∈ validPaths (groupOf s t g), e.2.state = 1 ∧ e.2.pc = a) ∧
      (∀ e ∈ validPaths (groupOf s t g), e.2.state ≠ 0 ∧ e.2.state ≠ 6 ∧ (e.2.state = 1 → a ≤ e.2.pc)) ∧ running s t ∧
      u = modGroup s t g fun G => unpark G a
  | .joinAgeEscape t g p => some fun s u => (pathOf s t g p).valid = true ∧ (pathOf s t g p).state = 1 ∧
      255 ≤ (pathOf s t g p).age ∧ running s t ∧ u = modGroup s t g fun G => unpark G (pathOf s t g p).pc
  | .voteComplete t g p => some fun s u => ∃ d m k b, (pathOf s t g p).valid = true ∧
      (pathOf s t g p).wait = .vote d m k b ∧
      voteDone (groupOf s t g) (BitVec.ofNat 96 m) (BitVec.ofNat 96 k) = true ∧ running s t ∧
      u = modGroup (endVote s t g p (pathOf s t g p).pc d (BitVec.ofNat 96 m) (BitVec.ofNat 96 k) (BitVec.ofNat 96 b)) t g
        fun G => { G with hang := 0, hangFired := false }
  | .shuffleComplete t g p => some fun s u => ∃ d n need got own, (pathOf s t g p).valid = true ∧
      (pathOf s t g p).wait = .shfl d n need got own ∧ shflDone (groupOf s t g) need got own = true ∧ running s t ∧
      ((∃ s1, makeResident s t g p = .ok s1 ∧
          u = waitEnded (modGroup s1 t g fun G => writeShfl G (pathOf s t g p).fb d n need got own) t g p) ∨
       ∃ k m va, makeResident s t g p = .fail k m va ∧
          u = trapHere (spillSeen s t g k m va) t g p k m va 0 (pathOf s t g p).waitWord)
  | .waitaddrReread t g p => some fun s u => ∃ id va cmp cc acq d read, (pathOf s t g p).valid = true ∧
      (pathOf s t g p).state = 5 ∧ (pathOf s t g p).wait = .addr id va cmp cc acq d read ∧ running s t ∧
      memReady (groupOf s t g) id = true ∧
      let ty := (pathOf s t g p).gm.type
      let e := tyWidth ty / 8
      let T := teamOf s t
      let P := pathOf s t g p
      let w := whoOf T (groupOf s t g) P.pc false
      let seen := fun (key : Nat) => noteRead (compareData s w va e false) w va key e
      ((∃ k, translate s T.ctx (asks s T.die) va .rd none = .fail k ∧
          u = waitTrap (detectAt s T.ctx (kindCode k) va) t g p (kindCode k) false va 0) ∨
       ∃ key, translate s T.ctx (asks s T.die) va .rd none = .key key ∧
         ((laneBad s T.die P.gm.scope key e false = true ∧ u = waitTrap (detect s key e) t g p 7 false va 0) ∨
          laneBad s T.die P.gm.scope key e false = false ∧
            ((ccInt cc ty (readNat s.mem key e) cmp = true ∧
                let s1 := if acq then dropCopies (seen key) T.die P.gm.scope else seen key
                u = waitEnded (queueRead (putWaited s1 t g p d (tyRegs ty) (readNat s.mem key e)) t g) t g p) ∨
             (ccInt cc ty (readNat s.mem key e) cmp = false ∧ read = false ∧ u = readOnce (seen key) t g p) ∨
             (ccInt cc ty (readNat s.mem key e) cmp = false ∧ read = true ∧ u = seen key))))
  | .mwaitComplete t g p => some fun s u => ∃ id mask all, (pathOf s t g p).valid = true ∧
      (pathOf s t g p).wait = .tiles id mask all ∧ running s t ∧ mwaitBusy (teamOf s t) g id mask all = false ∧
      ((∃ n, faultedTile (teamOf s t) (maskTiles mask) = some n ∧
          u = deliverTile s t g p n (pathOf s t g p).waitAct (pathOf s t g p).waitWord) ∨
       (faultedTile (teamOf s t) (maskTiles mask) = none ∧ u = waitEnded s t g p))
  | .bwaitComplete t g p => some fun s u => ∃ b tok, (pathOf s t g p).valid = true ∧
      (pathOf s t g p).wait = .bwait b tok ∧ barWait s u t b tok (waitEnded s t g p)
  | .yieldResume t g p => some fun s u => ∃ b tok a, (pathOf s t g p).valid = true ∧
      (pathOf s t g p).wait = .yield b tok a ∧
      barWait s u t b tok (modGroup (modPath s t g p fun P => { P with state := 0, wbar := 0, wait := .none }) t g fun G =>
        { G with hang := 0, hangFired := false })
  | .barvHeldRelease t g p => some fun s u => ∃ b look d bytes tok, (pathOf s t g p).valid = true ∧
      (pathOf s t g p).wait = .barv b look d bytes tok ∧ barWait s u t b tok (releaseBarv s t g p b look d bytes)
  | _ => none

/-- What a native pass or an MDELTA does at its grant: performed, or its fault; nothing while a write is held by a migration. -/
def granted (s u aged : State) (t : Nat) (m : MOp) (out : Span State) : Prop :=
  (∃ s1, out = .ok s1 ∧ u = doneMop s1 t m) ∨ (∃ k va, out = .fail k va ∧ u = faultMop aged t m k va) ∨ (out = .hold ∧ u = s)

/-- The grants and completions of the MATRIX queue (11 R266, R267, R278, R279, R283, 13 R321). -/
def matrixRules : Instr → Option (State → State → Prop)
  | .passGrant cluster => some fun s u => ∃ t T y, nextGrant s cluster = some (t, T, y) ∧
      let aged := noteGrant s cluster (t, T, y)
      ((∃ m q, y = .net m q ∧ u = runNet aged t T m q) ∨
       ∃ m r, y = .pass m ∧ m.kind = .pass r ∧
        let w := whoOf T (groupOf aged t m.g) m.pc true
        let since := passFrom (groupOf aged t m.g) m
        ((isEmulated r = false ∧ granted s u aged t m (runPass aged t since cluster w r)) ∨
         isEmulated r = true ∧
          ((∃ s1 words n, fetchPass aged t since w r = .ok (s1, words, n) ∧
              u = addEmulated (modMop (matrixPast s1 t m.g) t m.id fun m =>
                { m with granted := true, entry := none, tick := aged.gt, buffer := words }) cluster 1 0) ∨
           (∃ k va, fetchPass aged t since w r = .fail k va ∧ u = faultMop aged t m k va) ∨
           (fetchPass aged t since w r = .hold ∧ u = s))))
  | .mdeltaGrant cluster => some fun s u => ∃ t T m r, nextGrant s cluster = some (t, T, .pass m) ∧ m.kind = .delta r ∧
      let aged := noteGrant s cluster (t, T, .pass m)
      granted s u aged t m (runDelta aged t (passFrom (groupOf s t m.g) m) cluster (whoOf T (groupOf s t m.g) m.pc true) r)
  | .tileOpGrant t g => some fun s u => ∃ m,
      ((teamOf s t).mops.find? fun m => m.g == g && !m.granted) = some m ∧ mopEntry m.kind = false ∧
      mopEligible (teamOf s t) m = true ∧ u = runTileOp s t m
  | .emulatedPassComplete t id => some fun s u => ∃ m r, mopOf (teamOf s t) id = some m ∧ m.kind = .pass r ∧
      m.granted = true ∧ m.done = false ∧
      u = addEmulated (doneMop (writePass s t r m.buffer) t m) m.cluster 0 (s.gt - m.tick)
  | .passComplete t id => some fun s u => ∃ m, mopOf (teamOf s t) id = some m ∧ m.done = true ∧
      (∀ b, m.bar = some b → canArrive s t b 1 = true) ∧
      let gone := modTeam s t fun T => { T with mops := T.mops.filter fun k => k.id != id }
      let s2 := if mopEntry m.kind = true ∧ m.flt = none ∧ (teamOf s t).away ≠ .dropped then
          modCtx gone (teamOf s t).ctx fun C => { C with epass := (C.epass + 1) % 2 ^ 64 }
        else gone
      u = match m.bar, m.flt with
        | none, _ => s2
        | some b, none => arrive s2 t b 1 0
        | some b, some idx => arrive (flagFault s2 t b idx) t b 1 0
  | _ => none

/-- The rest of PEND taken off a barrier whose collective has faulted (10 R249). -/
def takeBack (s : State) (t b left : Nat) : State := if left = 0 then s else arrive s t b 0 (-(left : Int))

/-- The log record of an engine's fault, then the flag at the barrier with the record's index, then the arrival (10 R249,
R250). -/
def faultArrive (s : State) (t b : Nat) (idx : Nat) : State := arrive (flagFault s t b idx) t b 1 0

/-- PIPE_DEPTH_UPDATE, COPY and CSUM by the skidder (10 R243, R248 to R251, R260). -/
def copyRules : Instr → Option (State → State → Prop)
  | .pipeDepthUpdate t => some fun s u => (teamOf s t).smax ≠ 0 ∧ (teamOf s t).pipeAt + 16384 ≤ s.gt ∧
      u = mirrorTail (modTeam s t fun T => { T with pd := nextDepth T, pipeAt := T.pipeAt + 16384, copySum := 0, copyN := 0,
                                                    relLast := none, relSum := 0, relN := 0 }) t
  | .copyCollectiveStart t id => some fun s u => ∃ C, copyOf (teamOf s t) id = some C ∧ canStart (teamOf s t) id = true ∧
      let C1 := startCopy s.gt C
      let s1 := modCopy s t id fun _ => C1
      ((C1.todo = [] ∧ canArrive s t C.bar 1 = true ∧ u = arrive (endCopy s1 t C1) t C.bar 1 0) ∨
       (¬(C1.todo = [] ∧ canArrive s t C.bar 1 = true) ∧ u = s1))
  | .copyChunkLand t id slice line => some fun s u => ∃ C, copyOf (teamOf s t) id = some C ∧ (slice, line) ∈ C.todo ∧
      chunkBlocked s (teamOf s t) C slice line = false ∧
      let C1 := { C with todo := C.todo.filter (· != (slice, line)) }
      chunkDo (modCopy s t id fun _ => C1) t C1 slice line = .ok u
  | .copyCollectiveArrive t id => some fun s u => ∃ C, copyOf (teamOf s t) id = some C ∧ C.started = true ∧ C.todo = [] ∧
      canArrive s t C.bar 1 = true ∧ u = arrive (endCopy s t C) t C.bar 1 0
  | .copyFault t id slice line => some fun s u => ∃ C k va, copyOf (teamOf s t) id = some C ∧ (slice, line) ∈ C.todo ∧
      chunkBlocked s (teamOf s t) C slice line = false ∧ canArrive s t C.bar 1 = true ∧
      chunkDo s t { C with todo := C.todo.filter (· != (slice, line)) } slice line = .fail k va ∧
      u = faultArrive (takeBack (endCopy (engineLog s t 1 k va C.bar).1 t C) t C.bar C.left) t C.bar
        (engineLog s t 1 k va C.bar).2
  | .csumComplete t id => some fun s u => ∃ k, ((teamOf s t).csums.find? fun k => k.id == id) = some k ∧
      csumBlocked s (teamOf s t) k = false ∧ canArrive s t k.bar 1 = true ∧
      let gone := fun (x : State) =>
        let y := modTeam x t fun T => { T with csums := T.csums.filter fun j => j.id != id }
        match pendOf y t k.g id with
        | some o => commit y t k.g { o with performed := true }
        | none => y
      let fails := fun (kind : TrapKind) (va : Nat) =>
        u = faultArrive (gone (engineLog s t 1 kind va k.bar).1) t k.bar (engineLog s t 1 kind va k.bar).2
      let out := spReadSince (copyFrom (teamOf s t) k.g k.born) 1 s t (whoOf (teamOf s t) (groupOf s t k.g) k.pc true) k.sp
        k.saddr k.saddr k.len
      ((landMeetsBad (seen s t true) k.sumrec 16 false = true ∧ fails .uncorrected k.sumrec) ∨
       (landMeetsBad (seen s t true) k.sumrec 16 false = false ∧
         ((∃ kind va, out = .fail kind va ∧ fails kind va) ∨
          ∃ s1 bs, out = .ok (s1, bs) ∧
            u = arrive (addSum (copyPast (gone s1) t [k.g]) t k.sumrec (sumOf (sumWords k.saddr bs))) t k.bar 1 0)))
  | _ => none

/-- An operation as it runs: captured from its slot when it first does (13 R316, R332). -/
def begun (T : Team) (n : Nat) (m : MarchOp) : MarchOp := if m.started then m else startMarch T n m

/-- The marcher's steps, with the neural requests that they form, requests and completions (13 R316 to R326, R332 to R337).
-/
def marchRules : Instr → Option (State → State → Prop)
  | .marchRayStep t id lane => some fun s u => ∃ m n, marchOf (teamOf s t) id = some m ∧ opSlot m.kind = some n ∧
      (m.started = true ∨ marchReady (teamOf s t) m = true) ∧
      let m1 := begun (teamOf s t) n m
      let s1 := modMarch s t id fun _ => m1
      (((m1.rays.find? fun r => r.lane == lane) = none ∧ u = s1) ∨
       ∃ r, (m1.rays.find? fun r => r.lane == lane) = some r ∧
         ((r.ticket ≠ none ∧ u = s1) ∨
          (r.ticket = none ∧ r.net ≠ none ∧ u = advanceNets s1 t id) ∨
          r.ticket = none ∧ r.net = none ∧
            ((∃ k o aff, m1.kind = .batch k o aff ∧ u = advanceNets (stepRay s1 t m1 r aff) t id) ∨
             ∃ k mode, m1.kind = .feval k mode ∧ u = advanceNets (stepLane s1 t m1 r mode) t id)))
  | .cqRequestAppend t id lane => some fun s u => let T := seen s t true
      ∃ m r, marchOf T id = some m ∧
      (m.rays.find? fun r => r.lane == lane) = some r ∧ r.ticket ≠ none ∧ r.appended = false ∧
      let off := m.prog.cqoff
      let h := landNat T off 64
      let tail := h / 2 ^ 32 % 2 ^ 32
      let entry := cqRing h + 64 * (tail % cqCap h)
      off + 64 ≤ T.lsz ∧ cqCap h ≠ 0 ∧ cqCount T off < cqCap h ∧
      u = modRay (landWrite (if entry + 64 ≤ T.lsz then landWrite s t entry (requestBytes m r) else s) t (off + 4)
        (leBytes ((tail + 1) % 2 ^ 32) 4)) t id lane fun r => { r with appended := true }
  | .cqRequestTimeout t id lane => some fun s u => ∃ m r, marchOf (teamOf s t) id = some m ∧
      (m.rays.find? fun r => r.lane == lane) = some r ∧ r.ticket ≠ none ∧ 2 ^ (ctxOf s (teamOf s t).ctx).wl ≤ r.wait ∧
      ((∃ n mode, m.kind = .feval n mode ∧ u = endLane s t id lane (noValue mode)) ∨
       ((∀ n mode, m.kind ≠ .feval n mode) ∧ u = endRay s t id lane 6 []))
  | .marchBatchArrive t id => some fun s u => ∃ m n o aff b, marchOf (teamOf s t) id = some m ∧ m.kind = .batch n o aff ∧
      m.bar = some b ∧ raysEnded m = true ∧ canArrive s t b 1 = true ∧ u = marchArrive (dropMarch s t id) t b m.fidx
  | .fevalComplete t id => some fun s u => ∃ m n mode, marchOf (teamOf s t) id = some m ∧ m.kind = .feval n mode ∧
      raysEnded m = true ∧
      ((pendOf (dropMarch s t id) t m.g id = none ∧ u = dropMarch s t id) ∨
       ∃ o, pendOf (dropMarch s t id) t m.g id = some o ∧
         u = commit (dropMarch s t id) t m.g { o with
           performed := true,
           res := o.keys.zip (m.rays.flatMap fun r =>
             (List.range (o.keys.length / m.rays.length)).map fun j => BitVec.ofNat 32 (r.out.getD j 0)) })
  | .fbindPerform t id => some fun s u => ∃ m slot land addr param cqoff o, marchOf (teamOf s t) id = some m ∧
      m.kind = .fbind slot land addr param cqoff ∧ pendOf s t m.g id = some o ∧ marchReady (teamOf s t) m = true ∧
      let out := fbindRead s t (whoOf (teamOf s t) (groupOf s t m.g) m.pc true) land addr
      let kept := { o with work := .fbind slot land addr param cqoff }
      ((∃ k va, out = .fail k va ∧ u = if land then trapOp (dropMarch s t id) t m.g kept k o.lanes va
          else trapPending (dropMarch s t id) t m.g kept k o.lanes va) ∨
       ∃ s1 img, out = .ok (s1, img) ∧
         let st := fbindStatus (teamOf s1 t) img cqoff
         let prog : ProgSlot := { bound := true, image := img.take (imgLen img), param := param, cqoff := cqoff }
         let bound := mirrorTail (modTeam s1 t fun T => { T with slots := tput T.slots slot prog }) t
         u = commit (dropMarch (if st = 0 then bound else s1) t id) t m.g
           { o with performed := true, res := o.keys.map fun k => (k, BitVec.ofNat 32 st) })
  | .buckPerform t id => some fun s u => ∃ m slot dst cap box b, marchOf (teamOf s t) id = some m ∧
      m.kind = .buck slot dst cap box ∧ m.bar = some b ∧ marchReady (teamOf s t) m = true ∧ canArrive s t b 1 = true ∧
      let x := fun (i : Nat) => ofF32 (box.getD i 0)
      let put := fun (r : State) (bs : List Byte) => if dst + bs.length ≤ (teamOf s t).lsz then landWrite r t dst bs else r
      let out := buckImage (marchEnv s t (startMarch (teamOf s t) slot m) .interval) (dropMarch s t id)
        ((List.range 3).map fun j => ⟨x j, x (j + 3)⟩)
      ((∃ s1 img, out = .ok (s1, img) ∧ u = arrive (put s1 (if img.length ≤ cap then img else [0, 0])) t b 1 0) ∨
       ∃ k va, out = .error (k, va) ∧
         let r := engineLog (put (dropMarch s t id) [0, 0]) t 3 k va b
         u = marchArrive r.1 t b (some r.2))
  | _ => none

/-- MERGE_JOB_START and MERGE_JOB_END: a job's next step; at its last one its record and its arrival (14 R345 to R349). -/
def mergeRules : Instr → Option (State → State → Prop)
  | .mergeJobStart t id => some fun s u => ∃ J, jobOf (teamOf s t) id = some J ∧ J.running = false ∧
      classBusy (teamOf s t) J.g 4 id = false ∧
      classHeld (tget ({} : Group) (teamOf s t).groups J.g) 4 id = false ∧
      jobsRunning s J.cluster < 4 ∧
      u = modJob s t id fun j => { j with running := true, from_ := pastNow s }
  | .mergeJobEnd t id => some fun s u => ∃ J, jobOf (teamOf s t) id = some J ∧ J.running = true ∧
      (∀ b, J.bar = some b → canArrive s t b 1 = true) ∧
      let out := mergeStep s t (whoOf (teamOf s t) (groupOf s t J.g) J.pc true) J
      ((∃ s1 J1, (out = .go s1 J1 ∨ out = .hold s1 J1) ∧ u = modJob s1 t id fun _ => J1) ∨
       ∃ s1 J1 st, out = .done s1 J1 st ∧
        let s2 := modTeam (mergeBack s1 t J1 st) t fun T => { T with jobs := T.jobs.filter fun j => j.id != id }
        u = match J.bar with
          | some b => arrive s2 t b 1 0
          | none => s2)
  | _ => none

/-- The packet i of queue q may begin as one of a type (15 R356, R358, R362): it is there and has not begun, the packets
before it in its queue have begun and, where it has BAR, have ended; where it is a LAUNCH, none of a higher priority is
ready. -/
def begins (s : State) (q i type : Nat) (P : Packet) : Prop := packetOf s q i = some P ∧ mayBegin s q i type = true

/-- Queues and packets (15 R354 to R362, 13 R330, R331). -/
def queueRules : Instr → Option (State → State → Prop)
  | .notifyWrite q => some fun s u => (queueOf s q).live = true ∧
      u = acceptMany q 64 (modQueue s q fun Q => { Q with seen := s.gt, notified := false })
  | .queueExamine q => some fun s u => (queueOf s q).live = true ∧
      u = acceptMany q 64 (modQueue s q fun Q => { Q with seen := s.gt, notified := false })
  | .launch q i => some fun s u => ∃ P, begins s q i 1 P ∧
      let Q := queueOf s q
      ((∃ s1 r, checkLaunch s Q.ctx P.raw = .bad s1 r ∧ u = failPacket (kernelBoundary (beginPacket s1 q i) Q.ctx) q i r) ∨
       ∃ s1 kd cb banks, checkLaunch s Q.ctx P.raw = .good s1 kd cb banks ∧
         let s2 := kernelBoundary (beginPacket s1 q i) Q.ctx
         let total := bits P.raw 223 192 * bits P.raw 255 224 * bits P.raw 287 256
         ((total = 0 ∧ u = finishPacket s2 q i) ∨
          (total ≠ 0 ∧ u = { modPacket s2 q i (fun P => { P with launch := some (dealFirst s2
              { id := s2.nextId, kd := kd, cb := cb, banks := banks, prio := Q.prio, seq := s2.nextId, start := s2.startDie,
                chunk := if Q.chunk = 0 then 64 else Q.chunk, total := total, began := pastNow s2 }) }) with
            startDie := (s2.startDie + 1) % 8, nextId := s2.nextId + 1 })))
  | .barrierAnd q i => some fun s u => ∃ P, begins s q i 2 P ∧ u = beginPacket s q i
  | .barrierAndComplete q i => some fun s u => ∃ P, packetOf s q i = some P ∧ P.begun = true ∧ P.fin = none ∧
      P.raw % 2 ^ 8 = 2 ∧
      ((∃ s1, readSignals (queueOf s q).ctx (barSignals P.raw) s = (s1, none) ∧ u = failPacket s1 q i 7) ∨
       ∃ s1 vs, readSignals (queueOf s q).ctx (barSignals P.raw) s = (s1, some vs) ∧
         (((∃ v ∈ vs, v.testBit 63 = true) ∧ u = failPacket s1 q i 9) ∨
          ((∀ v ∈ vs, v = 0) ∧ u = finishPacket s1 q i) ∨
          (¬(∃ v ∈ vs, v.testBit 63 = true) ∧ ¬(∀ v ∈ vs, v = 0) ∧ u = s1)))
  | .signal q i => some fun s u => ∃ P, begins s q i 3 P ∧
      let x := P.raw
      let op := x / 2 ^ 256 % 2 ^ 8
      let out := sysAtomic s (queueOf s q).ctx (x / 2 ^ 128 % 2 ^ 64) (signalValue op (x / 2 ^ 192 % 2 ^ 64))
      ((∃ k va, out = .fail k va ∧ u = failPacket (beginPacket (detectAt s (queueOf s q).ctx (kindCode k) va) q i) q i 7) ∨
       ∃ s1, out = .ok s1 ∧ u = finishPacket (beginPacket s1 q i) q i)
  | .raster q i => some fun s u => ∃ P, begins s q i 4 P ∧
      let x := P.raw
      let ctx := (queueOf s q).ctx
      let out := rasterAll ctx (x / 2 ^ 224 % 2 ^ 64) (x / 2 ^ 288 % 2 ^ 16) (x / 2 ^ 304 % 2 ^ 16) (x / 2 ^ 320 % 2 ^ 32)
        (x / 2 ^ 192 % 2 ^ 32) (x / 2 ^ 128 % 2 ^ 64) s
      out.2.1 = false ∧
        ((out.2.2 = true ∧ u = failPacket (beginPacket out.1 q i) q i 7) ∨
         (out.2.2 = false ∧ u = finishPacket (beginPacket out.1 q i) q i))
  | .marker q i => some fun s u => ∃ P, begins s q i 5 P ∧
      let s1 := beginPacket s q i
      u = finishPacket (traceOut { s1 with free := s1.free + 1 } (Config.traceDie s1.free % 8) s1.gt
        { type := 4, ctx := (queueOf s q).ctx, queue := q, pc := i }) q i
  | .packetComplete q i => some fun s u => ∃ P reason s1 r, packetOf s q i = some P ∧ P.fin = some reason ∧
      signalStep s (queueOf s q).ctx (pktSig P.raw) reason = some (s1, r) ∧
      let ctx := (queueOf s q).ctx
      let s2 := if r = 0 then s1 else noteEvent (logPacket s1 ctx q i r) ctx q i (32 + r)
      let s3 := noteEnd s2 ctx q i P (r != 0)
      let s4 := traceOut { s3 with free := s3.free + 1 } (Config.traceDie s3.free % 8) s3.gt
        { type := 3, ctx := ctx, queue := q, pc := i }
      u = resumeAfter (modQueue s4 q fun Q => { Q with pkts := tdel Q.pkts i, notified := true }) q i
  | _ => none

/-- Placement, the compactor, paging, invalidation and counters (04 R101, 07 R176, R177, 08 R191 to R206, 15 R363 to R365,
18 R413). -/
def placementRules : Instr → Option (State → State → Prop)
  | .teamPlace die priv => some fun s u => ∃ c core g, die < 8 ∧ (dieOf s die).out = false ∧
      firstPlaced s die priv (candidates s die) = some (c, core, g) ∧ u = placeCand s die priv c core g
  | .teamExit t => some fun s u => ∃ T, tfind s.teams t = some T ∧ teamDone T = true ∧
      let s0 := mapDivs { s with teams := tdel s.teams t } (teamCore T) t fun _ => none
      let left := leaveCore s0 T
      let s1 := if (T.groups.any fun G => G.2.swoff != 0) = true then
        (logAppend left T.ctx 4 (teamLog T) (exitRecord T s.gt)).1 else left
      u = if T.away = .dropped then s0 else launchEnd (modLaunch s1 T.queue T.pkt (exitFrom T.lin)) T.queue T.pkt
  | .compactorRun die => some fun s u => ∃ c k ms, lateCand s die = some c ∧ bestCore s die c = some (k, ms) ∧
      ¬(∃ k', (dieOf s die).compact = some k' ∧ fragmented s k' (candAsk c) = true ∧ planCore s k' (candAsk c) ≠ none) ∧
      u = modDie s die fun D => { D with compact := some k }
  | .compactorMove t what => some fun s u => ∃ T, tfind s.teams t = some T ∧ compacting s T = true ∧
      ((∃ g pb G, what = .block g pb ∧ tfind T.groups g = some G ∧ blockFree s T G pb = true ∧ pb ≠ G.pb ∧
          0 < divRoom (coreOf s (teamCore T)) ∧
          (∀ x ∈ coreTeams s (teamCore T), ∀ y ∈ x.groups, y.2.paused = 0) ∧
          u = modGroup (hold s t 1 g G.rb G.blk) t g fun G => { G with pb := pb, paused := 4 * G.blk }) ∨
       ∃ base f, what = .granule base ∧ landFree s T base = true ∧ T.moving = none ∧ granuleStart s T = some f ∧
          u = moveGranule s t base 0 f)
  | .pageMigration ctx va newPa => some fun s u =>
      (∃ m, moveAt s ctx va = some m ∧
        translated s (fun _ _ k => decide (m.old ≤ k) && decide (k < m.old + m.es.length * 2 ^ 15)) = false ∧
        u = invalidated { movePages s m with moves := s.moves.filter fun x => x != m } ctx m.first m.es.length) ∨
      (moveAt s ctx va = none ∧ ∃ C es old, tfind s.ctxs ctx = some C ∧
        moveEntries s.mem C.root va = some (es, old) ∧ newPa % (es.length * 2 ^ 15) = 0 ∧
        newPa + es.length * 2 ^ 15 ≤ deviceTop ∧ inHbm newPa ≠ inHbm old ∧ leavesOf s old (es.length * 2 ^ 15) = es.length ∧
        freeRange s newPa (es.length * 2 ^ 15) = true ∧
        let m : PageMove := { ctx := ctx, first := if es.length = 1 then va / 2 ^ 15 else va / 2 ^ 21 * 64, es := es,
                              old := old, new := newPa }
        let s1 := es.foldl (fun s x => storeMem s x.1 (leBytes (setBits x.2 8 8 1) 8)) s
        u = invalidated { s1 with moves := s1.moves ++ [m] } ctx m.first es.length)
  | .hotnessEpoch die => some fun s u => die < 8 ∧ (dieOf s die).halved + (dieOf s die).epoch ≤ s.gt ∧
      u = modDie s die fun D => { D with halved := s.gt, hot := D.hot.foldl (fun h e => tset 0 h e.1 (e.2 / 2)) [] }
  | .patrolScrub => some fun s u => u = s.bad.foldl (fun s w => detect s w 8) s
  | .igo ctx => some fun s u => (tfind s.ctxs ctx).isSome = true ∧ (ctxOf s ctx).idone = true ∧
      u = modCtx s ctx fun C => { C with idone := false }
  | .invalidationComplete ctx => some fun s u => (ctxOf s ctx).idone = false ∧
      let C := ctxOf s ctx
      translated s (fun c va _ => c == ctx && (C.ipages == 0 ||
        (decide (C.iva / 2 ^ 15 ≤ va / 2 ^ 15) && decide (va / 2 ^ 15 < C.iva / 2 ^ 15 + C.ipages)))) = false ∧
      u = repairCores (modCtx (invalidated s ctx (C.iva / 2 ^ 15) C.ipages) ctx fun C => { C with idone := true }) ctx
        (C.iva / 2 ^ 15) C.ipages
  | .snap ctx => some fun s u =>
      let p := pagesUnder s.mem 4 0 (ctxOf s ctx).root
      let C := ctxOf s ctx
      u = modCtx s ctx fun D => { D with snap := [C.gticks % 2 ^ 64, C.rbticks % 2 ^ 64, C.lgticks % 2 ^ 64,
        C.epass % 2 ^ 64, C.msteps % 2 ^ 64, p.1 % 2 ^ 32, p.2 % 2 ^ 32, s.gt % 2 ^ 64] }
  | _ => none

/-- A context that runs or whose save has failed, or one whose suspension STOP asks for, is asked to suspend (16 R380). -/
def mayAsk (C : Ctx) (reason : Nat) : Prop := C.sstate = 0 ∨ C.sstate = 5 ∨ (C.sstate = 1 ∧ reason = 2)

/-- The context's request to suspend: an earlier request keeps its tick. -/
def askedToSuspend (s : State) (c reason : Nat) : State :=
  modCtx s c fun C => { C with sstate := 1, susReq := some (reason, (C.susReq.getD (0, s.gt)).2),
                               maskTicks := if C.sstate = 1 then C.maskTicks else 0 }

/-- A suspension that has ended or is withdrawn: the request and the mask's clock go. -/
def unasked (s : State) (c state : Nat) : State :=
  modCtx s c fun C => { C with sstate := state, susReq := none, overrun := false, maskTicks := 0, preBy := none }

/-- Suspension, resume, core-state windows and control cores (16 R376, R377, R380 to R391). -/
def suspendRules : Instr → Option (State → State → Prop)
  | .sreq ctx => some fun s u => (tfind s.ctxs ctx).isSome = true ∧ mayAsk (ctxOf s ctx) 0 ∧ u = askedToSuspend s ctx 0
  | .rreq ctx => some fun s u =>
      let s1 := askResume s ctx
      ((ctxOf s1 ctx).sstate = 3 ∧ (ctxOf s ctx).sstate ≠ 3 ∧
        u = (teamsOf s1 ctx).foldl (fun s e => if isSaved e.2 then placeOne s e.2.die else s) s1) ∨
      (¬((ctxOf s1 ctx).sstate = 3 ∧ (ctxOf s ctx).sstate ≠ 3) ∧ u = s1)
  | .priorityPreempt ctx => some fun s u => ∃ p x, runningPrio s ctx = some p ∧ (ctxOf s ctx).prepol ≠ 0 ∧
      ((ctxOf s ctx).sstate = 0 ∨ (ctxOf s ctx).sstate = 5) ∧
      ((unplaced s).find? fun x => (queueOf s x.1).ctx != ctx && decide (p + (ctxOf s ctx).prepol ≤ x.2.2)) = some x ∧
      u = modCtx (askedToSuspend s ctx 1) ctx fun C => { C with preBy := some (x.1, x.2.1) }
  | .maskOverrun ctx => some fun s u => ∃ t T, maskedTeam s ctx = some (t, T) ∧ (ctxOf s ctx).sstate = 1 ∧
      (ctxOf s ctx).overrun = false ∧ 2 ^ (ctxOf s ctx).pml ≤ (ctxOf s ctx).maskTicks ∧
      u = modCtx (logAppend s ctx 6 { teamLog T with gmask := maskedGroups T } []).1 ctx fun C => { C with overrun := true }
  | .suspend ctx => some fun s u => let C := ctxOf s ctx
      let dropped := takenTeams s ctx true
      let saved := takenTeams s ctx false
      let room := C.saveLen * 4096
      let need := 4096 + saved.foldl (fun n e => n + imgEnd e.2) 0
      (C.taking = true ∧ u = takeStep s ctx) ∨
      C.taking = false ∧ mayTake s ctx = true ∧
        ((preemptOver s C = true ∧ u = unasked s ctx 0) ∨
         (preemptOver s C = false ∧ room < need ∧ u = unasked (logAppend s ctx 7 {} []).1 ctx 5) ∨
         (preemptOver s C = false ∧ need ≤ room ∧ divsFit s (saved ++ dropped) = true ∧
           u = takeContext s ctx saved dropped))
  | .coreStateWrite core off n value => some fun s u => core < 2560 ∧ n ≤ 8 ∧ off + n ≤ 0x20000 ∧
      u = windowWrite s (core / 320) (core % 320 * 0x20000 + off) (leBytes value n)
  | .controlCoreRestart die => some fun s u => die < 8 ∧ tfind s.teams (ctlKeyOf die) = none ∧
      u = { s with teams := tput s.teams (ctlKeyOf die) (ctlTeam die s.mem) }
  | _ => none

/-- The port runs a command with arguments, and none of the other port goes before it (19 R425). -/
def commanded (s : State) (port code a0 a1 : Nat) : Prop :=
  (cmdOf s port).run = some (code, a0, a1) ∧ cmdWaits s port = false

/-- The command ends with a status: none runs, the status stands (19 R425). -/
def ended (s : State) (port status : Nat) : State :=
  { s with cmds := tput s.cmds port { cmdOf s port with run := none, status := status } }

/-- The 128-bit-aligned descriptor of a context at a host address, if it can be read and passes 16 R368. -/
def goodContext (s : State) (port a : Nat) : Prop :=
  meetsBad s (hostKey port a) 128 false = false ∧ a % 128 = 0 ∧
    ctxDescBad (readNat s.mem (hostKey port a) 128) = false ∧
    tfind s.ctxs (descNum (readNat s.mem (hostKey port a) 128)) = none

/-- The descriptor of a queue at a host address, if it can be read and passes 15 R353. -/
def goodQueue (s : State) (port n a : Nat) : Prop :=
  let x := readNat s.mem (hostKey port a) 32
  meetsBad s (hostKey port a) 32 false = false ∧ a % 32 = 0 ∧ n < 2 ^ 12 ∧ tfind s.queues n = none ∧
    (tfind s.ctxs (bits x 137 128)).isSome = true ∧ queueDescBad x = false

/-- The commands, host writes and code objects (15 R353, 16 R367 to R369, 17 R398 to R409, 18 R419, 19 R424). -/
def commandRules : Instr → Option (State → State → Prop)
  | .createContext port => some fun s u => ∃ a0 a, commanded s port 1 a0 a ∧
      let x := readNat s.mem (hostKey port a) 128
      let C := applyDesc x { desc := hostKey port a, port := port, ptAt := pastNow s, icode := s.mem }
      ((goodContext s port a ∧ u = ended { s with ctxs := tput s.ctxs (descNum x) C } port 0) ∨
       (¬goodContext s port a ∧ u = ended s port 1))
  | .destroyContext port => some fun s u => ∃ c a, commanded s port 2 c a ∧
      let used := (∃ e ∈ s.queues, e.2.ctx = c) ∨ ∃ e ∈ teamsOf s c, e.2.away ≠ .dropped
      let s1 := disown s c
      ((tfind s.ctxs c = none ∧ u = ended s port 1) ∨
       (tfind s.ctxs c ≠ none ∧ used ∧ u = ended s port 2) ∨
       (tfind s.ctxs c ≠ none ∧ ¬used ∧
         u = ended { s1 with ctxs := tdel s1.ctxs c, teams := s1.teams.filter fun e => e.2.ctl || e.2.ctx != c } port 0))
  | .createQueue port => some fun s u => ∃ n a, commanded s port 3 n a ∧
      let Q := queueFrom (readNat s.mem (hostKey port a) 32) a s.gt
      ((goodQueue s port n a ∧ u = ended { s with queues := tput s.queues n Q } port 0) ∨
       (¬goodQueue s port n a ∧ u = ended s port 1))
  | .destroyQueue port => some fun s u => ∃ n a, commanded s port 4 n a ∧
      ((tfind s.queues n = none ∧ u = ended s port 1) ∨
       ∃ Q, tfind s.queues n = some Q ∧
         ((Q.pkts = [] ∧ u = ended { s with queues := tdel s.queues n } port 0) ∨ (Q.pkts ≠ [] ∧ u = ended s port 2)))
  | .reloadQueue port => some fun s u => ∃ n a, commanded s port 5 n a ∧
      ((tfind s.queues n = none ∧ u = ended s port 1) ∨
       ∃ Q, tfind s.queues n = some Q ∧
         let x := readNat s.mem (hostKey port Q.desc) 32
         let N := queueFrom x Q.desc s.gt
         let good := meetsBad s (hostKey port Q.desc) 32 false = false ∧ queueDescBad x = false ∧ N.hdr = Q.hdr ∧ N.ring = Q.ring ∧
           N.capl = Q.capl ∧ N.ctx = Q.ctx
         ((good ∧ u = ended (modQueue s n fun Q =>
             { Q with prio := N.prio, devq := N.devq, live := N.live, chunk := N.chunk }) port 0) ∨
          (¬good ∧ u = ended s port 1)))
  | .unknownCommand port => some fun s u => ∃ c a0 a1, commanded s port c a0 a1 ∧ (c = 0 ∨ 5 < c) ∧ u = ended s port 3
  | .binRecordWrite core bin off n value => some fun s u => core < 2560 ∧ bin < 64 ∧ off + n ≤ 64 ∧
      let put := fun (B : Bin) => ((leBytes value n).zip (List.range n)).foldl (fun B x => binPut B (off + x.2) x.1) B
      u = modCore s core fun K => { K with bins := tput K.bins bin (put (tget {} K.bins bin)) }
  | .registerWrite bar off n value => some fun s u => n ≤ 8 ∧
      u = ((leBytes value n).zip (List.range n)).foldl (fun s x => barPut s bar (off + x.2) x.1) s
  | .loadCodeObject ctx va pa obj => some fun s u => ∃ C, tfind s.ctxs ctx = some C ∧
      let r := loadObject s ctx C va pa obj
      u = { r.1 with loads := r.1.loads ++ [r.2] }
  | _ => none

/-- A response of the supervisor, with its code (19 R428, R432). -/
def answers (s : State) (code : Nat) (bs : List Byte) : State :=
  { s with sup := { s.sup with out := s.sup.out ++ [(code, bs)] } }

/-- The management commands that are no vendor commands (19 R428 to R431, R435, R437). Layouts that are SPDM 1.3's and not the
spec's, and what FIRMWARE_UPDATE does to the security version, are the model's choice (log entries 44, 70). -/
def managementRules : Instr → Option (State → State → Prop)
  | .getVersion => some fun s u => u = answers s 0x04 (Config.spdmBody 0x04 0)
  | .getCapabilities => some fun s u => u = answers s 0x61 (Config.spdmBody 0x61 0)
  | .negotiateAlgorithms offers => some fun s u =>
      (offers = true ∧ u = answers { s with sup := { s.sup with neg := 1 } } 0x63 algorithms) ∨
      (offers = false ∧ u = spdmError { s with sup := { s.sup with neg := 2 } })
  | .getDigests => some fun s u => u = answers s 0x01 ([1, 1] ++ sha3 certChain ++ Config.spdmBody 0x01 0)
  | .getCertificate off len => some fun s u =>
      let part := (certChain.drop off).take len
      u = answers s 0x02
        ([0] ++ openPart 0x02 0 1 ++ leBytes part.length 2 ++ leBytes (certChain.length - off - part.length) 2 ++ part)
  | .challenge transcript => some fun s u =>
      (s.sup.neg = 1 ∧ u = answers s 0x03
        ([0, 1] ++ sha3 certChain ++ Config.spdmBody 0x03 0 ++ signed "responder-challenge_auth signing" transcript)) ∨
      (s.sup.neg ≠ 1 ∧ u = spdmError s)
  | .getMeasurements index sign transcript => some fun s u =>
      (measureBlocks s index = none ∧ u = spdmError s) ∨
      ∃ bs, measureBlocks s index = some bs ∧
        let body := bs ++ Config.spdmBody 0x60 1
        ((sign = false ∧ u = answers s 0x60 body) ∨
         (sign = true ∧ s.sup.neg = 1 ∧ u = answers s 0x60 (body ++ signed "responder-measurements signing" transcript)) ∨
         (sign = true ∧ s.sup.neg ≠ 1 ∧ u = spdmError s))
  | .getVendorDefinedMessageSupport => some fun s u => u = answers s 0x06 (leBytes Config.enterprise.toNat 4)
  | .firmwareUpdate kind version image sig => some fun s u =>
      let F := tget ({} : Firmware) s.sup.fw kind
      let good := 1 ≤ kind ∧ kind ≤ 4 ∧ Config.verifies (shake256 64 image) sig = true ∧ F.version ≤ version
      Config.imageVersion image = version ∧
      ((good ∧ u = answers { s with sup := { s.sup with
        fw := tput s.sup.fw kind { F with other := some image, version := version, waits := true } } } 0x100
        (leBytes kind 1 ++ [0])) ∨
      (¬good ∧ u = answers s 0x100 (leBytes kind 1 ++ [1])))
  | .setPowerLimit watts => some fun s u =>
      (2000 ≤ watts ∧ watts ≤ 10000 ∧ u = answers { s with sup := { s.sup with power := watts } } 0x101 [0]) ∨
      (¬(2000 ≤ watts ∧ watts ≤ 10000) ∧ u = answers s 0x101 [1])
  | .ageingReport => some fun s u =>
      u = answers s 0x102 (((List.range 8).flatMap fun d => ageingBytes (tget {} s.sup.ageing d)) ++
        (List.range 16).flatMap fun k => leBytes (tget 0 s.sup.stackCe k) 4)
  | _ => none

/-- A vendor command answers its code with bit 7, the tag and a status; while the debug enable is 0 the status is 5
whatever the command, and only status 0 brings a body (19 R432). -/
def vendorAnswer (s : State) (code tag status : Nat) (body : List Byte) : State :=
  answers s (code + 128) (leBytes tag 1 ++ leBytes status 1 ++ [0] ++ body)

/-- A vendor command refused: it answers the status and does nothing else. -/
def refuses (s u : State) (code tag status : Nat) : Prop := u = vendorAnswer s code tag status []

/-- A vendor command with the debug enable: what it does as `rule` says. -/
def debugged (s u : State) (code tag : Nat) (rule : Prop) : Prop :=
  (s.sup.debug = false ∧ refuses s u code tag 5) ∨ (s.sup.debug = true ∧ rule)

/-- The record of a freeze's state (19 R433). -/
def freezeBytes (s : State) : List Byte :=
  let F := s.freeze
  let h := F.hit.getD { tick := 0, source := 0, num := 0, die := 0, loc := 0, pc := 0, ctx := 0 }
  leBytes (pack [(8, F.frozen.toNat), (8, F.src), (8, h.num), (8, h.die), (16, h.loc), (16, 0), (64, h.tick), (64, F.at_),
    (64, h.pc)]) 32

/-- The vendor commands and the freeze (18 R417 to R422, 19 R432 to R436). -/
def vendorRules : Instr → Option (State → State → Prop)
  | .setInstructionComparator tag die index enable all ctx addr => some fun s u => debugged s u 0x01 tag
      ((¬(die < 8 ∧ index < 8 ∧ ctx < 1024) ∧ refuses s u 0x01 tag 6) ∨
       (die < 8 ∧ index < 8 ∧ ctx < 1024 ∧ u = vendorAnswer (modDie s die fun D => { D with
         icmp := tput D.icmp index { en := enable, all := all, ctx := ctx, addr := addr } }) 0x01 tag 0 []))
  | .setDataComparator tag die index enable all ctx access engines first last => some fun s u => debugged s u 0x02 tag
      ((¬(die < 8 ∧ index < 8 ∧ ctx < 1024) ∧ refuses s u 0x02 tag 6) ∨
       (die < 8 ∧ index < 8 ∧ ctx < 1024 ∧ (access = 0 ∨ 3 < access) ∧ refuses s u 0x02 tag 2) ∨
       (die < 8 ∧ index < 8 ∧ ctx < 1024 ∧ 1 ≤ access ∧ access ≤ 3 ∧ u = vendorAnswer (modDie s die fun D => { D with
         dcmp := tput D.dcmp index { en := enable, all := all, ctx := ctx, access := access, engines := engines,
                                     first := first, last := last } }) 0x02 tag 0 []))
  | .armFreezeTick tag tick => some fun s u => debugged s u 0x03 tag
      ((tick = 0 ∧ u = vendorAnswer { s with freeze := { s.freeze with armed := none } } 0x03 tag 0 []) ∨
       (tick ≠ 0 ∧ tick ≤ s.gt ∧ refuses s u 0x03 tag 6) ∨
       (s.gt < tick ∧ u = vendorAnswer { s with freeze := { s.freeze with armed := some tick } } 0x03 tag 0 []))
  | .freezeStatus tag => some fun s u => debugged s u 0x04 tag (u = vendorAnswer s 0x04 tag 0 (freezeBytes s))
  | .scanRead tag addr len => some fun s u => debugged s u 0x05 tag
      ((s.freeze.frozen = false ∧ refuses s u 0x05 tag 3) ∨
       (s.freeze.frozen = true ∧ scanUnit addr = none ∧ refuses s u 0x05 tag 2) ∨
       ∃ x, s.freeze.frozen = true ∧ scanUnit addr = some x ∧
         ((scanLen len = false ∧ refuses s u 0x05 tag 2) ∨
          (scanLen len = true ∧ scanFits addr len x = false ∧ refuses s u 0x05 tag 6) ∨
          (scanLen len = true ∧ scanFits addr len x = true ∧
            u = vendorAnswer { s with free := s.free + 1 } 0x05 tag 0 (scanBytes s x len))))
  | .scanWrite tag addr data => some fun s u => debugged s u 0x06 tag
      ((s.freeze.frozen = false ∧ refuses s u 0x06 tag 3) ∨
       (s.freeze.frozen = true ∧ scanUnit addr = none ∧ refuses s u 0x06 tag 2) ∨
       ∃ x, s.freeze.frozen = true ∧ scanUnit addr = some x ∧
         ((scanLen data.length = false ∧ refuses s u 0x06 tag 2) ∨
          (scanLen data.length = true ∧ (scanFits addr data.length x = false ∨ scanRo data.length x = true) ∧
            refuses s u 0x06 tag 6) ∨
          (scanLen data.length = true ∧ scanFits addr data.length x = true ∧ scanRo data.length x = false ∧
            u = vendorAnswer (scanWrite s x data) 0x06 tag 0 [])))
  | .moduleResume tag => some fun s u => debugged s u 0x07 tag
      ((s.freeze.frozen = false ∧ refuses s u 0x07 tag 3) ∨
       (s.freeze.frozen = true ∧
         let hit := s.freeze.hit.filter fun h => decide (s.gt < h.tick + 64)
         let s1 := { s with freeze := { hit := hit, more := if hit.isSome then s.freeze.more else [],
                                        armed := s.freeze.armed.filter fun a => decide (s.gt < a) }, lines := [] }
         (((∀ h, s.freeze.hit = some h → s.gt < h.tick + 64) ∧ u = vendorAnswer s1 0x07 tag 0 []) ∨
          ∃ h, s.freeze.hit = some h ∧ h.tick + 64 ≤ s.gt ∧
            u = vendorAnswer (traceOut s1 h.die h.tick { type := 6, ctx := h.ctx, loc := h.loc, tag := h.num, pc := h.pc })
              0x07 tag 0 [])))
  | .startCapture tag ctx base len => some fun s u => debugged s u 0x10 tag
      (let busy := (captureOf s ctx).state = 1 ∨ (replayOf s ctx).state = 1
       let out := tfind s.ctxs ctx = none ∨ base % 4096 ≠ 0 ∨ len % 4096 ≠ 0 ∨ deviceTop < base + len
       (s.freeze.frozen = true ∧ refuses s u 0x10 tag 4) ∨
       (s.freeze.frozen = false ∧ busy ∧ refuses s u 0x10 tag 1) ∨
       (s.freeze.frozen = false ∧ ¬busy ∧ out ∧ refuses s u 0x10 tag 6) ∨
       (s.freeze.frozen = false ∧ ¬busy ∧ ¬out ∧
         u = vendorAnswer { s with captures := tput s.captures ctx { state := 1, base := base, len := len } } 0x10 tag 0 []))
  | .stopCapture tag ctx => some fun s u => debugged s u 0x11 tag
      ((1024 ≤ ctx ∧ refuses s u 0x11 tag 6) ∨
       (ctx < 1024 ∧ u = vendorAnswer { s with captures := tmod s.captures ctx fun K => { K with state := 0 } } 0x11 tag 0
         (captureCounts (captureOf s ctx))))
  | .captureStatus tag ctx => some fun s u => debugged s u 0x12 tag
      ((1024 ≤ ctx ∧ refuses s u 0x12 tag 6) ∨
       (ctx < 1024 ∧ u = vendorAnswer s 0x12 tag 0 (leBytes (captureOf s ctx).state 8 ++ captureCounts (captureOf s ctx))))
  | .startReplay tag ctx base result => some fun s u => debugged s u 0x13 tag
      (let K := captureOf s ctx
       let busy := K.state = 1 ∨ (replayOf s ctx).state = 1 ∨ ∃ e ∈ s.queues, e.2.ctx = ctx ∧ e.2.pkts ≠ []
       let out := tfind s.captures ctx = none ∨ K.base ≠ base ∨ result % 64 ≠ 0 ∨ deviceTop < result + 64 * K.pkts.length
       (s.freeze.frozen = true ∧ refuses s u 0x13 tag 4) ∨
       (s.freeze.frozen = false ∧ busy ∧ refuses s u 0x13 tag 1) ∨
       (s.freeze.frozen = false ∧ ¬busy ∧ out ∧ refuses s u 0x13 tag 6) ∨
       (s.freeze.frozen = false ∧ ¬busy ∧ ¬out ∧
         let ps := K.pkts.foldl (fun l p => insertPkt p l) []
         let s1 := K.pages.foldl (fun s p => restorePage s ctx p) s
         let s2 := (ps.zip (List.range ps.length)).foldl (fun s x => submit s x.2 x.1) s1
         let run := ps.map fun p => ({ queue := p.queue, idx := p.idx, raw := p.raw } : CapPkt)
         let R : Replay := { state := if ps = [] then 2 else 1, result := result, cap := ps, run := run }
         u = vendorAnswer (ps.foldl (fun s p => if packetBad p.raw then failPacket s p.queue p.idx 1 else s)
           { s2 with replays := tput s2.replays ctx R }) 0x13 tag 0 []))
  | .replayStatus tag ctx => some fun s u => debugged s u 0x14 tag
      ((1024 ≤ ctx ∧ refuses s u 0x14 tag 6) ∨
       (ctx < 1024 ∧ u = vendorAnswer s 0x14 tag 0 (leBytes (replayOf s ctx).state 8 ++ leBytes (replayOf s ctx).records 8 ++
         leBytes (replayOf s ctx).diverged 8)))
  | .moduleFreeze => some fun s u => ∃ t src, freezeAt s.freeze = some (t, src) ∧ s.freeze.frozen = false ∧ t ≤ s.gt ∧
      u = { s with freeze := { s.freeze with frozen := true, src := src, at_ := t, len := pastNow s } }
  | _ => none

/-- The 8-byte word of an address. -/
def wordAt (a : Nat) : Nat := a / 8 * 8

/-- A set of words with one more. -/
def oneMore {α : Type} [DecidableEq α] (l : List α) (w : α) : List α := if w ∈ l then l else w :: l

/-- Words of memory become uncorrectable, to be detected anew: a block of 32 bytes, which one code protects, or a word of a
line of a cache (08 R205, R206). -/
def marked (s : State) (ws : List Nat) : State :=
  { s with bad := ws.foldl oneMore s.bad, sup := { s.sup with found := s.sup.found.filter fun w => !ws.contains w } }

/-- A reset of a kind that an event raises, or that the management port asks for, as the policy of the configuration image and
the target let it (19 R433, R438): what it does is `act`, and one that was asked for is answered. -/
def requested (s u : State) (kind : Nat) (there : Prop) (act : State → State) : Prop :=
  let s1 := { s with free := s.free + 1 }
  (Config.resetRequest s.free = none ∧ there ∧ u = act s1) ∨
  ∃ tag, Config.resetRequest s.free = some tag ∧
    ((Config.resetPolicy (imageOf s 4) kind = false ∧ u = vendorAnswer s1 0x20 tag 5 []) ∨
     (Config.resetPolicy (imageOf s 4) kind = true ∧ there ∧ u = vendorAnswer (act s1) 0x20 tag 0 []) ∨
     (Config.resetPolicy (imageOf s 4) kind = true ∧ ¬there ∧ u = vendorAnswer s1 0x20 tag 6 []))

/-- Resets, links, the bus and errors (08 R201 to R206, 15 R364, 18 R409, 19 R423 to R427, R433, R436 to R439). -/
def moduleRules : Instr → Option (State → State → Prop)
  | .coldReset => some fun s u => requested s u 0 True fun s =>
      let ageing := tmap s.sup.ageing fun _ A => coldAgeing A
      let sup : Sup := { log := s.sup.log, out := s.sup.out, debug := s.sup.debug, fw := s.sup.fw, ageing := ageing }
      startImage (startImage (startImage (startImage
        { mem := s.mem.filter fun e => decide (2 ^ 60 ≤ e.1), bad := s.bad.filter fun w => decide (2 ^ 60 ≤ w),
          dies := (ageing.filter fun e => e.2.mexh).map fun e => (e.1, { out := true }), sup := sup, agenda := s.agenda,
          irqs := s.irqs, bus := s.bus, loads := s.loads, free := s.free, nextId := s.nextId } 1 true) 2 true) 3 true) 4 true
  | .dieReset die lost => some fun s u => requested s u 1 (die < 8) fun s =>
      resetDie s die lost (tget ({} : Ageing) s.sup.ageing die).mexh
  | .ioDieReset io => some fun s u => requested s u 2 (io < 2) fun s =>
      { startImage s 3 false with qio := if s.qio = io then 1 - io else s.qio, cmds := tdel s.cmds io,
                                  windows := s.windows.filter fun w => w.1 != io }
  | .linkReset link => some fun s u => requested s u 3 (link ≤ 13) fun s => s
  | .flitRetry _ => some fun s u => u = s
  | .voltageReplan die rcount vneed hours => some fun s u => die < 8 ∧
      let A := tget ({} : Ageing) s.sup.ageing die
      let A1 := { A with rcount := rcount, vneed := vneed.mv, hours := hours, vset := max A.vset (min vneed.mv 600),
                         mexh := A.mexh || decide (600 < vneed.mv) }
      let s1 := { s with sup := { s.sup with ageing := tput s.sup.ageing die A1 } }
      ((vneed.mv ≤ 600 ∧ u = s1) ∨ (600 < vneed.mv ∧ u = resetDie s1 die vneed.lost true))
  | .domainJoin gt => some fun s u => u = { s with gt := gt }
  | .peerRequest _ pa op => some fun s u => u = busAt s (some pa) op
  | .hostCxlMemRequest ctx va op => some fun s u =>
      (∃ e, walk s.mem (wordBad s) 0 (ctxOf s ctx).root va = .ok e ∧ bits e.1 7 6 = 0 ∧ bit e.1 10 = true ∧
        hostMakes op = true ∧ u = busAt s (whereIs s ctx va) op) ∨
      ((∀ e, walk s.mem (wordBad s) 0 (ctxOf s ctx).root va = .ok e →
        ¬(bits e.1 7 6 = 0 ∧ bit e.1 10 = true ∧ hostMakes op = true)) ∧ u = busAt s none op)
  | .hostSnoop port hpa data => some fun s u => ∃ d, data = some d ∧ u = putMem s (hostKey port hpa) d
  | .softError struck symbols => some fun s u => symbols ≠ 0 ∧
      ((∃ pa, struck = .memory pa ∧ wordAt pa < deviceTop ∧
          let s1 := corrected s (homeDie (wordAt pa))
          let n := wordAt pa / 2 ^ 36
          ((symbols = 1 ∧ u = if inHbm (wordAt pa) then { s1 with sup := { s1.sup with
              stackCe := tput s1.sup.stackCe n (tget 0 s1.sup.stackCe n + 1) } } else s1) ∨
           (symbols ≠ 1 ∧
             let ws := (List.range 4).map fun i => pa / 32 * 32 + 8 * i
             u = marked { s with lineBad := s.lineBad.filter fun x => !ws.contains x } ws))) ∨
       (∃ die key, struck = .line die key ∧ die < 8 ∧
          (wordAt key < deviceTop ∨ 2 ^ 60 ≤ wordAt key ∧ wordAt key < 2 ^ 62) ∧
          let home := wordAt key < deviceTop ∧ homeDie (wordAt key) = die
          ((symbols = 1 ∧ u = corrected s die) ∨
           (symbols ≠ 1 ∧ home ∧ u = marked { s with lineBad := oneMore s.lineBad (wordAt key) } [wordAt key]) ∨
           (symbols ≠ 1 ∧ ¬home ∧ u = { s with
             copyBad := oneMore s.copyBad (die, wordAt key),
             sup := { s.sup with found := s.sup.found.filter fun x => x != wordAt key } }))) ∨
       (∃ t off, struck = .landing t off ∧ tfind s.teams t ≠ none ∧ inPlace (teamOf s t) = true ∧
          wordAt off < (teamOf s t).lsz ∧
          ((symbols = 1 ∧ u = corrected s (teamOf s t).die) ∨
           (symbols ≠ 1 ∧ u = modTeam s t fun T => { T with landBad := oneMore T.landBad (wordAt off) }))) ∨
       (∃ t g row, struck = .row t g row ∧ tfind (teamOf s t).groups g ≠ none ∧ inPlace (teamOf s t) = true ∧
          ((symbols = 1 ∧ u = corrected s (teamOf s t).die) ∨
           (symbols ≠ 1 ∧ u = modGroup s t g fun G => { G with rowBad := oneMore G.rowBad row }))) ∨
       (∃ die, struck = .cleanCopy die ∧ u = corrected s die) ∨
       ∃ die pa, struck = .walkCache die pa ∧
          ((symbols = 1 ∧ u = corrected s die) ∨
           (symbols ≠ 1 ∧ u = { s with walkBad := oneMore s.walkBad (die, wordAt pa) })))
  | .hbmStackFault stack => some fun s u => stack < 16 ∧ stack ∉ s.downStacks ∧
      u = { s with downStacks := s.downStacks ++ [stack], sup := { s.sup with log := s.sup.log ++ [(3, stack, s.gt)] } }
  | _ => none

/-! ### Traps -/

/-- The record of a trap that a path raises at its own instruction: K and ASYNC are 0, CPC is the word after it (16 R372,
R373). -/
def recordAt (s : State) (t g p : Nat) (kind : TrapKind) (lanes : Mask) (addr info word : Nat) : TrapRec :=
  { tvalid := true, kind := kindCode kind, slot := (groupOf s t g).slot, gslot := (groupOf s t g).gslot, path := p,
    ctx := (teamOf s t).ctx, tick := s.gt, pc := (pathOf s t g p).pc, cpc := (pathOf s t g p).pc + 4,
    flm := lanes.toNat, addr := addr, info := info, word := word }

/-- The policy that a context's TRAPPOL gives a kind: 0 STOP, 1 SKIP, 2 HANDLER, 3 HOLD (16 R370). -/
def policyOf (C : Ctx) (kind : TrapKind) : Nat := C.trappol / 2 ^ (2 * (kindCode kind - 1)) % 4

/-- The trap goes to the driver first (16 R370). -/
def toDriver (C : Ctx) (kind : TrapKind) : Prop := C.demand = true ∧ (kind = .translation ∨ kind = .permission)

/-- Nothing that an instruction writes has changed in a group: no register, predicate, mask or mode. -/
def wroteNothing (s u : State) (t g : Nat) : Prop :=
  (∀ p key, regNow u t g p key = regNow s t g p key) ∧ (∀ n, predOf (groupOf u t g) n = predOf (groupOf s t g) n) ∧
  ∀ q, (pathOf u t g q).mask = (pathOf s t g q).mask ∧ (pathOf u t g q).origin = (pathOf s t g q).origin ∧
    (pathOf u t g q).gm = (pathOf s t g q).gm

/-! ### Numbers -/

/-- The least and the greatest value of an integer type (03 R65). -/
def least (t : Ty) : Int := if tySigned t then -(2 ^ (tyWidth t - 1) : Nat) else 0
def greatest (t : Ty) : Int := if tySigned t then (2 ^ (tyWidth t - 1) : Nat) - 1 else (2 ^ tyWidth t : Nat) - 1

/-! ### Barriers -/

/-- A phase is complete: every member has arrived, the counted arrivals are there, no bytes are outstanding (10 R237);
and the barrier expects something. -/
def complete (B : Bar) : Prop := B.garr = B.gmem ∧ B.ecnt ≤ B.earr ∧ B.pend = 0 ∧ ¬(B.gmem = 0 ∧ B.ecnt = 0)

/-! ### Page tables -/

/-- A valid entry that points to a next table: LEAF, TGT and the reserved bits clear (08 R191). -/
def pointsOn (e table : Nat) : Prop :=
  e % 4 = 1 ∧ e / 2 ^ 6 % 4 = 0 ∧ e / 2 ^ 11 % 16 = 0 ∧ e / 2 ^ 56 = 0 ∧ table = e / 2 ^ 15 % 2 ^ 41 * 2 ^ 15

/-- A valid level-3 leaf of this module's memory outside any run, and its page (08 R191). -/
def mapsPage (e page : Nat) : Prop :=
  e % 4 = 3 ∧ e / 2 ^ 5 % 8 = 0 ∧ e / 2 ^ 8 % 2 = 0 ∧ e / 2 ^ 11 % 16 = 0 ∧ e / 2 ^ 56 = 0 ∧
    page = e / 2 ^ 15 % 2 ^ 41 * 2 ^ 15 ∧ page < deviceTop

/-- The eight bytes at a physical address, little-endian, with no uncorrectable data among them, in memory or in the page-walk
caches of the die that walks, in no stack out of service. -/
def entryAt (s : State) (die a e : Nat) : Prop :=
  readNat s.mem a 8 = e ∧ a ∉ s.bad ∧ (die, a) ∉ s.walkBad ∧ (a < 2 ^ 40 → a / 2 ^ 36 ∉ s.downStacks)

/-- A virtual address of a context goes through four tables to a leaf entry e (08 R190): memory has not changed since the
last invalidation, so every walk reads the same entries; the 64 leaves around it are no contiguous run (08 R193). -/
def walksTo (s : State) (die c va e : Nat) : Prop :=
  ∃ e0 e1 e2 t1 t2 t3, (ctxOf s c).fresh = [] ∧ (ctxOf s c).ptAt = pastNow s ∧
    entryAt s die ((ctxOf s c).root + 8 * (va / 2 ^ 51 % 32)) e0 ∧ pointsOn e0 t1 ∧
    entryAt s die (t1 + 8 * (va / 2 ^ 39 % 4096)) e1 ∧ pointsOn e1 t2 ∧
    entryAt s die (t2 + 8 * (va / 2 ^ 27 % 4096)) e2 ∧ pointsOn e2 t3 ∧
    entryAt s die (t3 + 8 * (va / 2 ^ 15 % 4096)) e ∧
    ∀ i < 64, readNat s.mem (t3 + 8 * (va / 2 ^ 15 % 4096 / 64 * 64) + 8 * i) 8 / 2 ^ 5 % 2 = 0

/-! ### Steps -/

/-- An item of the agenda that waits: in a frozen module all but ticks and the events of the management port, the
supervisor and resets (18 R418, R419). -/
def stays (s : State) (x : Item) : Prop :=
  s.freeze.frozen = true ∧ x ≠ .tick ∧ ∀ i, x = .event i → mgmtEvent i = false

/-- The bits of a word that decode ignores (log entry 13, DEDUCED): the field of a barrier that the word's role bit says it
has none. -/
def ignoredBits : Instr → Nat
  | .mpass _ none _ | .mdelta _ none _ | .merge _ none _ => 0x000F0000
  | .mstore _ _ _ _ _ none _ | .mload _ _ _ _ _ none _ => 0x0000F000
  | .qfence _ _ none => 0x0000000F
  | _ => 0

/-! ### The fault log -/

/-- A log entry of one header unit and some body units fits (16 R379). -/
def fits (C : Ctx) (units : Nat) : Prop := (C.flHead + 2 ^ 32 - C.flTail) % 2 ^ 32 + 1 + units ≤ 2 ^ C.flogL

/-- Bad operands, a type that is not accepted and stochastic rounding trap, for every instruction of a lane table. -/
def LaneTraps (form : Instr → Option LaneForm) : Prop :=
  ∀ (i : Instr) (F : LaneForm) (s : State) (t g p : Nat), form i = some F → Issues i s t g p false →
    let P := pathOf s t g p
    let two := usesBad (F.uses P.gm) = true ∨ (isScalar F.d = true ∧ ∃ x ∈ F.srcs, perLane x.op = true)
    let three := F.types P.gm.type = false ∨ (F.rounds P.gm = true ∧ P.gm.round = .sto)
    let trap := fun kind => exec i s = .next (trapHere s t g p kind P.mask 0 0 ((encode i).getD 0))
    (two → trap .reservedOperand) ∧ (¬two → three → trap .illegalMode)

/-! ### Words that trap at their own checks -/

/-- One way in which a word traps: its operand uses, whether it waits for every open window of its path, the conditions on
state and operands, and the trap: its kind, its lanes, ADDR and INFO. -/
structure TrapForm where
  uses : Group → Path → List Use := fun _ _ => []
  all : Bool := false
  pre : Iss → Prop
  kind : Iss → TrapKind := fun _ => .reservedOperand
  lanes : Iss → Mask := fun c => c.act
  addr : Iss → Nat := fun _ => 0
  info : Iss → Nat := fun _ => 0
  base : Iss → State := fun c => c.s

/-- A word that traps takes no column of the drain port: the next reader has it (02 R30). -/
def columnKept (c : Iss) (s : State) : State :=
  match c.col with
  | none => s
  | some col => modGroup s c.t c.g fun G => { G with drain := { G.drain with held := true, hcol := col.1, buf := col.2 } }

/-- Every form of a table traps: where the word issues, its operands pass the common checks and the form's conditions hold,
exec answers the form's trap at the word, with none of the word's effect. -/
def TrapTable (forms : Instr → List TrapForm) : Prop :=
  ∀ (i : Instr) (F : TrapForm) (s : State) (t g p : Nat), F ∈ forms i →
    let us := F.uses (groupOf s t g) (pathOf s t g p)
    let c := view i s t g p us
    Issues i s t g p F.all → Operands s t g p us → F.pre c →
    exec i s = .next (trapHere (columnKept c (F.base c)) t g p (F.kind c) (F.lanes c) (F.addr c) (F.info c) ((encode i).getD 0))

/-- The virtual address of an access, or its landing offset (16 R372). -/
def virtualOf (c : Iss) (sp : Space) (x : Nat) : Nat :=
  match sp with
  | .priv => c.G.privBase + x
  | .const k => (c.T.banks.getD k {}).base + x
  | _ => x

/-- The active lanes whose access is misaligned, and those whose address is outside its space (07 R168, 08 R190). -/
def oddLanes (c : Iss) (e : Nat) (x : Nat → Nat) : Mask := lanesWhere c.act fun l => decide (x l % e ≠ 0)
def outLanes (c : Iss) (sp : Space) (e : Nat) (x : Nat → Nat) : Mask :=
  match sp with
  | .priv => lanesWhere c.act fun l => decide (c.T.psz < x l + e)
  | .global | .peer | .host => lanesWhere c.act fun l => decide (2 ^ 56 ≤ x l)
  | _ => 0

/-- Columns 1 and 2 of 07 R168, of a word whose operation would have room: the first column that fails decides for every lane
that fails it; ADDR is that of the lowest. Landing memory has neither: there lanes are switched off. -/
def accessTraps (uses : GM → List Use) (ok : GM → Prop) (look : Nat) (regs : Bool) (sp : Space) (size : GM → Nat)
    (x : Iss → Nat → Nat) : List TrapForm :=
  let odd := fun (c : Iss) => oddLanes c (size c.P.gm) (x c)
  let out := fun (c : Iss) => outLanes c sp (size c.P.gm) (x c)
  let ready := fun (c : Iss) => ok c.P.gm ∧ c.act ≠ 0 ∧ room c look regs ∧ sp ≠ .landing
  [{ uses := fun _ P => uses P.gm, pre := fun c => ready c ∧ odd c ≠ 0, kind := fun _ => .misaligned, lanes := odd,
     addr := fun c => virtualOf c sp (x c (lowest (odd c))) },
   { uses := fun _ P => uses P.gm, pre := fun c => ready c ∧ odd c = 0 ∧ out c ≠ 0,
     kind := fun _ => if sp = .priv then .permission else .translation, lanes := out,
     addr := fun c => virtualOf c sp (x c (lowest (out c))) }]

def loadTraps (look : Nat) (sp : Space) (disp : Nat) (d a : Operand) : List TrapForm :=
  accessTraps (loadUses sp d a)
    (fun gm => a ≠ .lane ∧ a ≠ .drain ∧ (isConst sp = true → isUniform a = true) ∧
      (isScalar d = true → isUniform a = true) ∧ gm.type ≠ .e2m1)
    look (d != .zero) sp (fun gm => tyWidth gm.type / 8) fun c => laneAddr c sp disp a
def storeTraps (look : Nat) (sp : Space) (disp : Nat) (d a : Operand) : List TrapForm :=
  accessTraps (storeUses sp d a) (fun gm => a ≠ .lane ∧ a ≠ .drain ∧ gm.type ≠ .e2m1) look false sp
    (fun gm => tyWidth gm.type / 8) fun c => laneAddr c sp disp a
def atomTraps (op : AtomOp) (look : Nat) (asp : AtomSp) (d a : Operand) : List TrapForm :=
  accessTraps (atomUses op (spaceOf asp) d a)
    (fun gm => a ≠ .lane ∧ a ≠ .drain ∧ d ≠ .lane ∧ d ≠ .drain ∧ (isScalar d = true → isUniform a = true) ∧
      atomType op gm.type = true)
    look (d != .zero) (spaceOf asp) (fun gm => tyWidth gm.type / 8) fun c => atomAddr c (spaceOf asp) a

/-- A guarded word that breaks a check of its own: Trap(ReservedOperand) for the active lanes. -/
def reserved1 (uses : List Use) (all : Bool) (pre : Iss → Prop) : TrapForm :=
  { uses := fun _ _ => uses, all := all, pre := fun c => c.act ≠ 0 ∧ pre c }

/-- A record of a landing offset that is misplaced, and one whose bytes hold uncorrectable data (11 R274). -/
def misplaced (c : Iss) (off n : Nat) : Prop := off % 8 ≠ 0 ∨ c.T.lsz < off + n
def unreadable (c : Iss) (off n : Nat) : Prop :=
  ¬misplaced c off n ∧ inCopied c.T true off n = false ∧ landMeetsBad c.T off n false = true

/-- Memory words (06 R162, 07 R166 to R168, R187, R188, 09 R229, R234, 15 R366). -/
def memoryTraps : Instr → List TrapForm
  | .ldp look disp d a => loadTraps look .priv disp d a
  | .ldk look k d a => loadTraps look (.const k) 0 d a
  | .ldg look _ _ d a => loadTraps look .global 0 d a
  | .ldn look _ _ d a => loadTraps look .peer 0 d a
  | .ldh look _ _ _ d a => loadTraps look .host 0 d a
  | .stp look disp d a => storeTraps look .priv disp d a
  | .stg look _ _ d a => storeTraps look .global 0 d a
  | .stn look _ _ d a => storeTraps look .peer 0 d a
  | .sth look _ _ _ d a => storeTraps look .host 0 d a
  | .aadd look _ _ sp d a => atomTraps .add look sp d a
  | .afadd look _ _ sp d a => atomTraps .fadd look sp d a
  | .amin look _ _ sp d a => atomTraps .min look sp d a
  | .amax look _ _ sp d a => atomTraps .max look sp d a
  | .aand look _ _ sp d a => atomTraps .and look sp d a
  | .aor look _ _ sp d a => atomTraps .or look sp d a
  | .axor look _ _ sp d a => atomTraps .xor look sp d a
  | .axchg look _ _ sp d a => atomTraps .xchg look sp d a
  | .acas look _ _ sp d a => atomTraps .cas look sp d a
  | .ainc look _ _ sp d a => atomTraps .inc look sp d a
  | .adec look _ _ sp d a => atomTraps .dec look sp d a
  | .cctl look .lineinv a => [
      { uses := fun _ _ => [{ op := a, n := 2 }],
        pre := fun c => c.act ≠ 0 ∧ room c look false ∧ outLanes c .global 1 (pairOf c a) ≠ 0, kind := fun _ => .translation,
        lanes := fun c => outLanes c .global 1 (pairOf c a),
        addr := fun c => pairOf c a (lowest (outLanes c .global 1 (pairOf c a))) }]
  | .waitaddr _ _ d a => [
      { uses := fun _ P => [{ op := d, n := tyRegs P.gm.type }, { op := a, n := 2 }], all := true,
        pre := fun c => isUniform d = true ∧ isUniform a = true ∧ waitType c.P.gm.type = true ∧ c.act ≠ 0 ∧
          pairOf c a 0 % (tyWidth c.P.gm.type / 8) ≠ 0,
        kind := fun _ => .misaligned, addr := fun c => pairOf c a 0 }]
  | .tblload _ k a => [
      { uses := fun _ _ => [{ op := a, n := 2 }],
        pre := fun c => isScalar a = true ∧ c.P.gm.ftb.toNat ≠ k % 2 ∧ c.act ≠ 0 ∧ pairOf c a 0 % 16 ≠ 0,
        kind := fun _ => .misaligned, addr := fun c => pairOf c a 0 }]
  | .qput _ d (.s k) => [reserved1 [{ op := d, src := false, dst := true }, { op := .s k, n := 2 }] false fun c =>
      isUniform d = true ∧ k % 2 = 0 ∧ k ≤ 46 ∧
        (rd c (.s k) 0 0 % 64 ≠ 0 ∨ c.T.lsz < rd c (.s k) 0 0 + 64 ∨ 2 ^ 12 ≤ rd c (.s k) 1 0)]
  | _ => []

/-- The first failing lane of a translation, with its trap. -/
def failOf : Lanes → TrapKind × Mask × Nat
  | .fail k m a => (k, m, a)
  | _ => (.translation, 0, 0)

/-- The faults of the accesses to call entries (05 R122, R132, R134). -/
def entryTrap (uses : List Use) (pre : Iss → Prop) (keys : Iss → Lanes) : TrapForm :=
  { uses := fun _ _ => uses, all := true,
    pre := fun c => pre c ∧ memOpsBefore c.s c.G = false ∧ ∃ k m a, keys c = .fail k m a,
    kind := fun c => (failOf (keys c)).1, lanes := fun c => (failOf (keys c)).2.1, addr := fun c => (failOf (keys c)).2.2 }

/-- A call's checks in order: the frame, the backing store, the entries (05 R123, R132). -/
def callTraps (uses : List Use) (sh : Nat) (pre : Iss → Prop) : List TrapForm :=
  let full := fun (c : Iss) => c.T.bsz < 384 * (c.P.fb + c.P.fs) + 1536 * (c.P.ld + 1) ∨ 255 < c.P.ld + 1
  [{ uses := fun _ _ => uses, all := true, pre := fun c => pre c ∧ c.P.fs < 16 * sh },
   { uses := fun _ _ => uses, all := true, pre := fun c => pre c ∧ 16 * sh ≤ c.P.fs ∧ full c,
     kind := fun _ => .backingStoreExhausted },
   entryTrap uses (fun c => pre c ∧ 16 * sh ≤ c.P.fs ∧ ¬full c)
     fun c => translateLanes c.s c.T.ctx c.T.die .group (callAccs c c.P.ld) 16 .wr (some 0) true]

/-- The active lanes whose destination is no multiple of 4 (04 R105). -/
def oddDests (c : Iss) (a : Operand) : Mask := lanesWhere c.act fun l => decide (rd c a 0 l % 4 ≠ 0)

/-- The active lanes whose return address is no multiple of 4 (05 R134). -/
def oddReturns (c : Iss) : Mask :=
  lanesWhere c.act fun l => decide (entryOf c (entryKeys c (c.P.ld - 1) .rd false) l % 4 ≠ 0)

/-- Control words, special registers, expressions and tables (04 R105, 05 R123, R126, R131 to R134, R138, 06 R157, R161, 16
R396, R397). The checks of SREAD and SWRITE come after the guard (log entry 17, DEDUCED). -/
def controlTraps : Instr → List TrapForm
  | .frame n => [
      { all := true, pre := fun c => n = 0 ∨ 192 < n ∨ c.G.blk < n, lanes := fun c => c.P.mask },
      { all := true, lanes := fun c => c.P.mask, kind := fun _ => .backingStoreExhausted,
        pre := fun c => n ≠ 0 ∧ n ≤ 192 ∧ n ≤ c.G.blk ∧ c.P.fs < n ∧ c.T.bsz < 384 * (c.P.fb + n) + 1536 * c.P.ld }]
  | .brx a => [
      { uses := fun _ _ => [{ op := a }], pre := fun c => (isVector a || isScalar a) = true ∧ oddDests c a ≠ 0,
        kind := fun _ => .misaligned, lanes := fun c => oddDests c a }]
  | .call sh _ => callTraps [] sh fun c => c.act ≠ 0
  | .callx sh a =>
      { uses := fun _ _ => [{ op := a }], all := true, kind := fun _ => .misaligned, lanes := fun c => oddDests c a,
        pre := fun c => (isVector a || isScalar a) = true ∧ c.act ≠ 0 ∧ oddDests c a ≠ 0 } ::
      callTraps [{ op := a }] sh fun c => (isVector a || isScalar a) = true ∧ c.act ≠ 0 ∧ oddDests c a = 0
  | .ret => [
      entryTrap [] (fun c => c.P.ld ≠ 0 ∧ c.act ≠ 0)
        fun c => translateLanes c.s c.T.ctx c.T.die .group (callAccs c (c.P.ld - 1)) 16 .rd (some 0) false,
      { all := true, kind := fun _ => .misaligned, lanes := oddReturns,
        pre := fun c => c.P.ld ≠ 0 ∧ c.act ≠ 0 ∧ memOpsBefore c.s c.G = false ∧
          translateLanes c.s c.T.ctx c.T.die .group (callAccs c (c.P.ld - 1)) 16 .rd (some 0) false =
            .ok (entryKeys c (c.P.ld - 1) .rd false) ∧ oddReturns c ≠ 0 }]
  | .sread d idx => [
      { uses := fun _ _ => [{ op := d, src := false, dst := true }], pre := fun c => c.act ≠ 0 ∧ special c idx 0 = none,
        kind := fun _ => .illegalInstruction },
      reserved1 [{ op := d, src := false, dst := true }] false fun _ => idx = 0x0A ∧ isScalar d = true]
  | .swrite idx a => [
      { uses := fun _ _ => [{ op := a }], kind := fun _ => .illegalInstruction,
        pre := fun c => isUniform a = true ∧ c.act ≠ 0 ∧ ¬(0x13 ≤ idx ∧ idx ≤ 0x15) ∧ ¬(0x20 ≤ idx ∧ idx ≤ 0x23) }]
  | .sysr d idx => [
      { uses := fun _ _ => [{ op := d, src := false, dst := true }], kind := fun _ => .illegalInstruction,
        pre := fun c => system c.G (ctxOf c.s c.T.ctx) idx = none, lanes := fun c => c.P.mask }]
  | .sysw idx a => [
      { uses := fun _ _ => [{ op := a }], kind := fun _ => .illegalInstruction, lanes := fun c => c.P.mask,
        pre := fun _ => a ≠ .drain ∧ idx ≠ 0x0B ∧ idx ≠ 0x11 }]
  | .vexpr d a b => [
      { uses := fun G P => exprUses d a b (exprMode G P b), kind := fun _ => .illegalInstruction,
        pre := fun c =>
          let x := rd c b 0 0 + 2 ^ 32 * rd c b 1 0
          exprBad d a b (exprMode c.G c.P b) = false ∧ c.P.gm.type = .f32 ∧ x.testBit 3 = exprMode c.G c.P b ∧
            c.act ≠ 0 ∧ exprOk x = false }]
  | .tbl d a b => [
      { uses := fun _ P => [{ op := d, n := tyRegs P.gm.type, src := false, dst := true }, { op := a, n := tyRegs P.gm.type },
                            { op := b }],
        kind := fun _ => .permission,
        pre := fun c =>
          let B := tget ({} : FnBank) (coreOf c.s (teamCore c.T)).banks c.P.gm.ftb.toNat
          isUniform b = true ∧ (isScalar d = true → perLane a = false) ∧ c.P.gm.type = .f32 ∧ c.P.gm.round ≠ .sto ∧
            c.act ≠ 0 ∧ ¬(B.owned = true ∧ B.owner = c.T.ctx) }]
  | _ => []

/-- Words on barriers, copies and the pipeline (10 R235, R254, R258 to R260). -/
def barrierTraps : Instr → List TrapForm
  | .yield b _ => [reserved1 [] true fun c => ¬hasBar c b]
  | .binit _ b a => [
      reserved1 [{ op := a }] false fun c => isUniform a = true ∧ ¬hasBar c b,
      { uses := fun _ _ => [{ op := a }], kind := fun _ => .barrierUnderpopulated, info := fun _ => b * 2 ^ 16,
        pre := fun c => isUniform a = true ∧ c.act ≠ 0 ∧ hasBar c b ∧
          rd c a 0 0 % 2 ^ 16 % 2 ^ c.T.groups.length = 0 ∧ bits (rd c a 0 0) 23 16 = 0 }]
  | .barv _ b d a => [reserved1 [{ op := d, src := false, dst := true }, { op := a }] false fun c =>
      isUniform d = true ∧ isUniform a = true ∧ ¬hasBar c b]
  | .bwait b cur a => [reserved1 [{ op := a }] true fun c => isUniform a = true ∧ (cur = true → a = .zero) ∧ ¬hasBar c b]
  | .btest b _ cur a => [reserved1 [{ op := a }] false fun c => isUniform a = true ∧ (cur = true → a = .zero) ∧ ¬hasBar c b]
  | .bexp _ b a => [reserved1 [{ op := a }] false fun c => isUniform a = true ∧ ¬hasBar c b]
  | .qfence _ _ (some b) => [{ pre := fun c => ¬hasBar c b }]
  | .copy _ b _ a =>
      let slice := fun (c : Iss) => sliceOf c c.s.nextId (sliceRegs c a)
      let busy := fun (c : Iss) => isUniform a = true ∧ hasBar c b ∧ (∃ k, a = .s k ∧ k % 8 = 0 ∧ k ≤ 40) ∧ c.act ≠ 0 ∧
        ¬(rd c a 4 0 = 0 ∧ rd c a 5 0 = 0xFFFFFFFF)
      [{ uses := fun _ _ => [{ op := a }], pre := fun c => isUniform a = true ∧ ¬hasBar c b },
       { uses := fun _ _ => [{ op := a }], lanes := fun c => c.P.mask,
         pre := fun c => isUniform a = true ∧ hasBar c b ∧ ¬∃ k, a = .s k ∧ k % 8 = 0 ∧ k ≤ 40 },
       { uses := fun _ _ => [{ op := a }], pre := fun c => busy c ∧ copyBad c.T (sliceRegs c a) (slice c) = true },
       { uses := fun _ _ => [{ op := a }], kind := fun _ => .misaligned,
         pre := fun c => busy c ∧ copyBad c.T (sliceRegs c a) (slice c) = false ∧
           ((slice c).layout.isSome = true → inCopied c.T true (rd c a 5 0) 32 = false) ∧
           (slice c).daddr % dstSize (slice c) ≠ 0 }]
  | .csum _ b a => [
      reserved1 [{ op := a }] false fun c => isUniform a = true ∧ ¬hasBar c b,
      reserved1 [{ op := a }] false fun c => isUniform a = true ∧ hasBar c b ∧
        ((¬∃ k, a = .s k ∧ k % 8 = 0 ∧ k ≤ 40) ∨ csumBad c.T (sliceRegs c a) = true)]
  | .pipe d => [
      { uses := fun _ _ => [{ op := d, src := false, dst := true }], kind := fun _ => .illegalInstruction,
        pre := fun c => isUniform d = true ∧ c.T.smax = 0, lanes := fun c => c.P.mask }]
  | .piperel => [{ kind := fun _ => .illegalInstruction, pre := fun c => c.T.smax = 0, lanes := fun c => c.P.mask }]
  | _ => []

/-- MPASS and MDELTA (11 R268, R274, 12 R299). -/
def passTraps (bar : Option Nat) (a : Operand) (bad : Iss → Nat → Bool) : List TrapForm :=
  let rec_ := fun (c : Iss) => landNat c.T (rd c a 0 0) 128
  let idx := fun (c : Iss) => bits (rec_ c) 807 776
  let ok := fun (c : Iss) => isUniform a = true ∧ hasOptBar c bar
  [reserved1 [{ op := a }] false fun c => isUniform a = true ∧ (¬hasOptBar c bar ∨ misplaced c (rd c a 0 0) 128),
   { uses := fun _ _ => [{ op := a }], kind := fun _ => .uncorrected, addr := fun c => rd c a 0 0,
     pre := fun c => c.act ≠ 0 ∧ ok c ∧ unreadable c (rd c a 0 0) 128 },
   reserved1 [{ op := a }] false fun c => ok c ∧ recordOk c a 128 ∧ bad c (rec_ c) = true,
   { uses := fun _ _ => [{ op := a }], kind := fun _ => .uncorrected, addr := idx,
     pre := fun c => c.act ≠ 0 ∧ ok c ∧ recordOk c a 128 ∧ bad c (rec_ c) = false ∧ (recordOf c.T (rec_ c)).idxen = true ∧
       landMeetsBad c.T (idx c) 192 false = true }]

/-- A faulted tile is delivered at the path that names it: TFLT is cleared; INFO is the tile (11 R279). -/
def tileTraps (uses : List Use) (all : Bool) (pre : Iss → Prop) (tiles : Iss → List Nat) : TrapForm :=
  let tile := fun (c : Iss) => (faultedTile c.T (tiles c)).getD 0
  let word := fun (c : Iss) => tget 0 c.T.tstat (tile c)
  { uses := fun _ _ => uses, all := all,
    pre := fun c => c.act ≠ 0 ∧ pre c ∧ ∃ n, faultedTile c.T (tiles c) = some n,
    kind := fun c => if bits (word c) 2 1 = 1 then .translation else if bits (word c) 2 1 = 3 then .uncorrected else .permission,
    info := fun c => tile c * 2 ^ 16,
    base := fun c => modTeam c.s c.t fun T => { T with tstat := tset 0 T.tstat (tile c) (setBits (word c) 0 0 0) } }

/-- MSTORE and MLOAD, their checks in order (11 R286). -/
def moveTraps (n : Nat) (glob col pair : Bool) (bar : Option Nat) (a : Operand) : List TrapForm :=
  let e := if pair then 8 else 4
  let line := if col then 96 * e else 64 * e
  let tiles := if pair then [n, n + 1] else [n]
  let addr := fun (c : Iss) => rd c a 0 0 + 2 ^ 32 * rd c a 1 0
  let uses : List Use := [{ op := a, n := 2 }]
  let scal := ∃ k, a = .s k ∧ k % 2 = 0 ∧ k ≤ 44
  let two := fun (c : Iss) => (∀ m ∈ tiles, m < c.T.ntiles) ∧ (pair = true → n % 2 = 0) ∧ hasOptBar c bar ∧
    rd c a 2 0 % e = 0 ∧ line ≤ rd c a 2 0
  let four := fun (c : Iss) => glob = false → rd c a 1 0 = 0 ∧
    addr c + ((if col then 63 else 95) * rd c a 2 0 + line) ≤ c.T.lsz
  [reserved1 uses false fun c => scal ∧ ¬two c,
   { uses := fun _ _ => uses, kind := fun _ => .misaligned, addr := addr,
     pre := fun c => c.act ≠ 0 ∧ scal ∧ two c ∧ addr c % e ≠ 0 },
   reserved1 uses false fun c => scal ∧ two c ∧ addr c % e = 0 ∧ ¬four c,
   tileTraps uses false (fun c => scal ∧ two c ∧ addr c % e = 0 ∧ four c) fun _ => tiles]

/-- Words of the matrix engine and of coppice buffers (11 R279, R284 to R287, 12 R300). -/
def matrixTraps : Instr → List TrapForm
  | .mpass _ bar a => passTraps bar a fun c x => passBad c.T x
  | .mdelta _ bar a => passTraps bar a deltaBad
  | .mzero _ n => [reserved1 [] false fun c => c.T.ntiles ≤ n]
  | .mdrain _ n => [reserved1 [] false fun c => c.T.ntiles ≤ n, tileTraps [] false (fun c => n < c.T.ntiles) fun _ => [n]]
  | .mstore _ n glob col pair bar a => moveTraps n glob col pair bar a
  | .mload _ n glob col pair bar a => moveTraps n glob col pair bar a
  | .mwait tile =>
      let mask := fun (c : Iss) => match tile with
        | some n => if c.G.tilesNamed.testBit n then 2 ^ n else 0
        | none => c.G.tilesNamed
      [reserved1 [] true fun c => ∃ n, tile = some n ∧ c.T.ntiles ≤ n,
       tileTraps [] true (fun c => (∀ n, tile = some n → n < c.T.ntiles) ∧
         mwaitBusy c.T c.g c.s.nextId (mask c) tile.isNone = false) fun c => maskTiles (mask c)]
  | .cbind _ d a =>
      let uses : List Use := [{ op := d, src := false, dst := true }]
      let block := fun (c : Iss) => bindBlock (bindRegs c a)
      let one := fun (c : Iss) => isUniform d = true ∧ c.act ≠ 0 ∧ eight a ∧ bindBad (bindRegs c a) = false
      let weights := fun (c : Iss) => weightWatches c.s c.T.ctx c.T.die (block c)
      let area := fun (c : Iss) => areaSpan c.s c.T.ctx c.T.die (block c)
      let why := fun (c : Iss) => match weights c, area c with
        | .error x, _ => x
        | _, .fail k va => (k, va)
        | _, _ => (.translation, 0)
      [reserved1 uses false fun c => isUniform d = true ∧ (¬eight a ∨ bindBad (bindRegs c a) = true),
       { uses := fun _ _ => uses, kind := fun _ => .misaligned, addr := fun c => (block c).darea,
         pre := fun c => one c ∧ (block c).darea % 4096 ≠ 0 },
       { uses := fun _ _ => uses, kind := fun c => (why c).1, addr := fun c => (why c).2,
         pre := fun c => one c ∧ (block c).darea % 4096 = 0 ∧
           ((∃ x, weights c = .error x) ∨ (∃ w, weights c = .ok w) ∧ ∃ k va, area c = .fail k va) }]
  | _ => []

/-- A callable queue's header, its checks in order (13 R323, R338). -/
def headerTraps (uses : List Use) (ok : Prop) (a : Operand) : List TrapForm :=
  let off := fun (c : Iss) => rd c a 0 0
  let placed := fun (c : Iss) => off c % 64 = 0 ∧ off c + 64 ≤ c.T.lsz
  [reserved1 uses false fun c => ok ∧ ¬placed c,
   { uses := fun _ _ => uses, kind := fun _ => .uncorrected, addr := off,
     pre := fun c => c.act ≠ 0 ∧ ok ∧ placed c ∧ landMeetsBad c.T (off c) 64 false = true },
   reserved1 uses false fun c => ok ∧ placed c ∧ landMeetsBad c.T (off c) 64 false = false ∧ cqHeaderBad c.T (off c) = true]

/-- BOXT and TRIT: the accesses of their nodes (13 R340, R341). -/
def rayTraps (look nd align : Nat) (d a : Operand) : List TrapForm :=
  accessTraps (fun _ => [{ op := d, n := nd, src := false, dst := true }, { op := a, n := 10 }])
    (fun _ => vecAt d nd ∧ vecAt a 2) look true .global (fun _ => align) fun c => pairOf c (vecPlus a 8)

/-- Words of the marcher, fields and the merge unit (13 R332 to R343, 14 R345, R350). -/
def marchTraps : Instr → List TrapForm
  | .march _ b d a => [reserved1 [{ op := d, n := 8 }, { op := a, n := 2 }] false fun c =>
      vecAt d 2 ∧ isScalar a = true ∧ (¬hasBar c b ∨ slotUnbound c (rd c a 1 0 % 4) = true ∨ bits (rd c a 1 0) 31 3 ≠ 0 ∨
        rd c a 0 0 % 32 ≠ 0 ∨ c.T.lsz < rd c a 0 0 + 3072)]
  | .buck _ b slot a => [reserved1 [{ op := a, n := 8 }] false fun c =>
      eight a ∧ (¬hasBar c b ∨ slotUnbound c slot = true ∨ rd c a 0 0 % 8 ≠ 0 ∨ c.T.lsz < rd c a 0 0 + rd c a 1 0 ∨
        boxBad ((List.range 6).map fun i => rd c a (i + 2) 0) = true)]
  | .feval _ mode slot d a => [reserved1 [{ op := d, n := (fevalRegs mode).2.1, src := false, dst := true },
                                          { op := a, n := (fevalRegs mode).1 }] false fun c =>
      vecAt d (fevalRegs mode).2.2.2 ∧ vecAt a (fevalRegs mode).2.2.1 ∧ slotUnbound c slot = true]
  | .fbind _ _ land d a => [
      reserved1 [{ op := d, src := false, dst := true }, { op := a, n := 4 }] false fun c =>
        isUniform d = true ∧ isScalar a = true ∧ land = true ∧
          (rd c a 0 0 % 4 ≠ 0 ∨ rd c a 1 0 ≠ 0 ∨ c.T.lsz < rd c a 0 0 + 32),
      { uses := fun _ _ => [{ op := d, src := false, dst := true }, { op := a, n := 4 }], kind := fun _ => .misaligned,
        pre := fun c => isUniform d = true ∧ isScalar a = true ∧ c.act ≠ 0 ∧ land = false ∧ rd c a 0 0 % 4 ≠ 0,
        addr := fun c => rd c a 0 0 + 2 ^ 32 * rd c a 1 0 }]
  | .cqpop _ d a => headerTraps [{ op := d, n := 10, src := false, dst := true }, { op := a }] (vecAt d 2 ∧ isUniform a = true) a
  | .cqret _ d a => headerTraps [{ op := d, n := 6 }, { op := a }] (vecAt d 2 ∧ isUniform a = true) a
  | .boxt look d a => rayTraps look 2 128 d a
  | .trit look _ d a => rayTraps look 4 4 d a
  | .visw look d a => accessTraps (fun _ => [{ op := d, n := 2, dst := true }, { op := a, n := 2 }])
      (fun _ => isVector d = true ∧ isVector a = true) look true .global (fun _ => 8) fun c => pairOf c a
  | .vfetch look _ d a =>
      let uses : List Use := [{ op := d, n := 4, src := false, dst := true }, { op := d, n := 3 }, { op := a }]
      let desc := fun (c : Iss) => landNat c.T (rd c a 0 0) 32
      let ok := fun (c : Iss) => vecAt d 4 ∧ isUniform a = true ∧ memOpsBefore c.s c.G = false
      let odd := fun (c : Iss) (l : Nat) => (fetchAddrs (desc c) (laneRegs c d 3 l)).find? fun y => y % 4 != 0
      let lanes := fun (c : Iss) => lanesWhere c.act fun l => (odd c l).isSome
      [reserved1 uses false fun c => ok c ∧ misplaced c (rd c a 0 0) 32,
       { uses := fun _ _ => uses, kind := fun _ => .uncorrected, addr := fun c => rd c a 0 0,
         pre := fun c => c.act ≠ 0 ∧ ok c ∧ unreadable c (rd c a 0 0) 32 },
       reserved1 uses false fun c => ok c ∧ recordOk c a 32 ∧ descBad (desc c) = true,
       { uses := fun _ _ => uses, kind := fun _ => .misaligned, lanes := lanes,
         pre := fun c => c.act ≠ 0 ∧ ok c ∧ recordOk c a 32 ∧ descBad (desc c) = false ∧ room c look true ∧ lanes c ≠ 0,
         addr := fun c => (odd c (lowest (lanes c))).getD 0 }]
  | .merge _ bar a =>
      let ok := fun (c : Iss) => isUniform a = true ∧ hasOptBar c bar
      [reserved1 [{ op := a }] false fun c => isUniform a = true ∧ (¬hasOptBar c bar ∨ misplaced c (rd c a 0 0) 128),
       { uses := fun _ _ => [{ op := a }], kind := fun _ => .uncorrected, addr := fun c => rd c a 0 0,
         pre := fun c => c.act ≠ 0 ∧ ok c ∧ unreadable c (rd c a 0 0) 128 },
       reserved1 [{ op := a }] false fun c => ok c ∧ recordOk c a 128 ∧ jobBad (landNat c.T (rd c a 0 0) 128) = true]
  | .mstat _ d a =>
      let uses : List Use := [{ op := d, n := 4, src := false, dst := true }, { op := a }]
      let ok := isScalar d = true ∧ isUniform a = true
      [reserved1 uses false fun c => ok ∧ misplaced c (rd c a 0 0) 128,
       { uses := fun _ _ => uses, kind := fun _ => .uncorrected, addr := fun c => rd c a 0 0,
         pre := fun c => c.act ≠ 0 ∧ ok ∧ ¬misplaced c (rd c a 0 0) 128 ∧ inCopied c.T true (rd c a 0 0) 128 = false ∧
           (∀ j ∈ c.T.jobs, j.off ≠ rd c a 0 0) ∧ landMeetsBad c.T (rd c a 0 0 + 64) 16 false = true }]
  | _ => []

/-! ### Rules on operands and types -/

/-- The rules of an entry on its operands and its type beyond the common ones (02 R25, R26, R34). -/
structure RuleForm where
  uses : Group → Path → List Use
  all : Bool := false
  ok : Group → Path → Bool := fun _ _ => true
  types : GM → Bool := fun _ => true

/-- Every word of a table of rules that breaks one traps for its path's whole mask: Trap(ReservedOperand) for its operands,
else Trap(IllegalMode) for its type (02 R49). -/
def RuleTable (form : Instr → Option RuleForm) : Prop :=
  ∀ (i : Instr) (F : RuleForm) (s : State) (t g p : Nat), form i = some F → Issues i s t g p F.all →
    let G := groupOf s t g
    let P := pathOf s t g p
    let two := usesBad (F.uses G P) = true ∨ F.ok G P = false
    let trap := fun kind => exec i s = .next (trapHere s t g p kind P.mask 0 0 ((encode i).getD 0))
    (two → trap .reservedOperand) ∧ (¬two → F.types P.gm = false → trap .illegalMode)

/-- A scalar group aligned to n that ends by s47, and a vector group aligned to n. -/
def scalAt (x : Operand) (n size : Nat) : Bool :=
  match x with
  | .s k => k % n == 0 && decide (k + size ≤ 48)
  | _ => false
def vecsAt (x : Operand) (n : Nat) : Bool :=
  match x with
  | .v k => k % n == 0
  | _ => false

/-- A rule on operands alone. -/
def operandRule (uses : List Use) (ok : Bool) (all : Bool := false) : Option RuleForm :=
  some { uses := fun _ _ => uses, all := all, ok := fun _ _ => ok }

def loadRule (sp : Space) (d a : Operand) : Option RuleForm :=
  some { uses := fun _ P => loadUses sp d a P.gm, types := fun gm => gm.type != .e2m1,
         ok := fun _ _ => a != .lane && a != .drain && (!isConst sp || isUniform a) && (!isScalar d || isUniform a) }
def storeRule (sp : Space) (d a : Operand) : Option RuleForm :=
  some { uses := fun _ P => storeUses sp d a P.gm, types := fun gm => gm.type != .e2m1,
         ok := fun _ _ => a != .lane && a != .drain && (!isConst sp || isUniform a) }
def atomRule (op : AtomOp) (asp : AtomSp) (d a : Operand) : Option RuleForm :=
  some { uses := fun _ P => atomUses op (spaceOf asp) d a P.gm, types := fun gm => atomType op gm.type,
         ok := fun _ _ => a != .lane && a != .drain && d != .lane && d != .drain && (!isScalar d || isUniform a) }
def shuffleRule (d a b : Operand) (vec : Bool) : Option RuleForm :=
  some { uses := fun _ P => [{ op := d, n := tyRegs P.gm.type, src := false, dst := true }, { op := a, n := tyRegs P.gm.type },
                             { op := b }],
         all := true, types := fun gm => gm.type != .b128,
         ok := fun _ _ => isVector d && (isVector a || isScalar a) && (if vec then isVector b || isScalar b else isUniform b) }
def compareRule (a b : Operand) (types : Ty → Bool) : Option RuleForm :=
  some { uses := fun _ P => [{ op := a, n := tyRegs P.gm.type }, { op := b, n := tyRegs P.gm.type }], types := fun gm => types gm.type }

/-- The words of rows 0x0, 0x5 and 0x8 to 0xF with operands, and VEXPR and TBL (04 R110 to R114, 05 R135 to R138, 06 R155 to
R163, 07 R166, R167, 09 R229 to R234, 10 R254 to R260, 11 R283 to R287, 12 R299 to R301, 13 R333 to R343, 14 R345 to R352). -/
def wordRules : Instr → Option RuleForm
  | .fcmp _ _ a b => compareRule a b tyFlt
  | .icmp _ _ a b => compareRule a b fun t => tyBITS t && t != .b128
  | .icmpi _ _ a _ => some { uses := fun _ P => [{ op := a, n := tyRegs P.gm.type }], types := fun gm => tyBITS gm.type && gm.type != .b128 }
  | .sel d a b => some {
      uses := fun _ P => [{ op := d, n := tyRegs P.gm.type, src := false, dst := true }, { op := a, n := tyRegs P.gm.type },
                          { op := b, n := tyRegs P.gm.type }],
      ok := fun _ _ => !isScalar d }
  | .smov d a b => some {
      uses := fun _ P => [{ op := d, n := tyRegs P.gm.type, src := false, dst := true }, { op := a, n := tyRegs P.gm.type },
                          { op := b }],
      ok := fun _ _ => isScalar d && isVector a && isUniform b, types := fun gm => gm.type != .b128 }
  | .bcast d a => some {
      uses := fun _ P => [{ op := d, n := tyRegs P.gm.type, src := false, dst := true }, { op := a, n := tyRegs P.gm.type }],
      ok := fun _ _ => isVector a, types := fun gm => gm.type != .b128 }
  | .gscan op d a => some {
      uses := fun _ P => [{ op := d, n := tyRegs P.gm.type, dst := true, src := false }, { op := a, n := tyRegs P.gm.type }],
      ok := fun _ _ => isVector d && a != .drain, types := fun gm => !scanBad op gm }
  | .gshfl _ _ d a => operandRule [{ op := d, dst := true }, { op := a, n := 8 }] (isVector d && vecsAt a 8)
  | .vexpr d a b => some {
      uses := fun G P => exprUses d a b (exprMode G P b), ok := fun G P => !exprBad d a b (exprMode G P b),
      types := fun gm => gm.type == .f32 }
  | .tbl d a b => some {
      uses := fun _ P => [{ op := d, n := tyRegs P.gm.type, src := false, dst := true }, { op := a, n := tyRegs P.gm.type },
                          { op := b }],
      ok := fun _ _ => isUniform b && (!isScalar d || !perLane a), types := fun gm => gm.type == .f32 && gm.round != .sto }
  | .vote _ d m => operandRule [] (match d, m with
      | .s x, .s y => decide (x ≤ 42) && decide (y ≤ 45)
      | _, _ => false) true
  | .shfl d a b => shuffleRule d a b true
  | .shflx d a b => shuffleRule d a b false
  | .shflu d a b => shuffleRule d a b false
  | .shfld d a b => shuffleRule d a b false
  | .brx a => operandRule [{ op := a }] (isVector a || isScalar a)
  | .callx _ a => operandRule [{ op := a }] (isVector a || isScalar a) true
  | .swrite _ a => operandRule [{ op := a }] (isUniform a)
  | .trace d a b => operandRule [{ op := d }, { op := a }, { op := b }] (isUniform d && isUniform a && isUniform b)
  | .ldl _ _ d a => loadRule .landing d a
  | .ldp _ _ d a => loadRule .priv d a
  | .ldk _ k d a => loadRule (.const k) d a
  | .ldg _ _ _ d a => loadRule .global d a
  | .ldn _ _ _ d a => loadRule .peer d a
  | .ldh _ _ _ _ d a => loadRule .host d a
  | .stl _ _ d a => storeRule .landing d a
  | .stp _ _ d a => storeRule .priv d a
  | .stg _ _ _ d a => storeRule .global d a
  | .stn _ _ _ d a => storeRule .peer d a
  | .sth _ _ _ _ d a => storeRule .host d a
  | .aadd _ _ _ sp d a => atomRule .add sp d a
  | .afadd _ _ _ sp d a => atomRule .fadd sp d a
  | .amin _ _ _ sp d a => atomRule .min sp d a
  | .amax _ _ _ sp d a => atomRule .max sp d a
  | .aand _ _ _ sp d a => atomRule .and sp d a
  | .aor _ _ _ sp d a => atomRule .or sp d a
  | .axor _ _ _ sp d a => atomRule .xor sp d a
  | .axchg _ _ _ sp d a => atomRule .xchg sp d a
  | .acas _ _ _ sp d a => atomRule .cas sp d a
  | .ainc _ _ _ sp d a => atomRule .inc sp d a
  | .adec _ _ _ sp d a => atomRule .dec sp d a
  | .cctl _ op a => operandRule [{ op := a, n := 2 }] (op == .lineinv || a == .zero)
  | .waitaddr _ _ d a => some {
      uses := fun _ P => [{ op := d, n := tyRegs P.gm.type }, { op := a, n := 2 }], all := true,
      ok := fun _ _ => isUniform d && isUniform a, types := fun gm => waitType gm.type }
  | .tblload _ k a => some {
      uses := fun _ _ => [{ op := a, n := 2 }], ok := fun _ _ => isScalar a, types := fun gm => gm.ftb.toNat != k % 2 }
  | .qput _ d a => operandRule [{ op := d, src := false, dst := true }, { op := a, n := 2 }] (isUniform d && scalAt a 2 2)
  | .binit _ _ a => operandRule [{ op := a }] (isUniform a)
  | .barv _ _ d a => operandRule [{ op := d, src := false, dst := true }, { op := a }] (isUniform d && isUniform a)
  | .bwait _ cur a => operandRule [{ op := a }] ((!cur || a == .zero) && isUniform a) true
  | .btest _ _ cur a => operandRule [{ op := a }] ((!cur || a == .zero) && isUniform a)
  | .bexp _ _ a => operandRule [{ op := a }] (isUniform a)
  | .copy _ _ _ a => operandRule [{ op := a }] (isUniform a)
  | .csum _ _ a => operandRule [{ op := a }] (isUniform a)
  | .pipe d => operandRule [{ op := d, src := false, dst := true }] (isUniform d)
  | .mpass _ _ a => operandRule [{ op := a }] (isUniform a)
  | .mdelta _ _ a => operandRule [{ op := a }] (isUniform a)
  | .mstore _ _ _ _ _ _ a => operandRule [{ op := a, n := 2 }] (scalAt a 2 3)
  | .mload _ _ _ _ _ _ a => operandRule [{ op := a, n := 2 }] (scalAt a 2 3)
  | .cbind _ d _ => operandRule [{ op := d, src := false, dst := true }] (isUniform d)
  | .cdrop _ a => operandRule [{ op := a }] (isUniform a)
  | .cstat _ d a => operandRule [{ op := d, n := 8, src := false, dst := true }, { op := a }] (scalAt d 8 8 && isUniform a)
  | .cfresh _ a => operandRule [{ op := a }] (isUniform a)
  | .march _ _ d a => operandRule [{ op := d, n := 8 }, { op := a, n := 2 }] (vecsAt d 2 && isScalar a)
  | .buck _ _ _ a => operandRule [{ op := a, n := 8 }] (scalAt a 8 8)
  | .cqpop _ d a => operandRule [{ op := d, n := 10, src := false, dst := true }, { op := a }] (vecsAt d 2 && isUniform a)
  | .cqret _ d a => operandRule [{ op := d, n := 6 }, { op := a }] (vecsAt d 2 && isUniform a)
  | .boxt _ d a => operandRule [{ op := d, n := 2, src := false, dst := true }, { op := a, n := 10 }] (vecsAt d 2 && vecsAt a 2)
  | .trit _ _ d a => operandRule [{ op := d, n := 4, src := false, dst := true }, { op := a, n := 10 }] (vecsAt d 4 && vecsAt a 2)
  | .vfetch _ _ d a => operandRule [{ op := d, n := 4, src := false, dst := true }, { op := d, n := 3 }, { op := a }]
      (vecsAt d 4 && isUniform a)
  | .visw _ d a => operandRule [{ op := d, n := 2, dst := true }, { op := a, n := 2 }] (isVector d && isVector a)
  | .merge _ _ a => operandRule [{ op := a }] (isUniform a)
  | .mstat _ d a => operandRule [{ op := d, n := 4, src := false, dst := true }, { op := a }] (isScalar d && isUniform a)
  | .feval _ mode _ d a => operandRule [{ op := d, n := (fevalRegs mode).2.1, src := false, dst := true },
                                        { op := a, n := (fevalRegs mode).1 }]
      (vecsAt d (fevalRegs mode).2.2.2 && vecsAt a (fevalRegs mode).2.2.1)
  | .fbind _ _ _ d a => operandRule [{ op := d, src := false, dst := true }, { op := a, n := 4 }] (isUniform d && isScalar a)
  | _ => none

/-! ### Accesses that trap when they are performed -/

/-- The accesses of an operation that is to be performed, as lanes and virtual addresses; what they need of their pages; the
bytes of each; its space; and whether it is one access for all its lanes (07 R167 to R169). -/
structure Accesses where
  parts : List (Nat × Nat)
  need : Need
  size : Nat
  sp : Space
  uni : Bool

/-- The accesses of a load, a store or an atomic of which no lane has been performed. -/
def accessesOf (T : Team) (G : Group) : Work → Option Accesses
  | .load sp t _ accs uni => some
      { parts := loadPieces T G sp (tyWidth t / 8) accs, need := .rd, sp := sp, uni := uni,
        size := if isConst sp then min (tyWidth t / 8) 4 else tyWidth t / 8 }
  | .store sp t _ accs => some
      { parts := accs.map fun a => (a.lane, memVa T G sp a.addr), need := .wr, size := tyWidth t / 8, sp := sp, uni := false }
  | .atomic _ sp t _ _ accs uni => if accs.all fun a => a.key.isNone then some
      { parts := accs.map fun a => (a.lane, a.addr), need := .rw, size := tyWidth t / 8, sp := sp, uni := uni } else none
  | _ => none

/-- The trap of column 3 that an access meets, and whether it meets uncorrected data, column 4 (07 R168, 08 R192, R206). -/
def walkFault (s : State) (T : Team) (A : Accesses) (x : Nat × Nat) : Option TrapKind :=
  match translate s T.ctx (asks s T.die) x.2 A.need (spaceTgt A.sp) with
  | .fail k => some k
  | _ => none
def dataFault (s : State) (T : Team) (o : Pending) (A : Accesses) (x : Nat × Nat) : Bool :=
  match translate s T.ctx (asks s T.die) x.2 A.need (spaceTgt A.sp) with
  | .key k => laneBad s T.die o.scope k A.size false
  | _ => false

/-- What 07 R168 says of an operation whose accesses fail a column: the lowest failing lane's trap, for every lane that fails
alike, or for all of a single access's lanes. -/
def failsBy (s u : State) (t g : Nat) (o : Pending) (A : Accesses) (fault : Nat × Nat → Option TrapKind) : Prop :=
  ∀ x k, A.parts.find? (fun y => (fault y).isSome) = some x → fault x = some k →
    u = closeDone (trapPending s t g o k
      (if A.uni then o.lanes else maskOf ((A.parts.filter fun y => fault y = some k).map (·.1))) x.2) t g o.id

/-! ### Paths -/

/-- The path table of a group: its entries ascending, the MASK of a valid path within its ORIGIN, the origins of two valid
paths disjoint (04 R92, R93). -/
def PathsOk (s : State) : Prop :=
  ∀ t g, ((groupOf s t g).paths.map (·.1)).Pairwise (· < ·) ∧
    (∀ p, (pathOf s t g p).valid = true → (pathOf s t g p).mask &&& ~~~(pathOf s t g p).origin = 0) ∧
    ∀ p q, p ≠ q → (pathOf s t g p).valid = true → (pathOf s t g q).valid = true →
      (pathOf s t g p).origin &&& (pathOf s t g q).origin = 0

/-- The rules of row 0x7 on operands and types: LaneTraps, and d is a vector or a scalar (06 R152). -/
def LookTraps (form : Instr → Option (Nat × LaneForm)) : Prop :=
  LaneTraps (fun i => ((form i).map (·.2)).filter fun F => isVector F.d || isScalar F.d) ∧
  ∀ (i : Instr) (look : Nat) (F : LaneForm) (s : State) (t g p : Nat), form i = some (look, F) → Issues i s t g p false →
    (isVector F.d || isScalar F.d) = false →
    exec i s = .next (trapHere s t g p .reservedOperand (pathOf s t g p).mask 0 0 ((encode i).getD 0))

end Sys2Proof.Claims

open Sys2Proof Sys2Proof.Machine Sys2Proof.Safety Sys2Proof.Claims

/-- 06 R144: every instruction of row 0x1 writes its exact result, reduced to the type; a type that the table does not
give the instruction raises Trap(IllegalMode). That bad operands trap first, with the registers counted by the unaccepted type,
is log entry 16 (DEDUCED from 02 R26, R28, R49). -/
def Obligations.IntegerRowResults : Prop := LaneTable row1 ∧ LaneTraps row1

/-- 06 R145: every instruction of row 0x2 writes its result. -/
def Obligations.BitAndAddressRowResults : Prop := LaneTable row2

/-- 06 R146, R147, R150: every instruction of row 0x3 writes its result: the exact value rounded once, or the bits that
the table gives. -/
def Obligations.FloatRowResults : Prop := LaneTable row3

/-- 06 R148 to R151: conversions, packed and dot products, and intervals write their results. -/
def Obligations.ConversionRowResults : Prop := LaneTable row4

/-- 05 R127 to R129: MOV and the immediates write their results. -/
def Obligations.ImmediateRowResults : Prop := LaneTable row6

/-- 06 R152 to R154, 14 R351: the instructions of row 0x7 post their results, and GSHFL the gathered word of each active lane;
with no active lane they do nothing. -/
def Obligations.SpecialFunctionAndGatherResults : Prop := LookTable row7 ∧ LookTable gathers

/-- Moves, selections and tables: SEL, SMOV, BCAST, SREAD, SYSR, GSCAN, TBL, VEXPR and their kind write their results (04
R112, 05 R135 to R137, 06 R155 to R161, 14 R352, 16 R397, 18 R410). -/
def Obligations.MoveAndTableResults : Prop := RegTable moves

/-- 04 R110, R111: compares and PLOG set the bits of their active lanes and keep the others. -/
def Obligations.PredicateResults : Prop := EffTable compares

/-- 04 R102, R103, R107, R109, 05 R131, R138, 16 R395: the words that change only the group's own control state. -/
def Obligations.ControlWordResults : Prop := EffTable controls

/-- 04 R94, R95, R104 to R106: branches move their lanes, and split the path where only some lanes go; JOIN parks it. -/
def Obligations.BranchResults : Prop := EffTable branches

/-- 05 R122, R132 to R134: calls and returns. -/
def Obligations.CallResults : Prop := EffTable calls

/-- 10 R252 to R257, 04 R108: the words on barriers. -/
def Obligations.BarrierWordResults : Prop := EffTable barrierWords

/-- 04 R113, R114: VOTE and the shuffles, where no lane of another path is awaited and where one is. What paths that wait with
different member masks share, which path's copies take a destination above s39, and a lane outside every MASK are log entry 22
(DEDUCED). -/
def Obligations.VoteAndShuffleResults : Prop := EffTable groupWords

/-- 07 R165 to R170, R175, R186: loads and stores enter the memory queue with the lanes and addresses of their space; the lanes
whose landing address fails are switched off at the issue. -/
def Obligations.LoadAndStoreResults : Prop := EffTable loadsStores

/-- 09 R229 to R231: atomics enter the memory queue with the lanes, addresses and operands; the lanes whose landing address
fails are switched off (07 R175). -/
def Obligations.AtomicResults : Prop := EffTable atomics

/-- 06 R162, R163, 07 R187, R188, 09 R232 to R234, 15 R366: PFG, CCTL, FENCE, QFENCE, WAITADDR, TBLLOAD and QPUT.
That WAITADDR takes `zero` for its address, and that a path which waits for its bank holds none, is log entry 41 (DEDUCED). -/
def Obligations.MemoryWordResults : Prop := EffTable memoryWords

/-- 10 R243 to R246, R251, R258 to R260: COPY, CSUM, PIPE and PIPEREL. That a CSUM of no bytes sums
nothing and completes is log entry 49 (DEDUCED); which check of COPY and PIPE comes first where the rules
leave it open is log entry 84 (DESIGN CHOICE). -/
def Obligations.CopyWordResults : Prop := EffTable copyWords

/-- 11 R265, R268, R283 to R287, 12 R299 to R301: the words of the matrix engine and of coppice buffers. -/
def Obligations.MatrixWordResults : Prop := EffTable matrixWords

/-- 13 R332 to R343, 14 R345 to R350: the words of the marcher, fields and the merge unit. -/
def Obligations.MarchWordResults : Prop := EffTable marchWords

/-- 16 R394, R396, R397, 18 R416: SYSW, TRACE and RFT. -/
def Obligations.SystemWordResults : Prop := EffTable systemWords

/-- PENDING_RESULT_COMPLETE, ASYNC_TRAP, TBLLOAD_COMPLETE, QFENCE_ARRIVE, CQPOP_TAKE and LINK_DELIVERY_TIMEOUT follow their
rules. Model's choices: no effect where no rule applies (log entry 15); a store or access that no route delivers (45), what a
link reset loses of it (72) and the supervisor's log code 6 (75). -/
def Obligations.OperationEventEffects : Prop := EventTable operationRules

/-- Time limits of waits and the ends of waits follow their rules. Model's choices: no effect where no rule applies (log entry
15); how a VOTE ends (22), the order of delivered faults (47), residency at the end of a shuffle (24). -/
def Obligations.WaitEventEffects : Prop := EventTable waitRules

/-- The grants and completions of the MATRIX queue follow their rules. Model's choices: no effect where no rule applies (log entry
15); faulted passes (50), emulated passes (81), the counter and snapshots of passes (85). -/
def Obligations.MatrixEventEffects : Prop := EventTable matrixRules

/-- The skidder's events follow their rules. Model's choices: no effect where no rule applies (log entry 15); the 128-byte line as
the chunk of a copy (48), the intervals that the depth is computed from (49). -/
def Obligations.CopyEventEffects : Prop := EventTable copyRules

/-- The marcher's events follow their rules. Model's choices: no effect where no rule applies (log entry 15); how requests form
(51), what FBIND and BUCK answer (53). -/
def Obligations.MarchEventEffects : Prop := EventTable marchRules

/-- The merge unit's events follow their rules. Model's choices: no effect where no rule applies (log entry 15); a merge job runs
in steps of one element (55). -/
def Obligations.MergeEventEffects : Prop := EventTable mergeRules

/-- Queues and packets follow their rules. Model's choices: no effect where no rule applies (log entry 15); the order of a
packet's checks and some reasons of failure (57), how chunks are dealt (58). -/
def Obligations.QueueEventEffects : Prop := EventTable queueRules

/-- Placement, compaction, paging, invalidation and counters follow their rules. Model's choices: no effect where no rule
applies (log entry 15); the private bases of a team (59), the compactor (62), page migration (73), the block that a placement
takes (87). -/
def Obligations.PlacementEventEffects : Prop := EventTable placementRules

/-- Suspension, resume, core-state windows and control cores follow their rules. Model's choices: no effect where no rule applies
(log entry 15); the restart of a control core (33), core-state windows (34), saves unit by unit (64 to 66). -/
def Obligations.SuspendEventEffects : Prop := EventTable suspendRules

/-- Commands, host writes and code objects follow their rules. Model's choices: no effect where no rule applies (log entry
15); the statuses of loading (68), the latching of arguments (69). -/
def Obligations.CommandEventEffects : Prop := EventTable commandRules

/-- Management commands follow their rules. Model's choices: no effect where no rule applies (log entry 15); the codes and layouts
of SPDM messages (44), the security version that FIRMWARE_UPDATE raises at acceptance (70, DEDUCED). -/
def Obligations.ManagementEventEffects : Prop := EventTable managementRules

/-- Vendor commands and the freeze follow their rules. Model's choices: no effect where no rule applies (log entry 15); the
status of an armed tick not after GT and what START_REPLAY needs (71), scans of storage that nothing holds (46). -/
def Obligations.VendorEventEffects : Prop := EventTable vendorRules

/-- Resets, links, the bus and errors follow their rules. Model's choices: no effect where no rule applies (log entry 15); what a
reset loses (72), requests of peers and of the host (45), the units of soft errors (43), the supervisor's log codes (75). -/
def Obligations.ModuleEventEffects : Prop := EventTable moduleRules

/-- 16 R393: TRAP raises Trap(Software) for its active lanes, and goes on where there are none; BKPT raises
Trap(Breakpoint) for the path's mask. INFO is the code or the tag, which is payload[15:0]; payload[23:16] is reserved. -/
def Obligations.SoftwareTraps : Prop :=
  (∀ (code : Nat) (s : State) (t g p : Nat), code < 2 ^ 16 → Issues (.trap code) s t g p true → Operands s t g p [] →
    let act := activeOf (groupOf s t g) (pathOf s t g p)
    (act = 0 → Completes (.trap code) s t g p [] .next s) ∧
    (act ≠ 0 → exec (.trap code) s = .next (trapHere s t g p .software act 0 code (0x0E000000 + code)))) ∧
  (∀ (tag : Nat) (s : State) (t g p : Nat), tag < 2 ^ 16 → Issues (.bkpt tag) s t g p true → Operands s t g p [] →
    exec (.bkpt tag) s = .next (trapHere s t g p .breakpoint (pathOf s t g p).mask 0 tag (0x0F000000 + tag))) ∧
  ∀ n : Nat, n < 2 ^ 24 →
    (n < 2 ^ 16 → decode (BitVec.ofNat 32 (0x0E000000 + n)) = .ok (.trap n) ∧
      decode (BitVec.ofNat 32 (0x0F000000 + n)) = .ok (.bkpt n)) ∧
    (2 ^ 16 ≤ n → (∃ e, decode (BitVec.ofNat 32 (0x0E000000 + n)) = .error e) ∧
      ∃ e, decode (BitVec.ofNat 32 (0x0F000000 + n)) = .error e)

/-- 02 R49, 05 R119, 08 R206: of the checks of an instruction word the first that fails decides the trap, which names every lane
of the path's mask; then, of one that no window stalls, a vector beyond the frame raises Trap(ReservedOperand), and a source with
uncorrectable data Trap(Uncorrected) for the active lanes, where the word reads it (02 R35). `chk` stands for the checks of the
instruction's entry; a word that waits for its function-table bank has not issued (06 R163). -/
def Obligations.FirstFailingCheckDecides : Prop :=
  ∀ (i : Instr) (chk : Team → Group → Path → Chk) (body : Iss → Eff) (s : State) (t g p : Nat),
    (∀ s, exec i s = issueWord i chk body s) → s.cur = some (t, g, p) → Listed s t g → (pathOf s t g p).valid = true →
    newBase (groupOf s t g) (pathOf s t g p) = (groupOf s t g).rb →
    bankStall s (teamOf s t) t g p (pathOf s t g p).gm = false →
    let k := chk (teamOf s t) (groupOf s t g) (pathOf s t g p)
    let word := (encode i).getD 0
    let one := k.illegal = true ∨ ((teamOf s t).ctl = true ∧ ctlIllegal (word / 2 ^ 24) = true)
    let two := k.opBad = true ∨ usesBad k.uses = true
    let trap := fun kind => exec i s = .next (trapHere s t g p kind (pathOf s t g p).mask 0 0 word)
    (one → trap .illegalInstruction) ∧ (¬one → two → trap .reservedOperand) ∧
      (¬one → ¬two → k.modeBad = true → trap .illegalMode) ∧
      (¬one → ¬two → k.modeBad = false → windowStall (groupOf s t g) p k.waits = false → namesDrain k.uses = false →
        let c := view i s t g p k.uses
        (frameBad (pathOf s t g p) k.uses = true → trap .reservedOperand) ∧
        (frameBad (pathOf s t g p) k.uses = false → badSource c k.uses = true → k.always = true ∨ c.act ≠ 0 →
          exec i s = .next (trapHere s t g p .uncorrected c.act 0 0 word)))

/-- 02 R26, R28, R34, R36, R49: a word whose operands break the operand rules of its entry, or whose scalar destination
has a per-lane source, raises Trap(ReservedOperand); else one whose type is not accepted, or that meets stochastic
rounding where it consults ROUND, raises Trap(IllegalMode); for rows 0x1 to 0x4, 0x6 and 0x7 and for every other word with such
rules. The registers of an unaccepted type are counted before the type is refused (log entry 16), and PACK2 consults ROUND
under every type (log entry 20): both DEDUCED. -/
def Obligations.OperandAndTypeTraps : Prop :=
  (∀ form ∈ [row1, row2, row3, row4, row6], LaneTraps form) ∧ LookTraps row7 ∧ RuleTable wordRules

/-- 04 R105, 05 R123, R131 to R134, 06 R161, 07 R166 to R168, 09 R234, 10 R235, R254, R258 to R260, 11 R274, R279, R286, 12
R300, 13 R323, R334, R338, R342, 14 R345: a word that fails a check of its own entry raises that check's trap at itself, for the
lanes that the rule names, with none of its effect; the first that fails in the entry's order decides. -/
def Obligations.WordsTrapAtTheirChecks : Prop :=
  ∀ forms ∈ [memoryTraps, controlTraps, barrierTraps, matrixTraps, marchTraps], TrapTable forms

/-- 07 R168, 08 R192, R206: a load, store or atomic that is performed and whose accesses fail translation, or, for a load,
meet uncorrected data, raises the trap of the lowest failing lane, for every lane that fails alike. -/
def Obligations.AccessesTrapWhenPerformed : Prop :=
  ∀ (s u : State) (t g id : Nat) (o : Pending) (A : Accesses), pendOf s t g id = some o → o.performed = false →
    o.memq = true → memReady (groupOf s t g) id = true → A.sp ≠ .landing →
    accessesOf (teamOf s t) (groupOf s t g) o.work = some A → exec (.pendingResultComplete t g id) s = .next u →
    failsBy s u t g o A (walkFault s (teamOf s t) A) ∧
    (A.need = .rd → (∀ x ∈ A.parts, ∃ k, translate s (teamOf s t).ctx (asks s (teamOf s t).die) x.2 .rd (spaceTgt A.sp) = .key k) →
      failsBy s u t g o A fun x => if dataFault s (teamOf s t) o A x then some .uncorrected else none)

/-- 02 R47: RFT, issued by a group on a core, raises an illegal-instruction trap. -/
def Obligations.RftOnACore : Prop :=
  ∀ (replay : Bool) (d a : Operand) (s : State) (t g p : Nat), s.cur = some (t, g, p) → Listed s t g →
    (pathOf s t g p).valid = true → newBase (groupOf s t g) (pathOf s t g p) = (groupOf s t g).rb →
    bankStall s (teamOf s t) t g p (pathOf s t g p).gm = false → (teamOf s t).ctl = false →
    exec (.rft replay d a) s = .next (trapHere s t g p .illegalInstruction (pathOf s t g p).mask 0 0
      ((encode (.rft replay d a)).getD 0))

/-- 16 R370 to R373: a trap raised at a path's instruction and served by STOP, HOLD or the driver freezes the core, which
records it; the path stays at the instruction, and nothing that an instruction writes has changed. -/
def Obligations.TrapFreezesTheCore : Prop :=
  ∀ (s : State) (t g p : Nat) (kind : TrapKind) (lanes : Mask) (addr info word : Nat), Listed s t g →
    (teamOf s t).ctl = false →
    let C := ctxOf s (teamOf s t).ctx
    toDriver C kind ∨ (groupOf s t g).tregs.tact = true ∨ policyOf C kind = 0 ∨ policyOf C kind = 3 →
    let u := trapHere s t g p kind lanes addr info word
    let K := coreOf u (teamCore (teamOf s t))
    K.frozen = true ∧ K.trap = recordAt s t g p kind lanes addr info word ∧ (groupOf u t g).flm = lanes ∧
      (groupOf u t g).tregs = (groupOf s t g).tregs ∧ (pathOf u t g p).pc = (pathOf s t g p).pc ∧
      (pathOf u t g p).state = 0 ∧ wroteNothing s u t g

/-- 16 R374: on HANDLER the path continues at the handler, its mask, origin, mode and frame unchanged; TACT is set and
the trap registers receive the record; 16 R370: on SKIP the path resumes at PC + 4. Both record the trap (R372), and the core is
unfrozen at the next tick (R371; that the tick is the next is log entry 47, DEDUCED). -/
def Obligations.TrapsAreServed : Prop :=
  ∀ (s : State) (t g p : Nat) (kind : TrapKind) (lanes : Mask) (addr info word : Nat), Listed s t g →
    (teamOf s t).ctl = false → (pathOf s t g p).valid = true →
    let C := ctxOf s (teamOf s t).ctx
    ¬toDriver C kind → (groupOf s t g).tregs.tact = false →
    let u := trapHere s t g p kind lanes addr info word
    let P := pathOf s t g p
    let cb := (teamOf s t).cb
    let K := coreOf u (teamCore (teamOf s t))
    (policyOf C kind = 1 ∨ policyOf C kind = 2 →
      K.frozen = true ∧ (coreOf (thawCores u) (teamCore (teamOf s t))).frozen = false ∧
      K.trap = recordAt s t g p kind lanes addr info word ∧ wroteNothing s u t g ∧ (groupOf u t g).flm = lanes) ∧
    (policyOf C kind = 1 → pathOf u t g p = { P with pc := P.pc + 4, state := 0, wait := .none } ∧
      (groupOf u t g).tregs = (groupOf s t g).tregs) ∧
    (policyOf C kind = 2 → pathOf u t g p = { P with pc := C.handler, state := 0, wait := .none } ∧
      (groupOf u t g).tregs = { tkind := kindCode kind, tpc := P.pc, toff := (P.pc + 2 ^ 64 - cb) % 2 ^ 64,
                                coff := (P.pc + 4 + 2 ^ 64 - cb) % 2 ^ 64, tk := 0, tflm := lanes.toNat, taddr := addr,
                                tinfo := info, tact := true })

/-- 16 R376: a control core's own trap restarts its firmware, which the manual does not give: its team is gone until
CONTROL_CORE_RESTART, and the supervisor's log has the event; its trace record is written as any trap's (18 R415). -/
def Obligations.ControlCoreTrap : Prop :=
  ∀ (s : State) (t g p : Nat) (kind : TrapKind) (lanes : Mask) (addr info word : Nat), (teamOf s t).ctl = true →
    tfind s.teams t ≠ none →
    let u := trapHere s t g p kind lanes addr info word
    let T := teamOf s t
    let traced := traceOut s T.die s.gt
      { type := 5, ctx := T.ctx, queue := T.queue, loc := locOf T (groupOf s t g), tag := kindCode kind, pc := (pathOf s t g p).pc }
    tfind u.teams t = none ∧ (∀ t', t' ≠ t → tfind u.teams t' = tfind s.teams t') ∧ u.mem = traced.mem ∧ u.cores = s.cores ∧
      u.sup.log = s.sup.log ++ [(1, (teamOf s t).die, s.gt)]

/-- 16 R379: an entry that would make FLHEAD − FLTAIL exceed 2^FLOGL, or a unit of which meets a fault or uncorrected data, is
not written, and FLLOST increases by 1; one that fits and whose units can be written advances FLHEAD over them. One that a
migration of the log's pages holds waits as any write does (08 R197), behind those that wait there. -/
def Obligations.FaultLogAppends : Prop :=
  ∀ (s : State) (c type : Nat) (f : LogInfo) (body : List Byte), tfind s.ctxs c ≠ none →
    let C := ctxOf s c
    let n := 1 + body.length / 64
    let tr := fun (k : Nat) => Machine.translate s c (asks s Machine.ioDie) (logVa C k) .wr none
    let u := (logAppend s c type f body).1
    let lost := { C with flLost := (C.flLost + 1) % 2 ^ 32 }
    let wait := modCtx s c fun C => { C with logWait := C.logWait ++
      [{ bytes := logHeader s c type (body.length / 64) (logIdx C) f ++ body, irq := false }] }
    (C.logWait ≠ [] → u = wait) ∧
    (C.logWait = [] →
      (¬fits C (body.length / 64) → u = modCtx s c fun _ => lost) ∧
      ((∃ k < n, ∃ kind, tr k = .fail kind) → u = modCtx s c fun _ => lost) ∧
      (fits C (body.length / 64) → (∀ k < n, ∀ kind, tr k ≠ .fail kind) →
        ((∃ k < n, ∃ key, tr k = .key key ∧ meetsBad s key 64 false = true) → ctxOf u c = lost ∧ u.mem = s.mem) ∧
        ((∀ k < n, ∀ key, tr k = .key key → meetsBad s key 64 false = false) →
          ((∃ k < n, tr k = .hold) → u = wait) ∧
          ((∀ k < n, tr k ≠ .hold) →
            ctxOf u c = { C with flHead := (C.flHead + n) % 2 ^ 32 } ∧
            (∀ c', c' ≠ c → ctxOf u c' = ctxOf s c') ∧ u.teams = s.teams ∧ u.cores = s.cores ∧ u.gt = s.gt))))

/-- 03 R65: an integer result is clamped to the range of its type under SAT, and is modulo 2^w without it. 02 R27: I8 and I16
results are sign-extended to 32 bits, every other narrow type is zero-extended, and what a read takes from the register is the
element. -/
def Obligations.ResultsFitTheirType : Prop :=
  (∀ (t : Ty) (z : Int), tyInt t = true →
    intOf t (reduceInt t true z) = max (least t) (min z (greatest t)) ∧
    least t ≤ intOf t (reduceInt t false z) ∧ intOf t (reduceInt t false z) ≤ greatest t ∧
    (intOf t (reduceInt t false z) - z) % (2 ^ tyWidth t : Nat) = 0) ∧
  ∀ (t : Ty) (x : Nat), tyWidth t < 32 → x < 2 ^ tyWidth t →
    extendElem t x % 2 ^ tyWidth t = x ∧ extendElem t x < 2 ^ 32 ∧
    (t = .i8 ∨ t = .i16 → (x < 2 ^ (tyWidth t - 1) → extendElem t x = x) ∧
      (2 ^ (tyWidth t - 1) ≤ x → extendElem t x = 2 ^ 32 - 2 ^ tyWidth t + x)) ∧
    (t ≠ .i8 → t ≠ .i16 → extendElem t x = x)

/-- 10 R237: an arrival adds its counts and bytes, and Settle completes phases until the current one is not complete; each
was complete when it completed, and takes ECNT from EARR and clears GARR. -/
def Obligations.ArrivalsSettle : Prop :=
  ∀ (n : Nat) (bytes : Int) (B : Bar),
    ∃ m, ¬complete (arriveBar n bytes B) ∧
      arriveBar n bytes B =
        { B with pend := ((B.pend + bytes) % (2 ^ 24 : Nat)).toNat, ph := if m = 0 then B.ph else (B.ph + m) % 2 ^ 16,
                 earr := B.earr + n - m * B.ecnt, garr := if m = 0 then B.garr else 0 } ∧
      m * B.ecnt ≤ B.earr + n ∧
      ∀ j < m, complete
        { B with pend := ((B.pend + bytes) % (2 ^ 24 : Nat)).toNat, earr := B.earr + n - j * B.ecnt,
                 garr := if j = 0 then B.garr else 0 }

/-- 10 R238: phase T of a barrier is done when (PH − T) mod 2^16 lies between 1 and 32,767. -/
def Obligations.PhaseTokens : Prop :=
  ∀ (B : Bar) (tok : Nat), B.ph < 2 ^ 16 → tok < 2 ^ 16 →
    (phaseDone B tok = true ↔ ∃ k, 1 ≤ k ∧ k ≤ 32767 ∧ B.ph = (tok + k) % 2 ^ 16)

/-- 04 R95: two or more paths parked at one address merge into the lowest of their entries (the table of paths is
ascending), which takes the union of
their masks and origins, AGE 0 and the mode and frame of the one that holds the lowest lane; the others become invalid,
and no other path's lanes change. -/
def Obligations.ParkedPathsMerge : Prop :=
  ∀ (s : State) (t g pc q r : Nat) (Q R : Path) (rest : List (Nat × Path)), Listed s t g →
    ((groupOf s t g).paths.map (·.1)).Pairwise (· < ·) →
    parkedAt (groupOf s t g) pc = (q, Q) :: (r, R) :: rest →
    let all := (q, Q) :: (r, R) :: rest
    let u := mergeParked s t g pc
    let M := pathOf u t g q
    (∀ e ∈ (r, R) :: rest, q < e.1) ∧ M.valid = true ∧ M.age = 0 ∧ M.pc = pc ∧
      (∀ l, M.mask.getLsbD l = all.any fun e => e.2.mask.getLsbD l) ∧
      (∀ l, M.origin.getLsbD l = all.any fun e => e.2.origin.getLsbD l) ∧
      (∃ e ∈ all, M.gm = e.2.gm ∧ M.fb = e.2.fb ∧ M.fs = e.2.fs ∧ M.ld = e.2.ld ∧ ∀ e' ∈ all, lowestOwn e.2 ≤ lowestOwn e'.2) ∧
      (∀ e ∈ (r, R) :: rest, (pathOf u t g e.1).valid = false) ∧
      ∀ k, (∀ e ∈ all, e.1 ≠ k) → (pathOf u t g k).mask = (pathOf s t g k).mask ∧
        (pathOf u t g k).origin = (pathOf s t g k).origin ∧ (pathOf u t g k).valid = (pathOf s t g k).valid

/-- 11 R266: the arbiter grants an eligible entry. One of AGE 255 goes before all others, and of several the one posted
earliest; else one of a marcher, the one posted earliest, where none of the last three grants went to one; else the one of
highest priority, posted earliest, of the lowest entry number. -/
def Obligations.ArbiterGrants : Prop :=
  ∀ (s : State) (cluster : Nat),
    let es := eligibleEntries s cluster
    let earlier := fun (x y : Entrant) => x.2.2.tick < y.2.2.tick ∨ (x.2.2.tick = y.2.2.tick ∧ x.2.2.seq ≤ y.2.2.seq)
    let old := ∃ y ∈ es, 255 ≤ y.2.2.age
    let turn := (∃ y ∈ es, y.2.2.isNet = true) ∧ true ∉ (tget ({} : Cluster) s.clusters cluster).grants
    (arbiter s cluster = none ↔ es = []) ∧
    ∀ x, arbiter s cluster = some x → x ∈ es ∧
      (old → 255 ≤ x.2.2.age ∧ ∀ y ∈ es, 255 ≤ y.2.2.age → earlier x y) ∧
      (¬old → turn → x.2.2.isNet = true ∧ ∀ y ∈ es, y.2.2.isNet = true → earlier x y) ∧
      (¬old → ¬turn → ∀ y ∈ es, y.2.1.prio < x.2.1.prio ∨ (y.2.1.prio = x.2.1.prio ∧
        (x.2.2.tick < y.2.2.tick ∨ (x.2.2.tick = y.2.2.tick ∧ x.2.2.num ≤ y.2.2.num))))

/-- 08 R190 to R192: a virtual address that walks through four valid tables to a leaf of this module reaches its page at
the address's low 15 bits where the leaf allows the access, and raises Trap(Permission) where it does not; a leaf entry
that is not valid raises Trap(Translation). -/
def Obligations.AddressesTranslate : Prop :=
  ∀ (s : State) (c va e : Nat) (a : Asker) (need : Need) (tgt : Option Nat), c < 1024 → va < 2 ^ 56 → walksTo s a.die c va e →
    let ok := match need with
      | .rd => e.testBit 2
      | .wr => e.testBit 3
      | .rw => e.testBit 2 && e.testBit 3
      | .ex => e.testBit 4
    (e % 2 = 0 → Machine.translate s c a va need tgt = .fail .translation) ∧
    ∀ page, mapsPage e page →
      (ok = true → tgt = none ∨ tgt = some 0 → Machine.translate s c a va need tgt = .key (page + va % 2 ^ 15)) ∧
      (ok = false ∨ tgt = some 1 ∨ tgt = some 2 → Machine.translate s c a va need tgt = .fail .permission)

/-- Bytes written to memory are read back, and every other byte is as before (02 R20, 08 R189: one byte for each
address). -/
def Obligations.MemoryHoldsWhatIsWritten : Prop :=
  ∀ (m : Table Byte) (k : Nat) (bs : List Byte), Memory.wf m = true →
    readBytes (writeBytes m k bs) k bs.length = bs ∧ Memory.wf (writeBytes m k bs) = true ∧
    ∀ a, (a < k ∨ k + bs.length ≤ a) → readBytes (writeBytes m k bs) a 1 = readBytes m a 1

/-- An issued word that has retired counts in the open windows of its path and starts the group's stall clock again; it
changes nothing else but what the instruction did (02 R37, 04 R100). -/
def Obligations.WordsRetire : Prop :=
  ∀ (i : Instr) (s x : State) (t g p : Nat) (us : List Use) (id : Nat), Listed x t g →
    Retired x (retire (view i s t g p us) id x) t g p id

/-- No instruction word stops the module: with a path to issue from, exec answers a next state; every event does
so. -/
def Obligations.InstructionsAnswer : Prop :=
  ∀ (i : Instr) (s : State), (encode i = none ∨ issuing s ≠ none) → ∃ u, exec i s = .next u

/-- A step that issues a path's word runs the decoded instruction, at a core that the slot finds running; where the word
issued it then counts the issue: bins, ages, and the barriers that a lost path may concern. Where the core froze earlier in
the same tick it stays frozen, and a word that would trap is not performed (16 R371). A word that is no instruction raises
Trap(IllegalInstruction), and a word that cannot be fetched its trap (02 R48, R51, R53). -/
def Obligations.StepRunsTheDecodedWord : Prop :=
  ∀ (s : State) (t g p : Nat) (rest : List Item), s.agenda = .issue t g p :: rest → s.freeze.frozen = false →
    let s0 := taken s rest
    let T := teamOf s t
    let s1 := openCore s0 T
    let s2 := { s1 with cur := some (t, g, p) }
    let answer := fun (u : State) =>
      if hasIssued s1 u t g p = false then closeCore s0 u T
      else if teamFrozen s0 T = true ∧ teamFrozen u T = true then s0
      else afterIssue exec s0 t g p (closeCore s0 u T)
    canIssue s0 t g p = true →
    (teamFrozen s0 T = false → ∀ u, closeCore s0 u T = u) ∧
    (∀ k, fetchWord s1 t g p = .error k →
      step s = .next (answer (trapHere (fetchSeen s2 T k (pathOf s t g p).pc) t g p k (pathOf s t g p).mask
        (pathOf s t g p).pc 0 0))) ∧
    ∀ w, fetchWord s1 t g p = .ok w →
      (∀ i, decode (BitVec.ofNat 32 w) = .ok i → ∀ u, exec i s2 = .next u → step s = .next (answer u)) ∧
      (∀ e, decode (BitVec.ofNat 32 w) = .error e →
        step s = .next (answer (trapHere s2 t g p .illegalInstruction (pathOf s t g p).mask 0 0 w)))

/-- A step takes the first item of the agenda that may come: in a module that is not frozen the head; in a frozen one the
first tick or event of the management port, and the items before it wait in their order (18 R418). An event is run as exec
runs it; a tick of a frozen module raises the global tick by 1 (18 R409), and so does a step that finds no item that may come.
That the events of the world stand in an agenda of the state is the model's form. -/
def Obligations.StepTakesTheAgenda : Prop :=
  ∀ (s : State) (pre rest : List Item), (∀ x ∈ pre, stays s x) →
    let ticks := fun (left : List Item) => ∃ u, step s = .next u ∧ u.gt = s.gt + 1 ∧ u.teams = s.teams ∧ u.mem = s.mem ∧
      u.agenda = left
    (∀ i, s.agenda = pre ++ .event i :: rest → s.freeze.frozen = false ∨ mgmtEvent i = true →
      step s = exec i (taken s (pre ++ rest))) ∧
    (s.freeze.frozen = true → (s.agenda = pre ++ .tick :: rest → ticks (pre ++ rest)) ∧ (s.agenda = pre → ticks pre))

/-- Words written out from the encodings of the spec decode to the instructions they stand for (02 R20, R21, 04 R104, R111,
16 R393, R395), and reserved words to none (02 R48). -/
def Obligations.SpecWordsDecode : Prop :=
  decode 0x01000000 = .ok .nop ∧ decode 0x10040506 = .ok (.iadd (.v 4) (.v 5) (.v 6)) ∧
  decode 0x300704C2 = .ok (.fadd (.v 7) (.v 4) (.s 2)) ∧ decode 0x032FFFFD = .ok (.bra 2 (-3)) ∧
  decode 0x520321C0 = .ok (.plog 3 1 2 0 0xC0) ∧ decode 0x90310802 = .ok (.ldg 3 false .stream (.v 8) (.v 2)) ∧
  decode 0x0E00002A = .ok (.trap 0x2A) ∧ decode 0xF5000001 = .ok (.premask true) ∧
  (∃ e, decode 0 = .error e) ∧ (∃ e, decode 0x10F30506 = .error e) ∧ ∃ e, decode 0x70F00102 = .error e

/-- Decoding the word of a well-formed instruction gives that instruction: every field of every encoding is kept. -/
def Obligations.DecodeUndoesEncode : Prop :=
  ∀ (i : Instr) (w : Nat), i.wf = true → encode i = some w → decode (BitVec.ofNat 32 w) = .ok i

/-- What a word decodes to is a well-formed instruction whose own word is the word decoded, but for the bits that log entry
13 (DEDUCED) ignores: every reserved field, value, specifier and look is refused (02 R48). -/
def Obligations.DecodedWordsAreWellFormed : Prop :=
  ∀ (w : Word) (i : Instr), decode w = .ok i →
    i.wf = true ∧ ∃ v, encode i = some v ∧ v = w.toNat - (w.toNat &&& ignoredBits i)

/-- Memory keeps its canonical form through every step, from every state that has it. -/
def Obligations.MemoryStaysCanonical : Prop := KeptByStep MemOk

/-- 04 R92, R93: whatever word is executed in a state whose path tables are ascending, with each MASK within its ORIGIN and
disjoint origins, leaves them so; p0 is all ones in every state (02 R29). RFT with P = 1 is apart: the
operation that it performs again may be a control core's store to a core-state window, which holds whatever firmware writes. -/
def Obligations.WordsKeepPaths : Prop :=
  (∀ (i : Instr) (s u : State), (encode i).isSome = true → (∀ d a, i ≠ .rft true d a) → PathsOk s → exec i s = .next u → PathsOk u) ∧
  ∀ G : Machine.Group, predOf G 0 = BitVec.allOnes 96

/-- After reset (19 R438): no team, queue, context or outstanding work, empty canonical memory, the global tick 0, no
freeze; the supervisor's values that the manual does not give are the model's choice (log entry 3). -/
def Obligations.ResetState : Prop :=
  let s := State.reset
  MemOk s ∧ PathsOk s ∧ s.gt = 0 ∧ s.mem = [] ∧ s.queues = [] ∧ s.ctxs = [] ∧ s.bad = [] ∧ s.freeze.frozen = false ∧
    s.agenda = [] ∧ (s.teams.all fun e => e.2.ctl) = true ∧ s.sup.power = 10000
end

