-- ==== Sys2Proof/Laws/Table.lean ====
section
/-! SUPPORT. Laws of sparse tables: reading after writing, and the canonical form. -/

namespace Sys2Proof.Machine

variable {α β : Type}

@[simp] theorem tfind_nil (k : Nat) : tfind ([] : Table α) k = none := rfl

theorem tfind_cons (j k : Nat) (v : α) (m : Table α) :
    tfind ((j, v) :: m) k = if j = k then some v else tfind m k := rfl

theorem tfind_tput (m : Table α) (k j : Nat) (v : α) :
    tfind (tput m k v) j = if k = j then some v else tfind m j := by
  induction m with
  | nil => simp [tput, tfind_cons]
  | cons e m ih =>
    obtain ⟨i, w⟩ := e
    simp only [tput]
    split
    · subst_vars; simp only [tfind_cons]; split <;> simp_all
    · split
      · simp only [tfind_cons]
      · simp only [tfind_cons, ih]; split <;> split <;> simp_all

@[simp] theorem tfind_tput_self (m : Table α) (k : Nat) (v : α) : tfind (tput m k v) k = some v := by
  simp [tfind_tput]

theorem tfind_tdel (m : Table α) (k j : Nat) : tfind (tdel m k) j = if k = j then none else tfind m j := by
  induction m with
  | nil => simp [tdel]
  | cons e m ih =>
    obtain ⟨i, w⟩ := e
    simp only [tdel]
    split
    · rw [ih]; split <;> simp_all [tfind_cons]
    · simp only [tfind_cons, ih]; split <;> split <;> simp_all

theorem tfind_tmod (m : Table α) (k j : Nat) (f : α → α) :
    tfind (tmod m k f) j = if k = j then (tfind m j).map f else tfind m j := by
  induction m with
  | nil => simp [tmod]
  | cons e m ih =>
    obtain ⟨i, w⟩ := e
    simp only [tmod]
    split
    · subst_vars; simp only [tfind_cons]; split <;> simp_all
    · simp only [tfind_cons, ih]; split <;> split <;> simp_all

theorem tmod_congr {m : Table α} {k : Nat} {f f' : α → α} (h : ∀ v, tfind m k = some v → f v = f' v) :
    tmod m k f = tmod m k f' := by
  induction m with
  | nil => rfl
  | cons e m ih =>
    obtain ⟨i, w⟩ := e
    simp only [tmod]
    by_cases c : i = k
    · rw [if_pos c, if_pos c, h w (by simp [tfind_cons, c])]
    · rw [if_neg c, if_neg c, ih fun v hv => h v (by simpa [tfind_cons, c] using hv)]

theorem tfind_tmap (m : Table α) (f : Nat → α → β) (k : Nat) : tfind (tmap m f) k = (tfind m k).map (f k) := by
  induction m with
  | nil => simp [tmap]
  | cons e m ih =>
    obtain ⟨i, w⟩ := e
    simp only [tmap, List.map_cons, tfind_cons] at ih ⊢
    split <;> simp_all

theorem tget_tput (d : α) (m : Table α) (k j : Nat) (v : α) :
    tget d (tput m k v) j = if k = j then v else tget d m j := by
  simp only [tget, tfind_tput]; split <;> simp

@[simp] theorem tget_tput_self (d : α) (m : Table α) (k : Nat) (v : α) : tget d (tput m k v) k = v := by
  simp [tget_tput]

theorem tget_tset [DecidableEq α] (d : α) (m : Table α) (k j : Nat) (v : α) :
    tget d (tset d m k v) j = if k = j then v else tget d m j := by
  unfold tset tget
  split
  · rw [tfind_tdel]; split <;> simp_all
  · rw [tfind_tput]; split <;> simp_all

@[simp] theorem tget_tset_self [DecidableEq α] (d : α) (m : Table α) (k : Nat) (v : α) :
    tget d (tset d m k v) k = v := by simp [tget_tset]

/-! ### Blocks of consecutive keys -/

theorem tfind_filter_key (m : Table α) (p : Nat → Bool) (k : Nat) :
    tfind (m.filter fun e => p e.1) k = if p k then tfind m k else none := by
  induction m with
  | nil => simp
  | cons e m ih =>
    obtain ⟨i, w⟩ := e
    simp only [List.filter_cons]
    by_cases hi : p i
    · simp only [hi, if_true, tfind_cons, ih]
      by_cases h : i = k
      · subst h; simp [hi]
      · simp [h]
    · simp only [hi, tfind_cons]
      rw [if_neg (by simp), ih]
      by_cases h : i = k
      · subst h; simp [hi]
      · simp [h]

theorem tfind_append (a b : Table α) (k : Nat) : tfind (a ++ b) k = (tfind a k).or (tfind b k) := by
  induction a with
  | nil => simp
  | cons e m ih =>
    obtain ⟨i, w⟩ := e
    simp only [List.cons_append, tfind_cons, ih]
    split <;> simp

/-- The listed entries of a block of values from key `k` on. -/
def blockEntries [DecidableEq α] (d : α) (k : Nat) (vs : List α) : Table α :=
  (vs.zip (List.range vs.length)).filterMap fun x => if x.1 = d then none else some (k + x.2, x.1)

theorem blockEntries_cons [DecidableEq α] (d v : α) (k : Nat) (vs : List α) :
    blockEntries d k (v :: vs) = (if v = d then [] else [(k, v)]) ++ blockEntries d (k + 1) vs := by
  unfold blockEntries
  have h : (v :: vs).zip (List.range (v :: vs).length) = (v, 0) :: (vs.zip (List.range vs.length)).map fun x => (x.1, x.2 + 1) := by
    rw [List.length_cons, List.range_succ_eq_map, List.zip_cons_cons]
    congr 1
    rw [List.zip_map_right]
    rfl
  rw [h, List.filterMap_cons, List.filterMap_map]
  have h2 : ((fun x : α × Nat => if x.1 = d then none else some (k + x.2, x.1)) ∘ fun x : α × Nat => (x.1, x.2 + 1))
      = fun x : α × Nat => if x.1 = d then none else some (k + 1 + x.2, x.1) := by
    funext x; simp [Nat.add_assoc, Nat.add_comm 1]
  rw [h2]
  split <;> simp_all

theorem tfind_blockEntries [DecidableEq α] (d : α) (vs : List α) (k j : Nat) :
    tfind (blockEntries d k vs) j =
      if k ≤ j ∧ j < k + vs.length then (if vs.getD (j - k) d = d then none else some (vs.getD (j - k) d)) else none := by
  induction vs generalizing k with
  | nil => simp [blockEntries]
  | cons v vs ih =>
    rw [blockEntries_cons, tfind_append, ih]
    by_cases h : j = k
    · subst h
      by_cases hv : v = d
      · simp [hv]
      · simp [hv, tfind_cons]
    · by_cases h2 : k + 1 ≤ j
      · have e : j - k = (j - (k + 1)) + 1 := by omega
        have l : tfind (if v = d then [] else [(k, v)]) j = none := by split <;> simp [tfind_cons, Ne.symm h]
        simp only [l, Option.none_or, e, List.getD_cons_succ, List.length_cons]
        have c : (k + 1 ≤ j ∧ j < k + 1 + vs.length) ↔ (k ≤ j ∧ j < k + (vs.length + 1)) := by omega
        simp only [c]
      · have l : tfind (if v = d then [] else [(k, v)]) j = none := by split <;> simp [tfind_cons, Ne.symm h]
        rw [l, if_neg (by omega), if_neg (by omega)]; rfl

/-- One key after a block write. -/
theorem tget_tblit [DecidableEq α] (d : α) (m : Table α) (k j : Nat) (vs : List α) :
    tget d (tblit d m k vs) j = if k ≤ j ∧ j < k + vs.length then vs.getD (j - k) d else tget d m j := by
  have e : tblit d m k vs = (m.filter fun e => decide (e.1 < k)) ++ blockEntries d k vs ++
      (m.filter fun e => decide (k + vs.length ≤ e.1)) := rfl
  unfold tget
  rw [e, tfind_append, tfind_append, tfind_blockEntries,
    tfind_filter_key m (fun i => decide (i < k)), tfind_filter_key m (fun i => decide (k + vs.length ≤ i))]
  by_cases h1 : j < k
  · have : ¬ (k ≤ j ∧ j < k + vs.length) := by omega
    have h3 : ¬ (k + vs.length ≤ j) := by omega
    simp [h1, this, h3]
  · by_cases h2 : j < k + vs.length
    · have h3 : ¬ (k + vs.length ≤ j) := by omega
      have h4 : k ≤ j ∧ j < k + vs.length := by omega
      simp only [h1, h3, h4]
      simp only [decide_false, Bool.false_eq_true, if_false, Option.none_or, and_self, if_true, Option.or_none]
      split <;> simp_all
    · have h4 : ¬ (k ≤ j ∧ j < k + vs.length) := by omega
      have h3 : k + vs.length ≤ j := by omega
      simp [h1, h3, h4]

/-! ### The canonical form -/

theorem tsorted_mono {lo lo' : Nat} {m : Table α} (h : lo ≤ lo') (hs : tsorted lo' m = true) : tsorted lo m = true := by
  cases m with
  | nil => rfl
  | cons e m => obtain ⟨i, w⟩ := e; simp only [tsorted, Bool.and_eq_true, decide_eq_true_eq] at *; exact ⟨by omega, hs.2⟩

theorem tsorted_iff {lo : Nat} {m : Table α} :
    tsorted lo m = true ↔ (m.map (·.1)).Pairwise (· < ·) ∧ ∀ e ∈ m, lo ≤ e.1 := by
  induction m generalizing lo with
  | nil => simp [tsorted]
  | cons e m ih =>
    obtain ⟨i, w⟩ := e
    simp only [tsorted, Bool.and_eq_true, decide_eq_true_eq, ih, List.map_cons, List.pairwise_cons, List.mem_map,
      List.mem_cons]
    constructor
    · rintro ⟨h, hp, ha⟩
      refine ⟨⟨?_, hp⟩, ?_⟩
      · rintro a ⟨x, hx, rfl⟩; have := ha x hx; omega
      · rintro x (rfl | hx)
        · exact h
        · have := ha x hx; omega
    · rintro ⟨⟨h1, hp⟩, h2⟩
      refine ⟨h2 _ (Or.inl rfl), hp, fun x hx => ?_⟩
      have := h1 x.1 ⟨x, hx, rfl⟩; omega

theorem twf_iff [DecidableEq α] {d : α} {m : Table α} :
    twf d m = true ↔ (m.map (·.1)).Pairwise (· < ·) ∧ ∀ e ∈ m, e.2 ≠ d := by
  unfold twf
  rw [Bool.and_eq_true, tsorted_iff, List.all_eq_true]
  constructor
  · rintro ⟨⟨h, _⟩, h2⟩; exact ⟨h, fun e he => by simpa using h2 e he⟩
  · rintro ⟨h, h2⟩; exact ⟨⟨h, fun _ _ => Nat.zero_le _⟩, fun e he => by simpa using h2 e he⟩

theorem blockEntries_keys [DecidableEq α] (d : α) (k : Nat) (vs : List α) :
    ∀ e ∈ blockEntries d k vs, k ≤ e.1 ∧ e.1 < k + vs.length ∧ e.2 ≠ d := by
  induction vs generalizing k with
  | nil => simp [blockEntries]
  | cons v vs ih =>
    intro e he
    rw [blockEntries_cons, List.mem_append] at he
    rcases he with he | he
    · split at he <;> simp_all
    · have := ih (k + 1) e he
      simp only [List.length_cons]
      exact ⟨by omega, by omega, this.2.2⟩

theorem blockEntries_sorted [DecidableEq α] (d : α) (k : Nat) (vs : List α) :
    ((blockEntries d k vs).map (·.1)).Pairwise (· < ·) := by
  induction vs generalizing k with
  | nil => simp [blockEntries]
  | cons v vs ih =>
    rw [blockEntries_cons, List.map_append, List.pairwise_append]
    refine ⟨by split <;> simp, ih (k + 1), ?_⟩
    intro a ha b hb
    obtain ⟨x, hx, rfl⟩ := List.mem_map.mp hb
    have := blockEntries_keys d (k + 1) vs x hx
    split at ha <;> simp_all

/-- A block write keeps the canonical form. -/
theorem twf_tblit [DecidableEq α] {d : α} {m : Table α} (k : Nat) (vs : List α) (h : twf d m = true) :
    twf d (tblit d m k vs) = true := by
  rw [twf_iff] at h ⊢
  obtain ⟨hs, hd⟩ := h
  have e : tblit d m k vs = (m.filter fun e => decide (e.1 < k)) ++ blockEntries d k vs ++
      (m.filter fun e => decide (k + vs.length ≤ e.1)) := rfl
  have hsub : ∀ p : Nat × α → Bool, ((m.filter p).map (·.1)).Pairwise (· < ·) := fun p =>
    hs.sublist (List.Sublist.map _ List.filter_sublist)
  rw [e]
  constructor
  · rw [List.map_append, List.map_append, List.pairwise_append, List.pairwise_append]
    refine ⟨⟨hsub _, blockEntries_sorted d k vs, ?_⟩, hsub _, ?_⟩
    · intro a ha b hb
      obtain ⟨x, hx, rfl⟩ := List.mem_map.mp ha
      obtain ⟨y, hy, rfl⟩ := List.mem_map.mp hb
      have := (List.mem_filter.mp hx).2
      have := blockEntries_keys d k vs y hy
      simp at *; omega
    · intro a ha b hb
      obtain ⟨y, hy, rfl⟩ := List.mem_map.mp hb
      have hy2 := (List.mem_filter.mp hy).2
      rw [← List.map_append] at ha
      obtain ⟨x, hx, rfl⟩ := List.mem_map.mp ha
      rcases List.mem_append.mp hx with hx | hx
      · have := (List.mem_filter.mp hx).2; simp at *; omega
      · have := blockEntries_keys d k vs x hx; simp at *; omega
  · intro x hx
    rcases List.mem_append.mp hx with hx | hx
    · rcases List.mem_append.mp hx with hx | hx
      · exact hd x (List.mem_filter.mp hx).1
      · exact (blockEntries_keys d k vs x hx).2.2
    · exact hd x (List.mem_filter.mp hx).1

theorem mem_tput {m : Table α} {k : Nat} {v : α} {e : Nat × α} (h : e ∈ tput m k v) : e = (k, v) ∨ e ∈ m := by
  induction m with
  | nil => simp [tput] at h; exact Or.inl h
  | cons x m ih =>
    obtain ⟨i, w⟩ := x
    simp only [tput] at h
    split at h
    · simp only [List.mem_cons] at h ⊢; tauto
    · split at h
      · simpa using h
      · simp only [List.mem_cons] at h ⊢
        rcases h with h | h
        · tauto
        · have := ih h; tauto

theorem mem_tdel {m : Table α} {k : Nat} {e : Nat × α} (h : e ∈ tdel m k) : e ∈ m := by
  induction m with
  | nil => exact h
  | cons x m ih =>
    obtain ⟨i, w⟩ := x
    simp only [tdel] at h
    split at h
    · exact List.mem_cons_of_mem _ (ih h)
    · simp only [List.mem_cons] at h ⊢
      rcases h with h | h
      · exact Or.inl h
      · exact Or.inr (ih h)

theorem tput_sorted {m : Table α} (k : Nat) (v : α) (h : (m.map (·.1)).Pairwise (· < ·)) :
    ((tput m k v).map (·.1)).Pairwise (· < ·) := by
  induction m with
  | nil => simp [tput]
  | cons x m ih =>
    obtain ⟨i, w⟩ := x
    simp only [List.map_cons, List.pairwise_cons] at h
    simp only [tput]
    split
    · subst_vars; simpa using h
    · split
      · simp only [List.map_cons, List.pairwise_cons, List.mem_cons]
        refine ⟨?_, h⟩
        rintro a (rfl | ha)
        · assumption
        · have := h.1 a ha; omega
      · simp only [List.map_cons, List.pairwise_cons]
        refine ⟨?_, ih h.2⟩
        intro a ha
        obtain ⟨e, he, rfl⟩ := List.mem_map.mp ha
        rcases mem_tput he with rfl | he
        · simp only; omega
        · exact h.1 _ (List.mem_map_of_mem he)

theorem tdel_sorted {m : Table α} (k : Nat) (h : (m.map (·.1)).Pairwise (· < ·)) :
    ((tdel m k).map (·.1)).Pairwise (· < ·) := by
  induction m with
  | nil => simp [tdel]
  | cons x m ih =>
    obtain ⟨i, w⟩ := x
    simp only [List.map_cons, List.pairwise_cons] at h
    simp only [tdel]
    split
    · exact ih h.2
    · simp only [List.map_cons, List.pairwise_cons]
      refine ⟨?_, ih h.2⟩
      intro a ha
      obtain ⟨e, he, rfl⟩ := List.mem_map.mp ha
      exact h.1 _ (List.mem_map_of_mem (mem_tdel he))

/-- A write of one key keeps the canonical form. -/
theorem twf_tset [DecidableEq α] {d : α} {m : Table α} (k : Nat) (v : α) (h : twf d m = true) :
    twf d (tset d m k v) = true := by
  rw [twf_iff] at h ⊢
  unfold tset
  split
  · exact ⟨tdel_sorted k h.1, fun e he => h.2 e (mem_tdel he)⟩
  · refine ⟨tput_sorted k v h.1, fun e he => ?_⟩
    rcases mem_tput he with rfl | he
    · assumption
    · exact h.2 e he

/-- Removing entries keeps the canonical form. -/
theorem twf_filter [DecidableEq α] {d : α} {m : Table α} (p : Nat × α → Bool) (h : twf d m = true) :
    twf d (m.filter p) = true := by
  rw [twf_iff] at h ⊢
  exact ⟨h.1.sublist (List.Sublist.map _ List.filter_sublist), fun e he => h.2 e (List.mem_filter.mp he).1⟩

@[simp] theorem twf_nil [DecidableEq α] (d : α) : twf d ([] : Table α) = true := rfl

/-! ### Reading a run of keys -/

theorem tget_below {d : α} {m : Table α} {k lo : Nat} (h : tsorted lo m = true) (hk : k < lo) : tget d m k = d := by
  induction m generalizing lo with
  | nil => rfl
  | cons e m ih =>
    obtain ⟨j, v⟩ := e
    simp only [tsorted, Bool.and_eq_true, decide_eq_true_eq] at h
    have := ih (lo := j + 1) h.2 (by omega)
    unfold tget at this ⊢
    rw [tfind_cons, if_neg (by omega)]; exact this

/-- A walk over entries from key k up reads each key. -/
theorem twalk_eq (d : α) (n : Nat) : ∀ (m : Table α) (k : Nat), tsorted k m = true →
    twalk d m k n = (List.range n).map fun i => tget d m (k + i) := by
  induction n with
  | zero => intro m k _; cases m <;> rfl
  | succ n ih =>
    intro m k h
    rw [List.range_succ_eq_map, List.map_cons, List.map_map]
    cases m with
    | nil =>
      have := ih [] (k + 1) rfl
      unfold twalk
      simpa [tget, Function.comp_def] using this
    | cons e m =>
      obtain ⟨j, v⟩ := e
      simp only [tsorted, Bool.and_eq_true, decide_eq_true_eq] at h
      unfold twalk
      by_cases hj : j = k
      · subst hj
        rw [if_pos rfl, ih m (j + 1) h.2]
        congr 1
        · simp [tget, tfind_cons]
        · apply List.map_congr_left
          intro i _
          simp only [Function.comp, tget, tfind_cons]
          rw [if_neg (by omega)]; congr 2; omega
      · rw [if_neg hj, ih ((j, v) :: m) (k + 1) (by simp [tsorted, h.2]; omega)]
        congr 1
        · have : tget d ((j, v) :: m) k = d := tget_below (lo := k + 1) (by simp [tsorted, h.2]; omega) (by omega)
          rw [Nat.add_zero, this]
        · apply List.map_congr_left
          intro i _
          simp only [Function.comp]
          congr 1; omega

theorem tsorted_dropWhile {m : Table α} {lo : Nat} (k : Nat) (h : tsorted lo m = true) :
    tsorted k (m.dropWhile fun e => decide (e.1 < k)) = true := by
  induction m generalizing lo with
  | nil => rfl
  | cons e m ih =>
    obtain ⟨j, v⟩ := e
    have h' := h
    simp only [tsorted, Bool.and_eq_true, decide_eq_true_eq] at h
    simp only [List.dropWhile_cons]
    split
    · exact ih h.2
    · rename_i hj
      simp only [decide_eq_true_eq] at hj
      simp only [tsorted, Bool.and_eq_true, decide_eq_true_eq]; exact ⟨by omega, h.2⟩

theorem tget_dropWhile (d : α) (m : Table α) (k j : Nat) (hj : k ≤ j) :
    tget d (m.dropWhile fun e => decide (e.1 < k)) j = tget d m j := by
  induction m with
  | nil => rfl
  | cons e m ih =>
    obtain ⟨i, v⟩ := e
    simp only [List.dropWhile_cons]
    split
    · rename_i hi
      simp only [decide_eq_true_eq] at hi
      rw [ih]; unfold tget; rw [tfind_cons, if_neg (by omega)]
    · rfl

/-- Reading n consecutive keys of a table in canonical form reads each of them. -/
theorem tspan_eq {d : α} {m : Table α} (k n : Nat) (h : tsorted 0 m = true) :
    tspan d m k n = (List.range n).map fun i => tget d m (k + i) := by
  unfold tspan
  rw [twalk_eq _ _ _ _ (tsorted_dropWhile k h)]
  apply List.map_congr_left
  intro i _
  exact tget_dropWhile d m k _ (by omega)

end Sys2Proof.Machine
end

