-- ==== Sys2Proof/Laws/State.lean ====
section
/-! SUPPORT. What a field of the state reads as after each named update of the state. -/

namespace Sys2Proof.Machine
open Sys2Proof.Safety

/-! ### One lemma per field per update -/

@[simp] theorem modTeam_gt (s : State) (t : Nat) (f : Team → Team) : (modTeam s t f).gt = s.gt := rfl
@[simp] theorem modTeam_mem (s : State) (t : Nat) (f : Team → Team) : (modTeam s t f).mem = s.mem := rfl
@[simp] theorem modTeam_bad (s : State) (t : Nat) (f : Team → Team) : (modTeam s t f).bad = s.bad := rfl
@[simp] theorem modTeam_walkBad (s : State) (t : Nat) (f : Team → Team) : (modTeam s t f).walkBad = s.walkBad := rfl
@[simp] theorem modTeam_ran (s : State) (t : Nat) (f : Team → Team) : (modTeam s t f).ran = s.ran := rfl
@[simp] theorem modTeam_copyBad (s : State) (t : Nat) (f : Team → Team) : (modTeam s t f).copyBad = s.copyBad := rfl
@[simp] theorem modTeam_lineBad (s : State) (t : Nat) (f : Team → Team) : (modTeam s t f).lineBad = s.lineBad := rfl
@[simp] theorem modTeam_moves (s : State) (t : Nat) (f : Team → Team) : (modTeam s t f).moves = s.moves := rfl
@[simp] theorem modTeam_lines (s : State) (t : Nat) (f : Team → Team) : (modTeam s t f).lines = s.lines := rfl
@[simp] theorem modTeam_past (s : State) (t : Nat) (f : Team → Team) : (modTeam s t f).past = s.past := rfl
@[simp] theorem modTeam_downStacks (s : State) (t : Nat) (f : Team → Team) : (modTeam s t f).downStacks = s.downStacks := rfl
@[simp] theorem modTeam_cores (s : State) (t : Nat) (f : Team → Team) : (modTeam s t f).cores = s.cores := rfl
@[simp] theorem modTeam_clusters (s : State) (t : Nat) (f : Team → Team) : (modTeam s t f).clusters = s.clusters := rfl
@[simp] theorem modTeam_ctxs (s : State) (t : Nat) (f : Team → Team) : (modTeam s t f).ctxs = s.ctxs := rfl
@[simp] theorem modTeam_dies (s : State) (t : Nat) (f : Team → Team) : (modTeam s t f).dies = s.dies := rfl
@[simp] theorem modTeam_queues (s : State) (t : Nat) (f : Team → Team) : (modTeam s t f).queues = s.queues := rfl
@[simp] theorem modTeam_startDie (s : State) (t : Nat) (f : Team → Team) : (modTeam s t f).startDie = s.startDie := rfl
@[simp] theorem modTeam_qio (s : State) (t : Nat) (f : Team → Team) : (modTeam s t f).qio = s.qio := rfl
@[simp] theorem modTeam_cmds (s : State) (t : Nat) (f : Team → Team) : (modTeam s t f).cmds = s.cmds := rfl
@[simp] theorem modTeam_loads (s : State) (t : Nat) (f : Team → Team) : (modTeam s t f).loads = s.loads := rfl
@[simp] theorem modTeam_freeze (s : State) (t : Nat) (f : Team → Team) : (modTeam s t f).freeze = s.freeze := rfl
@[simp] theorem modTeam_captures (s : State) (t : Nat) (f : Team → Team) : (modTeam s t f).captures = s.captures := rfl
@[simp] theorem modTeam_replays (s : State) (t : Nat) (f : Team → Team) : (modTeam s t f).replays = s.replays := rfl
@[simp] theorem modTeam_cur (s : State) (t : Nat) (f : Team → Team) : (modTeam s t f).cur = s.cur := rfl
@[simp] theorem modTeam_agenda (s : State) (t : Nat) (f : Team → Team) : (modTeam s t f).agenda = s.agenda := rfl
@[simp] theorem modTeam_irqs (s : State) (t : Nat) (f : Team → Team) : (modTeam s t f).irqs = s.irqs := rfl
@[simp] theorem modTeam_windows (s : State) (t : Nat) (f : Team → Team) : (modTeam s t f).windows = s.windows := rfl
@[simp] theorem modTeam_bus (s : State) (t : Nat) (f : Team → Team) : (modTeam s t f).bus = s.bus := rfl
@[simp] theorem modTeam_sup (s : State) (t : Nat) (f : Team → Team) : (modTeam s t f).sup = s.sup := rfl
@[simp] theorem modTeam_nextId (s : State) (t : Nat) (f : Team → Team) : (modTeam s t f).nextId = s.nextId := rfl
@[simp] theorem modTeam_free (s : State) (t : Nat) (f : Team → Team) : (modTeam s t f).free = s.free := rfl
@[simp] theorem modGroup_gt (s : State) (t g : Nat) (f : Group → Group) : (modGroup s t g f).gt = s.gt := rfl
@[simp] theorem modGroup_mem (s : State) (t g : Nat) (f : Group → Group) : (modGroup s t g f).mem = s.mem := rfl
@[simp] theorem modGroup_bad (s : State) (t g : Nat) (f : Group → Group) : (modGroup s t g f).bad = s.bad := rfl
@[simp] theorem modGroup_walkBad (s : State) (t g : Nat) (f : Group → Group) : (modGroup s t g f).walkBad = s.walkBad := rfl
@[simp] theorem modGroup_ran (s : State) (t g : Nat) (f : Group → Group) : (modGroup s t g f).ran = s.ran := rfl
@[simp] theorem modGroup_copyBad (s : State) (t g : Nat) (f : Group → Group) : (modGroup s t g f).copyBad = s.copyBad := rfl
@[simp] theorem modGroup_lineBad (s : State) (t g : Nat) (f : Group → Group) : (modGroup s t g f).lineBad = s.lineBad := rfl
@[simp] theorem modGroup_moves (s : State) (t g : Nat) (f : Group → Group) : (modGroup s t g f).moves = s.moves := rfl
@[simp] theorem modGroup_lines (s : State) (t g : Nat) (f : Group → Group) : (modGroup s t g f).lines = s.lines := rfl
@[simp] theorem modGroup_past (s : State) (t g : Nat) (f : Group → Group) : (modGroup s t g f).past = s.past := rfl
@[simp] theorem modGroup_downStacks (s : State) (t g : Nat) (f : Group → Group) : (modGroup s t g f).downStacks = s.downStacks := rfl
@[simp] theorem modGroup_cores (s : State) (t g : Nat) (f : Group → Group) : (modGroup s t g f).cores = s.cores := rfl
@[simp] theorem modGroup_clusters (s : State) (t g : Nat) (f : Group → Group) : (modGroup s t g f).clusters = s.clusters := rfl
@[simp] theorem modGroup_ctxs (s : State) (t g : Nat) (f : Group → Group) : (modGroup s t g f).ctxs = s.ctxs := rfl
@[simp] theorem modGroup_dies (s : State) (t g : Nat) (f : Group → Group) : (modGroup s t g f).dies = s.dies := rfl
@[simp] theorem modGroup_queues (s : State) (t g : Nat) (f : Group → Group) : (modGroup s t g f).queues = s.queues := rfl
@[simp] theorem modGroup_startDie (s : State) (t g : Nat) (f : Group → Group) : (modGroup s t g f).startDie = s.startDie := rfl
@[simp] theorem modGroup_qio (s : State) (t g : Nat) (f : Group → Group) : (modGroup s t g f).qio = s.qio := rfl
@[simp] theorem modGroup_cmds (s : State) (t g : Nat) (f : Group → Group) : (modGroup s t g f).cmds = s.cmds := rfl
@[simp] theorem modGroup_loads (s : State) (t g : Nat) (f : Group → Group) : (modGroup s t g f).loads = s.loads := rfl
@[simp] theorem modGroup_freeze (s : State) (t g : Nat) (f : Group → Group) : (modGroup s t g f).freeze = s.freeze := rfl
@[simp] theorem modGroup_captures (s : State) (t g : Nat) (f : Group → Group) : (modGroup s t g f).captures = s.captures := rfl
@[simp] theorem modGroup_replays (s : State) (t g : Nat) (f : Group → Group) : (modGroup s t g f).replays = s.replays := rfl
@[simp] theorem modGroup_cur (s : State) (t g : Nat) (f : Group → Group) : (modGroup s t g f).cur = s.cur := rfl
@[simp] theorem modGroup_agenda (s : State) (t g : Nat) (f : Group → Group) : (modGroup s t g f).agenda = s.agenda := rfl
@[simp] theorem modGroup_irqs (s : State) (t g : Nat) (f : Group → Group) : (modGroup s t g f).irqs = s.irqs := rfl
@[simp] theorem modGroup_windows (s : State) (t g : Nat) (f : Group → Group) : (modGroup s t g f).windows = s.windows := rfl
@[simp] theorem modGroup_bus (s : State) (t g : Nat) (f : Group → Group) : (modGroup s t g f).bus = s.bus := rfl
@[simp] theorem modGroup_sup (s : State) (t g : Nat) (f : Group → Group) : (modGroup s t g f).sup = s.sup := rfl
@[simp] theorem modGroup_nextId (s : State) (t g : Nat) (f : Group → Group) : (modGroup s t g f).nextId = s.nextId := rfl
@[simp] theorem modGroup_free (s : State) (t g : Nat) (f : Group → Group) : (modGroup s t g f).free = s.free := rfl
@[simp] theorem modPath_gt (s : State) (t g p : Nat) (f : Path → Path) : (modPath s t g p f).gt = s.gt := rfl
@[simp] theorem modPath_mem (s : State) (t g p : Nat) (f : Path → Path) : (modPath s t g p f).mem = s.mem := rfl
@[simp] theorem modPath_bad (s : State) (t g p : Nat) (f : Path → Path) : (modPath s t g p f).bad = s.bad := rfl
@[simp] theorem modPath_walkBad (s : State) (t g p : Nat) (f : Path → Path) : (modPath s t g p f).walkBad = s.walkBad := rfl
@[simp] theorem modPath_ran (s : State) (t g p : Nat) (f : Path → Path) : (modPath s t g p f).ran = s.ran := rfl
@[simp] theorem modPath_copyBad (s : State) (t g p : Nat) (f : Path → Path) : (modPath s t g p f).copyBad = s.copyBad := rfl
@[simp] theorem modPath_lineBad (s : State) (t g p : Nat) (f : Path → Path) : (modPath s t g p f).lineBad = s.lineBad := rfl
@[simp] theorem modPath_moves (s : State) (t g p : Nat) (f : Path → Path) : (modPath s t g p f).moves = s.moves := rfl
@[simp] theorem modPath_lines (s : State) (t g p : Nat) (f : Path → Path) : (modPath s t g p f).lines = s.lines := rfl
@[simp] theorem modPath_past (s : State) (t g p : Nat) (f : Path → Path) : (modPath s t g p f).past = s.past := rfl
@[simp] theorem modPath_downStacks (s : State) (t g p : Nat) (f : Path → Path) : (modPath s t g p f).downStacks = s.downStacks := rfl
@[simp] theorem modPath_cores (s : State) (t g p : Nat) (f : Path → Path) : (modPath s t g p f).cores = s.cores := rfl
@[simp] theorem modPath_clusters (s : State) (t g p : Nat) (f : Path → Path) : (modPath s t g p f).clusters = s.clusters := rfl
@[simp] theorem modPath_ctxs (s : State) (t g p : Nat) (f : Path → Path) : (modPath s t g p f).ctxs = s.ctxs := rfl
@[simp] theorem modPath_dies (s : State) (t g p : Nat) (f : Path → Path) : (modPath s t g p f).dies = s.dies := rfl
@[simp] theorem modPath_queues (s : State) (t g p : Nat) (f : Path → Path) : (modPath s t g p f).queues = s.queues := rfl
@[simp] theorem modPath_startDie (s : State) (t g p : Nat) (f : Path → Path) : (modPath s t g p f).startDie = s.startDie := rfl
@[simp] theorem modPath_qio (s : State) (t g p : Nat) (f : Path → Path) : (modPath s t g p f).qio = s.qio := rfl
@[simp] theorem modPath_cmds (s : State) (t g p : Nat) (f : Path → Path) : (modPath s t g p f).cmds = s.cmds := rfl
@[simp] theorem modPath_loads (s : State) (t g p : Nat) (f : Path → Path) : (modPath s t g p f).loads = s.loads := rfl
@[simp] theorem modPath_freeze (s : State) (t g p : Nat) (f : Path → Path) : (modPath s t g p f).freeze = s.freeze := rfl
@[simp] theorem modPath_captures (s : State) (t g p : Nat) (f : Path → Path) : (modPath s t g p f).captures = s.captures := rfl
@[simp] theorem modPath_replays (s : State) (t g p : Nat) (f : Path → Path) : (modPath s t g p f).replays = s.replays := rfl
@[simp] theorem modPath_cur (s : State) (t g p : Nat) (f : Path → Path) : (modPath s t g p f).cur = s.cur := rfl
@[simp] theorem modPath_agenda (s : State) (t g p : Nat) (f : Path → Path) : (modPath s t g p f).agenda = s.agenda := rfl
@[simp] theorem modPath_irqs (s : State) (t g p : Nat) (f : Path → Path) : (modPath s t g p f).irqs = s.irqs := rfl
@[simp] theorem modPath_windows (s : State) (t g p : Nat) (f : Path → Path) : (modPath s t g p f).windows = s.windows := rfl
@[simp] theorem modPath_bus (s : State) (t g p : Nat) (f : Path → Path) : (modPath s t g p f).bus = s.bus := rfl
@[simp] theorem modPath_sup (s : State) (t g p : Nat) (f : Path → Path) : (modPath s t g p f).sup = s.sup := rfl
@[simp] theorem modPath_nextId (s : State) (t g p : Nat) (f : Path → Path) : (modPath s t g p f).nextId = s.nextId := rfl
@[simp] theorem modPath_free (s : State) (t g p : Nat) (f : Path → Path) : (modPath s t g p f).free = s.free := rfl
@[simp] theorem modCtx_gt (s : State) (c : Nat) (f : Ctx → Ctx) : (modCtx s c f).gt = s.gt := rfl
@[simp] theorem modCtx_mem (s : State) (c : Nat) (f : Ctx → Ctx) : (modCtx s c f).mem = s.mem := rfl
@[simp] theorem modCtx_bad (s : State) (c : Nat) (f : Ctx → Ctx) : (modCtx s c f).bad = s.bad := rfl
@[simp] theorem modCtx_walkBad (s : State) (c : Nat) (f : Ctx → Ctx) : (modCtx s c f).walkBad = s.walkBad := rfl
@[simp] theorem modCtx_ran (s : State) (c : Nat) (f : Ctx → Ctx) : (modCtx s c f).ran = s.ran := rfl
@[simp] theorem modCtx_copyBad (s : State) (c : Nat) (f : Ctx → Ctx) : (modCtx s c f).copyBad = s.copyBad := rfl
@[simp] theorem modCtx_lineBad (s : State) (c : Nat) (f : Ctx → Ctx) : (modCtx s c f).lineBad = s.lineBad := rfl
@[simp] theorem modCtx_moves (s : State) (c : Nat) (f : Ctx → Ctx) : (modCtx s c f).moves = s.moves := rfl
@[simp] theorem modCtx_lines (s : State) (c : Nat) (f : Ctx → Ctx) : (modCtx s c f).lines = s.lines := rfl
@[simp] theorem modCtx_past (s : State) (c : Nat) (f : Ctx → Ctx) : (modCtx s c f).past = s.past := rfl
@[simp] theorem modCtx_downStacks (s : State) (c : Nat) (f : Ctx → Ctx) : (modCtx s c f).downStacks = s.downStacks := rfl
@[simp] theorem modCtx_teams (s : State) (c : Nat) (f : Ctx → Ctx) : (modCtx s c f).teams = s.teams := rfl
@[simp] theorem modCtx_cores (s : State) (c : Nat) (f : Ctx → Ctx) : (modCtx s c f).cores = s.cores := rfl
@[simp] theorem modCtx_clusters (s : State) (c : Nat) (f : Ctx → Ctx) : (modCtx s c f).clusters = s.clusters := rfl
@[simp] theorem modCtx_dies (s : State) (c : Nat) (f : Ctx → Ctx) : (modCtx s c f).dies = s.dies := rfl
@[simp] theorem modCtx_queues (s : State) (c : Nat) (f : Ctx → Ctx) : (modCtx s c f).queues = s.queues := rfl
@[simp] theorem modCtx_startDie (s : State) (c : Nat) (f : Ctx → Ctx) : (modCtx s c f).startDie = s.startDie := rfl
@[simp] theorem modCtx_qio (s : State) (c : Nat) (f : Ctx → Ctx) : (modCtx s c f).qio = s.qio := rfl
@[simp] theorem modCtx_cmds (s : State) (c : Nat) (f : Ctx → Ctx) : (modCtx s c f).cmds = s.cmds := rfl
@[simp] theorem modCtx_loads (s : State) (c : Nat) (f : Ctx → Ctx) : (modCtx s c f).loads = s.loads := rfl
@[simp] theorem modCtx_freeze (s : State) (c : Nat) (f : Ctx → Ctx) : (modCtx s c f).freeze = s.freeze := rfl
@[simp] theorem modCtx_captures (s : State) (c : Nat) (f : Ctx → Ctx) : (modCtx s c f).captures = s.captures := rfl
@[simp] theorem modCtx_replays (s : State) (c : Nat) (f : Ctx → Ctx) : (modCtx s c f).replays = s.replays := rfl
@[simp] theorem modCtx_cur (s : State) (c : Nat) (f : Ctx → Ctx) : (modCtx s c f).cur = s.cur := rfl
@[simp] theorem modCtx_agenda (s : State) (c : Nat) (f : Ctx → Ctx) : (modCtx s c f).agenda = s.agenda := rfl
@[simp] theorem modCtx_irqs (s : State) (c : Nat) (f : Ctx → Ctx) : (modCtx s c f).irqs = s.irqs := rfl
@[simp] theorem modCtx_windows (s : State) (c : Nat) (f : Ctx → Ctx) : (modCtx s c f).windows = s.windows := rfl
@[simp] theorem modCtx_bus (s : State) (c : Nat) (f : Ctx → Ctx) : (modCtx s c f).bus = s.bus := rfl
@[simp] theorem modCtx_sup (s : State) (c : Nat) (f : Ctx → Ctx) : (modCtx s c f).sup = s.sup := rfl
@[simp] theorem modCtx_nextId (s : State) (c : Nat) (f : Ctx → Ctx) : (modCtx s c f).nextId = s.nextId := rfl
@[simp] theorem modCtx_free (s : State) (c : Nat) (f : Ctx → Ctx) : (modCtx s c f).free = s.free := rfl
@[simp] theorem modCore_gt (s : State) (c : Nat) (f : Core → Core) : (modCore s c f).gt = s.gt := rfl
@[simp] theorem modCore_mem (s : State) (c : Nat) (f : Core → Core) : (modCore s c f).mem = s.mem := rfl
@[simp] theorem modCore_bad (s : State) (c : Nat) (f : Core → Core) : (modCore s c f).bad = s.bad := rfl
@[simp] theorem modCore_walkBad (s : State) (c : Nat) (f : Core → Core) : (modCore s c f).walkBad = s.walkBad := rfl
@[simp] theorem modCore_ran (s : State) (c : Nat) (f : Core → Core) : (modCore s c f).ran = s.ran := rfl
@[simp] theorem modCore_copyBad (s : State) (c : Nat) (f : Core → Core) : (modCore s c f).copyBad = s.copyBad := rfl
@[simp] theorem modCore_lineBad (s : State) (c : Nat) (f : Core → Core) : (modCore s c f).lineBad = s.lineBad := rfl
@[simp] theorem modCore_moves (s : State) (c : Nat) (f : Core → Core) : (modCore s c f).moves = s.moves := rfl
@[simp] theorem modCore_lines (s : State) (c : Nat) (f : Core → Core) : (modCore s c f).lines = s.lines := rfl
@[simp] theorem modCore_past (s : State) (c : Nat) (f : Core → Core) : (modCore s c f).past = s.past := rfl
@[simp] theorem modCore_downStacks (s : State) (c : Nat) (f : Core → Core) : (modCore s c f).downStacks = s.downStacks := rfl
@[simp] theorem modCore_teams (s : State) (c : Nat) (f : Core → Core) : (modCore s c f).teams = s.teams := rfl
@[simp] theorem modCore_clusters (s : State) (c : Nat) (f : Core → Core) : (modCore s c f).clusters = s.clusters := rfl
@[simp] theorem modCore_ctxs (s : State) (c : Nat) (f : Core → Core) : (modCore s c f).ctxs = s.ctxs := rfl
@[simp] theorem modCore_dies (s : State) (c : Nat) (f : Core → Core) : (modCore s c f).dies = s.dies := rfl
@[simp] theorem modCore_queues (s : State) (c : Nat) (f : Core → Core) : (modCore s c f).queues = s.queues := rfl
@[simp] theorem modCore_startDie (s : State) (c : Nat) (f : Core → Core) : (modCore s c f).startDie = s.startDie := rfl
@[simp] theorem modCore_qio (s : State) (c : Nat) (f : Core → Core) : (modCore s c f).qio = s.qio := rfl
@[simp] theorem modCore_cmds (s : State) (c : Nat) (f : Core → Core) : (modCore s c f).cmds = s.cmds := rfl
@[simp] theorem modCore_loads (s : State) (c : Nat) (f : Core → Core) : (modCore s c f).loads = s.loads := rfl
@[simp] theorem modCore_freeze (s : State) (c : Nat) (f : Core → Core) : (modCore s c f).freeze = s.freeze := rfl
@[simp] theorem modCore_captures (s : State) (c : Nat) (f : Core → Core) : (modCore s c f).captures = s.captures := rfl
@[simp] theorem modCore_replays (s : State) (c : Nat) (f : Core → Core) : (modCore s c f).replays = s.replays := rfl
@[simp] theorem modCore_cur (s : State) (c : Nat) (f : Core → Core) : (modCore s c f).cur = s.cur := rfl
@[simp] theorem modCore_agenda (s : State) (c : Nat) (f : Core → Core) : (modCore s c f).agenda = s.agenda := rfl
@[simp] theorem modCore_irqs (s : State) (c : Nat) (f : Core → Core) : (modCore s c f).irqs = s.irqs := rfl
@[simp] theorem modCore_windows (s : State) (c : Nat) (f : Core → Core) : (modCore s c f).windows = s.windows := rfl
@[simp] theorem modCore_bus (s : State) (c : Nat) (f : Core → Core) : (modCore s c f).bus = s.bus := rfl
@[simp] theorem modCore_sup (s : State) (c : Nat) (f : Core → Core) : (modCore s c f).sup = s.sup := rfl
@[simp] theorem modCore_nextId (s : State) (c : Nat) (f : Core → Core) : (modCore s c f).nextId = s.nextId := rfl
@[simp] theorem modCore_free (s : State) (c : Nat) (f : Core → Core) : (modCore s c f).free = s.free := rfl
@[simp] theorem modDie_gt (s : State) (d : Nat) (f : Die → Die) : (modDie s d f).gt = s.gt := rfl
@[simp] theorem modDie_mem (s : State) (d : Nat) (f : Die → Die) : (modDie s d f).mem = s.mem := rfl
@[simp] theorem modDie_bad (s : State) (d : Nat) (f : Die → Die) : (modDie s d f).bad = s.bad := rfl
@[simp] theorem modDie_walkBad (s : State) (d : Nat) (f : Die → Die) : (modDie s d f).walkBad = s.walkBad := rfl
@[simp] theorem modDie_ran (s : State) (d : Nat) (f : Die → Die) : (modDie s d f).ran = s.ran := rfl
@[simp] theorem modDie_copyBad (s : State) (d : Nat) (f : Die → Die) : (modDie s d f).copyBad = s.copyBad := rfl
@[simp] theorem modDie_lineBad (s : State) (d : Nat) (f : Die → Die) : (modDie s d f).lineBad = s.lineBad := rfl
@[simp] theorem modDie_moves (s : State) (d : Nat) (f : Die → Die) : (modDie s d f).moves = s.moves := rfl
@[simp] theorem modDie_lines (s : State) (d : Nat) (f : Die → Die) : (modDie s d f).lines = s.lines := rfl
@[simp] theorem modDie_past (s : State) (d : Nat) (f : Die → Die) : (modDie s d f).past = s.past := rfl
@[simp] theorem modDie_downStacks (s : State) (d : Nat) (f : Die → Die) : (modDie s d f).downStacks = s.downStacks := rfl
@[simp] theorem modDie_teams (s : State) (d : Nat) (f : Die → Die) : (modDie s d f).teams = s.teams := rfl
@[simp] theorem modDie_cores (s : State) (d : Nat) (f : Die → Die) : (modDie s d f).cores = s.cores := rfl
@[simp] theorem modDie_clusters (s : State) (d : Nat) (f : Die → Die) : (modDie s d f).clusters = s.clusters := rfl
@[simp] theorem modDie_ctxs (s : State) (d : Nat) (f : Die → Die) : (modDie s d f).ctxs = s.ctxs := rfl
@[simp] theorem modDie_queues (s : State) (d : Nat) (f : Die → Die) : (modDie s d f).queues = s.queues := rfl
@[simp] theorem modDie_startDie (s : State) (d : Nat) (f : Die → Die) : (modDie s d f).startDie = s.startDie := rfl
@[simp] theorem modDie_qio (s : State) (d : Nat) (f : Die → Die) : (modDie s d f).qio = s.qio := rfl
@[simp] theorem modDie_cmds (s : State) (d : Nat) (f : Die → Die) : (modDie s d f).cmds = s.cmds := rfl
@[simp] theorem modDie_loads (s : State) (d : Nat) (f : Die → Die) : (modDie s d f).loads = s.loads := rfl
@[simp] theorem modDie_freeze (s : State) (d : Nat) (f : Die → Die) : (modDie s d f).freeze = s.freeze := rfl
@[simp] theorem modDie_captures (s : State) (d : Nat) (f : Die → Die) : (modDie s d f).captures = s.captures := rfl
@[simp] theorem modDie_replays (s : State) (d : Nat) (f : Die → Die) : (modDie s d f).replays = s.replays := rfl
@[simp] theorem modDie_cur (s : State) (d : Nat) (f : Die → Die) : (modDie s d f).cur = s.cur := rfl
@[simp] theorem modDie_agenda (s : State) (d : Nat) (f : Die → Die) : (modDie s d f).agenda = s.agenda := rfl
@[simp] theorem modDie_irqs (s : State) (d : Nat) (f : Die → Die) : (modDie s d f).irqs = s.irqs := rfl
@[simp] theorem modDie_windows (s : State) (d : Nat) (f : Die → Die) : (modDie s d f).windows = s.windows := rfl
@[simp] theorem modDie_bus (s : State) (d : Nat) (f : Die → Die) : (modDie s d f).bus = s.bus := rfl
@[simp] theorem modDie_sup (s : State) (d : Nat) (f : Die → Die) : (modDie s d f).sup = s.sup := rfl
@[simp] theorem modDie_nextId (s : State) (d : Nat) (f : Die → Die) : (modDie s d f).nextId = s.nextId := rfl
@[simp] theorem modDie_free (s : State) (d : Nat) (f : Die → Die) : (modDie s d f).free = s.free := rfl
@[simp] theorem modQueue_gt (s : State) (q : Nat) (f : Queue → Queue) : (modQueue s q f).gt = s.gt := rfl
@[simp] theorem modQueue_ran (s : State) (q : Nat) (f : Queue → Queue) : (modQueue s q f).ran = s.ran := rfl
@[simp] theorem modQueue_mem (s : State) (q : Nat) (f : Queue → Queue) : (modQueue s q f).mem = s.mem := rfl
@[simp] theorem modQueue_bad (s : State) (q : Nat) (f : Queue → Queue) : (modQueue s q f).bad = s.bad := rfl
@[simp] theorem modQueue_walkBad (s : State) (q : Nat) (f : Queue → Queue) : (modQueue s q f).walkBad = s.walkBad := rfl
@[simp] theorem modQueue_copyBad (s : State) (q : Nat) (f : Queue → Queue) : (modQueue s q f).copyBad = s.copyBad := rfl
@[simp] theorem modQueue_lineBad (s : State) (q : Nat) (f : Queue → Queue) : (modQueue s q f).lineBad = s.lineBad := rfl
@[simp] theorem modQueue_past (s : State) (q : Nat) (f : Queue → Queue) : (modQueue s q f).past = s.past := rfl
@[simp] theorem modQueue_downStacks (s : State) (q : Nat) (f : Queue → Queue) : (modQueue s q f).downStacks = s.downStacks := rfl
@[simp] theorem modQueue_teams (s : State) (q : Nat) (f : Queue → Queue) : (modQueue s q f).teams = s.teams := rfl
@[simp] theorem modQueue_cores (s : State) (q : Nat) (f : Queue → Queue) : (modQueue s q f).cores = s.cores := rfl
@[simp] theorem modQueue_clusters (s : State) (q : Nat) (f : Queue → Queue) : (modQueue s q f).clusters = s.clusters := rfl
@[simp] theorem modQueue_ctxs (s : State) (q : Nat) (f : Queue → Queue) : (modQueue s q f).ctxs = s.ctxs := rfl
@[simp] theorem modQueue_dies (s : State) (q : Nat) (f : Queue → Queue) : (modQueue s q f).dies = s.dies := rfl
@[simp] theorem modQueue_startDie (s : State) (q : Nat) (f : Queue → Queue) : (modQueue s q f).startDie = s.startDie := rfl
@[simp] theorem modQueue_qio (s : State) (q : Nat) (f : Queue → Queue) : (modQueue s q f).qio = s.qio := rfl
@[simp] theorem modQueue_cmds (s : State) (q : Nat) (f : Queue → Queue) : (modQueue s q f).cmds = s.cmds := rfl
@[simp] theorem modQueue_loads (s : State) (q : Nat) (f : Queue → Queue) : (modQueue s q f).loads = s.loads := rfl
@[simp] theorem modQueue_moves (s : State) (q : Nat) (f : Queue → Queue) : (modQueue s q f).moves = s.moves := rfl
@[simp] theorem modQueue_lines (s : State) (q : Nat) (f : Queue → Queue) : (modQueue s q f).lines = s.lines := rfl
@[simp] theorem modQueue_freeze (s : State) (q : Nat) (f : Queue → Queue) : (modQueue s q f).freeze = s.freeze := rfl
@[simp] theorem modQueue_captures (s : State) (q : Nat) (f : Queue → Queue) : (modQueue s q f).captures = s.captures := rfl
@[simp] theorem modQueue_replays (s : State) (q : Nat) (f : Queue → Queue) : (modQueue s q f).replays = s.replays := rfl
@[simp] theorem modQueue_cur (s : State) (q : Nat) (f : Queue → Queue) : (modQueue s q f).cur = s.cur := rfl
@[simp] theorem modQueue_agenda (s : State) (q : Nat) (f : Queue → Queue) : (modQueue s q f).agenda = s.agenda := rfl
@[simp] theorem modQueue_irqs (s : State) (q : Nat) (f : Queue → Queue) : (modQueue s q f).irqs = s.irqs := rfl
@[simp] theorem modQueue_windows (s : State) (q : Nat) (f : Queue → Queue) : (modQueue s q f).windows = s.windows := rfl
@[simp] theorem modQueue_bus (s : State) (q : Nat) (f : Queue → Queue) : (modQueue s q f).bus = s.bus := rfl
@[simp] theorem modQueue_sup (s : State) (q : Nat) (f : Queue → Queue) : (modQueue s q f).sup = s.sup := rfl
@[simp] theorem modQueue_nextId (s : State) (q : Nat) (f : Queue → Queue) : (modQueue s q f).nextId = s.nextId := rfl
@[simp] theorem modQueue_free (s : State) (q : Nat) (f : Queue → Queue) : (modQueue s q f).free = s.free := rfl

/-! ### Teams, groups and paths after an update -/

theorem teamOf_modTeam (s : State) (t u : Nat) (f : Team → Team) :
    teamOf (modTeam s t f) u = if t = u ∧ (tfind s.teams u).isSome then f (teamOf s u) else teamOf s u := by
  unfold teamOf modTeam tget
  rw [tfind_tmod]
  cases tfind s.teams u <;> by_cases h : t = u <;> simp [h]

theorem tfind_modTeam (s : State) (t u : Nat) (f : Team → Team) :
    tfind (modTeam s t f).teams u = if t = u then (tfind s.teams u).map f else tfind s.teams u := tfind_tmod ..

/-- A listed team after its own update. -/
theorem teamOf_modTeam_self {s : State} {t : Nat} {T : Team} (h : tfind s.teams t = some T) (f : Team → Team) :
    teamOf (modTeam s t f) t = f T := by
  rw [teamOf_modTeam]; simp [h, teamOf, tget]

theorem teamOf_modTeam_ne {s : State} {t u : Nat} (h : u ≠ t) (f : Team → Team) :
    teamOf (modTeam s t f) u = teamOf s u := by
  rw [teamOf_modTeam]; simp [Ne.symm h]

theorem teamOf_of_find {s : State} {t : Nat} {T : Team} (h : tfind s.teams t = some T) : teamOf s t = T := by
  simp [teamOf, tget, h]

theorem groupOf_of_find {s : State} {t g : Nat} {T : Team} {G : Group} (h : tfind s.teams t = some T)
    (hg : tfind T.groups g = some G) : groupOf s t g = G := by
  simp [groupOf, teamOf_of_find h, tget, hg]

theorem teamOf_modGroup_ne {s : State} {t u g : Nat} (h : u ≠ t) (f : Group → Group) :
    teamOf (modGroup s t g f) u = teamOf s u := teamOf_modTeam_ne h _

theorem teamOf_modGroup {s : State} {t g : Nat} (h : Listed s t g) (f : Group → Group) :
    teamOf (modGroup s t g f) t = { teamOf s t with groups := tmod (teamOf s t).groups g f } := by
  obtain ⟨T, G, hT, hG⟩ := h
  unfold modGroup
  rw [teamOf_modTeam_self hT, teamOf_of_find hT]

theorem teamOf_modGroup' {s : State} {t g : Nat} (h : Listed s t g) (f : Group → Group) :
    teamOf (modGroup s t g f) t = { teamOf s t with groups := (teamOf (modGroup s t g f) t).groups } := by
  rw [teamOf_modGroup h]

theorem groupOf_modGroup {s : State} {t g : Nat} (h : Listed s t g) (f : Group → Group) :
    groupOf (modGroup s t g f) t g = f (groupOf s t g) := by
  unfold groupOf
  rw [teamOf_modGroup h]
  obtain ⟨T, G, hT, hG⟩ := h
  simp [teamOf_of_find hT, tget, tfind_tmod, hG]

/-- Only what a function does to the group itself counts. -/
theorem modGroup_congr {s : State} {t g : Nat} {f f' : Group → Group} (h : f (groupOf s t g) = f' (groupOf s t g)) :
    modGroup s t g f = modGroup s t g f' := by
  unfold modGroup modTeam
  congr 1
  apply tmod_congr
  intro T hT
  congr 1
  apply tmod_congr
  intro G hG
  rw [groupOf_of_find hT hG] at h
  exact h

theorem groupOf_modGroup_ne {s : State} {t g h : Nat} (ne : h ≠ g) (f : Group → Group) :
    groupOf (modGroup s t g f) t h = groupOf s t h := by
  unfold groupOf modGroup
  rw [teamOf_modTeam]
  split
  · simp [tget, tfind_tmod, Ne.symm ne]
  · rfl

theorem groupOf_modGroup_team {s : State} {t u g h : Nat} (ne : u ≠ t) (f : Group → Group) :
    groupOf (modGroup s t g f) u h = groupOf s u h := by
  simp [groupOf, teamOf_modGroup_ne ne]

theorem listed_modGroup {s : State} {t g t' g' : Nat} (h : Listed s t g) (f : Group → Group) :
    Listed (modGroup s t' g' f) t g := by
  obtain ⟨T, G, hT, hG⟩ := h
  by_cases e : t' = t
  · subst e
    refine ⟨{ T with groups := tmod T.groups g' f }, if g' = g then f G else G, ?_, ?_⟩
    · unfold modGroup; rw [tfind_modTeam]; simp [hT]
    · simp only [tfind_tmod, hG]; split <;> rfl
  · refine ⟨T, G, ?_, hG⟩
    unfold modGroup; rw [tfind_modTeam]; simp [hT, e]

theorem listed_modPath {s : State} {t g t' g' p' : Nat} (h : Listed s t g) (f : Path → Path) :
    Listed (modPath s t' g' p' f) t g := listed_modGroup h _

theorem groupOf_modPath {s : State} {t g p : Nat} (h : Listed s t g) (f : Path → Path) :
    groupOf (modPath s t g p f) t g = setPathG (groupOf s t g) p (f (pathOf s t g p)) := by
  unfold modPath; rw [groupOf_modGroup h]; rfl

theorem pathOf_modPath {s : State} {t g p : Nat} (h : Listed s t g) (f : Path → Path) :
    pathOf (modPath s t g p f) t g p = f (pathOf s t g p) := by
  unfold pathOf; rw [groupOf_modPath h]; simp [setPathG, pathOf]

theorem pathOf_modPath_ne {s : State} {t g p q : Nat} (ne : q ≠ p) (h : Listed s t g) (f : Path → Path) :
    pathOf (modPath s t g p f) t g q = pathOf s t g q := by
  unfold pathOf; rw [groupOf_modPath h]; simp [setPathG, tget_tput, Ne.symm ne]

theorem coreOf_modCore (s : State) (c d : Nat) (f : Core → Core) :
    coreOf (modCore s c f) d = if c = d then f (coreOf s d) else coreOf s d := by
  simp only [coreOf, modCore, tget_tput]; split <;> simp_all

theorem dieOf_modDie (s : State) (c d : Nat) (f : Die → Die) :
    dieOf (modDie s c f) d = if c = d then f (dieOf s d) else dieOf s d := by
  simp only [dieOf, modDie, tget_tput]; split <;> simp_all

theorem queueOf_modQueue (s : State) (c d : Nat) (f : Queue → Queue) :
    queueOf (modQueue s c f) d = if c = d ∧ (tfind s.queues d).isSome then f (queueOf s d) else queueOf s d := by
  unfold queueOf modQueue tget
  rw [tfind_tmod]
  cases tfind s.queues d <;> by_cases h : c = d <;> simp [h]

theorem ctxOf_modCtx (s : State) (c d : Nat) (f : Ctx → Ctx) :
    ctxOf (modCtx s c f) d = if c = d ∧ (tfind s.ctxs d).isSome then f (ctxOf s d) else ctxOf s d := by
  unfold ctxOf modCtx tget
  rw [tfind_tmod]
  cases tfind s.ctxs d <;> by_cases h : c = d <;> simp [h]

end Sys2Proof.Machine
end

