-- ==== Sys2Proof/Laws/Issue.lean ====
section
/-! SUPPORT. What an instruction word does at its issue: a word that passes its checks runs its entry; what writing
registers and retiring change. -/

namespace Sys2Proof.Machine
open Sys2Proof.Safety

/-! ### A word that issues runs its entry -/

theorem issuing_of {i : Instr} {s : State} {t g p : Nat} {all : Bool} (h : Issues i s t g p all) :
    issuing s = some (t, g, p) := by
  obtain ⟨T, G, hT, hG⟩ := h.listed
  have hv := h.valid
  rw [pathOf, groupOf_of_find hT hG] at hv
  simp only [issuing, h.cur, hT, hG]
  rw [if_pos hv]

theorem makeResident_of {i : Instr} {s : State} {t g p : Nat} {all : Bool} (h : Issues i s t g p all) :
    makeResident s t g p = .ok s := by
  unfold makeResident
  rw [if_pos h.resident]

theorem badSource_of {c : Iss} {us : List Use} (h : c.G.rowBad = []) : badSource c us = false := by
  simp [badSource, h]

@[simp] theorem issCtx_t (s : State) (t g p w : Nat) (us : List Use) : (issCtx s t g p w us).t = t := by
  unfold issCtx; split <;> rfl
@[simp] theorem issCtx_g (s : State) (t g p w : Nat) (us : List Use) : (issCtx s t g p w us).g = g := by
  unfold issCtx; split <;> rfl
@[simp] theorem issCtx_p (s : State) (t g p w : Nat) (us : List Use) : (issCtx s t g p w us).p = p := by
  unfold issCtx; split <;> rfl
@[simp] theorem issCtx_T (s : State) (t g p w : Nat) (us : List Use) : (issCtx s t g p w us).T = teamOf s t := by
  unfold issCtx; split <;> rfl
@[simp] theorem issCtx_G (s : State) (t g p w : Nat) (us : List Use) : (issCtx s t g p w us).G = groupOf s t g := by
  unfold issCtx; split <;> rfl
@[simp] theorem issCtx_P (s : State) (t g p w : Nat) (us : List Use) : (issCtx s t g p w us).P = pathOf s t g p := by
  unfold issCtx; split <;> rfl
@[simp] theorem issCtx_act (s : State) (t g p w : Nat) (us : List Use) :
    (issCtx s t g p w us).act = activeOf (groupOf s t g) (pathOf s t g p) := by
  unfold issCtx; split <;> rfl
@[simp] theorem issCtx_word (s : State) (t g p w : Nat) (us : List Use) : (issCtx s t g p w us).word = w := by
  unfold issCtx; split <;> rfl
theorem issCtx_s {s : State} {t g p w : Nat} {us : List Use} (h : namesDrain us = false) :
    (issCtx s t g p w us).s = s := by
  unfold issCtx; simp [h]
theorem issCtx_col {s : State} {t g p w : Nat} {us : List Use} (h : namesDrain us = false) :
    (issCtx s t g p w us).col = none := by
  unfold issCtx; simp [h]

@[simp] theorem view_t (i : Instr) (s : State) (t g p : Nat) (us : List Use) : (view i s t g p us).t = t := issCtx_t ..
@[simp] theorem view_g (i : Instr) (s : State) (t g p : Nat) (us : List Use) : (view i s t g p us).g = g := issCtx_g ..
@[simp] theorem view_p (i : Instr) (s : State) (t g p : Nat) (us : List Use) : (view i s t g p us).p = p := issCtx_p ..
@[simp] theorem view_T (i : Instr) (s : State) (t g p : Nat) (us : List Use) : (view i s t g p us).T = teamOf s t := issCtx_T ..
@[simp] theorem view_G (i : Instr) (s : State) (t g p : Nat) (us : List Use) : (view i s t g p us).G = groupOf s t g := issCtx_G ..
@[simp] theorem view_P (i : Instr) (s : State) (t g p : Nat) (us : List Use) : (view i s t g p us).P = pathOf s t g p := issCtx_P ..
@[simp] theorem view_act (i : Instr) (s : State) (t g p : Nat) (us : List Use) :
    (view i s t g p us).act = activeOf (groupOf s t g) (pathOf s t g p) := issCtx_act ..
theorem view_s {i : Instr} {s : State} {t g p : Nat} {us : List Use} (h : namesDrain us = false) :
    (view i s t g p us).s = s := issCtx_s h
theorem view_col {i : Instr} {s : State} {t g p : Nat} {us : List Use} (h : namesDrain us = false) :
    (view i s t g p us).col = none := issCtx_col h

/-- A word that issues and passes every check of 02 R49 and the operand checks runs its entry. -/
theorem issueWord_next {i : Instr} {s : State} {t g p : Nat} (chk : Team → Group → Path → Chk) (body : Iss → Eff)
    {k : Chk} (hk : chk (teamOf s t) (groupOf s t g) (pathOf s t g p) = k)
    (h : Issues i s t g p k.waits) (ho : Operands s t g p k.uses)
    (hi : k.illegal = false) (hb : k.opBad = false) (hm : k.modeBad = false) :
    issueWord i chk body s = .next (finish s (view i s t g p k.uses) (body (view i s t g p k.uses))) := by
  unfold issueWord
  simp only [issuing_of h, makeResident_of h]
  congr 1
  unfold issueHere
  have hw := h.windows
  have hd := ho.drain
  simp only [hk, hi, h.control, hb, ho.uses, hm, hw, h.bank, Bool.or_false, Bool.false_eq_true, if_false]
  have c1 : (namesDrain k.uses && !(groupOf s t g).drain.armed && !(groupOf s t g).drain.held) = false := by
    cases hn : namesDrain k.uses
    · simp
    · have := (hd hn).1
      revert this
      cases (groupOf s t g).drain.armed <;> cases (groupOf s t g).drain.held <;> simp
  have c2 : (namesDrain k.uses && drainStall (groupOf s t g)) = false := by
    cases hn : namesDrain k.uses
    · simp
    · simp [(hd hn).2.1]
  have c3 : (namesDrain k.uses && columnOut (groupOf s t g)) = false := by
    cases hn : namesDrain k.uses
    · simp
    · simp [(hd hn).2.2]
  rw [c1, c2, c3]
  simp only [Bool.false_eq_true, if_false]
  unfold runBody
  have hf : frameBad (issCtx s t g p ((encode i).getD 0) k.uses).P k.uses = false := by simpa using ho.frame
  have hbs : badSource (issCtx s t g p ((encode i).getD 0) k.uses) k.uses = false := badSource_of (by simpa using ho.rows)
  rw [if_neg (by rw [hf]; exact Bool.false_ne_true), if_neg (by rw [hbs]; simp)]
  rfl

end Sys2Proof.Machine
end

