-- ==== Sys2Proof/Laws/Regs.lean ====
section
/-! SUPPORT. What writing registers and retiring a word change: the whole effect of a register instruction. -/

namespace Sys2Proof.Machine
open Sys2Proof.Safety

/-! ### One register -/

theorem noteOld_frame (G : Group) (mine : Pending → Bool) (k : Nat) (v : Word) :
    noteOld G mine k v = { G with pend := (noteOld G mine k v).pend } := rfl

theorem noteOld_ops (G : Group) (mine : Pending → Bool) (k : Nat) (v : Word) :
    (noteOld G mine k v).pend.map opCore = G.pend.map opCore := by
  unfold noteOld
  dsimp only
  rw [List.map_map]
  apply List.map_congr_left
  intro o _
  simp only [Function.comp]
  split <;> rfl

@[simp] theorem noteOld_scal (G : Group) (mine : Pending → Bool) (k : Nat) (v : Word) : (noteOld G mine k v).scal = G.scal := rfl
@[simp] theorem noteOld_rows (G : Group) (mine : Pending → Bool) (k : Nat) (v : Word) : (noteOld G mine k v).rows = G.rows := rfl

theorem regCur_regWrite (G : Group) (k j : Nat) (v : Word) :
    regCur (regWrite G k v) j = if k = j then v else regCur G j := by
  unfold regWrite regCur
  by_cases hk : k < 128 <;> by_cases hj : j < 128 <;>
    simp only [hk, hj, if_true, if_false, tget_tset, noteOld_scal, noteOld_rows]
  · rw [if_neg (by omega)]
  · rw [if_neg (by omega)]

theorem regWrite_frame (G : Group) (k : Nat) (v : Word) :
    regWrite G k v = { G with rows := (regWrite G k v).rows, scal := (regWrite G k v).scal, pend := (regWrite G k v).pend } := by
  unfold regWrite; dsimp only; split <;> rfl

theorem regWrite_ops (G : Group) (k : Nat) (v : Word) : (regWrite G k v).pend.map opCore = G.pend.map opCore := by
  unfold regWrite; dsimp only; split <;> exact noteOld_ops ..

/-! ### A list of registers -/

/-- The registers of a list, written in order. -/
def writeAll (G : Group) (vals : List (Nat × Word)) : Group := vals.foldl (fun G e => regWrite G e.1 e.2) G

@[simp] theorem writeAll_nil (G : Group) : writeAll G [] = G := rfl
@[simp] theorem writeAll_cons (G : Group) (e : Nat × Word) (l : List (Nat × Word)) :
    writeAll G (e :: l) = writeAll (regWrite G e.1 e.2) l := rfl
theorem writeAll_append (G : Group) (a b : List (Nat × Word)) : writeAll G (a ++ b) = writeAll (writeAll G a) b := by
  simp [writeAll]

theorem writeAll_frame (vals : List (Nat × Word)) (G : Group) :
    writeAll G vals = { G with rows := (writeAll G vals).rows, scal := (writeAll G vals).scal, pend := (writeAll G vals).pend } := by
  induction vals generalizing G with
  | nil => rfl
  | cons e l ih =>
    rw [writeAll_cons]
    have h1 := ih (regWrite G e.1 e.2)
    have h2 := regWrite_frame G e.1 e.2
    rw [h1]
    rw [h2]

theorem writeAll_ops (vals : List (Nat × Word)) (G : Group) : (writeAll G vals).pend.map opCore = G.pend.map opCore := by
  induction vals generalizing G with
  | nil => rfl
  | cons e l ih => rw [writeAll_cons, ih, regWrite_ops]

theorem regCur_writeAll_other (vals : List (Nat × Word)) (G : Group) (j : Nat) (h : j ∉ vals.map (·.1)) :
    regCur (writeAll G vals) j = regCur G j := by
  induction vals generalizing G with
  | nil => rfl
  | cons e l ih =>
    simp only [List.map_cons, List.mem_cons, not_or] at h
    rw [writeAll_cons, ih _ h.2, regCur_regWrite, if_neg (Ne.symm h.1)]

theorem regCur_writeAll_mem (vals : List (Nat × Word)) (G : Group) (nd : (vals.map (·.1)).Nodup) (e : Nat × Word)
    (h : e ∈ vals) : regCur (writeAll G vals) e.1 = e.2 := by
  induction vals generalizing G with
  | nil => simp at h
  | cons x l ih =>
    simp only [List.map_cons, List.nodup_cons] at nd
    rw [writeAll_cons]
    rcases List.mem_cons.mp h with rfl | h
    · rw [regCur_writeAll_other _ _ _ nd.1, regCur_regWrite, if_pos rfl]
    · exact ih _ nd.2 h

theorem putRows_eq (G : Group) (row n : Nat) (f : Nat → Nat) (ls : List Nat) :
    putRows G row n f ls = writeAll G (ls.flatMap fun l => (List.range n).map fun j => (keyRow (row + j) l, regPart (f l) j)) := by
  unfold putRows
  induction ls generalizing G with
  | nil => rfl
  | cons l ls ih =>
    rw [List.foldl_cons, ih, List.flatMap_cons, writeAll_append]
    congr 1
    simp only [writeAll, List.foldl_map]

/-! ### The lanes of a mask and the keys of registers -/

theorem lanesOf_lt {m : Mask} {l : Nat} (h : l ∈ lanesOf m) : l < 96 := by
  simp only [lanesOf, List.mem_filter, List.mem_range] at h; exact h.1

theorem mem_lanesOf {m : Mask} {l : Nat} : l ∈ lanesOf m ↔ l < 96 ∧ m.getLsbD l = true := by
  simp [lanesOf, lanes]

theorem lanesOf_nodup (m : Mask) : (lanesOf m).Nodup := List.nodup_range.filter _

theorem keyRow_inj {r r' l l' : Nat} (hl : l < 96) (hl' : l' < 96) (h : keyRow r l = keyRow r' l') : r = r' ∧ l = l' := by
  unfold keyRow at h; omega

theorem keyRow_ge (r l : Nat) : 128 ≤ keyRow r l := by unfold keyRow; omega

/-- The keys of a written register list are distinct. -/
theorem written_nodup (P : Path) (d : Operand) (n : Nat) (m : Mask) (f : Nat → Nat) :
    ((written P d n m f).map (·.1)).Nodup := by
  unfold written
  cases d with
  | v k =>
    simp only [dstVals, List.map_flatMap, List.map_map]
    rw [List.nodup_flatMap]
    constructor
    · intro l hl
      refine List.Nodup.map_on ?_ List.nodup_range
      intro a _ b _ hab
      have := keyRow_inj (lanesOf_lt hl) (lanesOf_lt hl) hab
      omega
    · refine (lanesOf_nodup m).imp_of_mem ?_
      intro a b ha hb hne
      rw [Function.onFun, List.disjoint_left]
      intro x hx hx'
      simp only [List.mem_map, Function.comp, List.mem_range] at hx hx'
      obtain ⟨j, _, rfl⟩ := hx
      obtain ⟨j', _, h⟩ := hx'
      exact hne (keyRow_inj (lanesOf_lt hb) (lanesOf_lt ha) h).2.symm
  | s k =>
    dsimp only
    split
    · simp
    · simp only [dstVals, List.map_map]
      refine List.Nodup.map_on ?_ List.nodup_range
      intro a _ b _ hab
      simp only [Function.comp, keyScal] at hab
      omega
  | zero => simp
  | lane => simp
  | drain => simp

/-! ### Registers as a path sees them, written in the state -/

/-- What writing registers changes, from s to u: the listed registers, and nothing else. -/
structure Wrote (s u : State) (t g p : Nat) (vals : List (Nat × Word)) : Prop where
  module : u = { s with teams := u.teams }
  teams : ∀ t', t' ≠ t → tfind u.teams t' = tfind s.teams t'
  team : teamOf u t = { teamOf s t with groups := (teamOf u t).groups }
  groups : ∀ g', g' ≠ g → tfind (teamOf u t).groups g' = tfind (teamOf s t).groups g'
  group : groupOf u t g = { groupOf s t g with
    paths := (groupOf u t g).paths, rows := (groupOf u t g).rows, scal := (groupOf u t g).scal,
    pend := (groupOf u t g).pend }
  ops : (groupOf u t g).pend.map opCore = (groupOf s t g).pend.map opCore
  other : ∀ key, key ∉ vals.map (·.1) → regNow u t g p key = regNow s t g p key
  value : ∀ e ∈ vals, regNow u t g p e.1 = landed (pathOf s t g p) e.1 e.2
  paths : ∀ q, q ≠ p → pathOf u t g q = pathOf s t g q
  path : pathOf u t g p = { pathOf s t g p with mask := (pathOf u t g p).mask }
  mask : (∀ e ∈ vals, e.1 < 45 ∨ 128 ≤ e.1) → (pathOf u t g p).mask = (pathOf s t g p).mask
  listed : Listed u t g

theorem Wrote.refl {s : State} {t g p : Nat} (h : Listed s t g) : Wrote s s t g p [] := by
  constructor <;> first | rfl | simp | exact h

theorem tfind_modGroup_groups_ne {s : State} {t g : Nat} (f : Group → Group) {h : Nat} (ne : h ≠ g) :
    tfind (teamOf (modGroup s t g f) t).groups h = tfind (teamOf s t).groups h := by
  unfold modGroup
  rw [teamOf_modTeam]
  split
  · simp [tfind_tmod, Ne.symm ne]
  · rfl

/-- Registers of the group's own tables (not s45 to s47), written at once. -/
theorem wrote_modGroup {s : State} {t g p : Nat} (h : Listed s t g) (vals : List (Nat × Word))
    (nd : (vals.map (·.1)).Nodup) (hk : ∀ e ∈ vals, e.1 < 45 ∨ 128 ≤ e.1) :
    Wrote s (modGroup s t g fun G => writeAll G vals) t g p vals := by
  have hG := groupOf_modGroup h (fun G => writeAll G vals)
  have hF := writeAll_frame vals (groupOf s t g)
  have hpaths : (writeAll (groupOf s t g) vals).paths = (groupOf s t g).paths := by rw [hF]
  have hp : ∀ q, pathOf (modGroup s t g fun G => writeAll G vals) t g q = pathOf s t g q := by
    intro q; unfold pathOf; rw [hG, hpaths]
  constructor
  · rfl
  · intro t' ne; unfold modGroup; rw [tfind_modTeam, if_neg (Ne.symm ne)]
  · rw [teamOf_modGroup h]
  · intro g' ne; exact tfind_modGroup_groups_ne _ ne
  · rw [hG]; rw [hF]
  · rw [hG, writeAll_ops]
  · intro key hkey
    unfold regNow
    rw [hp, hG, regCur_writeAll_other _ _ _ hkey]
  · intro e he
    have := hk e he
    unfold regNow landed
    rw [if_neg (by omega), if_neg (by omega), hG, regCur_writeAll_mem _ _ nd e he]
  · intro q _; exact hp q
  · rw [hp]
  · intro _; rw [hp]
  · exact listed_modGroup h _

/-! ### s45 to s47: the mask of the path -/

theorem maskWord_setEm (P : Path) (b c v : Nat) (hb : b < 3) (hc : c < 3) :
    maskWord (setEm P b v).mask c = if b = c then v % 2 ^ 32 &&& maskWord P.origin b else maskWord P.mask c := by
  have hw : v % 2 ^ 32 &&& maskWord P.origin b < 2 ^ 32 := Nat.and_lt_two_pow _ (Nat.mod_lt _ (by decide))
  unfold setEm maskWord at *
  generalize v % 2 ^ 32 &&& P.origin.toNat / 2 ^ (32 * b) % 2 ^ 32 = w at *
  have hm := P.mask.isLt
  generalize P.mask.toNat = x at *
  simp only [BitVec.toNat_ofNat, setBits]
  interval_cases b <;> interval_cases c <;> norm_num at * <;> omega

/-- One of s45 to s47 written. -/
theorem wrote_emWrite {s : State} {t g p : Nat} (h : Listed s t g) (k : Nat) (hk : 45 ≤ k) (hk' : k < 48) (v : Word) :
    Wrote s (modGroup s t g fun G => emWrite G p (k - 45) v.toNat) t g p [(k, v)] := by
  have hG := groupOf_modGroup h (fun G => emWrite G p (k - 45) v.toNat)
  have hp : pathOf (modGroup s t g fun G => emWrite G p (k - 45) v.toNat) t g p = setEm (pathOf s t g p) (k - 45) v.toNat := by
    unfold pathOf; rw [hG]; simp [emWrite, setPathG]
  constructor
  · rfl
  · intro t' ne; unfold modGroup; rw [tfind_modTeam, if_neg (Ne.symm ne)]
  · rw [teamOf_modGroup h]
  · intro g' ne; exact tfind_modGroup_groups_ne _ ne
  · rw [hG]; rfl
  · rw [hG]; exact noteOld_ops ..
  · intro key hkey
    unfold regNow
    simp only [List.map_cons, List.map_nil, List.mem_singleton] at hkey
    rw [hp, hG]
    by_cases c : 45 ≤ key ∧ key < 128
    · rw [if_pos c, if_pos c]
      by_cases c2 : key < 48
      · rw [maskWord_setEm _ _ _ _ (by omega) (by omega), if_neg (by omega)]
      · have z : ∀ m : Mask, maskWord m (key - 45) = 0 := by
          intro m; unfold maskWord
          have := m.isLt
          have h3 : 2 ^ 96 ≤ 2 ^ (32 * (key - 45)) := Nat.pow_le_pow_right (by decide) (by omega)
          rw [Nat.div_eq_of_lt (by omega), Nat.zero_mod]
        rw [z, z]
    · rw [if_neg c, if_neg c]; rfl
  · intro e he
    simp only [List.mem_singleton] at he
    subst he
    unfold regNow landed
    dsimp only
    rw [if_pos (by omega), if_pos (by omega), hp, maskWord_setEm _ _ _ _ (by omega) (by omega), if_pos rfl]
    apply BitVec.eq_of_toNat_eq
    have h1 : maskWord (pathOf s t g p).origin (k - 45) < 2 ^ 32 := Nat.mod_lt _ (by decide)
    have h2 := v.isLt
    simp only [BitVec.toNat_and, BitVec.toNat_ofNat, Nat.mod_eq_of_lt h1, Nat.mod_eq_of_lt h2]
    exact Nat.mod_eq_of_lt (Nat.and_lt_two_pow _ h1)
  · intro q ne; unfold pathOf; rw [hG]; simp [emWrite, setPathG, tget_tput, Ne.symm ne, noteOld]
  · rw [hp]; rfl
  · intro hm; have := hm (k, v) (by simp); simp only at this; omega
  · exact listed_modGroup h _

theorem Wrote.trans {s u w : State} {t g p : Nat} {a b : List (Nat × Word)} (h1 : Wrote s u t g p a)
    (h2 : Wrote u w t g p b) (dis : ∀ e ∈ a, e.1 ∉ b.map (·.1)) : Wrote s w t g p (a ++ b) := by
  have ho : (pathOf u t g p).origin = (pathOf s t g p).origin := by rw [h1.path]
  constructor
  · rw [h2.module, h1.module]
  · intro t' ne; rw [h2.teams t' ne, h1.teams t' ne]
  · rw [h2.team, h1.team]
  · intro g' ne; rw [h2.groups g' ne, h1.groups g' ne]
  · rw [h2.group, h1.group]
  · rw [h2.ops, h1.ops]
  · intro key hk
    simp only [List.map_append, List.mem_append, not_or] at hk
    rw [h2.other key hk.2, h1.other key hk.1]
  · intro e he
    rcases List.mem_append.mp he with he | he
    · rw [h2.other _ (dis e he), h1.value e he]
    · rw [h2.value e he]; unfold landed; rw [ho]
  · intro q ne; rw [h2.paths q ne, h1.paths q ne]
  · rw [h2.path, h1.path]
  · intro hk
    rw [h2.mask fun e he => hk e (List.mem_append_right _ he), h1.mask fun e he => hk e (List.mem_append_left _ he)]
  · exact h2.listed

theorem wrote_putScal {t g p : Nat} (vs : List Word) (k : Nat) (s : State) (h : Listed s t g) (hk : k + vs.length ≤ 48) :
    Wrote s (putScal s t g p k vs) t g p (vs.zipIdx.map fun x => (keyScal (k + x.2), x.1)) := by
  induction vs generalizing s k with
  | nil => exact Wrote.refl h
  | cons v vs ih =>
    simp only [List.length_cons] at hk
    have hstep : Wrote s (if 45 ≤ k then modGroup s t g fun G => emWrite G p (k - 45) v.toNat
        else modGroup s t g fun G => regWrite G (keyScal k) v) t g p [(k, v)] := by
      split
      · exact wrote_emWrite h k (by omega) (by omega) v
      · exact wrote_modGroup h [(k, v)] (by simp) (by simp; omega)
    have h2 := hstep.trans (ih (k + 1) _ hstep.listed (by omega)) (by
      intro e he
      simp only [List.mem_singleton] at he
      subst he
      simp only [List.map_map, List.mem_map, not_exists, not_and, Function.comp, keyScal]
      intro x _; omega)
    rw [putScal]
    have e : ((v :: vs).zipIdx.map fun x => (keyScal (k + x.2), x.1)) =
        [(k, v)] ++ vs.zipIdx.map fun x => (keyScal (k + 1 + x.2), x.1) := by
      rw [List.zipIdx_cons, List.map_cons, List.zipIdx_succ, List.map_map]
      simp only [keyScal, Nat.add_zero, List.singleton_append, List.cons.injEq, true_and]
      apply List.map_congr_left
      rintro ⟨x, i⟩ _
      simp only [Function.comp, Prod.mk.injEq, and_true]
      omega
    rw [e]
    exact h2

/-- WriteOp changes exactly the registers that `written` lists. -/
theorem wrote_wrLanes {c : Iss} {s : State} {d : Operand} {n : Nat} {m : Mask} {f : Nat → Nat} (h : Listed s c.t c.g)
    (hrow : (groupOf s c.t c.g).rowBad = []) (hd : useBad { op := d, n := n, src := false, dst := true } = false) :
    Wrote s (wrLanes c s d n m f) c.t c.g c.p (written c.P d n m f) := by
  have nd := written_nodup c.P d n m f
  cases d with
  | v k =>
    have e : wrLanes c s (.v k) n m f = modGroup s c.t c.g fun G => writeAll G (written c.P (.v k) n m f) := by
      unfold wrLanes
      dsimp only
      apply modGroup_congr
      rw [if_pos (by rw [hrow]; rfl), putRows_eq]
      rfl
    rw [e]
    refine wrote_modGroup h _ nd ?_
    intro x hx
    simp only [written, dstVals, List.mem_flatMap, List.mem_map] at hx
    obtain ⟨l, _, j, _, rfl⟩ := hx
    right; exact keyRow_ge _ _
  | s k =>
    unfold wrLanes written
    dsimp only
    cases hl : lowLane m with
    | none => exact Wrote.refl h
    | some l =>
      dsimp only
      have hlen : k + ((List.range n).map fun j => regPart (f l) j).length ≤ 48 := by
        simp only [useBad, Bool.or_eq_false_iff, decide_eq_false_iff_not] at hd
        simp only [List.length_map, List.length_range]; omega
      have := wrote_putScal (t := c.t) (g := c.g) (p := c.p) ((List.range n).map fun j => regPart (f l) j) k s h hlen
      have e : (((List.range n).map fun j => regPart (f l) j).zipIdx.map fun x => (keyScal (k + x.2), x.1))
          = (List.range n).map fun j => (keyScal (k + j), regPart (f l) j) := by
        rw [List.zipIdx_map, List.map_map]
        apply List.ext_getElem
        · simp
        · intro i h1 h2; simp
      rw [e] at this
      exact this
  | zero => exact Wrote.refl h
  | lane => exact Wrote.refl h
  | drain => exact Wrote.refl h

/-! ### Retiring -/

theorem countIssue_ops (G : Group) (p id : Nat) : (countIssue G p id).pend = G.pend.map (counted p id) := by
  unfold countIssue
  apply List.map_congr_left
  intro o _
  unfold counted
  by_cases h : o.path = p ∧ o.id < id
  · simp only [h, beq_self_eq_true, decide_true, Bool.and_self, if_true, and_self] <;> (cases o.left <;> rfl)
  · rw [if_neg h, if_neg]
    simpa using h

theorem opCore_counted (p id : Nat) (o : Pending) : opCore (counted p id o) = counted p id (opCore o) := by
  obtain ⟨_, _, _, _, left, _, _, _, _, _, _, _, _, _, _, _, _, _, _, _⟩ := o
  unfold opCore counted
  dsimp only
  split <;> cases left <;> rfl

/-- Operations that differ in kept values only still do so after a count. -/
theorem counted_congr {a b : List Pending} (h : a.map opCore = b.map opCore) (p id : Nat) :
    (a.map (counted p id)).map opCore = b.map fun o => opCore (counted p id o) := by
  have : (fun o => opCore (counted p id o)) = counted p id ∘ opCore := funext fun o => opCore_counted p id o
  rw [List.map_map, show opCore ∘ counted p id = counted p id ∘ opCore from this, this, ← List.map_map, ← List.map_map, h]

theorem pruneHolders_eq (s : State) (core : Nat) :
    pruneHolders s core = { s with cores := (pruneHolders s core).cores } := by
  unfold pruneHolders; split <;> rfl

theorem pruneHolders_core (s : State) (core k : Nat) :
    coreOf (pruneHolders s core) k = { coreOf s k with banks := (coreOf (pruneHolders s core) k).banks } := by
  unfold pruneHolders
  split
  · rfl
  · rw [coreOf_modCore]; split <;> rfl

@[simp] theorem pruneHolders_teams (s : State) (core : Nat) : (pruneHolders s core).teams = s.teams := by
  unfold pruneHolders; split <;> rfl

@[simp] theorem pruneHolders_mem (s : State) (core : Nat) : (pruneHolders s core).mem = s.mem := by
  unfold pruneHolders; split <;> rfl

theorem teamOf_pruneHolders (s : State) (core t : Nat) : teamOf (pruneHolders s core) t = teamOf s t := by
  unfold teamOf; rw [pruneHolders_teams]
theorem groupOf_pruneHolders (s : State) (core t g : Nat) : groupOf (pruneHolders s core) t g = groupOf s t g := by
  unfold groupOf; rw [teamOf_pruneHolders]
theorem pathOf_pruneHolders (s : State) (core t g p : Nat) : pathOf (pruneHolders s core) t g p = pathOf s t g p := by
  unfold pathOf; rw [groupOf_pruneHolders]

/-- The group after a word of its path p has retired. -/
def retired (G : Group) (p id : Nat) : Group := { countIssue G p id with hang := 0, hangFired := false }

theorem groupOf_retire {c : Iss} {s : State} (h : Listed s c.t c.g) (id : Nat) :
    groupOf (retire c id s) c.t c.g = retired (groupOf s c.t c.g) c.p id := by
  unfold retire
  rw [groupOf_pruneHolders]
  exact groupOf_modGroup h _

theorem pathOf_retire {c : Iss} {s : State} (h : Listed s c.t c.g) (id q : Nat) :
    pathOf (retire c id s) c.t c.g q = pathOf s c.t c.g q := by
  unfold pathOf; rw [groupOf_retire h]; rfl

theorem teamOf_retire {c : Iss} {s : State} (h : Listed s c.t c.g) (id : Nat) :
    teamOf (retire c id s) c.t = { teamOf s c.t with groups := (teamOf (retire c id s) c.t).groups } := by
  unfold retire
  dsimp only
  rw [teamOf_pruneHolders]
  exact teamOf_modGroup' h _

theorem tfind_retire_ne {c : Iss} {s : State} (id : Nat) {t' : Nat} (ne : t' ≠ c.t) :
    tfind (retire c id s).teams t' = tfind s.teams t' := by
  unfold retire
  dsimp only
  rw [pruneHolders_teams]
  show tfind (modGroup s c.t c.g _).teams t' = _
  unfold modGroup; rw [tfind_modTeam, if_neg (Ne.symm ne)]

theorem groups_retire_ne {c : Iss} {s : State} (id : Nat) {g' : Nat} (ne : g' ≠ c.g) :
    tfind (teamOf (retire c id s) c.t).groups g' = tfind (teamOf s c.t).groups g' := by
  unfold retire
  dsimp only
  rw [teamOf_pruneHolders]
  exact tfind_modGroup_groups_ne _ ne

theorem retire_eq (c : Iss) (id : Nat) (s : State) :
    retire c id s = { s with teams := (retire c id s).teams, cores := (retire c id s).cores, free := (retire c id s).free } := by
  unfold retire
  dsimp only
  rw [pruneHolders_eq]
  rfl

theorem coreOf_retire (c : Iss) (id : Nat) (s : State) (k : Nat) :
    coreOf (retire c id s) k = { coreOf s k with banks := (coreOf (retire c id s) k).banks } := by
  unfold retire
  dsimp only
  rw [pruneHolders_core]
  rfl

theorem regNow_congr {s u : State} {t g p : Nat} (hm : (pathOf u t g p).mask = (pathOf s t g p).mask)
    (hr : (groupOf u t g).rows = (groupOf s t g).rows) (hs : (groupOf u t g).scal = (groupOf s t g).scal) (key : Nat) :
    regNow u t g p key = regNow s t g p key := by
  unfold regNow regCur; rw [hm, hr, hs]

/-! ### The drain column taken at the issue -/

theorem view_listed {i : Instr} {s : State} {t g p : Nat} {us : List Use} (h : Listed s t g) :
    Listed (view i s t g p us).s t g := by
  unfold view issCtx
  dsimp only
  split
  · exact listed_modGroup h _
  · exact h

theorem view_group {i : Instr} {s : State} {t g p : Nat} {us : List Use} (h : Listed s t g) :
    groupOf (view i s t g p us).s t g = { groupOf s t g with drain := (groupOf (view i s t g p us).s t g).drain } := by
  unfold view issCtx
  dsimp only
  split
  · rw [groupOf_modGroup h]
  · rfl

theorem view_module (i : Instr) (s : State) (t g p : Nat) (us : List Use) :
    (view i s t g p us).s = { s with teams := (view i s t g p us).s.teams } := by
  unfold view issCtx
  dsimp only
  split <;> rfl

theorem view_team {i : Instr} {s : State} {t g p : Nat} {us : List Use} (h : Listed s t g) :
    teamOf (view i s t g p us).s t = { teamOf s t with groups := (teamOf (view i s t g p us).s t).groups } := by
  unfold view issCtx
  dsimp only
  split
  · rw [teamOf_modGroup h]
  · rfl

theorem view_teams {i : Instr} {s : State} {t g p : Nat} {us : List Use} {t' : Nat} (ne : t' ≠ t) :
    tfind (view i s t g p us).s.teams t' = tfind s.teams t' := by
  unfold view issCtx
  dsimp only
  split
  · dsimp only; unfold modGroup; rw [tfind_modTeam, if_neg (Ne.symm ne)]
  · rfl

theorem view_groups {i : Instr} {s : State} {t g p : Nat} {us : List Use} {g' : Nat} (ne : g' ≠ g) :
    tfind (teamOf (view i s t g p us).s t).groups g' = tfind (teamOf s t).groups g' := by
  unfold view issCtx
  dsimp only
  split
  · exact tfind_modGroup_groups_ne _ ne
  · rfl

/-! ### A register instruction completes -/

/-- A word that issues, passes its checks and whose entry writes registers only. -/
theorem results_of {i : Instr} {s : State} {t g p : Nat} {chk : Team → Group → Path → Chk} {body : Iss → Eff}
    (he : exec i s = issueWord i chk body s) {k : Chk}
    (hk : chk (teamOf s t) (groupOf s t g) (pathOf s t g p) = k)
    (h : Issues i s t g p k.waits) (ho : Operands s t g p k.uses)
    (hi : k.illegal = false) (hb : k.opBad = false) (hm : k.modeBad = false)
    {d : Operand} {n : Nat} {m : Mask} {f : Nat → Nat}
    (hd : useBad { op := d, n := n, src := false, dst := true } = false)
    (hw : body (view i s t g p k.uses) = .adv (wrLanes (view i s t g p k.uses) (view i s t g p k.uses).s d n m f)) :
    Results i s t g p d n m f (namesDrain k.uses) := by
  have hx := issueWord_next chk body hk h ho hi hb hm
  rw [hw] at hx
  set c := view i s t g p k.uses with hc
  have ht : c.t = t := view_t ..
  have hg : c.g = g := view_g ..
  have hp : c.p = p := view_p ..
  have hP : c.P = pathOf s t g p := view_P ..
  have L := view_listed (i := i) (p := p) (us := k.uses) h.listed
  have G0 := view_group (i := i) (p := p) (us := k.uses) h.listed
  rw [← hc] at L G0
  have hrow : (groupOf c.s c.t c.g).rowBad = [] := by rw [ht, hg, G0]; exact ho.rows
  have W := wrote_wrLanes (c := c) (s := c.s) (d := d) (n := n) (m := m) (f := f) (by rw [ht, hg]; exact L) hrow hd
  rw [ht, hg, hp, hP] at W
  set w := wrLanes c c.s d n m f with hw'
  have hW : Listed w t g := W.listed
  -- the PC goes on
  have hX : finish s c (.adv w) = retire c s.nextId (modPath w t g p fun P => { P with pc := P.pc + 4 }) := by
    simp only [finish, ht, hg, hp]
  set x := modPath w t g p fun P => { P with pc := P.pc + 4 } with hxdef
  have LX : Listed x c.t c.g := by rw [ht, hg]; exact listed_modPath hW _
  have GX : groupOf x t g = setPathG (groupOf w t g) p { pathOf w t g p with pc := (pathOf w t g p).pc + 4 } :=
    groupOf_modPath hW _
  refine ⟨retire c s.nextId x, by rw [he, hx, hX], ?_, ?_⟩
  · intro e hmem
    have hv := W.value e hmem
    have h0 : pathOf c.s t g p = pathOf s t g p := by unfold pathOf; rw [G0]
    rw [h0] at hv
    rw [← hv]
    have gr := groupOf_retire LX s.nextId
    have pr := pathOf_retire LX s.nextId p
    rw [ht, hg] at gr pr
    apply regNow_congr
    · rw [pr, hxdef, pathOf_modPath hW]
    · rw [gr, GX]; rfl
    · rw [gr, GX]; rfl
  · have gr := groupOf_retire LX s.nextId
    have pr := fun q => pathOf_retire LX s.nextId q
    have tr := teamOf_retire LX s.nextId
    rw [ht, hg] at gr pr
    rw [ht] at tr
    have hvm := view_module i s t g p k.uses
    rw [← hc] at hvm
    constructor
    · rw [retire_eq, hxdef]
      show _ = _
      have := W.module
      rw [hvm] at this
      unfold modPath modGroup modTeam
      rw [this]
    · intro j
      rw [coreOf_retire]
      have : coreOf x j = coreOf s j := by
        unfold coreOf
        rw [hxdef, modPath_cores, W.module, hvm]
      rw [this]
    · intro t' ne
      have : t' ≠ c.t := by rw [ht]; exact ne
      rw [tfind_retire_ne _ this, hxdef]
      unfold modPath modGroup
      rw [tfind_modTeam, if_neg (Ne.symm ne), W.teams t' ne, hc, view_teams ne]
    · rw [tr, hxdef]
      unfold modPath
      rw [teamOf_modGroup hW, W.team, view_team h.listed]
    · intro g' ne
      have hne : g' ≠ c.g := by rw [hg]; exact ne
      have := groups_retire_ne (c := c) (s := x) s.nextId hne
      rw [ht] at this
      rw [this, hxdef]
      unfold modPath
      rw [tfind_modGroup_groups_ne _ ne, W.groups g' ne, hc, view_groups ne]
    · rw [gr, GX, W.group, G0]; rfl
    · rw [gr]
      show (countIssue _ _ _).pend.map opCore = _
      rw [countIssue_ops, GX]
      show ((groupOf w t g).pend.map (counted c.p s.nextId)).map opCore = _
      rw [hp]
      exact counted_congr (by rw [W.ops, G0]) p s.nextId
    · intro hn
      rw [gr, GX]
      show (groupOf w t g).drain = _
      rw [W.group]
      show (groupOf c.s t g).drain = _
      rw [hc, view_s hn]
    · intro key hkey
      rw [regNow_congr (s := w) (u := retire c s.nextId x), W.other key hkey]
      · exact regNow_congr (by unfold pathOf; rw [G0]) (by rw [G0]) (by rw [G0]) key
      · rw [pr, hxdef, pathOf_modPath hW]
      · rw [gr, GX]; rfl
      · rw [gr, GX]; rfl
    · intro q ne
      rw [pr, hxdef, pathOf_modPath_ne ne hW, W.paths q ne]
      unfold pathOf; rw [G0]
    · rw [pr, hxdef, pathOf_modPath hW, W.path]
      have : pathOf c.s t g p = pathOf s t g p := by unfold pathOf; rw [G0]
      rw [this]
    · intro hk'
      rw [pr, hxdef, pathOf_modPath hW]
      show (pathOf w t g p).mask = _
      rw [W.mask fun e he => hk' _ (List.mem_map_of_mem he)]
      unfold pathOf; rw [G0]

/-! ### A word with any effect completes -/

theorem retired_of {x : State} {c : Iss} (L : Listed x c.t c.g) (id : Nat) : Retired x (retire c id x) c.t c.g c.p id := by
  have gr := groupOf_retire L id
  constructor
  · exact retire_eq ..
  · intro j; exact coreOf_retire ..
  · intro t' ne; exact tfind_retire_ne _ ne
  · exact teamOf_retire L id
  · intro g' ne; exact groups_retire_ne _ ne
  · rw [gr]; rfl
  · rw [gr]; exact countIssue_ops ..

/-- The end of an entry with a state. -/
def effOf (way : Ending) (x : State) : Eff :=
  match way with
  | .next => .adv x
  | .jump => .jump x
  | .wait => .wait x

/-- A word that issues, passes its checks and whose entry ends with the state x. -/
theorem completes_of {i : Instr} {s x : State} {t g p : Nat} {chk : Team → Group → Path → Chk} {body : Iss → Eff}
    {way : Ending} (he : exec i s = issueWord i chk body s) {k : Chk}
    (hk : chk (teamOf s t) (groupOf s t g) (pathOf s t g p) = k)
    (h : Issues i s t g p k.waits) (ho : Operands s t g p k.uses)
    (hi : k.illegal = false) (hb : k.opBad = false) (hm : k.modeBad = false)
    (hw : body (view i s t g p k.uses) = effOf way x) : Completes i s t g p k.uses way x := by
  have hx := issueWord_next chk body hk h ho hi hb hm
  unfold Completes
  rw [he, hx, hw]
  cases way <;> simp [finish, goOn, effOf]

/-- A word without operands sees the state itself. -/
theorem operands_nil {s : State} {t g p : Nat} (h : (groupOf s t g).rowBad = []) : Operands s t g p [] :=
  ⟨rfl, rfl, h, by simp [namesDrain]⟩

end Sys2Proof.Machine
end

