-- ==== Sys2Proof/Laws/Lane.lean ====
section
/-! SUPPORT. Lane instructions complete: their checks passed, the active lanes of the destination take the values. -/

namespace Sys2Proof.Machine
open Sys2Proof.Safety

/-- The operand uses of a lane instruction. -/
def laneUses (k : LaneSpec) (gm : GM) : List Use :=
  { op := k.d, n := k.dn gm, src := k.dsrc, dst := true } :: k.srcs.map fun x => { op := x.op, n := x.n gm }

theorem useBad_of_uses {u : Use} {us : List Use} (h : usesBad (u :: us) = false) : useBad u = false := by
  simp only [usesBad, List.any_cons, Bool.or_eq_false_iff] at h
  exact h.1.1

theorem laneOp_results {i : Instr} {s : State} {t g p : Nat} {k : LaneSpec} {f : Iss → Nat → Nat}
    (he : exec i s = laneOp i k f s) (h : Issues i s t g p k.waits)
    (ho : Operands s t g p (laneUses k (pathOf s t g p).gm))
    (hop : k.opBad = false) (hsc : (isScalar k.d && k.srcs.any fun x => perLane x.op) = false)
    (hm : k.modeBad (pathOf s t g p).gm = false) :
    Results i s t g p k.d (k.dn (pathOf s t g p).gm) (activeOf (groupOf s t g) (pathOf s t g p))
      (f (view i s t g p (laneUses k (pathOf s t g p).gm))) (namesDrain (laneUses k (pathOf s t g p).gm)) := by
  have hu : useBad { op := k.d, n := k.dn (pathOf s t g p).gm, src := false, dst := true } = false := by
    have h1 := useBad_of_uses ho.uses
    exact h1
  refine results_of (chk := fun _ _ P => laneChk k P) he (k := laneChk k (pathOf s t g p)) rfl h ho rfl ?_ hm hu ?_
  · simp only [laneChk, hop, Bool.false_or]; exact hsc
  · simp only [view_P, view_act]
    rfl

theorem written_congr {P : Path} {d : Operand} {n : Nat} {m : Mask} {f f' : Nat → Nat} (h : ∀ l < 96, f l = f' l) :
    written P d n m f = written P d n m f' := by
  unfold written
  cases d <;> try rfl
  · apply List.flatMap_congr
    intro l hl; rw [h l (lanesOf_lt hl)]
  · dsimp only
    cases hl : lowLane m with
    | none => rfl
    | some l =>
      have : l ∈ lanesOf m := List.mem_of_mem_head? (by rw [← lowLane, hl]; rfl)
      dsimp only; rw [h l (lanesOf_lt this)]

theorem results_congr {i : Instr} {s : State} {t g p : Nat} {d : Operand} {n : Nat} {m : Mask} {f f' : Nat → Nat} {dr : Bool}
    (h : ∀ l < 96, f l = f' l) (hr : Results i s t g p d n m f dr) : Results i s t g p d n m f' dr := by
  unfold Results at *
  rw [← written_congr h]; exact hr

theorem getD_lt {l : List Nat} {i d b : Nat} (h : ∀ x ∈ l, x < b) (hd : d < b) : l.getD i d < b := by
  rw [List.getD_eq_getElem?_getD]
  cases e : l[i]? with
  | none => exact hd
  | some x => exact h x (List.mem_of_getElem? e)

theorem maskWord_lt (m : Mask) (b : Nat) : maskWord m b < 2 ^ 32 := Nat.mod_lt _ (by decide)

theorem emRead_lt (n : Nat) (G : Group) (p : Nat) (P : Path) (b : Nat) : emRead n G p P b < 2 ^ 32 := by
  unfold emRead
  split
  · exact maskWord_lt ..
  · refine getD_lt (fun x hx => ?_) (maskWord_lt ..)
    rcases List.mem_cons.mp hx with rfl | hx
    · exact maskWord_lt ..
    · obtain ⟨w, _, rfl⟩ := List.mem_map.mp hx
      exact Nat.and_lt_two_pow _ (maskWord_lt ..)

theorem rd_lt {c : Iss} {x : Operand} {k l : Nat} (hl : l < 96) : rd c x k l < 2 ^ 32 := by
  unfold rd
  cases x with
  | v n => exact BitVec.isLt _
  | s n => dsimp only; split
           · exact emRead_lt ..
           · exact BitVec.isLt _
  | zero => exact Nat.two_pow_pos 32
  | lane => dsimp only; split <;> omega
  | drain => exact BitVec.isLt _

theorem elem_lt (c : Iss) (t : Ty) (x : Operand) {l : Nat} (hl : l < 96) : tyElem c t x l < 2 ^ tyWidth t := by
  have h := fun k => rd_lt (c := c) (x := x) (k := k) hl
  have h0 := h 0; have h1 := h 1; have h2 := h 2; have h3 := h 3
  unfold tyElem elem
  cases t <;> simp only [tyWidth] <;> norm_num <;> omega

/-! ### Lanes gathered by a key -/

theorem lanesOf_ne_nil {m : Mask} (h : m ≠ 0) : lanesOf m ≠ [] := by
  intro e
  apply h
  apply BitVec.eq_of_getLsbD_eq
  intro i hi
  by_contra hc
  have : i ∈ lanesOf m := mem_lanesOf.mpr ⟨hi, by simpa using hc⟩
  rw [e] at this; simp at this

/-- The lanes that share a key, gathered into one mask. -/
theorem gather_same {κ : Type} [DecidableEq κ] (k : κ) (key : Nat → κ) (ls : List Nat) (m : Mask) (h : ∀ l ∈ ls, key l = k) :
    ls.foldl (fun gs l =>
      let k := key l
      if gs.any fun x => x.1 = k then
        gs.map fun x => if x.1 = k then (x.1, x.2 ||| BitVec.ofNat 96 (2 ^ l)) else x
      else gs ++ [(k, BitVec.ofNat 96 (2 ^ l))]) [(k, m)]
      = [(k, ls.foldl (fun m l => m ||| BitVec.ofNat 96 (2 ^ l)) m)] := by
  induction ls generalizing m with
  | nil => rfl
  | cons l ls ih =>
    have hl := h l (by simp)
    simp only [List.foldl_cons, hl, List.any_cons, List.any_nil, decide_true, Bool.or_false, if_true, List.map_cons, List.map_nil]
    exact ih _ fun x hx => h x (by simp [hx])

theorem fold_or_getLsbD (ls : List Nat) (m : Mask) (i : Nat) (hi : i < 96) :
    (ls.foldl (fun m l => m ||| BitVec.ofNat 96 (2 ^ l)) m).getLsbD i = (m.getLsbD i || ls.contains i) := by
  induction ls generalizing m with
  | nil => simp
  | cons l ls ih =>
    rw [List.foldl_cons, ih]
    simp only [BitVec.getLsbD_or, BitVec.getLsbD_ofNat, List.contains_cons, hi, decide_true, Bool.true_and, Nat.testBit_two_pow]
    rw [Bool.or_assoc]
    congr 2
    rcases Nat.lt_or_ge l i with h | h
    · rw [decide_eq_false (by omega)]; symm; simp; omega
    · by_cases e : i = l
      · subst e; simp
      · simp [e, Ne.symm e]

theorem lanes_or (m : Mask) : (lanesOf m).foldl (fun m l => m ||| BitVec.ofNat 96 (2 ^ l)) 0 = m := by
  apply BitVec.eq_of_getLsbD_eq
  intro i hi
  rw [fold_or_getLsbD _ _ _ hi]
  rw [show (0 : Mask).getLsbD i = false from BitVec.getLsbD_zero, Bool.false_or]
  cases h : m.getLsbD i
  · rw [List.contains_eq_mem, decide_eq_false]; rw [mem_lanesOf, h]; simp
  · rw [List.contains_eq_mem, decide_eq_true]; exact mem_lanesOf.mpr ⟨hi, h⟩

/-- Lanes that all share a key form one group. -/
theorem groupLanes_same {κ : Type} [DecidableEq κ] {m : Mask} {key : Nat → κ} (hm : m ≠ 0)
    (h : ∀ l ∈ lanesOf m, key l = key ((lowLane m).getD 0)) : groupLanes m key = [(key ((lowLane m).getD 0), m)] := by
  have hn := lanesOf_ne_nil hm
  have hor := lanes_or m
  have hlow : lowLane m = (lanesOf m).head? := rfl
  unfold groupLanes
  match hl : lanesOf m, hn with
  | l :: ls, _ =>
    have e : (lowLane m).getD 0 = l := by rw [hlow, hl]; rfl
    rw [e] at h ⊢
    rw [hl] at h hor
    rw [List.foldl_cons]
    have h0 : (List.any ([] : List (κ × Mask)) fun x => x.1 = key l) = false := rfl
    simp only [h0]
    rw [if_neg (by simp), List.nil_append]
    have := gather_same (key l) key ls (BitVec.ofNat 96 (2 ^ l)) fun x hx => h x (by simp [hx])
    rw [this]
    rw [List.foldl_cons] at hor
    rw [← hor]
    simp

end Sys2Proof.Machine
end

