-- ==== Sys2Proof/Laws/Forms.lean ====
section
/-! SUPPORT. From an entry to its form: a lane instruction whose entry agrees with a form of the statements completes
with the form's values. -/

namespace Sys2Proof.Machine
open Sys2Proof.Safety Sys2Proof.Claims

/-- A lane entry that agrees with a form. -/
theorem lane_claim {i : Instr} {F : LaneForm} {s : State} {t g p : Nat} {k : LaneSpec} {f : Iss → Nat → Nat}
    (he : exec i s = laneOp i k f s)
    (hd : k.d = F.d) (hn : k.dn = F.n) (hsrc : k.dsrc = F.dsrc) (hs : k.srcs = F.srcs) (hop : k.opBad = false)
    (hw : k.waits = false)
    (h : Issues i s t g p false) (ho : Operands s t g p (F.uses (pathOf s t g p).gm))
    (hsc : isScalar F.d = true → ∀ x ∈ F.srcs, perLane x.op = false)
    (hm : k.modeBad (pathOf s t g p).gm = false)
    (hv : ∀ c l, c.P = pathOf s t g p → l < 96 → f c l = F.val c l) :
    Results i s t g p F.d (F.n (pathOf s t g p).gm) (activeOf (groupOf s t g) (pathOf s t g p))
      (F.val (view i s t g p (F.uses (pathOf s t g p).gm))) (namesDrain (F.uses (pathOf s t g p).gm)) := by
  have e : laneUses k (pathOf s t g p).gm = F.uses (pathOf s t g p).gm := by
    unfold laneUses LaneForm.uses; rw [hd, hn, hsrc, hs]
  have := laneOp_results (t := t) (g := g) (p := p) he (by rw [hw]; exact h) (by rw [e]; exact ho) hop (by
    rw [hd, hs]
    cases hF : isScalar F.d
    · rfl
    · rw [Bool.true_and, List.any_eq_false]
      intro x hx; simp [hsc hF x hx]) hm
  rw [e, hd, hn] at this
  exact results_congr (fun l hl => hv _ _ (by simp) hl) this

/-- An entry of row 0x7 that agrees with a form. -/
theorem look_claim {i : Instr} {look : Nat} {F : LaneForm} {s : State} {t g p : Nat} {k : LaneSpec} {f : Iss → Nat → Nat}
    (he : exec i s = laneLook i look k f s)
    (hd : k.d = F.d) (hn : k.dn = F.n) (hsrc : k.dsrc = F.dsrc) (hs : k.srcs = F.srcs) (hop : k.opBad = false)
    (hw : k.waits = false)
    (h : Issues i s t g p false) (ho : Operands s t g p (F.uses (pathOf s t g p).gm))
    (hsc : isScalar F.d = true → ∀ x ∈ F.srcs, perLane x.op = false)
    (hm : k.modeBad (pathOf s t g p).gm = false)
    (hact : activeOf (groupOf s t g) (pathOf s t g p) ≠ 0)
    (hwin : look ≠ 15 → (openWindows (groupOf s t g) p).length < 16)
    (hregs : ((groupOf s t g).pend.filter fun o => o.regs).length < 64)
    (hv : f (view i s t g p (F.uses (pathOf s t g p).gm)) = F.val (view i s t g p (F.uses (pathOf s t g p).gm))) :
    Completes i s t g p (F.uses (pathOf s t g p).gm) .next (postResult (view i s t g p (F.uses (pathOf s t g p).gm))
      (view i s t g p (F.uses (pathOf s t g p).gm)).s look F.d (F.n (pathOf s t g p).gm)
      (F.val (view i s t g p (F.uses (pathOf s t g p).gm)))) := by
  have e : laneUses k (pathOf s t g p).gm = F.uses (pathOf s t g p).gm := by
    unfold laneUses LaneForm.uses; rw [hd, hn, hsrc, hs]
  have e' : (laneChk k (pathOf s t g p)).uses = F.uses (pathOf s t g p).gm := e
  set c := view i s t g p (F.uses (pathOf s t g p).gm) with hc
  have hG : c.G = groupOf s t g := view_G ..
  have hp : c.p = p := view_p ..
  have ha : c.act = activeOf (groupOf s t g) (pathOf s t g p) := view_act ..
  rw [← e']
  refine completes_of (chk := fun _ _ P => laneChk k P) (way := .next) he (k := laneChk k (pathOf s t g p)) rfl
    (by show Issues i s t g p k.waits; rw [hw]; exact h) (by rw [e']; exact ho) rfl ?_ hm ?_
  · simp only [laneChk, hop, Bool.false_or]
    rw [hd, hs]
    cases hF : isScalar F.d
    · rfl
    · rw [Bool.true_and, List.any_eq_false]
      intro x hx; simp [hsc hF x hx]
  · rw [e', ← hc]
    have p0 : pendFull c look true = false := by
      unfold pendFull
      rw [hG, hp, Bool.or_eq_false_iff]
      refine ⟨?_, by simp only [Bool.true_and, decide_eq_false_iff_not]; omega⟩
      by_cases hl : look = 15
      · simp [hl]
      · have := hwin hl
        simp only [Bool.and_eq_false_imp, decide_eq_false_iff_not]; intro _; omega
    have a0 : (c.act == 0) = false := by rw [ha]; simpa using hact
    simp only [a0, p0, Bool.false_eq_true, if_false]
    rw [effOf, hd, hn, hv, show c.P = pathOf s t g p from view_P ..]

/-- An entry of row 0x7 with no active lane: the word retires, and its column of the drain port is taken. -/
theorem look_idle {i : Instr} {look : Nat} {F : LaneForm} {s : State} {t g p : Nat} {k : LaneSpec} {f : Iss → Nat → Nat}
    (he : exec i s = laneLook i look k f s)
    (hd : k.d = F.d) (hn : k.dn = F.n) (hsrc : k.dsrc = F.dsrc) (hs : k.srcs = F.srcs) (hop : k.opBad = false)
    (hw : k.waits = false)
    (h : Issues i s t g p false) (ho : Operands s t g p (F.uses (pathOf s t g p).gm))
    (hsc : isScalar F.d = true → ∀ x ∈ F.srcs, perLane x.op = false)
    (hm : k.modeBad (pathOf s t g p).gm = false)
    (hact : activeOf (groupOf s t g) (pathOf s t g p) = 0) :
    Completes i s t g p (F.uses (pathOf s t g p).gm) .next (view i s t g p (F.uses (pathOf s t g p).gm)).s := by
  have e : (laneChk k (pathOf s t g p)).uses = F.uses (pathOf s t g p).gm := by
    show laneUses k (pathOf s t g p).gm = _
    unfold laneUses LaneForm.uses; rw [hd, hn, hsrc, hs]
  rw [← e]
  refine completes_of (chk := fun _ _ P => laneChk k P) (way := .next) he (k := laneChk k (pathOf s t g p)) rfl
    (by show Issues i s t g p k.waits; rw [hw]; exact h) (by rw [e]; exact ho) rfl ?_ hm ?_
  · simp only [laneChk, hop, Bool.false_or]
    rw [hd, hs]
    cases hF : isScalar F.d
    · rfl
    · rw [Bool.true_and, List.any_eq_false]
      intro x hx; simp [hsc hF x hx]
  · simp only [view_act, hact]; rfl

/-- An entry whose checks pass and which ends with a form's effect, in terms of what the word sees alone. -/
theorem eff_claim {i : Instr} {F : EffForm} {s : State} {t g p : Nat} {chk : Team → Group → Path → Chk} {body : Iss → Eff}
    (he : exec i s = issueWord i chk body s)
    (h : Issues i s t g p F.all) (ho : Operands s t g p (F.uses (pathOf s t g p).gm))
    (hp : F.pre (view i s t g p (F.uses (pathOf s t g p).gm)))
    (hc : ∀ c : Iss, F.pre c → (chk c.T c.G c.P).uses = F.uses c.P.gm ∧ (chk c.T c.G c.P).waits = F.all ∧
      (chk c.T c.G c.P).illegal = false ∧ (chk c.T c.G c.P).opBad = false ∧ (chk c.T c.G c.P).modeBad = false ∧
      body c = effOf F.way (F.eff c)) :
    Completes i s t g p (F.uses (pathOf s t g p).gm) F.way (F.eff (view i s t g p (F.uses (pathOf s t g p).gm))) := by
  obtain ⟨h1, h2, h3, h4, h5, h6⟩ := hc _ hp
  simp only [view_T, view_G, view_P] at h1 h2 h3 h4 h5
  rw [← h1] at h6 ho ⊢
  exact completes_of he rfl (by rw [h2]; exact h) ho h3 h4 h5 h6

end Sys2Proof.Machine
end

