-- ==== Sys2Proof/Tests/Slice0.lean ====
section
/-! SUPPORT. Tests: ill-formed terms, words written out from the spec's encodings, and for every statement with hypotheses
a state and operands that meet them. -/

namespace Sys2Proof.Tests
open Sys2Proof Machine Safety Claims

/-! ### A small machine -/

/-- Page tables of four levels that map the pages at 0x8000 to 0x18000 to themselves, readable, writable and executable
(08 R190, R191). -/
def pages : Table Byte :=
  [(0x100000, 0x01), (0x100001, 0x80), (0x100002, 0x10), (0x108000, 0x01), (0x108002, 0x11), (0x110000, 0x01),
   (0x110001, 0x80), (0x110002, 0x11), (0x118008, 0x1F), (0x118009, 0x80), (0x118010, 0x1F),
   (0x118012, 0x01), (0x118018, 0x1F), (0x118019, 0x80), (0x11801A, 0x01)]

def path0 (gm : GM) : Path := { valid := true, pc := 0x8000, mask := 1, origin := 1, fs := 32, gm := gm }

def group0 (gm : GM) : Group :=
  { present := 1, paths := [(0, path0 gm)], privBase := 0x8000, pred := [(2, 2)], tilesNamed := 1 }

def team0 (gm : GM) : Team :=
  { groups := [(0, group0 gm)], cb := 0x8000, nbar := 4, lsz := 65536, psz := 32768, bsz := 32768, ntiles := 4,
    consumer := { groups := 1, lanes := 1, q := 32 }, slots := [(0, { bound := true })] }

/-- One group of one lane that issues under a mode. -/
def box (gm : GM) : State :=
  { teams := [(0, team0 gm)], mem := pages, ctxs := [(0, { root := 0x100000 })], cur := some (0, 0, 0) }

theorem box_issues (i : Instr) (gm : GM) (all : Bool) : Issues i (box gm) 0 0 0 all :=
  ⟨rfl, ⟨_, _, rfl, rfl⟩, rfl, rfl, rfl, rfl, rfl⟩

def i32 : GM := { type := .i32 }
def n32 : GM := { type := .n32 }
def i8 : GM := { type := .i8 }
def f32 : GM := { type := .f32 }
def f16 : GM := { type := .f16 }
/-- A guard that no lane passes: p1 is empty. -/
def off : GM := { type := .i32, gpred := 1 }

/-- The hypotheses of a lane table. -/
def laneCan (form : Instr → Option LaneForm) (gm : GM) (i : Instr) : Prop :=
  ∃ F, form i = some F ∧ Issues i (box gm) 0 0 0 false ∧ Operands (box gm) 0 0 0 (F.uses gm) ∧
    (isScalar F.d = true → ∀ x ∈ F.srcs, perLane x.op = false) ∧ F.types gm.type = true ∧
    (F.rounds gm = true → gm.round ≠ .sto)

/-- The hypotheses of a table of looked-ahead lane instructions. -/
def lookCan (form : Instr → Option (Nat × LaneForm)) (gm : GM) (i : Instr) : Prop :=
  ∃ look F, form i = some (look, F) ∧ Issues i (box gm) 0 0 0 false ∧ Operands (box gm) 0 0 0 (F.uses gm) ∧
    (isScalar F.d = true → ∀ x ∈ F.srcs, perLane x.op = false) ∧ F.types gm.type = true ∧
    (F.rounds gm = true → gm.round ≠ .sto) ∧ activeOf (group0 gm) (path0 gm) ≠ 0 ∧
    (look ≠ 15 → (openWindows (group0 gm) 0).length < 16) ∧ ((group0 gm).pend.filter fun o => o.regs).length < 64

/-- The hypotheses of a table of register forms. -/
def regCan (form : Instr → Option RegForm) (gm : GM) (i : Instr) : Prop :=
  ∃ F, form i = some F ∧ Issues i (box gm) 0 0 0 false ∧ Operands (box gm) 0 0 0 (F.uses (group0 gm) (path0 gm)) ∧
    F.pre (view i (box gm) 0 0 0 (F.uses (group0 gm) (path0 gm)))

/-- The hypotheses of a table of effects. -/
def effCan (forms : Instr → List EffForm) (gm : GM) (i : Instr) : Prop :=
  ∃ F ∈ forms i, Issues i (box gm) 0 0 0 F.all ∧ Operands (box gm) 0 0 0 (F.uses gm) ∧
    F.pre (view i (box gm) 0 0 0 (F.uses gm))

/-- The bytes of landing memory: at 0 a pass record of two I8 operands of one element, at 1,024 the header of a callable
queue of one entry, at 2,048 the descriptor of a volume of one point. -/
def land : Table Byte :=
  [(24, 1), (26, 1), (28, 1), (30, 1), (40, 5), (72, 1), (74, 1), (76, 1), (78, 1), (88, 5), (1032, 1), (1036, 64),
   (2056, 1), (2058, 1), (2060, 1)]

def richGroup (gm : GM) (sc : Table Word) : Group := { group0 gm with scal := sc }

def richTeam (gm : GM) (sc : Table Word) : Team :=
  { team0 gm with landing := land, smin := 2, smax := 2, pd := 2, groups := [(0, richGroup gm sc)] }

/-- The small machine with scalars, landing memory, a pipeline of two stages and an owned function-table bank. -/
def rich (gm : GM) (sc : Table Word) : State :=
  { box gm with teams := [(0, richTeam gm sc)], cores := [(0, { banks := [(0, { owned := true })] })] }

theorem rich_issues (i : Instr) (gm : GM) (sc : Table Word) (all : Bool) : Issues i (rich gm sc) 0 0 0 all where
  cur := rfl
  listed := ⟨richTeam gm sc, richGroup gm sc, rfl, rfl⟩
  valid := rfl
  resident := rfl
  windows := rfl
  bank := by
    have h : (rich gm sc).cores = [(0, { banks := [(0, { owned := true })] })] := rfl
    have k : teamCore (teamOf (rich gm sc) 0) = 0 := by simp [teamCore, teamOf, rich, tget, tfind, richTeam, team0]
    have g : (pathOf (rich gm sc) 0 0 0).gm = gm := rfl
    unfold bankStall coreOf; rw [h, k, g]; cases gm.ftb <;> rfl
  control := rfl

/-- The hypotheses of a table of effects at the machine with scalars `sc`. -/
def richCan (forms : Instr → List EffForm) (gm : GM) (sc : Table Word) (i : Instr) : Prop :=
  ∃ F ∈ forms i, Issues i (rich gm sc) 0 0 0 F.all ∧ Operands (rich gm sc) 0 0 0 (F.uses gm) ∧
    F.pre (view i (rich gm sc) 0 0 0 (F.uses gm))

/-! ### Words that issue -/

theorem test_row1_issues :
    laneCan row1 i32 (.iadd (.v 4) (.v 6) (.v 8)) ∧
    laneCan row1 i32 (.isub (.v 4) (.v 6) (.v 8)) ∧
    laneCan row1 i32 (.imul (.v 4) (.v 6) (.v 8)) ∧
    laneCan row1 i32 (.imad (.v 4) (.v 6) (.v 8)) ∧
    laneCan row1 i32 (.imulh (.v 4) (.v 6) (.v 8)) ∧
    laneCan row1 i32 (.imin (.v 4) (.v 6) (.v 8)) ∧
    laneCan row1 i32 (.imax (.v 4) (.v 6) (.v 8)) ∧
    laneCan row1 i32 (.iabsd (.v 4) (.v 6) (.v 8)) ∧
    laneCan row1 i32 (.and (.v 4) (.v 6) (.v 8)) ∧
    laneCan row1 i32 (.or (.v 4) (.v 6) (.v 8)) ∧
    laneCan row1 i32 (.xor (.v 4) (.v 6) (.v 8)) ∧
    laneCan row1 i32 (.andn (.v 4) (.v 6) (.v 8)) ∧
    laneCan row1 i32 (.shl (.v 4) (.v 6) (.v 8)) ∧
    laneCan row1 i32 (.shr (.v 4) (.v 6) (.v 8)) ∧
    laneCan row1 i32 (.sar (.v 4) (.v 6) (.v 8)) ∧
    laneCan row1 i32 (.rot (.v 4) (.v 6) (.v 8)) :=
  ⟨⟨_, rfl, box_issues .., ⟨rfl, rfl, rfl, by decide⟩, by decide, rfl, by decide⟩,
   ⟨_, rfl, box_issues .., ⟨rfl, rfl, rfl, by decide⟩, by decide, rfl, by decide⟩,
   ⟨_, rfl, box_issues .., ⟨rfl, rfl, rfl, by decide⟩, by decide, rfl, by decide⟩,
   ⟨_, rfl, box_issues .., ⟨rfl, rfl, rfl, by decide⟩, by decide, rfl, by decide⟩,
   ⟨_, rfl, box_issues .., ⟨rfl, rfl, rfl, by decide⟩, by decide, rfl, by decide⟩,
   ⟨_, rfl, box_issues .., ⟨rfl, rfl, rfl, by decide⟩, by decide, rfl, by decide⟩,
   ⟨_, rfl, box_issues .., ⟨rfl, rfl, rfl, by decide⟩, by decide, rfl, by decide⟩,
   ⟨_, rfl, box_issues .., ⟨rfl, rfl, rfl, by decide⟩, by decide, rfl, by decide⟩,
   ⟨_, rfl, box_issues .., ⟨rfl, rfl, rfl, by decide⟩, by decide, rfl, by decide⟩,
   ⟨_, rfl, box_issues .., ⟨rfl, rfl, rfl, by decide⟩, by decide, rfl, by decide⟩,
   ⟨_, rfl, box_issues .., ⟨rfl, rfl, rfl, by decide⟩, by decide, rfl, by decide⟩,
   ⟨_, rfl, box_issues .., ⟨rfl, rfl, rfl, by decide⟩, by decide, rfl, by decide⟩,
   ⟨_, rfl, box_issues .., ⟨rfl, rfl, rfl, by decide⟩, by decide, rfl, by decide⟩,
   ⟨_, rfl, box_issues .., ⟨rfl, rfl, rfl, by decide⟩, by decide, rfl, by decide⟩,
   ⟨_, rfl, box_issues .., ⟨rfl, rfl, rfl, by decide⟩, by decide, rfl, by decide⟩,
   ⟨_, rfl, box_issues .., ⟨rfl, rfl, rfl, by decide⟩, by decide, rfl, by decide⟩⟩

theorem test_row2_issues :
    laneCan row2 i32 (.popc (.v 4) (.v 6)) ∧
    laneCan row2 i32 (.clz (.v 4) (.v 6)) ∧
    laneCan row2 i32 (.brev (.v 4) (.v 6)) ∧
    laneCan row2 i32 (.bfe (.v 4) (.v 6) (.v 8)) ∧
    laneCan row2 i32 (.bfi (.v 4) (.v 6) (.v 8)) ∧
    laneCan row2 i32 (.add64 (.v 4) (.v 6) (.v 8)) ∧
    laneCan row2 i32 (.lea64 (.v 4) (.v 6) (.v 8)) ∧
    laneCan row2 i32 (.iadds (.v 4) (.v 6) (.v 8)) ∧
    laneCan row2 i32 (.isubs (.v 4) (.v 6) (.v 8)) ∧
    laneCan row2 i32 (.perm (.v 4) (.v 6) (.v 8)) ∧
    laneCan row2 i32 (.mulw (.v 4) (.v 6) (.v 8)) :=
  ⟨⟨_, rfl, box_issues .., ⟨rfl, rfl, rfl, by decide⟩, by decide, rfl, by decide⟩,
   ⟨_, rfl, box_issues .., ⟨rfl, rfl, rfl, by decide⟩, by decide, rfl, by decide⟩,
   ⟨_, rfl, box_issues .., ⟨rfl, rfl, rfl, by decide⟩, by decide, rfl, by decide⟩,
   ⟨_, rfl, box_issues .., ⟨rfl, rfl, rfl, by decide⟩, by decide, rfl, by decide⟩,
   ⟨_, rfl, box_issues .., ⟨rfl, rfl, rfl, by decide⟩, by decide, rfl, by decide⟩,
   ⟨_, rfl, box_issues .., ⟨rfl, rfl, rfl, by decide⟩, by decide, rfl, by decide⟩,
   ⟨_, rfl, box_issues .., ⟨rfl, rfl, rfl, by decide⟩, by decide, rfl, by decide⟩,
   ⟨_, rfl, box_issues .., ⟨rfl, rfl, rfl, by decide⟩, by decide, rfl, by decide⟩,
   ⟨_, rfl, box_issues .., ⟨rfl, rfl, rfl, by decide⟩, by decide, rfl, by decide⟩,
   ⟨_, rfl, box_issues .., ⟨rfl, rfl, rfl, by decide⟩, by decide, rfl, by decide⟩,
   ⟨_, rfl, box_issues .., ⟨rfl, rfl, rfl, by decide⟩, by decide, rfl, by decide⟩⟩

theorem test_row3_issues :
    laneCan row3 f32 (.fadd (.v 4) (.v 6) (.v 8)) ∧
    laneCan row3 f32 (.fsub (.v 4) (.v 6) (.v 8)) ∧
    laneCan row3 f32 (.fmul (.v 4) (.v 6) (.v 8)) ∧
    laneCan row3 f32 (.fma (.v 4) (.v 6) (.v 8)) ∧
    laneCan row3 f32 (.fnma (.v 4) (.v 6) (.v 8)) ∧
    laneCan row3 f32 (.fmin (.v 4) (.v 6) (.v 8)) ∧
    laneCan row3 f32 (.fmax (.v 4) (.v 6) (.v 8)) ∧
    laneCan row3 f32 (.fcpys (.v 4) (.v 6) (.v 8)) ∧
    laneCan row3 f32 (.fscale (.v 4) (.v 6) (.v 8)) ∧
    laneCan row3 f32 (.fneg (.v 4) (.v 6)) ∧
    laneCan row3 f32 (.fabs (.v 4) (.v 6)) ∧
    laneCan row3 f32 (.frnd (.v 4) (.v 6)) ∧
    laneCan row3 f32 (.fclass (.v 4) (.v 6)) :=
  ⟨⟨_, rfl, box_issues .., ⟨rfl, rfl, rfl, by decide⟩, by decide, rfl, by decide⟩,
   ⟨_, rfl, box_issues .., ⟨rfl, rfl, rfl, by decide⟩, by decide, rfl, by decide⟩,
   ⟨_, rfl, box_issues .., ⟨rfl, rfl, rfl, by decide⟩, by decide, rfl, by decide⟩,
   ⟨_, rfl, box_issues .., ⟨rfl, rfl, rfl, by decide⟩, by decide, rfl, by decide⟩,
   ⟨_, rfl, box_issues .., ⟨rfl, rfl, rfl, by decide⟩, by decide, rfl, by decide⟩,
   ⟨_, rfl, box_issues .., ⟨rfl, rfl, rfl, by decide⟩, by decide, rfl, by decide⟩,
   ⟨_, rfl, box_issues .., ⟨rfl, rfl, rfl, by decide⟩, by decide, rfl, by decide⟩,
   ⟨_, rfl, box_issues .., ⟨rfl, rfl, rfl, by decide⟩, by decide, rfl, by decide⟩,
   ⟨_, rfl, box_issues .., ⟨rfl, rfl, rfl, by decide⟩, by decide, rfl, by decide⟩,
   ⟨_, rfl, box_issues .., ⟨rfl, rfl, rfl, by decide⟩, by decide, rfl, by decide⟩,
   ⟨_, rfl, box_issues .., ⟨rfl, rfl, rfl, by decide⟩, by decide, rfl, by decide⟩,
   ⟨_, rfl, box_issues .., ⟨rfl, rfl, rfl, by decide⟩, by decide, rfl, by decide⟩,
   ⟨_, rfl, box_issues .., ⟨rfl, rfl, rfl, by decide⟩, by decide, rfl, by decide⟩⟩

theorem test_row3_issues_2 :
    laneCan row3 f16 (.fdot2 (.v 4) (.v 6) (.v 8)) :=
  ⟨_, rfl, box_issues .., ⟨rfl, rfl, rfl, by decide⟩, by decide, rfl, by decide⟩

theorem test_row4_issues :
    laneCan row4 f16 (.cvts (.v 4) (.v 6) (.v 8)) ∧
    laneCan row4 f16 (.pack2 (.v 4) (.v 6) (.v 8)) ∧
    laneCan row4 f16 (.unpk (.v 4) (.v 6) (.v 8)) ∧
    laneCan row4 f16 (.hfma2 (.v 4) (.v 6) (.v 8)) ∧
    laneCan row4 f16 (.hadd2 (.v 4) (.v 6) (.v 8)) ∧
    laneCan row4 f16 (.hmul2 (.v 4) (.v 6) (.v 8)) ∧
    laneCan row4 f16 (.cvt .f32 (.v 4) (.v 6)) :=
  ⟨⟨_, rfl, box_issues .., ⟨rfl, rfl, rfl, by decide⟩, by decide, rfl, by decide⟩,
   ⟨_, rfl, box_issues .., ⟨rfl, rfl, rfl, by decide⟩, by decide, rfl, by decide⟩,
   ⟨_, rfl, box_issues .., ⟨rfl, rfl, rfl, by decide⟩, by decide, rfl, by decide⟩,
   ⟨_, rfl, box_issues .., ⟨rfl, rfl, rfl, by decide⟩, by decide, rfl, by decide⟩,
   ⟨_, rfl, box_issues .., ⟨rfl, rfl, rfl, by decide⟩, by decide, rfl, by decide⟩,
   ⟨_, rfl, box_issues .., ⟨rfl, rfl, rfl, by decide⟩, by decide, rfl, by decide⟩,
   ⟨_, rfl, box_issues .., ⟨rfl, rfl, rfl, by decide⟩, by decide, rfl, by decide⟩⟩

theorem test_row4_issues_2 :
    laneCan row4 i8 (.dot4 (.v 4) (.v 6) (.v 8)) :=
  ⟨_, rfl, box_issues .., ⟨rfl, rfl, rfl, by decide⟩, by decide, rfl, by decide⟩

theorem test_row4_issues_3 :
    laneCan row4 f32 (.ivadd (.v 4) (.v 6) (.v 8)) ∧
    laneCan row4 f32 (.ivsub (.v 4) (.v 6) (.v 8)) ∧
    laneCan row4 f32 (.ivmul (.v 4) (.v 6) (.v 8)) ∧
    laneCan row4 f32 (.ivhull (.v 4) (.v 6) (.v 8)) ∧
    laneCan row4 f32 (.ivsqr (.v 4) (.v 6)) :=
  ⟨⟨_, rfl, box_issues .., ⟨rfl, rfl, rfl, by decide⟩, by decide, rfl, by decide⟩,
   ⟨_, rfl, box_issues .., ⟨rfl, rfl, rfl, by decide⟩, by decide, rfl, by decide⟩,
   ⟨_, rfl, box_issues .., ⟨rfl, rfl, rfl, by decide⟩, by decide, rfl, by decide⟩,
   ⟨_, rfl, box_issues .., ⟨rfl, rfl, rfl, by decide⟩, by decide, rfl, by decide⟩,
   ⟨_, rfl, box_issues .., ⟨rfl, rfl, rfl, by decide⟩, by decide, rfl, by decide⟩⟩

theorem test_row6_issues :
    laneCan row6 i32 (.lit (.v 4) 3) ∧
    laneCan row6 i32 (.lith (.v 4) 3) ∧
    laneCan row6 i32 (.addi (.v 4) 3) ∧
    laneCan row6 i32 (.andi (.v 4) 3) ∧
    laneCan row6 i32 (.ori (.v 4) 3) ∧
    laneCan row6 i32 (.xori (.v 4) 3) ∧
    laneCan row6 i32 (.shli (.v 4) 3) ∧
    laneCan row6 i32 (.shri (.v 4) 3) ∧
    laneCan row6 i32 (.sari (.v 4) 3) ∧
    laneCan row6 i32 (.mov (.v 4) (.v 6)) :=
  ⟨⟨_, rfl, box_issues .., ⟨rfl, rfl, rfl, by decide⟩, by decide, rfl, by decide⟩,
   ⟨_, rfl, box_issues .., ⟨rfl, rfl, rfl, by decide⟩, by decide, rfl, by decide⟩,
   ⟨_, rfl, box_issues .., ⟨rfl, rfl, rfl, by decide⟩, by decide, rfl, by decide⟩,
   ⟨_, rfl, box_issues .., ⟨rfl, rfl, rfl, by decide⟩, by decide, rfl, by decide⟩,
   ⟨_, rfl, box_issues .., ⟨rfl, rfl, rfl, by decide⟩, by decide, rfl, by decide⟩,
   ⟨_, rfl, box_issues .., ⟨rfl, rfl, rfl, by decide⟩, by decide, rfl, by decide⟩,
   ⟨_, rfl, box_issues .., ⟨rfl, rfl, rfl, by decide⟩, by decide, rfl, by decide⟩,
   ⟨_, rfl, box_issues .., ⟨rfl, rfl, rfl, by decide⟩, by decide, rfl, by decide⟩,
   ⟨_, rfl, box_issues .., ⟨rfl, rfl, rfl, by decide⟩, by decide, rfl, by decide⟩,
   ⟨_, rfl, box_issues .., ⟨rfl, rfl, rfl, by decide⟩, by decide, rfl, by decide⟩⟩

theorem test_row6_issues_2 :
    laneCan row6 f32 (.flit (.v 4) 3) :=
  ⟨_, rfl, box_issues .., ⟨rfl, rfl, rfl, by decide⟩, by decide, rfl, by decide⟩

theorem test_row7_issues :
    lookCan row7 f32 (.frcp 3 (.v 4) (.v 6)) ∧
    lookCan row7 f32 (.frsq 3 (.v 4) (.v 6)) ∧
    lookCan row7 f32 (.fsqrt 3 (.v 4) (.v 6)) ∧
    lookCan row7 f32 (.fexp2 3 (.v 4) (.v 6)) ∧
    lookCan row7 f32 (.flog2 3 (.v 4) (.v 6)) ∧
    lookCan row7 f32 (.fsin 3 (.v 4) (.v 6)) ∧
    lookCan row7 f32 (.fcos 3 (.v 4) (.v 6)) ∧
    lookCan row7 f32 (.ftanh 3 (.v 4) (.v 6)) ∧
    lookCan row7 f32 (.fsigm 3 (.v 4) (.v 6)) ∧
    lookCan row7 f32 (.fdiv 3 (.v 4) (.v 6)) :=
  ⟨⟨_, _, rfl, box_issues .., ⟨rfl, rfl, rfl, by decide⟩, by decide, rfl, by decide, by decide, by decide, by decide⟩,
   ⟨_, _, rfl, box_issues .., ⟨rfl, rfl, rfl, by decide⟩, by decide, rfl, by decide, by decide, by decide, by decide⟩,
   ⟨_, _, rfl, box_issues .., ⟨rfl, rfl, rfl, by decide⟩, by decide, rfl, by decide, by decide, by decide, by decide⟩,
   ⟨_, _, rfl, box_issues .., ⟨rfl, rfl, rfl, by decide⟩, by decide, rfl, by decide, by decide, by decide, by decide⟩,
   ⟨_, _, rfl, box_issues .., ⟨rfl, rfl, rfl, by decide⟩, by decide, rfl, by decide, by decide, by decide, by decide⟩,
   ⟨_, _, rfl, box_issues .., ⟨rfl, rfl, rfl, by decide⟩, by decide, rfl, by decide, by decide, by decide, by decide⟩,
   ⟨_, _, rfl, box_issues .., ⟨rfl, rfl, rfl, by decide⟩, by decide, rfl, by decide, by decide, by decide, by decide⟩,
   ⟨_, _, rfl, box_issues .., ⟨rfl, rfl, rfl, by decide⟩, by decide, rfl, by decide, by decide, by decide, by decide⟩,
   ⟨_, _, rfl, box_issues .., ⟨rfl, rfl, rfl, by decide⟩, by decide, rfl, by decide, by decide, by decide, by decide⟩,
   ⟨_, _, rfl, box_issues .., ⟨rfl, rfl, rfl, by decide⟩, by decide, rfl, by decide, by decide, by decide, by decide⟩⟩

theorem test_row7_issues_2 :
    lookCan row7 i32 (.idiv 3 (.v 4) (.v 6)) ∧
    lookCan row7 i32 (.irem 3 (.v 4) (.v 6)) :=
  ⟨⟨_, _, rfl, box_issues .., ⟨rfl, rfl, rfl, by decide⟩, by decide, rfl, by decide, by decide, by decide, by decide⟩,
   ⟨_, _, rfl, box_issues .., ⟨rfl, rfl, rfl, by decide⟩, by decide, rfl, by decide, by decide, by decide, by decide⟩⟩

theorem test_gathers_issues :
    lookCan gathers i32 (.gshfl 3 true (.v 4) (.v 8)) :=
  ⟨_, _, rfl, box_issues .., ⟨rfl, rfl, rfl, by decide⟩, by decide, rfl, by decide, by decide, by decide, by decide⟩

theorem test_sel_issues :
    regCan moves i32 (.sel (.v 4) (.v 6) (.v 8)) :=
  ⟨_, rfl, box_issues .., ⟨rfl, rfl, rfl, by decide⟩, rfl⟩

theorem test_smov_issues :
    regCan moves i32 (.smov (.s 4) (.v 6) (.s 8)) :=
  ⟨_, rfl, box_issues .., ⟨rfl, rfl, rfl, by decide⟩, ⟨rfl, rfl, rfl, by decide⟩⟩

theorem test_bcast_issues :
    regCan moves i32 (.bcast (.v 4) (.v 6)) :=
  ⟨_, rfl, box_issues .., ⟨rfl, rfl, rfl, by decide⟩, ⟨rfl, by decide⟩⟩

theorem test_sread_issues :
    regCan moves i32 (.sread (.v 4) 6) :=
  ⟨_, rfl, box_issues .., ⟨rfl, rfl, rfl, by decide⟩, fun _ => ⟨by decide, by decide⟩⟩

theorem test_sysr_issues :
    regCan moves i32 (.sysr (.v 4) 0x14) :=
  ⟨_, rfl, box_issues .., ⟨rfl, rfl, rfl, by decide⟩, by decide⟩

theorem test_tick_issues :
    regCan moves i32 (.tick (.v 4)) :=
  ⟨_, rfl, box_issues .., ⟨rfl, rfl, rfl, by decide⟩, trivial⟩

theorem test_gscan_issues :
    regCan moves i32 (.gscan .add (.v 4) (.v 6)) :=
  ⟨_, rfl, box_issues .., ⟨rfl, rfl, rfl, by decide⟩, ⟨rfl, by decide, rfl⟩⟩

theorem test_fcmp_issues :
    effCan compares f32 (.fcmp .lt 1 (.v 4) (.v 6)) :=
  ⟨_, .head _, box_issues .., ⟨rfl, rfl, rfl, by decide⟩, rfl⟩

theorem test_icmp_issues :
    effCan compares i32 (.icmp .lt 1 (.v 4) (.v 6)) :=
  ⟨_, .head _, box_issues .., ⟨rfl, rfl, rfl, by decide⟩, rfl⟩

theorem test_icmpi_issues :
    effCan compares i32 (.icmpi .lt 1 (.v 4) 7) :=
  ⟨_, .head _, box_issues .., ⟨rfl, rfl, rfl, by decide⟩, rfl⟩

theorem test_plog_issues :
    effCan compares i32 (.plog 3 1 2 0 0xC0) :=
  ⟨_, .head _, box_issues .., ⟨rfl, rfl, rfl, by decide⟩, rfl⟩

theorem test_nop_issues :
    effCan controls i32 (.nop) :=
  ⟨_, .head _, box_issues .., ⟨rfl, rfl, rfl, by decide⟩, trivial⟩

theorem test_setmode_issues :
    effCan controls i32 (.setmode f32) :=
  ⟨_, .head _, box_issues .., ⟨rfl, rfl, rfl, by decide⟩, rfl⟩

theorem test_exit_issues :
    effCan controls i32 (.exit) :=
  ⟨_, .head _, box_issues .., ⟨rfl, rfl, rfl, by decide⟩, trivial⟩

theorem test_sleep_issues :
    effCan controls i32 (.sleep 5) :=
  ⟨_, .head _, box_issues .., ⟨rfl, rfl, rfl, by decide⟩, trivial⟩

theorem test_frame_issues :
    effCan controls i32 (.frame 16) :=
  ⟨_, .head _, box_issues .., ⟨rfl, rfl, rfl, by decide⟩, by decide⟩

theorem test_swrite_lfm_issues :
    effCan controls i32 (.swrite 0x13 (.s 4)) :=
  ⟨_, .tail _ (.head _), box_issues .., ⟨rfl, rfl, rfl, by decide⟩, ⟨by decide, by decide, ⟨by decide, by decide⟩⟩⟩

theorem test_swrite_gscr_issues :
    effCan controls i32 (.swrite 0x20 (.s 4)) :=
  ⟨_, .tail _ (.tail _ (.tail _ (.head _))), box_issues .., ⟨rfl, rfl, rfl, by decide⟩, ⟨by decide, by decide, ⟨by decide, by decide⟩⟩⟩

theorem test_premask_issues :
    effCan controls i32 (.premask true) :=
  ⟨_, .head _, box_issues .., ⟨rfl, rfl, rfl, by decide⟩, trivial⟩

theorem test_bra_stays_issues :
    effCan branches i32 (.bra 1 (-3)) :=
  ⟨_, .head _, box_issues .., ⟨rfl, rfl, rfl, by decide⟩, by decide⟩

theorem test_bra_goes_issues :
    effCan branches i32 (.bra 0 (-3)) :=
  ⟨_, .tail _ (.head _), box_issues .., ⟨rfl, rfl, rfl, by decide⟩, ⟨by decide, by decide⟩⟩

theorem test_bru_issues :
    effCan branches i32 (.bru 0 5) :=
  ⟨_, .tail _ (.head _), box_issues .., ⟨rfl, rfl, rfl, by decide⟩, by decide⟩

theorem test_brx_issues :
    effCan branches i32 (.brx (.s 4)) :=
  ⟨_, .tail _ (.head _), box_issues .., ⟨rfl, rfl, rfl, by decide⟩, ⟨⟨rfl, by decide⟩, by decide, by decide⟩⟩

theorem test_join_issues :
    effCan branches i32 (.join) :=
  ⟨_, .head _, box_issues .., ⟨rfl, rfl, rfl, by decide⟩, trivial⟩

theorem test_call_idle_issues :
    effCan calls off (.call 2 5) :=
  ⟨_, .head _, box_issues .., ⟨rfl, rfl, rfl, by decide⟩, rfl⟩

theorem test_call_issues :
    effCan calls i32 (.call 2 5) :=
  ⟨_, .tail _ (.head _), box_issues .., ⟨rfl, rfl, rfl, by decide⟩, ⟨by decide, by decide, by decide, by decide, by decide, rfl, rfl⟩⟩

theorem test_callx_issues :
    effCan calls i32 (.callx 2 (.s 4)) :=
  ⟨_, .tail _ (.head _), box_issues .., ⟨rfl, rfl, rfl, by decide⟩, ⟨⟨rfl, by decide, by decide, ⟨by decide, by decide, by decide, rfl, rfl⟩⟩, by decide, by decide⟩⟩

theorem test_ret_issues :
    effCan calls i32 (.ret) :=
  ⟨_, .head _, box_issues .., ⟨rfl, rfl, rfl, by decide⟩, rfl⟩

theorem test_yield_issues :
    effCan barrierWords i32 (.yield 1 5) :=
  ⟨_, .tail _ (.head _), box_issues .., ⟨rfl, rfl, rfl, by decide⟩, ⟨by decide, by unfold hasBar; decide, by decide⟩⟩

theorem test_barv_issues :
    effCan barrierWords i32 (.barv 3 1 (.s 4) (.s 5)) :=
  ⟨_, .tail _ (.head _), box_issues .., ⟨rfl, rfl, rfl, by decide⟩, ⟨⟨rfl, rfl⟩, by decide, by unfold hasBar; decide, rfl, ⟨by decide, by decide⟩, rfl⟩⟩

theorem test_bwait_issues :
    effCan barrierWords i32 (.bwait 1 true .zero) :=
  ⟨_, .tail _ (.tail _ (.head _)), box_issues .., ⟨rfl, rfl, rfl, by decide⟩, ⟨rfl, by decide, by decide, by unfold hasBar; decide, by decide⟩⟩

theorem test_btest_issues :
    effCan barrierWords i32 (.btest 1 2 true .zero) :=
  ⟨_, .tail _ (.head _), box_issues .., ⟨rfl, rfl, rfl, by decide⟩, ⟨⟨rfl, by decide⟩, by decide, by unfold hasBar; decide, by decide⟩⟩

theorem test_bexp_issues :
    effCan barrierWords i32 (.bexp 3 3 (.s 4)) :=
  ⟨_, .tail _ (.head _), box_issues .., ⟨rfl, rfl, rfl, by decide⟩, ⟨rfl, by decide, by unfold hasBar; decide⟩⟩

theorem test_vote_issues :
    effCan groupWords i32 (.vote 1 (.s 4) (.s 8)) :=
  ⟨_, .tail _ (.head _), box_issues .., ⟨rfl, rfl, rfl, by decide⟩, ⟨by decide, by decide, by decide, rfl⟩⟩

theorem test_shfl_issues :
    effCan groupWords i32 (.shfl (.v 4) (.v 6) (.s 8)) :=
  ⟨_, .tail _ (.head _), box_issues .., ⟨rfl, rfl, rfl, by decide⟩, ⟨⟨rfl, rfl, by decide⟩, by decide, rfl⟩⟩

theorem test_shflx_issues :
    effCan groupWords i32 (.shflx (.v 4) (.v 6) (.s 8)) :=
  ⟨_, .tail _ (.head _), box_issues .., ⟨rfl, rfl, rfl, by decide⟩, ⟨⟨rfl, rfl, by decide⟩, by decide, rfl⟩⟩

theorem test_shflu_issues :
    effCan groupWords i32 (.shflu (.v 4) (.v 6) (.s 8)) :=
  ⟨_, .tail _ (.head _), box_issues .., ⟨rfl, rfl, rfl, by decide⟩, ⟨⟨rfl, rfl, by decide⟩, by decide, rfl⟩⟩

theorem test_shfld_issues :
    effCan groupWords i32 (.shfld (.v 4) (.v 6) (.s 8)) :=
  ⟨_, .tail _ (.head _), box_issues .., ⟨rfl, rfl, rfl, by decide⟩, ⟨⟨rfl, rfl, by decide⟩, by decide, rfl⟩⟩

theorem test_ldl_issues :
    effCan loadsStores i32 (.ldl 3 1 (.v 4) (.v 6)) :=
  ⟨_, .tail _ (.head _), box_issues .., ⟨rfl, rfl, rfl, by decide⟩, ⟨by decide, by decide, ⟨by decide, by decide⟩, by unfold laneFits; decide⟩⟩

theorem test_ldp_issues :
    effCan loadsStores i32 (.ldp 3 1 (.v 4) (.v 6)) :=
  ⟨_, .tail _ (.head _), box_issues .., ⟨rfl, rfl, rfl, by decide⟩, ⟨by decide, by decide, ⟨by decide, by decide⟩, by unfold laneFits; decide⟩⟩

theorem test_ldk_issues :
    effCan loadsStores i32 (.ldk 3 1 (.v 4) (.s 6)) :=
  ⟨_, .tail _ (.head _), box_issues .., ⟨rfl, rfl, rfl, by decide⟩, ⟨by decide, by decide, ⟨by decide, by decide⟩, by unfold laneFits; decide⟩⟩

theorem test_ldg_issues :
    effCan loadsStores i32 (.ldg 3 true .normal (.v 4) (.v 6)) :=
  ⟨_, .tail _ (.head _), box_issues .., ⟨rfl, rfl, rfl, by decide⟩, ⟨by decide, by decide, ⟨by decide, by decide⟩, by unfold laneFits; decide⟩⟩

theorem test_ldn_issues :
    effCan loadsStores i32 (.ldn 3 false true (.v 4) (.v 6)) :=
  ⟨_, .tail _ (.head _), box_issues .., ⟨rfl, rfl, rfl, by decide⟩, ⟨by decide, by decide, ⟨by decide, by decide⟩, by unfold laneFits; decide⟩⟩

theorem test_ldh_issues :
    effCan loadsStores i32 (.ldh 3 false true false (.v 4) (.v 6)) :=
  ⟨_, .tail _ (.head _), box_issues .., ⟨rfl, rfl, rfl, by decide⟩, ⟨by decide, by decide, ⟨by decide, by decide⟩, by unfold laneFits; decide⟩⟩

theorem test_stl_issues :
    effCan loadsStores i32 (.stl 3 1 (.v 4) (.v 6)) :=
  ⟨_, .tail _ (.head _), box_issues .., ⟨rfl, rfl, rfl, by decide⟩, ⟨by decide, by decide, ⟨by decide, by decide⟩, by unfold laneFits; decide⟩⟩

theorem test_stp_issues :
    effCan loadsStores i32 (.stp 3 1 (.v 4) (.v 6)) :=
  ⟨_, .tail _ (.head _), box_issues .., ⟨rfl, rfl, rfl, by decide⟩, ⟨by decide, by decide, ⟨by decide, by decide⟩, by unfold laneFits; decide⟩⟩

theorem test_stg_issues :
    effCan loadsStores i32 (.stg 3 true .normal (.v 4) (.v 6)) :=
  ⟨_, .tail _ (.head _), box_issues .., ⟨rfl, rfl, rfl, by decide⟩, ⟨by decide, by decide, ⟨by decide, by decide⟩, by unfold laneFits; decide⟩⟩

theorem test_stn_issues :
    effCan loadsStores i32 (.stn 3 false true (.v 4) (.v 6)) :=
  ⟨_, .tail _ (.head _), box_issues .., ⟨rfl, rfl, rfl, by decide⟩, ⟨by decide, by decide, ⟨by decide, by decide⟩, by unfold laneFits; decide⟩⟩

theorem test_sth_issues :
    effCan loadsStores i32 (.sth 3 false true false (.v 4) (.v 6)) :=
  ⟨_, .tail _ (.head _), box_issues .., ⟨rfl, rfl, rfl, by decide⟩, ⟨by decide, by decide, ⟨by decide, by decide⟩, by unfold laneFits; decide⟩⟩

theorem test_aadd_issues :
    effCan atomics i32 (.aadd 3 true true .global (.v 4) (.v 6)) :=
  ⟨_, .tail _ (.head _), box_issues .., ⟨rfl, rfl, rfl, by decide⟩, ⟨by decide, by decide, ⟨by decide, by decide⟩, by unfold laneFits; simp only [spaceOf]; decide⟩⟩

theorem test_afadd_issues :
    effCan atomics f32 (.afadd 3 true true .global (.v 4) (.v 6)) :=
  ⟨_, .tail _ (.head _), box_issues .., ⟨rfl, rfl, rfl, by decide⟩, ⟨by decide, by decide, ⟨by decide, by decide⟩, by unfold laneFits; simp only [spaceOf]; decide⟩⟩

theorem test_amin_issues :
    effCan atomics i32 (.amin 3 true true .global (.v 4) (.v 6)) :=
  ⟨_, .tail _ (.head _), box_issues .., ⟨rfl, rfl, rfl, by decide⟩, ⟨by decide, by decide, ⟨by decide, by decide⟩, by unfold laneFits; simp only [spaceOf]; decide⟩⟩

theorem test_amax_issues :
    effCan atomics i32 (.amax 3 true true .global (.v 4) (.v 6)) :=
  ⟨_, .tail _ (.head _), box_issues .., ⟨rfl, rfl, rfl, by decide⟩, ⟨by decide, by decide, ⟨by decide, by decide⟩, by unfold laneFits; simp only [spaceOf]; decide⟩⟩

theorem test_aand_issues :
    effCan atomics i32 (.aand 3 true true .global (.v 4) (.v 6)) :=
  ⟨_, .tail _ (.head _), box_issues .., ⟨rfl, rfl, rfl, by decide⟩, ⟨by decide, by decide, ⟨by decide, by decide⟩, by unfold laneFits; simp only [spaceOf]; decide⟩⟩

theorem test_aor_issues :
    effCan atomics i32 (.aor 3 true true .global (.v 4) (.v 6)) :=
  ⟨_, .tail _ (.head _), box_issues .., ⟨rfl, rfl, rfl, by decide⟩, ⟨by decide, by decide, ⟨by decide, by decide⟩, by unfold laneFits; simp only [spaceOf]; decide⟩⟩

theorem test_axor_issues :
    effCan atomics i32 (.axor 3 true true .global (.v 4) (.v 6)) :=
  ⟨_, .tail _ (.head _), box_issues .., ⟨rfl, rfl, rfl, by decide⟩, ⟨by decide, by decide, ⟨by decide, by decide⟩, by unfold laneFits; simp only [spaceOf]; decide⟩⟩

theorem test_axchg_issues :
    effCan atomics i32 (.axchg 3 true true .global (.v 4) (.v 6)) :=
  ⟨_, .tail _ (.head _), box_issues .., ⟨rfl, rfl, rfl, by decide⟩, ⟨by decide, by decide, ⟨by decide, by decide⟩, by unfold laneFits; simp only [spaceOf]; decide⟩⟩

theorem test_acas_issues :
    effCan atomics {} (.acas 3 true true .global (.v 4) (.v 6)) :=
  ⟨_, .tail _ (.head _), box_issues .., ⟨rfl, rfl, rfl, by decide⟩, ⟨by decide, by decide, ⟨by decide, by decide⟩, by unfold laneFits; simp only [spaceOf]; decide⟩⟩

theorem test_ainc_issues :
    effCan atomics n32 (.ainc 3 true true .global (.v 4) (.v 6)) :=
  ⟨_, .tail _ (.head _), box_issues .., ⟨rfl, rfl, rfl, by decide⟩, ⟨by decide, by decide, ⟨by decide, by decide⟩, by unfold laneFits; simp only [spaceOf]; decide⟩⟩

theorem test_adec_issues :
    effCan atomics n32 (.adec 3 true true .global (.v 4) (.v 6)) :=
  ⟨_, .tail _ (.head _), box_issues .., ⟨rfl, rfl, rfl, by decide⟩, ⟨by decide, by decide, ⟨by decide, by decide⟩, by unfold laneFits; simp only [spaceOf]; decide⟩⟩

theorem test_pfg_issues :
    effCan memoryWords i32 (.pfg 3 2 (.v 6)) :=
  ⟨_, .head _, box_issues .., ⟨rfl, rfl, rfl, by decide⟩, trivial⟩

theorem test_cctl_issues :
    effCan memoryWords i32 (.cctl 3 .lineinv (.v 6)) :=
  ⟨_, .tail _ (.head _), box_issues .., ⟨rfl, rfl, rfl, by decide⟩, ⟨by decide, by decide, ⟨by decide, by decide⟩, by decide⟩⟩

theorem test_fence_issues :
    effCan memoryWords i32 (.fence 3 .full) :=
  ⟨_, .head _, box_issues .., ⟨rfl, rfl, rfl, by decide⟩, ⟨by decide, by decide⟩⟩

theorem test_qfence_issues :
    effCan memoryWords i32 (.qfence 3 31 (some 3)) :=
  ⟨_, .head _, box_issues .., ⟨rfl, rfl, rfl, by decide⟩, ⟨by intro b h; cases h; decide, by decide, by decide⟩⟩

theorem test_tblload_issues :
    effCan memoryWords i32 (.tblload 3 1 (.s 6)) :=
  ⟨_, .tail _ (.head _), box_issues .., ⟨rfl, rfl, rfl, by decide⟩, ⟨⟨⟨rfl, by decide⟩, by decide, by decide, by decide, by decide⟩, rfl, rfl⟩⟩

theorem test_qput_issues :
    effCan memoryWords i32 (.qput 3 (.s 4) (.s 6)) :=
  ⟨_, .tail _ (.head _), box_issues .., ⟨rfl, rfl, rfl, by decide⟩, ⟨⟨rfl, _, rfl, by decide, by decide⟩, by decide, by decide, by decide, by decide, by decide, by decide⟩⟩

theorem test_waitaddr_issues :
    effCan memoryWords i32 (.waitaddr true .eq (.s 4) (.s 6)) :=
  ⟨_, .tail _ (.head _), box_issues .., ⟨rfl, rfl, rfl, by decide⟩, ⟨⟨rfl, rfl, rfl⟩, by decide, by decide⟩⟩

theorem test_mzero_issues :
    effCan matrixWords i32 (.mzero 3 3) :=
  ⟨_, .tail _ (.head _), box_issues .., ⟨rfl, rfl, rfl, by decide⟩, ⟨trivial, by decide, by decide, rfl⟩⟩

theorem test_mdrain_issues :
    effCan matrixWords i32 (.mdrain 3 3) :=
  ⟨_, .tail _ (.head _), box_issues .., ⟨rfl, rfl, rfl, by decide⟩, ⟨trivial, by decide, by decide, rfl, rfl⟩⟩

theorem test_cdrop_issues :
    effCan matrixWords i32 (.cdrop 3 (.s 4)) :=
  ⟨_, .tail _ (.head _), box_issues .., ⟨rfl, rfl, rfl, by decide⟩, ⟨rfl, by decide, rfl⟩⟩

theorem test_cstat_issues :
    effCan matrixWords i32 (.cstat 3 (.s 8) (.s 4)) :=
  ⟨_, .tail _ (.head _), box_issues .., ⟨rfl, rfl, rfl, by decide⟩, ⟨⟨⟨_, rfl, by decide, by decide⟩, rfl⟩, by decide, rfl, by decide, by decide⟩⟩

theorem test_cfresh_issues :
    effCan matrixWords i32 (.cfresh 3 (.s 4)) :=
  ⟨_, .tail _ (.head _), box_issues .., ⟨rfl, rfl, rfl, by decide⟩, ⟨rfl, by decide, rfl, by decide, by decide⟩⟩

theorem test_march_issues :
    effCan marchWords i32 (.march 3 1 (.v 8) (.s 4)) :=
  ⟨_, .tail _ (.head _), box_issues .., ⟨rfl, rfl, rfl, by decide⟩, ⟨⟨⟨_, rfl, by decide⟩, rfl⟩, by decide, by unfold hasBar; decide, rfl, by decide, by decide, by decide, by decide⟩⟩

theorem test_buck_issues :
    effCan marchWords i32 (.buck 3 1 0 (.s 8)) :=
  ⟨_, .tail _ (.head _), box_issues .., ⟨rfl, rfl, rfl, by decide⟩, ⟨⟨_, rfl, by decide, by decide⟩, by decide, by unfold hasBar; decide, rfl, by decide, by decide, rfl⟩⟩

theorem test_feval_issues :
    effCan marchWords i32 (.feval 3 0 0 (.v 4) (.v 8)) :=
  ⟨_, .tail _ (.head _), box_issues .., ⟨rfl, rfl, rfl, by decide⟩, ⟨⟨⟨_, rfl, by decide⟩, ⟨_, rfl, by decide⟩⟩, by decide, rfl, by decide, by decide, by decide⟩⟩

theorem test_fbind_issues :
    effCan marchWords i32 (.fbind 3 1 true (.s 4) (.s 8)) :=
  ⟨_, .tail _ (.head _), box_issues .., ⟨rfl, rfl, rfl, by decide⟩, ⟨⟨rfl, rfl⟩, by decide, by decide, by decide, by decide, by decide⟩⟩

theorem test_boxt_issues :
    effCan marchWords i32 (.boxt 3 (.v 4) (.v 8)) :=
  ⟨_, .tail _ (.head _), box_issues .., ⟨rfl, rfl, rfl, by decide⟩, ⟨⟨⟨_, rfl, by decide⟩, ⟨_, rfl, by decide⟩⟩, by decide, ⟨by decide, by decide⟩, by unfold laneFits; decide⟩⟩

theorem test_trit_issues :
    effCan marchWords i32 (.trit 3 true (.v 4) (.v 8)) :=
  ⟨_, .tail _ (.head _), box_issues .., ⟨rfl, rfl, rfl, by decide⟩, ⟨⟨⟨_, rfl, by decide⟩, ⟨_, rfl, by decide⟩⟩, by decide, ⟨by decide, by decide⟩, by unfold laneFits; decide⟩⟩

theorem test_visw_issues :
    effCan marchWords i32 (.visw 3 (.v 4) (.v 8)) :=
  ⟨_, .tail _ (.head _), box_issues .., ⟨rfl, rfl, rfl, by decide⟩, ⟨⟨rfl, rfl⟩, by decide, ⟨by decide, by decide⟩, by unfold laneFits; decide⟩⟩

theorem test_mstat_issues :
    effCan marchWords i32 (.mstat 3 (.s 4) (.s 8)) :=
  ⟨_, .tail _ (.head _), box_issues .., ⟨rfl, rfl, rfl, by decide⟩, ⟨⟨rfl, rfl⟩, by decide, by decide, by decide, by decide, by decide, by decide, by decide⟩⟩

theorem test_sysw_tact_issues :
    effCan systemWords i32 (.sysw 0x0B (.s 4)) :=
  ⟨_, .tail _ (.head _), box_issues .., ⟨rfl, rfl, rfl, by decide⟩, ⟨⟨rfl, rfl⟩, by decide, trivial⟩⟩

theorem test_sysw_tail_issues :
    effCan systemWords i32 (.sysw 0x11 (.s 4)) :=
  ⟨_, .tail _ (.tail _ (.tail _ (.head _))), box_issues .., ⟨rfl, rfl, rfl, by decide⟩, ⟨⟨rfl, rfl⟩, by decide, trivial⟩⟩

theorem test_trace_issues :
    effCan systemWords i32 (.trace (.s 4) (.s 5) (.s 6)) :=
  ⟨_, .tail _ (.head _), box_issues .., ⟨rfl, rfl, rfl, by decide⟩, ⟨⟨rfl, rfl, rfl⟩, by decide, trivial⟩⟩

theorem test_binit_issues :
    richCan barrierWords i32 [(4, 1)] (.binit 3 1 (.s 4)) :=
  ⟨_, .tail _ (.head _), rich_issues .., ⟨rfl, rfl, rfl, by decide⟩, ⟨rfl, by decide, by unfold hasBar; decide, by decide⟩⟩

theorem test_copy_issues :
    richCan copyWords i32 [(13, 0xFFFFFFFF)] (.copy 3 1 false (.s 8)) :=
  ⟨_, .head _, rich_issues .., ⟨rfl, rfl, rfl, by decide⟩, ⟨⟨_, rfl, by decide, by decide⟩, by unfold hasBar; decide, .inr ⟨rfl, rfl⟩, by intro _; decide⟩⟩

theorem test_csum_issues :
    richCan copyWords i32 [(13, 0xFFFFFFFF)] (.csum 3 1 (.s 8)) :=
  ⟨_, .tail _ (.head _), rich_issues .., ⟨rfl, rfl, rfl, by decide⟩, ⟨rfl, by decide, by unfold hasBar; decide, ⟨_, rfl, by decide, by decide⟩, rfl, by decide, by decide⟩⟩

theorem test_pipe_issues :
    richCan copyWords i32 [] (.pipe (.s 4)) :=
  ⟨_, .tail _ (.head _), rich_issues .., ⟨rfl, rfl, rfl, by decide⟩, ⟨rfl, by decide, by decide, by decide⟩⟩

theorem test_piperel_issues :
    richCan copyWords i32 [] (.piperel) :=
  ⟨_, .tail _ (.head _), rich_issues .., ⟨rfl, rfl, rfl, by decide⟩, ⟨by decide, by decide⟩⟩

theorem test_mpass_issues :
    richCan matrixWords i32 [] (.mpass 3 none (.s 8)) :=
  ⟨_, .tail _ (.head _), rich_issues .., ⟨rfl, rfl, rfl, by decide⟩, ⟨rfl, by decide, ⟨(fun _ h => nomatch h), by unfold recordOk; decide, by decide +kernel, by decide +kernel, by decide, by decide⟩⟩⟩

theorem test_mdelta_issues :
    richCan matrixWords i32 [] (.mdelta 3 none (.s 8)) :=
  ⟨_, .tail _ (.head _), rich_issues .., ⟨rfl, rfl, rfl, by decide⟩, ⟨rfl, by decide, ⟨(fun _ h => nomatch h), by unfold recordOk; decide, by decide +kernel, by decide +kernel, by decide, by decide⟩⟩⟩

theorem test_mstore_issues :
    richCan matrixWords i32 [(10, 256)] (.mstore 3 2 false false false none (.s 8)) :=
  ⟨_, .tail _ (.head _), rich_issues .., ⟨rfl, rfl, rfl, by decide⟩, ⟨⟨_, rfl, by decide, by decide⟩, by decide, ⟨by decide, by decide, (fun _ h => nomatch h), by decide, by decide, by decide, by decide, by decide, by decide⟩⟩⟩

theorem test_mload_issues :
    richCan matrixWords i32 [(10, 256)] (.mload 3 2 true false false none (.s 8)) :=
  ⟨_, .tail _ (.head _), rich_issues .., ⟨rfl, rfl, rfl, by decide⟩, ⟨⟨_, rfl, by decide, by decide⟩, by decide, ⟨by decide, by decide, (fun _ h => nomatch h), by decide, by decide, by decide, by decide, by decide, by decide⟩⟩⟩

theorem test_mwait_issues :
    richCan matrixWords i32 [] (.mwait (some 3)) :=
  ⟨_, .tail _ (.head _), rich_issues .., ⟨rfl, rfl, rfl, by decide⟩, ⟨trivial, by decide, ⟨fun n h => by cases h; decide, by decide, by decide⟩⟩⟩

theorem test_cbind_issues :
    richCan matrixWords i32 [(8, 0x8000), (10, 128), (11, 0x8000), (13, 0x100), (14, 0x3F800000)] (.cbind 3 (.s 4) (.s 8)) :=
  ⟨_, .tail _ (.head _), rich_issues .., ⟨rfl, rfl, rfl, by decide⟩, ⟨rfl, ⟨_, rfl, by decide, by decide⟩, by decide, by decide, by decide, ⟨_, rfl⟩, ⟨_, rfl⟩, by decide, by decide, by decide⟩⟩

theorem test_merge_issues :
    richCan marchWords i32 [(8, 4096)] (.merge 3 none (.s 8)) :=
  ⟨_, .tail _ (.head _), rich_issues .., ⟨rfl, rfl, rfl, by decide⟩, ⟨rfl, by decide, ⟨(fun _ h => nomatch h), by unfold recordOk; decide, by decide +kernel, by decide⟩⟩⟩

theorem test_cqpop_issues :
    richCan marchWords i32 [(8, 1024)] (.cqpop 3 (.v 4) (.s 8)) :=
  ⟨_, .tail _ (.head _), rich_issues .., ⟨rfl, rfl, rfl, by decide⟩, ⟨⟨⟨_, rfl, by decide⟩, rfl⟩, by decide, ⟨⟨by decide, by decide, by decide +kernel, by decide +kernel⟩, by decide, by decide⟩⟩⟩

theorem test_cqret_issues :
    richCan marchWords i32 [(8, 1024)] (.cqret 3 (.v 4) (.s 8)) :=
  ⟨_, .tail _ (.head _), rich_issues .., ⟨rfl, rfl, rfl, by decide⟩, ⟨⟨⟨_, rfl, by decide⟩, rfl⟩, by decide, ⟨⟨by decide, by decide, by decide +kernel, by decide +kernel⟩, by decide, by decide⟩⟩⟩

theorem test_vfetch_issues :
    richCan marchWords i32 [(8, 2048)] (.vfetch 3 false (.v 4) (.s 8)) :=
  ⟨_, .tail _ (.head _), rich_issues .., ⟨rfl, rfl, rfl, by decide⟩, ⟨⟨⟨_, rfl, by decide⟩, rfl⟩, by decide, rfl, by unfold recordOk; decide, by decide +kernel, ⟨by decide, by decide⟩, by decide +kernel⟩⟩

theorem test_vexpr_issues :
    ∃ F, moves (.vexpr (.v 4) (.v 8) (.s 8)) = some F ∧ Issues (.vexpr (.v 4) (.v 8) (.s 8)) (rich f32 [(8, 1)]) 0 0 0 false ∧
      Operands (rich f32 [(8, 1)]) 0 0 0 (F.uses (groupOf (rich f32 [(8, 1)]) 0 0) (path0 f32)) ∧
      F.pre (view (.vexpr (.v 4) (.v 8) (.s 8)) (rich f32 [(8, 1)]) 0 0 0 (F.uses (groupOf (rich f32 [(8, 1)]) 0 0) (path0 f32))) :=
  ⟨_, rfl, rich_issues .., ⟨rfl, rfl, rfl, by decide⟩, ⟨by decide, by decide, by decide, fun _ => by decide⟩⟩

theorem test_tbl_issues :
    ∃ F, moves (.tbl (.v 4) (.v 8) (.s 8)) = some F ∧ Issues (.tbl (.v 4) (.v 8) (.s 8)) (rich f32 []) 0 0 0 false ∧
      Operands (rich f32 []) 0 0 0 (F.uses (groupOf (rich f32 []) 0 0) (path0 f32)) ∧
      F.pre (view (.tbl (.v 4) (.v 8) (.s 8)) (rich f32 []) 0 0 0 (F.uses (groupOf (rich f32 []) 0 0) (path0 f32))) :=
  ⟨_, rfl, rich_issues .., ⟨rfl, rfl, rfl, by decide⟩, ⟨rfl, by decide, rfl, by decide, fun _ => ⟨by decide, by decide⟩⟩⟩

theorem test_rft_answers :
    let s : State := { box i32 with teams := [(0, { team0 i32 with ctl := true })] }
    ∃ F ∈ systemWords (.rft false (.s 3) (.s 5)), Issues (.rft false (.s 3) (.s 5)) s 0 0 0 F.all ∧
      Operands s 0 0 0 (F.uses i32) ∧ F.pre (view (.rft false (.s 3) (.s 5)) s 0 0 0 (F.uses i32)) :=
  ⟨_, .tail _ (.tail _ (.head _)), ⟨rfl, ⟨_, _, rfl, rfl⟩, rfl, rfl, rfl, rfl, rfl⟩, ⟨rfl, rfl, rfl, by decide⟩,
   ⟨⟨rfl, rfl, by decide⟩, by decide, .inl rfl⟩⟩

/-! ### Events whose rule applies, and one whose rule does not -/

/-- A rule of a table applies at `s`. -/
def eventCan (rules : Instr → Option (State → State → Prop)) (i : Instr) (s : State) : Prop :=
  ∃ R u, rules i = some R ∧ R s u

def withTeam (f : Team → Team) : State := { box i32 with teams := [(0, f (team0 i32))] }

/-- Two lanes, of which the guard passes the second: they go on at two addresses. -/
def forked (ld : Nat) : State :=
  let gm : GM := { i32 with gpred := 2 }
  withTeam fun T => { T with groups :=
    [(0, { group0 gm with present := 3, paths := [(0, { path0 gm with mask := 3, origin := 3, ld := ld })] })] }

/-- The hypotheses of a form at the two lanes. -/
def forkCan (s : State) (i : Instr) (F : EffForm) : Prop :=
  Issues i s 0 0 0 F.all ∧ Operands s 0 0 0 (F.uses { i32 with gpred := 2 }) ∧
    F.pre (view i s 0 0 0 (F.uses { i32 with gpred := 2 }))

theorem test_brx_divides : ∃ F ∈ branches (.brx (.s 4)), forkCan (forked 0) (.brx (.s 4)) F :=
  ⟨_, .tail _ (.tail _ (.head _)), ⟨rfl, ⟨_, _, rfl, rfl⟩, rfl, rfl, rfl, rfl, rfl⟩, ⟨rfl, rfl, rfl, by decide⟩,
   ⟨⟨rfl, by decide⟩, rfl, by decide, by decide⟩⟩

theorem test_callx_divides : ∃ F ∈ calls (.callx 2 (.s 4)), forkCan (forked 0) (.callx 2 (.s 4)) F :=
  ⟨_, .tail _ (.tail _ (.head _)), ⟨rfl, ⟨_, _, rfl, rfl⟩, rfl, rfl, rfl, rfl, rfl⟩, ⟨rfl, rfl, rfl, by decide⟩,
   ⟨⟨rfl, by decide, by decide, ⟨by decide, by decide, by decide, rfl, rfl⟩⟩, rfl, by decide, by decide⟩⟩

theorem test_ret_divides : ∃ F ∈ calls .ret, forkCan (forked 1) .ret F :=
  ⟨_, .tail _ (.tail _ (.tail _ (.head _))), ⟨rfl, ⟨_, _, rfl, rfl⟩, rfl, rfl, rfl, rfl, rfl⟩, ⟨rfl, rfl, rfl, by decide⟩,
   ⟨⟨by decide, by decide, rfl, rfl, by decide +kernel⟩, rfl, by decide +kernel, by decide +kernel⟩⟩

theorem test_sleepWake_idle : ∃ R, waitRules (.sleepWake 0 0 0) = some R ∧ ∀ u, ¬R (box i32) u :=
  ⟨_, rfl, fun _ h => nomatch h.2.1⟩

/-- Some outcome of a span is related, whichever it is. -/
theorem granted_some (s aged : State) (t : Nat) (m : MOp) (out : Span State) : ∃ u, granted s u aged t m out := by
  cases out with
  | ok s1 => exact ⟨_, .inl ⟨s1, rfl, rfl⟩⟩
  | hold => exact ⟨_, .inr (.inr ⟨rfl, rfl⟩)⟩
  | fail k a => exact ⟨_, .inr (.inl ⟨k, a, rfl, rfl⟩)⟩

/-- A reset whose target exists is answered or made, whoever asks for it. -/
theorem requested_some (s : State) (kind : Nat) (there : Prop) (act : State → State) (h : there) :
    ∃ u, requested s u kind there act := by
  unfold requested
  cases r : Config.resetRequest s.free with
  | none => exact ⟨_, .inl ⟨rfl, h, rfl⟩⟩
  | some tag =>
    cases p : Config.resetPolicy (imageOf s 4) kind with
    | false => exact ⟨_, .inr ⟨tag, rfl, .inl ⟨rfl, rfl⟩⟩⟩
    | true => exact ⟨_, .inr ⟨tag, rfl, .inr (.inl ⟨rfl, h, rfl⟩)⟩⟩

/-- Some outcome of an answer or an error is related, whichever it is. -/
theorem except_some {α β : Type} (out : Except (TrapKind × Nat) (α × β)) (f : α → β → State) (g : TrapKind → Nat → State) :
    ∃ u, (∃ a b, out = .ok (a, b) ∧ u = f a b) ∨ ∃ k va, out = .error (k, va) ∧ u = g k va := by
  cases out with
  | ok x => exact ⟨_, .inl ⟨_, _, rfl, rfl⟩⟩
  | error x => exact ⟨_, .inr ⟨_, _, rfl, rfl⟩⟩

def withGroup (f : Group → Group) : State := withTeam fun T => { T with groups := [(0, f (group0 i32))] }

/-- The path in a wait. -/
def waiting (st : Nat) (w : Wait) : State :=
  withGroup fun G => { G with paths := [(0, { path0 i32 with state := st, wait := w, wcount := 2 ^ 30, age := 255 })] }

/-- The path in a wait on barrier 0, in phase 1. -/
def barred (w : Wait) : State :=
  withTeam fun T => { T with bars := [(0, { ph := 1 })], groups := [(0, { group0 i32 with
    paths := [(0, { path0 i32 with state := 5, wait := w })] })] }

def posting (o : Pending) : State := withGroup fun G => { G with pend := [o] }

theorem test_operation_events :
    eventCan operationRules (.pendingResultComplete 0 0 5) (posting { id := 5, performed := true }) ∧
    eventCan operationRules (.pendingResultComplete 0 0 5) (posting { id := 5, memq := true, work := .fence true true }) ∧
    eventCan operationRules (.pendingResultComplete 0 0 5) (posting { id := 5, work := .qfence 31 none }) ∧
    eventCan operationRules (.asyncTrap 0 0) (withGroup fun G => { G with asyncs := [{ tr := {}, op := {} }] }) ∧
    eventCan operationRules (.tblloadComplete 0 0 5) { posting { id := 5, memq := true, work := .tblload 0 0x40000 } with
      cores := [(0, { banks := [(0, { loader := [{ op := some 5 }] })] })] } ∧
    eventCan operationRules (.qfenceArrive 0 0 5) (posting { id := 5, work := .qfence 31 (some 0) }) ∧
    eventCan operationRules (.cqpopTake 0 0 5) (posting { id := 5, memq := true, work := .cqpop 0 }) :=
  ⟨⟨_, _, rfl, _, rfl, .inr ⟨(fun _ h => nomatch h), .inl ⟨rfl, rfl, rfl⟩⟩⟩,
   ⟨_, _, rfl, _, rfl, .inr ⟨(fun _ h => nomatch h), .inr ⟨rfl, rfl, rfl, rfl⟩⟩⟩,
   ⟨_, _, rfl, _, rfl, .inl ⟨_, rfl, by decide, rfl⟩⟩,
   ⟨_, _, rfl, _, _, rfl, ⟨rfl, .inr rfl⟩, rfl⟩,
   ⟨_, _, rfl, _, _, _, _, _, rfl, rfl, rfl, rfl, rfl, rfl, .inl ⟨_, _, rfl, rfl⟩⟩,
   ⟨_, _, rfl, _, _, _, rfl, rfl, by decide, by decide, rfl⟩,
   ⟨_, _, rfl, _, _, rfl, rfl, rfl, rfl, .inr (fun _ h => nomatch h), rfl⟩⟩

theorem test_lost_csum : eventCan operationRules (.linkDeliveryTimeout 0 0 (.csum 5))
    { withTeam (fun T => { T with csums := [{ id := 5, sp := 2 }] }) with gt := 2 ^ 20 } :=
  ⟨_, _, rfl, _, rfl, rfl, by decide, rfl, by decide, rfl⟩

theorem lost_one (s : State) (a : Acc) : ∃ k m v, lostLanes s [a] = some (k, m, v) := by
  have h : undelivered s [a] = [a] := by
    unfold undelivered; cases h : Config.undelivered s.free a.lane <;> simp [h]
  exact ⟨_, _, _, by rw [lostLanes, h]; rfl⟩

theorem test_lost_load : eventCan operationRules (.linkDeliveryTimeout 0 0 (.op 5))
    { posting { id := 5, memq := true, work := .load .peer .i32 false [{ lane := 0, addr := 64 }] false } with gt := 2 ^ 20 } :=
  let ⟨k, m, v, h⟩ := lost_one _ _
  ⟨_, _, rfl, _, rfl, rfl, by decide, .inl ⟨_, _, _, _, k, m, v, rfl, h, rfl⟩⟩

theorem test_wait_events :
    eventCan waitRules (.waitTimeout 0 0 0) (waiting 5 (.addr 5 0x8000 1 .eq false (.s 4) true)) ∧
    eventCan waitRules (.hangDetector 0 0) (withGroup fun G => { G with hang := 2 ^ 32 }) ∧
    eventCan waitRules (.sleepWake 0 0 0) (waiting 3 .none) ∧
    eventCan waitRules (.joinRelease 0 0) (waiting 1 .none) :=
  ⟨⟨_, _, rfl, ⟨rfl, .inr rfl⟩, rfl, rfl, by decide, rfl⟩,
   ⟨_, _, rfl, rfl, rfl, rfl, by decide, rfl⟩,
   ⟨_, _, rfl, rfl, rfl, rfl, ⟨rfl, .inr rfl⟩, rfl⟩,
   ⟨_, _, rfl, 0x8000, ⟨_, .head _, rfl, rfl⟩, by decide, ⟨rfl, .inr rfl⟩, rfl⟩⟩

theorem test_collective_events :
    eventCan waitRules (.joinAgeEscape 0 0 0) (waiting 1 .none) ∧
    eventCan waitRules (.voteComplete 0 0 0) (waiting 2 (.vote 4 1 1 1)) :=
  ⟨⟨_, _, rfl, rfl, rfl, by decide, ⟨rfl, .inr rfl⟩, rfl⟩,
   ⟨_, _, rfl, _, _, _, _, rfl, rfl, by decide, ⟨rfl, .inr rfl⟩, rfl⟩⟩

theorem test_shuffle_event : eventCan waitRules (.shuffleComplete 0 0 0) (waiting 2 (.shfl 4 1 [] [] [])) :=
  ⟨_, _, rfl, _, _, _, _, _, rfl, rfl, rfl, ⟨rfl, .inr rfl⟩, .inl ⟨_, rfl, rfl⟩⟩

theorem test_reread_event :
    eventCan waitRules (.waitaddrReread 0 0 0) (waiting 5 (.addr 5 0x40000 1 .eq false (.s 4) true)) :=
  ⟨_, _, rfl, _, _, _, _, _, _, _, rfl, rfl, rfl, ⟨rfl, .inr rfl⟩, rfl, .inl ⟨_, rfl, rfl⟩⟩

theorem test_mwait_event : eventCan waitRules (.mwaitComplete 0 0 0) (waiting 5 (.tiles 5 0 false)) :=
  ⟨_, _, rfl, _, _, _, rfl, rfl, ⟨rfl, .inr rfl⟩, rfl, .inr ⟨rfl, rfl⟩⟩

theorem test_bwait_event : eventCan waitRules (.bwaitComplete 0 0 0) (barred (.bwait 0 0)) :=
  ⟨_, _, rfl, 0, 0, rfl, rfl, ⟨rfl, .inr rfl⟩, by decide, by decide, .inr ⟨rfl, rfl, rfl⟩⟩

theorem test_yield_event : eventCan waitRules (.yieldResume 0 0 0) (barred (.yield 0 0 0x8000)) :=
  ⟨_, _, rfl, 0, 0, _, rfl, rfl, ⟨rfl, .inr rfl⟩, by decide, by decide, .inr ⟨rfl, rfl, rfl⟩⟩

theorem test_barv_event : eventCan waitRules (.barvHeldRelease 0 0 0) (barred (.barv 0 3 (.s 4) 0 0)) :=
  ⟨_, _, rfl, 0, _, _, _, 0, rfl, rfl, ⟨rfl, .inr rfl⟩, by decide, by decide, .inr ⟨rfl, rfl, rfl⟩⟩

def withMop (m : MOp) : State := withTeam fun T => { T with mops := [m] }

theorem test_matrix_events :
    eventCan matrixRules (.passGrant 0) (withMop { id := 1, kind := .pass {}, entry := some 0 }) ∧
    eventCan matrixRules (.mdeltaGrant 0) (withMop { id := 1, kind := .delta {}, entry := some 0 }) ∧
    eventCan matrixRules (.tileOpGrant 0 0) (withMop { id := 5, kind := .zero 0 }) ∧
    eventCan matrixRules (.emulatedPassComplete 0 1) (withMop { id := 1, kind := .pass {}, granted := true }) ∧
    eventCan matrixRules (.passComplete 0 1) (withMop { id := 1, kind := .pass {}, granted := true, done := true }) :=
  ⟨let ⟨u, h⟩ := granted_some _ _ _ _ _; ⟨_, u, rfl, _, _, _, rfl, .inr ⟨_, _, rfl, rfl, .inl ⟨rfl, h⟩⟩⟩,
   let ⟨u, h⟩ := granted_some _ _ _ _ _; ⟨_, u, rfl, _, _, _, _, rfl, rfl, h⟩,
   ⟨_, _, rfl, _, rfl, rfl, rfl, rfl⟩,
   ⟨_, _, rfl, _, _, rfl, rfl, rfl, rfl, rfl⟩,
   ⟨_, _, rfl, _, rfl, rfl, (fun _ h => nomatch h), rfl⟩⟩

/-- A started copy of one slice of 4 bytes within landing memory. -/
def copying (saddr ctl : Nat) : State := withTeam fun T => { T with
  copies := [{ id := 5, slices := [{ len := 4, daddr := 64, saddr := saddr, ctl := ctl, sumrec := 0xFFFFFFFF }], started := true,
               todo := [(0, 0)], left := 4, tick := some 0 }] }

theorem test_copy_events :
    eventCan copyRules (.pipeDepthUpdate 0) { withTeam (fun T => { T with smin := 2, smax := 2, pd := 2 }) with gt := 16384 } ∧
    eventCan copyRules (.copyCollectiveStart 0 5)
      (withTeam fun T => { T with copies := [{ id := 5, slices := [{}], tick := some 0 }] }) ∧
    eventCan copyRules (.copyChunkLand 0 5 0 0) (copying 0 0) ∧
    eventCan copyRules (.copyCollectiveArrive 0 5) (withTeam fun T => { T with copies := [{ id := 5, started := true }] }) ∧
    eventCan copyRules (.copyFault 0 5 0 0) (copying 0x40000 1) ∧
    eventCan copyRules (.csumComplete 0 5) (withTeam fun T => { T with csums := [{ id := 5, sp := 1, saddr := 0x40000, len := 4 }] }) :=
  ⟨⟨_, _, rfl, by decide, by decide, rfl⟩,
   ⟨_, _, rfl, _, rfl, rfl, .inl ⟨rfl, by decide, rfl⟩⟩,
   ⟨_, _, rfl, _, rfl, .head _, rfl, rfl⟩,
   ⟨_, _, rfl, _, rfl, rfl, rfl, by decide, rfl⟩,
   ⟨_, _, rfl, _, _, _, rfl, .head _, rfl, by decide, rfl, rfl⟩,
   ⟨_, _, rfl, _, rfl, rfl, by decide, .inr ⟨by decide, .inl ⟨_, _, rfl, rfl⟩⟩⟩⟩

def withMarch (m : MarchOp) : State := withTeam fun T => { T with landing := land, marches := [m] }

theorem test_march_events :
    eventCan marchRules (.marchRayStep 0 5 0) (withMarch { id := 5, started := true }) ∧
    eventCan marchRules (.marchRayStep 0 5 0) (withMarch { id := 5, started := true, rays := [{}] }) ∧
    eventCan marchRules (.cqRequestAppend 0 5 0) (withMarch { id := 5, started := true, prog := { cqoff := 1024 }, rays := [{ ticket := some 1 }] }) ∧
    eventCan marchRules (.cqRequestTimeout 0 5 0)
      (withMarch { id := 5, started := true, kind := .feval 0 0, rays := [{ ticket := some 1, wait := 2 ^ 30 }] }) ∧
    eventCan marchRules (.marchBatchArrive 0 5) (withMarch { id := 5, started := true, bar := some 0 }) ∧
    eventCan marchRules (.fevalComplete 0 5) (withMarch { id := 5, kind := .feval 0 0, started := true }) ∧
    eventCan marchRules (.fbindPerform 0 5)
      (withTeam fun T => { T with marches := [{ id := 5, kind := .fbind 0 true 65536 0 0 }],
                                  groups := [(0, { group0 i32 with pend := [{ id := 5 }] })] }) ∧
    eventCan marchRules (.buckPerform 0 5) (withMarch { id := 5, kind := .buck 0 0 64 [0, 0, 0, 0, 0, 0], bar := some 0 }) :=
  ⟨⟨_, _, rfl, _, _, rfl, rfl, .inl rfl, .inl ⟨rfl, rfl⟩⟩,
   ⟨_, _, rfl, _, _, rfl, rfl, .inl rfl, .inr ⟨_, rfl, .inr (.inr ⟨rfl, rfl, .inl ⟨_, _, _, rfl, rfl⟩⟩)⟩⟩,
   ⟨_, _, rfl, _, _, rfl, rfl, by decide, rfl, by decide, by decide +kernel, by decide +kernel, rfl⟩,
   ⟨_, _, rfl, _, _, rfl, rfl, by decide, by decide, .inl ⟨_, _, rfl, rfl⟩⟩,
   ⟨_, _, rfl, _, _, _, _, _, rfl, rfl, rfl, rfl, by decide, rfl⟩,
   ⟨_, _, rfl, _, _, _, rfl, rfl, rfl, .inl ⟨rfl, rfl⟩⟩,
   ⟨_, _, rfl, _, _, _, _, _, _, _, rfl, rfl, rfl, rfl, .inl ⟨_, _, rfl, rfl⟩⟩,
   let ⟨u, h⟩ := except_some _ _ _; ⟨_, u, rfl, _, _, _, _, _, _, rfl, rfl, rfl, rfl, by decide, h⟩⟩

def withJob (J : Job) : State := withTeam fun T => { T with jobs := [J] }

/-- A step of a merge job ends it, goes on or waits. -/
theorem merge_some (out : MergeNext) (f : State → Job → State) (g : State → Job → Nat → State) :
    ∃ u, (∃ s1 J1, (out = .go s1 J1 ∨ out = .hold s1 J1) ∧ u = f s1 J1) ∨ ∃ s1 J1 st, out = .done s1 J1 st ∧ u = g s1 J1 st := by
  cases out with
  | go s1 J1 => exact ⟨_, .inl ⟨_, _, .inl rfl, rfl⟩⟩
  | hold s1 J1 => exact ⟨_, .inl ⟨_, _, .inr rfl, rfl⟩⟩
  | done s1 J1 st => exact ⟨_, .inr ⟨_, _, _, rfl, rfl⟩⟩

theorem test_merge_events :
    eventCan mergeRules (.mergeJobStart 0 5) (withJob { id := 5 }) ∧
    eventCan mergeRules (.mergeJobEnd 0 5) (withJob { id := 5, running := true, bar := some 0 }) :=
  ⟨⟨_, _, rfl, _, rfl, rfl, rfl, rfl, by decide, rfl⟩,
   let ⟨u, h⟩ := merge_some _ _ _; ⟨_, u, rfl, _, rfl, rfl, (by intro b h; cases h; decide), h⟩⟩

/-- A queue whose packet 0 is `P`. -/
def queued (P : Packet) : State := { box i32 with queues := [(0, { live := true, pkts := [(0, P)] })] }

theorem test_queue_events :
    eventCan queueRules (.notifyWrite 0) (queued {}) ∧ eventCan queueRules (.queueExamine 0) (queued {}) ∧
    eventCan queueRules (.launch 0 0) (queued { raw := 1 }) ∧ eventCan queueRules (.barrierAnd 0 0) (queued { raw := 2 }) ∧
    eventCan queueRules (.barrierAndComplete 0 0) (queued { raw := 2, begun := true }) ∧
    eventCan queueRules (.signal 0 0) (queued { raw := 3 }) ∧ eventCan queueRules (.raster 0 0) (queued { raw := 4 }) ∧
    eventCan queueRules (.marker 0 0) (queued { raw := 5 }) ∧
    eventCan queueRules (.packetComplete 0 0) (queued { raw := 5, begun := true, fin := some 0 }) :=
  ⟨⟨_, _, rfl, rfl, rfl⟩, ⟨_, _, rfl, rfl, rfl⟩,
   ⟨_, _, rfl, _, ⟨rfl, by decide +kernel⟩, .inl ⟨_, _, rfl, rfl⟩⟩,
   ⟨_, _, rfl, _, ⟨rfl, by decide +kernel⟩, rfl⟩,
   ⟨_, _, rfl, _, rfl, rfl, rfl, by decide, .inr ⟨_, _, rfl, .inr (.inl ⟨(fun _ h => nomatch h), rfl⟩)⟩⟩,
   ⟨_, _, rfl, _, ⟨rfl, by decide +kernel⟩, .inl ⟨_, _, rfl, rfl⟩⟩,
   ⟨_, _, rfl, _, ⟨rfl, by decide +kernel⟩, rfl, .inr ⟨rfl, rfl⟩⟩,
   ⟨_, _, rfl, _, ⟨rfl, by decide +kernel⟩, rfl⟩,
   ⟨_, _, rfl, _, _, _, _, rfl, rfl, rfl, rfl⟩⟩

theorem test_placement_events :
    eventCan placementRules (.teamExit 0) (withGroup fun G => { G with ended := true }) ∧
    eventCan placementRules (.pageMigration 0 0x8000 0) { box i32 with moves := [{ first := 1, es := [(0x118008, 0x801F)], old := 0x8000 }] } ∧
    eventCan placementRules (.hotnessEpoch 7) { box i32 with gt := 2 ^ 20 } ∧
    eventCan placementRules .patrolScrub (box i32) ∧ eventCan placementRules (.igo 0) (box i32) ∧
    eventCan placementRules (.invalidationComplete 0) { box i32 with ctxs := [(0, { root := 0x100000, idone := false })] } ∧
    eventCan placementRules (.snap 0) (box i32) :=
  ⟨⟨_, _, rfl, _, rfl, rfl, rfl⟩,
   ⟨_, _, rfl, .inl ⟨_, rfl, by decide, rfl⟩⟩,
   ⟨_, _, rfl, by decide, by decide, rfl⟩, ⟨_, _, rfl, rfl⟩, ⟨_, _, rfl, rfl, rfl, rfl⟩,
   ⟨_, _, rfl, rfl, by decide, rfl⟩, ⟨_, _, rfl, rfl⟩⟩

theorem test_suspend_events :
    eventCan suspendRules (.sreq 0) (box i32) ∧ eventCan suspendRules (.rreq 0) (box i32) ∧
    eventCan suspendRules (.priorityPreempt 0)
      { box i32 with ctxs := [(0, { prepol := 1 }), (1, {})],
                     queues := [(0, {}), (1, { ctx := 1, prio := 1, pkts := [(0, { raw := 1, begun := true, launch := some { kd := 31 * 2 ^ 109, prio := 9, total := 1, todo := [(0, [(0, 1)])] } })] })] } ∧
    eventCan suspendRules (.maskOverrun 0) { withGroup (fun G => { G with pm := true }) with
      ctxs := [(0, { sstate := 1, maskTicks := 2 ^ 20 })] } ∧
    eventCan suspendRules (.suspend 0) { box i32 with ctxs := [(0, { taking := true })] } ∧
    eventCan suspendRules (.coreStateWrite 2559 0x1FFF8 8 1) (box i32) ∧
    eventCan suspendRules (.controlCoreRestart 7) (box i32) :=
  ⟨⟨_, _, rfl, rfl, .inl rfl, rfl⟩,
   ⟨_, _, rfl, .inr ⟨(fun h => nomatch h.1), rfl⟩⟩,
   ⟨_, _, rfl, _, (1, 0, 9), rfl, by decide, .inl rfl, by decide +kernel, rfl⟩,
   ⟨_, _, rfl, _, _, rfl, rfl, rfl, by decide, rfl⟩,
   ⟨_, _, rfl, .inl ⟨rfl, rfl⟩⟩, ⟨_, _, rfl, by decide, by decide, by decide, rfl⟩, ⟨_, _, rfl, by decide, rfl, rfl⟩⟩

/-- Port 0 runs a command. -/
def commanding (code a0 a1 : Nat) : State := { box i32 with cmds := [(0, { run := some (code, a0, a1) })] }

theorem test_command_events :
    eventCan commandRules (.createContext 0) (commanding 1 0 1) ∧ eventCan commandRules (.destroyContext 0) (commanding 2 1023 0) ∧
    eventCan commandRules (.createQueue 0) (commanding 3 4096 0) ∧ eventCan commandRules (.destroyQueue 0) (commanding 4 5 0) ∧
    eventCan commandRules (.reloadQueue 0) (commanding 5 5 0) ∧ eventCan commandRules (.unknownCommand 0) (commanding 6 0 0) ∧
    eventCan commandRules (.binRecordWrite 2559 63 60 4 1) State.reset ∧ eventCan commandRules (.registerWrite 0 0 8 0) State.reset ∧
    eventCan commandRules (.loadCodeObject 0 0 0 default) (box i32) :=
  ⟨⟨_, _, rfl, _, _, ⟨rfl, by decide⟩, .inr ⟨(fun h => nomatch h.2.1), rfl⟩⟩,
   ⟨_, _, rfl, _, _, ⟨rfl, by decide⟩, .inl ⟨rfl, rfl⟩⟩,
   ⟨_, _, rfl, _, _, ⟨rfl, by decide⟩, .inr ⟨(fun h => absurd h.2.2.1 (by decide)), rfl⟩⟩,
   ⟨_, _, rfl, _, _, ⟨rfl, by decide⟩, .inl ⟨rfl, rfl⟩⟩,
   ⟨_, _, rfl, _, _, ⟨rfl, by decide⟩, .inl ⟨rfl, rfl⟩⟩,
   ⟨_, _, rfl, _, _, _, ⟨rfl, by decide⟩, .inr (by decide), rfl⟩,
   ⟨_, _, rfl, by decide, by decide, by decide, rfl⟩, ⟨_, _, rfl, by decide, rfl⟩, ⟨_, _, rfl, _, rfl, rfl⟩⟩

theorem test_management_events :
    eventCan managementRules .getVersion State.reset ∧ eventCan managementRules .getCapabilities State.reset ∧
    eventCan managementRules (.negotiateAlgorithms true) State.reset ∧ eventCan managementRules (.negotiateAlgorithms false) State.reset ∧
    eventCan managementRules .getDigests State.reset ∧ eventCan managementRules (.getCertificate 0 64) State.reset ∧
    eventCan managementRules (.challenge []) State.reset ∧
    eventCan managementRules (.challenge []) { State.reset with sup := { neg := 1 } } ∧
    eventCan managementRules (.getMeasurements 255 false []) State.reset ∧
    eventCan managementRules (.getMeasurements 5 true []) State.reset ∧
    eventCan managementRules .getVendorDefinedMessageSupport State.reset ∧
    eventCan managementRules (.firmwareUpdate 5 (Config.imageVersion []) [] []) State.reset ∧
    eventCan managementRules (.setPowerLimit 10000) State.reset ∧ eventCan managementRules (.setPowerLimit 1999) State.reset ∧
    eventCan managementRules .ageingReport State.reset :=
  ⟨⟨_, _, rfl, rfl⟩, ⟨_, _, rfl, rfl⟩, ⟨_, _, rfl, .inl ⟨rfl, rfl⟩⟩, ⟨_, _, rfl, .inr ⟨rfl, rfl⟩⟩, ⟨_, _, rfl, rfl⟩, ⟨_, _, rfl, rfl⟩,
   ⟨_, _, rfl, .inr ⟨by decide, rfl⟩⟩, ⟨_, _, rfl, .inl ⟨rfl, rfl⟩⟩, ⟨_, _, rfl, .inr ⟨_, rfl, .inl ⟨rfl, rfl⟩⟩⟩,
   ⟨_, _, rfl, .inl ⟨rfl, rfl⟩⟩, ⟨_, _, rfl, rfl⟩, ⟨_, _, rfl, rfl, .inr ⟨(fun h => absurd h.2.1 (by decide)), rfl⟩⟩,
   ⟨_, _, rfl, .inl ⟨by decide, by decide, rfl⟩⟩, ⟨_, _, rfl, .inr ⟨by decide, rfl⟩⟩, ⟨_, _, rfl, rfl⟩⟩

/-- A module that has frozen. -/
def frozen : State := { State.reset with freeze := { frozen := true } }

theorem test_vendor_events :
    eventCan vendorRules (.setInstructionComparator 1 7 7 true true 1023 0) State.reset ∧
    eventCan vendorRules (.setDataComparator 1 7 7 true true 1023 3 true 0 8) State.reset ∧
    eventCan vendorRules (.armFreezeTick 1 1) State.reset ∧ eventCan vendorRules (.freezeStatus 1) State.reset ∧
    eventCan vendorRules (.scanRead 1 0 8) frozen ∧ eventCan vendorRules (.scanRead 1 0 12) frozen ∧
    eventCan vendorRules (.scanWrite 1 0 (List.replicate 8 0)) frozen ∧ eventCan vendorRules (.moduleResume 1) frozen ∧
    eventCan vendorRules (.startCapture 1 0 0x200000 0x1000) (box i32) ∧ eventCan vendorRules (.stopCapture 1 1023) State.reset ∧
    eventCan vendorRules (.captureStatus 1 1023) State.reset ∧
    eventCan vendorRules (.startReplay 1 0 0x200000 0x300000) { box i32 with captures := [(0, { base := 0x200000 })] } ∧
    eventCan vendorRules (.replayStatus 1 1024) State.reset ∧
    eventCan vendorRules .moduleFreeze { State.reset with freeze := { armed := some 5 }, gt := 5 } :=
  ⟨⟨_, _, rfl, .inr ⟨rfl, .inr ⟨by decide, by decide, by decide, rfl⟩⟩⟩,
   ⟨_, _, rfl, .inr ⟨rfl, .inr (.inr ⟨by decide, by decide, by decide, by decide, by decide, rfl⟩)⟩⟩,
   ⟨_, _, rfl, .inr ⟨rfl, .inr (.inr ⟨by decide, rfl⟩)⟩⟩, ⟨_, _, rfl, .inr ⟨rfl, rfl⟩⟩,
   ⟨_, _, rfl, .inr ⟨rfl, .inr (.inr ⟨_, rfl, rfl, .inr (.inr ⟨rfl, by decide, rfl⟩)⟩)⟩⟩,
   ⟨_, _, rfl, .inr ⟨rfl, .inr (.inr ⟨_, rfl, rfl, .inl ⟨by decide, rfl⟩⟩)⟩⟩,
   ⟨_, _, rfl, .inr ⟨rfl, .inr (.inr ⟨_, rfl, rfl, .inr (.inr ⟨rfl, by decide, by decide, rfl⟩)⟩)⟩⟩,
   ⟨_, _, rfl, .inr ⟨rfl, .inr ⟨rfl, .inl ⟨(fun _ h => nomatch h), rfl⟩⟩⟩⟩,
   ⟨_, _, rfl, .inr ⟨rfl, .inr (.inr (.inr ⟨rfl, by decide, by decide, rfl⟩))⟩⟩,
   ⟨_, _, rfl, .inr ⟨rfl, .inr ⟨by decide, rfl⟩⟩⟩, ⟨_, _, rfl, .inr ⟨rfl, .inr ⟨by decide, rfl⟩⟩⟩,
   ⟨_, _, rfl, .inr ⟨rfl, .inr (.inr (.inr ⟨rfl, by decide, by decide, rfl⟩))⟩⟩,
   ⟨_, _, rfl, .inr ⟨rfl, .inl ⟨by decide, rfl⟩⟩⟩, ⟨_, _, rfl, _, _, rfl, rfl, by decide, rfl⟩⟩

theorem test_module_events :
    eventCan moduleRules .coldReset State.reset ∧ eventCan moduleRules (.dieReset 7 []) State.reset ∧
    eventCan moduleRules (.ioDieReset 1) State.reset ∧ eventCan moduleRules (.linkReset 13) State.reset ∧
    eventCan moduleRules (.flitRetry 0) State.reset ∧ eventCan moduleRules (.voltageReplan 7 1 { mv := 600 } 2) State.reset ∧
    eventCan moduleRules (.voltageReplan 7 1 { mv := 601 } 2) State.reset ∧
    eventCan moduleRules (.domainJoin 9) State.reset ∧ eventCan moduleRules (.hostSnoop 0 0 (some [1])) State.reset ∧
    eventCan moduleRules (.softError (.memory 0) 1) State.reset ∧ eventCan moduleRules (.softError (.memory 0) 2) State.reset ∧
    eventCan moduleRules (.softError (.line 7 0) 2) State.reset ∧ eventCan moduleRules (.softError (.landing 0 8) 2) (box i32) ∧
    eventCan moduleRules (.softError (.row 0 0 3) 2) (box i32) ∧ eventCan moduleRules (.softError (.cleanCopy 0) 1) State.reset ∧
    eventCan moduleRules (.softError (.walkCache 0 8) 2) State.reset ∧ eventCan moduleRules (.hbmStackFault 15) State.reset :=
  ⟨let ⟨u, h⟩ := requested_some _ _ _ _ trivial; ⟨_, u, rfl, h⟩, let ⟨u, h⟩ := requested_some _ _ _ _ (by decide); ⟨_, u, rfl, h⟩,
   let ⟨u, h⟩ := requested_some _ _ _ _ (by decide); ⟨_, u, rfl, h⟩, let ⟨u, h⟩ := requested_some _ _ _ _ (by decide); ⟨_, u, rfl, h⟩,
   ⟨_, _, rfl, rfl⟩, ⟨_, _, rfl, by decide, .inl ⟨by decide, rfl⟩⟩, ⟨_, _, rfl, by decide, .inr ⟨by decide, rfl⟩⟩,
   ⟨_, _, rfl, rfl⟩, ⟨_, _, rfl, _, rfl, rfl⟩,
   ⟨_, _, rfl, by decide, .inl ⟨_, rfl, by decide, .inl ⟨rfl, rfl⟩⟩⟩,
   ⟨_, _, rfl, by decide, .inl ⟨_, rfl, by decide, .inr ⟨by decide, rfl⟩⟩⟩,
   ⟨_, _, rfl, by decide, .inr (.inl ⟨_, _, rfl, by decide, .inl (by decide), .inr (.inr ⟨by decide, by decide, rfl⟩)⟩)⟩,
   ⟨_, _, rfl, by decide, .inr (.inr (.inl ⟨_, _, rfl, by decide, rfl, by decide, .inr ⟨by decide, rfl⟩⟩))⟩,
   ⟨_, _, rfl, by decide, .inr (.inr (.inr (.inl ⟨_, _, _, rfl, by decide, rfl, .inr ⟨by decide, rfl⟩⟩)))⟩,
   ⟨_, _, rfl, by decide, .inr (.inr (.inr (.inr (.inl ⟨_, rfl, rfl⟩))))⟩,
   ⟨_, _, rfl, by decide, .inr (.inr (.inr (.inr (.inr ⟨_, _, rfl, .inr ⟨by decide, rfl⟩⟩))))⟩,
   ⟨_, _, rfl, by decide, by decide, rfl⟩⟩

theorem some_of {α : Type} {o : Option α} (h : o.isSome = true) : ∃ a, o = some a := Option.isSome_iff_exists.mp h

theorem ok_of {α β : Type} {o : Except α β} {b : β} (h : o.toOption = some b) : o = .ok b := by
  cases o with
  | error e => exact nomatch h
  | ok x => exact congrArg _ (Option.some.inj h)

/-- The path waits, for 2^20 ticks, on an address of a peer page (08 R191: T = 1 of the leaf). -/
def peering : State :=
  { waiting 5 (.addr 5 0x20000 1 .eq false (.s 4) true) with gt := 2 ^ 20, mem := pages ++ [(0x118020, 0x5F)] }

theorem test_lost_wait : eventCan operationRules (.linkDeliveryTimeout 0 0 (.wait 0)) peering :=
  ⟨_, _, rfl, _, _, _, _, _, _, _, 2 ^ 61, rfl, rfl, rfl, by decide, ⟨rfl, .inr rfl⟩, by decide +kernel, by decide, by decide, rfl⟩

theorem test_lost_chunk : eventCan operationRules (.linkDeliveryTimeout 0 0 (.chunk 5 0 0)) { copying 0x20000 2 with gt := 2 ^ 20 } :=
  ⟨_, _, rfl, _, rfl, rfl, by decide, .head _, rfl, .inl ⟨⟨rfl, (fun h => nomatch h)⟩, by decide +kernel, rfl⟩⟩

theorem test_bus_events :
    eventCan moduleRules (.peerRequest 1 0x8000 (.read 4)) (box i32) ∧
    eventCan moduleRules (.hostCxlMemRequest 0 0x8000 (.write [1])) (box i32) ∧
    eventCan moduleRules (.hostCxlMemRequest 0 0x18000 (.write [1]))
      { box i32 with mem := pages.map fun x => if x.1 = 0x118019 then (x.1, 0x84) else x } :=
  ⟨⟨_, _, rfl, rfl⟩, ⟨_, _, rfl, .inr ⟨(fun e h => by
     cases (ok_of (b := (0x801F, 3)) (by decide +kernel)).symm.trans h; decide), rfl⟩⟩,
   ⟨_, _, rfl, .inl ⟨(0x1841F, 3), ok_of (by decide +kernel), by decide, by decide, rfl, rfl⟩⟩⟩

theorem test_migration_start : eventCan placementRules (.pageMigration 0 0x18000 (2 ^ 41)) (box i32) :=
  ⟨_, _, rfl, .inr ⟨rfl, _, _, _, rfl, rfl, by decide, by decide, by decide, by decide +kernel, by decide +kernel, rfl⟩⟩

/-- A queue whose launch of one team waits, dealt to die 0. -/
def waitingLaunch (ts : Table Team) (kd : Nat) (since : Table Nat) : State :=
  let L : Launch := { kd := kd, total := 1, todo := [(0, [(0, 1)])], blocked := since }
  let P : Packet := { raw := 1, begun := true, launch := some L }
  { State.reset with gt := 4096, teams := ts, ctxs := [(0, { root := 0x100000 })], queues := [(0, { live := true, pkts := [(0, P)] })] }

theorem test_place_event : eventCan placementRules (.teamPlace 0 [0]) (waitingLaunch [] 0 []) :=
  let ⟨r, h⟩ := some_of (o := firstPlaced (waitingLaunch [] 0 []) 0 [0] (candidates (waitingLaunch [] 0 []) 0)) (by decide +kernel)
  ⟨_, _, rfl, r.1, r.2.1, r.2.2, by decide, rfl, h, rfl⟩

/-- The compactor works on core 0, where a team of 16 granules and a group of 32 rows stand. -/
def compactible : State :=
  { withTeam (fun T => { T with away := .present }) with dies := [(0, { compact := some 0 })] }

theorem test_compactor_moves :
    eventCan placementRules (.compactorMove 0 (.block 0 32)) compactible ∧
    eventCan placementRules (.compactorMove 0 (.granule 16)) compactible :=
  ⟨⟨_, _, rfl, _, rfl, by decide, .inl ⟨_, _, _, rfl, rfl, by decide +kernel, by decide, by decide +kernel, by decide +kernel, rfl⟩⟩,
   ⟨_, _, rfl, _, rfl, by decide, .inr ⟨_, _, rfl, by decide +kernel, rfl, rfl, rfl⟩⟩⟩

/-- A launch asks 64 granules and 16 tiles: on cores 0 to 3 two teams hold granules 0 and 64, so it has room but no place;
of every other cluster of die 0 a team holds a tile. -/
def crowded : State :=
  waitingLaunch
    (((List.range 8).map fun n => (n, { core := n / 2, tslot := n % 2, lsz := 1, landBase := n % 2 * 64 })) ++
      (List.range 79).map fun n => (8 + n, { core := 4 + 4 * n, ntiles := 1, tileNums := [0] }))
    (16 * 2 ^ 109 + 262144 * 2 ^ 84) [(0, 0)]

theorem test_compactor_run : eventCan placementRules (.compactorRun 0) crowded :=
  let ⟨_, h⟩ := some_of (o := (lateCand crowded 0).bind (bestCore crowded 0)) (by decide +kernel)
  let ⟨c, hc, hb⟩ := Option.bind_eq_some_iff.mp h
  ⟨_, _, rfl, c, _, _, hc, hb, (fun ⟨_, h, _⟩ => nomatch h), rfl⟩

/-! ### Words that trap at their checks -/

/-- The rich machine with rows of registers, and its team changed. -/
def bent (gm : GM) (sc rows : Table Word) (f : Team → Team) : State :=
  { rich gm sc with teams := [(0, f { richTeam gm sc with groups := [(0, { richGroup gm sc with rows := rows })] })] }

/-- The hypotheses of the k-th form of a table of traps. -/
def trapCan (forms : Instr → List TrapForm) (k : Nat) (s : State) (i : Instr) : Prop :=
  ∃ F, (forms i)[k]? = some F ∧ Issues i s 0 0 0 F.all ∧ Operands s 0 0 0 (F.uses (groupOf s 0 0) (pathOf s 0 0 0)) ∧
    F.pre (view i s 0 0 0 (F.uses (groupOf s 0 0) (pathOf s 0 0 0)))

theorem test_private_traps :
    trapCan memoryTraps 0 (bent i32 [(6, 1)] [] id) (.ldp 3 0 (.v 4) (.s 6)) ∧
    trapCan memoryTraps 1 (bent i32 [(6, 0x8000)] [] id) (.ldp 3 0 (.v 4) (.s 6)) ∧
    trapCan memoryTraps 0 (bent i32 [(6, 1)] [] id) (.stp 3 0 (.v 4) (.s 6)) ∧
    trapCan memoryTraps 1 (bent i32 [(6, 0x8000)] [] id) (.stp 3 0 (.v 4) (.s 6)) ∧
    trapCan memoryTraps 0 (bent i32 [(6, 1)] [] id) (.ldk 3 0 (.v 4) (.s 6)) :=
  ⟨⟨_, rfl, ⟨rfl, ⟨_, _, rfl, rfl⟩, rfl, rfl, rfl, rfl, rfl⟩, ⟨rfl, rfl, rfl, by decide⟩, ⟨⟨by decide, by decide, ⟨by decide, by decide⟩, by decide⟩, by decide⟩⟩,
   ⟨_, rfl, ⟨rfl, ⟨_, _, rfl, rfl⟩, rfl, rfl, rfl, rfl, rfl⟩, ⟨rfl, rfl, rfl, by decide⟩, ⟨⟨by decide, by decide, ⟨by decide, by decide⟩, by decide⟩, by decide, by decide⟩⟩,
   ⟨_, rfl, ⟨rfl, ⟨_, _, rfl, rfl⟩, rfl, rfl, rfl, rfl, rfl⟩, ⟨rfl, rfl, rfl, by decide⟩, ⟨⟨by decide, by decide, ⟨by decide, by decide⟩, by decide⟩, by decide⟩⟩,
   ⟨_, rfl, ⟨rfl, ⟨_, _, rfl, rfl⟩, rfl, rfl, rfl, rfl, rfl⟩, ⟨rfl, rfl, rfl, by decide⟩, ⟨⟨by decide, by decide, ⟨by decide, by decide⟩, by decide⟩, by decide, by decide⟩⟩,
   ⟨_, rfl, ⟨rfl, ⟨_, _, rfl, rfl⟩, rfl, rfl, rfl, rfl, rfl⟩, ⟨rfl, rfl, rfl, by decide⟩, ⟨⟨by decide, by decide, ⟨by decide, by decide⟩, by decide⟩, by decide⟩⟩⟩

theorem test_load_traps :
    trapCan memoryTraps 0 (bent i32 [(6, 1)] [] id) (.ldg 3 false .normal (.v 4) (.s 6)) ∧
    trapCan memoryTraps 1 (bent i32 [(7, 0x1000000)] [] id) (.ldg 3 false .normal (.v 4) (.s 6)) ∧
    trapCan memoryTraps 0 (bent i32 [(6, 1)] [] id) (.ldn 3 false true (.v 4) (.s 6)) ∧
    trapCan memoryTraps 1 (bent i32 [(7, 0x1000000)] [] id) (.ldn 3 false true (.v 4) (.s 6)) ∧
    trapCan memoryTraps 0 (bent i32 [(6, 1)] [] id) (.ldh 3 false true false (.v 4) (.s 6)) ∧
    trapCan memoryTraps 1 (bent i32 [(7, 0x1000000)] [] id) (.ldh 3 false true false (.v 4) (.s 6)) :=
  ⟨⟨_, rfl, ⟨rfl, ⟨_, _, rfl, rfl⟩, rfl, rfl, rfl, rfl, rfl⟩, ⟨rfl, rfl, rfl, by decide⟩, ⟨⟨by decide, by decide, ⟨by decide, by decide⟩, by decide⟩, by decide⟩⟩,
   ⟨_, rfl, ⟨rfl, ⟨_, _, rfl, rfl⟩, rfl, rfl, rfl, rfl, rfl⟩, ⟨rfl, rfl, rfl, by decide⟩, ⟨⟨by decide, by decide, ⟨by decide, by decide⟩, by decide⟩, by decide, by decide⟩⟩,
   ⟨_, rfl, ⟨rfl, ⟨_, _, rfl, rfl⟩, rfl, rfl, rfl, rfl, rfl⟩, ⟨rfl, rfl, rfl, by decide⟩, ⟨⟨by decide, by decide, ⟨by decide, by decide⟩, by decide⟩, by decide⟩⟩,
   ⟨_, rfl, ⟨rfl, ⟨_, _, rfl, rfl⟩, rfl, rfl, rfl, rfl, rfl⟩, ⟨rfl, rfl, rfl, by decide⟩, ⟨⟨by decide, by decide, ⟨by decide, by decide⟩, by decide⟩, by decide, by decide⟩⟩,
   ⟨_, rfl, ⟨rfl, ⟨_, _, rfl, rfl⟩, rfl, rfl, rfl, rfl, rfl⟩, ⟨rfl, rfl, rfl, by decide⟩, ⟨⟨by decide, by decide, ⟨by decide, by decide⟩, by decide⟩, by decide⟩⟩,
   ⟨_, rfl, ⟨rfl, ⟨_, _, rfl, rfl⟩, rfl, rfl, rfl, rfl, rfl⟩, ⟨rfl, rfl, rfl, by decide⟩, ⟨⟨by decide, by decide, ⟨by decide, by decide⟩, by decide⟩, by decide, by decide⟩⟩⟩

theorem test_store_traps :
    trapCan memoryTraps 0 (bent i32 [(6, 1)] [] id) (.stg 3 true .normal (.v 4) (.s 6)) ∧
    trapCan memoryTraps 1 (bent i32 [(7, 0x1000000)] [] id) (.stg 3 true .normal (.v 4) (.s 6)) ∧
    trapCan memoryTraps 0 (bent i32 [(6, 1)] [] id) (.stn 3 false true (.v 4) (.s 6)) ∧
    trapCan memoryTraps 1 (bent i32 [(7, 0x1000000)] [] id) (.stn 3 false true (.v 4) (.s 6)) ∧
    trapCan memoryTraps 0 (bent i32 [(6, 1)] [] id) (.sth 3 false true false (.v 4) (.s 6)) ∧
    trapCan memoryTraps 1 (bent i32 [(7, 0x1000000)] [] id) (.sth 3 false true false (.v 4) (.s 6)) :=
  ⟨⟨_, rfl, ⟨rfl, ⟨_, _, rfl, rfl⟩, rfl, rfl, rfl, rfl, rfl⟩, ⟨rfl, rfl, rfl, by decide⟩, ⟨⟨by decide, by decide, ⟨by decide, by decide⟩, by decide⟩, by decide⟩⟩,
   ⟨_, rfl, ⟨rfl, ⟨_, _, rfl, rfl⟩, rfl, rfl, rfl, rfl, rfl⟩, ⟨rfl, rfl, rfl, by decide⟩, ⟨⟨by decide, by decide, ⟨by decide, by decide⟩, by decide⟩, by decide, by decide⟩⟩,
   ⟨_, rfl, ⟨rfl, ⟨_, _, rfl, rfl⟩, rfl, rfl, rfl, rfl, rfl⟩, ⟨rfl, rfl, rfl, by decide⟩, ⟨⟨by decide, by decide, ⟨by decide, by decide⟩, by decide⟩, by decide⟩⟩,
   ⟨_, rfl, ⟨rfl, ⟨_, _, rfl, rfl⟩, rfl, rfl, rfl, rfl, rfl⟩, ⟨rfl, rfl, rfl, by decide⟩, ⟨⟨by decide, by decide, ⟨by decide, by decide⟩, by decide⟩, by decide, by decide⟩⟩,
   ⟨_, rfl, ⟨rfl, ⟨_, _, rfl, rfl⟩, rfl, rfl, rfl, rfl, rfl⟩, ⟨rfl, rfl, rfl, by decide⟩, ⟨⟨by decide, by decide, ⟨by decide, by decide⟩, by decide⟩, by decide⟩⟩,
   ⟨_, rfl, ⟨rfl, ⟨_, _, rfl, rfl⟩, rfl, rfl, rfl, rfl, rfl⟩, ⟨rfl, rfl, rfl, by decide⟩, ⟨⟨by decide, by decide, ⟨by decide, by decide⟩, by decide⟩, by decide, by decide⟩⟩⟩

theorem test_misaligned_atomic_traps :
    trapCan memoryTraps 0 (bent i32 [(6, 1)] [] id) (.aadd 3 true true .global (.v 4) (.s 6)) ∧
    trapCan memoryTraps 0 (bent f32 [(6, 1)] [] id) (.afadd 3 true true .global (.v 4) (.s 6)) ∧
    trapCan memoryTraps 0 (bent i32 [(6, 1)] [] id) (.amin 3 true true .global (.v 4) (.s 6)) ∧
    trapCan memoryTraps 0 (bent i32 [(6, 1)] [] id) (.amax 3 true true .global (.v 4) (.s 6)) ∧
    trapCan memoryTraps 0 (bent i32 [(6, 1)] [] id) (.aand 3 true true .global (.v 4) (.s 6)) ∧
    trapCan memoryTraps 0 (bent i32 [(6, 1)] [] id) (.aor 3 true true .global (.v 4) (.s 6)) ∧
    trapCan memoryTraps 0 (bent i32 [(6, 1)] [] id) (.axor 3 true true .global (.v 4) (.s 6)) ∧
    trapCan memoryTraps 0 (bent i32 [(6, 1)] [] id) (.axchg 3 true true .global (.v 4) (.s 6)) ∧
    trapCan memoryTraps 0 (bent { type := .b32 } [(6, 1)] [] id) (.acas 3 true true .global (.v 4) (.s 6)) ∧
    trapCan memoryTraps 0 (bent n32 [(6, 1)] [] id) (.ainc 3 true true .global (.v 4) (.s 6)) ∧
    trapCan memoryTraps 0 (bent n32 [(6, 1)] [] id) (.adec 3 true true .global (.v 4) (.s 6)) :=
  ⟨⟨_, rfl, ⟨rfl, ⟨_, _, rfl, rfl⟩, rfl, rfl, rfl, rfl, rfl⟩, ⟨rfl, rfl, rfl, by decide⟩, ⟨⟨by decide, by decide, ⟨by decide, by decide⟩, by decide⟩, by decide⟩⟩,
   ⟨_, rfl, ⟨rfl, ⟨_, _, rfl, rfl⟩, rfl, rfl, rfl, rfl, rfl⟩, ⟨rfl, rfl, rfl, by decide⟩, ⟨⟨by decide, by decide, ⟨by decide, by decide⟩, by decide⟩, by decide⟩⟩,
   ⟨_, rfl, ⟨rfl, ⟨_, _, rfl, rfl⟩, rfl, rfl, rfl, rfl, rfl⟩, ⟨rfl, rfl, rfl, by decide⟩, ⟨⟨by decide, by decide, ⟨by decide, by decide⟩, by decide⟩, by decide⟩⟩,
   ⟨_, rfl, ⟨rfl, ⟨_, _, rfl, rfl⟩, rfl, rfl, rfl, rfl, rfl⟩, ⟨rfl, rfl, rfl, by decide⟩, ⟨⟨by decide, by decide, ⟨by decide, by decide⟩, by decide⟩, by decide⟩⟩,
   ⟨_, rfl, ⟨rfl, ⟨_, _, rfl, rfl⟩, rfl, rfl, rfl, rfl, rfl⟩, ⟨rfl, rfl, rfl, by decide⟩, ⟨⟨by decide, by decide, ⟨by decide, by decide⟩, by decide⟩, by decide⟩⟩,
   ⟨_, rfl, ⟨rfl, ⟨_, _, rfl, rfl⟩, rfl, rfl, rfl, rfl, rfl⟩, ⟨rfl, rfl, rfl, by decide⟩, ⟨⟨by decide, by decide, ⟨by decide, by decide⟩, by decide⟩, by decide⟩⟩,
   ⟨_, rfl, ⟨rfl, ⟨_, _, rfl, rfl⟩, rfl, rfl, rfl, rfl, rfl⟩, ⟨rfl, rfl, rfl, by decide⟩, ⟨⟨by decide, by decide, ⟨by decide, by decide⟩, by decide⟩, by decide⟩⟩,
   ⟨_, rfl, ⟨rfl, ⟨_, _, rfl, rfl⟩, rfl, rfl, rfl, rfl, rfl⟩, ⟨rfl, rfl, rfl, by decide⟩, ⟨⟨by decide, by decide, ⟨by decide, by decide⟩, by decide⟩, by decide⟩⟩,
   ⟨_, rfl, ⟨rfl, ⟨_, _, rfl, rfl⟩, rfl, rfl, rfl, rfl, rfl⟩, ⟨rfl, rfl, rfl, by decide⟩, ⟨⟨by decide, by decide, ⟨by decide, by decide⟩, by decide⟩, by decide⟩⟩,
   ⟨_, rfl, ⟨rfl, ⟨_, _, rfl, rfl⟩, rfl, rfl, rfl, rfl, rfl⟩, ⟨rfl, rfl, rfl, by decide⟩, ⟨⟨by decide, by decide, ⟨by decide, by decide⟩, by decide⟩, by decide⟩⟩,
   ⟨_, rfl, ⟨rfl, ⟨_, _, rfl, rfl⟩, rfl, rfl, rfl, rfl, rfl⟩, ⟨rfl, rfl, rfl, by decide⟩, ⟨⟨by decide, by decide, ⟨by decide, by decide⟩, by decide⟩, by decide⟩⟩⟩

theorem test_far_atomic_traps :
    trapCan memoryTraps 1 (bent i32 [(7, 0x1000000)] [] id) (.aadd 3 true true .global (.v 4) (.s 6)) ∧
    trapCan memoryTraps 1 (bent f32 [(7, 0x1000000)] [] id) (.afadd 3 true true .global (.v 4) (.s 6)) ∧
    trapCan memoryTraps 1 (bent i32 [(7, 0x1000000)] [] id) (.amin 3 true true .global (.v 4) (.s 6)) ∧
    trapCan memoryTraps 1 (bent i32 [(7, 0x1000000)] [] id) (.amax 3 true true .global (.v 4) (.s 6)) ∧
    trapCan memoryTraps 1 (bent i32 [(7, 0x1000000)] [] id) (.aand 3 true true .global (.v 4) (.s 6)) ∧
    trapCan memoryTraps 1 (bent i32 [(7, 0x1000000)] [] id) (.aor 3 true true .global (.v 4) (.s 6)) ∧
    trapCan memoryTraps 1 (bent i32 [(7, 0x1000000)] [] id) (.axor 3 true true .global (.v 4) (.s 6)) ∧
    trapCan memoryTraps 1 (bent i32 [(7, 0x1000000)] [] id) (.axchg 3 true true .global (.v 4) (.s 6)) ∧
    trapCan memoryTraps 1 (bent { type := .b32 } [(7, 0x1000000)] [] id) (.acas 3 true true .global (.v 4) (.s 6)) ∧
    trapCan memoryTraps 1 (bent n32 [(7, 0x1000000)] [] id) (.ainc 3 true true .global (.v 4) (.s 6)) ∧
    trapCan memoryTraps 1 (bent n32 [(7, 0x1000000)] [] id) (.adec 3 true true .global (.v 4) (.s 6)) :=
  ⟨⟨_, rfl, ⟨rfl, ⟨_, _, rfl, rfl⟩, rfl, rfl, rfl, rfl, rfl⟩, ⟨rfl, rfl, rfl, by decide⟩, ⟨⟨by decide, by decide, ⟨by decide, by decide⟩, by decide⟩, by decide, by decide⟩⟩,
   ⟨_, rfl, ⟨rfl, ⟨_, _, rfl, rfl⟩, rfl, rfl, rfl, rfl, rfl⟩, ⟨rfl, rfl, rfl, by decide⟩, ⟨⟨by decide, by decide, ⟨by decide, by decide⟩, by decide⟩, by decide, by decide⟩⟩,
   ⟨_, rfl, ⟨rfl, ⟨_, _, rfl, rfl⟩, rfl, rfl, rfl, rfl, rfl⟩, ⟨rfl, rfl, rfl, by decide⟩, ⟨⟨by decide, by decide, ⟨by decide, by decide⟩, by decide⟩, by decide, by decide⟩⟩,
   ⟨_, rfl, ⟨rfl, ⟨_, _, rfl, rfl⟩, rfl, rfl, rfl, rfl, rfl⟩, ⟨rfl, rfl, rfl, by decide⟩, ⟨⟨by decide, by decide, ⟨by decide, by decide⟩, by decide⟩, by decide, by decide⟩⟩,
   ⟨_, rfl, ⟨rfl, ⟨_, _, rfl, rfl⟩, rfl, rfl, rfl, rfl, rfl⟩, ⟨rfl, rfl, rfl, by decide⟩, ⟨⟨by decide, by decide, ⟨by decide, by decide⟩, by decide⟩, by decide, by decide⟩⟩,
   ⟨_, rfl, ⟨rfl, ⟨_, _, rfl, rfl⟩, rfl, rfl, rfl, rfl, rfl⟩, ⟨rfl, rfl, rfl, by decide⟩, ⟨⟨by decide, by decide, ⟨by decide, by decide⟩, by decide⟩, by decide, by decide⟩⟩,
   ⟨_, rfl, ⟨rfl, ⟨_, _, rfl, rfl⟩, rfl, rfl, rfl, rfl, rfl⟩, ⟨rfl, rfl, rfl, by decide⟩, ⟨⟨by decide, by decide, ⟨by decide, by decide⟩, by decide⟩, by decide, by decide⟩⟩,
   ⟨_, rfl, ⟨rfl, ⟨_, _, rfl, rfl⟩, rfl, rfl, rfl, rfl, rfl⟩, ⟨rfl, rfl, rfl, by decide⟩, ⟨⟨by decide, by decide, ⟨by decide, by decide⟩, by decide⟩, by decide, by decide⟩⟩,
   ⟨_, rfl, ⟨rfl, ⟨_, _, rfl, rfl⟩, rfl, rfl, rfl, rfl, rfl⟩, ⟨rfl, rfl, rfl, by decide⟩, ⟨⟨by decide, by decide, ⟨by decide, by decide⟩, by decide⟩, by decide, by decide⟩⟩,
   ⟨_, rfl, ⟨rfl, ⟨_, _, rfl, rfl⟩, rfl, rfl, rfl, rfl, rfl⟩, ⟨rfl, rfl, rfl, by decide⟩, ⟨⟨by decide, by decide, ⟨by decide, by decide⟩, by decide⟩, by decide, by decide⟩⟩,
   ⟨_, rfl, ⟨rfl, ⟨_, _, rfl, rfl⟩, rfl, rfl, rfl, rfl, rfl⟩, ⟨rfl, rfl, rfl, by decide⟩, ⟨⟨by decide, by decide, ⟨by decide, by decide⟩, by decide⟩, by decide, by decide⟩⟩⟩

theorem test_memory_word_traps :
    trapCan memoryTraps 0 (bent i32 [(7, 0x1000000)] [] id) (.cctl 3 .lineinv (.s 6)) ∧
    trapCan memoryTraps 0 (bent i32 [(6, 1)] [] id) (.waitaddr true .eq (.s 4) (.s 6)) ∧
    trapCan memoryTraps 0 (bent i32 [(6, 8)] [] id) (.tblload 3 1 (.s 6)) ∧
    trapCan memoryTraps 0 (bent i32 [(6, 1)] [] id) (.qput 3 (.s 4) (.s 6)) :=
  ⟨⟨_, rfl, ⟨rfl, ⟨_, _, rfl, rfl⟩, rfl, rfl, rfl, rfl, rfl⟩, ⟨rfl, rfl, rfl, by decide⟩, ⟨by decide, ⟨by decide, by decide⟩, by decide⟩⟩,
   ⟨_, rfl, ⟨rfl, ⟨_, _, rfl, rfl⟩, rfl, rfl, rfl, rfl, rfl⟩, ⟨rfl, rfl, rfl, by decide⟩, ⟨rfl, rfl, rfl, by decide, by decide⟩⟩,
   ⟨_, rfl, ⟨rfl, ⟨_, _, rfl, rfl⟩, rfl, rfl, rfl, rfl, rfl⟩, ⟨rfl, rfl, rfl, by decide⟩, ⟨rfl, by decide, by decide, by decide⟩⟩,
   ⟨_, rfl, ⟨rfl, ⟨_, _, rfl, rfl⟩, rfl, rfl, rfl, rfl, rfl⟩, ⟨rfl, rfl, rfl, by decide⟩, ⟨by decide, rfl, by decide, by decide, by decide⟩⟩⟩

theorem test_frame_traps :
    trapCan controlTraps 0 (bent i32 [] [] id) (.frame 0) ∧
    trapCan controlTraps 0 (bent i32 [] [] id) (.frame 193) ∧
    trapCan controlTraps 1 (bent i32 [] [] (fun T => { T with groups := [(0, { group0 i32 with paths := [(0, { path0 i32 with fs := 16 })] })], bsz := 0 })) (.frame 32) :=
  ⟨⟨_, rfl, ⟨rfl, ⟨_, _, rfl, rfl⟩, rfl, rfl, rfl, rfl, rfl⟩, ⟨rfl, rfl, rfl, by decide⟩, by decide⟩,
   ⟨_, rfl, ⟨rfl, ⟨_, _, rfl, rfl⟩, rfl, rfl, rfl, rfl, rfl⟩, ⟨rfl, rfl, rfl, by decide⟩, by decide⟩,
   ⟨_, rfl, ⟨rfl, ⟨_, _, rfl, rfl⟩, rfl, rfl, rfl, rfl, rfl⟩, ⟨rfl, rfl, rfl, by decide⟩, by decide⟩⟩

theorem test_call_traps :
    trapCan controlTraps 0 (bent i32 [(4, 1)] [] id) (.brx (.s 4)) ∧
    trapCan controlTraps 0 (bent i32 [] [] id) (.call 3 5) ∧
    trapCan controlTraps 1 (bent i32 [] [] (fun T => { T with bsz := 0 })) (.call 2 5) ∧
    trapCan controlTraps 2 (bent i32 [] [] (fun T => { T with groups := [(0, { group0 i32 with privBase := 0x40000 })] })) (.call 2 5) ∧
    trapCan controlTraps 0 (bent i32 [(4, 1)] [] id) (.callx 2 (.s 4)) ∧
    trapCan controlTraps 1 (bent i32 [] [] id) (.callx 3 (.s 4)) ∧
    trapCan controlTraps 2 (bent i32 [] [] (fun T => { T with bsz := 0 })) (.callx 2 (.s 4)) ∧
    trapCan controlTraps 3 (bent i32 [] [] (fun T => { T with groups := [(0, { group0 i32 with privBase := 0x40000 })] })) (.callx 2 (.s 4)) ∧
    trapCan controlTraps 0 (bent i32 [] [] (fun T => { T with groups := [(0, { group0 i32 with privBase := 0x40000, scal := [(4, 0)], paths := [(0, { path0 i32 with ld := 1 })] })] })) (.ret) :=
  ⟨⟨_, rfl, ⟨rfl, ⟨_, _, rfl, rfl⟩, rfl, rfl, rfl, rfl, rfl⟩, ⟨rfl, rfl, rfl, by decide⟩, ⟨rfl, by decide⟩⟩,
   ⟨_, rfl, ⟨rfl, ⟨_, _, rfl, rfl⟩, rfl, rfl, rfl, rfl, rfl⟩, ⟨rfl, rfl, rfl, by decide⟩, ⟨by decide, by decide⟩⟩,
   ⟨_, rfl, ⟨rfl, ⟨_, _, rfl, rfl⟩, rfl, rfl, rfl, rfl, rfl⟩, ⟨rfl, rfl, rfl, by decide⟩, ⟨by decide, by decide, by decide⟩⟩,
   ⟨_, rfl, ⟨rfl, ⟨_, _, rfl, rfl⟩, rfl, rfl, rfl, rfl, rfl⟩, ⟨rfl, rfl, rfl, by decide⟩, ⟨⟨by decide, by decide, by decide⟩, rfl, _, _, _, rfl⟩⟩,
   ⟨_, rfl, ⟨rfl, ⟨_, _, rfl, rfl⟩, rfl, rfl, rfl, rfl, rfl⟩, ⟨rfl, rfl, rfl, by decide⟩, ⟨rfl, by decide, by decide⟩⟩,
   ⟨_, rfl, ⟨rfl, ⟨_, _, rfl, rfl⟩, rfl, rfl, rfl, rfl, rfl⟩, ⟨rfl, rfl, rfl, by decide⟩, ⟨⟨rfl, by decide, by decide⟩, by decide⟩⟩,
   ⟨_, rfl, ⟨rfl, ⟨_, _, rfl, rfl⟩, rfl, rfl, rfl, rfl, rfl⟩, ⟨rfl, rfl, rfl, by decide⟩, ⟨⟨rfl, by decide, by decide⟩, by decide, by decide⟩⟩,
   ⟨_, rfl, ⟨rfl, ⟨_, _, rfl, rfl⟩, rfl, rfl, rfl, rfl, rfl⟩, ⟨rfl, rfl, rfl, by decide⟩, ⟨⟨⟨rfl, by decide, by decide⟩, by decide, by decide⟩, rfl, _, _, _, rfl⟩⟩,
   ⟨_, rfl, ⟨rfl, ⟨_, _, rfl, rfl⟩, rfl, rfl, rfl, rfl, rfl⟩, ⟨rfl, rfl, rfl, by decide⟩, ⟨⟨by decide, by decide⟩, rfl, _, _, _, rfl⟩⟩⟩

theorem test_special_traps :
    trapCan controlTraps 0 (bent i32 [] [] id) (.sread (.v 4) 0xFF) ∧
    trapCan controlTraps 1 (bent i32 [] [] id) (.sread (.s 4) 0x0A) ∧
    trapCan controlTraps 0 (bent i32 [] [] id) (.swrite 0x16 (.s 4)) ∧
    trapCan controlTraps 0 (bent i32 [] [] id) (.sysr (.v 4) 0xFF) ∧
    trapCan controlTraps 0 (bent i32 [] [] id) (.sysw 0x0C (.s 4)) ∧
    trapCan controlTraps 0 (bent f32 [] [] id) (.vexpr (.v 4) (.v 8) (.s 8)) ∧
    trapCan controlTraps 0 (box f32) (.tbl (.v 4) (.v 8) (.s 8)) :=
  ⟨⟨_, rfl, ⟨rfl, ⟨_, _, rfl, rfl⟩, rfl, rfl, rfl, rfl, rfl⟩, ⟨rfl, rfl, rfl, by decide⟩, ⟨by decide, by decide⟩⟩,
   ⟨_, rfl, ⟨rfl, ⟨_, _, rfl, rfl⟩, rfl, rfl, rfl, rfl, rfl⟩, ⟨rfl, rfl, rfl, by decide⟩, ⟨by decide, rfl, rfl⟩⟩,
   ⟨_, rfl, ⟨rfl, ⟨_, _, rfl, rfl⟩, rfl, rfl, rfl, rfl, rfl⟩, ⟨rfl, rfl, rfl, by decide⟩, ⟨rfl, by decide, by decide, by decide⟩⟩,
   ⟨_, rfl, ⟨rfl, ⟨_, _, rfl, rfl⟩, rfl, rfl, rfl, rfl, rfl⟩, ⟨rfl, rfl, rfl, by decide⟩, by decide⟩,
   ⟨_, rfl, ⟨rfl, ⟨_, _, rfl, rfl⟩, rfl, rfl, rfl, rfl, rfl⟩, ⟨rfl, rfl, rfl, by decide⟩, by decide⟩,
   ⟨_, rfl, ⟨rfl, ⟨_, _, rfl, rfl⟩, rfl, rfl, rfl, rfl, rfl⟩, ⟨rfl, rfl, rfl, by decide⟩, ⟨by decide, by decide, by decide, by decide, by decide⟩⟩,
   ⟨_, rfl, ⟨rfl, ⟨_, _, rfl, rfl⟩, rfl, rfl, rfl, rfl, rfl⟩, ⟨rfl, rfl, rfl, by decide⟩, ⟨rfl, by decide, rfl, by decide, by decide, by decide⟩⟩⟩

theorem test_no_barrier_traps :
    trapCan barrierTraps 0 (bent i32 [] [] id) (.yield 4 5) ∧
    trapCan barrierTraps 0 (bent i32 [] [] id) (.binit 3 4 (.s 4)) ∧
    trapCan barrierTraps 1 (bent i32 [] [] id) (.binit 3 1 (.s 4)) ∧
    trapCan barrierTraps 0 (bent i32 [] [] id) (.barv 3 4 (.s 4) (.s 5)) ∧
    trapCan barrierTraps 0 (bent i32 [] [] id) (.bwait 4 true .zero) ∧
    trapCan barrierTraps 0 (bent i32 [] [] id) (.btest 4 2 true .zero) ∧
    trapCan barrierTraps 0 (bent i32 [] [] id) (.bexp 3 4 (.s 4)) ∧
    trapCan barrierTraps 0 (bent i32 [] [] id) (.qfence 3 31 (some 4)) :=
  ⟨⟨_, rfl, ⟨rfl, ⟨_, _, rfl, rfl⟩, rfl, rfl, rfl, rfl, rfl⟩, ⟨rfl, rfl, rfl, by decide⟩, ⟨by decide, by unfold hasBar; decide⟩⟩,
   ⟨_, rfl, ⟨rfl, ⟨_, _, rfl, rfl⟩, rfl, rfl, rfl, rfl, rfl⟩, ⟨rfl, rfl, rfl, by decide⟩, ⟨by decide, rfl, by unfold hasBar; decide⟩⟩,
   ⟨_, rfl, ⟨rfl, ⟨_, _, rfl, rfl⟩, rfl, rfl, rfl, rfl, rfl⟩, ⟨rfl, rfl, rfl, by decide⟩, ⟨rfl, by decide, by unfold hasBar; decide, by decide, by decide⟩⟩,
   ⟨_, rfl, ⟨rfl, ⟨_, _, rfl, rfl⟩, rfl, rfl, rfl, rfl, rfl⟩, ⟨rfl, rfl, rfl, by decide⟩, ⟨by decide, rfl, rfl, by unfold hasBar; decide⟩⟩,
   ⟨_, rfl, ⟨rfl, ⟨_, _, rfl, rfl⟩, rfl, rfl, rfl, rfl, rfl⟩, ⟨rfl, rfl, rfl, by decide⟩, ⟨by decide, rfl, fun _ => rfl, by unfold hasBar; decide⟩⟩,
   ⟨_, rfl, ⟨rfl, ⟨_, _, rfl, rfl⟩, rfl, rfl, rfl, rfl, rfl⟩, ⟨rfl, rfl, rfl, by decide⟩, ⟨by decide, rfl, fun _ => rfl, by unfold hasBar; decide⟩⟩,
   ⟨_, rfl, ⟨rfl, ⟨_, _, rfl, rfl⟩, rfl, rfl, rfl, rfl, rfl⟩, ⟨rfl, rfl, rfl, by decide⟩, ⟨by decide, rfl, by unfold hasBar; decide⟩⟩,
   ⟨_, rfl, ⟨rfl, ⟨_, _, rfl, rfl⟩, rfl, rfl, rfl, rfl, rfl⟩, ⟨rfl, rfl, rfl, by decide⟩, by unfold hasBar; decide⟩⟩

theorem test_copy_traps :
    trapCan barrierTraps 0 (bent i32 [] [] id) (.copy 3 4 false (.s 8)) ∧
    trapCan barrierTraps 1 (bent i32 [] [] id) (.copy 3 1 false (.s 4)) ∧
    trapCan barrierTraps 2 (bent i32 [(12, 4), (13, 0xFFFFFFFF), (14, 0xFFFFFFFF)] [] id) (.copy 3 1 false (.s 8)) ∧
    trapCan barrierTraps 3 (bent i32 [(10, 1), (12, 4), (13, 0xFFFFFFFF), (14, 32)] [] id) (.copy 3 1 false (.s 8)) ∧
    trapCan barrierTraps 0 (bent i32 [] [] id) (.csum 3 4 (.s 8)) ∧
    trapCan barrierTraps 1 (bent i32 [] [] id) (.csum 3 1 (.s 4)) ∧
    trapCan barrierTraps 1 (bent i32 [] [] id) (.csum 3 1 (.s 8)) ∧
    trapCan barrierTraps 0 (box i32) (.pipe (.s 4)) ∧
    trapCan barrierTraps 0 (box i32) (.piperel) :=
  ⟨⟨_, rfl, ⟨rfl, ⟨_, _, rfl, rfl⟩, rfl, rfl, rfl, rfl, rfl⟩, ⟨rfl, rfl, rfl, by decide⟩, ⟨rfl, by unfold hasBar; decide⟩⟩,
   ⟨_, rfl, ⟨rfl, ⟨_, _, rfl, rfl⟩, rfl, rfl, rfl, rfl, rfl⟩, ⟨rfl, rfl, rfl, by decide⟩, ⟨rfl, by unfold hasBar; decide, by rintro ⟨k, h, e, -⟩; cases h; revert e; decide⟩⟩,
   ⟨_, rfl, ⟨rfl, ⟨_, _, rfl, rfl⟩, rfl, rfl, rfl, rfl, rfl⟩, ⟨rfl, rfl, rfl, by decide⟩, ⟨⟨rfl, by unfold hasBar; decide, ⟨_, rfl, by decide, by decide⟩, by decide, by decide⟩, by decide +kernel⟩⟩,
   ⟨_, rfl, ⟨rfl, ⟨_, _, rfl, rfl⟩, rfl, rfl, rfl, rfl, rfl⟩, ⟨rfl, rfl, rfl, by decide⟩, ⟨⟨rfl, by unfold hasBar; decide, ⟨_, rfl, by decide, by decide⟩, by decide, by decide⟩, by decide +kernel, (fun h => nomatch h), by decide⟩⟩,
   ⟨_, rfl, ⟨rfl, ⟨_, _, rfl, rfl⟩, rfl, rfl, rfl, rfl, rfl⟩, ⟨rfl, rfl, rfl, by decide⟩, ⟨by decide, rfl, by unfold hasBar; decide⟩⟩,
   ⟨_, rfl, ⟨rfl, ⟨_, _, rfl, rfl⟩, rfl, rfl, rfl, rfl, rfl⟩, ⟨rfl, rfl, rfl, by decide⟩, ⟨by decide, rfl, by unfold hasBar; decide, .inl (by rintro ⟨k, h, e, -⟩; cases h; revert e; decide)⟩⟩,
   ⟨_, rfl, ⟨rfl, ⟨_, _, rfl, rfl⟩, rfl, rfl, rfl, rfl, rfl⟩, ⟨rfl, rfl, rfl, by decide⟩, ⟨by decide, rfl, by unfold hasBar; decide, .inr (by decide)⟩⟩,
   ⟨_, rfl, ⟨rfl, ⟨_, _, rfl, rfl⟩, rfl, rfl, rfl, rfl, rfl⟩, ⟨rfl, rfl, rfl, by decide⟩, ⟨rfl, rfl⟩⟩,
   ⟨_, rfl, ⟨rfl, ⟨_, _, rfl, rfl⟩, rfl, rfl, rfl, rfl, rfl⟩, ⟨rfl, rfl, rfl, by decide⟩, rfl⟩⟩

theorem test_mpass_traps :
    trapCan matrixTraps 0 (bent i32 [] [] id) (.mpass 3 (some 4) (.s 8)) ∧
    trapCan matrixTraps 0 (bent i32 [(8, 4)] [] id) (.mpass 3 none (.s 8)) ∧
    trapCan matrixTraps 0 (bent i32 [(8, 65416)] [] id) (.mpass 3 none (.s 8)) ∧
    trapCan matrixTraps 1 (bent i32 [] [] (fun T => { T with landBad := [0] })) (.mpass 3 none (.s 8)) ∧
    trapCan matrixTraps 2 (bent i32 [(8, 1024)] [] id) (.mpass 3 none (.s 8)) ∧
    trapCan matrixTraps 3 (bent i32 [] [] (fun T => { T with landing := land.filter (·.1 < 96) ++ [(96, 32), (98, 16)] ++ land.filter (96 < ·.1), landBad := [4096] })) (.mpass 3 none (.s 8)) :=
  ⟨⟨_, rfl, ⟨rfl, ⟨_, _, rfl, rfl⟩, rfl, rfl, rfl, rfl, rfl⟩, ⟨rfl, rfl, rfl, by decide⟩, ⟨by decide, rfl, .inl (fun h => absurd (h 4 rfl) (by decide))⟩⟩,
   ⟨_, rfl, ⟨rfl, ⟨_, _, rfl, rfl⟩, rfl, rfl, rfl, rfl, rfl⟩, ⟨rfl, rfl, rfl, by decide⟩, ⟨by decide, rfl, .inr (by unfold misplaced; decide)⟩⟩,
   ⟨_, rfl, ⟨rfl, ⟨_, _, rfl, rfl⟩, rfl, rfl, rfl, rfl, rfl⟩, ⟨rfl, rfl, rfl, by decide⟩, ⟨by decide, rfl, .inr (by unfold misplaced; decide)⟩⟩,
   ⟨_, rfl, ⟨rfl, ⟨_, _, rfl, rfl⟩, rfl, rfl, rfl, rfl, rfl⟩, ⟨rfl, rfl, rfl, by decide⟩, ⟨by decide, ⟨rfl, (fun _ h => nomatch h)⟩, by unfold unreadable misplaced; decide⟩⟩,
   ⟨_, rfl, ⟨rfl, ⟨_, _, rfl, rfl⟩, rfl, rfl, rfl, rfl, rfl⟩, ⟨rfl, rfl, rfl, by decide⟩, ⟨by decide, ⟨rfl, (fun _ h => nomatch h)⟩, by unfold recordOk; decide, by decide +kernel⟩⟩,
   ⟨_, rfl, ⟨rfl, ⟨_, _, rfl, rfl⟩, rfl, rfl, rfl, rfl, rfl⟩, ⟨rfl, rfl, rfl, by decide⟩, ⟨by decide, ⟨rfl, (fun _ h => nomatch h)⟩, by unfold recordOk; decide, by decide +kernel, by decide +kernel, by decide +kernel⟩⟩⟩

theorem test_mdelta_traps :
    trapCan matrixTraps 0 (bent i32 [] [] id) (.mdelta 3 (some 4) (.s 8)) ∧
    trapCan matrixTraps 0 (bent i32 [(8, 4)] [] id) (.mdelta 3 none (.s 8)) ∧
    trapCan matrixTraps 0 (bent i32 [(8, 65416)] [] id) (.mdelta 3 none (.s 8)) ∧
    trapCan matrixTraps 1 (bent i32 [] [] (fun T => { T with landBad := [0] })) (.mdelta 3 none (.s 8)) ∧
    trapCan matrixTraps 2 (bent i32 [(8, 1024)] [] id) (.mdelta 3 none (.s 8)) :=
  ⟨⟨_, rfl, ⟨rfl, ⟨_, _, rfl, rfl⟩, rfl, rfl, rfl, rfl, rfl⟩, ⟨rfl, rfl, rfl, by decide⟩, ⟨by decide, rfl, .inl (fun h => absurd (h 4 rfl) (by decide))⟩⟩,
   ⟨_, rfl, ⟨rfl, ⟨_, _, rfl, rfl⟩, rfl, rfl, rfl, rfl, rfl⟩, ⟨rfl, rfl, rfl, by decide⟩, ⟨by decide, rfl, .inr (by unfold misplaced; decide)⟩⟩,
   ⟨_, rfl, ⟨rfl, ⟨_, _, rfl, rfl⟩, rfl, rfl, rfl, rfl, rfl⟩, ⟨rfl, rfl, rfl, by decide⟩, ⟨by decide, rfl, .inr (by unfold misplaced; decide)⟩⟩,
   ⟨_, rfl, ⟨rfl, ⟨_, _, rfl, rfl⟩, rfl, rfl, rfl, rfl, rfl⟩, ⟨rfl, rfl, rfl, by decide⟩, ⟨by decide, ⟨rfl, (fun _ h => nomatch h)⟩, by unfold unreadable misplaced; decide⟩⟩,
   ⟨_, rfl, ⟨rfl, ⟨_, _, rfl, rfl⟩, rfl, rfl, rfl, rfl, rfl⟩, ⟨rfl, rfl, rfl, by decide⟩, ⟨by decide, ⟨rfl, (fun _ h => nomatch h)⟩, by unfold recordOk; decide, by decide +kernel⟩⟩⟩

theorem test_tile_traps :
    trapCan matrixTraps 0 (bent i32 [] [] id) (.mzero 3 4) ∧
    trapCan matrixTraps 0 (bent i32 [] [] id) (.mdrain 3 4) ∧
    trapCan matrixTraps 1 (bent i32 [] [] (fun T => { T with tstat := [(3, 1)] })) (.mdrain 3 3) ∧
    trapCan matrixTraps 0 (bent i32 [] [] id) (.mwait (some 4)) ∧
    trapCan matrixTraps 1 (bent i32 [] [] (fun T => { T with tstat := [(0, 1)] })) (.mwait (some 0)) :=
  ⟨⟨_, rfl, ⟨rfl, ⟨_, _, rfl, rfl⟩, rfl, rfl, rfl, rfl, rfl⟩, ⟨rfl, rfl, rfl, by decide⟩, ⟨by decide, by decide⟩⟩,
   ⟨_, rfl, ⟨rfl, ⟨_, _, rfl, rfl⟩, rfl, rfl, rfl, rfl, rfl⟩, ⟨rfl, rfl, rfl, by decide⟩, ⟨by decide, by decide⟩⟩,
   ⟨_, rfl, ⟨rfl, ⟨_, _, rfl, rfl⟩, rfl, rfl, rfl, rfl, rfl⟩, ⟨rfl, rfl, rfl, by decide⟩, ⟨by decide, by decide, _, rfl⟩⟩,
   ⟨_, rfl, ⟨rfl, ⟨_, _, rfl, rfl⟩, rfl, rfl, rfl, rfl, rfl⟩, ⟨rfl, rfl, rfl, by decide⟩, ⟨by decide, _, rfl, by decide⟩⟩,
   ⟨_, rfl, ⟨rfl, ⟨_, _, rfl, rfl⟩, rfl, rfl, rfl, rfl, rfl⟩, ⟨rfl, rfl, rfl, by decide⟩, ⟨by decide, ⟨fun n h => by cases h; decide, rfl⟩, _, rfl⟩⟩⟩

theorem test_mstore_traps :
    trapCan matrixTraps 0 (bent i32 [(10, 256)] [] id) (.mstore 3 4 false false false none (.s 8)) ∧
    trapCan matrixTraps 1 (bent i32 [(8, 1), (10, 256)] [] id) (.mstore 3 3 false false false none (.s 8)) ∧
    trapCan matrixTraps 2 (bent i32 [(9, 1), (10, 256)] [] id) (.mstore 3 3 false false false none (.s 8)) ∧
    trapCan matrixTraps 3 (bent i32 [(10, 256)] [] (fun T => { T with tstat := [(3, 1)] })) (.mstore 3 3 false false false none (.s 8)) :=
  ⟨⟨_, rfl, ⟨rfl, ⟨_, _, rfl, rfl⟩, rfl, rfl, rfl, rfl, rfl⟩, ⟨rfl, rfl, rfl, by decide⟩, ⟨by decide, ⟨_, rfl, by decide, by decide⟩, fun h => absurd (h.1 4 (.head _)) (by decide)⟩⟩,
   ⟨_, rfl, ⟨rfl, ⟨_, _, rfl, rfl⟩, rfl, rfl, rfl, rfl, rfl⟩, ⟨rfl, rfl, rfl, by decide⟩, ⟨by decide, ⟨_, rfl, by decide, by decide⟩, ⟨by decide, by decide, (fun _ h => nomatch h), by decide, by decide⟩, by decide⟩⟩,
   ⟨_, rfl, ⟨rfl, ⟨_, _, rfl, rfl⟩, rfl, rfl, rfl, rfl, rfl⟩, ⟨rfl, rfl, rfl, by decide⟩, ⟨by decide, ⟨_, rfl, by decide, by decide⟩, ⟨by decide, by decide, (fun _ h => nomatch h), by decide, by decide⟩, by decide, fun h => absurd (h rfl).1 (by decide)⟩⟩,
   ⟨_, rfl, ⟨rfl, ⟨_, _, rfl, rfl⟩, rfl, rfl, rfl, rfl, rfl⟩, ⟨rfl, rfl, rfl, by decide⟩, ⟨by decide, ⟨⟨_, rfl, by decide, by decide⟩, ⟨by decide, by decide, (fun _ h => nomatch h), by decide, by decide⟩, by decide, fun _ => ⟨by decide, by decide⟩⟩, _, rfl⟩⟩⟩

theorem test_mload_traps :
    trapCan matrixTraps 0 (bent i32 [(10, 256)] [] id) (.mload 3 4 false false false none (.s 8)) ∧
    trapCan matrixTraps 1 (bent i32 [(8, 1), (10, 256)] [] id) (.mload 3 3 false false false none (.s 8)) ∧
    trapCan matrixTraps 2 (bent i32 [(9, 1), (10, 256)] [] id) (.mload 3 3 false false false none (.s 8)) ∧
    trapCan matrixTraps 3 (bent i32 [(10, 256)] [] (fun T => { T with tstat := [(3, 1)] })) (.mload 3 3 false false false none (.s 8)) :=
  ⟨⟨_, rfl, ⟨rfl, ⟨_, _, rfl, rfl⟩, rfl, rfl, rfl, rfl, rfl⟩, ⟨rfl, rfl, rfl, by decide⟩, ⟨by decide, ⟨_, rfl, by decide, by decide⟩, fun h => absurd (h.1 4 (.head _)) (by decide)⟩⟩,
   ⟨_, rfl, ⟨rfl, ⟨_, _, rfl, rfl⟩, rfl, rfl, rfl, rfl, rfl⟩, ⟨rfl, rfl, rfl, by decide⟩, ⟨by decide, ⟨_, rfl, by decide, by decide⟩, ⟨by decide, by decide, (fun _ h => nomatch h), by decide, by decide⟩, by decide⟩⟩,
   ⟨_, rfl, ⟨rfl, ⟨_, _, rfl, rfl⟩, rfl, rfl, rfl, rfl, rfl⟩, ⟨rfl, rfl, rfl, by decide⟩, ⟨by decide, ⟨_, rfl, by decide, by decide⟩, ⟨by decide, by decide, (fun _ h => nomatch h), by decide, by decide⟩, by decide, fun h => absurd (h rfl).1 (by decide)⟩⟩,
   ⟨_, rfl, ⟨rfl, ⟨_, _, rfl, rfl⟩, rfl, rfl, rfl, rfl, rfl⟩, ⟨rfl, rfl, rfl, by decide⟩, ⟨by decide, ⟨⟨_, rfl, by decide, by decide⟩, ⟨by decide, by decide, (fun _ h => nomatch h), by decide, by decide⟩, by decide, fun _ => ⟨by decide, by decide⟩⟩, _, rfl⟩⟩⟩

theorem test_cbind_traps :
    trapCan matrixTraps 0 (bent i32 [] [] id) (.cbind 3 (.s 4) (.s 4)) ∧
    trapCan matrixTraps 0 (bent i32 [] [] id) (.cbind 3 (.s 4) (.s 8)) ∧
    trapCan matrixTraps 1 (bent i32 [(8, 0x8000), (10, 128), (11, 0x8001), (13, 0x100), (14, 0x3F800000)] [] id) (.cbind 3 (.s 4) (.s 8)) ∧
    trapCan matrixTraps 2 (bent i32 [(8, 0x8000), (10, 128), (11, 0x40000), (13, 0x100), (14, 0x3F800000)] [] id) (.cbind 3 (.s 4) (.s 8)) ∧
    trapCan matrixTraps 2 (bent i32 [(8, 0x40000), (10, 128), (11, 0x8000), (13, 0x100), (14, 0x3F800000)] [] id) (.cbind 3 (.s 4) (.s 8)) :=
  ⟨⟨_, rfl, ⟨rfl, ⟨_, _, rfl, rfl⟩, rfl, rfl, rfl, rfl, rfl⟩, ⟨rfl, rfl, rfl, by decide⟩, ⟨by decide, rfl, .inl (by rintro ⟨k, h, e, -⟩; cases h; revert e; decide)⟩⟩,
   ⟨_, rfl, ⟨rfl, ⟨_, _, rfl, rfl⟩, rfl, rfl, rfl, rfl, rfl⟩, ⟨rfl, rfl, rfl, by decide⟩, ⟨by decide, rfl, .inr (by decide)⟩⟩,
   ⟨_, rfl, ⟨rfl, ⟨_, _, rfl, rfl⟩, rfl, rfl, rfl, rfl, rfl⟩, ⟨rfl, rfl, rfl, by decide⟩, ⟨⟨rfl, by decide, ⟨_, rfl, by decide, by decide⟩, by decide⟩, by decide⟩⟩,
   ⟨_, rfl, ⟨rfl, ⟨_, _, rfl, rfl⟩, rfl, rfl, rfl, rfl, rfl⟩, ⟨rfl, rfl, rfl, by decide⟩, ⟨⟨rfl, by decide, ⟨_, rfl, by decide, by decide⟩, by decide⟩, by decide, .inr ⟨⟨_, rfl⟩, _, _, rfl⟩⟩⟩,
   ⟨_, rfl, ⟨rfl, ⟨_, _, rfl, rfl⟩, rfl, rfl, rfl, rfl, rfl⟩, ⟨rfl, rfl, rfl, by decide⟩, ⟨⟨rfl, by decide, ⟨_, rfl, by decide, by decide⟩, by decide⟩, by decide, .inl ⟨_, rfl⟩⟩⟩⟩

theorem test_march_traps :
    trapCan marchTraps 0 (bent i32 [] [] id) (.march 3 4 (.v 8) (.s 4)) ∧
    trapCan marchTraps 0 (bent i32 [(4, 16)] [] id) (.march 3 1 (.v 8) (.s 4)) ∧
    trapCan marchTraps 0 (bent i32 [(5, 1)] [] id) (.march 3 1 (.v 8) (.s 4)) ∧
    trapCan marchTraps 0 (bent i32 [] [] id) (.buck 3 4 0 (.s 8)) ∧
    trapCan marchTraps 0 (bent i32 [] [] id) (.buck 3 1 1 (.s 8)) ∧
    trapCan marchTraps 0 (bent i32 [] [] id) (.feval 3 0 1 (.v 4) (.v 8)) ∧
    trapCan marchTraps 0 (bent i32 [(8, 65508)] [] id) (.fbind 3 1 true (.s 4) (.s 8)) ∧
    trapCan marchTraps 1 (bent i32 [(8, 1)] [] id) (.fbind 3 1 false (.s 4) (.s 8)) :=
  ⟨⟨_, rfl, ⟨rfl, ⟨_, _, rfl, rfl⟩, rfl, rfl, rfl, rfl, rfl⟩, ⟨rfl, rfl, rfl, by decide⟩, ⟨by decide, ⟨_, rfl, by decide⟩, rfl, .inl (by unfold hasBar; decide)⟩⟩,
   ⟨_, rfl, ⟨rfl, ⟨_, _, rfl, rfl⟩, rfl, rfl, rfl, rfl, rfl⟩, ⟨rfl, rfl, rfl, by decide⟩, ⟨by decide, ⟨_, rfl, by decide⟩, rfl, by unfold hasBar; decide⟩⟩,
   ⟨_, rfl, ⟨rfl, ⟨_, _, rfl, rfl⟩, rfl, rfl, rfl, rfl, rfl⟩, ⟨rfl, rfl, rfl, by decide⟩, ⟨by decide, ⟨_, rfl, by decide⟩, rfl, by unfold hasBar; decide⟩⟩,
   ⟨_, rfl, ⟨rfl, ⟨_, _, rfl, rfl⟩, rfl, rfl, rfl, rfl, rfl⟩, ⟨rfl, rfl, rfl, by decide⟩, ⟨by decide, ⟨_, rfl, by decide, by decide⟩, .inl (by unfold hasBar; decide)⟩⟩,
   ⟨_, rfl, ⟨rfl, ⟨_, _, rfl, rfl⟩, rfl, rfl, rfl, rfl, rfl⟩, ⟨rfl, rfl, rfl, by decide⟩, ⟨by decide, ⟨_, rfl, by decide, by decide⟩, .inr (.inl rfl)⟩⟩,
   ⟨_, rfl, ⟨rfl, ⟨_, _, rfl, rfl⟩, rfl, rfl, rfl, rfl, rfl⟩, ⟨rfl, rfl, rfl, by decide⟩, ⟨by decide, ⟨_, rfl, by decide⟩, ⟨_, rfl, by decide⟩, rfl⟩⟩,
   ⟨_, rfl, ⟨rfl, ⟨_, _, rfl, rfl⟩, rfl, rfl, rfl, rfl, rfl⟩, ⟨rfl, rfl, rfl, by decide⟩, ⟨by decide, rfl, rfl, rfl, by decide⟩⟩,
   ⟨_, rfl, ⟨rfl, ⟨_, _, rfl, rfl⟩, rfl, rfl, rfl, rfl, rfl⟩, ⟨rfl, rfl, rfl, by decide⟩, ⟨rfl, rfl, by decide, rfl, by decide⟩⟩⟩

theorem test_cqpop_traps :
    trapCan marchTraps 0 (bent i32 [(8, 1)] [] id) (.cqpop 3 (.v 4) (.s 8)) ∧
    trapCan marchTraps 1 (bent i32 [(8, 1024)] [] (fun T => { T with landBad := [1024] })) (.cqpop 3 (.v 4) (.s 8)) ∧
    trapCan marchTraps 2 (bent i32 [] [] id) (.cqpop 3 (.v 4) (.s 8)) :=
  ⟨⟨_, rfl, ⟨rfl, ⟨_, _, rfl, rfl⟩, rfl, rfl, rfl, rfl, rfl⟩, ⟨rfl, rfl, rfl, by decide⟩, ⟨by decide, ⟨⟨_, rfl, by decide⟩, rfl⟩, by decide⟩⟩,
   ⟨_, rfl, ⟨rfl, ⟨_, _, rfl, rfl⟩, rfl, rfl, rfl, rfl, rfl⟩, ⟨rfl, rfl, rfl, by decide⟩, ⟨by decide, ⟨⟨_, rfl, by decide⟩, rfl⟩, by decide, rfl⟩⟩,
   ⟨_, rfl, ⟨rfl, ⟨_, _, rfl, rfl⟩, rfl, rfl, rfl, rfl, rfl⟩, ⟨rfl, rfl, rfl, by decide⟩, ⟨by decide, ⟨⟨_, rfl, by decide⟩, rfl⟩, by decide, rfl, by decide +kernel⟩⟩⟩

theorem test_cqret_traps :
    trapCan marchTraps 0 (bent i32 [(8, 1)] [] id) (.cqret 3 (.v 4) (.s 8)) ∧
    trapCan marchTraps 1 (bent i32 [(8, 1024)] [] (fun T => { T with landBad := [1024] })) (.cqret 3 (.v 4) (.s 8)) ∧
    trapCan marchTraps 2 (bent i32 [] [] id) (.cqret 3 (.v 4) (.s 8)) :=
  ⟨⟨_, rfl, ⟨rfl, ⟨_, _, rfl, rfl⟩, rfl, rfl, rfl, rfl, rfl⟩, ⟨rfl, rfl, rfl, by decide⟩, ⟨by decide, ⟨⟨_, rfl, by decide⟩, rfl⟩, by decide⟩⟩,
   ⟨_, rfl, ⟨rfl, ⟨_, _, rfl, rfl⟩, rfl, rfl, rfl, rfl, rfl⟩, ⟨rfl, rfl, rfl, by decide⟩, ⟨by decide, ⟨⟨_, rfl, by decide⟩, rfl⟩, by decide, rfl⟩⟩,
   ⟨_, rfl, ⟨rfl, ⟨_, _, rfl, rfl⟩, rfl, rfl, rfl, rfl, rfl⟩, ⟨rfl, rfl, rfl, by decide⟩, ⟨by decide, ⟨⟨_, rfl, by decide⟩, rfl⟩, by decide, rfl, by decide +kernel⟩⟩⟩

theorem test_ray_traps :
    trapCan marchTraps 0 (bent i32 [] [(17 * 128, 64)] id) (.boxt 3 (.v 4) (.v 8)) ∧
    trapCan marchTraps 1 (bent i32 [] [(18 * 128, 0x1000000)] id) (.boxt 3 (.v 4) (.v 8)) ∧
    trapCan marchTraps 0 (bent i32 [] [(17 * 128, 2)] id) (.trit 3 true (.v 4) (.v 8)) ∧
    trapCan marchTraps 1 (bent i32 [] [(18 * 128, 0x1000000)] id) (.trit 3 true (.v 4) (.v 8)) ∧
    trapCan marchTraps 0 (bent i32 [] [(9 * 128, 4)] id) (.visw 3 (.v 4) (.v 8)) ∧
    trapCan marchTraps 1 (bent i32 [] [(10 * 128, 0x1000000)] id) (.visw 3 (.v 4) (.v 8)) :=
  ⟨⟨_, rfl, ⟨rfl, ⟨_, _, rfl, rfl⟩, rfl, rfl, rfl, rfl, rfl⟩, ⟨rfl, rfl, rfl, by decide⟩, ⟨⟨⟨⟨_, rfl, by decide⟩, ⟨_, rfl, by decide⟩⟩, by decide, ⟨by decide, by decide⟩, by decide⟩, by decide⟩⟩,
   ⟨_, rfl, ⟨rfl, ⟨_, _, rfl, rfl⟩, rfl, rfl, rfl, rfl, rfl⟩, ⟨rfl, rfl, rfl, by decide⟩, ⟨⟨⟨⟨_, rfl, by decide⟩, ⟨_, rfl, by decide⟩⟩, by decide, ⟨by decide, by decide⟩, by decide⟩, by decide, by decide⟩⟩,
   ⟨_, rfl, ⟨rfl, ⟨_, _, rfl, rfl⟩, rfl, rfl, rfl, rfl, rfl⟩, ⟨rfl, rfl, rfl, by decide⟩, ⟨⟨⟨⟨_, rfl, by decide⟩, ⟨_, rfl, by decide⟩⟩, by decide, ⟨by decide, by decide⟩, by decide⟩, by decide⟩⟩,
   ⟨_, rfl, ⟨rfl, ⟨_, _, rfl, rfl⟩, rfl, rfl, rfl, rfl, rfl⟩, ⟨rfl, rfl, rfl, by decide⟩, ⟨⟨⟨⟨_, rfl, by decide⟩, ⟨_, rfl, by decide⟩⟩, by decide, ⟨by decide, by decide⟩, by decide⟩, by decide, by decide⟩⟩,
   ⟨_, rfl, ⟨rfl, ⟨_, _, rfl, rfl⟩, rfl, rfl, rfl, rfl, rfl⟩, ⟨rfl, rfl, rfl, by decide⟩, ⟨⟨⟨rfl, rfl⟩, by decide, ⟨by decide, by decide⟩, by decide⟩, by decide⟩⟩,
   ⟨_, rfl, ⟨rfl, ⟨_, _, rfl, rfl⟩, rfl, rfl, rfl, rfl, rfl⟩, ⟨rfl, rfl, rfl, by decide⟩, ⟨⟨⟨rfl, rfl⟩, by decide, ⟨by decide, by decide⟩, by decide⟩, by decide, by decide⟩⟩⟩

theorem test_vfetch_traps :
    trapCan marchTraps 0 (bent i32 [(8, 1)] [] id) (.vfetch 3 false (.v 4) (.s 8)) ∧
    trapCan marchTraps 1 (bent i32 [(8, 2048)] [] (fun T => { T with landBad := [2048] })) (.vfetch 3 false (.v 4) (.s 8)) ∧
    trapCan marchTraps 2 (bent i32 [] [] id) (.vfetch 3 false (.v 4) (.s 8)) ∧
    trapCan marchTraps 3 (bent i32 [(8, 2048)] [] (fun T => { T with landing := [(2048, 1), (2056, 1), (2058, 1), (2060, 1)] })) (.vfetch 3 false (.v 4) (.s 8)) :=
  ⟨⟨_, rfl, ⟨rfl, ⟨_, _, rfl, rfl⟩, rfl, rfl, rfl, rfl, rfl⟩, ⟨rfl, rfl, rfl, by decide⟩, ⟨by decide, ⟨⟨_, rfl, by decide⟩, rfl, rfl⟩, by unfold misplaced; decide⟩⟩,
   ⟨_, rfl, ⟨rfl, ⟨_, _, rfl, rfl⟩, rfl, rfl, rfl, rfl, rfl⟩, ⟨rfl, rfl, rfl, by decide⟩, ⟨by decide, ⟨⟨_, rfl, by decide⟩, rfl, rfl⟩, by unfold unreadable misplaced; decide⟩⟩,
   ⟨_, rfl, ⟨rfl, ⟨_, _, rfl, rfl⟩, rfl, rfl, rfl, rfl, rfl⟩, ⟨rfl, rfl, rfl, by decide⟩, ⟨by decide, ⟨⟨_, rfl, by decide⟩, rfl, rfl⟩, by unfold recordOk; decide, by decide +kernel⟩⟩,
   ⟨_, rfl, ⟨rfl, ⟨_, _, rfl, rfl⟩, rfl, rfl, rfl, rfl, rfl⟩, ⟨rfl, rfl, rfl, by decide⟩, ⟨by decide, ⟨⟨_, rfl, by decide⟩, rfl, rfl⟩, by unfold recordOk; decide, by decide +kernel, ⟨by decide, by decide⟩, by decide +kernel⟩⟩⟩

theorem test_merge_traps :
    trapCan marchTraps 0 (bent i32 [] [] id) (.merge 3 (some 4) (.s 8)) ∧
    trapCan marchTraps 0 (bent i32 [(8, 4)] [] id) (.merge 3 none (.s 8)) ∧
    trapCan marchTraps 1 (bent i32 [] [] (fun T => { T with landBad := [0] })) (.merge 3 none (.s 8)) ∧
    trapCan marchTraps 2 (bent i32 [] [] id) (.merge 3 none (.s 8)) ∧
    trapCan marchTraps 0 (bent i32 [(8, 1)] [] id) (.mstat 3 (.s 4) (.s 8)) ∧
    trapCan marchTraps 1 (bent i32 [] [] (fun T => { T with landBad := [64] })) (.mstat 3 (.s 4) (.s 8)) :=
  ⟨⟨_, rfl, ⟨rfl, ⟨_, _, rfl, rfl⟩, rfl, rfl, rfl, rfl, rfl⟩, ⟨rfl, rfl, rfl, by decide⟩, ⟨by decide, rfl, .inl (fun h => absurd (h 4 rfl) (by decide))⟩⟩,
   ⟨_, rfl, ⟨rfl, ⟨_, _, rfl, rfl⟩, rfl, rfl, rfl, rfl, rfl⟩, ⟨rfl, rfl, rfl, by decide⟩, ⟨by decide, rfl, .inr (by unfold misplaced; decide)⟩⟩,
   ⟨_, rfl, ⟨rfl, ⟨_, _, rfl, rfl⟩, rfl, rfl, rfl, rfl, rfl⟩, ⟨rfl, rfl, rfl, by decide⟩, ⟨by decide, ⟨rfl, (fun _ h => nomatch h)⟩, by unfold unreadable misplaced; decide⟩⟩,
   ⟨_, rfl, ⟨rfl, ⟨_, _, rfl, rfl⟩, rfl, rfl, rfl, rfl, rfl⟩, ⟨rfl, rfl, rfl, by decide⟩, ⟨by decide, ⟨rfl, (fun _ h => nomatch h)⟩, by unfold recordOk; decide, by decide +kernel⟩⟩,
   ⟨_, rfl, ⟨rfl, ⟨_, _, rfl, rfl⟩, rfl, rfl, rfl, rfl, rfl⟩, ⟨rfl, rfl, rfl, by decide⟩, ⟨by decide, ⟨rfl, rfl⟩, by unfold misplaced; decide⟩⟩,
   ⟨_, rfl, ⟨rfl, ⟨_, _, rfl, rfl⟩, rfl, rfl, rfl, rfl, rfl⟩, ⟨rfl, rfl, rfl, by decide⟩, ⟨by decide, ⟨rfl, rfl⟩, by unfold misplaced; decide, rfl, (fun _ h => nomatch h), by decide⟩⟩⟩

/-! ### Splits that stall or divide in part, lanes switched off, words with no active lane -/

/-- Three lanes that go on at three addresses, of a group with n other paths. -/
def forks (gm : GM) (n ld : Nat) : State :=
  { withTeam (fun T => { T with groups := [(0, { group0 gm with
      present := 7, rows := [(5 * 128 + 1, 4), (5 * 128 + 2, 8)],
      paths := (0, { path0 gm with mask := 7, origin := 7, ld := ld }) ::
        (List.range n).map fun k => (k + 1, { path0 gm with mask := 0, origin := 0 }) })] }) with
    mem := (0xFA10, 4) :: (0xFA20, 8) :: pages }

/-- The hypotheses of the k-th form of a table of effects at a state. -/
def effAt (forms : Instr → List EffForm) (k : Nat) (s : State) (i : Instr) : Prop :=
  ∃ F, (forms i)[k]? = some F ∧ Issues i s 0 0 0 F.all ∧ Operands s 0 0 0 (F.uses (pathOf s 0 0 0).gm) ∧
    F.pre (view i s 0 0 0 (F.uses (pathOf s 0 0 0).gm))

theorem test_splits_stall :
    effAt branches 3 (forks i32 7 0) (.bra 2 (-3)) ∧ effAt branches 4 (forks i32 7 0) (.brx (.v 4)) ∧
    effAt calls 3 (forks { i32 with gpred := 2 } 7 0) (.call 2 5) ∧ effAt calls 4 (forks i32 7 0) (.callx 2 (.v 4)) ∧
    effAt calls 5 (forks i32 7 1) .ret ∧ effAt barrierWords 3 (forks { i32 with gpred := 2 } 7 0) (.yield 1 5) :=
  ⟨⟨_, rfl, ⟨rfl, ⟨_, _, rfl, rfl⟩, rfl, rfl, rfl, rfl, rfl⟩, ⟨rfl, rfl, rfl, by decide⟩, ⟨by decide, by decide, rfl, by decide +kernel⟩⟩,
   ⟨_, rfl, ⟨rfl, ⟨_, _, rfl, rfl⟩, rfl, rfl, rfl, rfl, rfl⟩, ⟨rfl, rfl, rfl, by decide⟩,
    ⟨⟨rfl, by decide⟩, by decide, rfl, by decide +kernel⟩⟩,
   ⟨_, rfl, ⟨rfl, ⟨_, _, rfl, rfl⟩, rfl, rfl, rfl, rfl, rfl⟩, ⟨rfl, rfl, rfl, by decide⟩,
    ⟨by decide, by decide, ⟨by decide, by decide, by decide, rfl, rfl⟩, by decide +kernel⟩⟩,
   ⟨_, rfl, ⟨rfl, ⟨_, _, rfl, rfl⟩, rfl, rfl, rfl, rfl, rfl⟩, ⟨rfl, rfl, rfl, by decide⟩,
    ⟨⟨rfl, by decide, by decide, ⟨by decide, by decide, by decide, rfl, rfl⟩⟩, by decide, rfl, by decide +kernel⟩⟩,
   ⟨_, rfl, ⟨rfl, ⟨_, _, rfl, rfl⟩, rfl, rfl, rfl, rfl, rfl⟩, ⟨rfl, rfl, rfl, by decide⟩,
    ⟨⟨by decide, by decide, rfl, rfl, by decide +kernel⟩, by decide +kernel, rfl, by decide +kernel⟩⟩,
   ⟨_, rfl, ⟨rfl, ⟨_, _, rfl, rfl⟩, rfl, rfl, rfl, rfl, rfl⟩, ⟨rfl, rfl, rfl, by decide⟩,
    ⟨by decide, by unfold hasBar; decide, by decide, by decide +kernel⟩⟩⟩

theorem test_splits_divide_in_part :
    effAt branches 3 (forks i32 6 0) (.brx (.v 4)) ∧ effAt calls 3 (forks i32 6 0) (.callx 2 (.v 4)) ∧
    effAt calls 4 (forks i32 6 1) .ret :=
  ⟨⟨_, rfl, ⟨rfl, ⟨_, _, rfl, rfl⟩, rfl, rfl, rfl, rfl, rfl⟩, ⟨rfl, rfl, rfl, by decide⟩,
    ⟨⟨rfl, by decide⟩, rfl, by decide +kernel, by decide +kernel⟩⟩,
   ⟨_, rfl, ⟨rfl, ⟨_, _, rfl, rfl⟩, rfl, rfl, rfl, rfl, rfl⟩, ⟨rfl, rfl, rfl, by decide⟩,
    ⟨⟨rfl, by decide, by decide, ⟨by decide, by decide, by decide, rfl, rfl⟩⟩, rfl, by decide +kernel, by decide +kernel⟩⟩,
   ⟨_, rfl, ⟨rfl, ⟨_, _, rfl, rfl⟩, rfl, rfl, rfl, rfl, rfl⟩, ⟨rfl, rfl, rfl, by decide⟩,
    ⟨⟨by decide, by decide, rfl, rfl, by decide +kernel⟩, rfl, by decide +kernel, by decide +kernel⟩⟩⟩

theorem test_landing_switches_off :
    effAt loadsStores 1 (bent i32 [(6, 1)] [] id) (.ldl 3 1 (.v 4) (.s 6)) ∧
    let c := view (.ldl 3 1 (.v 4) (.s 6)) (bent i32 [(6, 1)] [] id) 0 0 0 []
    lanesOff c .landing 4 (laneAddr c .landing 1 (.s 6)) = 1 :=
  ⟨⟨_, rfl, ⟨rfl, ⟨_, _, rfl, rfl⟩, rfl, rfl, rfl, rfl, rfl⟩, ⟨rfl, rfl, rfl, by decide⟩,
    ⟨by decide, by decide, ⟨by decide, by decide⟩, by unfold laneFits; decide⟩⟩, by decide⟩

theorem test_look_idle : ∃ look F, row7 (.frcp 3 (.v 4) (.v 6)) = some (look, F) ∧
    Issues (.frcp 3 (.v 4) (.v 6)) (box { f32 with gpred := 1 }) 0 0 0 false ∧
    Operands (box { f32 with gpred := 1 }) 0 0 0 (F.uses { f32 with gpred := 1 }) ∧ F.types .f32 = true ∧
    activeOf (group0 { f32 with gpred := 1 }) (path0 { f32 with gpred := 1 }) = 0 :=
  ⟨_, _, rfl, box_issues .., ⟨rfl, rfl, rfl, by decide⟩, rfl, by decide⟩

/-! ### Operands and types that trap -/

/-- An entry's rule on operands or types that a word breaks at a mode. -/
def ruleCan (ok : Bool) (gm : GM) (i : Instr) : Prop :=
  ∃ F, wordRules i = some F ∧ Issues i (box gm) 0 0 0 F.all ∧ usesBad (F.uses (group0 gm) (path0 gm)) = false ∧
    F.ok (group0 gm) (path0 gm) = ok ∧ (ok = true → F.types gm = false)

theorem test_rule_operands :
    ruleCan false i32 (.sel (.s 4) (.v 6) (.v 8)) ∧ ruleCan false i32 (.vote 1 (.s 43) (.s 4)) ∧
    ruleCan false i32 (.ldk 3 0 (.v 4) (.v 6)) ∧ ruleCan false i32 (.aadd 3 true true .global (.s 4) (.v 6)) ∧
    ruleCan false i32 (.waitaddr true .eq (.v 4) (.s 6)) ∧ ruleCan false i32 (.copy 3 1 false (.v 8)) ∧
    ruleCan false i32 (.mpass 3 none (.v 8)) ∧ ruleCan false i32 (.march 3 1 (.v 9) (.s 4)) ∧
    ruleCan false i32 (.trace (.s 4) (.v 5) (.s 6)) ∧ ruleCan false i32 (.brx .zero) :=
  ⟨⟨_, rfl, box_issues .., rfl, rfl, nofun⟩, ⟨_, rfl, box_issues .., rfl, rfl, nofun⟩, ⟨_, rfl, box_issues .., rfl, rfl, nofun⟩,
   ⟨_, rfl, box_issues .., rfl, rfl, nofun⟩, ⟨_, rfl, box_issues .., rfl, rfl, nofun⟩, ⟨_, rfl, box_issues .., rfl, rfl, nofun⟩,
   ⟨_, rfl, box_issues .., rfl, rfl, nofun⟩, ⟨_, rfl, box_issues .., rfl, rfl, nofun⟩, ⟨_, rfl, box_issues .., rfl, rfl, nofun⟩,
   ⟨_, rfl, box_issues .., rfl, rfl, nofun⟩⟩

theorem test_rule_types :
    ruleCan true i32 (.fcmp .lt 1 (.v 4) (.v 6)) ∧ ruleCan true { type := .e2m1 } (.ldg 3 false .normal (.v 4) (.v 6)) ∧
    ruleCan true f32 (.ainc 3 true true .global (.v 4) (.v 6)) ∧ ruleCan true { i32 with ftb := true } (.tblload 3 1 (.s 6)) ∧
    ruleCan true f16 (.tbl (.v 4) (.v 8) (.s 8)) :=
  ⟨⟨_, rfl, box_issues .., rfl, rfl, fun _ => rfl⟩, ⟨_, rfl, box_issues .., rfl, rfl, fun _ => rfl⟩,
   ⟨_, rfl, box_issues .., rfl, rfl, fun _ => rfl⟩, ⟨_, rfl, box_issues .., rfl, rfl, fun _ => rfl⟩,
   ⟨_, rfl, box_issues .., rfl, rfl, fun _ => rfl⟩⟩

theorem test_look_trap : ∃ look F, row7 (.frcp 3 .zero (.v 4)) = some (look, F) ∧
    Issues (.frcp 3 .zero (.v 4)) (box f32) 0 0 0 false ∧ (isVector F.d || isScalar F.d) = false :=
  ⟨_, _, rfl, box_issues .., rfl⟩

theorem test_look_trap_type : ∃ look F, row7 (.fsin 3 (.v 4) (.v 6)) = some (look, F) ∧
    Issues (.fsin 3 (.v 4) (.v 6)) (box i32) 0 0 0 false ∧ usesBad (F.uses i32) = false ∧ F.types .i32 = false :=
  ⟨_, _, rfl, box_issues .., rfl, rfl⟩

/-- A vector beyond the frame, and a source with uncorrectable data that a word with an active lane reads. -/
theorem test_last_checks : ∃ chk body,
    (∀ s, exec (.iadd (.v 4) (.v 40) (.v 6)) s = issueWord (.iadd (.v 4) (.v 40) (.v 6)) chk body s) ∧
    (let k := chk (team0 i32) (group0 i32) (path0 i32)
     k.modeBad = false ∧ windowStall (group0 i32) 0 k.waits = false ∧ namesDrain k.uses = false ∧ frameBad (path0 i32) k.uses = true) :=
  ⟨_, _, fun _ => rfl, rfl, rfl, rfl, rfl⟩

theorem test_bad_source : ∃ chk body,
    (∀ s, exec (.iadd (.v 4) (.v 8) (.v 6)) s = issueWord (.iadd (.v 4) (.v 8) (.v 6)) chk body s) ∧
    (let s := withGroup fun G => { G with rowBad := [8] }
     let k := chk (teamOf s 0) (groupOf s 0 0) (pathOf s 0 0 0)
     badSource (view (.iadd (.v 4) (.v 8) (.v 6)) s 0 0 0 k.uses) k.uses = true) :=
  ⟨_, _, fun _ => rfl, by decide⟩

/-! ### Accesses that trap, paths, and what waits in a frozen module -/

theorem test_access_fails :
    let s := posting { id := 5, memq := true, work := .load .global .i32 false [{ lane := 0, addr := 0x40000 }] false }
    ∃ A, accessesOf (teamOf s 0) (groupOf s 0 0) (.load .global .i32 false [{ lane := 0, addr := 0x40000 }] false) = some A ∧
      memReady (groupOf s 0 0) 5 = true ∧ A.sp ≠ .landing ∧
      (A.parts.find? fun y => (walkFault s (teamOf s 0) A y).isSome) = some (0, 0x40000) ∧
      walkFault s (teamOf s 0) A (0, 0x40000) = some .translation :=
  ⟨_, rfl, rfl, by decide, by decide +kernel, by decide +kernel⟩

theorem test_access_uncorrected :
    let s := { posting { id := 5, memq := true, work := .load .global .i32 false [{ lane := 0, addr := 0x8000 }] false } with bad := [0x8000] }
    ∃ A, accessesOf (teamOf s 0) (groupOf s 0 0) (.load .global .i32 false [{ lane := 0, addr := 0x8000 }] false) = some A ∧
      A.need = .rd ∧ dataFault s (teamOf s 0) { id := 5 } A (0, 0x8000) = true := ⟨_, rfl, rfl, by decide +kernel⟩

theorem test_paths_ok : PathsOk (box i32) := fun t g => by
  have h : ((groupOf (box i32) t g).paths = [(0, path0 i32)]) ∨ (groupOf (box i32) t g).paths = [] := by
    by_cases ht : t = 0
    · subst ht
      by_cases hg : g = 0
      · subst hg; exact .inl rfl
      · exact .inr (by simp [groupOf, teamOf, box, tget, tfind, team0, Ne.symm hg])
    · exact .inr (by simp [groupOf, teamOf, box, tget, tfind, Ne.symm ht])
  have hp : ∀ p, p ≠ 0 → (pathOf (box i32) t g p).valid = false := fun p h0 => by
    rcases h with h | h <;> simp [pathOf, h, tget, tfind, Ne.symm h0]
  refine ⟨by rcases h with h | h <;> simp [h], fun p hv => ?_, fun p q hne hv hq => ?_⟩
  · by_cases h0 : p = 0
    · subst h0; rcases h with h | h <;> simp [pathOf, h, tget, tfind, path0]
    · exact absurd (hp p h0) (by simp [hv])
  · by_cases h0 : p = 0
    · exact absurd (hp q (fun hq0 => hne (h0.trans hq0.symm))) (by simp [hq])
    · exact absurd (hp p h0) (by simp [hv])

theorem test_waits_frozen : let s : State := { frozen with agenda := [.event (.sreq 0), .event (.freezeStatus 0), .tick] }
    (∀ x ∈ [Item.event (.sreq 0)], stays s x) ∧ s.agenda = [.event (.sreq 0)] ++ .event (.freezeStatus 0) :: [.tick] ∧
    mgmtEvent (.freezeStatus 0) = true := by
  refine ⟨fun x h => ?_, rfl, rfl⟩
  cases List.mem_singleton.mp h
  exact ⟨rfl, nofun, fun i h => by cases h; rfl⟩

/-! ### Hypotheses of the other statements -/

theorem test_trap_issues : Issues (.trap 65535) (box i32) 0 0 0 true ∧ Operands (box i32) 0 0 0 [] ∧
    activeOf (groupOf (box i32) 0 0) (pathOf (box i32) 0 0 0) ≠ 0 ∧
    activeOf (groupOf (box off) 0 0) (pathOf (box off) 0 0 0) = 0 :=
  ⟨box_issues .., ⟨rfl, rfl, rfl, by decide⟩, by decide, rfl⟩

theorem test_bkpt_issues : Issues (.bkpt 65535) (box i32) 0 0 0 true := box_issues ..

theorem test_trap_words : decode 0x0E00FFFF = .ok (.trap 65535) ∧ (∃ e, decode 0x0E010000 = .error e) ∧
    decode 0x0F000007 = .ok (.bkpt 7) ∧ ∃ e, decode 0x0FFFFFFF = .error e :=
  ⟨rfl, ⟨_, rfl⟩, rfl, _, rfl⟩

/-- FirstFailingCheckDecides: RFT on a core fails the first check. -/
theorem test_first_check : ∃ chk body, (∀ s, exec (.rft false (.s 3) (.s 5)) s = issueWord (.rft false (.s 3) (.s 5)) chk body s) ∧
    Listed (box i32) 0 0 ∧ bankStall (box i32) (team0 i32) 0 0 0 i32 = false ∧
    (chk (team0 i32) (group0 i32) (path0 i32)).illegal = true :=
  ⟨_, _, fun _ => rfl, ⟨_, _, rfl, rfl⟩, rfl, rfl⟩

/-- IADD of two drain operands fails the second check, and of F32 elements the third. -/
theorem test_second_and_third_check : ∃ chk body,
    (∀ s, exec (.iadd (.v 4) .drain .drain) s = issueWord (.iadd (.v 4) .drain .drain) chk body s) ∧
    usesBad (chk (team0 i32) (group0 i32) (path0 i32)).uses = true :=
  ⟨_, _, fun _ => rfl, rfl⟩

theorem test_third_check : ∃ chk body,
    (∀ s, exec (.iadd (.v 4) (.v 5) (.v 6)) s = issueWord (.iadd (.v 4) (.v 5) (.v 6)) chk body s) ∧
    usesBad (chk (team0 f32) (group0 f32) (path0 f32)).uses = false ∧
    (chk (team0 f32) (group0 f32) (path0 f32)).opBad = false ∧ (chk (team0 f32) (group0 f32) (path0 f32)).modeBad = true :=
  ⟨_, _, fun _ => rfl, rfl, rfl, rfl⟩

theorem test_lane_trap_operand : ∃ F, row1 (.iadd (.v 4) .drain .drain) = some F ∧
    Issues (.iadd (.v 4) .drain .drain) (box i32) 0 0 0 false ∧ usesBad (F.uses i32) = true :=
  ⟨_, rfl, box_issues .., rfl⟩

theorem test_lane_trap_type : ∃ F, row1 (.iadd (.v 4) (.v 5) (.v 6)) = some F ∧
    Issues (.iadd (.v 4) (.v 5) (.v 6)) (box f32) 0 0 0 false ∧ usesBad (F.uses f32) = false ∧ isScalar F.d = false ∧
    F.types f32.type = false :=
  ⟨_, rfl, box_issues .., rfl, rfl, rfl⟩

theorem test_rft_on_a_core : (box i32).cur = some (0, 0, 0) ∧ Listed (box i32) 0 0 ∧ (pathOf (box i32) 0 0 0).valid = true ∧
    newBase (groupOf (box i32) 0 0) (pathOf (box i32) 0 0 0) = (groupOf (box i32) 0 0).rb ∧
    bankStall (box i32) (team0 i32) 0 0 0 i32 = false ∧ (teamOf (box i32) 0).ctl = false :=
  ⟨rfl, ⟨_, _, rfl, rfl⟩, rfl, rfl, rfl, rfl⟩

/-- The small machine with a policy for software traps. -/
def boxPol (n : Nat) : State := { box i32 with ctxs := [(0, { root := 0x100000, trappol := n * 2 ^ 22 })] }

theorem test_policies : policyOf (ctxOf (boxPol 0) 0) .software = 0 ∧ policyOf (ctxOf (boxPol 1) 0) .software = 1 ∧
    policyOf (ctxOf (boxPol 2) 0) .software = 2 ∧ policyOf (ctxOf (boxPol 3) 0) .software = 3 ∧
    Listed (boxPol 1) 0 0 ∧ (teamOf (boxPol 1) 0).ctl = false ∧ ¬toDriver (ctxOf (boxPol 1) 0) .software ∧
    (groupOf (boxPol 1) 0 0).tregs.tact = false ∧ (pathOf (boxPol 2) 0 0 0).valid = true :=
  ⟨rfl, rfl, rfl, rfl, ⟨_, _, rfl, rfl⟩, rfl, (fun h => nomatch h.1), rfl, rfl⟩

theorem test_control_core : let s := withTeam fun T => { T with ctl := true }
    (teamOf s 0).ctl = true ∧ tfind s.teams 0 ≠ none := ⟨rfl, fun h => nomatch h⟩

/-- A log of 64 units with `n` units used. -/
def boxLog (n : Nat) : State :=
  { box i32 with ctxs := [(0, { root := 0x100000, flogBase := 0x8000, flHead := n })] }

/-- A log at a page that a migration holds (MIG, 08 R197). -/
def boxLogMig : State := { boxLog 0 with mem := pages.map fun x => if x.1 = 0x118009 then (x.1, 0x81) else x }

def logTr (s : State) (k : Nat) : Tr := Machine.translate s 0 (asks s Machine.ioDie) (logVa (ctxOf s 0) k) .wr none

theorem test_fault_log : tfind (boxLog 0).ctxs 0 ≠ none ∧ fits (ctxOf (boxLog 63) 0) 0 ∧ ¬fits (ctxOf (boxLog 63) 0) 1 ∧
    (logTr (boxLog 0) 1 = .key 0x8040 ∧ meetsBad (boxLog 0) 0x8040 64 false = false) ∧
    (logTr { boxLog 0 with bad := [0x8040] } 1 = .key 0x8040 ∧ meetsBad { boxLog 0 with bad := [0x8040] } 0x8040 64 false = true) ∧
    logTr { boxLog 0 with mem := [] } 0 = .fail .translation ∧ logTr boxLogMig 0 = .hold :=
  ⟨(fun h => nomatch h), by unfold fits; decide, by unfold fits; decide, ⟨by decide +kernel, by decide +kernel⟩,
   ⟨by decide +kernel, by decide +kernel⟩, by decide +kernel, by decide +kernel⟩

theorem test_integer_types : tyInt .i8 = true ∧ tyInt .n64 = true := ⟨rfl, rfl⟩
theorem test_narrow_types : tyWidth .i8 < 32 ∧ 0x80 < 2 ^ tyWidth .i8 ∧ 0x7F < 2 ^ (tyWidth .i8 - 1) ∧ tyWidth .e2m1 < 32 :=
  by decide
theorem test_arrivals_settle : arriveBar 300 0 { ecnt := 1 } = { ecnt := 1, ph := 300 } := by decide +kernel
theorem test_phase_tokens : (65535 : Nat) < 2 ^ 16 ∧ phaseDone { ph := 0 } 65535 = true ∧ phaseDone { ph := 32768 } 0 = false :=
  ⟨by decide, rfl, rfl⟩

/-- Two paths parked at one JOIN. -/
def joined : State := withTeam fun T => { T with groups := [(0, { group0 i32 with paths :=
  [(0, { path0 i32 with state := 1 }), (1, { path0 i32 with state := 1, mask := 2, origin := 2 })] })] }

theorem test_parked : Listed joined 0 0 ∧ ((groupOf joined 0 0).paths.map (·.1)).Pairwise (· < ·) ∧
    ∃ Q R, parkedAt (groupOf joined 0 0) 0x8000 = [(0, Q), (1, R)] :=
  ⟨⟨_, _, rfl, rfl⟩, by decide, _, _, rfl⟩

/-- Two posted passes, one of AGE 255. -/
def posted : State := withTeam fun T => { T with mops :=
  [{ id := 1, kind := .pass {}, entry := some 0 }, { id := 2, g := 1, kind := .pass {}, entry := some 128, age := 255 }] }

/-- A posted pass and one of a marcher, before and after a grant to a marcher. -/
def postedNet (gs : List Bool) : State := { withTeam fun T => { T with
    mops := [{ id := 1, kind := .pass {}, entry := some 0 }],
    marches := [{ id := 3, kind := .batch 0 0 false, nets := [{ id := 4, entry := some 152, tick := 9 }] }] } with
  clusters := [(0, { grants := gs })] }

theorem test_arbiter : (arbiter posted 0).isSome = true ∧ arbiter (box i32) 0 = none ∧
    ((arbiter (postedNet [false, false, false]) 0).map fun x => x.2.2.isNet) = some true ∧
    ((arbiter (postedNet [false, true, false]) 0).map fun x => x.2.2.isNet) = some false := by decide

theorem test_walk : walksTo (box i32) 0 0 0x8000 0x801F ∧ mapsPage 0x801F 0x8000 :=
  ⟨⟨0x108001, 0x110001, 0x118001, 0x108000, 0x110000, 0x118000, rfl, rfl, by unfold entryAt; decide +kernel, by unfold pointsOn; decide,
     by unfold entryAt; decide +kernel, by unfold pointsOn; decide, by unfold entryAt; decide +kernel, by unfold pointsOn; decide,
     by unfold entryAt; decide +kernel, by decide +kernel⟩, by unfold mapsPage; decide⟩

theorem test_walk_invalid : walksTo (box i32) 0 0 0x20000 0 :=
  ⟨0x108001, 0x110001, 0x118001, 0x108000, 0x110000, 0x118000, rfl, rfl, by unfold entryAt; decide +kernel, by unfold pointsOn; decide,
   by unfold entryAt; decide +kernel, by unfold pointsOn; decide, by unfold entryAt; decide +kernel, by unfold pointsOn; decide,
   by unfold entryAt; decide +kernel, by decide +kernel⟩

theorem test_memory_canonical : Memory.wf pages = true := by decide
theorem test_group_listed : Listed (box i32) 0 0 := ⟨_, _, rfl, rfl⟩
theorem test_answers : encode (.sreq 0) = none ∧ issuing (box i32) ≠ none := ⟨rfl, fun h => nomatch h⟩

/-- The machine of `withFetchWord` with a word. -/
def fetched (w : Nat) : State := State.reset.withFetchWord 32 w

theorem test_step_issues : ∃ rest, (fetched 0x01000000).agenda = .issue 0 0 0 :: rest ∧ (fetched 0x01000000).freeze.frozen = false ∧
    canIssue (taken (fetched 0x01000000) rest) 0 0 0 = true ∧
    teamFrozen (taken (fetched 0x01000000) rest) (teamOf (fetched 0x01000000) 0) = false ∧
    (fetchWord (taken (fetched 0x01000000) rest) 0 0 0).toOption = some 0x01000000 ∧
    (fetchWord (taken (fetched 0) rest) 0 0 0).toOption = some 0 :=
  ⟨[], rfl, rfl, by decide +kernel, rfl, by decide +kernel, by decide +kernel⟩

/-- A core that froze in this tick: another slot of it still issues. -/
theorem test_step_issues_beside_a_trap : let s : State := { fetched 0x01000000 with cores := [(0, { frozen := true })] }
    canIssue s 0 0 0 = true ∧ teamFrozen s (teamOf s 0) = true := ⟨by decide +kernel, rfl⟩

/-- A path whose PC lies in no mapped page. -/
theorem test_step_no_fetch : let s : State := { fetched 0 with ctxs := [] }
    canIssue s 0 0 0 = true ∧ fetchWord s 0 0 0 = .error .translation := ⟨by decide +kernel, rfl⟩

theorem test_agenda : ({ State.reset with agenda := [.event .moduleFreeze] } : State).agenda = [.event .moduleFreeze] ∧
    mgmtEvent (.freezeStatus 0) = true ∧ mgmtEvent (.sreq 0) = false := ⟨rfl, rfl, rfl⟩

theorem test_round_trip : (Instr.iadd (.v 191) (.s 47) .drain).wf = true ∧
    encode (.iadd (.v 191) (.s 47) .drain) = some 0x10BFEFF2 := ⟨rfl, rfl⟩

theorem test_step_next : MemOk State.reset ∧ ∃ u, step State.reset = .next u := ⟨rfl, _, rfl⟩

/-! ### Words written out from the spec's encodings -/

theorem test_decode_control : decode 0x032FFFFD = .ok (.bra 2 (-3)) ∧ decode 0x0C0DCAC4 = .ok (.waitaddr true .ge (.s 10) (.s 4)) ∧
    decode 0x029BD840 = .ok (.setmode { ginv := true, gpred := 3, type := .f32, round := .rdn, scope := .team }) :=
  ⟨rfl, rfl, rfl⟩
theorem test_decode_lane : decode 0x10040506 = .ok (.iadd (.v 4) (.v 5) (.v 6)) ∧ decode 0x20040500 = .ok (.popc (.v 4) (.v 5)) ∧
    decode 0x300704C2 = .ok (.fadd (.v 7) (.v 4) (.s 2)) ∧ decode 0x4004050F = .ok (.cvt .f32 (.v 4) (.v 5)) :=
  ⟨rfl, rfl, rfl, rfl⟩
theorem test_decode_predicates : decode 0x520321C0 = .ok (.plog 3 1 2 0 0xC0) ∧ decode 0x59200C10 = .ok (.gshfl 2 false (.v 12) (.v 16)) ∧
    decode 0x5A060500 = .ok (.gscan .add (.v 6) (.v 5)) := ⟨rfl, rfl, rfl⟩
theorem test_decode_immediate : decode 0x60C31234 = .ok (.lit (.s 3) 0x1234) ∧ decode 0x6A0204FF = .ok (.icmpi .eq 2 (.v 4) 0xFF) :=
  ⟨rfl, rfl⟩
theorem test_decode_special : decode 0x79000405 = .ok (.idiv 0 (.v 4) (.v 5)) ∧ decode 0x7A000405 = .ok (.irem 0 (.v 4) (.v 5)) :=
  ⟨rfl, rfl⟩
theorem test_decode_memory : decode 0x8403C8C2 = .ok (.ldk 0 3 (.s 8) (.s 2)) ∧
    decode 0x90310802 = .ok (.ldg 3 false .stream (.v 8) (.v 2)) := ⟨rfl, rfl⟩
theorem test_decode_atomics : decode 0xB02C0802 = .ok (.aadd 2 true true .global (.v 8) (.v 2)) ∧
    decode 0xB801040A = .ok (.acas 0 false false .landing (.v 4) (.v 10)) := ⟨rfl, rfl⟩
theorem test_decode_order : decode 0xC0030000 = .ok (.fence 0 .full) ∧ decode 0xC1F00313 = .ok (.qfence 15 3 (some 3)) ∧
    decode 0xCB00D4C6 = .ok (.qput 0 (.s 20) (.s 6)) := ⟨rfl, rfl, rfl⟩
theorem test_decode_matrix : decode 0xD0F201C6 = .ok (.mpass 15 (some 2) (.s 6)) ∧ decode 0xD5030000 = .ok (.mwait (some 3)) ∧
    decode 0xD5000100 = .ok (.mwait none) := ⟨rfl, rfl, rfl⟩
theorem test_decode_march : decode 0xE0F108CC = .ok (.march 15 1 (.v 8) (.s 12)) ∧ decode 0xE1F201D8 = .ok (.buck 15 2 1 (.s 24)) ∧
    decode 0xEB00D4D0 = .ok (.fbind 0 0 false (.s 20) (.s 16)) ∧ decode 0xE7001402 = .ok (.visw 0 (.v 20) (.v 2)) :=
  ⟨rfl, rfl, rfl, rfl⟩
theorem test_decode_system : decode 0xF00001C6 = .ok (.tblload 0 1 (.s 6)) ∧ decode 0xF3CA0000 = .ok (.tick (.s 10)) ∧
    decode 0xF401C3C5 = .ok (.rft true (.s 3) (.s 5)) ∧ decode 0xF5000001 = .ok (.premask true) ∧
    decode 0xF6C1C2C3 = .ok (.trace (.s 1) (.s 2) (.s 3)) := ⟨rfl, rfl, rfl, rfl, rfl⟩

/-! ### Ill-formed terms -/

theorem test_wf_operands : (Instr.iadd (.v 192) .zero .zero).wf = false ∧ (Instr.iadd .zero (.s 48) .zero).wf = false := by decide
theorem test_wf_control : (Instr.setmode { gpred := 16 }).wf = false ∧ (Instr.bra 16 0).wf = false ∧
    (Instr.bra 0 524288).wf = false ∧ (Instr.yield 0 (-524289)).wf = false ∧ (Instr.call 13 0).wf = false ∧
    (Instr.callx 13 .zero).wf = false ∧ (Instr.sleep 16777216).wf = false ∧ (Instr.trap 65536).wf = false ∧
    (Instr.bkpt 65536).wf = false ∧ (Instr.waitaddr false .tst .zero .zero).wf = false ∧ (Instr.frame 256).wf = false := by decide
theorem test_wf_predicates : (Instr.fcmp .eq 16 .zero .zero).wf = false ∧ (Instr.icmp .ueq 0 .zero .zero).wf = false ∧
    (Instr.icmp .eq 16 .zero .zero).wf = false ∧ (Instr.icmpi .eq 0 .zero 256).wf = false ∧ (Instr.plog 16 0 0 0 0).wf = false ∧
    (Instr.plog 0 0 0 0 256).wf = false ∧ (Instr.vote 16 .zero .zero).wf = false ∧ (Instr.btest 0 16 false .zero).wf = false := by
  decide
theorem test_wf_immediates : (Instr.lit .zero 65536).wf = false ∧ (Instr.shli .zero 128).wf = false ∧
    (Instr.sread .zero 256).wf = false ∧ (Instr.swrite 256 .zero).wf = false := by decide
theorem test_wf_look : (Instr.frcp 15 .zero .zero).wf = false ∧ (Instr.ldg 16 false .normal .zero .zero).wf = false ∧
    (Instr.fence 15 .full).wf = false ∧ (Instr.qfence 15 1 none).wf = false ∧ (Instr.gshfl 15 false .zero .zero).wf = false := by decide
theorem test_wf_memory : (Instr.ldl 0 16 .zero .zero).wf = false ∧ (Instr.stg 0 false .replicate .zero .zero).wf = false ∧
    (Instr.pfg 0 3 .zero).wf = false ∧ (Instr.afadd 0 false false .host .zero .zero).wf = false := by decide
theorem test_wf_barriers : (Instr.qfence 0 0 none).wf = false ∧ (Instr.qfence 0 32 none).wf = false ∧
    (Instr.qfence 0 1 (some 16)).wf = false ∧ (Instr.binit 0 16 .zero).wf = false ∧ (Instr.bwait 16 false .zero).wf = false ∧
    (Instr.copy 0 16 false .zero).wf = false := by decide
theorem test_wf_engines : (Instr.mpass 0 (some 16) .zero).wf = false ∧ (Instr.mzero 0 16).wf = false ∧
    (Instr.mwait (some 16)).wf = false ∧ (Instr.march 0 16 .zero .zero).wf = false ∧ (Instr.buck 0 0 4 .zero).wf = false ∧
    (Instr.feval 0 4 0 .zero .zero).wf = false ∧ (Instr.fbind 0 4 false .zero .zero).wf = false ∧
    (Instr.tblload 0 2 .zero).wf = false := by decide

end Sys2Proof.Tests
end

section
/-! PROOFS. The encoder undone by the decoder (02 R20 to R23, R45): the code of every field, the fields of every word that
the encoder writes, and the decoder on each format. -/

namespace Sys2Proof

/-! ### The codes of fields (02 R23, R31, R32, 04 R110) -/

theorem Operand.code_lt {x : Operand} (h : x.wf = true) : x.code < 256 := by
  cases x <;> simp [Operand.wf, Operand.code] at * <;> omega

theorem operandOf_eq_ok {c : Nat} {x : Operand} : operandOf c = .ok x ↔ x.wf = true ∧ x.code = c := by
  constructor
  · unfold operandOf
    intro h
    repeat' split at h
    all_goals cases h
    all_goals simp [Operand.wf, Operand.code]; try omega
  · rintro ⟨hx, rfl⟩
    cases x with
    | v n => simp only [Operand.wf, decide_eq_true_eq] at hx; simp [operandOf, Operand.code, hx]
    | s n =>
      simp only [Operand.wf, decide_eq_true_eq] at hx
      rw [Operand.code, operandOf, if_neg (by omega), if_pos (by omega), Nat.add_sub_cancel_left]
    | zero => rfl
    | lane => rfl
    | drain => rfl

/-- A table in the order of its codes is read by code. -/
theorem getElem?_eq_some_iff_code {α : Type} {l : List α} {code : α → Nat} (all : ∀ x, l[code x]? = some x)
    (order : l.map code = List.range l.length) {c : Nat} {x : α} : l[c]? = some x ↔ code x = c := by
  constructor
  · intro h
    have hc : (l.map code)[c]? = some (code x) := by rw [List.getElem?_map, h]; rfl
    rw [order] at hc
    obtain ⟨_, e⟩ := List.getElem?_eq_some_iff.mp hc
    rw [← e, List.getElem_range]
  · rintro rfl; exact all x

theorem tyOf_eq_some {c : Nat} {t : Ty} : tyOf c = some t ↔ t.code = c :=
  getElem?_eq_some_iff_code (fun x => by cases x <;> rfl) rfl
theorem rndOf_eq_some {c : Nat} {r : Rnd} : rndOf c = some r ↔ r.code = c :=
  getElem?_eq_some_iff_code (fun x => by cases x <;> rfl) rfl
theorem scopeOf_eq_some {c : Nat} {x : Scope} : scopeOf c = some x ↔ x.code = c :=
  getElem?_eq_some_iff_code (fun x => by cases x <;> rfl) rfl
theorem ccOf_eq_some {c : Nat} {x : CC} : ccOf c = some x ↔ x.code = c :=
  getElem?_eq_some_iff_code (fun x => by cases x <;> rfl) rfl
theorem cctlOf_eq_some {c : Nat} {x : CctlOp} : cctlOf c = some x ↔ x.code = c :=
  getElem?_eq_some_iff_code (fun x => by cases x <;> rfl) rfl
theorem scanOf_eq_some {c : Nat} {x : ScanOp} : scanOf c = some x ↔ x.code = c :=
  getElem?_eq_some_iff_code (fun x => by cases x <;> rfl) rfl

theorem Ty.code_lt (t : Ty) : t.code < 20 := by cases t <;> decide
theorem Rnd.code_lt (r : Rnd) : r.code < 6 := by cases r <;> decide
theorem Scope.code_lt (x : Scope) : x.code < 7 := by cases x <;> decide
theorem CC.code_lt (x : CC) : x.code < 14 := by cases x <;> decide
theorem CC.code_lt_of_integer {x : CC} (h : x.integer = true) : x.code < 8 := by revert h; cases x <;> decide
theorem CC.code_lt_of_waits {x : CC} (h : x.waits = true) : x.code < 6 := by revert h; cases x <;> decide
theorem FenceKind.code_lt (x : FenceKind) : x.code < 4 := by cases x <;> decide
theorem CctlOp.code_lt (x : CctlOp) : x.code < 5 := by cases x <;> decide
theorem ScanOp.code_lt (x : ScanOp) : x.code < 6 := by cases x <;> decide
theorem CachePol.code_lt (x : CachePol) : x.code < 4 := by cases x <;> decide
theorem AtomSp.code_lt (x : AtomSp) : x.code < 4 := by cases x <;> decide

/-! ### The parts of a decoding arm -/

theorem bind_eq_ok {ε α β : Type} {x : Except ε α} {f : α → Except ε β} {y : β} :
    (x >>= f) = .ok y ↔ ∃ a, x = .ok a ∧ f a = .ok y := by
  cases x with
  | error e => simp [bind, Except.bind]
  | ok a => simp [bind, Except.bind]

theorem res_eq_ok {x : Nat} {u : Unit} : res x = .ok u ↔ x = 0 := by
  unfold res; split <;> simp [*]
theorem check_eq_ok {c : Bool} {e : DecodeError} {u : Unit} : check c e = .ok u ↔ c = true := by
  unfold check; split <;> simp_all
theorem need_eq_ok {α : Type} {o : Option α} {x : α} : need o = .ok x ↔ o = some x := by
  cases o <;> simp [need]


/-! ### GM and offsets (02 R22, R31) -/


theorem toNat_beq_one {x : Nat} (h : x < 2) : (x == 1).toNat = x := by
  interval_cases x <;> rfl

@[simp] theorem toNat_beq_one_eq (b : Bool) : (b.toNat == 1) = b := by cases b <;> rfl

/-- The fields of GM at their bits. -/
theorem GM.code_fields {g : GM} (h : g.wf = true) :
    g.code < 16777216 ∧ g.code % 32 = 0 ∧ g.code / 8388608 % 2 = g.ginv.toNat ∧ g.code / 524288 % 16 = g.gpred ∧
    g.code / 16384 % 32 = g.type.code ∧ g.code / 2048 % 8 = g.round.code ∧ g.code / 1024 % 2 = g.sat.toNat ∧
    g.code / 512 % 2 = g.ftz.toNat ∧ g.code / 64 % 8 = g.scope.code ∧ g.code / 32 % 2 = g.ftb.toNat := by
  simp only [GM.wf, decide_eq_true_eq] at h
  have h1 := g.ginv.toNat_le
  have h2 := g.type.code_lt
  have h3 := g.round.code_lt
  have h4 := g.sat.toNat_le
  have h5 := g.ftz.toNat_le
  have h6 := g.scope.code_lt
  have h7 := g.ftb.toNat_le
  unfold GM.code
  omega

theorem gmOf_eq_ok {p : Nat} (hp : p < 16777216) {g : GM} : gmOf p = .ok g ↔ g.wf = true ∧ g.code = p := by
  constructor
  · intro h
    unfold gmOf at h
    split at h
    · cases h
    split at h
    case h_2 => cases h
    case h_1 ty r sc ht hr hs =>
      cases h
      rw [tyOf_eq_some] at ht
      rw [rndOf_eq_some] at hr
      rw [scopeOf_eq_some] at hs
      have hbit : ∀ n, (n % 2 == 1).toNat = n % 2 := fun n => toNat_beq_one (Nat.mod_lt n (by decide))
      simp only [GM.wf, GM.code, decide_eq_true_eq, hbit, ht, hr, hs]
      omega
  · rintro ⟨hw, rfl⟩
    obtain ⟨_, h0, h1, h2, h3, h4, h5, h6, h7, h8⟩ := GM.code_fields hw
    unfold gmOf
    rw [h0, h1, h2, h3, h4, h5, h6, h7, h8, tyOf_eq_some.mpr rfl, rndOf_eq_some.mpr rfl, scopeOf_eq_some.mpr rfl]
    simp

theorem offOf_offCode {off : Int} (h : offWf off = true) : offOf (offCode off) = off := by
  simp only [offWf, Bool.and_eq_true, decide_eq_true_eq] at h
  unfold offOf offCode
  split <;> omega

theorem offWf_offOf {o : Nat} (h : o < 1048576) : offWf (offOf o) = true ∧ offCode (offOf o) = o := by
  unfold offWf offOf offCode
  simp only [Bool.and_eq_true, decide_eq_true_eq]
  split <;> omega

theorem offCode_lt (off : Int) : offCode off < 1048576 := by unfold offCode; omega


@[simp] theorem ok_bind {ε α β : Type} (a : α) (f : α → Except ε β) : (Except.ok a >>= f) = f a := rfl
@[simp] theorem pure_eq_ok {ε α : Type} (a : α) : (pure a : Except ε α) = .ok a := rfl
@[simp] theorem res_zero : res 0 = .ok () := rfl
@[simp] theorem check_true (e : DecodeError) : check true e = .ok () := rfl
@[simp] theorem need_some {α : Type} (x : α) : need (some x) = .ok x := rfl
@[simp] theorem operandOf_code {x : Operand} (h : x.wf = true) : operandOf x.code = .ok x := operandOf_eq_ok.mpr ⟨h, rfl⟩
@[simp] theorem tyOf_code (x : Ty) : tyOf x.code = some x := tyOf_eq_some.mpr rfl
@[simp] theorem ccOf_code (x : CC) : ccOf x.code = some x := ccOf_eq_some.mpr rfl
@[simp] theorem cctlOf_code (x : CctlOp) : cctlOf x.code = some x := cctlOf_eq_some.mpr rfl
@[simp] theorem scanOf_code (x : ScanOp) : scanOf x.code = some x := scanOf_eq_some.mpr rfl
@[simp] theorem cacheOf_code (x : CachePol) : cacheOf x.code = x := by cases x <;> rfl
@[simp] theorem atomSpOf_code (x : AtomSp) : atomSpOf x.code = x := by cases x <;> rfl
@[simp] theorem loadOrd_toNat (b : Bool) : loadOrd b.toNat = .ok b := by cases b <;> rfl
@[simp] theorem storeOrd_toNat (b : Bool) : storeOrd (2 * b.toNat) = .ok b := by cases b <;> rfl
@[simp] theorem gmOf_code {g : GM} (h : g.wf = true) : gmOf g.code = .ok g :=
  (gmOf_eq_ok (GM.code_fields h).1).mpr ⟨h, rfl⟩

/-! ### The fields of the encoder's words (02 R21) -/

/-- The fields of the word with the four bytes op, d, a, b. -/
def bytesFields (op d a b : Nat) : Fields :=
  { op := op, d := d, a := a, b := b, look := d / 16, mod := d % 16, imm := 256 * a + b,
    off := 65536 * (d % 16) + 256 * a + b, payload := 65536 * d + 256 * a + b }

/-- The fields of a word in L format. -/
def lookFields (op look mod d a : Nat) : Fields :=
  { op := op, d := 16 * look + mod, a := d, b := a, look := look, mod := mod, imm := 256 * d + a,
    off := 65536 * mod + 256 * d + a, payload := 1048576 * look + 65536 * mod + 256 * d + a }

/-- The fields of a word with a payload. -/
def payloadFields (op p : Nat) : Fields :=
  { op := op, d := p / 65536, a := p / 256 % 256, b := p % 256, look := p / 1048576, mod := p / 65536 % 16,
    imm := p % 65536, off := p % 1048576, payload := p }

/-- The fields of a word in I format. -/
def immFields (op d imm : Nat) : Fields :=
  { op := op, d := d, a := imm / 256, b := imm % 256, look := d / 16, mod := d % 16, imm := imm,
    off := 65536 * (d % 16) + imm, payload := 65536 * d + imm }

/-- The fields of a word in J format. -/
def jumpFields (op c o : Nat) : Fields :=
  { op := op, d := 16 * c + o / 65536, a := o / 256 % 256, b := o % 256, look := c, mod := o / 65536, imm := o % 65536,
    off := o, payload := 1048576 * c + o }

@[simp] theorem bytesFields_op (op d a b : Nat) : (bytesFields op d a b).op = op := rfl
@[simp] theorem lookFields_op (op look mod d a : Nat) : (lookFields op look mod d a).op = op := rfl
@[simp] theorem lookFields_mod (op look mod d a : Nat) : (lookFields op look mod d a).mod = mod := rfl
@[simp] theorem payloadFields_op (op p : Nat) : (payloadFields op p).op = op := rfl
@[simp] theorem immFields_op (op d imm : Nat) : (immFields op d imm).op = op := rfl
@[simp] theorem jumpFields_op (op c o : Nat) : (jumpFields op c o).op = op := rfl
@[simp] theorem jumpFields_off (op c o : Nat) : (jumpFields op c o).off = o := rfl
@[simp] theorem jumpFields_c (op c : Nat) (off : Int) : (jumpFields op c (offCode off)).payload / 1048576 = c := by
  have := offCode_lt off
  unfold jumpFields; dsimp only; omega

/-- The decoder of a row of the opcode table. -/
def decodeRow (r : Nat) (f : Fields) : Except DecodeError Instr :=
  match r with
  | 0 => decRow0 f
  | 1 => decRow1 f
  | 2 => decRow2 f
  | 3 => decRow3 f
  | 4 => decRow4 f
  | 5 => decRow5 f
  | 6 => decRow6 f
  | 7 => decRow7 f
  | 8 => decRow8 f
  | 9 => decRow9 f
  | 10 => decRowA f
  | 11 => decRowB f
  | 12 => decRowC f
  | 13 => decRowD f
  | 14 => decRowE f
  | _ => decRowF f

theorem decodeFields_eq (f : Fields) : decodeFields f = decodeRow (f.op / 16) f := rfl

/-- A word below 2^32 decodes by its fields. -/
theorem decode_ofNat {w : Nat} (h : w < 4294967296) : decode (BitVec.ofNat 32 w) = decodeFields (fieldsOf w) := by
  rw [decode, BitVec.toNat_ofNat, Nat.mod_eq_of_lt h]

theorem decode_encT {op d a b : Nat} (ho : op < 256) (hd : d < 256) (ha : a < 256) (hb : b < 256) :
    decode (BitVec.ofNat 32 (encT op d a b)) = decodeRow (op / 16) (bytesFields op d a b) := by
  have e : fieldsOf (encT op d a b) = bytesFields op d a b := by
    unfold fieldsOf bytesFields encT
    congr 1 <;> omega
  rw [decode_ofNat (by unfold encT; omega), e]
  rfl

theorem decode_encL {op look mod d a : Nat} (ho : op < 256) (hl : look < 16) (hm : mod < 16) (hd : d < 256) (ha : a < 256) :
    decode (BitVec.ofNat 32 (encL op look mod d a)) = decodeRow (op / 16) (lookFields op look mod d a) := by
  have e : fieldsOf (encL op look mod d a) = lookFields op look mod d a := by
    unfold fieldsOf lookFields encL
    congr 1 <;> omega
  rw [decode_ofNat (by unfold encL; omega), e]
  rfl

theorem decode_encM {op p : Nat} (ho : op < 256) (hp : p < 16777216) :
    decode (BitVec.ofNat 32 (encM op p)) = decodeRow (op / 16) (payloadFields op p) := by
  have e : fieldsOf (encM op p) = payloadFields op p := by
    unfold fieldsOf payloadFields encM
    congr 1 <;> omega
  rw [decode_ofNat (by unfold encM; omega), e]
  rfl

theorem decode_encI {op imm : Nat} {d : Operand} (ho : op < 256) (hd : d.wf = true) (hi : imm < 65536) :
    decode (BitVec.ofNat 32 (encI op d imm)) = decodeRow (op / 16) (immFields op d.code imm) := by
  have := Operand.code_lt hd
  have e : fieldsOf (encI op d imm) = immFields op d.code imm := by
    unfold fieldsOf immFields encI
    congr 1 <;> omega
  rw [decode_ofNat (by unfold encI; omega), e]
  rfl

theorem decode_encJ {op c : Nat} {off : Int} (ho : op < 256) (hc : c < 16) :
    decode (BitVec.ofNat 32 (encJ op c off)) = decodeRow (op / 16) (jumpFields op c (offCode off)) := by
  have := offCode_lt off
  have e : fieldsOf (encJ op c off) = jumpFields op c (offCode off) := by
    unfold fieldsOf jumpFields encJ
    congr 1 <;> omega
  rw [decode_ofNat (by unfold encJ; omega), e]
  rfl

theorem decode_encT3 {op : Nat} {d a b : Operand} (ho : op < 256) (hd : d.wf = true) (ha : a.wf = true) (hb : b.wf = true) :
    decode (BitVec.ofNat 32 (encT3 op d a b)) = decodeRow (op / 16) (bytesFields op d.code a.code b.code) :=
  decode_encT ho (Operand.code_lt hd) (Operand.code_lt ha) (Operand.code_lt hb)

theorem decode_encT2 {op : Nat} {d a : Operand} (ho : op < 256) (hd : d.wf = true) (ha : a.wf = true) :
    decode (BitVec.ofNat 32 (encT2 op d a)) = decodeRow (op / 16) (bytesFields op d.code a.code 0) :=
  decode_encT ho (Operand.code_lt hd) (Operand.code_lt ha) (by decide)

theorem decode_encLo {op look mod : Nat} {d a : Operand} (ho : op < 256) (hl : look < 16) (hm : mod < 16)
    (hd : d.wf = true) (ha : a.wf = true) :
    decode (BitVec.ofNat 32 (encLo op look mod d a)) = decodeRow (op / 16) (lookFields op look mod d.code a.code) :=
  decode_encL ho hl hm (Operand.code_lt hd) (Operand.code_lt ha)

/-! ### The shared decoders undo the encoder -/

theorem decT3_bytes {op : Nat} {d a b : Operand} {k : Operand → Operand → Operand → Instr} (hd : d.wf = true)
    (ha : a.wf = true) (hb : b.wf = true) : decT3 k (bytesFields op d.code a.code b.code) = .ok (k d a b) := by
  simp [decT3, bytesFields, hd, ha, hb]

theorem decT2_bytes {op : Nat} {d a : Operand} {k : Operand → Operand → Instr} (hd : d.wf = true)
    (ha : a.wf = true) : decT2 k (bytesFields op d.code a.code 0) = .ok (k d a) := by
  simp [decT2, bytesFields, hd, ha]

theorem decI_imm {op imm : Nat} {d : Operand} {k : Operand → Nat → Instr} (hd : d.wf = true) :
    decI k (immFields op d.code imm) = .ok (k d imm) := by
  simp [decI, immFields, hd]

theorem decIShift_imm {op n : Nat} {d : Operand} {k : Operand → Nat → Instr} (hd : d.wf = true) (hn : n < 128) :
    decIShift k (immFields op d.code n) = .ok (k d n) := by
  simp [decIShift, immFields, hd, Nat.div_eq_of_lt hn]

theorem decL_look {max op look mod : Nat} {d a : Operand} {k : Nat → Operand → Operand → Instr} (hl : look < max)
    (hd : d.wf = true) (ha : a.wf = true) : decL max k (lookFields op look mod d.code a.code) = .ok (k look d a) := by
  simp [decL, lookFields, hl, hd, ha]

theorem decL0_look {max op look : Nat} {d a : Operand} {k : Nat → Operand → Operand → Instr} (hl : look < max)
    (hd : d.wf = true) (ha : a.wf = true) : decL0 max k (lookFields op look 0 d.code a.code) = .ok (k look d a) := by
  have h0 : (lookFields op look 0 d.code a.code).mod = 0 := rfl
  rw [decL0, h0, res_zero, ok_bind, decL_look hl hd ha]

theorem decLa_look {max op look mod : Nat} {a : Operand} {k : Nat → Operand → Instr} (hl : look < max)
    (ha : a.wf = true) : decLa max k (lookFields op look mod 0 a.code) = .ok (k look a) := by
  simp [decLa, lookFields, hl, ha]

theorem encBar_lt_mod {bar : Option Nat} (h : barWf bar = true) : bar.getD 0 < 16 := by
  cases bar with
  | none => decide
  | some n => simpa [barWf] using h

theorem decode_encBar {op look w : Nat} {bar : Option Nat} {a : Operand} {k : Nat → Option Nat → Operand → Instr}
    (hwf : (look15 look && barWf bar && a.wf) = true) (ho : op < 256) (hw : some (encBar op look bar a) = some w)
    (hk : ∀ mod d, decodeRow (op / 16) (lookFields op look mod d a.code) = decBar 16 k (lookFields op look mod d a.code)) :
    decode (BitVec.ofNat 32 w) = .ok (k look bar a) := by
  simp only [look15, Bool.and_eq_true, decide_eq_true_eq] at hwf
  obtain ⟨⟨hl, hb⟩, ha⟩ := hwf
  cases hw
  cases bar with
  | none =>
    rw [encBar, decode_encL ho hl (by decide) (by decide) (Operand.code_lt ha), hk]
    simp [decBar, lookFields, hl, ha]
  | some n =>
    simp only [barWf, decide_eq_true_eq] at hb
    rw [encBar, decode_encL ho hl hb (by decide) (Operand.code_lt ha), hk]
    simp [decBar, lookFields, hl, ha]

theorem decode_encTile {op look n w : Nat} {sp col pair : Bool} {bar : Option Nat} {a : Operand}
    {k : Nat → Nat → Bool → Bool → Bool → Option Nat → Operand → Instr}
    (hwf : (look15 look && decide (n < 16) && barWf bar && a.wf) = true) (ho : op < 256)
    (hw : some (encTile op look n sp col pair bar a) = some w)
    (hk : ∀ d, decodeRow (op / 16) (lookFields op look n d a.code) = decTile k (lookFields op look n d a.code)) :
    decode (BitVec.ofNat 32 w) = .ok (k look n sp col pair bar a) := by
  simp only [look15, Bool.and_eq_true, decide_eq_true_eq] at hwf
  obtain ⟨⟨⟨hl, hn⟩, hb⟩, ha⟩ := hwf
  cases hw
  have h1 := sp.toNat_le
  have h2 := col.toNat_le
  have h3 := pair.toNat_le
  cases bar with
  | none =>
    obtain ⟨d, hd⟩ : ∃ d, d = sp.toNat + 2 * col.toNat + 4 * pair.toNat := ⟨_, rfl⟩
    have e0 : d % 2 = sp.toNat := by omega
    have e1 : d / 2 % 2 = col.toNat := by omega
    have e2 : d / 4 % 2 = pair.toNat := by omega
    have e3 : d / 8 % 2 = 0 := by omega
    simp only [encTile, ← hd]
    rw [decode_encL ho hl hn (by omega) (Operand.code_lt ha), hk]
    simp [decTile, lookFields, hl, ha, e0, e1, e2, e3]
  | some m =>
    simp only [barWf, decide_eq_true_eq] at hb
    obtain ⟨d, hd⟩ : ∃ d, d = sp.toNat + 2 * col.toNat + 4 * pair.toNat + 8 + 16 * m := ⟨_, rfl⟩
    have e0 : d % 2 = sp.toNat := by omega
    have e1 : d / 2 % 2 = col.toNat := by omega
    have e2 : d / 4 % 2 = pair.toNat := by omega
    have e3 : d / 8 % 2 = 1 := by omega
    have e4 : d / 16 = m := by omega
    simp only [encTile, ← hd]
    rw [decode_encL ho hl hn (by omega) (Operand.code_lt ha), hk]
    simp [decTile, lookFields, hl, ha, e0, e1, e2, e3, e4]

theorem decode_encAtom {op look w : Nat} {acq rel host : Bool} {sp : AtomSp} {d a : Operand}
    {k : Nat → Bool → Bool → AtomSp → Operand → Operand → Instr}
    (hl : look15 look = true) (hs : host = true ∨ sp ≠ .host) (ho : op < 256) (hwf : op2 d a = true)
    (hw : some (encAtom op look acq rel sp d a) = some w)
    (hk : ∀ mod, decodeRow (op / 16) (lookFields op look mod d.code a.code) = decAtom host k (lookFields op look mod d.code a.code)) :
    decode (BitVec.ofNat 32 w) = .ok (k look acq rel sp d a) := by
  simp only [look15, op2, Bool.and_eq_true, decide_eq_true_eq] at hl hwf
  obtain ⟨hd, ha⟩ := hwf
  cases hw
  have h1 := acq.toNat_le
  have h2 := rel.toNat_le
  have h3 := sp.code_lt
  obtain ⟨m, hm⟩ : ∃ m, m = 8 * rel.toNat + 4 * acq.toNat + sp.code := ⟨_, rfl⟩
  have e0 : m % 4 = sp.code := by omega
  have e1 : m / 4 % 2 = acq.toNat := by omega
  have e2 : m / 8 = rel.toNat := by omega
  have e3 : (host || decide (sp.code ≠ 3)) = true := by
    rcases hs with h | h
    · simp [h]
    · cases sp <;> simp [AtomSp.code] at h ⊢
  rw [encAtom, ← hm, decode_encLo ho hl (by omega) hd ha, hk]
  simp only [decAtom, lookFields, e0, e1, e2, e3, hl, hd, ha, decide_true, check_true, ok_bind, operandOf_code, pure_eq_ok,
    toNat_beq_one_eq, atomSpOf_code]

/-! ### Decoding the word of an instruction -/

/-- Every word that the encoder writes for a well-formed instruction is decoded to it: one case for each format of the
opcode table's rows. -/
theorem decode_encode (i : Instr) (w : Nat) (hwf : i.wf = true) (henc : encode i = some w) :
    decode (BitVec.ofNat 32 w) = .ok i := by
  cases i with
  -- T format, three operands
  | iadd d a b | isub d a b | imul d a b | imulh d a b | imad d a b | imin d a b | imax d a b | iabsd d a b | and d a b
  | or d a b | xor d a b | andn d a b | shl d a b | shr d a b | sar d a b | rot d a b | bfe d a b | bfi d a b
  | add64 d a b | lea64 d a b | iadds d a b | isubs d a b | perm d a b | mulw d a b | fadd d a b | fsub d a b
  | fmul d a b | fma d a b | fmin d a b | fmax d a b | fscale d a b | fnma d a b | fcpys d a b | fdot2 d a b
  | cvts d a b | pack2 d a b | unpk d a b | hfma2 d a b | hadd2 d a b | hmul2 d a b | dot4 d a b | ivadd d a b
  | ivsub d a b | ivmul d a b | ivhull d a b | vexpr d a b | tbl d a b | sel d a b | shfl d a b | shflx d a b
  | shflu d a b | shfld d a b | smov d a b | trace d a b =>
    change op3 _ _ _ = true at hwf
    simp only [op3, Bool.and_eq_true] at hwf
    obtain ⟨⟨hd, ha⟩, hb⟩ := hwf
    cases henc
    rw [decode_encT3 (by decide) hd ha hb]
    simp only [Nat.reduceDiv, Nat.reduceMod, decodeRow, decRow1, decRow2, decRow3, decRow4, decRow5, decRowF, bytesFields_op]
    exact decT3_bytes hd ha hb
  -- T format, two operands
  | popc d a | clz d a | brev d a | fneg d a | fabs d a | frnd d a | fclass d a | ivsqr d a | mov d a | bcast d a =>
    change op2 _ _ = true at hwf
    simp only [op2, Bool.and_eq_true] at hwf
    obtain ⟨hd, ha⟩ := hwf
    cases henc
    rw [decode_encT2 (by decide) hd ha]
    simp only [Nat.reduceDiv, Nat.reduceMod, decodeRow, decRow2, decRow3, decRow4, decRow5, bytesFields_op]
    exact decT2_bytes hd ha
  -- T format, fields of their own
  | cvt ty d a =>
    change op2 _ _ = true at hwf
    simp only [op2, Bool.and_eq_true] at hwf
    obtain ⟨hd, ha⟩ := hwf
    cases henc
    have ht := ty.code_lt
    rw [decode_encT (by decide) (Operand.code_lt hd) (Operand.code_lt ha) (by omega)]
    simp only [Nat.reduceDiv, Nat.reduceMod, decodeRow, decRow4, bytesFields]
    simp [hd, ha, Nat.div_eq_of_lt (show ty.code < 32 by omega)]
  | gscan o d a =>
    change op2 _ _ = true at hwf
    simp only [op2, Bool.and_eq_true] at hwf
    obtain ⟨hd, ha⟩ := hwf
    cases henc
    have ht := o.code_lt
    rw [decode_encT (by decide) (Operand.code_lt hd) (Operand.code_lt ha) (by omega)]
    simp only [Nat.reduceDiv, Nat.reduceMod, decodeRow, decRow5, bytesFields]
    simp [hd, ha, Nat.div_eq_of_lt (show o.code < 8 by omega)]
  | fcmp cc p a b =>
    change (_ && _) = true at hwf
    simp only [op2, Bool.and_eq_true, decide_eq_true_eq] at hwf
    obtain ⟨hp, ha, hb⟩ := hwf
    cases henc
    have hc := cc.code_lt
    rw [decode_encT (by decide) (by omega) (Operand.code_lt ha) (Operand.code_lt hb)]
    have e1 : (16 * cc.code + p) / 16 = cc.code := by omega
    have e2 : (16 * cc.code + p) % 16 = p := by omega
    simp only [Nat.reduceDiv, Nat.reduceMod, decodeRow, decRow5, bytesFields]
    simp [ha, hb, e1, e2]
  | icmp cc p a b =>
    change (_ && _) = true at hwf
    simp only [op2, Bool.and_eq_true, decide_eq_true_eq] at hwf
    obtain ⟨⟨hi, hp⟩, ha, hb⟩ := hwf
    cases henc
    have hc := CC.code_lt_of_integer hi
    rw [decode_encT (by decide) (by omega) (Operand.code_lt ha) (Operand.code_lt hb)]
    have e1 : (16 * cc.code + p) / 16 = cc.code := by omega
    have e2 : (16 * cc.code + p) % 16 = p := by omega
    simp only [Nat.reduceDiv, Nat.reduceMod, decodeRow, decRow5, bytesFields]
    simp [ha, hb, e1, e2, hc]
  | icmpi cc p a imm =>
    change (_ && _) = true at hwf
    simp only [Bool.and_eq_true, decide_eq_true_eq] at hwf
    obtain ⟨⟨⟨hi, hp⟩, ha⟩, hm⟩ := hwf
    cases henc
    have hc := CC.code_lt_of_integer hi
    rw [decode_encT (by decide) (by omega) (Operand.code_lt ha) hm]
    have e1 : (16 * cc.code + p) / 16 = cc.code := by omega
    have e2 : (16 * cc.code + p) % 16 = p := by omega
    simp only [Nat.reduceDiv, Nat.reduceMod, decodeRow, decRow6, bytesFields]
    simp [ha, e1, e2, hc]
  | plog pd pa pb pc tt =>
    change (_ && _) = true at hwf
    simp only [Bool.and_eq_true, decide_eq_true_eq] at hwf
    obtain ⟨⟨⟨⟨hd, ha⟩, hb⟩, hc⟩, ht⟩ := hwf
    cases henc
    rw [decode_encT (by decide) (by omega) (by omega) ht]
    simp only [Nat.reduceDiv, Nat.reduceMod, decodeRow, decRow5, bytesFields]
    simp
    omega
  | vote p d m =>
    change (_ && _) = true at hwf
    simp only [op2, Bool.and_eq_true, decide_eq_true_eq] at hwf
    obtain ⟨hp, hd, hm⟩ := hwf
    cases henc
    rw [decode_encT (by decide) (Operand.code_lt hd) (by omega) (Operand.code_lt hm)]
    simp only [Nat.reduceDiv, Nat.reduceMod, decodeRow, decRow5, bytesFields]
    simp [hd, hm, Nat.div_eq_of_lt hp, Nat.mod_eq_of_lt hp]
  | sread d idx | sysr d idx =>
    change (_ && _) = true at hwf
    simp only [Bool.and_eq_true, decide_eq_true_eq] at hwf
    obtain ⟨hd, hi⟩ := hwf
    cases henc
    rw [decode_encT (by decide) (Operand.code_lt hd) hi (by decide)]
    simp only [Nat.reduceDiv, Nat.reduceMod, decodeRow, decRow5, decRowF, bytesFields]
    simp [hd]
  | swrite idx a | sysw idx a =>
    change (_ && _) = true at hwf
    simp only [Bool.and_eq_true, decide_eq_true_eq] at hwf
    obtain ⟨hi, ha⟩ := hwf
    cases henc
    rw [decode_encT (by decide) hi (Operand.code_lt ha) (by decide)]
    simp only [Nat.reduceDiv, Nat.reduceMod, decodeRow, decRow5, decRowF, bytesFields]
    simp [ha]
  | frame n =>
    change decide _ = true at hwf
    simp only [decide_eq_true_eq] at hwf
    cases henc
    rw [decode_encT (by decide) (by decide) (by decide) hwf]
    simp only [Nat.reduceDiv, Nat.reduceMod, decodeRow, decRow6, bytesFields]
    simp
  | tick d =>
    change Operand.wf _ = true at hwf
    cases henc
    rw [decode_encT (by decide) (Operand.code_lt hwf) (by decide) (by decide)]
    simp only [Nat.reduceDiv, Nat.reduceMod, decodeRow, decRowF, bytesFields]
    simp [hwf]
  | rft replay d a =>
    change op2 _ _ = true at hwf
    simp only [op2, Bool.and_eq_true] at hwf
    obtain ⟨hd, ha⟩ := hwf
    cases henc
    have hr := replay.toNat_le
    have hd' := Operand.code_lt hd
    have ha' := Operand.code_lt ha
    rw [decode_encT (by decide) (by omega) hd' ha']
    have e1 : (65536 * replay.toNat + 256 * d.code + a.code) / 131072 = 0 := by omega
    simp only [Nat.reduceDiv, Nat.reduceMod, decodeRow, decRowF, bytesFields]
    simp [hd, ha, e1, Nat.mod_eq_of_lt (show replay.toNat < 2 by omega)]
  | callx c a =>
    change (_ && _) = true at hwf
    simp only [Bool.and_eq_true, decide_eq_true_eq] at hwf
    obtain ⟨hc, ha⟩ := hwf
    cases henc
    rw [decode_encT (by decide) (by decide) (Operand.code_lt ha) (by omega)]
    simp only [Nat.reduceDiv, Nat.reduceMod, decodeRow, decRow0, bytesFields]
    simp [ha, hc, Nat.div_eq_of_lt (show c < 16 by omega)]
  | brx a =>
    change Operand.wf _ = true at hwf
    cases henc
    rw [decode_encT (by decide) (by decide) (Operand.code_lt hwf) (by decide)]
    simp only [Nat.reduceDiv, Nat.reduceMod, decodeRow, decRow0, bytesFields]
    simp [hwf]
  -- I format
  | lit d imm | lith d imm | addi d imm | andi d imm | ori d imm | xori d imm | flit d imm =>
    change (_ && _) = true at hwf
    simp only [Bool.and_eq_true, decide_eq_true_eq] at hwf
    obtain ⟨hd, hi⟩ := hwf
    cases henc
    rw [decode_encI (by decide) hd hi]
    simp only [Nat.reduceDiv, Nat.reduceMod, decodeRow, decRow6, immFields_op]
    exact decI_imm hd
  | shli d n | shri d n | sari d n =>
    change (_ && _) = true at hwf
    simp only [Bool.and_eq_true, decide_eq_true_eq] at hwf
    obtain ⟨hd, hn⟩ := hwf
    cases henc
    rw [decode_encI (by decide) hd (by omega)]
    simp only [Nat.reduceDiv, Nat.reduceMod, decodeRow, decRow6, immFields_op]
    exact decIShift_imm hd hn
  -- J format
  | bra c off | bru c off | yield c off =>
    change (_ && _) = true at hwf
    simp only [Bool.and_eq_true, decide_eq_true_eq] at hwf
    obtain ⟨hc, ho⟩ := hwf
    cases henc
    rw [decode_encJ (by decide) hc]
    simp only [Nat.reduceDiv, Nat.reduceMod, decodeRow, decRow0, jumpFields_op, jumpFields_off]
    simp [offOf_offCode ho]
  | call c off =>
    change (_ && _) = true at hwf
    simp only [Bool.and_eq_true, decide_eq_true_eq] at hwf
    obtain ⟨hc, ho⟩ := hwf
    cases henc
    rw [decode_encJ (by decide) (by omega)]
    simp only [Nat.reduceDiv, Nat.reduceMod, decodeRow, decRow0, jumpFields_op, jumpFields_off]
    simp [offOf_offCode ho, hc]
  -- a payload
  | nop | join | ret | exit | piperel =>
    cases henc
    rw [decode_encM (by decide) (by decide)]
    simp only [Nat.reduceDiv, Nat.reduceMod, decodeRow, decRow0, decRowC, payloadFields]
    simp
  | setmode gm =>
    change GM.wf _ = true at hwf
    cases henc
    rw [decode_encM (by decide) (GM.code_fields hwf).1]
    simp only [Nat.reduceDiv, Nat.reduceMod, decodeRow, decRow0, payloadFields]
    simp [hwf]
  | sleep n =>
    change decide _ = true at hwf
    simp only [decide_eq_true_eq] at hwf
    cases henc
    rw [decode_encM (by decide) hwf]
    simp only [Nat.reduceDiv, Nat.reduceMod, decodeRow, decRow0, payloadFields]
    simp
  | trap n | bkpt n =>
    change decide _ = true at hwf
    simp only [decide_eq_true_eq] at hwf
    cases henc
    rw [decode_encM (by decide) (by omega)]
    simp only [Nat.reduceDiv, Nat.reduceMod, decodeRow, decRow0, payloadFields]
    simp [Nat.div_eq_of_lt hwf, Nat.mod_eq_of_lt hwf]
  | premask en =>
    cases henc
    have he := en.toNat_le
    rw [decode_encM (by decide) (by omega)]
    simp only [Nat.reduceDiv, Nat.reduceMod, decodeRow, decRowF, payloadFields]
    simp [Nat.div_eq_of_lt (show en.toNat < 2 by omega)]
  -- L format
  | frcp look d a | frsq look d a | fsqrt look d a | fexp2 look d a | flog2 look d a | fsin look d a | fcos look d a
  | ftanh look d a | fdiv look d a | idiv look d a | irem look d a | fsigm look d a | qput look d a | cbind look d a
  | cstat look d a | mstat look d a | cqpop look d a =>
    change (_ && _) = true at hwf
    simp only [op2, look14, Bool.and_eq_true, decide_eq_true_eq] at hwf
    obtain ⟨hl, hd, ha⟩ := hwf
    cases henc
    rw [decode_encLo (by decide) (by omega) (by decide) hd ha]
    simp only [Nat.reduceDiv, Nat.reduceMod, decodeRow, decRow7, decRowC, decRowD, decRowE, lookFields_op]
    exact decL0_look hl hd ha
  | cqret look d a | boxt look d a | visw look d a =>
    change (_ && _) = true at hwf
    simp only [op2, look15, Bool.and_eq_true, decide_eq_true_eq] at hwf
    obtain ⟨hl, hd, ha⟩ := hwf
    cases henc
    rw [decode_encLo (by decide) hl (by decide) hd ha]
    simp only [Nat.reduceDiv, Nat.reduceMod, decodeRow, decRowE, lookFields_op]
    exact decL0_look hl hd ha
  | ldl look n d a | stl look n d a | ldp look n d a | stp look n d a | ldk look n d a | march look n d a =>
    change (_ && _) = true at hwf
    simp only [op2, look15, Bool.and_eq_true, decide_eq_true_eq] at hwf
    obtain ⟨⟨hl, hn⟩, hd, ha⟩ := hwf
    cases henc
    rw [decode_encLo (by decide) hl hn hd ha]
    simp only [Nat.reduceDiv, Nat.reduceMod, decodeRow, decRow8, decRowE, lookFields_op, lookFields_mod]
    exact decL_look hl hd ha
  | barv look b d a =>
    change (_ && _) = true at hwf
    simp only [op2, look14, Bool.and_eq_true, decide_eq_true_eq] at hwf
    obtain ⟨⟨hl, hb⟩, hd, ha⟩ := hwf
    cases henc
    rw [decode_encLo (by decide) (by omega) hb hd ha]
    simp only [Nat.reduceDiv, Nat.reduceMod, decodeRow, decRowC, lookFields_op, lookFields_mod]
    exact decL_look hl hd ha
  | gshfl look flag d a =>
    change (_ && _) = true at hwf
    simp only [op2, look14, Bool.and_eq_true, decide_eq_true_eq] at hwf
    obtain ⟨hl, hd, ha⟩ := hwf
    cases henc
    have hf := flag.toNat_le
    rw [decode_encLo (by decide) (by omega) (by omega) hd ha]
    have e1 : flag.toNat / 2 = 0 := by omega
    have e2 : flag.toNat % 2 = flag.toNat := by omega
    simp only [Nat.reduceDiv, Nat.reduceMod, decodeRow, decRow5, lookFields_op, lookFields_mod]
    simp [e1, e2, decL_look hl hd ha]
  | trit look flag d a | vfetch look flag d a =>
    change (_ && _) = true at hwf
    simp only [op2, look15, Bool.and_eq_true, decide_eq_true_eq] at hwf
    obtain ⟨hl, hd, ha⟩ := hwf
    cases henc
    have hf := flag.toNat_le
    rw [decode_encLo (by decide) hl (by omega) hd ha]
    have e1 : flag.toNat / 2 = 0 := by omega
    have e2 : flag.toNat % 2 = flag.toNat := by omega
    simp only [Nat.reduceDiv, Nat.reduceMod, decodeRow, decRowE, lookFields_op, lookFields_mod]
    simp [e1, e2, decL_look hl hd ha]
  | feval look mode slot d a =>
    change (_ && _) = true at hwf
    simp only [op2, look14, Bool.and_eq_true, decide_eq_true_eq] at hwf
    obtain ⟨⟨⟨hl, hm⟩, hs⟩, hd, ha⟩ := hwf
    cases henc
    rw [decode_encLo (by decide) (by omega) (by omega) hd ha]
    have e1 : (4 * slot + mode) % 4 = mode := by omega
    have e2 : (4 * slot + mode) / 4 = slot := by omega
    simp only [Nat.reduceDiv, Nat.reduceMod, decodeRow, decRowE, lookFields_op, lookFields_mod]
    simp [e1, e2, decL_look hl hd ha]
  | fbind look slot land d a =>
    change (_ && _) = true at hwf
    simp only [op2, look14, Bool.and_eq_true, decide_eq_true_eq] at hwf
    obtain ⟨⟨hl, hs⟩, hd, ha⟩ := hwf
    cases henc
    have hf := land.toNat_le
    rw [decode_encLo (by decide) (by omega) (by omega) hd ha]
    have e0 : (4 * land.toNat + slot) / 8 = 0 := by omega
    have e1 : (4 * land.toNat + slot) % 4 = slot := by omega
    have e2 : (4 * land.toNat + slot) / 4 % 2 = land.toNat := by omega
    simp only [Nat.reduceDiv, Nat.reduceMod, decodeRow, decRowE, lookFields_op, lookFields_mod]
    simp [e0, e1, e2, decL_look hl hd ha]
  | waitaddr acq cc d a =>
    change (_ && _) = true at hwf
    simp only [op2, Bool.and_eq_true] at hwf
    obtain ⟨hc, hd, ha⟩ := hwf
    cases henc
    have hf := acq.toNat_le
    have hc' := CC.code_lt_of_waits hc
    rw [decode_encLo (by decide) (by decide) (by omega) hd ha]
    have e1 : (8 * acq.toNat + cc.code) % 8 = cc.code := by omega
    have e2 : (8 * acq.toNat + cc.code) / 8 = acq.toNat := by omega
    simp only [Nat.reduceDiv, Nat.reduceMod, decodeRow, decRow0, lookFields]
    simp [e1, e2, hc', hd, ha]
  -- loads and stores with an ordering field
  | ldg look acq cache d a =>
    change (_ && _) = true at hwf
    simp only [op2, look15, Bool.and_eq_true, decide_eq_true_eq] at hwf
    obtain ⟨hl, hd, ha⟩ := hwf
    cases henc
    have hf := acq.toNat_le
    have hc := cache.code_lt
    rw [decode_encLo (by decide) hl (by omega) hd ha]
    have e1 : (4 * acq.toNat + cache.code) / 4 = acq.toNat := by omega
    have e2 : (4 * acq.toNat + cache.code) % 4 = cache.code := by omega
    simp only [Nat.reduceDiv, Nat.reduceMod, decodeRow, decRow9, lookFields_op, lookFields_mod]
    simp [e1, e2, decL_look hl hd ha]
  | stg look rel cache d a =>
    change (_ && _) = true at hwf
    simp only [op2, look15, Bool.and_eq_true, decide_eq_true_eq] at hwf
    obtain ⟨⟨hl, hr⟩, hd, ha⟩ := hwf
    cases henc
    have hf := rel.toNat_le
    have hc := cache.code_lt
    have hc2 : cache.code ≠ 2 := by revert hr; cases cache <;> simp [CachePol.code]
    rw [decode_encLo (by decide) hl (by omega) hd ha]
    have e1 : (8 * rel.toNat + cache.code) / 4 = 2 * rel.toNat := by omega
    have e2 : (8 * rel.toNat + cache.code) % 4 = cache.code := by omega
    simp only [Nat.reduceDiv, Nat.reduceMod, decodeRow, decRow9, lookFields_op, lookFields_mod]
    simp [e1, e2, hc2, decL_look hl hd ha]
  | ldn look acq na d a =>
    change (_ && _) = true at hwf
    simp only [op2, look15, Bool.and_eq_true, decide_eq_true_eq] at hwf
    obtain ⟨hl, hd, ha⟩ := hwf
    cases henc
    have hf := acq.toNat_le
    have hn := na.toNat_le
    rw [decode_encLo (by decide) hl (by omega) hd ha]
    have e1 : (4 * acq.toNat + na.toNat) / 4 = acq.toNat := by omega
    have e2 : (4 * acq.toNat + na.toNat) / 2 % 2 = 0 := by omega
    have e3 : (4 * acq.toNat + na.toNat) % 2 = na.toNat := by omega
    simp only [Nat.reduceDiv, Nat.reduceMod, decodeRow, decRowA, lookFields_op, lookFields_mod]
    simp [e1, e2, e3, decL_look hl hd ha]
  | stn look rel ack d a =>
    change (_ && _) = true at hwf
    simp only [op2, look15, Bool.and_eq_true, decide_eq_true_eq] at hwf
    obtain ⟨hl, hd, ha⟩ := hwf
    cases henc
    have hf := rel.toNat_le
    have hn := ack.toNat_le
    rw [decode_encLo (by decide) hl (by omega) hd ha]
    have e1 : (8 * rel.toNat + 2 * ack.toNat) / 4 = 2 * rel.toNat := by omega
    have e2 : (8 * rel.toNat + 2 * ack.toNat) % 2 = 0 := by omega
    have e3 : (8 * rel.toNat + 2 * ack.toNat) / 2 % 2 = ack.toNat := by omega
    simp only [Nat.reduceDiv, Nat.reduceMod, decodeRow, decRowA, lookFields_op, lookFields_mod]
    simp [e1, e2, e3, decL_look hl hd ha]
  | ldh look acq ns rlx d a =>
    change (_ && _) = true at hwf
    simp only [op2, look15, Bool.and_eq_true, decide_eq_true_eq] at hwf
    obtain ⟨hl, hd, ha⟩ := hwf
    cases henc
    have hf := acq.toNat_le
    have hn := ns.toNat_le
    have hr := rlx.toNat_le
    rw [decode_encLo (by decide) hl (by omega) hd ha]
    have e1 : (4 * acq.toNat + 2 * ns.toNat + rlx.toNat) / 4 = acq.toNat := by omega
    have e2 : (4 * acq.toNat + 2 * ns.toNat + rlx.toNat) / 2 % 2 = ns.toNat := by omega
    have e3 : (4 * acq.toNat + 2 * ns.toNat + rlx.toNat) % 2 = rlx.toNat := by omega
    simp only [Nat.reduceDiv, Nat.reduceMod, decodeRow, decRowA, lookFields_op, lookFields_mod]
    simp [e1, e2, e3, decL_look hl hd ha]
  | sth look rel ns rlx d a =>
    change (_ && _) = true at hwf
    simp only [op2, look15, Bool.and_eq_true, decide_eq_true_eq] at hwf
    obtain ⟨hl, hd, ha⟩ := hwf
    cases henc
    have hf := rel.toNat_le
    have hn := ns.toNat_le
    have hr := rlx.toNat_le
    rw [decode_encLo (by decide) hl (by omega) hd ha]
    have e1 : (8 * rel.toNat + 2 * ns.toNat + rlx.toNat) / 4 = 2 * rel.toNat := by omega
    have e2 : (8 * rel.toNat + 2 * ns.toNat + rlx.toNat) / 2 % 2 = ns.toNat := by omega
    have e3 : (8 * rel.toNat + 2 * ns.toNat + rlx.toNat) % 2 = rlx.toNat := by omega
    simp only [Nat.reduceDiv, Nat.reduceMod, decodeRow, decRowA, lookFields_op, lookFields_mod]
    simp [e1, e2, e3, decL_look hl hd ha]
  -- L format, without d
  | pfg look n a =>
    change (_ && _) = true at hwf
    simp only [look15, Bool.and_eq_true, decide_eq_true_eq] at hwf
    obtain ⟨⟨hl, hn⟩, ha⟩ := hwf
    cases henc
    rw [decode_encL (by decide) hl (by omega) (by decide) (Operand.code_lt ha)]
    simp only [Nat.reduceDiv, Nat.reduceMod, decodeRow, decRow9, lookFields_op, lookFields_mod]
    simp [hn, Nat.div_eq_of_lt (show n < 4 by omega), decLa_look hl ha]
  | cctl look o a =>
    change (_ && _) = true at hwf
    simp only [look15, Bool.and_eq_true, decide_eq_true_eq] at hwf
    obtain ⟨hl, ha⟩ := hwf
    cases henc
    have ho := o.code_lt
    rw [decode_encL (by decide) hl (by omega) (by decide) (Operand.code_lt ha)]
    simp only [Nat.reduceDiv, Nat.reduceMod, decodeRow, decRow9, lookFields_op, lookFields_mod]
    simp [decLa_look hl ha]
  | binit look b a | bexp look b a =>
    change (_ && _) = true at hwf
    simp only [look14, Bool.and_eq_true, decide_eq_true_eq] at hwf
    obtain ⟨⟨hl, hb⟩, ha⟩ := hwf
    cases henc
    rw [decode_encL (by decide) (by omega) hb (by decide) (Operand.code_lt ha)]
    simp only [Nat.reduceDiv, Nat.reduceMod, decodeRow, decRowC, lookFields_op, lookFields_mod]
    exact decLa_look hl ha
  | csum look b a =>
    change (_ && _) = true at hwf
    simp only [look15, Bool.and_eq_true, decide_eq_true_eq] at hwf
    obtain ⟨⟨hl, hb⟩, ha⟩ := hwf
    cases henc
    rw [decode_encL (by decide) hl hb (by decide) (Operand.code_lt ha)]
    simp only [Nat.reduceDiv, Nat.reduceMod, decodeRow, decRowC, lookFields_op, lookFields_mod]
    exact decLa_look hl ha
  | cdrop look a | cfresh look a =>
    change (_ && _) = true at hwf
    simp only [look15, Bool.and_eq_true, decide_eq_true_eq] at hwf
    obtain ⟨hl, ha⟩ := hwf
    cases henc
    rw [decode_encL (by decide) hl (by decide) (by decide) (Operand.code_lt ha)]
    simp only [Nat.reduceDiv, Nat.reduceMod, decodeRow, decRowD, lookFields_op, lookFields_mod]
    exact decLa_look hl ha
  -- L format, d a field
  | copy look b role a =>
    change (_ && _) = true at hwf
    simp only [look15, Bool.and_eq_true, decide_eq_true_eq] at hwf
    obtain ⟨⟨hl, hb⟩, ha⟩ := hwf
    cases henc
    have hr := role.toNat_le
    rw [decode_encL (by decide) hl hb (by omega) (Operand.code_lt ha)]
    simp only [Nat.reduceDiv, Nat.reduceMod, decodeRow, decRowC, lookFields]
    simp [hl, ha, Nat.div_eq_of_lt (show role.toNat < 2 by omega)]
  | bwait b cur a =>
    change (_ && _) = true at hwf
    simp only [Bool.and_eq_true, decide_eq_true_eq] at hwf
    obtain ⟨hb, ha⟩ := hwf
    cases henc
    have hr := cur.toNat_le
    rw [decode_encL (by decide) (by decide) hb (by omega) (Operand.code_lt ha)]
    simp only [Nat.reduceDiv, Nat.reduceMod, decodeRow, decRowC, lookFields]
    simp [ha, Nat.div_eq_of_lt (show cur.toNat < 2 by omega)]
  | btest b p cur a =>
    change (_ && _) = true at hwf
    simp only [Bool.and_eq_true, decide_eq_true_eq] at hwf
    obtain ⟨⟨hb, hp⟩, ha⟩ := hwf
    cases henc
    have hr := cur.toNat_le
    rw [decode_encL (by decide) (by decide) hb (by omega) (Operand.code_lt ha)]
    have e0 : (16 * cur.toNat + p) / 32 = 0 := by omega
    have e1 : (16 * cur.toNat + p) % 16 = p := by omega
    have e2 : (16 * cur.toNat + p) / 16 = cur.toNat := by omega
    simp only [Nat.reduceDiv, Nat.reduceMod, decodeRow, decRowC, lookFields]
    simp [ha, e0, e1, e2]
  | pipe d =>
    change Operand.wf _ = true at hwf
    cases henc
    rw [decode_encL (by decide) (by decide) (by decide) (Operand.code_lt hwf) (by decide)]
    simp only [Nat.reduceDiv, Nat.reduceMod, decodeRow, decRowC, lookFields]
    simp [hwf]
  | buck look b slot a =>
    change (_ && _) = true at hwf
    simp only [look15, Bool.and_eq_true, decide_eq_true_eq] at hwf
    obtain ⟨⟨⟨hl, hb⟩, hs⟩, ha⟩ := hwf
    cases henc
    rw [decode_encL (by decide) hl hb (by omega) (Operand.code_lt ha)]
    simp only [Nat.reduceDiv, Nat.reduceMod, decodeRow, decRowE, lookFields]
    simp [hl, ha, Nat.div_eq_of_lt hs]
  | tblload look k a =>
    change (_ && _) = true at hwf
    simp only [look14, Bool.and_eq_true, decide_eq_true_eq] at hwf
    obtain ⟨⟨hl, hk⟩, ha⟩ := hwf
    cases henc
    rw [decode_encL (by decide) (by omega) (by decide) (by omega) (Operand.code_lt ha)]
    simp only [Nat.reduceDiv, Nat.reduceMod, decodeRow, decRowF, lookFields]
    simp [hl, ha, Nat.div_eq_of_lt hk]
  | mzero look n | mdrain look n =>
    change (_ && _) = true at hwf
    simp only [look14, Bool.and_eq_true, decide_eq_true_eq] at hwf
    obtain ⟨hl, hn⟩ := hwf
    cases henc
    rw [decode_encL (by decide) (by omega) hn (by decide) (by decide)]
    simp only [Nat.reduceDiv, Nat.reduceMod, decodeRow, decRowD, lookFields]
    simp [hl]
  | mwait tile =>
    change barWf _ = true at hwf
    cases tile with
    | none => cases henc; rfl
    | some n =>
      simp only [barWf, decide_eq_true_eq] at hwf
      cases henc
      rw [decode_encL (by decide) (by decide) hwf (by decide) (by decide)]
      simp only [Nat.reduceDiv, Nat.reduceMod, decodeRow, decRowD, lookFields]
      simp
  | fence look kind =>
    change look14 _ = true at hwf
    simp only [look14, decide_eq_true_eq] at hwf
    cases henc
    have hk := kind.code_lt
    rw [decode_encL (by decide) (by omega) (by omega) (by decide) (by decide)]
    simp only [Nat.reduceDiv, Nat.reduceMod, decodeRow, decRowC, lookFields]
    cases kind <;> simp [hwf, FenceKind.code]
  | qfence look mask bar =>
    change (_ && _) = true at hwf
    simp only [Bool.and_eq_true, decide_eq_true_eq] at hwf
    obtain ⟨⟨⟨hl, h0⟩, hm⟩, hb⟩ := hwf
    have e0 : mask / 32 = 0 := Nat.div_eq_of_lt hm
    cases bar with
    | none =>
      simp only [Option.isSome_none, Bool.false_eq_true, if_false, look14, decide_eq_true_eq] at hl
      cases henc
      rw [decode_encL (by decide) (by omega) (by decide) (by omega) (by decide)]
      simp only [Nat.reduceDiv, Nat.reduceMod, decodeRow, decRowC, lookFields]
      simp [hl, e0, Nat.ne_of_gt h0]
    | some n =>
      simp only [Option.isSome_some, if_true, look15, decide_eq_true_eq] at hl
      simp only [barWf, decide_eq_true_eq] at hb
      cases henc
      rw [decode_encL (by decide) hl (by decide) (by omega) (by omega)]
      have e1 : (16 + n) / 32 = 0 := by omega
      have e2 : (16 + n) / 16 = 1 := by omega
      have e3 : (16 + n) % 16 = n := by omega
      simp only [Nat.reduceDiv, Nat.reduceMod, decodeRow, decRowC, lookFields]
      simp [e0, e1, e2, e3, Nat.ne_of_gt h0]
  -- the engine posts and the atomics
  | mpass look bar a | mdelta look bar a | merge look bar a =>
    exact decode_encBar hwf (by decide) henc fun _ _ => by
      simp only [Nat.reduceDiv, Nat.reduceMod, decodeRow, decRowD, decRowE, lookFields_op]
  | mstore look n sp col pair bar a | mload look n sp col pair bar a =>
    exact decode_encTile hwf (by decide) henc fun _ => by
      simp only [Nat.reduceDiv, Nat.reduceMod, decodeRow, decRowD, lookFields_op]
  | aadd look acq rel sp d a | axchg look acq rel sp d a | acas look acq rel sp d a =>
    change (_ && _) = true at hwf
    simp only [Bool.and_eq_true] at hwf
    obtain ⟨hl, ho⟩ := hwf
    exact decode_encAtom (host := true) hl (.inl rfl) (by decide) ho henc fun _ => by
      simp only [Nat.reduceDiv, Nat.reduceMod, decodeRow, decRowB, lookFields_op]
  | afadd look acq rel sp d a | amin look acq rel sp d a | amax look acq rel sp d a | aand look acq rel sp d a
  | aor look acq rel sp d a | axor look acq rel sp d a | ainc look acq rel sp d a | adec look acq rel sp d a =>
    change (_ && _) = true at hwf
    simp only [Bool.and_eq_true, decide_eq_true_eq] at hwf
    obtain ⟨⟨hl, hs⟩, ho⟩ := hwf
    exact decode_encAtom (host := false) hl (.inr hs) (by decide) ho henc fun _ => by
      simp only [Nat.reduceDiv, Nat.reduceMod, decodeRow, decRowB, lookFields_op]
  -- an event has no word
  | _ => cases henc
/-- Settles O56: `decode_encode`, by cases on the instruction. -/
theorem decodeUndoesEncode : Obligations.DecodeUndoesEncode := decode_encode

end Sys2Proof
end

section
/-! PROOFS. What the decoder accepts (02 R34, R42, R48): a well-formed instruction, whose word is the word decoded but for
the bits that log entry 13 ignores. -/

namespace Sys2Proof
open Claims

/-- A word is the word of an instruction but for the bits that decoding ignores. -/
def Encodes (i : Instr) (w : Nat) : Prop :=
  i.wf = true ∧ ∃ v, encode i = some v ∧ v = w - (w &&& ignoredBits i)

theorem encodes_of {i : Instr} {w v : Nat} (hwf : i.wf = true) (he : encode i = some v) (hi : ignoredBits i = 0)
    (hv : v = w) : Encodes i w := by
  refine ⟨hwf, v, he, ?_⟩
  rw [hi, Nat.and_zero, hv]; rfl

/-- Four bits of a word, in place. -/
theorem and_nibble (w k : Nat) : w &&& 15 <<< k = w / 2 ^ k % 16 * 2 ^ k := by
  rw [← Nat.shiftLeft_eq, ← Nat.shiftRight_eq_div_pow]
  have h15 : (w >>> k) % 16 = w >>> k &&& 15 := (Nat.and_two_pow_sub_one_eq_mod _ 4).symm
  rw [h15, Nat.shiftLeft_and_distrib]
  apply Nat.eq_of_testBit_eq
  intro j
  simp only [Nat.testBit_and, Nat.testBit_shiftLeft, Nat.testBit_shiftRight]
  by_cases hj : k ≤ j
  · simp [hj]
  · simp [hj]

theorem CC.integer_of_code_lt {x : CC} (h : x.code < 8) : x.integer = true := by revert h; cases x <;> decide
theorem CC.waits_of_code_lt {x : CC} (h : x.code < 6) : x.waits = true := by revert h; cases x <;> decide

theorem atomSpOf_lt {c : Nat} (h : c < 4) : (atomSpOf c).code = c := by interval_cases c <;> rfl
theorem cacheOf_lt {c : Nat} (h : c < 4) : (cacheOf c).code = c := by interval_cases c <;> rfl
@[simp] theorem bytesFields_mod (op d a b : Nat) : (bytesFields op d a b).mod = d % 16 := rfl

/-! ### What the shared decoders accept -/

theorem decT3_eq_ok {k : Operand → Operand → Operand → Instr} {f : Fields} {i : Instr} :
    decT3 k f = .ok i ↔ ∃ d a b, (d.wf = true ∧ d.code = f.d) ∧ (a.wf = true ∧ a.code = f.a) ∧
      (b.wf = true ∧ b.code = f.b) ∧ k d a b = i := by
  simp only [decT3, bind_eq_ok, operandOf_eq_ok, pure_eq_ok, Except.ok.injEq, exists_and_left]

theorem decT2_eq_ok {k : Operand → Operand → Instr} {f : Fields} {i : Instr} :
    decT2 k f = .ok i ↔ ∃ d a, (d.wf = true ∧ d.code = f.d) ∧ (a.wf = true ∧ a.code = f.a) ∧ f.b = 0 ∧ k d a = i := by
  simp [decT2, bind_eq_ok, operandOf_eq_ok, res_eq_ok]

theorem decI_eq_ok {k : Operand → Nat → Instr} {f : Fields} {i : Instr} :
    decI k f = .ok i ↔ ∃ d, (d.wf = true ∧ d.code = f.d) ∧ k d f.imm = i := by
  simp [decI, bind_eq_ok, operandOf_eq_ok]

theorem decIShift_eq_ok {k : Operand → Nat → Instr} {f : Fields} {i : Instr} :
    decIShift k f = .ok i ↔ ∃ d, (d.wf = true ∧ d.code = f.d) ∧ f.imm / 128 = 0 ∧ k d f.imm = i := by
  simp only [decIShift, bind_eq_ok, operandOf_eq_ok, res_eq_ok, pure_eq_ok, Except.ok.injEq, exists_and_left, exists_const]

theorem decL_eq_ok {max : Nat} {k : Nat → Operand → Operand → Instr} {f : Fields} {i : Instr} :
    decL max k f = .ok i ↔ f.look < max ∧ ∃ d a, (d.wf = true ∧ d.code = f.a) ∧ (a.wf = true ∧ a.code = f.b) ∧
      k f.look d a = i := by
  simp [decL, bind_eq_ok, operandOf_eq_ok, check_eq_ok]

theorem decL0_eq_ok {max : Nat} {k : Nat → Operand → Operand → Instr} {f : Fields} {i : Instr} :
    decL0 max k f = .ok i ↔ f.mod = 0 ∧ decL max k f = .ok i := by
  simp [decL0, bind_eq_ok, res_eq_ok]

theorem decLa_eq_ok {max : Nat} {k : Nat → Operand → Instr} {f : Fields} {i : Instr} :
    decLa max k f = .ok i ↔ f.look < max ∧ f.a = 0 ∧ ∃ a, (a.wf = true ∧ a.code = f.b) ∧ k f.look a = i := by
  simp [decLa, bind_eq_ok, operandOf_eq_ok, check_eq_ok, res_eq_ok]

/-! ### Each decoder's word -/

theorem decT3_encodes {k : Operand → Operand → Operand → Instr} {n op d a b : Nat} {i : Instr}
    (h : decT3 k (bytesFields op d a b) = .ok i) (hw : ∀ x y z, (k x y z).wf = op3 x y z)
    (he : ∀ x y z, encode (k x y z) = some (encT3 n x y z)) (hi : ∀ x y z, ignoredBits (k x y z) = 0) (hn : n = op) :
    Encodes i (encT op d a b) := by
  obtain ⟨x, y, z, ⟨hx, rfl⟩, ⟨hy, rfl⟩, ⟨hz, rfl⟩, rfl⟩ := decT3_eq_ok.mp h
  exact encodes_of (by rw [hw, op3, hx, hy, hz]; rfl) (he x y z) (hi x y z) (by rw [hn]; rfl)

theorem decT2_encodes {k : Operand → Operand → Instr} {n op d a b : Nat} {i : Instr}
    (h : decT2 k (bytesFields op d a b) = .ok i) (hw : ∀ x y, (k x y).wf = op2 x y)
    (he : ∀ x y, encode (k x y) = some (encT2 n x y)) (hi : ∀ x y, ignoredBits (k x y) = 0) (hn : n = op) :
    Encodes i (encT op d a b) := by
  obtain ⟨x, y, ⟨hx, rfl⟩, ⟨hy, rfl⟩, hb, rfl⟩ := decT2_eq_ok.mp h
  exact encodes_of (by rw [hw, op2, hx, hy]; rfl) (he x y) (hi x y) (by rw [hn, show b = 0 from hb]; rfl)

theorem decI_encodes {k : Operand → Nat → Instr} {n op d a b : Nat} {i : Instr} (hab : a < 256 ∧ b < 256)
    (h : decI k (bytesFields op d a b) = .ok i) (hw : ∀ x m, (k x m).wf = (x.wf && decide (m < 65536)))
    (he : ∀ x m, encode (k x m) = some (encI n x m)) (hi : ∀ x m, ignoredBits (k x m) = 0) (hn : n = op) :
    Encodes i (encT op d a b) := by
  obtain ⟨x, ⟨hx, rfl⟩, rfl⟩ := decI_eq_ok.mp h
  refine encodes_of ?_ (he _ _) (hi _ _) ?_
  · rw [hw, hx, Bool.true_and, decide_eq_true_eq]; unfold bytesFields; dsimp only; omega
  · rw [hn]; unfold encI encT bytesFields; dsimp only; omega

theorem decIShift_encodes {k : Operand → Nat → Instr} {n op d a b : Nat} {i : Instr}
    (h : decIShift k (bytesFields op d a b) = .ok i) (hw : ∀ x m, (k x m).wf = (x.wf && decide (m < 128)))
    (he : ∀ x m, encode (k x m) = some (encI n x m)) (hi : ∀ x m, ignoredBits (k x m) = 0) (hn : n = op) :
    Encodes i (encT op d a b) := by
  obtain ⟨x, ⟨hx, rfl⟩, hm, rfl⟩ := decIShift_eq_ok.mp h
  refine encodes_of ?_ (he _ _) (hi _ _) ?_
  · rw [hw, hx]; simp; omega
  · rw [hn]; unfold encI encT bytesFields; dsimp only; omega

theorem decL_encodes {max n op d a b m : Nat} {k : Nat → Operand → Operand → Instr} {i : Instr}
    (h : decL max k (bytesFields op d a b) = .ok i)
    (hw : ∀ l x y, l < max → op2 x y = true → (k l x y).wf = true)
    (he : ∀ l x y, encode (k l x y) = some (encLo n l m x y)) (hi : ∀ l x y, ignoredBits (k l x y) = 0)
    (hm : m = d % 16) (hn : n = op) : Encodes i (encT op d a b) := by
  obtain ⟨hl, x, y, ⟨hx, rfl⟩, ⟨hy, rfl⟩, rfl⟩ := decL_eq_ok.mp h
  refine encodes_of (hw _ _ _ hl (by rw [op2, hx, hy]; rfl)) (he _ _ _) (hi _ _ _) ?_
  rw [hn, hm]; unfold encLo encL encT bytesFields; dsimp only; omega

theorem decL0_encodes {max n op d a b : Nat} {k : Nat → Operand → Operand → Instr} {i : Instr}
    (h : decL0 max k (bytesFields op d a b) = .ok i)
    (hw : ∀ l x y, l < max → op2 x y = true → (k l x y).wf = true)
    (he : ∀ l x y, encode (k l x y) = some (encLo n l 0 x y)) (hi : ∀ l x y, ignoredBits (k l x y) = 0)
    (hn : n = op) : Encodes i (encT op d a b) := by
  obtain ⟨hm, h⟩ := decL0_eq_ok.mp h
  exact decL_encodes h hw he hi hm.symm hn

theorem decLa_encodes {max n op d a b m : Nat} {k : Nat → Operand → Instr} {i : Instr}
    (h : decLa max k (bytesFields op d a b) = .ok i)
    (hw : ∀ l x, l < max → x.wf = true → (k l x).wf = true)
    (he : ∀ l x, encode (k l x) = some (encL n l m 0 x.code)) (hi : ∀ l x, ignoredBits (k l x) = 0)
    (hm : m = d % 16) (hn : n = op) : Encodes i (encT op d a b) := by
  obtain ⟨hl, ha, x, ⟨hx, rfl⟩, rfl⟩ := decLa_eq_ok.mp h
  refine encodes_of (hw _ _ hl hx) (he _ _) (hi _ _) ?_
  rw [hn, hm, show a = 0 from ha]; unfold encL encT bytesFields; dsimp only; omega

/-! ### The rows of the opcode table -/

theorem decRow1_encodes {op d a b : Nat} {i : Instr} (ho : op / 16 = 1)
    (h : decRow1 (bytesFields op d a b) = .ok i) : Encodes i (encT op d a b) := by
  unfold decRow1 at h
  simp only [bytesFields_op] at h
  split at h
  case h_16 =>
    simp only [imp_false] at *
    exact decT3_encodes h (fun _ _ _ => rfl) (fun _ _ _ => rfl) (fun _ _ _ => rfl) (by omega)
  all_goals exact decT3_encodes h (fun _ _ _ => rfl) (fun _ _ _ => rfl) (fun _ _ _ => rfl) (by omega)

theorem decRow2_encodes {op d a b : Nat} {i : Instr} (ho : op / 16 = 2)
    (h : decRow2 (bytesFields op d a b) = .ok i) : Encodes i (encT op d a b) := by
  unfold decRow2 at h
  simp only [bytesFields_op] at h
  split at h
  case h_1 | h_2 | h_3 => exact decT2_encodes h (fun _ _ => rfl) (fun _ _ => rfl) (fun _ _ => rfl) (by omega)
  case h_12 => cases h
  all_goals exact decT3_encodes h (fun _ _ _ => rfl) (fun _ _ _ => rfl) (fun _ _ _ => rfl) (by omega)

theorem decRow3_encodes {op d a b : Nat} {i : Instr} (ho : op / 16 = 3)
    (h : decRow3 (bytesFields op d a b) = .ok i) : Encodes i (encT op d a b) := by
  unfold decRow3 at h
  simp only [bytesFields_op] at h
  split at h
  case h_7 | h_8 | h_9 | h_10 => exact decT2_encodes h (fun _ _ => rfl) (fun _ _ => rfl) (fun _ _ => rfl) (by omega)
  case h_15 => cases h
  all_goals exact decT3_encodes h (fun _ _ _ => rfl) (fun _ _ _ => rfl) (fun _ _ _ => rfl) (by omega)

theorem decRow4_encodes {op d a b : Nat} {i : Instr} (ho : op / 16 = 4)
    (h : decRow4 (bytesFields op d a b) = .ok i) : Encodes i (encT op d a b) := by
  unfold decRow4 at h
  simp only [bytesFields_op] at h
  split at h
  case h_1 =>
    simp only [bind_eq_ok, res_eq_ok, need_eq_ok, tyOf_eq_some, operandOf_eq_ok, pure_eq_ok, Except.ok.injEq] at h
    obtain ⟨_, _, ty, rfl, x, ⟨hx, rfl⟩, y, ⟨hy, rfl⟩, rfl⟩ := h
    exact encodes_of (by change op2 _ _ = true; simp [op2, hx, hy]) rfl rfl (by rw [show op = 64 by omega])
  case h_12 => exact decT2_encodes h (fun _ _ => rfl) (fun _ _ => rfl) (fun _ _ => rfl) (by omega)
  case h_16 => cases h
  all_goals exact decT3_encodes h (fun _ _ _ => rfl) (fun _ _ _ => rfl) (fun _ _ _ => rfl) (by omega)


theorem decRow5_encodes {op d a b : Nat} {i : Instr} (ho : op / 16 = 5) (hd : d < 256) (ha : a < 256) (hb : b < 256)
    (h : decRow5 (bytesFields op d a b) = .ok i) : Encodes i (encT op d a b) := by
  unfold decRow5 at h
  simp only [bytesFields_op] at h
  split at h
  case h_1 =>
    simp only [bind_eq_ok, need_eq_ok, ccOf_eq_some, operandOf_eq_ok, pure_eq_ok, Except.ok.injEq, bytesFields] at h
    obtain ⟨cc, hc, x, ⟨hx, rfl⟩, y, ⟨hy, rfl⟩, rfl⟩ := h
    exact encodes_of (by change (_ && _) = true; simp [op2, hx, hy, Nat.mod_lt]) rfl rfl (by unfold encT; omega)
  case h_2 =>
    simp only [bind_eq_ok, check_eq_ok, need_eq_ok, ccOf_eq_some, operandOf_eq_ok, pure_eq_ok, Except.ok.injEq,
      decide_eq_true_eq] at h
    dsimp only [bytesFields] at h
    obtain ⟨_, hl, cc, hc, x, ⟨hx, rfl⟩, y, ⟨hy, rfl⟩, rfl⟩ := h
    exact encodes_of (by change (_ && _) = true; simp [op2, hx, hy, Nat.mod_lt, CC.integer_of_code_lt (hc ▸ hl)]) rfl rfl
      (by unfold encT; omega)
  case h_3 =>
    cases h
    refine encodes_of ?_ rfl rfl (by unfold encT bytesFields; dsimp only; omega)
    change (_ && _) = true
    simp only [Bool.and_eq_true, decide_eq_true_eq]
    unfold bytesFields; dsimp only; omega
  case h_5 =>
    simp only [bind_eq_ok, res_eq_ok, operandOf_eq_ok, pure_eq_ok, Except.ok.injEq, bytesFields] at h
    obtain ⟨_, h0, x, ⟨hx, rfl⟩, y, ⟨hy, rfl⟩, rfl⟩ := h
    exact encodes_of (by change (_ && _) = true; simp [op2, hx, hy, Nat.mod_lt]) rfl rfl (by unfold encT; omega)
  case h_10 =>
    simp only [bind_eq_ok, res_eq_ok] at h
    obtain ⟨_, h0, h⟩ := h
    have hm : ((bytesFields op d a b).mod % 2 == 1).toNat = d % 16 := by
      rw [toNat_beq_one (Nat.mod_lt _ (by decide))]; unfold bytesFields at *; dsimp only at *; omega
    exact decL_encodes h (fun l x y hl hx => by change (_ && _) = true; simp [look14, hl, hx]) (fun _ _ _ => rfl) (fun _ _ _ => rfl) hm (by omega)
  case h_11 =>
    simp only [bind_eq_ok, res_eq_ok, need_eq_ok, scanOf_eq_some, operandOf_eq_ok, pure_eq_ok, Except.ok.injEq,
      bytesFields] at h
    obtain ⟨_, _, o, rfl, x, ⟨hx, rfl⟩, y, ⟨hy, rfl⟩, rfl⟩ := h
    exact encodes_of (by change op2 _ _ = true; simp [op2, hx, hy]) rfl rfl (by unfold encT; omega)
  case h_12 | h_14 => exact decT2_encodes h (fun _ _ => rfl) (fun _ _ => rfl) (fun _ _ => rfl) (by omega)
  case h_15 =>
    simp only [bind_eq_ok, res_eq_ok, operandOf_eq_ok, pure_eq_ok, Except.ok.injEq, bytesFields] at h
    obtain ⟨_, rfl, x, ⟨hx, rfl⟩, rfl⟩ := h
    exact encodes_of (by change (_ && _) = true; simp [hx, ha]) rfl rfl (by unfold encT; omega)
  case h_16 =>
    simp only [bind_eq_ok, res_eq_ok, operandOf_eq_ok, pure_eq_ok, Except.ok.injEq, bytesFields, imp_false] at *
    obtain ⟨_, rfl, x, ⟨hx, rfl⟩, rfl⟩ := h
    exact encodes_of (by change (_ && _) = true; simp [hx, hd]) rfl rfl (by unfold encT; omega)
  all_goals exact decT3_encodes h (fun _ _ _ => rfl) (fun _ _ _ => rfl) (fun _ _ _ => rfl) (by omega)

theorem decRow6_encodes {op d a b : Nat} {i : Instr} (ho : op / 16 = 6) (ha : a < 256) (hb : b < 256)
    (h : decRow6 (bytesFields op d a b) = .ok i) : Encodes i (encT op d a b) := by
  unfold decRow6 at h
  simp only [bytesFields_op] at h
  split at h
  case h_7 | h_8 | h_9 => exact decIShift_encodes h (fun _ _ => rfl) (fun _ _ => rfl) (fun _ _ => rfl) (by omega)
  case h_11 =>
    simp only [bind_eq_ok, check_eq_ok, need_eq_ok, ccOf_eq_some, operandOf_eq_ok, pure_eq_ok, Except.ok.injEq,
      decide_eq_true_eq] at h
    dsimp only [bytesFields] at h
    obtain ⟨_, hl, cc, hc, x, ⟨hx, rfl⟩, rfl⟩ := h
    exact encodes_of (by change (_ && _) = true; simp [hx, hb, Nat.mod_lt, CC.integer_of_code_lt (hc ▸ hl)]) rfl rfl (by unfold encT; omega)
  case h_12 =>
    simp only [bind_eq_ok, res_eq_ok, pure_eq_ok, Except.ok.injEq, bytesFields] at h
    obtain ⟨_, rfl, _, rfl, rfl⟩ := h
    exact encodes_of (by exact decide_eq_true hb) rfl rfl (by unfold encT; omega)
  case h_13 => cases h
  all_goals exact decI_encodes ⟨ha, hb⟩ h (fun _ _ => rfl) (fun _ _ => rfl) (fun _ _ => rfl) (by omega)

theorem decRow7_encodes {op d a b : Nat} {i : Instr} (ho : op / 16 = 7)
    (h : decRow7 (bytesFields op d a b) = .ok i) : Encodes i (encT op d a b) := by
  unfold decRow7 at h
  simp only [bytesFields_op] at h
  split at h
  case h_13 => cases h
  all_goals exact decL0_encodes h (fun l x y hl hx => by change (_ && _) = true; simp [look14, hl, hx]) (fun _ _ _ => rfl) (fun _ _ _ => rfl) (by omega)

theorem decRow8_encodes {op d a b : Nat} {i : Instr} (ho : op / 16 = 8)
    (h : decRow8 (bytesFields op d a b) = .ok i) : Encodes i (encT op d a b) := by
  unfold decRow8 at h
  simp only [bytesFields_op] at h
  split at h
  case h_6 => cases h
  all_goals exact decL_encodes h (fun l x y hl hx => by change (_ && _) = true; simp [look15, bytesFields, hl, hx, Nat.mod_lt]) (fun _ _ _ => rfl) (fun _ _ _ => rfl) rfl (by omega)

theorem decAtom_encodes {n op d a b : Nat} {host : Bool} {k : Nat → Bool → Bool → AtomSp → Operand → Operand → Instr}
    {i : Instr} (h : decAtom host k (bytesFields op d a b) = .ok i)
    (hw : ∀ l q r sp x y, l < 16 → (host = true ∨ sp ≠ .host) → op2 x y = true → (k l q r sp x y).wf = true)
    (he : ∀ l q r sp x y, encode (k l q r sp x y) = some (encAtom n l q r sp x y))
    (hi : ∀ l q r sp x y, ignoredBits (k l q r sp x y) = 0) (hn : n = op) : Encodes i (encT op d a b) := by
  simp only [decAtom, bind_eq_ok, check_eq_ok, operandOf_eq_ok, pure_eq_ok, Except.ok.injEq, decide_eq_true_eq,
    Bool.or_eq_true] at h
  dsimp only [bytesFields] at h
  obtain ⟨_, hl, _, hs, x, ⟨hx, rfl⟩, y, ⟨hy, rfl⟩, rfl⟩ := h
  have hsp : (atomSpOf (d % 16 % 4)).code = d % 16 % 4 := atomSpOf_lt (Nat.mod_lt _ (by decide))
  refine encodes_of (hw _ _ _ _ _ _ hl ?_ (by rw [op2, hx, hy]; rfl)) (he _ _ _ _ _ _) (hi _ _ _ _ _ _) ?_
  · refine hs.imp_right fun hne e => hne ?_
    rw [← hsp, e]; rfl
  · have h1 : (d % 16 / 4 % 2 == 1).toNat = d % 16 / 4 % 2 := toNat_beq_one (by omega)
    have h2 : (d % 16 / 8 == 1).toNat = d % 16 / 8 := toNat_beq_one (by omega)
    rw [hn]; unfold encAtom encLo encL encT; rw [hsp, h1, h2]; omega

theorem decBar_encodes {n op d a b : Nat} {k : Nat → Option Nat → Operand → Instr}
    {i : Instr} (h : decBar 16 k (bytesFields op d a b) = .ok i)
    (hw : ∀ l bar x, (k l bar x).wf = (look15 l && barWf bar && x.wf))
    (he : ∀ l bar x, encode (k l bar x) = some (encBar n l bar x))
    (hi : ∀ l x, ignoredBits (k l none x) = 0xF0000) (hi' : ∀ l m x, ignoredBits (k l (some m) x) = 0) (hn : n = op) :
    Encodes i (encT op d a b) := by
  simp only [decBar, bind_eq_ok, check_eq_ok, res_eq_ok, operandOf_eq_ok, pure_eq_ok, Except.ok.injEq, decide_eq_true_eq] at h
  obtain ⟨_, hl, _, ha, x, ⟨hx, rfl⟩, rfl⟩ := h
  split
  · next h1 =>
    dsimp only [bytesFields] at *
    refine encodes_of (by rw [hw]; simp [look15, barWf, hl, hx, Nat.mod_lt]) (he _ _ _) (hi' _ _ _) ?_
    rw [hn, h1]; unfold encBar encL encT; dsimp only; omega
  · next h1 =>
    dsimp only [bytesFields] at *
    refine ⟨by rw [hw]; simp [look15, barWf, hl, hx], _, he _ _ _, ?_⟩
    rw [hi, show 0xF0000 = 15 <<< 16 from rfl, and_nibble, hn, show a = 0 by omega]
    unfold encBar encL encT; dsimp only
    have := Operand.code_lt hx
    omega

theorem decTile_encodes {n op d a b : Nat} {k : Nat → Nat → Bool → Bool → Bool → Option Nat → Operand → Instr}
    {i : Instr} (ha : a < 256) (h : decTile k (bytesFields op d a b) = .ok i)
    (hw : ∀ l m x y z bar w, (k l m x y z bar w).wf = (look15 l && decide (m < 16) && barWf bar && w.wf))
    (he : ∀ l m x y z bar w, encode (k l m x y z bar w) = some (encTile n l m x y z bar w))
    (hi : ∀ l m x y z w, ignoredBits (k l m x y z none w) = 0xF000)
    (hi' : ∀ l m x y z j w, ignoredBits (k l m x y z (some j) w) = 0) (hn : n = op) :
    Encodes i (encT op d a b) := by
  simp only [decTile, bind_eq_ok, check_eq_ok, operandOf_eq_ok, pure_eq_ok, Except.ok.injEq, decide_eq_true_eq] at h
  obtain ⟨_, hl, x, ⟨hx, rfl⟩, rfl⟩ := h
  have h0 : (a % 2 == 1).toNat = a % 2 := toNat_beq_one (by omega)
  have h1 : (a / 2 % 2 == 1).toNat = a / 2 % 2 := toNat_beq_one (by omega)
  have h2 : (a / 4 % 2 == 1).toNat = a / 4 % 2 := toNat_beq_one (by omega)
  have := Operand.code_lt hx
  split
  · next h3 =>
    dsimp only [bytesFields] at *
    refine encodes_of (by rw [hw]; simp [look15, barWf, hl, hx, Nat.mod_lt]; omega) (he _ _ _ _ _ _ _) (hi' _ _ _ _ _ _ _) ?_
    rw [hn]; unfold encTile encL encT; dsimp only; rw [h0, h1, h2]; omega
  · next h3 =>
    dsimp only [bytesFields] at *
    refine ⟨by rw [hw]; simp [look15, barWf, hl, hx, Nat.mod_lt], _, he _ _ _ _ _ _ _, ?_⟩
    rw [hi, show 0xF000 = 15 <<< 12 from rfl, and_nibble, hn]
    unfold encTile encL encT; dsimp only; rw [h0, h1, h2]
    omega

theorem decRow0_encodes {op d a b : Nat} {i : Instr} (ho : op / 16 = 0) (hd : d < 256) (ha : a < 256) (hb : b < 256)
    (h : decRow0 (bytesFields op d a b) = .ok i) : Encodes i (encT op d a b) := by
  unfold decRow0 at h
  simp only [bytesFields_op] at h
  split at h
  case h_1 | h_5 | h_8 | h_10 =>
    simp only [bind_eq_ok, res_eq_ok, pure_eq_ok, Except.ok.injEq, bytesFields] at h
    obtain ⟨_, hp, rfl⟩ := h
    exact encodes_of rfl rfl rfl (by unfold encM encT; omega)
  case h_2 =>
    simp only [bind_eq_ok, pure_eq_ok, Except.ok.injEq, bytesFields] at h
    obtain ⟨g, hg, rfl⟩ := h
    obtain ⟨hw, hc⟩ := (gmOf_eq_ok (by omega)).mp hg
    exact encodes_of hw rfl rfl (by unfold encM encT; omega)
  case h_3 | h_4 | h_11 =>
    cases h
    have ho := offWf_offOf (o := (bytesFields op d a b).off) (by unfold bytesFields; dsimp only; omega)
    refine encodes_of ?_ rfl rfl ?_
    · change (_ && _) = true
      simp only [ho.1, Bool.and_true, decide_eq_true_eq]
      unfold bytesFields; dsimp only; omega
    · unfold encJ; rw [ho.2]; unfold encT bytesFields; dsimp only; omega
  case h_6 =>
    simp only [bind_eq_ok, check_eq_ok, pure_eq_ok, Except.ok.injEq, decide_eq_true_eq] at h
    obtain ⟨_, hc, rfl⟩ := h
    have ho := offWf_offOf (o := (bytesFields op d a b).off) (by unfold bytesFields; dsimp only; omega)
    refine encodes_of ?_ rfl rfl ?_
    · change (_ && _) = true
      simp only [ho.1, hc, decide_true, Bool.and_true]
    · unfold encJ; rw [ho.2]; unfold encT bytesFields; dsimp only; omega
  case h_7 =>
    simp only [bind_eq_ok, res_eq_ok, check_eq_ok, operandOf_eq_ok, pure_eq_ok, Except.ok.injEq, decide_eq_true_eq] at h
    dsimp only [bytesFields] at h
    obtain ⟨_, rfl, _, _, _, hc, x, ⟨hx, rfl⟩, rfl⟩ := h
    exact encodes_of (by change (_ && _) = true; simp [hx, hc]) rfl rfl (by unfold encT; omega)
  case h_9 =>
    simp only [bind_eq_ok, res_eq_ok, operandOf_eq_ok, pure_eq_ok, Except.ok.injEq, bytesFields] at h
    obtain ⟨_, rfl, _, rfl, x, ⟨hx, rfl⟩, rfl⟩ := h
    exact encodes_of hx rfl rfl (by unfold encT; omega)
  case h_12 =>
    simp only [bind_eq_ok, res_eq_ok, check_eq_ok, need_eq_ok, ccOf_eq_some, operandOf_eq_ok, pure_eq_ok, Except.ok.injEq,
      decide_eq_true_eq] at h
    dsimp only [bytesFields] at h
    obtain ⟨_, hl, _, hm, cc, hc, x, ⟨hx, rfl⟩, y, ⟨hy, rfl⟩, rfl⟩ := h
    have hq : (d % 16 / 8 == 1).toNat = d % 16 / 8 := toNat_beq_one (by omega)
    refine encodes_of (by change (_ && _) = true; simp [op2, hx, hy, CC.waits_of_code_lt (hc ▸ hm)]) rfl rfl ?_
    unfold encLo encL encT; rw [hc, hq]; omega
  case h_13 =>
    cases h
    refine encodes_of ?_ rfl rfl (by unfold encM encT bytesFields; dsimp only; omega)
    change decide _ = true
    simp only [decide_eq_true_eq]
    unfold bytesFields; dsimp only; omega
  case h_14 | h_15 =>
    simp only [bind_eq_ok, res_eq_ok, pure_eq_ok, Except.ok.injEq, bytesFields] at h
    obtain ⟨_, hp, rfl⟩ := h
    exact encodes_of (by apply decide_eq_true; omega) rfl rfl (by unfold encM encT; omega)
  case h_16 => cases h

theorem loadOrd_eq_ok {m : Nat} {q : Bool} : loadOrd m = .ok q ↔ q.toNat = m := by
  unfold loadOrd
  cases q <;> (repeat' split) <;> simp <;> omega
theorem storeOrd_eq_ok {m : Nat} {q : Bool} : storeOrd m = .ok q ↔ 2 * q.toNat = m := by
  unfold storeOrd
  cases q <;> (repeat' split) <;> simp <;> omega

theorem decRow9_encodes {op d a b : Nat} {i : Instr} (ho : op / 16 = 9)
    (h : decRow9 (bytesFields op d a b) = .ok i) : Encodes i (encT op d a b) := by
  unfold decRow9 at h
  simp only [bytesFields_op, bytesFields_mod] at h
  have hc : (cacheOf (d % 16 % 4)).code = d % 16 % 4 := cacheOf_lt (Nat.mod_lt _ (by decide))
  split at h
  case h_1 =>
    simp only [bind_eq_ok, loadOrd_eq_ok] at h
    obtain ⟨q, hq, h⟩ := h
    exact decL_encodes h (fun l x y hl hx => by change (_ && _) = true; simp [look15, hl, hx]) (fun _ _ _ => rfl) (fun _ _ _ => rfl)
      (by omega) (by omega)
  case h_2 =>
    simp only [bind_eq_ok, storeOrd_eq_ok, check_eq_ok] at h
    obtain ⟨q, hq, _, hs, h⟩ := h
    have hr : cacheOf (d % 16 % 4) ≠ .replicate := fun e => of_decide_eq_true hs (by rw [← hc, e]; rfl)
    exact decL_encodes h (fun l x y hl hx => by change (_ && _) = true; simp [look15, hl, hx]; simpa using hr) (fun _ _ _ => rfl) (fun _ _ _ => rfl)
      (by omega) (by omega)
  case h_3 =>
    simp only [bind_eq_ok, res_eq_ok, check_eq_ok] at h
    obtain ⟨_, _, _, hm, h⟩ := h
    exact decLa_encodes h (fun l x hl hx => by change (_ && _) = true; simp [look15, hl, hx, of_decide_eq_true hm]) (fun _ _ => rfl) (fun _ _ => rfl)
      rfl (by omega)
  case h_4 =>
    simp only [bind_eq_ok, need_eq_ok, cctlOf_eq_some] at h
    obtain ⟨o, hm, h⟩ := h
    exact decLa_encodes h (fun l x hl hx => by change (_ && _) = true; simp [look15, hl, hx]) (fun _ _ => rfl) (fun _ _ => rfl)
      hm (by omega)
  case h_5 => cases h

theorem decRowA_encodes {op d a b : Nat} {i : Instr} (ho : op / 16 = 10)
    (h : decRowA (bytesFields op d a b) = .ok i) : Encodes i (encT op d a b) := by
  unfold decRowA at h
  simp only [bytesFields_op, bytesFields_mod] at h
  have h0 : (d % 16 % 2 == 1).toNat = d % 16 % 2 := toNat_beq_one (by omega)
  have h1 : (d % 16 / 2 % 2 == 1).toNat = d % 16 / 2 % 2 := toNat_beq_one (by omega)
  split at h
  case h_1 =>
    simp only [bind_eq_ok, loadOrd_eq_ok, res_eq_ok] at h
    obtain ⟨q, hq, _, hz, h⟩ := h
    exact decL_encodes h (fun l x y hl hx => by change (_ && _) = true; simp [look15, hl, hx]) (fun _ _ _ => rfl) (fun _ _ _ => rfl)
      (by omega) (by omega)
  case h_2 =>
    simp only [bind_eq_ok, storeOrd_eq_ok, res_eq_ok] at h
    obtain ⟨q, hq, _, hz, h⟩ := h
    exact decL_encodes h (fun l x y hl hx => by change (_ && _) = true; simp [look15, hl, hx]) (fun _ _ _ => rfl) (fun _ _ _ => rfl)
      (by omega) (by omega)
  case h_3 =>
    simp only [bind_eq_ok, loadOrd_eq_ok] at h
    obtain ⟨q, hq, h⟩ := h
    exact decL_encodes h (fun l x y hl hx => by change (_ && _) = true; simp [look15, hl, hx]) (fun _ _ _ => rfl) (fun _ _ _ => rfl)
      (by omega) (by omega)
  case h_4 =>
    simp only [bind_eq_ok, storeOrd_eq_ok] at h
    obtain ⟨q, hq, h⟩ := h
    exact decL_encodes h (fun l x y hl hx => by change (_ && _) = true; simp [look15, hl, hx]) (fun _ _ _ => rfl) (fun _ _ _ => rfl)
      (by omega) (by omega)
  case h_5 => cases h

theorem decRowB_encodes {op d a b : Nat} {i : Instr} (ho : op / 16 = 11)
    (h : decRowB (bytesFields op d a b) = .ok i) : Encodes i (encT op d a b) := by
  unfold decRowB at h
  simp only [bytesFields_op] at h
  split at h
  case h_12 => cases h
  all_goals
    exact decAtom_encodes h (fun l q r sp x y hl hs hx => by simp at hs; change (_ && _) = true; simp [look15, hl, hx, hs])
      (fun _ _ _ _ _ _ => rfl) (fun _ _ _ _ _ _ => rfl) (by omega)


theorem decRowC_encodes {op d a b : Nat} {i : Instr} (ho : op / 16 = 12) (hd : d < 256)
    (h : decRowC (bytesFields op d a b) = .ok i) : Encodes i (encT op d a b) := by
  unfold decRowC at h
  simp only [bytesFields_op] at h
  split at h
  case h_1 =>
    simp only [bind_eq_ok, check_eq_ok, res_eq_ok, decide_eq_true_eq] at h
    obtain ⟨_, hl, _, hm, _, hi, h⟩ := h
    repeat' split at h
    all_goals cases h
    all_goals
      dsimp only [bytesFields] at *
      refine encodes_of (by change look14 _ = true; simp [look14, hl]) rfl rfl ?_
      unfold encL encT FenceKind.code; dsimp only; omega
  case h_2 =>
    simp only [bind_eq_ok, check_eq_ok, res_eq_ok, decide_eq_true_eq] at h
    obtain ⟨_, hm, _, ha, _, hb, _, h0, h⟩ := h
    split at h
    · next h1 =>
      cases h
      dsimp only [bytesFields] at *
      refine encodes_of ?_ rfl rfl (by unfold encL encT; omega)
      change (_ && _) = true
      simp [look15, barWf]
      omega
    · next h1 =>
      simp only [bind_eq_ok, check_eq_ok, decide_eq_true_eq, pure_eq_ok, Except.ok.injEq] at h
      obtain ⟨_, hl, rfl⟩ := h
      dsimp only [bytesFields] at *
      refine ⟨by change (_ && _) = true; simp [look14, barWf]; omega, _, rfl, ?_⟩
      have hn := and_nibble (encT op d a b) 0
      have hi : ignoredBits (.qfence (d / 16) a none) = 15 <<< 0 := rfl
      rw [hi, hn]
      unfold encL encT; omega
  case h_3 | h_7 =>
    exact decLa_encodes h (fun l x hl hx => by change (_ && _) = true; simp [look14, hl, hx, Nat.mod_lt]) (fun _ _ => rfl) (fun _ _ => rfl)
      rfl (by omega)
  case h_4 =>
    exact decL_encodes h (fun l x y hl hx => by change (_ && _) = true; simp [look14, hl, hx, Nat.mod_lt]) (fun _ _ _ => rfl)
      (fun _ _ _ => rfl) rfl (by omega)
  case h_5 =>
    simp only [bind_eq_ok, check_eq_ok, res_eq_ok, operandOf_eq_ok, pure_eq_ok, Except.ok.injEq, decide_eq_true_eq] at h
    dsimp only [bytesFields] at h
    obtain ⟨_, hl, _, ha, x, ⟨hx, rfl⟩, rfl⟩ := h
    have hq : (a == 1).toNat = a := toNat_beq_one (by omega)
    refine encodes_of (by change (_ && _) = true; simp [hx, Nat.mod_lt]) rfl rfl ?_
    unfold encL encT; rw [hq]; omega
  case h_6 =>
    simp only [bind_eq_ok, check_eq_ok, res_eq_ok, operandOf_eq_ok, pure_eq_ok, Except.ok.injEq, decide_eq_true_eq] at h
    dsimp only [bytesFields] at h
    obtain ⟨_, hl, _, ha, x, ⟨hx, rfl⟩, rfl⟩ := h
    have hq : (a / 16 == 1).toNat = a / 16 := toNat_beq_one (by omega)
    refine encodes_of (by change (_ && _) = true; simp [hx, Nat.mod_lt]) rfl rfl ?_
    unfold encL encT; rw [hq]; omega
  case h_8 =>
    simp only [bind_eq_ok, check_eq_ok, res_eq_ok, operandOf_eq_ok, pure_eq_ok, Except.ok.injEq, decide_eq_true_eq] at h
    dsimp only [bytesFields] at h
    obtain ⟨_, hl, _, ha, x, ⟨hx, rfl⟩, rfl⟩ := h
    have hq : (a == 1).toNat = a := toNat_beq_one (by omega)
    refine encodes_of (by change (_ && _) = true; simp [look15, hl, hx, Nat.mod_lt]) rfl rfl ?_
    unfold encL encT; rw [hq]; omega
  case h_9 =>
    exact decLa_encodes h (fun l x hl hx => by change (_ && _) = true; simp [look15, hl, hx, Nat.mod_lt]) (fun _ _ => rfl) (fun _ _ => rfl)
      rfl (by omega)
  case h_10 =>
    simp only [bind_eq_ok, check_eq_ok, res_eq_ok, operandOf_eq_ok, pure_eq_ok, Except.ok.injEq, decide_eq_true_eq] at h
    dsimp only [bytesFields] at h
    obtain ⟨_, hl, _, hm, _, rfl, x, ⟨hx, rfl⟩, rfl⟩ := h
    exact encodes_of hx rfl rfl (by unfold encL encT; omega)
  case h_11 =>
    simp only [bind_eq_ok, res_eq_ok, pure_eq_ok, Except.ok.injEq, bytesFields] at h
    obtain ⟨_, hp, rfl⟩ := h
    exact encodes_of rfl rfl rfl (by unfold encM encT; omega)
  case h_12 =>
    exact decL0_encodes h (fun l x y hl hx => by change (_ && _) = true; simp [look14, hl, hx]) (fun _ _ _ => rfl) (fun _ _ _ => rfl) (by omega)
  case h_13 => cases h

theorem decRowD_encodes {op d a b : Nat} {i : Instr} (ho : op / 16 = 13) (ha : a < 256)
    (h : decRowD (bytesFields op d a b) = .ok i) : Encodes i (encT op d a b) := by
  unfold decRowD at h
  simp only [bytesFields_op] at h
  split at h
  case h_1 | h_7 =>
    exact decBar_encodes h (fun _ _ _ => rfl) (fun _ _ _ => rfl) (fun _ _ => rfl) (fun _ _ _ => rfl) (by omega)
  case h_2 | h_3 =>
    simp only [bind_eq_ok, check_eq_ok, res_eq_ok, pure_eq_ok, Except.ok.injEq, decide_eq_true_eq] at h
    dsimp only [bytesFields] at h
    obtain ⟨_, hl, _, hi, rfl⟩ := h
    exact encodes_of (by change (_ && _) = true; simp [look14, hl, Nat.mod_lt]) rfl rfl (by unfold encL encT; omega)
  case h_4 | h_5 =>
    exact decTile_encodes ha h (fun _ _ _ _ _ _ _ => rfl) (fun _ _ _ _ _ _ _ => rfl) (fun _ _ _ _ _ _ => rfl)
      (fun _ _ _ _ _ _ _ => rfl) (by omega)
  case h_6 =>
    simp only [bind_eq_ok, check_eq_ok, res_eq_ok, decide_eq_true_eq] at h
    obtain ⟨_, hl, _, ha, _, hb, h⟩ := h
    split at h
    · next h1 =>
      simp only [bind_eq_ok, res_eq_ok, pure_eq_ok, Except.ok.injEq] at h
      obtain ⟨_, hm, rfl⟩ := h
      dsimp only [bytesFields] at *
      exact encodes_of rfl rfl rfl (by unfold encL encT; omega)
    · next h1 =>
      cases h
      dsimp only [bytesFields] at *
      exact encodes_of (decide_eq_true (Nat.mod_lt d (by decide))) rfl rfl (by unfold encL encT; omega)
  case h_8 | h_10 =>
    exact decL0_encodes h (fun l x y hl hx => by change (_ && _) = true; simp [look14, hl, hx]) (fun _ _ _ => rfl) (fun _ _ _ => rfl) (by omega)
  case h_9 | h_11 =>
    simp only [bind_eq_ok, res_eq_ok] at h
    obtain ⟨_, hm, h⟩ := h
    exact decLa_encodes h (fun l x hl hx => by change (_ && _) = true; simp [look15, hl, hx]) (fun _ _ => rfl) (fun _ _ => rfl)
      hm.symm (by omega)
  case h_12 => cases h

theorem decRowE_encodes {op d a b : Nat} {i : Instr} (ho : op / 16 = 14)
    (h : decRowE (bytesFields op d a b) = .ok i) : Encodes i (encT op d a b) := by
  unfold decRowE at h
  simp only [bytesFields_op, bytesFields_mod] at h
  split at h
  case h_1 =>
    exact decL_encodes h (fun l x y hl hx => by change (_ && _) = true; simp [look15, hl, hx, Nat.mod_lt]) (fun _ _ _ => rfl)
      (fun _ _ _ => rfl) rfl (by omega)
  case h_2 =>
    simp only [bind_eq_ok, check_eq_ok, res_eq_ok, operandOf_eq_ok, pure_eq_ok, Except.ok.injEq, decide_eq_true_eq] at h
    dsimp only [bytesFields] at h
    obtain ⟨_, hl, _, ha, x, ⟨hx, rfl⟩, rfl⟩ := h
    refine encodes_of ?_ rfl rfl (by unfold encL encT; omega)
    change (_ && _) = true
    simp [look15, hl, hx, Nat.mod_lt]
    omega
  case h_3 | h_10 =>
    exact decL0_encodes h (fun l x y hl hx => by change (_ && _) = true; simp [look14, hl, hx]) (fun _ _ _ => rfl) (fun _ _ _ => rfl) (by omega)
  case h_4 | h_5 | h_8 =>
    exact decL0_encodes h (fun l x y hl hx => by change (_ && _) = true; simp [look15, hl, hx]) (fun _ _ _ => rfl) (fun _ _ _ => rfl) (by omega)
  case h_6 | h_7 =>
    simp only [bind_eq_ok, res_eq_ok] at h
    obtain ⟨_, h0, h⟩ := h
    have hm : (d % 16 % 2 == 1).toNat = d % 16 := by rw [toNat_beq_one (by omega)]; omega
    exact decL_encodes h (fun l x y hl hx => by change (_ && _) = true; simp [look15, hl, hx]) (fun _ _ _ => rfl) (fun _ _ _ => rfl) hm (by omega)
  case h_9 =>
    exact decBar_encodes h (fun _ _ _ => rfl) (fun _ _ _ => rfl) (fun _ _ => rfl) (fun _ _ _ => rfl) (by omega)
  case h_11 =>
    refine decL_encodes h (fun l x y hl hx => ?_) (fun _ _ _ => rfl) (fun _ _ _ => rfl) (by omega) (by omega)
    change (_ && _) = true
    simp [look14, hl, hx, Nat.mod_lt]
    omega
  case h_12 =>
    simp only [bind_eq_ok, res_eq_ok] at h
    obtain ⟨_, h0, h⟩ := h
    have hm : (d % 16 / 4 % 2 == 1).toNat = d % 16 / 4 % 2 := toNat_beq_one (by omega)
    exact decL_encodes h (fun l x y hl hx => by change (_ && _) = true; simp [look14, hl, hx, Nat.mod_lt]) (fun _ _ _ => rfl)
      (fun _ _ _ => rfl) (by omega) (by omega)
  case h_13 => cases h

theorem decRowF_encodes {op d a b : Nat} {i : Instr} (ho : op / 16 = 15) (hd : d < 256) (ha : a < 256)
    (h : decRowF (bytesFields op d a b) = .ok i) : Encodes i (encT op d a b) := by
  unfold decRowF at h
  simp only [bytesFields_op] at h
  split at h
  case h_1 =>
    simp only [bind_eq_ok, check_eq_ok, res_eq_ok, operandOf_eq_ok, pure_eq_ok, Except.ok.injEq, decide_eq_true_eq] at h
    dsimp only [bytesFields] at h
    obtain ⟨_, hl, _, hm, _, ha, x, ⟨hx, rfl⟩, rfl⟩ := h
    refine encodes_of ?_ rfl rfl (by unfold encL encT; omega)
    change (_ && _) = true
    simp [look14, hl, hx]
    omega
  case h_2 =>
    simp only [bind_eq_ok, res_eq_ok, operandOf_eq_ok, pure_eq_ok, Except.ok.injEq, bytesFields] at h
    obtain ⟨_, rfl, x, ⟨hx, rfl⟩, rfl⟩ := h
    exact encodes_of (by change (_ && _) = true; simp [hx, ha]) rfl rfl (by unfold encT; omega)
  case h_3 =>
    simp only [bind_eq_ok, res_eq_ok, operandOf_eq_ok, pure_eq_ok, Except.ok.injEq, bytesFields] at h
    obtain ⟨_, rfl, x, ⟨hx, rfl⟩, rfl⟩ := h
    exact encodes_of (by change (_ && _) = true; simp [hx, hd]) rfl rfl (by unfold encT; omega)
  case h_4 =>
    simp only [bind_eq_ok, res_eq_ok, operandOf_eq_ok, pure_eq_ok, Except.ok.injEq, bytesFields] at h
    obtain ⟨_, hi, x, ⟨hx, rfl⟩, rfl⟩ := h
    exact encodes_of hx rfl rfl (by unfold encT; omega)
  case h_5 =>
    simp only [bind_eq_ok, res_eq_ok, operandOf_eq_ok, pure_eq_ok, Except.ok.injEq, bytesFields] at h
    obtain ⟨_, hi, x, ⟨hx, rfl⟩, y, ⟨hy, rfl⟩, rfl⟩ := h
    have hq : (d % 2 == 1).toNat = d % 2 := toNat_beq_one (by omega)
    refine encodes_of (by change op2 _ _ = true; simp [op2, hx, hy]) rfl rfl ?_
    unfold encT; rw [hq]; omega
  case h_6 =>
    simp only [bind_eq_ok, res_eq_ok, pure_eq_ok, Except.ok.injEq, bytesFields] at h
    obtain ⟨_, hi, rfl⟩ := h
    have hq : (65536 * d + 256 * a + b == 1).toNat = 65536 * d + 256 * a + b := toNat_beq_one (by omega)
    refine encodes_of rfl rfl rfl ?_
    unfold encM encT; rw [hq]; omega
  case h_7 => exact decT3_encodes h (fun _ _ _ => rfl) (fun _ _ _ => rfl) (fun _ _ _ => rfl) (by omega)
  case h_8 => cases h

theorem decodeFields_encodes {op d a b : Nat} {i : Instr} (ho : op < 256) (hd : d < 256) (ha : a < 256) (hb : b < 256)
    (h : decodeFields (bytesFields op d a b) = .ok i) : Encodes i (encT op d a b) := by
  unfold decodeFields at h
  simp only [bytesFields_op] at h
  split at h
  case h_1 e => exact decRow0_encodes e hd ha hb h
  case h_2 e => exact decRow1_encodes e h
  case h_3 e => exact decRow2_encodes e h
  case h_4 e => exact decRow3_encodes e h
  case h_5 e => exact decRow4_encodes e h
  case h_6 e => exact decRow5_encodes e hd ha hb h
  case h_7 e => exact decRow6_encodes e ha hb h
  case h_8 e => exact decRow7_encodes e h
  case h_9 e => exact decRow8_encodes e h
  case h_10 e => exact decRow9_encodes e h
  case h_11 e => exact decRowA_encodes e h
  case h_12 e => exact decRowB_encodes e h
  case h_13 e => exact decRowC_encodes e hd h
  case h_14 e => exact decRowD_encodes e ha h
  case h_15 e => exact decRowE_encodes e h
  case h_16 =>
    simp only [imp_false] at *
    exact decRowF_encodes (by omega) hd ha h

/-- Every word is the word of its four bytes. -/
theorem exists_bytes (w : Word) : ∃ op d a b, op < 256 ∧ d < 256 ∧ a < 256 ∧ b < 256 ∧ w.toNat = encT op d a b := by
  have := w.isLt
  refine ⟨w.toNat / 16777216, w.toNat / 65536 % 256, w.toNat / 256 % 256, w.toNat % 256, ?_⟩
  unfold encT
  omega

theorem decode_encodes {w : Word} {i : Instr} (h : decode w = .ok i) : Encodes i w.toNat := by
  obtain ⟨op, d, a, b, ho, hd, ha, hb, e⟩ := exists_bytes w
  have hw : w = BitVec.ofNat 32 (encT op d a b) := by rw [← e, BitVec.ofNat_toNat, BitVec.setWidth_eq]
  rw [e]
  rw [hw, decode_encT ho hd ha hb] at h
  exact decodeFields_encodes ho hd ha hb h

/-- Settles O57: `decode_encodes`, row by row of the opcode table. -/
theorem decodedWordsAreWellFormed : Obligations.DecodedWordsAreWellFormed := fun _ _ h => decode_encodes h

/-- Settles O55: the words are decoded by evaluation. -/
theorem specWordsDecode : Obligations.SpecWordsDecode :=
  ⟨rfl, rfl, rfl, rfl, rfl, rfl, rfl, rfl, ⟨_, rfl⟩, ⟨_, rfl⟩, ⟨_, rfl⟩⟩

end Sys2Proof
end

section
/-! PROOFS. Words at their issue (02 R35, R37, R49, R53): the path that issues, the checks in their order, the windows. -/

namespace Sys2Proof
open Machine Safety Claims

/-! ### The checks of 02 R49 -/

/-- Path p of group g of team t is at a word whose checks run: the path is valid, its register window resident, its
function-table bank not being loaded. -/
structure AtWord (s : State) (t g p : Nat) : Prop where
  cur : s.cur = some (t, g, p)
  listed : Listed s t g
  valid : (pathOf s t g p).valid = true
  resident : newBase (groupOf s t g) (pathOf s t g p) = (groupOf s t g).rb
  bank : bankStall s (teamOf s t) t g p (pathOf s t g p).gm = false

theorem atWord_of_issues {i : Instr} {s : State} {t g p : Nat} {all : Bool} (h : Issues i s t g p all) : AtWord s t g p :=
  ⟨h.cur, h.listed, h.valid, h.resident, h.bank⟩

theorem AtWord.issuing {s : State} {t g p : Nat} (h : AtWord s t g p) : issuing s = some (t, g, p) := by
  obtain ⟨T, G, hT, hG⟩ := h.listed
  have hv := h.valid
  rw [pathOf, groupOf_of_find hT hG] at hv
  simp only [Machine.issuing, h.cur, hT, hG]
  rw [if_pos hv]

section checks
variable {i : Instr} {chk : Team → Group → Path → Chk} {body : Iss → Eff} {s : State} {t g p : Nat} {k : Chk}

theorem issueWord_atWord (h : AtWord s t g p) : issueWord i chk body s = .next (issueHere i chk body s t g p) := by
  have hr : makeResident s t g p = .ok s := if_pos h.resident
  simp only [issueWord, h.issuing, h.bank, hr, Bool.false_eq_true, if_false]

variable (hk : chk (teamOf s t) (groupOf s t g) (pathOf s t g p) = k)
include hk

theorem issueHere_illegal
    (h : k.illegal = true ∨ ((teamOf s t).ctl = true ∧ ctlIllegal ((encode i).getD 0 / 2 ^ 24) = true)) :
    issueHere i chk body s t g p =
      trapHere s t g p .illegalInstruction (pathOf s t g p).mask 0 0 ((encode i).getD 0) := by
  subst hk
  unfold issueHere
  exact if_pos (by simpa using h)

variable (hi : ¬(k.illegal = true ∨ ((teamOf s t).ctl = true ∧ ctlIllegal ((encode i).getD 0 / 2 ^ 24) = true)))
include hi

theorem issueHere_operand (h : k.opBad = true ∨ usesBad k.uses = true) :
    issueHere i chk body s t g p =
      trapHere s t g p .reservedOperand (pathOf s t g p).mask 0 0 ((encode i).getD 0) := by
  subst hk
  unfold issueHere
  exact (if_neg (by simpa using hi)).trans (if_pos (by simpa using h))

variable (ho : ¬(k.opBad = true ∨ usesBad k.uses = true))
include ho

theorem issueHere_mode (h : k.modeBad = true) :
    issueHere i chk body s t g p = trapHere s t g p .illegalMode (pathOf s t g p).mask 0 0 ((encode i).getD 0) := by
  subst hk
  unfold issueHere
  exact (if_neg (by simpa using hi)).trans ((if_neg (by simpa using ho)).trans (if_pos h))

/-- A word that passes the checks, is not stalled and does not name drain comes to its entry. -/
theorem issueHere_entry (hm : k.modeBad = false) (hw : windowStall (groupOf s t g) p k.waits = false)
    (hd : namesDrain k.uses = false) :
    issueHere i chk body s t g p = finish s (view i s t g p k.uses) (runBody k body (view i s t g p k.uses)) := by
  subst hk
  unfold issueHere
  refine (if_neg (by simpa using hi)).trans ((if_neg (by simpa using ho)).trans ?_)
  simp only [hm, hw, hd, Bool.false_and, Bool.false_eq_true, if_false]
  rfl

end checks

theorem finish_trap {s : State} {i : Instr} {t g p : Nat} {us : List Use} (h : namesDrain us = false) (kind : TrapKind)
    (m : Mask) (addr info : Nat) :
    finish s (view i s t g p us) (.trap kind m addr info) = trapHere s t g p kind m addr info ((encode i).getD 0) := by
  have hw : (view i s t g p us).word = (encode i).getD 0 := issCtx_word ..
  simp only [finish, view_s h, view_col h, view_t, view_g, view_p, hw]

/-- Settles O35: the checks of `issueHere` in their order. -/
theorem firstFailingCheckDecides : Obligations.FirstFailingCheckDecides := by
  intro i chk body s t g p he hcur hlisted hvalid hres hbank k word one two trap
  have hx : exec i s = .next (issueHere i chk body s t g p) :=
    (he s).trans (issueWord_atWord ⟨hcur, hlisted, hvalid, hres, hbank⟩)
  refine ⟨fun h1 => ?_, fun h1 h2 => ?_, fun h1 h2 hm => ?_, fun h1 h2 hm hw hd => ?_⟩
  · exact hx.trans (congrArg _ (issueHere_illegal rfl h1))
  · exact hx.trans (congrArg _ (issueHere_operand rfl h1 h2))
  · exact hx.trans (congrArg _ (issueHere_mode rfl h1 h2 hm))
  · have hb := hx.trans (congrArg _ (issueHere_entry rfl h1 h2 hm hw hd))
    refine ⟨fun hf => hb.trans (congrArg _ ?_), fun hf hs ha => hb.trans (congrArg _ ?_)⟩
    · have hr : runBody k body (view i s t g p k.uses) = .trap .reservedOperand (pathOf s t g p).mask 0 0 := by
        rw [runBody, view_P, if_pos hf]
      exact (congrArg _ hr).trans (finish_trap hd ..)
    · have hr : runBody k body (view i s t g p k.uses) = .trap .uncorrected (view i s t g p k.uses).act 0 0 := by
        rw [runBody, view_P, if_neg (by simp [hf])]
        exact if_pos (by simpa [hs] using ha)
      exact (congrArg _ hr).trans (finish_trap hd ..)

/-- Settles O39: `issueHere_illegal`, for the check of RFT's entry. -/
theorem rftOnACore : Obligations.RftOnACore := by
  intro replay d a s t g p hcur hlisted hvalid hres hbank hctl
  exact (issueWord_atWord ⟨hcur, hlisted, hvalid, hres, hbank⟩).trans
    (congrArg _ (issueHere_illegal rfl (.inl (by rw [hctl]; rfl))))

/-! ### Words that retire (02 R37) -/

/-- Settles O51: `retired_of`, of what a word sees at its issue. -/
theorem wordsRetire : Obligations.WordsRetire := by
  intro i s x t g p us id hl
  have h := retired_of (x := x) (c := view i s t g p us) (by simpa using hl) id
  simpa using h

end Sys2Proof
end

section
/-! PROOFS. A step that issues a path's word (02 R48, R51, R53): the fetch, the decoding, the count of the issue. -/

namespace Sys2Proof
open Machine Safety Claims

theorem step_issue {s : State} {t g p : Nat} {rest : List Item} (ha : s.agenda = .issue t g p :: rest)
    (hf : s.freeze.frozen = false) : step s = issueAt exec (taken s rest) t g p := by
  have hm : mayCome s (.issue t g p) = true := by simp [mayCome, hf]
  have h1 : firstItem (mayCome s) s.agenda = some (.issue t g p, rest) := by rw [ha, firstItem, if_pos hm]
  simp only [step, h1]

theorem closeCore_of_running {s : State} {T : Team} (h : teamFrozen s T = false) (u : State) : closeCore s u T = u := by
  have hc : (T.ctl || !(coreOf s (teamCore T)).frozen) = true := by
    unfold teamFrozen at h
    cases hT : T.ctl <;> simp_all
  exact if_pos hc

@[simp] theorem openCore_teams (s : State) (T : Team) : (openCore s T).teams = s.teams := by
  unfold openCore; split <;> rfl

@[simp] theorem openCore_teamOf (s : State) (T : Team) (t : Nat) : teamOf (openCore s T) t = teamOf s t := by
  rw [teamOf, openCore_teams, ← teamOf]

@[simp] theorem openCore_pathOf (s : State) (T : Team) (t g p : Nat) : pathOf (openCore s T) t g p = pathOf s t g p := by
  rw [pathOf, groupOf, openCore_teamOf]; rfl

/-- What follows an issue whose instruction has answered `u`: by whether the word issued, and whether its trap comes after
another of its core's tick. -/
def answered (s : State) (t g p : Nat) (u : State) : State :=
  if hasIssued (openCore s (teamOf s t)) u t g p = false then closeCore s u (teamOf s t)
  else if teamFrozen s (teamOf s t) = true ∧ teamFrozen u (teamOf s t) = true then s
  else afterIssue exec s t g p (closeCore s u (teamOf s t))

theorem issueAt_next {s u : State} {t g p : Nat} (hc : canIssue s t g p = true)
    (hr : rawIssue exec (openCore s (teamOf s t)) t g p = .next u) :
    issueAt exec s t g p = .next (answered s t g p u) := by
  rw [issueAt, if_pos hc]
  simp only [tryIssueOne, hr, answered, Bool.not_eq_true', Bool.and_eq_true]
  split
  · rfl
  · split <;> rfl

section fetched
variable {run : Run} {s : State} {t g p : Nat}

theorem rawIssue_unfetched {k : TrapKind} (h : fetchWord s t g p = .error k) :
    rawIssue run s t g p = .next (trapHere (fetchSeen { s with cur := some (t, g, p) } (teamOf s t) k (pathOf s t g p).pc)
      t g p k (pathOf s t g p).mask (pathOf s t g p).pc 0 0) := by
  simp only [rawIssue, h]

theorem rawIssue_undecoded {w : Nat} {e : DecodeError} (h : fetchWord s t g p = .ok w)
    (hd : decode (BitVec.ofNat 32 w) = .error e) :
    rawIssue run s t g p = .next (trapHere { s with cur := some (t, g, p) } t g p .illegalInstruction
      (pathOf s t g p).mask 0 0 w) := by
  simp only [rawIssue, h, hd]

theorem rawIssue_decoded {w : Nat} {i : Instr} (h : fetchWord s t g p = .ok w) (hd : decode (BitVec.ofNat 32 w) = .ok i) :
    rawIssue run s t g p = run i { s with cur := some (t, g, p) } := by
  simp only [rawIssue, h, hd]

end fetched

/-- Settles O53: `issueAt_next`, for each outcome of the fetch and the decoding. -/
theorem stepRunsTheDecodedWord : Obligations.StepRunsTheDecodedWord := by
  intro s t g p rest ha hf s0 T s1 s2 answer hc
  have hs {u : State} (hr : rawIssue exec s1 t g p = .next u) : step s = .next (answer u) :=
    (step_issue ha hf).trans (issueAt_next hc hr)
  have hT : teamOf s1 t = T := openCore_teamOf ..
  have hP : pathOf s1 t g p = pathOf s t g p := openCore_pathOf ..
  refine ⟨fun h u => closeCore_of_running h u, fun k hk => hs ?_, fun w hw => ⟨fun i hi u hu => hs ?_, fun e he => hs ?_⟩⟩
  · rw [rawIssue_unfetched hk, hT, hP]
  · exact (rawIssue_decoded hw hi).trans hu
  · rw [rawIssue_undecoded hw he, hP]

end Sys2Proof
end

section
/-! PROOFS. Every event, and every word of an issuing path, answers a next state (02 R50, R53). -/

namespace Sys2Proof
open Machine Safety Claims

theorem ite_answers {c : Prop} [Decidable c] {a b : Host.Outcome State Fault Refusal} (ha : ∃ u, a = .next u)
    (hb : ∃ u, b = .next u) : ∃ u, (if c then a else b) = .next u := by
  split <;> assumption

theorem issueWord_answers {i : Instr} {chk : Team → Group → Path → Chk} {body : Iss → Eff} {s : State}
    (h : issuing s ≠ none) : ∃ u, issueWord i chk body s = .next u := by
  obtain ⟨⟨t, g, p⟩, hp⟩ := Option.ne_none_iff_exists'.mp h
  simp only [issueWord, hp]
  refine ite_answers ⟨_, rfl⟩ ?_
  cases makeResident s t g p <;> exact ⟨_, rfl⟩

theorem runCmd_answers {s : State} {port code : Nat} {f : Nat → Nat → State × Nat} : ∃ u, runCmd s port code f = .next u := by
  unfold runCmd
  repeat' (first | exact ⟨_, rfl⟩ | split)

theorem softError_answers (at_ : Struck) (symbols : Nat) (s : State) : ∃ u, execSoftError at_ symbols s = .next u := by
  refine ite_answers ⟨_, rfl⟩ ?_
  cases at_ <;> dsimp only <;> repeat' (first | exact ⟨_, rfl⟩ | refine ite_answers ?_ ?_)

theorem event_answers {i : Instr} (h : encode i = none) (s : State) : ∃ u, exec i s = .next u := by
  cases i with
  -- events with one outcome
  | copyChunkLand _ _ _ _ | copyFault _ _ _ _ | notifyWrite _ | queueExamine _ | packetComplete _ _ | patrolScrub
  | igo _ | snap _ | sreq _ | rreq _ | getVersion | getCapabilities | getDigests | getCertificate _ _
  | getVendorDefinedMessageSupport | ageingReport | flitRetry _ | linkDeliveryTimeout _ _ _ | domainJoin _
  | peerRequest _ _ _ | hostCxlMemRequest _ _ _ => exact ⟨_, rfl⟩
  | setInstructionComparator _ _ _ _ _ _ _ | setDataComparator _ _ _ _ _ _ _ _ _ _ | armFreezeTick _ _
  | freezeStatus _ | scanRead _ _ _ | scanWrite _ _ _ | moduleResume _ | startCapture _ _ _ _ | stopCapture _ _
  | captureStatus _ _ | startReplay _ _ _ _ | replayStatus _ _ => exact ite_answers ⟨_, rfl⟩ ⟨_, rfl⟩
  | coldReset | dieReset _ _ | ioDieReset _ | linkReset _ => exact ⟨_, rfl⟩
  -- events with one condition
  | waitTimeout _ _ _ | hangDetector _ _ | sleepWake _ _ _ | joinAgeEscape _ _ _ | pipeDepthUpdate _
  | barrierAnd _ _ | marker _ _ | hotnessEpoch _ | invalidationComplete _ | coreStateWrite _ _ _ _
  | controlCoreRestart _ | binRecordWrite _ _ _ _ _ | registerWrite _ _ _ _ | negotiateAlgorithms _ | challenge _
  | setPowerLimit _ | hbmStackFault _ => exact ite_answers ⟨_, rfl⟩ ⟨_, rfl⟩
  -- events with further cases
  | pendingResultComplete _ _ _ | asyncTrap _ _ | joinRelease _ _ | voteComplete _ _ _ | shuffleComplete _ _ _
  | bwaitComplete _ _ _ | yieldResume _ _ _ | barvHeldRelease _ _ _ | waitaddrReread _ _ _ | mwaitComplete _ _ _
  | passGrant _ | tileOpGrant _ _ | passComplete _ _ | emulatedPassComplete _ _
  | mdeltaGrant _ | copyCollectiveStart _ _ | copyCollectiveArrive _ _ | csumComplete _ _ | marchRayStep _ _ _
  | cqRequestAppend _ _ _ | cqRequestTimeout _ _ _ | marchBatchArrive _ _ | buckPerform _ _ | fbindPerform _ _
  | fevalComplete _ _ | cqpopTake _ _ _ | mergeJobStart _ _ | mergeJobEnd _ _ | qfenceArrive _ _ _ | launch _ _
  | barrierAndComplete _ _ | signal _ _ | raster _ _ | teamPlace _ _ | teamExit _ | compactorRun _
  | compactorMove _ _ | pageMigration _ _ _ | priorityPreempt _ | maskOverrun _ | suspend _ | unknownCommand _ | loadCodeObject _ _ _ _
  | getMeasurements _ _ _ | firmwareUpdate _ _ _ _ | moduleFreeze | voltageReplan _ _ _ _ | hostSnoop _ _ _ =>
    delta exec
    dsimp only [
      execPendingResultComplete, execAsyncTrap, execJoinRelease, execVoteComplete, execShuffleComplete,
      execBwaitComplete, execYieldResume, execBarvHeldRelease, execWaitaddrReread, execMwaitComplete,
      execPassGrant, execTileOpGrant, execPassComplete, execEmulatedPassComplete,
      execMdeltaGrant, execCopyCollectiveStart, execCopyCollectiveArrive, execCsumComplete, execMarchRayStep,
      execCqRequestAppend, execCqRequestTimeout, execMarchBatchArrive, execBuckPerform, execFbindPerform,
      execFevalComplete, execCqpopTake, execMergeJobStart, execMergeJobEnd, execQfenceArrive, execLaunch,
      execBarrierAndComplete, execSignal, execRaster, execTeamPlace, execTeamExit, execCompactorRun,
      execCompactorMove, execPageMigration, execPriorityPreempt, execMaskOverrun, execSuspend,
      
      execUnknownCommand, execLoadCodeObject, execGetMeasurements, execFirmwareUpdate, execModuleFreeze,
      execVoltageReplan, execHostSnoop]
    repeat' (first | exact ⟨_, rfl⟩ | split)
  | tblloadComplete _ _ _ =>
    delta exec
    dsimp only [execTblloadComplete]
    repeat' (first | split | exact ⟨_, rfl⟩)
  | createContext _ | destroyContext _ | createQueue _ | destroyQueue _ | reloadQueue _ =>
    exact runCmd_answers
  | softError at_ symbols => exact softError_answers at_ symbols s
  -- a word is no event
  | qfence _ _ bar => cases bar <;> cases h
  | mwait tile => cases tile <;> cases h
  | _ => cases h

section entries
variable {s : State} (h : issuing s ≠ none)
include h

theorem laneOp_answers {i : Instr} {k : LaneSpec} {f : Iss → Nat → Nat} :
    ∃ u, laneOp i k f s = .next u := issueWord_answers h
theorem laneLook_answers {i : Instr} {look : Nat} {k : LaneSpec} {f : Iss → Nat → Nat} :
    ∃ u, laneLook i look k f s = .next u := issueWord_answers h
theorem rayWord_answers {i : Instr} {look : Nat} {nd align : Nat} {d a : Operand} {work : List Acc → List (List Nat) → Work} :
    ∃ u, rayWord i look nd align d a work s = .next u := issueWord_answers h
theorem passWord_answers {i : Instr} {bar : Option Nat} {a : Operand} {bad : Iss → Nat → Bool} {kind : PassRec → MKind} :
    ∃ u, passWord i bar a bad kind s = .next u := issueWord_answers h
theorem tileWord_answers {i : Instr} {n : Nat} {glob col pair : Bool} {bar : Option Nat} {a : Operand} {kind : Nat → Nat → MKind} :
    ∃ u, tileWord i n glob col pair bar a kind s = .next u := issueWord_answers h
theorem atomWord_answers {i : Instr} {op : AtomOp} {look : Nat} {acq rel : Bool} {asp : AtomSp} {d a : Operand} :
    ∃ u, atomWord i op look acq rel asp d a s = .next u := issueWord_answers h
theorem memWord_answers {i : Instr} {look : Nat} {k : MemSpec} {d a : Operand} :
    ∃ u, memWord i look k d a s = .next u := issueWord_answers h
theorem sfUn_answers {i : Instr} {look : Nat} {d a : Operand} {wide directed satur : Bool} {f : Ex → Ex} :
    ∃ u, sfUn i look d a wide directed satur f s = .next u := laneLook_answers h
theorem sfInt_answers {i : Instr} {look : Nat} {d a : Operand} {f : Ty → Bool → Int → Int → Nat} :
    ∃ u, sfInt i look d a f s = .next u := laneLook_answers h
theorem cmpOp_answers {i : Instr} {p : Nat} {a : Operand} {b : Option Operand} {modeBad : GM → Bool} {f : Iss → Nat → Bool} :
    ∃ u, cmpOp i p a b modeBad f s = .next u := issueWord_answers h
theorem immOp_answers {i : Instr} {d : Operand} {f : GM → Nat → Nat} :
    ∃ u, immOp i d f s = .next u := laneOp_answers h
theorem shuffle_answers {i : Instr} {d a b : Operand} {bVec : Bool} {src : Nat → Nat → Nat} :
    ∃ u, shuffle i d a b bVec src s = .next u := issueWord_answers h
theorem ivOp_answers {i : Instr} {d a b : Operand} {f : Iv → Iv → Iv} :
    ∃ u, ivOp i d a b f s = .next u := laneOp_answers h
theorem halfOp_answers {i : Instr} {d a b : Operand} {dsrc : Bool} {f : Bool → Ex → Ex → Ex → Ex} :
    ∃ u, halfOp i d a b dsrc f s = .next u := laneOp_answers h
theorem fBitOp_answers {i : Instr} {d a b : Operand} {f : Ty → Nat → Nat → Nat} :
    ∃ u, fBitOp i d a b f s = .next u := laneOp_answers h
theorem fltOp_answers {i : Instr} {d a b : Operand} {dsrc : Bool} {f : Bool → Ex → Ex → Ex → Ex} :
    ∃ u, fltOp i d a b dsrc f s = .next u := laneOp_answers h
theorem fBitUn_answers {i : Instr} {d a : Operand} {f : Ty → Nat → Nat} :
    ∃ u, fBitUn i d a f s = .next u := laneOp_answers h
theorem intSatOp_answers {i : Instr} {d a b : Operand} {f : Int → Int → Int} :
    ∃ u, intSatOp i d a b f s = .next u := laneOp_answers h
theorem bitUn_answers {i : Instr} {d a : Operand} {f : Nat → Nat → Nat} :
    ∃ u, bitUn i d a f s = .next u := laneOp_answers h
theorem shiftOp_answers {i : Instr} {d a b : Operand} {f : Nat → Nat → Nat → Nat} :
    ∃ u, shiftOp i d a b f s = .next u := laneOp_answers h
theorem bitOp_answers {i : Instr} {d a b : Operand} {f : Nat → Nat → Nat → Nat} :
    ∃ u, bitOp i d a b f s = .next u := laneOp_answers h
theorem intWrapOp_answers {i : Instr} {d a b : Operand} {f : Ty → Int → Int → Int} :
    ∃ u, intWrapOp i d a b f s = .next u := laneOp_answers h
theorem intOp_answers {i : Instr} {d a b : Operand} {dsrc : Bool} {f : Int → Int → Int → Int} :
    ∃ u, intOp i d a b dsrc f s = .next u := laneOp_answers h

end entries

/-- The entries of words, by the shared form of each. -/
theorem word_answers {i : Instr} (hi : encode i ≠ none) {s : State} (hs : issuing s ≠ none) : ∃ u, exec i s = .next u := by
  cases i with
  | iadd _ _ _ | isub _ _ _ | imul _ _ _ | imad _ _ _ =>
    delta exec
    dsimp only
    exact intOp_answers hs
  | imulh _ _ _ | imin _ _ _ | imax _ _ _ | iabsd _ _ _ =>
    delta exec
    dsimp only
    exact intWrapOp_answers hs
  | and _ _ _ | or _ _ _ | xor _ _ _ | andn _ _ _ =>
    delta exec
    dsimp only
    exact bitOp_answers hs
  | shl _ _ _ | shr _ _ _ | sar _ _ _ | rot _ _ _ =>
    delta exec
    dsimp only
    exact shiftOp_answers hs
  | popc _ _ | clz _ _ | brev _ _ =>
    delta exec
    dsimp only
    exact bitUn_answers hs
  | bfe _ _ _ | bfi _ _ _ | add64 _ _ _ | lea64 _ _ _ | perm _ _ _ | mulw _ _ _ | frnd _ _ | fclass _ _
  | fscale _ _ _ | fdot2 _ _ _ | cvt _ _ _ | cvts _ _ _ | pack2 _ _ _ | unpk _ _ _ | dot4 _ _ _ | gscan _ _ _
  | mov _ _ | lit _ _ | lith _ _ | flit _ _ =>
    delta exec
    dsimp only
    exact laneOp_answers hs
  | iadds _ _ _ | isubs _ _ _ =>
    delta exec
    dsimp only
    exact intSatOp_answers hs
  | fadd _ _ _ | fsub _ _ _ | fmul _ _ _ | fma _ _ _ | fnma _ _ _ =>
    delta exec
    dsimp only
    exact fltOp_answers hs
  | fmin _ _ _ | fmax _ _ _ | fcpys _ _ _ =>
    delta exec
    dsimp only
    exact fBitOp_answers hs
  | fneg _ _ | fabs _ _ =>
    delta exec
    dsimp only
    exact fBitUn_answers hs
  | hfma2 _ _ _ | hadd2 _ _ _ | hmul2 _ _ _ =>
    delta exec
    dsimp only
    exact halfOp_answers hs
  | ivadd _ _ _ | ivsub _ _ _ | ivmul _ _ _ | ivsqr _ _ | ivhull _ _ _ =>
    delta exec
    dsimp only
    exact ivOp_answers hs
  | fcmp _ _ _ _ | icmp _ _ _ _ | icmpi _ _ _ _ =>
    delta exec
    dsimp only
    exact cmpOp_answers hs
  | shfl _ _ _ | shflx _ _ _ | shflu _ _ _ | shfld _ _ _ =>
    delta exec
    dsimp only
    exact shuffle_answers hs
  | gshfl _ _ _ _ | fdiv _ _ _ =>
    delta exec
    dsimp only
    exact laneLook_answers hs
  | addi _ _ | andi _ _ | ori _ _ | xori _ _ | shli _ _ | shri _ _ | sari _ _ =>
    delta exec
    dsimp only
    exact immOp_answers hs
  | frcp _ _ _ | frsq _ _ _ | fsqrt _ _ _ | fexp2 _ _ _ | flog2 _ _ _ | fsin _ _ _ | fcos _ _ _ | ftanh _ _ _
  | fsigm _ _ _ =>
    delta exec
    dsimp only
    exact sfUn_answers hs
  | idiv _ _ _ | irem _ _ _ =>
    delta exec
    dsimp only
    exact sfInt_answers hs
  | ldl _ _ _ _ | stl _ _ _ _ | ldp _ _ _ _ | stp _ _ _ _ | ldk _ _ _ _ | ldg _ _ _ _ _ | stg _ _ _ _ _
  | ldn _ _ _ _ _ | stn _ _ _ _ _ | ldh _ _ _ _ _ _ | sth _ _ _ _ _ _ =>
    delta exec
    dsimp only
    exact memWord_answers hs
  | aadd _ _ _ _ _ _ | afadd _ _ _ _ _ _ | amin _ _ _ _ _ _ | amax _ _ _ _ _ _ | aand _ _ _ _ _ _
  | aor _ _ _ _ _ _ | axor _ _ _ _ _ _ | axchg _ _ _ _ _ _ | acas _ _ _ _ _ _ | ainc _ _ _ _ _ _
  | adec _ _ _ _ _ _ =>
    delta exec
    dsimp only
    exact atomWord_answers hs
  | mpass _ _ _ | mdelta _ _ _ =>
    delta exec
    dsimp only
    exact passWord_answers hs
  | mstore _ _ _ _ _ _ _ | mload _ _ _ _ _ _ _ =>
    delta exec
    dsimp only
    exact tileWord_answers hs
  | boxt _ _ _ | trit _ _ _ _ =>
    delta exec
    dsimp only
    exact rayWord_answers hs
  | nop | setmode _ | bra _ _ | bru _ _ | join | call _ _ | callx _ _ | ret | brx _ | exit | yield _ _
  | waitaddr _ _ _ _ | sleep _ | trap _ | bkpt _ | vexpr _ _ _ | tbl _ _ _ | plog _ _ _ _ _ | sel _ _ _
  | vote _ _ _ | smov _ _ _ | bcast _ _ | sread _ _ | swrite _ _ | frame _ | pfg _ _ _ | cctl _ _ _ | fence _ _
  | qfence _ _ _ | binit _ _ _ | barv _ _ _ _ | bwait _ _ _ | btest _ _ _ _ | bexp _ _ _ | copy _ _ _ _
  | csum _ _ _ | pipe _ | piperel | qput _ _ _ | mzero _ _ | mdrain _ _ | mwait _ | cbind _ _ _ | cdrop _ _
  | cstat _ _ _ | cfresh _ _ | march _ _ _ _ | buck _ _ _ _ | cqpop _ _ _ | cqret _ _ _ | vfetch _ _ _ _
  | visw _ _ _ | merge _ _ _ | mstat _ _ _ | feval _ _ _ _ _ | fbind _ _ _ _ _ | tblload _ _ _ | sysr _ _
  | sysw _ _ | tick _ | rft _ _ _ | premask _ | trace _ _ _ =>
    delta exec
    dsimp only
    exact issueWord_answers hs
  -- an event is no word
  | _ => exact absurd rfl hi

/-- Settles O52: a word's entry is an issue, and every branch of an event answers a state. -/
theorem instructionsAnswer : Obligations.InstructionsAnswer := by
  intro i s h
  rcases h with h | h
  · exact event_answers h s
  · by_cases hi : encode i = none
    · exact event_answers hi s
    · exact word_answers hi h

end Sys2Proof
end

section
/-! PROOFS. The traps of words on their operands, types and rounding (02 R25, R26, R28, R34, R36, R49): the checks of each
word's entry are those of its form. -/

namespace Sys2Proof
open Machine Safety Claims

/-- The traps of a word whose checks fail at its operands, and of one whose checks fail at its mode. -/
theorem check_traps {i : Instr} {chk : Team → Group → Path → Chk} {body : Iss → Eff} {s : State} {t g p : Nat} {all : Bool}
    (he : exec i s = issueWord i chk body s) (h : Issues i s t g p all)
    (hi : (chk (teamOf s t) (groupOf s t g) (pathOf s t g p)).illegal = false) :
    let k := chk (teamOf s t) (groupOf s t g) (pathOf s t g p)
    let trap := fun kind => exec i s = .next (trapHere s t g p kind (pathOf s t g p).mask 0 0 ((encode i).getD 0))
    (k.opBad = true ∨ usesBad k.uses = true → trap .reservedOperand) ∧
      (¬(k.opBad = true ∨ usesBad k.uses = true) → k.modeBad = true → trap .illegalMode) := by
  intro k trap
  have hx := he.trans (issueWord_atWord (atWord_of_issues h))
  have hill : ¬(k.illegal = true ∨ ((teamOf s t).ctl = true ∧ ctlIllegal ((encode i).getD 0 / 2 ^ 24) = true)) := by
    have hc := h.control
    have hk : k.illegal = false := hi
    simpa [hk] using hc
  exact ⟨fun h2 => hx.trans (congrArg _ (issueHere_operand rfl hill h2)),
    fun h2 hm => hx.trans (congrArg _ (issueHere_mode rfl hill h2 hm))⟩

/-! ### Lane instructions (rows 0x1 to 0x4, 0x6 and 0x7) -/

/-- The entry of the word i is an issue with the checks of the lane specification k, which are those of the form F but for
the further operand rule `opBad`. -/
structure LaneChecks (i : Instr) (F : LaneForm) (k : LaneSpec) (opBad : Bool) : Prop where
  entry : ∃ body, ∀ s, exec i s = issueWord i (fun _ _ P => laneChk k P) body s
  uses : ∀ gm, F.uses gm = laneUses k gm
  d : k.d = F.d
  srcs : k.srcs = F.srcs
  opBad : k.opBad = opBad
  mode : ∀ gm, k.modeBad gm = (!F.types gm.type || (F.rounds gm && gm.round == .sto))

/-- What `LaneTraps` says of one word. -/
theorem LaneChecks.traps {i : Instr} {F : LaneForm} {k : LaneSpec} (c : LaneChecks i F k false) {s : State} {t g p : Nat}
    (h : Issues i s t g p false) :
    let P := pathOf s t g p
    let two := usesBad (F.uses P.gm) = true ∨ (isScalar F.d = true ∧ ∃ x ∈ F.srcs, perLane x.op = true)
    let three := F.types P.gm.type = false ∨ (F.rounds P.gm = true ∧ P.gm.round = .sto)
    let trap := fun kind => exec i s = .next (trapHere s t g p kind P.mask 0 0 ((encode i).getD 0))
    (two → trap .reservedOperand) ∧ (¬two → three → trap .illegalMode) := by
  intro P two three trap
  obtain ⟨body, he⟩ := c.entry
  obtain ⟨h2, h3⟩ := check_traps (he s) h rfl
  have e2 : ((laneChk k P).opBad = true ∨ usesBad (laneChk k P).uses = true) ↔ two := by
    rw [or_comm]
    refine or_congr (by rw [c.uses]; rfl) ?_
    simp [laneChk, c.opBad, c.d, c.srcs]
  have e3 : (laneChk k P).modeBad = true ↔ three := by
    simp [laneChk, c.mode, three]
  rw [e2] at h2 h3
  rw [e3] at h3
  exact ⟨h2, h3⟩

theorem laneTraps_of_checks {form : Instr → Option LaneForm}
    (h : ∀ {i F}, form i = some F → ∃ k, LaneChecks i F k false) : LaneTraps form := by
  intro i F s t g p hF hI
  obtain ⟨k, c⟩ := h hF
  exact c.traps hI

theorem half?_eq (t : Ty) : half? t = (t == .f16 || t == .bf16) := by cases t <;> rfl
theorem cvtsType_eq (t : Ty) : cvtsType t = (t == .f16 || t == .bf16 || t == .k8 || t == .e4m3 || t == .e2m1) := by
  cases t <;> rfl
theorem dot4Type_eq (t : Ty) : dot4Type t = (t == .i8 || t == .n8 || t == .k8 || t == .e4m3) := by cases t <;> rfl
theorem packSrc_isNone (t : Ty) :
    (packSrc t).isNone = !(t == .f16 || t == .bf16 || t == .i16 || t == .n16 || t == .b16) := by cases t <;> rfl

theorem row1_checks {i : Instr} {F : LaneForm} (h : row1 i = some F) : ∃ k, LaneChecks i F k false := by
  cases i with
  | iadd _ _ _ | isub _ _ _ | imul _ _ _ | imad _ _ _ | imulh _ _ _ | imin _ _ _ | imax _ _ _ | iabsd _ _ _
  | and _ _ _ | or _ _ _ | xor _ _ _ | andn _ _ _ | shl _ _ _ | shr _ _ _ | sar _ _ _ | rot _ _ _ =>
    cases h
    exact ⟨_, ⟨_, fun _ => rfl⟩, fun _ => rfl, rfl, rfl, rfl,
      fun gm => by simp [intForm, modForm, bitForm, shiftForm]⟩
  | _ => exact absurd h (Option.some_ne_none _).symm

theorem row2_checks {i : Instr} {F : LaneForm} (h : row2 i = some F) : ∃ k, LaneChecks i F k false := by
  cases i with
  | popc _ _ | clz _ _ | brev _ _ | bfe _ _ _ | bfi _ _ _ | add64 _ _ _ | lea64 _ _ _ | iadds _ _ _ | isubs _ _ _
  | perm _ _ _ | mulw _ _ _ =>
    cases h
    exact ⟨_, ⟨_, fun _ => rfl⟩, fun _ => rfl, rfl, rfl, rfl,
      fun gm => by simp [bits64, bne]⟩
  | _ => exact absurd h (Option.some_ne_none _).symm

theorem row3_checks {i : Instr} {F : LaneForm} (h : row3 i = some F) : ∃ k, LaneChecks i F k false := by
  cases i with
  | fadd _ _ _ | fsub _ _ _ | fmul _ _ _ | fma _ _ _ | fnma _ _ _ | fmin _ _ _ | fmax _ _ _ | fneg _ _ | fabs _ _
  | fcpys _ _ _ | frnd _ _ | fclass _ _ | fscale _ _ _ | fdot2 _ _ _ =>
    cases h
    exact ⟨_, ⟨_, fun _ => rfl⟩, fun _ => rfl, rfl, rfl, rfl,
      fun gm => by simp [fltForm, fbitForm, fltBad, half?_eq, stoBad]⟩
  | _ => exact absurd h (Option.some_ne_none _).symm

theorem row4_checks {i : Instr} {F : LaneForm} (h : row4 i = some F) : ∃ k, LaneChecks i F k false := by
  cases i with
  | cvt _ _ _ | cvts _ _ _ | pack2 _ _ _ | unpk _ _ _ | hfma2 _ _ _ | hadd2 _ _ _ | hmul2 _ _ _ | dot4 _ _ _
  | ivadd _ _ _ | ivsub _ _ _ | ivmul _ _ _ | ivsqr _ _ | ivhull _ _ _ =>
    cases h
    exact ⟨_, ⟨_, fun _ => rfl⟩, fun _ => rfl, rfl, rfl, rfl,
      fun gm => by simp [halfForm, ivForm, cvtsType_eq, packSrc_isNone, half?_eq, dot4Type_eq, stoBad, bne]⟩
  | _ => exact absurd h (Option.some_ne_none _).symm

theorem row6_checks {i : Instr} {F : LaneForm} (h : row6 i = some F) : ∃ k, LaneChecks i F k false := by
  cases i with
  | lit _ _ | lith _ _ | addi _ _ | andi _ _ | ori _ _ | xori _ _ | shli _ _ | shri _ _ | sari _ _ | flit _ _
  | mov _ _ =>
    cases h
    exact ⟨_, ⟨_, fun _ => rfl⟩, fun _ => rfl, rfl, rfl, rfl,
      fun gm => by simp [immForm, immBad, bits64, stoBad]⟩
  | _ => exact absurd h (Option.some_ne_none _).symm

theorem row7_checks {i : Instr} {look : Nat} {F : LaneForm} (h : row7 i = some (look, F)) :
    ∃ k, LaneChecks i F k (sfDst F.d) := by
  cases i with
  | frcp _ _ _ | frsq _ _ _ | fsqrt _ _ _ | fexp2 _ _ _ | flog2 _ _ _ | fsin _ _ _ | fcos _ _ _ | ftanh _ _ _
  | fsigm _ _ _ | fdiv _ _ _ | idiv _ _ _ | irem _ _ _ =>
    cases h
    exact ⟨_, ⟨_, fun _ => rfl⟩, fun _ => rfl, rfl, rfl, rfl, fun gm => by simp [sfBad, stoBad]⟩
  | _ => exact absurd h (Option.some_ne_none _).symm

theorem sfDst_eq (d : Operand) : sfDst d = !(isVector d || isScalar d) := by simp [sfDst]

theorem lookTraps_row7 : LookTraps row7 := by
  refine ⟨laneTraps_of_checks fun {i F} h => ?_, fun i look F s t g p h hI hv => ?_⟩
  · obtain ⟨hf, hv⟩ := Option.filter_eq_some_iff.mp h
    obtain ⟨⟨look, F'⟩, hr, rfl⟩ := Option.map_eq_some_iff.mp hf
    obtain ⟨k, c⟩ := row7_checks hr
    rw [sfDst_eq, hv] at c
    exact ⟨k, c⟩
  · obtain ⟨k, c⟩ := row7_checks h
    obtain ⟨body, he⟩ := c.entry
    refine (check_traps (he s) hI rfl).1 (.inl ?_)
    simp [laneChk, c.opBad, sfDst_eq, hv]

/-! ### The other words -/

/-- The entry of the word i is an issue with the checks `chk`, which are those of the form F. -/
structure RuleChecks (i : Instr) (F : RuleForm) (chk : Team → Group → Path → Chk) : Prop where
  entry : ∃ body, ∀ s, exec i s = issueWord i chk body s
  illegal : ∀ T G P, (chk T G P).illegal = false
  uses : ∀ T G P, (chk T G P).uses = F.uses G P
  ok : ∀ T G P, (chk T G P).opBad = !F.ok G P
  types : ∀ T G P, (chk T G P).modeBad = !F.types P.gm

theorem ruleTable_of_checks {form : Instr → Option RuleForm}
    (h : ∀ {i F}, form i = some F → ∃ chk, RuleChecks i F chk) : RuleTable form := by
  intro i F s t g p hF hI G P two trap
  obtain ⟨chk, c⟩ := h hF
  obtain ⟨body, he⟩ := c.entry
  obtain ⟨h2, h3⟩ := check_traps (he s) hI (c.illegal ..)
  have e2 : ((chk (teamOf s t) G P).opBad = true ∨ usesBad (chk (teamOf s t) G P).uses = true) ↔ two := by
    rw [c.uses, c.ok, or_comm, Bool.not_eq_true']
  rw [e2] at h2 h3
  exact ⟨h2, fun hn ht => h3 hn (by rw [c.types, ht]; rfl)⟩

theorem vecOdd_eq (x : Operand) (n : Nat) : vecOdd x n = !vecsAt x n := by cases x <;> rfl
theorem eightBad_eq (x : Operand) : eightBad x = !scalAt x 8 8 := by
  cases x with
  | s k => rw [Bool.eq_iff_iff]; simp [eightBad, scalAt]
  | _ => rfl
theorem pairScalBad_eq (x : Operand) : pairScalBad x = !scalAt x 2 2 := by
  cases x with
  | s k => rw [Bool.eq_iff_iff]; simp [pairScalBad, scalAt]
  | _ => rfl
theorem tileOperandBad_eq (x : Operand) : tileOperandBad x = !scalAt x 2 3 := by
  cases x with
  | s k => rw [Bool.eq_iff_iff]; simp [tileOperandBad, scalAt]; omega
  | _ => rfl

theorem wordRules_checks {i : Instr} {F : RuleForm} (h : wordRules i = some F) : ∃ chk, RuleChecks i F chk := by
  cases i with
  | gscan op d a =>
    cases h
    exact ⟨_, ⟨_, fun _ => rfl⟩, fun _ _ _ => rfl, fun _ _ _ => rfl,
      fun _ _ _ => by cases d <;> simp [laneChk, isVector, isScalar, bne], fun _ _ _ => by simp [laneChk]⟩
  | gshfl look wrap d a =>
    cases h
    exact ⟨_, ⟨_, fun _ => rfl⟩, fun _ _ _ => rfl, fun _ _ _ => rfl,
      fun _ _ _ => by cases d <;> cases a <;> simp [laneChk, isVector, isScalar, vecsAt, perLane, bne], fun _ _ _ => rfl⟩
  | vote p d m =>
    cases h
    exact ⟨_, ⟨_, fun _ => rfl⟩, fun _ _ _ => rfl, fun _ _ _ => rfl, fun _ _ _ => by cases d <;> cases m <;> simp,
      fun _ _ _ => rfl⟩
  | fcmp _ _ _ _ | icmp _ _ _ _ | icmpi _ _ _ _ | sel _ _ _ | smov _ _ _ | bcast _ _ | vexpr _ _ _ | tbl _ _ _
  | shfl _ _ _ | shflx _ _ _ | shflu _ _ _ | shfld _ _ _ | brx _ | callx _ _ | swrite _ _ | trace _ _ _
  | ldl _ _ _ _ | ldp _ _ _ _ | ldk _ _ _ _ | ldg _ _ _ _ _ | ldn _ _ _ _ _ | ldh _ _ _ _ _ _ | stl _ _ _ _
  | stp _ _ _ _ | stg _ _ _ _ _ | stn _ _ _ _ _ | sth _ _ _ _ _ _ | aadd _ _ _ _ _ _ | afadd _ _ _ _ _ _
  | amin _ _ _ _ _ _ | amax _ _ _ _ _ _ | aand _ _ _ _ _ _ | aor _ _ _ _ _ _ | axor _ _ _ _ _ _ | axchg _ _ _ _ _ _
  | acas _ _ _ _ _ _ | ainc _ _ _ _ _ _ | adec _ _ _ _ _ _ | cctl _ _ _ | waitaddr _ _ _ _ | tblload _ _ _
  | qput _ _ _ | binit _ _ _ | barv _ _ _ _ | bwait _ _ _ | btest _ _ _ _ | bexp _ _ _ | copy _ _ _ _ | csum _ _ _
  | pipe _ | mpass _ _ _ | mdelta _ _ _ | mstore _ _ _ _ _ _ _ | mload _ _ _ _ _ _ _ | cbind _ _ _ | cdrop _ _
  | cstat _ _ _ | cfresh _ _ | march _ _ _ _ | buck _ _ _ _ | cqpop _ _ _ | cqret _ _ _ | boxt _ _ _ | trit _ _ _ _
  | vfetch _ _ _ _ | visw _ _ _ | merge _ _ _ | mstat _ _ _ | feval _ _ _ _ _ | fbind _ _ _ _ _ =>
    cases h
    exact ⟨_, ⟨_, fun _ => rfl⟩, fun _ _ _ => rfl, fun _ _ _ => rfl,
      fun _ _ _ => by simp [memChk, vecOdd_eq, eightBad_eq, pairScalBad_eq, tileOperandBad_eq, bne],
      fun _ _ _ => by simp [memChk, bits64, stoBad, bne]⟩
  | _ => exact absurd h (Option.some_ne_none _).symm

/-- Settles O36: the checks of each row's entries. -/
theorem operandAndTypeTraps : Obligations.OperandAndTypeTraps := by
  refine ⟨fun form hf => ?_, lookTraps_row7, ruleTable_of_checks wordRules_checks⟩
  simp only [List.mem_cons, List.not_mem_nil, or_false] at hf
  obtain rfl | rfl | rfl | rfl | rfl := hf
  · exact laneTraps_of_checks row1_checks
  · exact laneTraps_of_checks row2_checks
  · exact laneTraps_of_checks row3_checks
  · exact laneTraps_of_checks row4_checks
  · exact laneTraps_of_checks row6_checks

end Sys2Proof
end

section
/-! PROOFS. Events of outstanding operations answer what their rules give (02 R37, 06 R162, 09 R233, 13 R338, 16 R375, 19
R427). -/

namespace Sys2Proof
open Machine Safety Claims

/-! ### An event against its rule

`EventTable` asks one thing of each event: the outcome that its rule relates to the state, and the state itself where the rule
relates none. -/

/-- What `EventTable` asks of an event's outcome. -/
def EventAnswers (R : State → Prop) (s : State) (out : Host.Outcome State Fault Refusal) : Prop :=
  (∀ u, R u → out = .next u) ∧ ((∀ u, ¬R u) → out = .next s)

namespace EventAnswers

variable {R R' : State → Prop} {s v : State} {out : Host.Outcome State Fault Refusal}

/-- Where no outcome has the rule's word, the state stays. -/
theorem idle (h : ∀ u, ¬R u) : EventAnswers R s (.next s) := ⟨fun u hu => absurd hu (h u), fun _ => rfl⟩

/-- Where the rule gives exactly one outcome, it is the answer. -/
theorem exactly (h : ∀ u, R u ↔ u = v) : EventAnswers R s (.next v) :=
  ⟨fun u hu => by rw [(h u).mp hu], fun hn => absurd ((h v).mpr rfl) (hn v)⟩

theorem congr (h : ∀ u, R u ↔ R' u) (h' : EventAnswers R' s out) : EventAnswers R s out :=
  ⟨fun u hu => h'.1 u ((h u).mp hu), fun hn => h'.2 fun u hu => hn u ((h u).mpr hu)⟩

/-- A condition that rule and event share. -/
theorem guard {c : Prop} [Decidable c] (h : c → EventAnswers R s out) :
    EventAnswers (fun u => c ∧ R u) s (if c then out else .next s) := by
  by_cases hc : c
  · rw [if_pos hc]
    exact congr (fun u => and_iff_right hc) (h hc)
  · rw [if_neg hc]
    exact idle fun u hu => hc hu.1

/-- A condition of the rule whose failure the event tests. -/
theorem exceptWhen {c : Prop} [Decidable c] (h : ¬c → EventAnswers R s out) :
    EventAnswers (fun u => ¬c ∧ R u) s (if c then .next s else out) := by
  by_cases hc : c
  · rw [if_pos hc]
    exact idle fun u hu => hu.1 hc
  · rw [if_neg hc]
    exact congr (fun u => and_iff_right hc) (h hc)

/-- The same for an event that answers `.next` of its cases. -/
theorem stayWhen {c : Prop} [Decidable c] (h : ¬c → EventAnswers R s (.next v)) :
    EventAnswers (fun u => ¬c ∧ R u) s (.next (if c then s else v)) := by
  rw [apply_ite Host.Outcome.next]
  exact exceptWhen h

end EventAnswers

/-! ### Conditions that rule and model say differently -/

theorem bit_eq_testBit (x n : Nat) : bit x n = x.testBit n := by
  rw [bit, Nat.testBit_eq_decide_div_mod_eq, beq_eq_decide]

theorem qfenceReady_iff {T : Team} {g mask id : Nat} :
    qfenceReady T g mask id = true ↔ ∀ k < 5, mask.testBit k = true → classBusy T g k id = false := by
  simp [qfenceReady, bit_eq_testBit, imp_iff_not_or]

theorem teamRuns_iff {s : State} {t : Nat} : teamRuns s t = true ↔ running s t := by
  simp [teamRuns, teamFrozen, running]

/-! ### The queue's operations: completion, asynchronous traps, TBLLOAD, QFENCE, CQPOP -/

theorem asyncTrap_answers {t g : Nat} {s : State} {R : State → State → Prop}
    (h : operationRules (.asyncTrap t g) = some R) : EventAnswers (R s) s (execAsyncTrap t g s) := by
  cases h
  unfold execAsyncTrap
  cases ha : (groupOf s t g).asyncs with
  | nil => exact .idle fun u hu => by simp [ha] at hu
  | cons h rest =>
    refine .congr (fun u => ?_) (.guard fun _ => .exactly fun u => Iff.rfl)
    simp [ha, teamRuns_iff]

theorem qfenceArrive_answers {t g id : Nat} {s : State} {R : State → State → Prop}
    (h : operationRules (.qfenceArrive t g id) = some R) : EventAnswers (R s) s (execQfenceArrive t g id s) := by
  cases h
  unfold execQfenceArrive
  cases ho : pendOf s t g id with
  | none => exact .idle fun u hu => by simp [ho] at hu
  | some o =>
    cases hw : o.work with
    | qfence mask bar =>
      cases bar with
      | none => simp only [hw]; exact .idle fun u hu => by simp [ho, hw] at hu
      | some b =>
        simp only [hw]
        refine .congr (fun u => ?_) (.guard fun _ => .exactly fun u => Iff.rfl)
        simp [ho, hw, qfenceReady_iff, and_assoc]
    | _ => simp only [hw]; exact .idle fun u hu => by simp [ho, hw] at hu

theorem cqpopTake_answers {t g id : Nat} {s : State} {R : State → State → Prop}
    (h : operationRules (.cqpopTake t g id) = some R) : EventAnswers (R s) s (execCqpopTake t g id s) := by
  cases h
  change EventAnswers _ s (match pendOf s t g id with | none => _ | some o => _)
  cases ho : pendOf s t g id with
  | none => exact .idle fun u hu => by simp [ho] at hu
  | some o =>
    cases hw : o.work with
    | cqpop off =>
      simp only [hw]
      refine .congr (fun u => ?_) (.exceptWhen fun _ => .exactly fun u => Iff.rfl)
      simp [ho, hw, and_assoc, imp_iff_not_or]
    | _ => simp only [hw]; exact .idle fun u hu => by simp [ho, hw] at hu

theorem tryPerform_of_ready {s : State} {t g id : Nat} {o : Pending} (ho : pendOf s t g id = some o)
    (hr : o.performed = false ∧ o.memq = true ∧ memReady (groupOf s t g) id = true) :
    tryPerform s t g id = performMem s t g o := by
  obtain ⟨hp, hm, hq⟩ := hr
  simp [tryPerform, ho, hp, hm, hq]

theorem tryPerform_of_not_ready {s : State} {t g id : Nat} {o : Pending} (ho : pendOf s t g id = some o)
    (hr : ¬(o.performed = false ∧ o.memq = true ∧ memReady (groupOf s t g) id = true)) : tryPerform s t g id = s := by
  simp only [tryPerform, ho]
  exact if_neg fun hc => hr (by simpa [and_comm, and_left_comm, and_assoc] using hc)

theorem closeDone_of_pend {s : State} {t g id : Nat} {o : Pending} (ho : pendOf s t g id = some o) :
    closeDone s t g id = if o.performed && !o.ack then commit s t g o else s := by
  simp only [closeDone, ho]

/-- The two outcomes of an operation that is no QFENCE exclude each other: performed before, or now. -/
theorem closeDone_tryPerform_answers {s : State} {t g id : Nat} {o : Pending} (ho : pendOf s t g id = some o) :
    EventAnswers (fun u => (o.performed = true ∧ o.ack = false ∧ u = commit s t g o) ∨
      (o.performed = false ∧ o.memq = true ∧ memReady (groupOf s t g) id = true ∧
        u = closeDone (performMem s t g o) t g id)) s (.next (closeDone (tryPerform s t g id) t g id)) := by
  by_cases hr : o.performed = false ∧ o.memq = true ∧ memReady (groupOf s t g) id = true
  · rw [tryPerform_of_ready ho hr]
    exact .exactly fun u => by simp [hr]
  · rw [tryPerform_of_not_ready ho hr, closeDone_of_pend ho]
    by_cases hd : o.performed = true ∧ o.ack = false
    · rw [if_pos (by simp [hd])]
      exact .exactly fun u => by simp [hd]
    · rw [if_neg (by simpa using hd)]
      exact .idle fun u hu => by
        rcases hu with ⟨hp, ha, -⟩ | ⟨hp, hm, hq, -⟩
        · exact hd ⟨hp, ha⟩
        · exact hr ⟨hp, hm, hq⟩

theorem pendingResultComplete_answers {t g id : Nat} {s : State} {R : State → State → Prop}
    (h : operationRules (.pendingResultComplete t g id) = some R) :
    EventAnswers (R s) s (execPendingResultComplete t g id s) := by
  cases h
  unfold execPendingResultComplete
  cases ho : pendOf s t g id with
  | none => exact .idle fun u hu => by simp [ho] at hu
  | some o =>
    cases hw : o.work with
    | qfence mask bar =>
      cases bar with
      | none =>
        simp only [hw]
        refine .congr (fun u => ?_) (.guard fun _ => .exactly fun u => Iff.rfl)
        simp [ho, hw, qfenceReady_iff]
      | some b =>
        simp only [hw]
        exact .congr (fun u => by simp [ho, hw]) (closeDone_tryPerform_answers ho)
    | _ =>
      simp only [hw]
      exact .congr (fun u => by simp [ho, hw]) (closeDone_tryPerform_answers ho)

theorem tblloadComplete_answers {t g id : Nat} {s : State} {R : State → State → Prop}
    (h : operationRules (.tblloadComplete t g id) = some R) : EventAnswers (R s) s (execTblloadComplete t g id s) := by
  cases h
  unfold execTblloadComplete
  cases ho : pendOf s t g id with
  | none => exact .idle fun u hu => by simp [ho] at hu
  | some o =>
    cases hw : o.work with
    | tblload k va =>
      cases hl : (tget ({} : FnBank) (coreOf s (teamCore (teamOf s t))).banks k).loader with
      | nil =>
        simp only [hw, hl]
        rw [if_pos (by simp)]
        exact .idle fun u hu => by simp [ho, hw, hl] at hu
      | cons x rest =>
        simp only [hw, hl]
        by_cases hx : memReady (groupOf s t g) id = true ∧ x.op = some id ∧ x.holders = []
        · obtain ⟨hm, hop, hh⟩ := hx
          rw [if_neg (by simp [hm, hop, hh])]
          cases hb : bankRead s t g o va with
          | hold => exact .idle fun u hu => by simp [ho, hw, hb] at hu
          | fail kind a => exact .exactly fun u => by simp [ho, hw, hm, hl, hop, hh, hb]
          | ok r =>
            obtain ⟨s1, bs⟩ := r
            exact .exactly fun u => by simp [ho, hw, hm, hl, hop, hh, hb, and_assoc]
        · rw [if_pos (by simpa [imp_iff_not_or, or_assoc] using hx)]
          exact .idle fun u hu => by
            obtain ⟨o', k', va', x', rest', ho', hw', hm, hl', hop, hh, -⟩ := hu
            cases ho.symm.trans ho'
            cases hw.symm.trans hw'
            cases hl.symm.trans hl'
            exact hx ⟨hm, hop, hh⟩
    | _ => simp only [hw]; exact .idle fun u hu => by simp [ho, hw] at hu

/-! ### What no route delivers -/

theorem opUndelivered_load {s u : State} {t g : Nat} {o : Pending} {ty : Ty} {acq uni : Bool} {accs : List Acc}
    (hw : o.work = .load .peer ty acq accs uni) : opUndelivered s u t g o ↔
      ∃ k m a, lostLanes s accs = some (k, m, a) ∧ u = trapPending s t g o k (failLanes o uni m) a := by
  simp [opUndelivered, hw, and_assoc, -Bool.exists_bool]

theorem opUndelivered_atomic {s u : State} {t g : Nat} {o : Pending} {op : AtomOp} {ty : Ty} {acq rel uni : Bool}
    {accs : List Acc} (hw : o.work = .atomic op .peer ty acq rel accs uni) : opUndelivered s u t g o ↔
      ∃ keys k m a, accKeys s (teamOf s t) accs (spaceTgt .peer) = .ok keys ∧ lostLanes s accs = some (k, m, a) ∧
        u = failAtomic (releaseOp s t g o.scope rel) t g o op .peer ty uni (accs.zip keys) k m a := by
  simp [opUndelivered, hw, and_assoc, -Bool.exists_bool]

/-- Three cases on an empty list and a flag, as the rule and as the model writes them. -/
theorem emptyCases_iff {α β : Type} {l : List α} {b : Bool} {u x y z : β} :
    ((l = [] ∧ b = true ∧ u = x) ∨ (l = [] ∧ b = false ∧ u = y) ∨ (l ≠ [] ∧ u = z)) ↔
      u = if l.isEmpty then (if b then x else y) else z := by
  cases l <;> cases b <;> simp

theorem opUndelivered_store {s u : State} {t g : Nat} {o : Pending} {ty : Ty} {rel : Bool} {accs : List Acc}
    (hw : o.work = .store .peer ty rel accs) : opUndelivered s u t g o ↔ u = opLost s t g o := by
  simp only [opLost, hw, logDropped, List.map_map, Function.comp_def]
  rw [← emptyCases_iff]
  constructor
  · rintro (⟨_, _, _, _, _, _, _, hw', -⟩ | ⟨_, _, _, _, _, _, _, _, _, _, hw', -⟩ | ⟨_, _, _, hw', h⟩) <;>
      cases hw.symm.trans hw'
    exact h
  · exact fun h => .inr (.inr ⟨ty, rel, accs, hw, h⟩)

/-- The trap of the lanes that no route serves, as opLost writes it. -/
theorem columnTrap_undelivered (s : State) (accs : List Acc) :
    columnTrap ((undelivered s accs).map fun a => (a.lane, a.addr, TrapKind.uncorrected)) = lostLanes s accs := rfl

theorem opLost_answers {s : State} {t g : Nat} {o : Pending} :
    EventAnswers (opUndelivered s · t g o) s (.next (opLost s t g o)) := by
  cases hw : o.work with
  | load sp ty acq accs uni =>
    cases sp with
    | peer =>
      refine .congr (fun u => opUndelivered_load hw) ?_
      simp only [opLost, hw, columnTrap_undelivered]
      cases hl : lostLanes s accs with
      | none => exact .idle fun u hu => by simp at hu
      | some f => obtain ⟨k, m, a⟩ := f; exact .exactly fun u => by simp
    | _ => simp only [opLost, hw]; exact .idle fun u hu => by simp [opUndelivered, hw] at hu
  | atomic op sp ty acq rel accs uni =>
    cases sp with
    | peer =>
      refine .congr (fun u => opUndelivered_atomic hw) ?_
      simp only [opLost, hw, columnTrap_undelivered]
      cases hk : accKeys s (teamOf s t) accs (spaceTgt .peer) with
      | ok keys =>
        cases hl : lostLanes s accs with
        | none => exact .idle fun u hu => by simp at hu
        | some f => obtain ⟨k, m, a⟩ := f; exact .exactly fun u => by simp
      | _ => exact .idle fun u hu => by simp at hu
    | _ => simp only [opLost, hw]; exact .idle fun u hu => by simp [opUndelivered, hw] at hu
  | store sp ty rel accs =>
    cases sp with
    | peer => exact .exactly fun u => opUndelivered_store hw
    | _ => simp only [opLost, hw]; exact .idle fun u hu => by simp [opUndelivered, hw] at hu
  | _ => simp only [opLost, hw]; exact .idle fun u hu => by simp [opUndelivered, hw] at hu

theorem linkDeliveryTimeout_op_answers {t g id : Nat} {s : State} {R : State → State → Prop}
    (h : operationRules (.linkDeliveryTimeout t g (.op id)) = some R) :
    EventAnswers (R s) s (execLinkDeliveryTimeout t g (.op id) s) := by
  cases h
  simp only [execLinkDeliveryTimeout]
  cases ho : pendOf s t g id with
  | none => exact .idle fun u hu => by simp at hu
  | some o =>
    refine .congr (fun u => ?_) (.stayWhen fun _ => opLost_answers)
    simp [and_assoc]

theorem linkDeliveryTimeout_csum_answers {t g id : Nat} {s : State} {R : State → State → Prop}
    (h : operationRules (.linkDeliveryTimeout t g (.csum id)) = some R) :
    EventAnswers (R s) s (execLinkDeliveryTimeout t g (.csum id) s) := by
  cases h
  simp only [execLinkDeliveryTimeout, csumLost]
  cases hk : (teamOf s t).csums.find? fun k => k.id == id with
  | none => exact .idle fun u hu => by simp at hu
  | some k =>
    refine .congr (fun u => ?_) (.stayWhen fun _ => .exactly fun u => Iff.rfl)
    simp [and_assoc]

theorem linkDeliveryTimeout_wait_answers {t g p : Nat} {s : State} {R : State → State → Prop}
    (h : operationRules (.linkDeliveryTimeout t g (.wait p)) = some R) :
    EventAnswers (R s) s (execLinkDeliveryTimeout t g (.wait p) s) := by
  cases h
  simp only [execLinkDeliveryTimeout, waitLost]
  cases hw : (pathOf s t g p).wait with
  | addr id va cmp cc acq d read =>
    cases ht : translate s (teamOf s t).ctx (asks s (teamOf s t).die) va .rd none with
    | key k =>
      simp only [ht]
      by_cases hk : 2 ^ 61 ≤ k ∧ k < 2 ^ 62
      · rw [if_pos hk]
        obtain ⟨hlo, hhi⟩ := hk
        refine .congr (fun u => ?_) (.stayWhen fun _ => .exactly fun u => Iff.rfl)
        simp [ht, hlo, hhi, ← teamRuns_iff, teamRuns, and_assoc, and_left_comm, -Nat.reducePow]
      · rw [if_neg hk, ite_self]
        exact .idle fun u hu => by
          obtain ⟨_, _, _, _, _, _, _, key, -, -, hw', -, -, ht', hlo, hhi, -⟩ := hu
          cases hw'
          cases ht.symm.trans ht'
          exact hk ⟨hlo, hhi⟩
    | _ => simp only [ht, ite_self]; exact .idle fun u hu => by simp [ht] at hu
  | _ => simp only [ite_self]; exact .idle fun u hu => by simp at hu

/-- A chunk of a started collective that no earlier operation holds back and no route has delivered for 2^20 ticks. -/
def chunkDue (s : State) (t : Nat) (C : Copy) (slice line : Nat) : Prop :=
  (C.started = true ∧ C.tick.getD s.gt + 2 ^ 20 ≤ s.gt) ∧
    ((slice, line) ∈ C.todo ∧ chunkBlocked s (teamOf s t) C slice line = false)

/-- A collective's slice by its index. -/
def sliceOf (C : Copy) (slice : Nat) : Slice := C.slices.getD slice {}

/-- Whether no route delivers the read of a slice's chunk, and not its write (10 R245). -/
def readLost (s : State) (x : Slice) : Bool := ctlSsp x.ctl == 2 && (!(ctlDsp x.ctl == 2) || Config.undelivered s.free 0)

theorem readLost_iff {s : State} {x : Slice} : readLost s x = true ↔
    ctlSsp x.ctl = 2 ∧ (ctlDsp x.ctl = 2 → Config.undelivered s.free 0 = true) := by
  simp [readLost, imp_iff_not_or]

/-- The first address that a chunk reads. -/
def chunkAddr (x : Slice) (line : Nat) : Nat := ((lineReads x line).head?.map (·.1)).getD x.saddr

/-- What a chunk leaves whose write is dropped and logged. -/
def writeDropped (s : State) (t id slice line : Nat) (C : Copy) : Span State :=
  chunkBy (fun s _ _ lo _ => .ok (logDropped s [lo])) (modCopy s t id fun _ => without C slice line) t (without C slice line)
    slice line

section
variable {s u : State} {t id slice line : Nat} {C : Copy} (hC : copyOf (teamOf s t) id = some C)
include hC

theorem chunkUndelivered_of_copy : chunkUndelivered s u t id slice line ↔
    chunkDue s t C slice line ∧
      ((readLost s (sliceOf C slice) = true ∧ canArrive s t C.bar 1 = true ∧
          u = copyFails s t C .uncorrected (chunkAddr (sliceOf C slice) line)) ∨
       (¬readLost s (sliceOf C slice) = true ∧ ctlDsp (sliceOf C slice).ctl = 2 ∧
          writeDropped s t id slice line C = .ok u)) := by
  simp only [chunkUndelivered, hC, Option.some.injEq, exists_eq_left', chunkDue, readLost_iff, and_assoc]
  rfl

theorem faultChunk_of_copy {act : State → Copy → Span State} : faultChunk act t id slice line s =
    if !C.todo.contains (slice, line) || chunkBlocked s (teamOf s t) C slice line || !canArrive s t C.bar 1 then s
    else match act s (without C slice line) with
      | .fail k va => copyFails s t C k va
      | _ => s := by
  simp only [faultChunk, hC]
  rfl

theorem landChunk_of_copy {act : State → Copy → Span State} : landChunk act t id slice line s =
    if !C.todo.contains (slice, line) || chunkBlocked s (teamOf s t) C slice line then s
    else match act (modCopy s t id fun _ => without C slice line) (without C slice line) with
      | .ok s1 => s1
      | _ => s := by
  simp only [landChunk, hC]
  rfl

theorem chunkLost_of_not_due (hn : ¬chunkDue s t C slice line) : chunkLost s t id slice line = s := by
  simp only [chunkLost, hC, faultChunk_of_copy hC, landChunk_of_copy hC]
  by_cases hs : C.started = true ∧ C.tick.getD s.gt + 2 ^ 20 ≤ s.gt
  · have hc : (!C.todo.contains (slice, line) || chunkBlocked s (teamOf s t) C slice line) = true := by
      obtain ⟨hst, htick⟩ := hs
      simpa [chunkDue, hst, htick, imp_iff_not_or, -Nat.reducePow] using hn
    simp only [hc, Bool.true_or, if_true, ite_self]
  · rw [if_pos (by simpa [imp_iff_not_or] using hs)]

theorem chunkLost_of_due (hd : chunkDue s t C slice line) : chunkLost s t id slice line =
    if readLost s (sliceOf C slice) then
      if !canArrive s t C.bar 1 then s else copyFails s t C .uncorrected (chunkAddr (sliceOf C slice) line)
    else if ctlDsp (sliceOf C slice).ctl = 2 then
      match writeDropped s t id slice line C with
      | .ok s1 => s1
      | _ => s
    else s := by
  obtain ⟨⟨hst, htick⟩, hmem, hfree⟩ := hd
  simp only [chunkLost, hC, faultChunk_of_copy hC, landChunk_of_copy hC]
  rw [if_neg (by simp [hst, htick, -Nat.reducePow]), hfree, List.contains_iff_mem.mpr hmem]
  simp only [Bool.not_true, Bool.or_self, Bool.false_or, beq_iff_eq]
  rfl

end

theorem chunkLost_answers {s : State} {t id slice line : Nat} :
    EventAnswers (chunkUndelivered s · t id slice line) s (.next (chunkLost s t id slice line)) := by
  cases hC : copyOf (teamOf s t) id with
  | none => simp only [chunkLost, hC]; exact .idle fun u hu => by simp [chunkUndelivered, hC] at hu
  | some C =>
    refine .congr (fun u => chunkUndelivered_of_copy hC) ?_
    by_cases hd : chunkDue s t C slice line
    · rw [chunkLost_of_due hC hd]
      by_cases hr : readLost s (sliceOf C slice) = true
      · rw [if_pos hr]
        by_cases ha : canArrive s t C.bar 1 = true
        · rw [if_neg (by simp [ha])]
          exact .exactly fun u => by simp [hd, hr, ha]
        · rw [if_pos (by simpa using ha)]
          exact .idle fun u hu => by simp [hr, ha] at hu
      · rw [if_neg hr]
        by_cases hp : ctlDsp (sliceOf C slice).ctl = 2
        · rw [if_pos hp]
          cases hw : writeDropped s t id slice line C with
          | ok s1 => exact .exactly fun u => by simpa [hd, hr, hp] using eq_comm
          | _ => exact .idle fun u hu => by simp [hr] at hu
        · rw [if_neg hp]
          exact .idle fun u hu => by simp [hr, hp] at hu
    · rw [chunkLost_of_not_due hC hd]
      exact .idle fun u hu => hd hu.1

theorem linkDeliveryTimeout_answers {t g : Nat} {lost : Lost} {s : State} {R : State → State → Prop}
    (h : operationRules (.linkDeliveryTimeout t g lost) = some R) :
    EventAnswers (R s) s (execLinkDeliveryTimeout t g lost s) := by
  cases lost with
  | op id => exact linkDeliveryTimeout_op_answers h
  | chunk id slice line => cases h; exact chunkLost_answers
  | csum id => exact linkDeliveryTimeout_csum_answers h
  | wait p => exact linkDeliveryTimeout_wait_answers h

/-! ### The table -/

/-- Settles O21: each event against its rule. -/
theorem operationEventEffects : Obligations.OperationEventEffects := by
  intro i R s h
  cases i with
  | pendingResultComplete t g id => exact pendingResultComplete_answers h
  | asyncTrap t g => exact asyncTrap_answers h
  | tblloadComplete t g id => exact tblloadComplete_answers h
  | qfenceArrive t g id => exact qfenceArrive_answers h
  | cqpopTake t g id => exact cqpopTake_answers h
  | linkDeliveryTimeout t g lost => exact linkDeliveryTimeout_answers h
  | _ => exact absurd h (Option.some_ne_none _).symm

end Sys2Proof
end

section
/-! PROOFS. Integer results fit their type (03 R65), and narrow elements fill their register (02 R27). -/

namespace Sys2Proof
open Machine Safety Claims

/-! ### The low bits of an integer, and their two's-complement value -/

theorem natCast_wrapInt (w : Nat) (z : Int) : (wrapInt w z : Int) = z % (2 ^ w : Nat) :=
  Int.toNat_of_nonneg (Int.emod_nonneg _ (by positivity))

theorem wrapInt_lt (w : Nat) (z : Int) : wrapInt w z < 2 ^ w := by
  rw [← Int.ofNat_lt, natCast_wrapInt]
  exact Int.emod_lt_of_pos _ (by positivity)

theorem wrapInt_modEq (w : Nat) (z : Int) : (wrapInt w z : Int) ≡ z [ZMOD (2 ^ w : Nat)] := by
  rw [natCast_wrapInt]
  exact Int.mod_modEq _ _

theorem sint_modEq (w x : Nat) : sint w x ≡ x [ZMOD (2 ^ w : Nat)] := by
  simp only [sint]
  split
  · exact Int.natCast_modEq_iff.mpr (Nat.mod_modEq _ _)
  · exact (Int.sub_modulus_modEq_iff).mpr (Int.natCast_modEq_iff.mpr (Nat.mod_modEq _ _))

theorem sint_mem_Icc {w : Nat} (hw : 0 < w) (x : Nat) :
    sint w x ∈ Set.Icc (-(2 ^ (w - 1) : Nat) : Int) ((2 ^ (w - 1) : Nat) - 1) := by
  have htwo := Nat.two_pow_pred_add_two_pow_pred hw
  have hlt := Nat.mod_lt x (Nat.two_pow_pos w)
  simp only [sint, Set.mem_Icc]
  split <;> omega

/-- An element below its sign bit is its own value. -/
theorem sint_of_lt {w x : Nat} (hw : 0 < w) (hx : x < 2 ^ (w - 1)) : sint w x = x := by
  have htwo := Nat.two_pow_pred_add_two_pow_pred hw
  simp only [sint, Nat.mod_eq_of_lt (show x < 2 ^ w by omega), if_pos (Or.inl hx)]

/-- An element with its sign bit set is 2^w below its bits. -/
theorem sint_of_ge {w x : Nat} (hw : 0 < w) (hlo : 2 ^ (w - 1) ≤ x) (hx : x < 2 ^ w) : sint w x = x - (2 ^ w : Nat) := by
  simp only [sint, Nat.mod_eq_of_lt hx]
  rw [if_neg (by omega)]

/-! ### The value of an element of an integer type -/

theorem tyWidth_pos (t : Ty) : 0 < tyWidth t := by cases t <;> decide

/-- The range of an integer type holds 2^w values. -/
theorem greatest_sub_least (t : Ty) : greatest t - least t = (2 ^ tyWidth t : Nat) - 1 := by
  have htwo := Nat.two_pow_pred_add_two_pow_pred (tyWidth_pos t)
  simp only [greatest, least]
  split <;> omega

theorem intOf_modEq (t : Ty) (x : Nat) : intOf t x ≡ x [ZMOD (2 ^ tyWidth t : Nat)] := by
  simp only [intOf]
  split
  · exact sint_modEq _ _
  · exact Int.natCast_modEq_iff.mpr (Nat.mod_modEq _ _)

theorem intOf_mem_range (t : Ty) (x : Nat) : intOf t x ∈ Set.Icc (least t) (greatest t) := by
  simp only [intOf, least, greatest]
  split
  · exact sint_mem_Icc (tyWidth_pos t) x
  · have := Nat.mod_lt x (Nat.two_pow_pos (tyWidth t))
    constructor <;> omega

theorem intOf_wrapInt_modEq (t : Ty) (z : Int) : intOf t (wrapInt (tyWidth t) z) ≡ z [ZMOD (2 ^ tyWidth t : Nat)] :=
  (intOf_modEq t _).trans (wrapInt_modEq _ z)

/-- A value in the type's range is the only one there that is equal to it modulo 2^w. -/
theorem intOf_wrapInt_of_mem_range {t : Ty} {z : Int} (hz : z ∈ Set.Icc (least t) (greatest t)) :
    intOf t (wrapInt (tyWidth t) z) = z := by
  obtain ⟨hlo, hhi⟩ := hz
  obtain ⟨hlo', hhi'⟩ := intOf_mem_range t (wrapInt (tyWidth t) z)
  have hsize := greatest_sub_least t
  have hdvd := (intOf_wrapInt_modEq t z).symm.dvd
  exact sub_eq_zero.mp (Int.eq_zero_of_abs_lt_dvd hdvd (abs_lt.mpr (by omega)))

/-! ### Results under GM.SAT (03 R65) -/

/-- The model's clamp is the rule's. -/
theorem reduceInt_sat (t : Ty) (z : Int) :
    reduceInt t true z = wrapInt (tyWidth t) (max (least t) (min z (greatest t))) := by
  have hsize := greatest_sub_least t
  have hpos := Nat.two_pow_pos (tyWidth t)
  change wrapInt _ (if z < least t then least t else if greatest t < z then greatest t else z) = _
  congr 1
  split_ifs <;> omega

theorem reduceInt_wrap (t : Ty) (z : Int) : reduceInt t false z = wrapInt (tyWidth t) z := rfl

theorem clamp_mem_range (t : Ty) (z : Int) : max (least t) (min z (greatest t)) ∈ Set.Icc (least t) (greatest t) := by
  have hsize := greatest_sub_least t
  have hpos := Nat.two_pow_pos (tyWidth t)
  constructor <;> omega

/-! ### Narrow elements in a register (02 R27) -/

theorem extendElem_signed {t : Ty} (ht : t = .i8 ∨ t = .i16) (x : Nat) :
    extendElem t x = wrapInt 32 (sint (tyWidth t) x) := by
  obtain rfl | rfl := ht <;> rfl

theorem extendElem_zeros {t : Ty} {x : Nat} (h8 : t ≠ .i8) (h16 : t ≠ .i16) (hw : tyWidth t < 32) (hx : x < 2 ^ tyWidth t) :
    extendElem t x = x := by
  unfold extendElem
  split
  · exact absurd rfl h8
  · exact absurd rfl h16
  · rw [if_pos hw, Nat.mod_eq_of_lt hx]

/-- The low bits of a sign-extended element are the element. -/
theorem wrapInt_sint_mod {n w x : Nat} (hwn : w ≤ n) (hx : x < 2 ^ w) : wrapInt n (sint w x) % 2 ^ w = x := by
  have hdvd : ((2 ^ w : Nat) : Int) ∣ (2 ^ n : Nat) := Int.natCast_dvd_natCast.mpr (Nat.pow_dvd_pow 2 hwn)
  have hmod : wrapInt n (sint w x) ≡ x [MOD 2 ^ w] :=
    Int.natCast_modEq_iff.mp (((wrapInt_modEq n _).of_dvd hdvd).trans (sint_modEq w x))
  exact Nat.mod_eq_of_modEq hmod hx

theorem wrapInt_sint_of_lt {n w x : Nat} (hw : 0 < w) (hwn : w ≤ n) (hx : x < 2 ^ (w - 1)) : wrapInt n (sint w x) = x := by
  have hle := Nat.pow_le_pow_right Nat.two_pos (show w - 1 ≤ n by omega)
  rw [← Int.natCast_inj, natCast_wrapInt, sint_of_lt hw hx, ← Int.natCast_mod, Nat.mod_eq_of_lt (hx.trans_le hle)]

/-- Ones stand above an element whose sign bit is set. -/
theorem wrapInt_sint_of_ge {n w x : Nat} (hw : 0 < w) (hwn : w ≤ n) (hlo : 2 ^ (w - 1) ≤ x) (hx : x < 2 ^ w) :
    wrapInt n (sint w x) = 2 ^ n - 2 ^ w + x := by
  have hle := Nat.pow_le_pow_right Nat.two_pos hwn
  rw [← Int.natCast_inj, natCast_wrapInt, sint_of_ge hw hlo hx, ← Int.add_emod_right, Int.emod_eq_of_lt] <;> omega

/-- Settles O44: what a result reads back as is in the range and right modulo 2^w, and there is one such value; a narrow
element is extended by its type. -/
theorem resultsFitTheirType : Obligations.ResultsFitTheirType := by
  refine ⟨fun t z _ => ?_, fun t x hw hx => ?_⟩
  · obtain ⟨hlo, hhi⟩ := intOf_mem_range t (reduceInt t false z)
    refine ⟨?_, hlo, hhi, Int.emod_eq_zero_of_dvd (intOf_wrapInt_modEq t z).symm.dvd⟩
    rw [reduceInt_sat, intOf_wrapInt_of_mem_range (clamp_mem_range t z)]
  · have hpos := tyWidth_pos t
    by_cases ht : t = .i8 ∨ t = .i16
    · rw [extendElem_signed ht]
      refine ⟨wrapInt_sint_mod hw.le hx, wrapInt_lt _ _, fun _ => ⟨wrapInt_sint_of_lt hpos hw.le, fun hlo => ?_⟩,
        fun h8 h16 => absurd ht (by tauto)⟩
      exact wrapInt_sint_of_ge hpos hw.le hlo hx
    · obtain ⟨h8, h16⟩ := not_or.mp ht
      have hx32 := hx.trans (Nat.pow_lt_pow_right Nat.one_lt_two hw)
      rw [extendElem_zeros h8 h16 hw hx]
      exact ⟨Nat.mod_eq_of_lt hx, hx32, fun h => absurd h ht, fun _ _ => rfl⟩

end Sys2Proof
end

section
/-! PROOFS. Words that write predicates, control state and registers by rules of their own (04 R102 to R112, 05 R126 to R138, 14
R352, 16 R395 to R397, 18 R410): each word's entry against its form. -/

namespace Sys2Proof
open Machine Safety Claims
set_option tactic.hygienic false

/-! ### A word's entry against its form -/

/-- The entry of the word i is an issue whose checks are those of the form F, and which, under the form's conditions, passes
them and ends with the form's effect. -/
structure EffEntry (i : Instr) (F : EffForm) (chk : Team → Group → Path → Chk) (body : Iss → Eff) : Prop where
  entry : ∀ s, exec i s = issueWord i chk body s
  uses : ∀ T G P, (chk T G P).uses = F.uses P.gm
  waits : ∀ T G P, (chk T G P).waits = F.all
  passes : ∀ c, F.pre c →
    (chk c.T c.G c.P).illegal = false ∧ (chk c.T c.G c.P).opBad = false ∧ (chk c.T c.G c.P).modeBad = false
  effect : ∀ c, F.pre c → body c = effOf F.way (F.eff c)

/-- A form of the word i has an entry. -/
def Enters (i : Instr) (F : EffForm) : Prop := ∃ chk body, EffEntry i F chk body

theorem effTable_of_entries {forms : Instr → List EffForm} (h : ∀ i, (forms i).Forall (Enters i)) : EffTable forms := by
  intro i F s t g p hF us hI ho hp
  obtain ⟨chk, body, e⟩ := List.forall_iff_forall_mem.mp (h i) F hF
  refine eff_claim (e.entry s) hI ho hp fun c hc => ?_
  obtain ⟨hi, hb, hm⟩ := e.passes c hc
  exact ⟨e.uses .., e.waits .., hi, hb, hm, e.effect c hc⟩

/-- A guarded word's two forms: with no active lane its entry does nothing, with one it has its effect. -/
theorem guarded_entry {i : Instr} {uses : GM → List Use} {all : Bool} {ok : GM → Prop} {pre : Iss → Prop} {eff : Iss → State}
    {chk : Team → Group → Path → Chk} {body : Iss → Eff} (he : ∀ s, exec i s = issueWord i chk body s)
    (hu : ∀ T G P, (chk T G P).uses = uses P.gm) (hw : ∀ T G P, (chk T G P).waits = all)
    (hp : ∀ T G P, ok P.gm → (chk T G P).illegal = false ∧ (chk T G P).opBad = false ∧ (chk T G P).modeBad = false)
    (h0 : ∀ c, c.act = 0 → body c = .adv c.s) (h1 : ∀ c, ok c.P.gm → c.act ≠ 0 → pre c → body c = .adv (eff c)) :
    (guarded uses all ok pre eff).Forall (Enters i) :=
  And.intro ⟨chk, body, he, hu, hw, fun _ hc => hp _ _ _ hc.1, fun c hc => h0 c hc.2⟩
    ⟨chk, body, he, hu, hw, fun _ hc => hp _ _ _ hc.1, fun c ⟨hok, ha, hpre⟩ => h1 c hok ha hpre⟩

/-! ### Compares and PLOG -/

theorem bits64_eq (gm : GM) : bits64 gm = (tyBITS gm.type && gm.type != .b128) := rfl

theorem compares_entry (i : Instr) : (compares i).Forall (Enters i) := by
  induction i with
  | fcmp cc p a b | icmp cc p a b | icmpi cc p a imm =>
    change Enters _ _
    exact ⟨_, _, fun _ => rfl, fun _ _ _ => rfl, fun _ _ _ => rfl,
      fun c (hc : _ = true) => ⟨rfl, rfl, by simp [bits64_eq, hc]⟩, fun _ _ => rfl⟩
  | plog pd pa pb pc tt =>
    change Enters _ _
    refine ⟨_, _, fun _ => rfl, fun _ _ _ => rfl, fun _ _ _ => rfl, fun c _ => ⟨rfl, rfl, rfl⟩, fun c _ => ?_⟩
    simp only [bit_eq_testBit]
    rfl
  | _ => exact trivial

/-- Settles O8: each compare's entry. -/
theorem predicateResults : Obligations.PredicateResults := effTable_of_entries compares_entry

/-! ### Words of control state -/

theorem controls_entry (i : Instr) : (controls i).Forall (Enters i) := by
  induction i with
  | nop | exit | sleep n | premask en =>
    change Enters _ _
    exact ⟨_, _, fun _ => rfl, fun _ _ _ => rfl, fun _ _ _ => rfl, fun c _ => ⟨rfl, rfl, rfl⟩, fun _ _ => rfl⟩
  | setmode gm =>
    change Enters _ _
    exact ⟨_, _, fun _ => rfl, fun _ _ _ => rfl, fun _ _ _ => rfl, fun c _ => ⟨rfl, rfl, rfl⟩,
      fun c hc => if_neg (by simpa using hc)⟩
  | frame n =>
    change Enters _ _
    refine ⟨_, _, fun _ => rfl, fun _ _ _ => rfl, fun _ _ _ => rfl, fun c _ => ⟨rfl, rfl, rfl⟩, fun c hc => ?_⟩
    obtain ⟨hpos, hmax, hblk, hstore⟩ := hc
    exact (if_neg (by omega)).trans (if_neg (by omega))
  | swrite idx a =>
    refine List.forall_append.mpr ⟨?_, ?_⟩
    · refine guarded_entry (fun _ => rfl) (fun _ _ _ => rfl) (fun _ _ _ => rfl)
        (fun _ _ _ ha => ⟨rfl, by simp [ha], rfl⟩) (fun c ha => if_pos (by simp [ha])) (fun c _ ha hidx => ?_)
      refine (if_neg (by simpa using ha)).trans ((if_neg (by simp [hidx])).trans ?_)
      simp only [writeSreg, if_pos hidx.2]
    · refine guarded_entry (fun _ => rfl) (fun _ _ _ => rfl) (fun _ _ _ => rfl)
        (fun _ _ _ ha => ⟨rfl, by simp [ha], rfl⟩) (fun c ha => if_pos (by simp [ha])) (fun c _ ha hidx => ?_)
      refine (if_neg (by simpa using ha)).trans ((if_neg (by simp [hidx])).trans ?_)
      simp only [writeSreg, if_neg (show ¬idx ≤ 0x15 by omega)]
  | _ => exact trivial

/-- Settles O9: each control word's entry. -/
theorem controlWordResults : Obligations.ControlWordResults := effTable_of_entries controls_entry

/-! ### Selections, moves, special registers and tables -/

/-- An entry writes a form's values to its destination: or it leaves the state, where there is no register to write. -/
def WritesForm (F : RegForm) (c : Iss) (e : Eff) : Prop :=
  (useBad { op := F.d, n := F.n c.G c.P, src := false, dst := true } = false ∧
    e = .adv (wrLanes c c.s F.d (F.n c.G c.P) (F.mask c) (F.val c))) ∨
  (written c.P F.d (F.n c.G c.P) (F.mask c) (F.val c) = [] ∧ e = .adv c.s)

/-- The entry of the word i is an issue whose checks are those of the form F, and which, under the form's conditions and with
its operands as they must be, passes them and writes the form's values. -/
structure RegEntry (i : Instr) (F : RegForm) (s : State) (chk : Team → Group → Path → Chk) (body : Iss → Eff) : Prop where
  entry : exec i s = issueWord i chk body s
  uses : ∀ T G P, (chk T G P).uses = F.uses G P
  waits : ∀ T G P, (chk T G P).waits = false
  passes : ∀ c, F.pre c → c.s.ctxs = s.ctxs →
    (chk c.T c.G c.P).illegal = false ∧ (chk c.T c.G c.P).opBad = false ∧ (chk c.T c.G c.P).modeBad = false
  effect : ∀ c, F.pre c → usesBad (F.uses c.G c.P) = false → frameBad c.P (F.uses c.G c.P) = false → WritesForm F c (body c)

/-- A word whose entry leaves the state has written no register, whatever the destination that is named for it. -/
theorem results_of_written_nil {i : Instr} {s : State} {t g p n : Nat} {d : Operand} {m : Mask} {f : Nat → Nat} {dr : Bool}
    (hw : written (pathOf s t g p) d n m f = []) (h : Results i s t g p .zero 1 m f dr) : Results i s t g p d n m f dr := by
  unfold Results at h ⊢
  rw [hw]
  exact h

theorem RegEntry.results {i : Instr} {F : RegForm} {chk : Team → Group → Path → Chk} {body : Iss → Eff}
    {s : State} (e : RegEntry i F s chk body) {t g p : Nat} {us : List Use} (hu : F.uses (groupOf s t g) (pathOf s t g p) = us)
    (hI : Issues i s t g p false) (ho : Operands s t g p us) (hp : F.pre (view i s t g p us)) :
    Results i s t g p F.d (F.n (groupOf s t g) (pathOf s t g p)) (F.mask (view i s t g p us)) (F.val (view i s t g p us))
      (namesDrain us) := by
  have hk : (chk (teamOf s t) (groupOf s t g) (pathOf s t g p)).uses = us := (e.uses ..).trans hu
  have hI' : Issues i s t g p (chk (teamOf s t) (groupOf s t g) (pathOf s t g p)).waits := by rwa [e.waits]
  obtain ⟨hi, hb, hm⟩ := e.passes _ hp (by rw [view_module])
  have hx := e.effect _ hp (by simpa [hu] using ho.uses) (by simpa [hu] using ho.frame)
  simp only [WritesForm, view_T, view_G, view_P] at hi hb hm hx
  rw [← hk] at ho hx ⊢
  obtain ⟨hd, hx⟩ | ⟨hw, hx⟩ := hx
  · exact results_of e.entry rfl hI' ho hi hb hm hd hx
  · exact results_of_written_nil hw (results_of e.entry rfl hI' ho hi hb hm rfl hx)

theorem written_of_no_lane {P : Path} {d : Operand} {n : Nat} {m : Mask} {f : Nat → Nat} (h : m = 0) :
    written P d n m f = [] := by
  subst h
  cases d <;> rfl

theorem sregOf_eq (c : Iss) (idx l : Nat) : sregOf c idx l = special c idx l := rfl

theorem sysReg_eq (G : Group) (C : Ctx) (idx : Nat) : sysReg G C idx = system G C idx := by
  have hlow : ∀ x, bits x 31 0 = x % 2 ^ 32 := fun x => by rw [bits, pow_zero, Nat.div_one]
  unfold sysReg
  dsimp only
  rw [hlow, hlow, hlow, hlow, hlow]
  rfl

/-- The form of the word i has an entry in every state. -/
def Moves (i : Instr) (F : RegForm) : Prop := ∀ s, ∃ chk body, RegEntry i F s chk body

theorem moves_entry (i : Instr) : (moves i).elim True (Moves i) := by
  induction i with
  | gscan op d a =>
    change Moves _ _
    intro s
    refine ⟨_, _, rfl, fun _ _ _ => rfl, fun _ _ _ => rfl, fun c hc _ => ?_,
      fun _ _ hu _ => .inl ⟨useBad_of_uses hu, rfl⟩⟩
    obtain ⟨hd, ha, hop⟩ := hc
    have hs : isScalar d = false := by
      cases d with
      | v k => rfl
      | _ => exact absurd hd Bool.false_ne_true
    simp [laneChk, hd, ha, hop, hs]
  | sel d a b =>
    change Moves _ _
    intro s
    exact ⟨_, _, rfl, fun _ _ _ => rfl, fun _ _ _ => rfl, fun c hc _ => ⟨rfl, hc, rfl⟩,
      fun _ _ hu _ => .inl ⟨useBad_of_uses hu, rfl⟩⟩
  | smov d a b =>
    change Moves _ _
    intro s
    refine ⟨_, _, rfl, fun _ _ _ => rfl, fun _ _ _ => rfl, fun c hc _ => ?_,
      fun c _ hu _ => .inl ⟨useBad_of_uses hu, ?_⟩⟩
    · obtain ⟨hd, ha, hb, ht⟩ := hc
      simp [hd, ha, hb, ht]
    · dsimp only
      congr 2
      funext _
      by_cases hk : rd c b 0 0 < 96 <;> cases hl : c.G.present.getLsbD (rd c b 0 0) <;> simp [hk]
  | bcast d a =>
    change Moves _ _
    intro s
    refine ⟨_, _, rfl, fun _ _ _ => rfl, fun _ _ _ => rfl, fun c hc _ => ?_,
      fun _ _ hu _ => .inl ⟨useBad_of_uses hu, rfl⟩⟩
    obtain ⟨ha, ht⟩ := hc
    simp [ha, ht]
  | sread d idx =>
    change Moves _ _
    intro s
    refine ⟨_, _, rfl, fun _ _ _ => rfl, fun _ _ _ => rfl, fun c hc _ => ⟨rfl, rfl, rfl⟩, fun c hc hu _ => ?_⟩
    by_cases ha : c.act = 0
    · exact .inr ⟨written_of_no_lane ha, if_pos (by simp [ha])⟩
    · obtain ⟨hidx, hlane⟩ := hc ha
      refine .inl ⟨useBad_of_uses hu, (if_neg (by simpa using ha)).trans ((if_neg ?_).trans ((if_neg ?_).trans rfl))⟩
      · simpa [sregOf_eq] using hidx
      · simpa using hlane
  | sysr d idx =>
    change Moves _ _
    intro s
    refine ⟨_, _, rfl, fun _ _ _ => rfl, fun _ _ _ => rfl, fun c hc hs => ⟨?_, rfl, rfl⟩,
      fun c hc hu _ => .inl ⟨useBad_of_uses hu, ?_⟩⟩
    · rw [ctxOf, ← hs, ← ctxOf, sysReg_eq]
      simpa [Option.isSome_iff_ne_none] using hc
    · simp only [sysReg_eq]
  | tick d =>
    change Moves _ _
    intro s
    refine ⟨_, _, rfl, fun _ _ _ => rfl, fun _ _ _ => rfl, fun c _ _ => ⟨rfl, rfl, rfl⟩, fun c _ hu _ => ?_⟩
    by_cases hd : d = .zero
    · subst hd
      exact .inr ⟨rfl, rfl⟩
    · exact .inl ⟨useBad_of_uses (by simpa [hd] using hu), rfl⟩
  | vexpr d a b =>
    change Moves _ _
    intro s
    refine ⟨_, _, rfl, fun _ _ _ => rfl, fun _ _ _ => rfl, fun c hc _ => ?_, fun c hc hu hf => ?_⟩
    · obtain ⟨hb, ht, -, -⟩ := hc
      exact ⟨rfl, hb, by simp [ht]⟩
    · obtain ⟨hb, -, hmode, hok⟩ := hc
      have hm : bit (rd c b 0 0 + 2 ^ 32 * rd c b 1 0) 3 = exprMode c.G c.P b := (bit_eq_testBit ..).trans hmode
      simp only [hm, hb, hf, Bool.or_false, Bool.false_eq_true, if_false]
      by_cases ha : c.act = 0
      · exact .inr ⟨written_of_no_lane ha, if_pos (by simp [ha])⟩
      · exact .inl ⟨useBad_of_uses hu, (if_neg (by simpa using ha)).trans (if_neg (by simpa using hok ha))⟩
  | tbl d a b =>
    change Moves _ _
    intro s
    refine ⟨_, _, rfl, fun _ _ _ => rfl, fun _ _ _ => rfl, fun c hc _ => ?_, fun c hc hu _ => ?_⟩
    · obtain ⟨hb, hs, ht, hr, -⟩ := hc
      simpa [hb, ht, stoBad, hr] using hs
    · obtain ⟨-, -, ht, -, hbank⟩ := hc
      have hd := useBad_of_uses hu
      rw [ht] at hd
      by_cases ha : c.act = 0
      · exact .inr ⟨written_of_no_lane ha, if_pos (by simp [ha])⟩
      · obtain ⟨hown, hctx⟩ := hbank ha
        exact .inl ⟨hd, (if_neg (by simpa using ha)).trans ((if_neg (by simp [hown, hctx])).trans rfl)⟩
  | _ => exact trivial

/-- Settles O7: each word's entry. -/
theorem moveAndTableResults : Obligations.MoveAndTableResults := by
  intro i F s t g p h P us c hI ho hp
  have hm := moves_entry i
  rw [h] at hm
  obtain ⟨chk, body, e⟩ := hm s
  have hr := e.results rfl hI ho hp
  exact hr

end Sys2Proof
end

section
/-! PROOFS. Branches, JOIN, VOTE and the shuffles (04 R94, R95, R104 to R106, R113, R114): each word's entry against its forms. -/

namespace Sys2Proof
open Machine Safety Claims
set_option tactic.hygienic false

/-! ### Masks of lanes -/

theorem maskOf_getLsbD (ls : List Nat) {l : Nat} (hl : l < 96) : (maskOf ls).getLsbD l = ls.contains l := by
  rw [maskOf, fold_or_getLsbD _ _ _ hl, show (0 : Mask).getLsbD l = false from BitVec.getLsbD_zero, Bool.false_or]

theorem mem_lanesOf_lanesWhere {m : Mask} {f : Nat → Bool} {l : Nat} : l ∈ lanesOf (lanesWhere m f) ↔ l ∈ lanesOf m ∧ f l = true := by
  rw [mem_lanesOf, lanesWhere]
  by_cases hl : l < 96
  · rw [maskOf_getLsbD _ hl, List.contains_iff_mem, List.mem_filter]
    simp [hl]
  · simp [hl, mem_lanesOf]

theorem eq_zero_iff_lanesOf {m : Mask} : m = 0 ↔ ∀ l, l ∉ lanesOf m := by
  constructor
  · rintro rfl l h
    simp [mem_lanesOf] at h
  · intro h
    by_contra hm
    exact lanesOf_ne_nil hm (List.eq_nil_iff_forall_not_mem.mpr h)

theorem lanesWhere_eq_zero {m : Mask} {f : Nat → Bool} : lanesWhere m f = 0 ↔ ∀ l ∈ lanesOf m, f l = false := by
  rw [eq_zero_iff_lanesOf]
  simp only [mem_lanesOf_lanesWhere, not_and, Bool.not_eq_true]

/-! ### A path that divides (04 R94, R105) -/

section divide
variable {c : Iss} {s : State} {gs : List (Mask × (Machine.Path → Machine.Path))}

theorem divide_stalls (hn : 1 < gs.length) (h : noneFree c) : divide c s gs = .wait (stalled c s) := by
  obtain ⟨hw, hf⟩ := h
  match gs, hn with
  | _ :: _ :: _, _ => simp [divide, hw, hf, stalled]

theorem divide_divides (h : mayDivide c gs.length) : divide c s gs = .jump (divided c s gs) := by
  obtain ⟨hw, hn, hf⟩ := h
  match gs, hn with
  | _ :: x :: rest, _ =>
    simp only [List.length_cons] at hf
    have hne : (freeEntries c.G).isEmpty = false := by
      cases hfe : freeEntries c.G <;> simp_all
    simp only [divide, hw, hne, divided, List.isEmpty_nil, Bool.not_true, Bool.false_eq_true, if_false]
    rw [if_pos (by simp only [List.length_cons]; omega)]
    simp

theorem divide_dividesPart (h : dividesPart c gs.length) : divide c s gs = .jump (dividedPart c s gs) := by
  obtain ⟨hw, hne, hn⟩ := h
  match gs, hn with
  | _ :: x :: rest, hn =>
    simp only [List.length_cons] at hn
    simp only [divide, hw, List.isEmpty_iff, hne, dividedPart, List.isEmpty_nil, Bool.not_true, Bool.false_eq_true, if_false]
    rw [if_neg (by simp only [List.length_cons]; omega)]
    simp
  | [_], hn => exact absurd hn (by simp)
  | [], hn => exact absurd hn (by simp)

end divide

theorem groupLanes_zero {κ : Type} [DecidableEq κ] {key : Nat → κ} : groupLanes 0 key = [] := by
  rw [groupLanes, List.eq_nil_iff_forall_not_mem.mpr (eq_zero_iff_lanesOf.mp rfl)]
  rfl

/-! ### Branches -/

/-- The entry of BRA (04 R104). -/
def braBody (k : Nat) (off : Int) (c : Iss) : Eff :=
  let taken := c.act &&& predOf c.G k
  let go := fun (P : Machine.Path) => { P with pc := wordsFrom c.P.pc off }
  if taken = 0 then .adv c.s
  else if taken = c.P.mask then .jump (modPath c.s c.t c.g c.p go)
  else if openWindows c.G c.p ≠ [] then .stall
  else if freeEntries c.G = [] then .wait (stalled c c.s)
  else .adv (splitTo c.s c.t c.g c.p (nextFree c) taken go)

theorem exec_bra (k : Nat) (off : Int) (s : State) :
    exec (.bra k off) s = issueWord (.bra k off) (fun _ _ _ => {}) (braBody k off) s := by
  refine congrArg (fun body => issueWord _ _ body s) (funext fun c => ?_)
  simp only [braBody, beq_iff_eq, nextFree, stalled]
  cases openWindows c.G c.p <;> cases freeEntries c.G <;> rfl

theorem bra_form {k : Nat} {off : Int} {F : EffForm} (hu : F.uses = fun _ => []) (hw : F.all = false)
    (h : ∀ c, F.pre c → braBody k off c = effOf F.way (F.eff c)) : Enters (.bra k off) F :=
  ⟨_, _, exec_bra k off, fun _ _ _ => hu ▸ rfl, fun _ _ _ => hw ▸ rfl, fun _ _ => ⟨rfl, rfl, rfl⟩, h⟩

theorem bra_entry (k : Nat) (off : Int) : (branches (.bra k off)).Forall (Enters (.bra k off)) := by
  refine And.intro (bra_form rfl rfl ?_) (And.intro (bra_form rfl rfl ?_) (And.intro (bra_form rfl rfl ?_) (bra_form rfl rfl ?_)))
  · exact fun c h0 => if_pos h0
  · rintro c ⟨h0, hall⟩
    exact (if_neg h0).trans (if_pos hall)
  · rintro c ⟨h0, hall, hw, hf⟩
    exact (if_neg h0).trans ((if_neg hall).trans ((if_neg (not_not_intro hw)).trans (if_neg hf)))
  · rintro c ⟨h0, hall, hw, hf⟩
    exact (if_neg h0).trans ((if_neg hall).trans ((if_neg (not_not_intro hw)).trans (if_pos hf)))

theorem bru_entry (k : Nat) (off : Int) : (branches (.bru k off)).Forall (Enters (.bru k off)) :=
  And.intro
    ⟨_, _, fun _ => rfl, fun _ _ _ => rfl, fun _ _ _ => rfl, fun c _ => ⟨rfl, rfl, rfl⟩, fun c hc => if_pos (by simpa using hc)⟩
    ⟨_, _, fun _ => rfl, fun _ _ _ => rfl, fun _ _ _ => rfl, fun c _ => ⟨rfl, rfl, rfl⟩, fun c hc => if_neg (by simpa using hc)⟩

/-- The groups of lanes of BRX, with what each does to its path (04 R105). -/
def brxGroups (c : Iss) (a : Operand) : List (Mask × (Machine.Path → Machine.Path)) :=
  (groupLanes c.P.mask (brxTo c a)).map fun x => (x.2, fun P => { P with pc := x.1 })

/-- The checks of BRX. -/
def brxChk (a : Operand) : Chk := { uses := [{ op := a }], opBad := !(isVector a || isScalar a) }

/-- The entry of BRX. -/
def brxBody (a : Operand) (c : Iss) : Eff :=
  if lanesWhere c.act (fun l => rd c a 0 l % 4 != 0) != 0 then .trap .misaligned (lanesWhere c.act fun l => rd c a 0 l % 4 != 0) 0 0
  else divide c c.s (brxGroups c a)

theorem exec_brx (a : Operand) (s : State) : exec (.brx a) s = issueWord (.brx a) (fun _ _ _ => brxChk a) (brxBody a) s := rfl

theorem brxBody_aligned {a : Operand} {c : Iss} (h : ∀ l ∈ lanesOf c.act, rd c a 0 l % 4 = 0) :
    brxBody a c = divide c c.s (brxGroups c a) := by
  have h0 : lanesWhere c.act (fun l => rd c a 0 l % 4 != 0) = 0 := lanesWhere_eq_zero.mpr (by simpa using h)
  exact if_neg (by simp [h0])

/-- What a form of BRX says: its conditions give an operand that passes and aligned destinations, and it divides the path as
the form's effect says. -/
theorem brx_form {a : Operand} {F : EffForm} (hu : F.uses = fun _ => [{ op := a }]) (hw : F.all = false)
    (h : ∀ c, F.pre c → ((isVector a || isScalar a) = true ∧ ∀ l ∈ lanesOf c.act, rd c a 0 l % 4 = 0) ∧
      divide c c.s (brxGroups c a) = effOf F.way (F.eff c)) :
    Enters (.brx a) F := by
  refine ⟨_, _, exec_brx a, fun _ _ _ => hu ▸ rfl, fun _ _ _ => hw ▸ rfl, fun c hc => ?_, fun c hc => ?_⟩
  · obtain ⟨⟨hok, -⟩, -⟩ := h c hc
    exact ⟨rfl, by simp [brxChk, hok], rfl⟩
  · obtain ⟨⟨-, hal⟩, hd⟩ := h c hc
    exact (brxBody_aligned hal).trans hd

theorem brx_entry (a : Operand) : (branches (.brx a)).Forall (Enters (.brx a)) := by
  have hlen : ∀ c, (brxGroups c a).length = (groupLanes c.P.mask (brxTo c a)).length := fun c => List.length_map ..
  refine And.intro (brx_form rfl rfl ?_) (And.intro (brx_form rfl rfl ?_) (And.intro (brx_form rfl rfl ?_)
    (And.intro (brx_form rfl rfl ?_) (brx_form rfl rfl ?_))))
  · intro c ⟨hok, hc⟩
    rw [brxGroups, hc, groupLanes_zero]
    exact ⟨hok, rfl⟩
  · intro c ⟨hok, hm, hsame⟩
    rw [brxGroups, groupLanes_same hm hsame]
    exact ⟨hok, rfl⟩
  · rintro c ⟨hok, hc⟩
    exact ⟨hok, divide_divides (by rwa [hlen])⟩
  · rintro c ⟨hok, hc⟩
    exact ⟨hok, divide_dividesPart (by rwa [hlen])⟩
  · rintro c ⟨hok, hn, hf⟩
    exact ⟨hok, divide_stalls (by rwa [hlen]) hf⟩

theorem branches_entry (i : Instr) : (branches i).Forall (Enters i) := by
  induction i with
  | bra k off => exact bra_entry k off
  | bru k off => exact bru_entry k off
  | brx a => exact brx_entry a
  | join =>
    change Enters _ _
    exact ⟨_, _, fun _ => rfl, fun _ _ _ => rfl, fun _ _ _ => rfl, fun _ _ => ⟨rfl, rfl, rfl⟩, fun _ _ => rfl⟩
  | _ => exact trivial

/-- Settles O10: each branch's entry. -/
theorem branchResults : Obligations.BranchResults := effTable_of_entries branches_entry

/-! ### VOTE and the shuffles -/

/-- The entry of VOTE (04 R113). -/
def voteBody (p x y : Nat) (c : Iss) : Eff :=
  let v := voteNow c p y
  let share := modGroup c.s c.t c.g fun G => shareVotes G c.P.pc v.1 v.2.1 v.2.2
  if c.act = 0 then .adv share
  else if voteDone c.G v.1 v.2.1 then .adv (endVote c.s c.t c.g c.p c.P.pc x v.1 v.2.1 v.2.2)
  else .wait (waits { c with s := share } 2 (.vote x v.1.toNat v.2.1.toNat v.2.2.toNat))

theorem exec_vote {p x y : Nat} (s : State) : exec (.vote p (.s x) (.s y)) s =
    issueWord (.vote p (.s x) (.s y)) (fun _ _ _ => { opBad := !(decide (x ≤ 42) && decide (y ≤ 45)), waits := true })
      (voteBody p x y) s := by
  refine congrArg (fun body => issueWord _ _ body s) (funext fun c => ?_)
  have hor : ∀ m : Mask, m ||| 0 = m := fun _ => BitVec.or_zero
  by_cases ha : c.act = 0
  · simp only [voteBody, voteNow, ha, beq_self_eq_true, if_true, hor]
  · simp only [voteBody, voteNow, ha, beq_iff_eq, if_false]
    rfl

theorem vote_form {p x y : Nat} {F : EffForm} (hu : F.uses = fun _ => []) (hw : F.all = true)
    (h : ∀ c, F.pre c → x ≤ 42 ∧ y ≤ 45 ∧ voteBody p x y c = effOf F.way (F.eff c)) :
    Enters (.vote p (.s x) (.s y)) F := by
  refine ⟨_, _, exec_vote, fun _ _ _ => hu ▸ rfl, fun _ _ _ => hw ▸ rfl, fun c hc => ?_, fun c hc => ?_⟩
  · obtain ⟨hx, hy, -⟩ := h c hc
    exact ⟨rfl, by simp [hx, hy], rfl⟩
  · exact (h c hc).2.2

theorem vote_entry (p x y : Nat) : (groupWords (.vote p (.s x) (.s y))).Forall (Enters (.vote p (.s x) (.s y))) := by
  refine And.intro (vote_form rfl rfl ?_) (And.intro (vote_form rfl rfl ?_) (vote_form rfl rfl ?_))
  · rintro c ⟨hx, hy, ha⟩
    exact ⟨hx, hy, if_pos ha⟩
  · rintro c ⟨hx, hy, ha, hd⟩
    exact ⟨hx, hy, (if_neg ha).trans (if_pos hd)⟩
  · rintro c ⟨hx, hy, ha, hd⟩
    exact ⟨hx, hy, (if_neg ha).trans (if_neg (by simp [hd]))⟩

/-- A shuffle's forms against the entry that the four shuffles share. -/
theorem shuffle_entry {i : Instr} {d a b : Operand} {vec : Bool} {src : Nat → Nat → Nat}
    (he : ∀ s, exec i s = shuffle i d a b vec src s) : (shuffleForms d a b vec src).Forall (Enters i) := by
  cases d with
  | v x =>
    have hok : ∀ c : Iss, (isVector a || isScalar a) = true ∧ (if vec then isVector b || isScalar b else isUniform b) = true ∧
        c.P.gm.type ≠ .b128 → (!isVector (.v x) || !(isVector a || isScalar a) ||
          !(if vec then isVector b || isScalar b else isUniform b)) = false ∧ (c.P.gm.type == .b128) = false := by
      rintro c ⟨ha, hb, ht⟩
      rw [ha, hb]
      exact ⟨rfl, by simpa using ht⟩
    refine And.intro ⟨_, _, he, fun _ _ _ => rfl, fun _ _ _ => rfl, fun c hc => ⟨rfl, hok c hc.1⟩, ?_⟩
      (And.intro ⟨_, _, he, fun _ _ _ => rfl, fun _ _ _ => rfl, fun c hc => ⟨rfl, hok c hc.1⟩, ?_⟩
        ⟨_, _, he, fun _ _ _ => rfl, fun _ _ _ => rfl, fun c hc => ⟨rfl, hok c hc.1⟩, ?_⟩)
    · rintro c ⟨-, h0⟩
      exact if_pos (by simp [h0])
    · rintro c ⟨-, h0, hd⟩
      exact (if_neg (by simpa using h0)).trans (if_pos hd)
    · rintro c ⟨-, h0, hd⟩
      exact (if_neg (by simpa using h0)).trans (if_neg (by simp [hd]))
  | _ => exact trivial

theorem groupWords_entry (i : Instr) : (groupWords i).Forall (Enters i) := by
  induction i with
  | vote p d m =>
    cases d with
    | s x =>
      cases m with
      | s y => exact vote_entry p x y
      | _ => exact trivial
    | _ => exact trivial
  | shfl d a b =>
    exact shuffle_entry (vec := true) (src := fun _ k => if 96 ≤ k then srcZero else k) fun _ => rfl
  | shflx d a b =>
    exact shuffle_entry (vec := false) (src := fun l k => if 96 ≤ l ^^^ k then srcOwn else l ^^^ k) fun _ => rfl
  | shflu d a b =>
    exact shuffle_entry (vec := false) (src := fun l k => if l < k then srcOwn else l - k) fun _ => rfl
  | shfld d a b =>
    exact shuffle_entry (vec := false) (src := fun l k => if 96 ≤ l + k then srcOwn else l + k) fun _ => rfl
  | _ => exact trivial

/-- Settles O13: each word's entry. -/
theorem voteAndShuffleResults : Obligations.VoteAndShuffleResults := effTable_of_entries groupWords_entry

end Sys2Proof
end

section
/-! PROOFS. Paths parked at one JOIN merge into the lowest of their entries (04 R95, 02 R33, 05 R124). -/

namespace Sys2Proof
open Machine Safety Claims
set_option tactic.hygienic false

/-! ### A group's path table after an update -/

/-- A path by its entry of a group's table. -/
def pathIn (G : Machine.Group) (p : Nat) : Machine.Path := tget {} G.paths p

theorem pathOf_eq (s : State) (t g p : Nat) : pathOf s t g p = pathIn (groupOf s t g) p := rfl

theorem pathIn_setPathG (G : Machine.Group) (q p : Nat) (P : Machine.Path) :
    pathIn (setPathG G q P) p = if q = p then P else pathIn G p := tget_tput ..

theorem tget_tmap_default {α : Type} {d : α} {m : Table α} {f : Nat → α → α} {k : Nat} (h : f k d = d) :
    tget d (tmap m f) k = f k (tget d m k) := by
  unfold tget
  rw [tfind_tmap]
  cases tfind m k with
  | none => exact h.symm
  | some v => rfl

/-- A path out of split stall, any other as it is (04 R94). -/
def woken (P : Machine.Path) : Machine.Path := if P.valid && P.state == 6 then { P with state := 0 } else P

theorem pathIn_wakeSplit (G : Machine.Group) (p : Nat) : pathIn (wakeSplit G) p = woken (pathIn G p) :=
  tget_tmap_default (f := fun _ => woken) rfl

@[simp] theorem woken_valid (P : Machine.Path) : (woken P).valid = P.valid := by unfold woken; split <;> rfl
@[simp] theorem woken_mask (P : Machine.Path) : (woken P).mask = P.mask := by unfold woken; split <;> rfl
@[simp] theorem woken_origin (P : Machine.Path) : (woken P).origin = P.origin := by unfold woken; split <;> rfl

theorem woken_of_state {P : Machine.Path} (h : P.state ≠ 6) : woken P = P := if_neg (by simp [h])

/-- The entries of a list made invalid. -/
def dropPaths (G : Machine.Group) (es : List (Nat × Machine.Path)) : Machine.Group :=
  es.foldl (fun G e => setPathG G e.1 { e.2 with valid := false }) G

theorem pathIn_dropPaths_of_not_mem {es : List (Nat × Machine.Path)} {k : Nat} (h : ∀ e ∈ es, e.1 ≠ k) (G : Machine.Group) :
    pathIn (dropPaths G es) k = pathIn G k := by
  induction es generalizing G with
  | nil => rfl
  | cons e es ih =>
    obtain ⟨he, hes⟩ := List.forall_mem_cons.mp h
    rw [dropPaths, List.foldl_cons, ← dropPaths, ih hes, pathIn_setPathG, if_neg he]

theorem pathIn_dropPaths_invalid {es : List (Nat × Machine.Path)} {k : Nat} {G : Machine.Group}
    (h : (∃ e ∈ es, e.1 = k) ∨ (pathIn G k).valid = false) : (pathIn (dropPaths G es) k).valid = false := by
  induction es generalizing G with
  | nil => simpa [dropPaths] using h
  | cons e es ih =>
    rw [dropPaths, List.foldl_cons, ← dropPaths]
    refine ih ?_
    rw [pathIn_setPathG]
    by_cases hk : e.1 = k
    · exact .inr (by rw [if_pos hk])
    · rw [if_neg hk]
      simpa [hk] using h

@[simp] theorem inheritHolder_teams (s : State) (t g p q : Nat) : (inheritHolder s t g p q).teams = s.teams := by
  unfold inheritHolder
  dsimp only
  split <;> rfl

/-! ### The path that holds the lowest lane (02 R33, 05 R124) -/

/-- Of a path found so far and another, the one that holds the lower lane. -/
def lowerOf (b : Option Machine.Path) (e : Nat × Machine.Path) : Option Machine.Path :=
  match b with
  | none => some e.2
  | some P => if lowestOwn e.2 < lowestOwn P then some e.2 else some P

theorem foldl_lowerOf (es : List (Nat × Machine.Path)) (P : Machine.Path) :
    ∃ L, es.foldl lowerOf (some P) = some L ∧ (L = P ∨ ∃ e ∈ es, L = e.2) ∧ lowestOwn L ≤ lowestOwn P ∧
      ∀ e ∈ es, lowestOwn L ≤ lowestOwn e.2 := by
  induction es generalizing P with
  | nil => exact ⟨P, rfl, .inl rfl, le_rfl, fun _ h => absurd h List.not_mem_nil⟩
  | cons e es ih =>
    have hstep : lowerOf (some P) e = some (if lowestOwn e.2 < lowestOwn P then e.2 else P) := by
      simp only [lowerOf]
      split <;> rfl
    rw [List.foldl_cons, hstep]
    obtain ⟨L, hL, hmem, hle, hall⟩ := ih (if lowestOwn e.2 < lowestOwn P then e.2 else P)
    by_cases hlt : lowestOwn e.2 < lowestOwn P
    · rw [if_pos hlt] at hL hmem hle ⊢
      refine ⟨L, hL, .inr ?_, hle.trans hlt.le, List.forall_mem_cons.mpr ⟨hle, hall⟩⟩
      obtain rfl | ⟨x, hx, rfl⟩ := hmem
      · exact ⟨e, List.mem_cons_self, rfl⟩
      · exact ⟨x, List.mem_cons_of_mem _ hx, rfl⟩
    · rw [if_neg hlt] at hL hmem hle ⊢
      refine ⟨L, hL, hmem.imp_right ?_, hle, List.forall_mem_cons.mpr ⟨hle.trans (not_lt.mp hlt), hall⟩⟩
      rintro ⟨x, hx, rfl⟩
      exact ⟨x, List.mem_cons_of_mem _ hx, rfl⟩

/-- Of some paths there is one that holds the lowest lane, and it is the one chosen. -/
theorem lowestHolder_spec (e : Nat × Machine.Path) (es : List (Nat × Machine.Path)) :
    ∃ x ∈ e :: es, lowestHolder (e :: es) = some x.2 ∧ ∀ y ∈ e :: es, lowestOwn x.2 ≤ lowestOwn y.2 := by
  obtain ⟨L, hL, hmem, hle, hall⟩ := foldl_lowerOf es e.2
  have hL' : lowestHolder (e :: es) = some L := hL
  obtain rfl | ⟨x, hx, rfl⟩ := hmem
  · exact ⟨e, List.mem_cons_self, hL', List.forall_mem_cons.mpr ⟨hle, hall⟩⟩
  · exact ⟨x, List.mem_cons_of_mem _ hx, hL', List.forall_mem_cons.mpr ⟨hle, hall⟩⟩

/-! ### The merge -/

/-- The path into which some paths merge, the first of them being in its entry (04 R95, 05 R124). -/
def mergedPath (Q : Machine.Path) (all : List (Nat × Machine.Path)) : Machine.Path :=
  let L := (lowestHolder all).getD Q
  { Q with mask := all.foldl (fun m e => m ||| e.2.mask) 0, origin := all.foldl (fun m e => m ||| e.2.origin) 0,
           gm := L.gm, fb := L.fb, fs := L.fs, ld := L.ld, age := 0 }

/-- A group once the paths of a list, its first entry q, have merged. -/
def mergedGroup (G : Machine.Group) (q : Nat) (Q : Machine.Path) (rest : List (Nat × Machine.Path)) : Machine.Group :=
  wakeSplit (dropPaths (setPathG G q (mergedPath Q ((q, Q) :: rest))) rest)

theorem foldl_inheritHolder_teams (s : State) (t g q : Nat) (es : List (Nat × Machine.Path)) :
    (es.foldl (fun s e => inheritHolder s t g e.1 q) s).teams = s.teams := by
  induction es generalizing s with
  | nil => rfl
  | cons e es ih => rw [List.foldl_cons, ih, inheritHolder_teams]

/-- The state in which the merged path is a holder of the banks under load that any of them held (06 R163). -/
def inherited (s : State) (t g q : Nat) (es : List (Nat × Machine.Path)) : State :=
  es.foldl (fun s e => inheritHolder s t g e.1 q) s

theorem mergeParked_of_two {s : State} {t g pc q : Nat} {Q : Machine.Path} {e : Nat × Machine.Path}
    {rest : List (Nat × Machine.Path)} (h : parkedAt (groupOf s t g) pc = (q, Q) :: e :: rest) :
    mergeParked s t g pc = modGroup (inherited s t g q (e :: rest)) t g fun G => mergedGroup G q Q (e :: rest) := by
  simp only [mergeParked, h]
  rfl

theorem groupOf_mergeParked {s : State} {t g pc q : Nat} {Q : Machine.Path} {e : Nat × Machine.Path}
    {rest : List (Nat × Machine.Path)} (hl : Listed s t g) (h : parkedAt (groupOf s t g) pc = (q, Q) :: e :: rest) :
    groupOf (mergeParked s t g pc) t g = mergedGroup (groupOf s t g) q Q (e :: rest) := by
  have ht : (inherited s t g q (e :: rest)).teams = s.teams := foldl_inheritHolder_teams ..
  have hg : groupOf (inherited s t g q (e :: rest)) t g = groupOf s t g := by
    rw [groupOf, teamOf, ht, ← teamOf, ← groupOf]
  rw [mergeParked_of_two h, groupOf_modGroup (by simpa only [Listed, ht] using hl), hg]

theorem foldl_or_getLsbD (f : Nat × Machine.Path → Mask) (es : List (Nat × Machine.Path)) (m : Mask) (l : Nat) :
    (es.foldl (fun m e => m ||| f e) m).getLsbD l = (m.getLsbD l || es.any fun e => (f e).getLsbD l) := by
  induction es generalizing m with
  | nil => simp
  | cons e es ih => rw [List.foldl_cons, ih, BitVec.getLsbD_or, List.any_cons, Bool.or_assoc]

theorem mem_parkedAt {G : Machine.Group} {pc : Nat} {e : Nat × Machine.Path} (h : e ∈ parkedAt G pc) :
    e ∈ G.paths ∧ e.2.valid = true ∧ e.2.state = 1 ∧ e.2.pc = pc := by
  simpa [parkedAt, validPaths, and_assoc, and_comm, and_left_comm] using h

theorem parkedAt_sublist (G : Machine.Group) (pc : Nat) : (parkedAt G pc).Sublist G.paths :=
  List.filter_sublist.trans List.filter_sublist

/-- Settles O47: `groupOf_mergeParked`, entry by entry. -/
theorem parkedPathsMerge : Obligations.ParkedPathsMerge := by
  intro s t g pc q r Q R rest hl hs hp all u M
  have hmem : ∀ e ∈ all, e ∈ parkedAt (groupOf s t g) pc := fun e he => hp ▸ he
  obtain ⟨-, hv, hst, hpc⟩ := mem_parkedAt (hmem _ List.mem_cons_self)
  have hasc : (all.map (·.1)).Pairwise (· < ·) := by
    have := hs.sublist ((parkedAt_sublist (groupOf s t g) pc).map (·.1))
    rwa [hp] at this
  have hlow : ∀ e ∈ (r, R) :: rest, q < e.1 := by
    obtain ⟨h, -⟩ := List.pairwise_cons.mp hasc
    exact fun e he => h _ (List.mem_map_of_mem he)
  have hG : ∀ k, pathOf u t g k = woken (pathIn (dropPaths (setPathG (groupOf s t g) q (mergedPath Q all)) ((r, R) :: rest)) k) := by
    intro k
    rw [pathOf_eq, groupOf_mergeParked hl hp, mergedGroup, pathIn_wakeSplit]
  have hM : M = mergedPath Q all := by
    have hne : ∀ e ∈ (r, R) :: rest, e.1 ≠ q := fun e he => (hlow e he).ne'
    rw [show M = _ from hG q, pathIn_dropPaths_of_not_mem hne, pathIn_setPathG, if_pos rfl]
    exact woken_of_state (by rw [mergedPath, hst]; decide)
  refine ⟨hlow, by rw [hM]; exact hv, by rw [hM]; rfl, by rw [hM]; exact hpc, fun l => ?_, fun l => ?_, ?_, fun e he => ?_,
    fun k hk => ?_⟩
  · rw [hM, mergedPath, foldl_or_getLsbD fun e => e.2.mask]
    simp
  · rw [hM, mergedPath, foldl_or_getLsbD fun e => e.2.origin]
    simp
  · obtain ⟨x, hx, hL, hmin⟩ := lowestHolder_spec (q, Q) ((r, R) :: rest)
    refine ⟨x, hx, ?_⟩
    rw [hM, mergedPath, hL]
    exact ⟨rfl, rfl, rfl, rfl, hmin⟩
  · rw [hG, woken_valid]
    exact pathIn_dropPaths_invalid (.inl ⟨e, he, rfl⟩)
  · obtain ⟨hkq, hkr⟩ := List.forall_mem_cons.mp hk
    rw [hG, pathIn_dropPaths_of_not_mem hkr, pathIn_setPathG, if_neg hkq]
    simp [pathOf_eq]

end Sys2Proof
end

section
/-! PROOFS. The ends and the limits of waits answer what their rules give (04 R95, R99, R100, R109, R113, R114, 09 R234, 10 R238,
R242, R252 to R256, 11 R287). -/

namespace Sys2Proof
open Machine Safety Claims
set_option tactic.hygienic false

/-! ### Limits, SLEEP and JOIN -/

theorem waitTimeout_answers {t g p : Nat} {s : State} {R : State → State → Prop} (h : waitRules (.waitTimeout t g p) = some R) :
    EventAnswers (R s) s (execWaitTimeout t g p s) := by
  cases h
  refine .congr (fun u => ?_) (.guard fun _ => .exactly fun u => Iff.rfl)
  rw [show kindCode .waitTimeout = 8 from rfl]
  simp [teamRuns_iff, and_assoc]

theorem hangDetector_answers {t g : Nat} {s : State} {R : State → State → Prop} (h : waitRules (.hangDetector t g) = some R) :
    EventAnswers (R s) s (execHangDetector t g s) := by
  cases h
  refine .congr (fun u => ?_) (.exceptWhen fun _ => .exactly fun u => Iff.rfl)
  simp [and_assoc]

theorem sleepWake_answers {t g p : Nat} {s : State} {R : State → State → Prop} (h : waitRules (.sleepWake t g p) = some R) :
    EventAnswers (R s) s (execSleepWake t g p s) := by
  cases h
  refine .congr (fun u => ?_) (.guard fun _ => .exactly fun u => Iff.rfl)
  simp [teamRuns_iff, and_assoc]

theorem joinAgeEscape_answers {t g p : Nat} {s : State} {R : State → State → Prop}
    (h : waitRules (.joinAgeEscape t g p) = some R) : EventAnswers (R s) s (execJoinAgeEscape t g p s) := by
  cases h
  refine .congr (fun u => ?_) (.guard fun _ => .exactly fun u => Iff.rfl)
  simp [teamRuns_iff, and_assoc]

/-- The lower of an address found so far and that of a path, where it is parked. -/
def lowerParked (r : Option Nat) (e : Nat × Machine.Path) : Option Nat :=
  if e.2.state == 1 then
    match r with
    | none => some e.2.pc
    | some a => some (min a e.2.pc)
  else r

/-- The addresses at which the paths of a list are parked. -/
def parkedPcs (es : List (Nat × Machine.Path)) : List Nat := (es.filter fun e => e.2.state == 1).map (·.2.pc)

theorem parkedPcs_cons_of_parked {e : Nat × Machine.Path} {es : List (Nat × Machine.Path)} (h : e.2.state = 1) :
    parkedPcs (e :: es) = e.2.pc :: parkedPcs es := by simp [parkedPcs, h]

theorem parkedPcs_cons_of_not {e : Nat × Machine.Path} {es : List (Nat × Machine.Path)} (h : e.2.state ≠ 1) :
    parkedPcs (e :: es) = parkedPcs es := by simp [parkedPcs, h]

theorem mem_parkedPcs {es : List (Nat × Machine.Path)} {a : Nat} : a ∈ parkedPcs es ↔ ∃ e ∈ es, e.2.state = 1 ∧ e.2.pc = a := by
  simp [parkedPcs, and_assoc]

theorem foldl_lowerParked_some (es : List (Nat × Machine.Path)) (a : Nat) :
    es.foldl lowerParked (some a) = some ((parkedPcs es).foldl min a) := by
  induction es generalizing a with
  | nil => rfl
  | cons e es ih =>
    by_cases h : e.2.state = 1
    · simp [lowerParked, parkedPcs_cons_of_parked h, h, ih]
    · simp [lowerParked, parkedPcs_cons_of_not h, h, ih]

theorem lowestParked_eq (G : Machine.Group) : lowestParked G = (parkedPcs (validPaths G)).min? := by
  change (validPaths G).foldl lowerParked none = _
  induction validPaths G with
  | nil => rfl
  | cons e es ih =>
    by_cases h : e.2.state = 1
    · rw [parkedPcs_cons_of_parked h, List.min?_cons', ← foldl_lowerParked_some]
      simp [lowerParked, h]
    · simp [lowerParked, parkedPcs_cons_of_not h, h, ih]

/-- The lowest address at which a path is parked, as 04 R95 says it. -/
theorem lowestParked_eq_some {G : Machine.Group} {a : Nat} : lowestParked G = some a ↔
    (∃ e ∈ validPaths G, e.2.state = 1 ∧ e.2.pc = a) ∧ ∀ e ∈ validPaths G, e.2.state = 1 → a ≤ e.2.pc := by
  rw [lowestParked_eq, List.min?_eq_some_iff, mem_parkedPcs]
  refine and_congr_right fun _ => ⟨fun h e he hst => h _ (mem_parkedPcs.mpr ⟨e, he, hst, rfl⟩), fun h b hb => ?_⟩
  obtain ⟨e, he, hst, rfl⟩ := mem_parkedPcs.mp hb
  exact h e he hst

theorem joinOpen_iff {G : Machine.Group} : joinOpen G = true ↔ ∀ e ∈ validPaths G, e.2.state ≠ 0 ∧ e.2.state ≠ 6 := by
  simp [joinOpen]

theorem joinRelease_answers {t g : Nat} {s : State} {R : State → State → Prop} (h : waitRules (.joinRelease t g) = some R) :
    EventAnswers (R s) s (execJoinRelease t g s) := by
  cases h
  have hrule : ∀ a, ((∃ e ∈ validPaths (groupOf s t g), e.2.state = 1 ∧ e.2.pc = a) ∧
      ∀ e ∈ validPaths (groupOf s t g), e.2.state ≠ 0 ∧ e.2.state ≠ 6 ∧ (e.2.state = 1 → a ≤ e.2.pc)) ↔
      lowestParked (groupOf s t g) = some a ∧ joinOpen (groupOf s t g) = true := by
    intro a
    rw [lowestParked_eq_some, joinOpen_iff, and_assoc, ← forall₂_and]
    simp only [and_comm, and_assoc]
  refine .congr (R' := fun u => ∃ a, lowestParked (groupOf s t g) = some a ∧ (joinOpen (groupOf s t g) = true ∧ running s t) ∧
    u = modGroup s t g fun G => unpark G a) (fun u => exists_congr fun a => ?_) ?_
  · rw [← and_assoc, hrule]
    simp only [and_assoc]
  · unfold execJoinRelease
    dsimp only
    cases hp : lowestParked (groupOf s t g) with
    | none => exact .idle fun u hu => by simp at hu
    | some a =>
      refine .congr (fun u => ?_) (.guard fun _ => .exactly fun u => Iff.rfl)
      simp [teamRuns_iff]

/-! ### Waits on barriers (10 R238, R242) -/

theorem endBarWait_answers {s : State} {t b tok : Nat} {fin : State → State} :
    EventAnswers (fun u => barWait s u t b tok (fin s)) s (.next (endBarWait s t b tok fin)) := by
  unfold endBarWait
  refine .congr (fun u => ?_) (.stayWhen fun _ => .exactly fun u => Iff.rfl)
  simp only [barWait, ← teamRuns_iff]
  cases hf : (tget ({} : Bar) (teamOf s t).bars b).flt <;> cases ha : (tget ({} : Bar) (teamOf s t).bars b).aflt <;>
    simp [barOf, barFaulted, and_assoc, hf, ha]

/-! ### Events that end one kind of wait -/

section kinds
variable {s : State} {v : Bool} {w : Wait}

theorem answers_bwait {Q : Nat → Nat → State → Prop} {E : Nat → Nat → Host.Outcome State Fault Refusal}
    (h : ∀ b tok, EventAnswers (Q b tok) s (E b tok)) :
    EventAnswers (fun u => ∃ b tok, v = true ∧ w = .bwait b tok ∧ Q b tok u) s
      (match v, w with
        | true, .bwait b tok => E b tok
        | _, _ => .next s) := by
  induction v with
  | false => exact .idle (by simp)
  | true =>
    induction w with
    | bwait b tok => exact .congr (fun u => by simp) (h b tok)
    | _ => exact .idle (by simp)

theorem answers_yield {Q : Nat → Nat → Nat → State → Prop} {E : Nat → Nat → Nat → Host.Outcome State Fault Refusal}
    (h : ∀ b tok a, EventAnswers (Q b tok a) s (E b tok a)) :
    EventAnswers (fun u => ∃ b tok a, v = true ∧ w = .yield b tok a ∧ Q b tok a u) s
      (match v, w with
        | true, .yield b tok a => E b tok a
        | _, _ => .next s) := by
  induction v with
  | false => exact .idle (by simp)
  | true =>
    induction w with
    | yield b tok a => exact .congr (fun u => by simp) (h b tok a)
    | _ => exact .idle (by simp)

theorem answers_barv {Q : Nat → Nat → Operand → Nat → Nat → State → Prop} {E : Nat → Nat → Operand → Nat → Nat → Host.Outcome State Fault Refusal}
    (h : ∀ b look d bytes tok, EventAnswers (Q b look d bytes tok) s (E b look d bytes tok)) :
    EventAnswers (fun u => ∃ b look d bytes tok, v = true ∧ w = .barv b look d bytes tok ∧ Q b look d bytes tok u) s
      (match v, w with
        | true, .barv b look d bytes tok => E b look d bytes tok
        | _, _ => .next s) := by
  induction v with
  | false => exact .idle (by simp)
  | true =>
    induction w with
    | barv b look d bytes tok => exact .congr (fun u => by simp) (h b look d bytes tok)
    | _ => exact .idle (by simp)

theorem answers_vote {Q : Nat → Nat → Nat → Nat → State → Prop} {E : Nat → Nat → Nat → Nat → Host.Outcome State Fault Refusal}
    (h : ∀ d m k b, EventAnswers (Q d m k b) s (E d m k b)) :
    EventAnswers (fun u => ∃ d m k b, v = true ∧ w = .vote d m k b ∧ Q d m k b u) s
      (match v, w with
        | true, .vote d m k b => E d m k b
        | _, _ => .next s) := by
  induction v with
  | false => exact .idle (by simp)
  | true =>
    induction w with
    | vote d m k b => exact .congr (fun u => by simp) (h d m k b)
    | _ => exact .idle (by simp)

theorem answers_shfl {Q : Nat → Nat → List (Nat × Nat) → List (Nat × Nat) → List (Nat × Nat) → State → Prop} {E : Nat → Nat → List (Nat × Nat) → List (Nat × Nat) → List (Nat × Nat) → Host.Outcome State Fault Refusal}
    (h : ∀ d n need got own, EventAnswers (Q d n need got own) s (E d n need got own)) :
    EventAnswers (fun u => ∃ d n need got own, v = true ∧ w = .shfl d n need got own ∧ Q d n need got own u) s
      (match v, w with
        | true, .shfl d n need got own => E d n need got own
        | _, _ => .next s) := by
  induction v with
  | false => exact .idle (by simp)
  | true =>
    induction w with
    | shfl d n need got own => exact .congr (fun u => by simp) (h d n need got own)
    | _ => exact .idle (by simp)

theorem answers_tiles {Q : Nat → Nat → Bool → State → Prop} {E : Nat → Nat → Bool → Host.Outcome State Fault Refusal}
    (h : ∀ id mask all, EventAnswers (Q id mask all) s (E id mask all)) :
    EventAnswers (fun u => ∃ id mask all, v = true ∧ w = .tiles id mask all ∧ Q id mask all u) s
      (match v, w with
        | true, .tiles id mask all => E id mask all
        | _, _ => .next s) := by
  induction v with
  | false => exact .idle (by simp)
  | true =>
    induction w with
    | tiles id mask all => exact .congr (fun u => by simp [-Bool.exists_bool]) (h id mask all)
    | _ => exact .idle (by simp)

end kinds

section waits
variable {t g p : Nat} {s : State} {R : State → State → Prop}

theorem bwaitComplete_answers (h : waitRules (.bwaitComplete t g p) = some R) :
    EventAnswers (R s) s (execBwaitComplete t g p s) := by
  cases h
  exact answers_bwait fun b tok => endBarWait_answers (fin := fun s => waitEnded s t g p)

theorem yieldResume_answers (h : waitRules (.yieldResume t g p) = some R) :
    EventAnswers (R s) s (execYieldResume t g p s) := by
  cases h
  exact answers_yield fun b tok a => endBarWait_answers
    (fin := fun s => groupMoved (modPath s t g p fun P => { P with state := 0, wbar := 0, wait := .none }) t g)

theorem barvHeldRelease_answers (h : waitRules (.barvHeldRelease t g p) = some R) :
    EventAnswers (R s) s (execBarvHeldRelease t g p s) := by
  cases h
  exact answers_barv fun b look d bytes tok => endBarWait_answers (fin := fun s => releaseBarv s t g p b look d bytes)

/-! ### VOTE, the shuffles, MWAIT and WAITADDR -/

theorem voteComplete_answers (h : waitRules (.voteComplete t g p) = some R) :
    EventAnswers (R s) s (execVoteComplete t g p s) := by
  cases h
  refine answers_vote fun d m k b => .congr (fun u => ?_) (.guard fun _ => .exactly fun u => Iff.rfl)
  rw [Bool.and_eq_true, teamRuns_iff, and_assoc]
  exact Iff.rfl

/-- The outcomes of making a window resident, as a rule and as an event write them. -/
theorem resident_answers {m : Moving State} {f : TrapKind → Mask → Nat → State} {k : State → State} :
    EventAnswers (fun u => (∃ s1, m = .ok s1 ∧ u = k s1) ∨ ∃ kind ls va, m = .fail kind ls va ∧ u = f kind ls va) s
      (match m with
        | .hold => .next s
        | .fail kind ls va => .next (f kind ls va)
        | .ok s1 => .next (k s1)) := by
  cases m with
  | hold => exact .idle (by simp)
  | fail kind ls va => exact .exactly (by simp)
  | ok s1 => exact .exactly (by simp)

theorem shuffleComplete_answers (h : waitRules (.shuffleComplete t g p) = some R) :
    EventAnswers (R s) s (execShuffleComplete t g p s) := by
  cases h
  refine answers_shfl fun d n need got own => .congr (fun u => ?_) (.guard fun _ => resident_answers)
  rw [Bool.and_eq_true, teamRuns_iff, and_assoc]
  exact Iff.rfl

/-- The outcomes of an MWAIT's end, as its rule and as its event write them. -/
theorem faulted_answers {x : Option Nat} {f : Nat → State} {v : State} :
    EventAnswers (fun u => (∃ n, x = some n ∧ u = f n) ∨ (x = none ∧ u = v)) s
      (match x with
        | some n => .next (f n)
        | none => .next v) := by
  cases x with
  | none => exact .exactly (by simp)
  | some n => exact .exactly (by simp)

theorem mwaitComplete_answers (h : waitRules (.mwaitComplete t g p) = some R) :
    EventAnswers (R s) s (execMwaitComplete t g p s) := by
  cases h
  refine answers_tiles fun id mask all => .congr (fun u => ?_) (.exceptWhen fun _ => faulted_answers)
  rw [Bool.or_eq_true, not_or, Bool.not_eq_true', Bool.not_eq_false, teamRuns_iff, Bool.not_eq_true, and_assoc]
  exact Iff.rfl

/-- WAITADDR's conditions for a reread, apart from what it awaits (09 R234). -/
theorem rereads_iff {s : State} {t g p : Nat} :
    ¬(!(pathOf s t g p).valid || (pathOf s t g p).state != 5 || teamFrozen s (teamOf s t) || (teamOf s t).away != .present) = true ↔
      (pathOf s t g p).valid = true ∧ (pathOf s t g p).state = 5 ∧ running s t := by
  rw [← teamRuns_iff]
  simp [teamRuns, and_assoc, and_comm, and_left_comm]

/-- The outcomes of a reread's three tests, as the rule and as the model write them. -/
theorem rereadCases_iff {α : Type} {bad met read : Bool} {u v w x y : α} :
    ((bad = true ∧ u = v) ∨ bad = false ∧ ((met = true ∧ u = w) ∨ (met = false ∧ read = false ∧ u = x) ∨
      (met = false ∧ read = true ∧ u = y))) ↔ u = if bad then v else if met then w else if read then y else x := by
  cases bad <;> cases met <;> cases read <;> simp

/-- An event for a path that waits in WAITADDR, behind the conditions that every such event has. -/
theorem answers_addr {v st r : Prop} {c : Bool} {w : Wait} {m : Nat → Bool}
    {Q : Nat → Nat → Nat → CC → Bool → Operand → Bool → State → Prop}
    {E : Nat → Nat → Nat → CC → Bool → Operand → Bool → Host.Outcome State Fault Refusal}
    (hc : ¬c = true ↔ v ∧ st ∧ r)
    (h : ∀ id va cmp cc acq d read, EventAnswers (Q id va cmp cc acq d read) s (E id va cmp cc acq d read)) :
    EventAnswers (fun u => ∃ id va cmp cc acq d read, v ∧ st ∧ w = .addr id va cmp cc acq d read ∧ r ∧ m id = true ∧
        Q id va cmp cc acq d read u) s
      (if c then .next s else match w with
        | .addr id va cmp cc acq d read => if !m id then .next s else E id va cmp cc acq d read
        | _ => .next s) := by
  by_cases hp : v ∧ st ∧ r
  · rw [if_neg (hc.mpr hp)]
    obtain ⟨hv, hst, hr⟩ := hp
    cases w with
    | addr id va cmp cc acq d read =>
      refine .congr (fun u => ?_) (.exceptWhen fun _ => h id va cmp cc acq d read)
      simp [hv, hst, hr, -Bool.exists_bool]
    | _ => exact .idle (by simp)
  · rw [if_pos (not_not.mp (mt hc.mp hp))]
    refine .idle ?_
    rintro u ⟨_, _, _, _, _, _, _, hv, hst, -, hr, -⟩
    exact hp ⟨hv, hst, hr⟩

/-- The outcomes of a reread, by its translation and its tests, as the rule and as the event write them. -/
theorem reread_answers {x : Tr} {f : TrapKind → State} {bad met : Nat → Bool} {read : Bool} {a b c d : Nat → State} :
    EventAnswers (fun u => (∃ k, x = .fail k ∧ u = f k) ∨ ∃ key, x = .key key ∧ ((bad key = true ∧ u = a key) ∨
        bad key = false ∧ ((met key = true ∧ u = b key) ∨ (met key = false ∧ read = false ∧ u = c key) ∨
          (met key = false ∧ read = true ∧ u = d key)))) s
      (match x with
        | .fail k => .next (f k)
        | .hold => .next s
        | .key key => if bad key then .next (a key) else if met key then .next (b key)
            else .next (if read then d key else c key)) := by
  cases x with
  | hold => exact .idle (by simp)
  | fail k => exact .exactly (by simp)
  | key key =>
    dsimp only
    rw [← apply_ite Host.Outcome.next, ← apply_ite Host.Outcome.next]
    exact .exactly fun u => by simpa using rereadCases_iff

theorem waitaddrReread_answers (h : waitRules (.waitaddrReread t g p) = some R) :
    EventAnswers (R s) s (execWaitaddrReread t g p s) := by
  cases h
  exact answers_addr rereads_iff fun id va cmp cc acq d read => reread_answers

end waits

theorem waitRules_answer (i : Instr) : (waitRules i).elim True fun R => ∀ s, EventAnswers (R s) s (exec i s) := by
  induction i with
  | waitTimeout t g p => exact fun s => waitTimeout_answers rfl
  | hangDetector t g => exact fun s => hangDetector_answers rfl
  | sleepWake t g p => exact fun s => sleepWake_answers rfl
  | joinRelease t g => exact fun s => joinRelease_answers rfl
  | joinAgeEscape t g p => exact fun s => joinAgeEscape_answers rfl
  | voteComplete t g p => exact fun s => voteComplete_answers rfl
  | shuffleComplete t g p => exact fun s => shuffleComplete_answers rfl
  | waitaddrReread t g p => exact fun s => waitaddrReread_answers rfl
  | mwaitComplete t g p => exact fun s => mwaitComplete_answers rfl
  | bwaitComplete t g p => exact fun s => bwaitComplete_answers rfl
  | yieldResume t g p => exact fun s => yieldResume_answers rfl
  | barvHeldRelease t g p => exact fun s => barvHeldRelease_answers rfl
  | _ => exact trivial

/-- Settles O22: each event against its rule. -/
theorem waitEventEffects : Obligations.WaitEventEffects := by
  intro i R s h
  have hr := waitRules_answer i
  rw [h] at hr
  exact hr s

end Sys2Proof
end

section
/-! PROOFS. Words trap at the checks of their own entries (04 R105, 05 R123 to R138, 07 R168, 09 R234, 10 R254 to R260, 11 R274 to
R287, 12 R300, 13 R332 to R343, 14 R345, R350): each word's entry against its forms. -/

namespace Sys2Proof
open Machine Safety Claims
set_option tactic.hygienic false

/-! ### A word's entry against a form of its traps -/

/-- What `TrapTable` says of one word and one of its forms. -/
def TrapsAs (i : Instr) (F : TrapForm) : Prop :=
  ∀ s t g p, Issues i s t g p F.all → Operands s t g p (F.uses (groupOf s t g) (pathOf s t g p)) →
    let c := view i s t g p (F.uses (groupOf s t g) (pathOf s t g p))
    F.pre c → exec i s =
      .next (trapHere (columnKept c (F.base c)) t g p (F.kind c) (F.lanes c) (F.addr c) (F.info c) ((encode i).getD 0))

theorem trapTable_of_forall {forms : Instr → List TrapForm} (h : ∀ i, (forms i).Forall (TrapsAs i)) : TrapTable forms :=
  fun i F s t g p hF => List.forall_iff_forall_mem.mp (h i) F hF s t g p

/-- The checks that depend on the mode have nothing against a word (02 R49). -/
def Passes (k : Chk) : Prop := k.illegal = false ∧ k.opBad = false ∧ k.modeBad = false

theorem passes_plain {us : List Use} {w a : Bool} : Passes { uses := us, waits := w, always := a } := ⟨rfl, rfl, rfl⟩

theorem passes_operands {us : List Use} {w a b : Bool} (h : b = false) : Passes { uses := us, opBad := b, waits := w, always := a } :=
  ⟨rfl, h, rfl⟩

theorem passes_mode {us : List Use} {w a b m : Bool} (h : b = false) (hm : m = false) :
    Passes { uses := us, opBad := b, modeBad := m, waits := w, always := a } := ⟨rfl, h, hm⟩

/-- Under a form's conditions an entry ends as `x` says. -/
def Ends (pre : Iss → Prop) (body x : Iss → Eff) : Prop := ∀ c, pre c → body c = x c

section ends
variable {pre : Iss → Prop} {a b x : Iss → Eff} {p : Iss → Prop} [∀ c, Decidable (p c)]

theorem Ends.skip (h : ∀ c, pre c → ¬p c) (hb : Ends pre b x) : Ends pre (fun c => if p c then a c else b c) x :=
  fun c hc => (if_neg (h c hc)).trans (hb c hc)

theorem Ends.here (h : ∀ c, pre c → p c) (ha : Ends pre a x) : Ends pre (fun c => if p c then a c else b c) x :=
  fun c hc => (if_pos (h c hc)).trans (ha c hc)

theorem Ends.either {q : Iss → Prop} [∀ c, Decidable (q c)] (h : ∀ c, pre c → p c ∨ q c) :
    Ends pre (fun c => if p c then x c else if q c then x c else b c) x := by
  intro c hc
  by_cases hp : p c
  · exact if_pos hp
  · exact (if_neg hp).trans (if_pos ((h c hc).resolve_left hp))

/-- The guard of 02 R35 lets a word with an active lane through. -/
theorem Ends.guarded (h : ∀ c, pre c → c.act ≠ 0) (hb : Ends pre b x) :
    Ends pre (fun c => if c.act == 0 then .adv c.s else b c) x :=
  .skip (fun c hc => by simpa using h c hc) hb

theorem Ends.refl : Ends pre x x := fun _ _ => rfl

end ends

/-- The trap that a form says, as an entry raises it. -/
def raised (F : TrapForm) (c : Iss) : Eff := .trap (F.kind c) (F.lanes c) (F.addr c) (F.info c)

/-- The trap that a form says, as an entry that changes the state first raises it. -/
def delivered (F : TrapForm) (c : Iss) : Eff :=
  .wait (trapHere (F.base c) c.t c.g c.p (F.kind c) (F.lanes c) (F.addr c) (F.info c) c.word)

theorem columnKept_of_no_drain {i : Instr} {s u : State} {t g p : Nat} {us : List Use} (h : namesDrain us = false) :
    columnKept (view i s t g p us) u = u := by simp only [columnKept, view_col h]

section entry
variable {i : Instr} {F : TrapForm} {chk : Team → Machine.Group → Machine.Path → Chk} {body : Iss → Eff}

/-- A word whose checks are those of the form and pass comes to its entry, which answers `x`. -/
theorem exec_of_entry {s : State} {t g p : Nat} (he : ∀ s, exec i s = issueWord i chk body s)
    (hu : ∀ T G P, (chk T G P).uses = F.uses G P) (hw : ∀ T G P, (chk T G P).waits = F.all)
    (hp : ∀ c, F.pre c → Passes (chk c.T c.G c.P)) (hI : Issues i s t g p F.all)
    (ho : Operands s t g p (F.uses (groupOf s t g) (pathOf s t g p)))
    (hc : F.pre (view i s t g p (F.uses (groupOf s t g) (pathOf s t g p)))) :
    exec i s = .next (finish s (view i s t g p (F.uses (groupOf s t g) (pathOf s t g p)))
      (body (view i s t g p (F.uses (groupOf s t g) (pathOf s t g p))))) := by
  obtain ⟨hi, hb, hm⟩ := hp _ hc
  rw [view_T, view_G, view_P] at hi hb hm
  have hu := hu (teamOf s t) (groupOf s t g) (pathOf s t g p)
  rw [he, issueWord_next chk body rfl (by rw [hw]; exact hI) (by rw [hu]; exact ho) hi hb hm, hu]

theorem trapsAs_of_framed (he : ∀ s, exec i s = issueWord i chk body s) (hu : ∀ T G P, (chk T G P).uses = F.uses G P)
    (hw : ∀ T G P, (chk T G P).waits = F.all) (hp : ∀ c, F.pre c → Passes (chk c.T c.G c.P)) (hs : ∀ c, F.base c = c.s)
    (hb : Ends (fun c => F.pre c ∧ frameBad c.P (F.uses c.G c.P) = false) body (raised F)) : TrapsAs i F := by
  intro s t g p hI ho c hc
  have hf : frameBad c.P (F.uses c.G c.P) = false := by rw [view_G, view_P]; exact ho.frame
  have hword : c.word = (encode i).getD 0 := issCtx_word ..
  have ht : c.t = t := view_t ..
  have hg : c.g = g := view_g ..
  have hp' : c.p = p := view_p ..
  rw [exec_of_entry he hu hw hp hI ho hc, hb c ⟨hc, hf⟩, hs]
  change Host.Outcome.next (trapHere (columnKept c c.s) c.t c.g c.p _ _ _ _ c.word) = _
  rw [hword, ht, hg, hp']

theorem trapsAs_of_raised (he : ∀ s, exec i s = issueWord i chk body s) (hu : ∀ T G P, (chk T G P).uses = F.uses G P)
    (hw : ∀ T G P, (chk T G P).waits = F.all) (hp : ∀ c, F.pre c → Passes (chk c.T c.G c.P)) (hs : ∀ c, F.base c = c.s)
    (hb : Ends F.pre body (raised F)) : TrapsAs i F := trapsAs_of_framed he hu hw hp hs fun c hc => hb c hc.1

theorem trapsAs_of_delivered (he : ∀ s, exec i s = issueWord i chk body s) (hu : ∀ T G P, (chk T G P).uses = F.uses G P)
    (hw : ∀ T G P, (chk T G P).waits = F.all) (hp : ∀ c, F.pre c → Passes (chk c.T c.G c.P))
    (hd : ∀ c, F.pre c → ∀ G P, namesDrain (F.uses G P) = false)
    (hb : Ends (fun c => F.pre c ∧ c.T = teamOf c.s c.t) body (delivered F)) : TrapsAs i F := by
  intro s t g p hI ho c hc
  have hn := hd _ hc (groupOf s t g) (pathOf s t g p)
  have hT : c.T = teamOf c.s c.t := by rw [view_T, view_s hn, view_t]
  have hword : c.word = (encode i).getD 0 := issCtx_word ..
  have ht : c.t = t := view_t ..
  have hg : c.g = g := view_g ..
  have hp' : c.p = p := view_p ..
  rw [exec_of_entry he hu hw hp hI ho hc, hb c ⟨hc, hT⟩, columnKept_of_no_drain hn]
  change Host.Outcome.next (trapHere (F.base c) c.t c.g c.p _ _ _ _ c.word) = _
  rw [hword, ht, hg, hp']

end entry

/-- A word that is illegal traps so for the lanes of its path. -/
theorem trapsAs_illegal {i : Instr} {F : TrapForm} {chk : State → Team → Machine.Group → Machine.Path → Chk} {body : Iss → Eff}
    (he : ∀ s, exec i s = issueWord i (chk s) body s)
    (hd : ∀ G P c, usesBad (F.uses G P) = false → F.pre c → namesDrain (F.uses G P) = false)
    (hi : ∀ c, F.pre c → (chk c.s c.T c.G c.P).illegal = true)
    (hx : ∀ c, raised F c = .trap .illegalInstruction c.P.mask 0 0) (hb : ∀ c, F.base c = c.s) : TrapsAs i F := by
  intro s t g p hI ho c hc
  have hn := hd _ _ c ho.uses hc
  have hill := hi c hc
  obtain ⟨hk, hl, ha, hf⟩ := Eff.trap.inj (hx c)
  rw [view_T, view_G, view_P, view_s hn] at hill
  rw [hk, hl, ha, hf, hb, columnKept_of_no_drain hn, view_s hn, view_P, he]
  exact (issueWord_atWord (atWord_of_issues hI)).trans (congrArg _ (issueHere_illegal rfl (.inl hill)))

/-! ### The model's checks and the rules' -/

theorem pendFull_of_room {c : Iss} {look : Nat} {regs : Bool} (h : room c look regs) : pendFull c look regs = false := by
  obtain ⟨hw, hr⟩ := h
  rw [pendFull, Bool.or_eq_false_iff]
  constructor
  · by_cases hl : look = 15
    · simp [hl]
    · simp [hw hl]
  · cases regs
    · rfl
    · simp [hr rfl]

theorem noBar_eq_true {c : Iss} {b : Nat} : noBar c b = true ↔ ¬hasBar c b := by simp [noBar, hasBar]

theorem optBarBad_eq_true {c : Iss} {bar : Option Nat} : optBarBad c bar = true ↔ ¬hasOptBar c bar := by
  cases bar <;> simp [optBarBad, hasOptBar, noBar]

theorem recordBad_eq_true {c : Iss} {off n : Nat} : recordBad c.T off n = true ↔ misplaced c off n := by
  simp [recordBad, misplaced, inLanding]

theorem vecOdd_of_vecAt {x : Operand} {n : Nat} (h : vecAt x n) : vecOdd x n = false := by
  obtain ⟨k, rfl, hk⟩ := h
  simp [vecOdd, hk]

theorem eightBad_eq_true {a : Operand} : eightBad a = true ↔ ¬eight a := by
  cases a with
  | s k => simp [eightBad, eight, imp_iff_not_or]
  | _ => simp [eightBad, eight]

/-! ### Columns 1 and 2 of an access (07 R168) -/

section access
variable {c : Iss} {sp : Space} {e : Nat} {x : Nat → Nat}

theorem columns12_eq (h : sp ≠ .landing) : columns12 c sp e x c.act =
    if oddLanes c e x != 0 then some (.misaligned, oddLanes c e x)
    else if outLanes c sp e x != 0 then some (if sp = .priv then .permission else .translation, outLanes c sp e x) else none := by
  have he : oddLanes c e x = lanesWhere c.act fun l => x l % e != 0 :=
    congrArg (lanesWhere c.act) (funext fun l => Bool.eq_iff_iff.mpr (by simp))
  rw [he]
  induction sp with
  | landing => exact absurd rfl h
  | _ => rfl

theorem memEnter_traps {go : State → Mask → Eff} {k : TrapKind} {m : Mask} (h : sp ≠ .landing)
    (hc : columns12 c sp e x c.act = some (k, m)) :
    memEnter c sp e x go = .trap k m (virtualOf c sp (x (lowest m))) 0 := by
  have hoff : landOff c sp e x = 0 := if_neg h
  have hr : c.act &&& ~~~(0 : Mask) = c.act := BitVec.and_allOnes
  unfold memEnter
  dsimp only
  rw [hoff, hr, hc, if_neg (by simp [h])]
  rfl

end access

/-- A word whose entry is an access, after its guard and its wait for room. -/
theorem access_traps {i : Instr} {uses : GM → List Use} {ok : GM → Prop} {look : Nat} {regs : Bool} {sp : Space} {size : GM → Nat}
    {x : Iss → Nat → Nat} {chk : Team → Machine.Group → Machine.Path → Chk} {body : Iss → Eff}
    (he : ∀ s, exec i s = issueWord i chk body s)
    (hu : ∀ T G P, (chk T G P).uses = uses P.gm) (hw : ∀ T G P, (chk T G P).waits = false)
    (hp : ∀ T G P, ok P.gm → Passes (chk T G P))
    (hb : ∀ c, ∃ go, body c = if c.act == 0 then .adv c.s else if pendFull c look regs then .stall
      else memEnter c sp (size c.P.gm) (x c) go) : (accessTraps uses ok look regs sp size x).Forall (TrapsAs i) := by
  have hm : ∀ c, c.act ≠ 0 → room c look regs → ∃ go, body c = memEnter c sp (size c.P.gm) (x c) go := fun c ha hr =>
    (hb c).imp fun go h => h.trans ((if_neg (by simpa using ha)).trans (if_neg (by simp [pendFull_of_room hr])))
  refine And.intro (trapsAs_of_raised he hu hw (fun c hc => hp _ _ _ hc.1.1) (fun _ => rfl) ?_)
    (trapsAs_of_raised he hu hw (fun c hc => hp _ _ _ hc.1.1) (fun _ => rfl) ?_)
  · rintro c ⟨⟨-, ha, hr, hl⟩, ho⟩
    obtain ⟨go, h⟩ := hm c ha hr
    exact h.trans (memEnter_traps hl ((columns12_eq hl).trans (if_pos (by simpa using ho))))
  · rintro c ⟨⟨-, ha, hr, hl⟩, ho, hx⟩
    obtain ⟨go, h⟩ := hm c ha hr
    exact h.trans (memEnter_traps hl ((columns12_eq hl).trans ((if_neg (by simp [ho])).trans (if_pos (by simpa using hx)))))

/-! ### Memory words -/

theorem memAddr_eq_laneAddr (c : Iss) (k : MemSpec) (a : Operand) : memAddr c k a = laneAddr c k.sp k.disp a := by
  funext l
  unfold memAddr laneAddr
  cases k.sp <;> rfl

/-- A load's or a store's entry: its guard, its wait for room, its access. -/
theorem memIssue_eq (c : Iss) (look : Nat) (k : MemSpec) (d a : Operand) : ∃ go, memIssue c look k d a =
    if c.act == 0 then .adv c.s else if pendFull c look (!k.store && d != .zero) then .stall
    else memEnter c k.sp (tyWidth c.P.gm.type / 8) (laneAddr c k.sp k.disp a) go := by
  rw [← memAddr_eq_laneAddr]
  exact ⟨_, rfl⟩

theorem load_traps {i : Instr} {look : Nat} {k : MemSpec} {d a : Operand}
    (he : ∀ s, exec i s = memWord i look k d a s) (hk : k.store = false) :
    (loadTraps look k.sp k.disp d a).Forall (TrapsAs i) := by
  refine access_traps he (fun _ _ _ => ?_) (fun _ _ _ => rfl) (fun _ _ P hok => ⟨rfl, ?_, ?_⟩) (fun c => ?_)
  · simp [memChk, hk, loadUses]
  · obtain ⟨hl, hd, hc, hs, -⟩ := hok
    simpa [memChk, hk, hl, hd] using And.intro hc hs
  · obtain ⟨-, -, -, -, ht⟩ := hok
    simpa [memChk] using ht
  · simpa [hk] using memIssue_eq c look k d a

theorem store_traps {i : Instr} {look : Nat} {k : MemSpec} {d a : Operand}
    (he : ∀ s, exec i s = memWord i look k d a s) (hk : k.store = true) (hc : isConst k.sp = false) :
    (storeTraps look k.sp k.disp d a).Forall (TrapsAs i) := by
  refine access_traps he (fun _ _ _ => ?_) (fun _ _ _ => rfl) (fun _ _ P hok => ⟨rfl, ?_, ?_⟩) (fun c => ?_)
  · simp [memChk, hk, storeUses]
  · obtain ⟨hl, hd, -⟩ := hok
    simp [memChk, hk, hc, hl, hd]
  · obtain ⟨-, -, ht⟩ := hok
    simpa [memChk] using ht
  · simpa [hk] using memIssue_eq c look k d a

theorem spaceOf_eq (asp : AtomSp) : atomSpace asp = spaceOf asp := by cases asp <;> rfl

theorem atom_traps {i : Instr} {op : AtomOp} {look : Nat} {acq rel : Bool} {asp : AtomSp} {d a : Operand}
    (he : ∀ s, exec i s = atomWord i op look acq rel asp d a s) : (atomTraps op look asp d a).Forall (TrapsAs i) := by
  unfold atomWord at he
  rw [spaceOf_eq] at he
  refine access_traps he (fun _ _ _ => rfl) (fun _ _ _ => rfl) (fun _ _ P hok => passes_mode ?_ ?_) (fun c => ⟨_, rfl⟩)
  · obtain ⟨hal, had, hdl, hdd, hs, -⟩ := hok
    simpa [hal, had, hdl, hdd] using hs
  · obtain ⟨-, -, -, -, -, ht⟩ := hok
    simp [ht]

end Sys2Proof
end

section
/-! PROOFS. Memory words trap at their checks (06 R162, 07 R166 to R168, 09 R229, R234, 15 R366): the table's forms. -/

namespace Sys2Proof
open Machine Safety Claims
set_option tactic.hygienic false

theorem qput_traps (look k : Nat) (d : Operand) : (memoryTraps (.qput look d (.s k))).Forall (TrapsAs (.qput look d (.s k))) := by
  refine trapsAs_of_raised (fun _ => rfl) (fun _ _ _ => rfl) (fun _ _ _ => rfl) (fun c hc => passes_operands ?_) (fun _ => rfl)
    (.guarded (fun c hc => hc.1) (.here ?_ .refl))
  · obtain ⟨-, hd, he, hk, -⟩ := hc
    simp [hd, pairScalBad, he, hk]
  · rintro c ⟨-, -, -, -, hbad⟩
    simpa [inLanding, or_assoc] using hbad

theorem memoryTraps_trap (i : Instr) : (memoryTraps i).Forall (TrapsAs i) := by
  induction i with
  | ldp look disp d a => exact load_traps (k := { sp := .priv, store := false, disp := disp }) (fun _ => rfl) rfl
  | ldk look k d a => exact load_traps (k := { sp := .const k, store := false }) (fun _ => rfl) rfl
  | ldg look acq cache d a =>
    exact load_traps (k := { sp := .global, store := false, order := acq, repl := cache == .replicate }) (fun _ => rfl) rfl
  | ldn look acq na d a => exact load_traps (k := { sp := .peer, store := false, order := acq }) (fun _ => rfl) rfl
  | ldh look acq nosnoop rlx d a => exact load_traps (k := { sp := .host, store := false, order := acq }) (fun _ => rfl) rfl
  | stp look disp d a => exact store_traps (k := { sp := .priv, store := true, disp := disp }) (fun _ => rfl) rfl rfl
  | stg look rel cache d a => exact store_traps (k := { sp := .global, store := true, order := rel }) (fun _ => rfl) rfl rfl
  | stn look rel ack d a =>
    exact store_traps (k := { sp := .peer, store := true, order := rel, ack := ack }) (fun _ => rfl) rfl rfl
  | sth look rel nosnoop rlx d a => exact store_traps (k := { sp := .host, store := true, order := rel }) (fun _ => rfl) rfl rfl
  | aadd | afadd | amin | amax | aand | aor | axor | axchg | acas | ainc | adec => exact atom_traps fun _ => rfl
  | cctl look op a =>
    cases op with
    | lineinv =>
      refine trapsAs_of_raised (fun _ => rfl) (fun _ _ _ => rfl) (fun _ _ _ => rfl) (fun _ _ => passes_operands rfl) (fun _ => rfl)
        (.guarded (fun c hc => hc.1) (.skip (fun c hc => ?_) (.here (fun c hc => ?_) .refl)))
      · simp [pendFull_of_room hc.2.1]
      · exact bne_iff_ne.mpr hc.2.2
    | _ => exact trivial
  | waitaddr acq cc d a =>
    refine trapsAs_of_raised (fun _ => rfl) (fun _ _ _ => rfl) (fun _ _ _ => rfl) (fun c hc => passes_mode ?_ ?_) (fun _ => rfl)
      (.guarded ?_ (.here ?_ .refl))
    · obtain ⟨hd, ha, -⟩ := hc
      simp [hd, ha]
    · obtain ⟨-, -, ht, -⟩ := hc
      simp [ht]
    · rintro c ⟨-, -, -, ha, -⟩
      exact ha
    · rintro c ⟨-, -, -, -, hodd⟩
      simpa [tyBytes] using hodd
  | tblload look k a =>
    refine trapsAs_of_raised (fun _ => rfl) (fun _ _ _ => rfl) (fun _ _ _ => rfl) (fun c hc => passes_mode ?_ ?_) (fun _ => rfl)
      (.guarded ?_ (.here ?_ .refl))
    · obtain ⟨ha, -⟩ := hc
      simp [ha]
    · obtain ⟨-, hk, -⟩ := hc
      simpa using hk
    · rintro c ⟨-, -, ha, -⟩
      exact ha
    · rintro c ⟨-, -, -, hodd⟩
      simpa using hodd
  | qput look d a =>
    cases a with
    | s k => exact qput_traps look k d
    | _ => exact trivial
  | _ => exact trivial

end Sys2Proof
end

section
/-! PROOFS. Control words, special registers, expressions and tables trap at their checks (04 R105, 05 R123, R126, R131 to R134, R138, 06 R157,
R161, 16 R396, R397). -/

namespace Sys2Proof
open Machine Safety Claims
set_option tactic.hygienic false

/-! ### Control words -/

theorem frame_traps (n : Nat) : (controlTraps (.frame n)).Forall (TrapsAs (.frame n)) := by
  refine And.intro
    (trapsAs_of_raised (fun _ => rfl) (fun _ _ _ => rfl) (fun _ _ _ => rfl) (fun _ _ => passes_plain) (fun _ => rfl)
      (.here (fun _ hc => hc) .refl))
    (trapsAs_of_raised (fun _ => rfl) (fun _ _ _ => rfl) (fun _ _ _ => rfl) (fun _ _ => passes_plain) (fun _ => rfl)
      (.skip ?_ (.here ?_ .refl)))
  · rintro c ⟨hpos, hmax, hblk, -⟩
    exact not_or.mpr ⟨hpos, not_or.mpr ⟨Nat.not_lt.mpr hmax, Nat.not_lt.mpr hblk⟩⟩
  · rintro c ⟨-, -, -, hs⟩
    exact hs

/-- The lanes of a destination that is not aligned, as BRX and CALLX find them. -/
theorem oddDests_eq (c : Iss) (a : Operand) : (lanesWhere c.act fun l => rd c a 0 l % 4 != 0) = oddDests c a :=
  congrArg (lanesWhere c.act) (funext fun l => Bool.eq_iff_iff.mpr (by simp))

theorem brx_traps (a : Operand) : (controlTraps (.brx a)).Forall (TrapsAs (.brx a)) := by
  refine trapsAs_of_raised (exec_brx a) (fun _ _ _ => rfl) (fun _ _ _ => rfl)
    (fun c hc => passes_operands ?_) (fun _ => rfl) fun c hc => ?_
  · simp [hc.1]
  · unfold brxBody
    rw [oddDests_eq]
    exact if_pos (bne_iff_ne.mpr hc.2)

/-- The accesses to call entries, with the faults of their translation. -/
theorem entryTrap_ends {uses : List Use} {pre : Iss → Prop} {keys : Iss → Lanes} {go : Iss → List (Nat × Nat) → Eff} :
    Ends (entryTrap uses pre keys).pre (fun c => if memOpsBefore c.s c.G then .stall else match keys c with
      | .hold => .stall
      | .fail k m a => .trap k m a 0
      | .ok ks => go c ks) (raised (entryTrap uses pre keys)) := by
  refine .skip (fun c hc => by simp [hc.2.1]) ?_
  rintro c ⟨-, -, k, m, a, hk⟩
  simp only [raised, entryTrap, hk]
  exact rfl

/-- What CALL and CALLX check, in order (05 R123, R132). -/
theorem callChecks_ends {uses : List Use} {sh : Nat} {pre : Iss → Prop} {go : Iss → List (Nat × Nat) → Eff} {i : Instr}
    (h : ∀ {F : TrapForm}, F.uses = (fun _ _ => uses) → F.all = true → (∀ c, F.pre c → pre c) → (∀ c, F.base c = c.s) →
      Ends F.pre (fun c => callChecks c sh (go c)) (raised F) → TrapsAs i F) :
    (callTraps uses sh pre).Forall (TrapsAs i) := by
  refine And.intro (h rfl rfl (fun _ hc => hc.1) (fun _ => rfl) (.here ?_ .refl))
    (And.intro (h rfl rfl (fun _ hc => hc.1) (fun _ => rfl) (.skip ?_ (.here ?_ .refl)))
      (h rfl rfl (fun _ hc => hc.1.1) (fun _ => rfl) (.skip ?_ (.skip ?_ entryTrap_ends))))
  · rintro c ⟨-, hs⟩
    simpa [callFrameBad] using hs
  · rintro c ⟨-, hs, -⟩
    simpa [callFrameBad] using hs
  · rintro c ⟨-, -, hs⟩
    simpa [callStoreBad] using hs
  · rintro c ⟨⟨-, hs, -⟩, -⟩
    simpa [callFrameBad] using hs
  · rintro c ⟨⟨-, -, hs⟩, -⟩
    simpa [callStoreBad] using hs

theorem call_traps (sh : Nat) (off : Int) : (controlTraps (.call sh off)).Forall (TrapsAs (.call sh off)) :=
  callChecks_ends fun hu hw hp hs hb => trapsAs_of_raised (fun _ => rfl) (fun _ _ _ => hu ▸ rfl) (fun _ _ _ => hw ▸ rfl)
    (fun _ _ => passes_plain) hs (.guarded hp hb)

theorem callx_traps (sh : Nat) (a : Operand) : (controlTraps (.callx sh a)).Forall (TrapsAs (.callx sh a)) := by
  refine And.intro ?_ (callChecks_ends fun hu hw hp hs hb => trapsAs_of_raised (fun _ => rfl) (fun _ _ _ => hu ▸ rfl)
    (fun _ _ _ => hw ▸ rfl) (fun c hc => passes_operands (by simp [(hp c hc).1])) hs
    (.guarded (fun c hc => (hp c hc).2.1) (.skip (fun c hc => ?_) hb)))
  · refine trapsAs_of_raised (fun _ => rfl) (fun _ _ _ => rfl) (fun _ _ _ => rfl)
      (fun c hc => passes_operands (by simp [hc.1])) (fun _ => rfl) (.guarded (fun c hc => hc.2.1) (.here (fun c hc => ?_) fun c _ => ?_))
    · rw [oddDests_eq]
      exact bne_iff_ne.mpr hc.2.2
    · rw [oddDests_eq]
      rfl
  · rw [oddDests_eq]
    simp [(hp c hc).2.2]

theorem ret_traps : (controlTraps .ret).Forall (TrapsAs .ret) := by
  refine And.intro
    (trapsAs_of_raised (fun _ => rfl) (fun _ _ _ => rfl) (fun _ _ _ => rfl) (fun _ _ => passes_plain) (fun _ => rfl)
      (.skip (fun _ hc => hc.1.1) (.guarded (fun _ hc => hc.1.2) entryTrap_ends)))
    (trapsAs_of_raised (fun _ => rfl) (fun _ _ _ => rfl) (fun _ _ _ => rfl) (fun _ _ => passes_plain) (fun _ => rfl)
      (.skip (fun _ hc => hc.1) (.guarded (fun _ hc => hc.2.1) (.skip (fun c hc => by simp [hc.2.2.1]) ?_))))
  rintro c ⟨-, -, -, hk, hodd⟩
  have ho : oddReturns c = lanesWhere c.act fun l => entryOf c (entryKeys c (c.P.ld - 1) .rd false) l % 4 != 0 :=
    congrArg (lanesWhere c.act) (funext fun l => Bool.eq_iff_iff.mpr (by simp))
  simp only [raised, hk]
  rw [ho] at hodd ⊢
  exact if_pos (bne_iff_ne.mpr hodd)

/-! ### Special registers, expressions and tables -/

theorem sread_traps (d : Operand) (idx : Nat) : (controlTraps (.sread d idx)).Forall (TrapsAs (.sread d idx)) := by
  refine And.intro
    (trapsAs_of_raised (fun _ => rfl) (fun _ _ _ => rfl) (fun _ _ _ => rfl) (fun _ _ => passes_plain) (fun _ => rfl)
      (.guarded (fun _ hc => hc.1) (.here (fun c hc => ?_) .refl)))
    (trapsAs_of_raised (fun _ => rfl) (fun _ _ _ => rfl) (fun _ _ _ => rfl) (fun _ _ => passes_plain) (fun _ => rfl)
      (.guarded (fun _ hc => hc.1) (.skip ?_ (.here ?_ .refl))))
  · rw [sregOf_eq, hc.2]
    rfl
  · rintro c ⟨-, rfl, -⟩
    exact Bool.false_ne_true
  · rintro c ⟨-, hidx, hd⟩
    simp [hidx, hd]

theorem vexpr_traps (d a b : Operand) : (controlTraps (.vexpr d a b)).Forall (TrapsAs (.vexpr d a b)) := by
  refine trapsAs_of_framed (fun _ => rfl) (fun _ _ _ => rfl) (fun _ _ _ => rfl) (fun c hc => passes_mode hc.1 (by simp [hc.2.1]))
    (fun _ => rfl) (.skip ?_ (.guarded (fun c hc => hc.1.2.2.2.1) (.here (fun c hc => ?_) .refl)))
  · rintro c ⟨⟨hbad, -, hmode, -⟩, hf⟩
    rw [bit_eq_testBit, hmode, hbad, hf]
    exact Bool.false_ne_true
  · obtain ⟨⟨-, -, -, -, hok⟩, -⟩ := hc
    rw [hok]
    rfl

theorem controlTraps_trap (i : Instr) : (controlTraps i).Forall (TrapsAs i) := by
  induction i with
  | frame n => exact frame_traps n
  | brx a => exact brx_traps a
  | call sh off => exact call_traps sh off
  | callx sh a => exact callx_traps sh a
  | ret => exact ret_traps
  | sread d idx => exact sread_traps d idx
  | swrite idx a =>
    refine trapsAs_of_raised (fun _ => rfl) (fun _ _ _ => rfl) (fun _ _ _ => rfl) (fun c hc => passes_operands (by simp [hc.1]))
      (fun _ => rfl) (.guarded (fun _ hc => hc.2.1) (.here ?_ .refl))
    rintro c ⟨-, -, hlow, hhigh⟩
    rw [← Bool.decide_and, ← Bool.decide_and, decide_eq_false hlow, decide_eq_false hhigh]
    rfl
  | sysr d idx =>
    refine trapsAs_illegal (chk := fun s T G _ => _) (fun _ => rfl) (fun G P c hu _ => ?_) (fun c hc => ?_) (fun _ => rfl) fun _ => rfl
    · cases d with
      | drain => exact absurd (show true = false from hu) (by decide)
      | _ => rfl
    · rw [sysReg_eq, hc]
      rfl
  | sysw idx a =>
    refine trapsAs_illegal (chk := fun _ _ _ _ => _) (fun _ => rfl) (fun G P c _ hc => ?_) (fun c hc => ?_) (fun _ => rfl) fun _ => rfl
    · simp [namesDrain, hc.1]
    · simp [hc.2]
  | vexpr d a b => exact vexpr_traps d a b
  | tbl d a b =>
    refine trapsAs_of_raised (fun _ => rfl) (fun _ _ _ => rfl) (fun _ _ _ => rfl) (fun c hc => passes_mode ?_ ?_) (fun _ => rfl)
      (.guarded ?_ (.here ?_ .refl))
    · obtain ⟨hb, hs, -⟩ := hc
      simpa [hb] using hs
    · obtain ⟨-, -, ht, hr, -⟩ := hc
      simp [ht, stoBad, hr]
    · rintro c ⟨-, -, -, -, ha, -⟩
      exact ha
    · rintro c ⟨-, -, -, -, -, hown⟩
      simpa [imp_iff_not_or] using hown
  | _ => exact trivial

end Sys2Proof
end

section
/-! PROOFS. Words on barriers, copies and the pipeline trap at their checks (10 R235, R254, R258 to R260). -/

namespace Sys2Proof
open Machine Safety Claims
set_option tactic.hygienic false

/-! ### Words on barriers, copies and the pipeline -/

/-- A guarded word that first asks for a check of its own, whose failure is a reserved operand. -/
theorem reserved_traps {i : Instr} {uses : List Use} {all : Bool} {pre p : Iss → Prop} [∀ c, Decidable (p c)] {b : Iss → Eff}
    {chk : Team → Machine.Group → Machine.Path → Chk} {body : Iss → Eff} (he : ∀ s, exec i s = issueWord i chk body s)
    (hu : ∀ T G P, (chk T G P).uses = uses) (hw : ∀ T G P, (chk T G P).waits = all)
    (hb : body = fun c => if c.act == 0 then .adv c.s else if p c then .trap .reservedOperand c.act 0 0 else b c)
    (hp : ∀ c, pre c → Passes (chk c.T c.G c.P)) (h : ∀ c, pre c → p c) : TrapsAs i (reserved1 uses all pre) := by
  subst hb
  exact trapsAs_of_raised he hu hw (fun c hc => hp c hc.2) (fun _ => rfl)
    (.guarded (fun _ hc => hc.1) (.here (fun c hc => h c hc.2) .refl))

theorem sliceOperandBad_eq_true {a : Operand} : sliceOperandBad a = true ↔ ¬∃ k, a = .s k ∧ k % 8 = 0 ∧ k ≤ 40 := by
  cases a with
  | s k => simp [sliceOperandBad, imp_iff_not_or]
  | _ => simp [sliceOperandBad]

theorem binit_traps (look b : Nat) (a : Operand) : (barrierTraps (.binit look b a)).Forall (TrapsAs (.binit look b a)) := by
  refine And.intro
    (reserved_traps (fun _ => rfl) (fun _ _ _ => rfl) (fun _ _ _ => rfl) rfl (fun c hc => passes_operands (by simp [hc.1]))
      fun c hc => noBar_eq_true.mpr hc.2)
    (trapsAs_of_raised (fun _ => rfl) (fun _ _ _ => rfl) (fun _ _ _ => rfl) (fun c hc => passes_operands (by simp [hc.1]))
      (fun _ => rfl) (.guarded (fun _ hc => hc.2.1) (.skip (fun c hc => ?_) (.here ?_ .refl))))
  · exact mt noBar_eq_true.mp (not_not_intro hc.2.2.1)
  · rintro c ⟨-, -, -, hg, he⟩
    exact ⟨by simpa [bits] using hg, he⟩

theorem copy_traps (look b : Nat) (role : Bool) (a : Operand) :
    (barrierTraps (.copy look b role a)).Forall (TrapsAs (.copy look b role a)) := by
  have hbar : ∀ {c : Iss}, hasBar c b → ¬noBar c b = true := fun h => mt noBar_eq_true.mp (not_not_intro h)
  have hop : (∃ k, a = .s k ∧ k % 8 = 0 ∧ k ≤ 40) → ¬sliceOperandBad a = true := fun h =>
    mt sliceOperandBad_eq_true.mp (not_not_intro h)
  have hbusy : ∀ {c : Iss}, c.act ≠ 0 → ¬(rd c a 4 0 = 0 ∧ rd c a 5 0 = 0xFFFFFFFF) →
      ¬((c.act == 0) = true ∨ (sliceRegs c a).getD 4 0 = 0 ∧ (sliceRegs c a).getD 5 0 = 0xFFFFFFFF) := fun ha hn =>
    not_or.mpr ⟨by simpa using ha, hn⟩
  refine And.intro
    (trapsAs_of_raised (fun _ => rfl) (fun _ _ _ => rfl) (fun _ _ _ => rfl) (fun c hc => passes_operands (by simp [hc.1]))
      (fun _ => rfl) (.here (fun c hc => noBar_eq_true.mpr hc.2) .refl))
    (And.intro
      (trapsAs_of_raised (fun _ => rfl) (fun _ _ _ => rfl) (fun _ _ _ => rfl) (fun c hc => passes_operands (by simp [hc.1]))
        (fun _ => rfl) (.skip (fun c hc => hbar hc.2.1) (.here (fun c hc => sliceOperandBad_eq_true.mpr hc.2.2) .refl)))
      (And.intro
        (trapsAs_of_raised (fun _ => rfl) (fun _ _ _ => rfl) (fun _ _ _ => rfl) (fun c hc => passes_operands (by simp [hc.1.1]))
          (fun _ => rfl) (.skip ?_ (.skip ?_ (.skip ?_ (.here (fun c hc => hc.2) .refl)))))
        (trapsAs_of_raised (fun _ => rfl) (fun _ _ _ => rfl) (fun _ _ _ => rfl) (fun c hc => passes_operands (by simp [hc.1.1]))
          (fun _ => rfl) (.skip ?_ (.skip ?_ (.skip ?_ (.skip ?_ (.skip ?_ (.here ?_ .refl)))))))))
  · rintro c ⟨⟨-, hb, -⟩, -⟩
    exact hbar hb
  · rintro c ⟨⟨-, -, hk, -⟩, -⟩
    exact hop hk
  · rintro c ⟨⟨-, -, -, ha, hn⟩, -⟩
    exact hbusy ha hn
  · rintro c ⟨⟨-, hb, -⟩, -⟩
    exact hbar hb
  · rintro c ⟨⟨-, -, hk, -⟩, -⟩
    exact hop hk
  · rintro c ⟨⟨-, -, -, ha, hn⟩, -⟩
    exact hbusy ha hn
  · rintro c ⟨-, hbad, -⟩
    exact ne_true_of_eq_false hbad
  · rintro c ⟨-, -, hl, -⟩
    rw [Bool.and_eq_true]
    exact fun h => Bool.false_ne_true ((hl h.1).symm.trans h.2)
  · rintro c ⟨-, -, -, ho⟩
    exact bne_iff_ne.mpr ho

theorem barrierTraps_trap (i : Instr) : (barrierTraps i).Forall (TrapsAs i) := by
  induction i with
  | yield b off =>
    exact reserved_traps (fun _ => rfl) (fun _ _ _ => rfl) (fun _ _ _ => rfl) rfl (fun _ _ => passes_plain)
      fun c hc => noBar_eq_true.mpr hc
  | binit look b a => exact binit_traps look b a
  | barv look b d a =>
    exact reserved_traps (fun _ => rfl) (fun _ _ _ => rfl) (fun _ _ _ => rfl) rfl
      (fun c hc => passes_operands (by simp [hc.1, hc.2.1])) fun c hc => noBar_eq_true.mpr hc.2.2
  | bwait b cur a =>
    exact reserved_traps (fun _ => rfl) (fun _ _ _ => rfl) (fun _ _ _ => rfl) rfl
      (fun c hc => passes_operands (by simpa [hc.1] using hc.2.1)) fun c hc => noBar_eq_true.mpr hc.2.2
  | btest b p cur a =>
    exact reserved_traps (fun _ => rfl) (fun _ _ _ => rfl) (fun _ _ _ => rfl) rfl
      (fun c hc => passes_operands (by simpa [hc.1] using hc.2.1)) fun c hc => noBar_eq_true.mpr hc.2.2
  | bexp look b a =>
    exact reserved_traps (fun _ => rfl) (fun _ _ _ => rfl) (fun _ _ _ => rfl) rfl
      (fun c hc => passes_operands (by simp [hc.1])) fun c hc => noBar_eq_true.mpr hc.2
  | qfence look mask bar =>
    cases bar with
    | none => exact trivial
    | some b =>
      exact trapsAs_of_raised (fun _ => rfl) (fun _ _ _ => rfl) (fun _ _ _ => rfl) (fun _ _ => passes_plain)
        (fun _ => rfl) (.here (fun c hc => noBar_eq_true.mpr hc) .refl)
  | copy look b role a => exact copy_traps look b role a
  | csum look b a =>
    refine And.intro
      (reserved_traps (fun _ => rfl) (fun _ _ _ => rfl) (fun _ _ _ => rfl) rfl (fun c hc => passes_operands (by simp [hc.1]))
        fun c hc => noBar_eq_true.mpr hc.2)
      (trapsAs_of_raised (fun _ => rfl) (fun _ _ _ => rfl) (fun _ _ _ => rfl) (fun c hc => passes_operands (by simp [hc.2.1]))
        (fun _ => rfl) (.guarded (fun _ hc => hc.1) (.skip (fun c hc => ?_) (.here ?_ .refl))))
    · exact mt noBar_eq_true.mp (not_not_intro hc.2.2.1)
    · rintro c ⟨-, -, -, hbad⟩
      exact (Bool.or_eq_true _ _).mpr (hbad.imp sliceOperandBad_eq_true.mpr id)
  | pipe d =>
    exact trapsAs_of_raised (fun _ => rfl) (fun _ _ _ => rfl) (fun _ _ _ => rfl) (fun c hc => passes_operands (by simp [hc.1]))
      (fun _ => rfl) (.here (fun c hc => hc.2) .refl)
  | piperel =>
    exact trapsAs_of_raised (fun _ => rfl) (fun _ _ _ => rfl) (fun _ _ _ => rfl) (fun _ _ => passes_plain)
      (fun _ => rfl) (.here (fun c hc => hc) .refl)
  | _ => exact trivial

end Sys2Proof
end

section
/-! PROOFS. Words of the matrix engine and of coppice buffers trap at their checks (11 R274, R279, R284 to R287, 12 R300). -/

namespace Sys2Proof
open Machine Safety Claims
set_option tactic.hygienic false

/-! ### Records in landing memory -/

theorem barOrRecordBad_eq_true {c : Iss} {bar : Option Nat} {off n : Nat} :
    (optBarBad c bar || recordBad c.T off n) = true ↔ ¬hasOptBar c bar ∨ misplaced c off n := by
  rw [Bool.or_eq_true, optBarBad_eq_true, recordBad_eq_true]

theorem not_misplaced_of_recordOk {c : Iss} {a : Operand} {n : Nat} (h : recordOk c a n) : ¬misplaced c (rd c a 0 0) n :=
  not_or.mpr ⟨not_not_intro h.1, Nat.not_lt.mpr h.2.1⟩

section record
variable {pre : Iss → Prop} {a : Operand} {n : Nat} {bar : Option Nat} {b x : Iss → Eff}

/-- A word's record is where it should be and in no granule under copy. -/
theorem Ends.placed (hbar : ∀ c, pre c → hasOptBar c bar) (hp : ∀ c, pre c → ¬misplaced c (rd c a 0 0) n)
    (hc : ∀ c, pre c → inCopied c.T true (rd c a 0 0) n = false) {z : Iss → Eff} (hb : Ends pre b x) :
    Ends pre (fun c => if optBarBad c bar || recordBad c.T (rd c a 0 0) n then z c
      else if inCopied c.T true (rd c a 0 0) n then .stall else b c) x :=
  .skip (fun c h => mt barOrRecordBad_eq_true.mp (not_or.mpr ⟨not_not_intro (hbar c h), hp c h⟩))
    (.skip (fun c h => ne_true_of_eq_false (hc c h)) hb)

end record

/-! ### Words of the matrix engine -/

/-- The checks of a record at issue: its place, its bytes, its fields. -/
def recordTraps (bar : Option Nat) (a : Operand) (bad : Iss → Nat → Bool) : List TrapForm :=
  let ok := fun (c : Iss) => isUniform a = true ∧ hasOptBar c bar
  [reserved1 [{ op := a }] false fun c => isUniform a = true ∧ (¬hasOptBar c bar ∨ misplaced c (rd c a 0 0) 128),
   { uses := fun _ _ => [{ op := a }], kind := fun _ => .uncorrected, addr := fun c => rd c a 0 0,
     pre := fun c => c.act ≠ 0 ∧ ok c ∧ unreadable c (rd c a 0 0) 128 },
   reserved1 [{ op := a }] false fun c => ok c ∧ recordOk c a 128 ∧ bad c (landNat c.T (rd c a 0 0) 128) = true]

theorem record_traps {i : Instr} {bar : Option Nat} {a : Operand} {bad : Iss → Nat → Bool} {body rest : Iss → Eff}
    (he : ∀ s, exec i s = issueWord i (fun _ _ _ => { uses := [{ op := a }], opBad := !isUniform a }) body s)
    (hb : body = fun c => if c.act == 0 then .adv c.s
      else if optBarBad c bar || recordBad c.T (rd c a 0 0) 128 then .trap .reservedOperand c.act 0 0
      else if inCopied c.T true (rd c a 0 0) 128 then .stall
      else if landMeetsBad c.T (rd c a 0 0) 128 false then .trap .uncorrected c.act (rd c a 0 0) 0
      else if bad c (landNat c.T (rd c a 0 0) 128) then .trap .reservedOperand c.act 0 0
      else rest c) : (recordTraps bar a bad).Forall (TrapsAs i) := by
  have hp : isUniform a = true → Passes { uses := [{ op := a }], opBad := !isUniform a } := fun h =>
    passes_operands (by rw [h]; rfl)
  subst hb
  exact And.intro
    (reserved_traps he (fun _ _ _ => rfl) (fun _ _ _ => rfl) rfl (fun c hc => hp hc.1) fun c hc => barOrRecordBad_eq_true.mpr hc.2)
    (And.intro
      (trapsAs_of_raised he (fun _ _ _ => rfl) (fun _ _ _ => rfl) (fun c hc => hp hc.2.1.1) (fun _ => rfl)
        (.guarded (fun _ hc => hc.1) (.placed (fun _ hc => hc.2.1.2) (fun _ hc => hc.2.2.1) (fun _ hc => hc.2.2.2.1)
          (.here (fun _ hc => hc.2.2.2.2) .refl))))
      (trapsAs_of_raised he (fun _ _ _ => rfl) (fun _ _ _ => rfl) (fun c hc => hp hc.2.1.1) (fun _ => rfl)
        (.guarded (fun _ hc => hc.1) (.placed (fun _ hc => hc.2.1.2) (fun _ hc => not_misplaced_of_recordOk hc.2.2.1)
          (fun _ hc => hc.2.2.1.2.2.1) (.skip (fun _ hc => ne_true_of_eq_false hc.2.2.1.2.2.2) (.here (fun _ hc => hc.2.2.2) .refl))))))

theorem pass_traps {i : Instr} {bar : Option Nat} {a : Operand} {bad : Iss → Nat → Bool} {kind : PassRec → MKind}
    (he : ∀ s, exec i s = passWord i bar a bad kind s) : (passTraps bar a bad).Forall (TrapsAs i) := by
  obtain ⟨hplace, hread, hfields⟩ := record_traps (bad := bad) he rfl
  refine ⟨hplace, hread, hfields, ?_⟩
  exact trapsAs_of_raised he (fun _ _ _ => rfl) (fun _ _ _ => rfl) (fun c hc => passes_operands (by rw [hc.2.1.1]; rfl))
    (fun _ => rfl) (.guarded (fun _ hc => hc.1) (.placed (fun _ hc => hc.2.1.2) (fun _ hc => not_misplaced_of_recordOk hc.2.2.1)
      (fun _ hc => hc.2.2.1.2.2.1) (.skip (fun _ hc => ne_true_of_eq_false hc.2.2.1.2.2.2)
        (.skip (fun _ hc => ne_true_of_eq_false hc.2.2.2.1) (.here (fun _ hc => (Bool.and_eq_true _ _).mpr hc.2.2.2.2) .refl)))))

/-- A check for faulted tiles, where one is faulted (11 R279). -/
theorem tileChecked_delivers {uses : List Use} {all : Bool} {pre : Iss → Prop} {tiles : Iss → List Nat} {go : Iss → Unit → Eff} :
    Ends (fun c => (tileTraps uses all pre tiles).pre c ∧ c.T = teamOf c.s c.t) (fun c => tileChecked c (tiles c) (go c))
      (delivered (tileTraps uses all pre tiles)) := by
  rintro c ⟨⟨-, -, n, hn⟩, hT⟩
  simp only [tileChecked, delivered, tileTraps, hn, deliverTile, ← hT]
  exact rfl

theorem tilesBad_eq_true {c : Iss} {tiles : List Nat} {pair : Bool} {n : Nat} :
    ((tiles.any fun m => decide (c.T.ntiles ≤ m)) || (pair && n % 2 == 1)) = true ↔
      ¬((∀ m ∈ tiles, m < c.T.ntiles) ∧ (pair = true → n % 2 = 0)) := by
  rw [Bool.or_eq_true, not_and_or]
  exact or_congr (by simp) (by simp)

theorem pitchBad_eq_true {c : Iss} {bar : Option Nat} {pitch e line : Nat} :
    (optBarBad c bar || pitch % e != 0 || decide (pitch < line)) = true ↔ ¬(hasOptBar c bar ∧ pitch % e = 0 ∧ line ≤ pitch) := by
  rw [Bool.or_eq_true, Bool.or_eq_true, optBarBad_eq_true, not_and_or, not_and_or, or_assoc]
  simp

theorem rangeBad_eq_true {c : Iss} {glob : Bool} {hi addr last : Nat} :
    (!glob && (hi != 0 || !inLanding c.T addr last)) = true ↔ ¬(glob = false → hi = 0 ∧ addr + last ≤ c.T.lsz) := by
  simp [inLanding, imp_iff_not_or]

theorem scal_passes {a : Operand} (h : ∃ k, a = .s k ∧ k % 2 = 0 ∧ k ≤ 44) : tileOperandBad a = false := by
  obtain ⟨k, rfl, he, hk⟩ := h
  simp [tileOperandBad, he, hk]

theorem scal_names_no_drain {a : Operand} {n : Nat} (h : ∃ k, a = .s k ∧ k % 2 = 0 ∧ k ≤ 44) :
    namesDrain [{ op := a, n := n }] = false := by
  obtain ⟨k, rfl, -⟩ := h
  rfl

/-- Checks 1 and 2 of 11 R286 pass. -/
theorem Ends.inTile {pre : Iss → Prop} {b x : Iss → Eff} {z w : Iss → Eff} {tiles : List Nat} {n : Nat} {pair : Bool}
    {bar : Option Nat} {e line : Nat} {pitch : Iss → Nat}
    (h : ∀ c, pre c → (∀ m ∈ tiles, m < c.T.ntiles) ∧ (pair = true → n % 2 = 0) ∧ hasOptBar c bar ∧ pitch c % e = 0 ∧ line ≤ pitch c)
    (hb : Ends pre b x) :
    Ends pre (fun c => if (tiles.any fun m => decide (c.T.ntiles ≤ m)) || (pair && n % 2 == 1) then z c
      else if optBarBad c bar || pitch c % e != 0 || decide (pitch c < line) then w c else b c) x :=
  .skip (fun c hc => mt tilesBad_eq_true.mp (not_not_intro ⟨(h c hc).1, (h c hc).2.1⟩))
    (.skip (fun c hc => mt pitchBad_eq_true.mp (not_not_intro (h c hc).2.2)) hb)

theorem move_traps {i : Instr} {n : Nat} {glob col pair : Bool} {bar : Option Nat} {a : Operand} {kind : Nat → Nat → MKind}
    (he : ∀ s, exec i s = tileWord i n glob col pair bar a kind s) : (moveTraps n glob col pair bar a).Forall (TrapsAs i) := by
  refine And.intro
    (trapsAs_of_raised he (fun _ _ _ => rfl) (fun _ _ _ => rfl) (fun c hc => passes_operands (scal_passes hc.2.1)) (fun _ => rfl)
      (.guarded (fun _ hc => hc.1) (.either fun c hc => ?_)))
    (And.intro
      (trapsAs_of_raised he (fun _ _ _ => rfl) (fun _ _ _ => rfl) (fun c hc => passes_operands (scal_passes hc.2.1)) (fun _ => rfl)
        (.guarded (fun _ hc => hc.1) (.inTile (fun _ hc => hc.2.2.1) (.here (fun _ hc => bne_iff_ne.mpr hc.2.2.2) .refl))))
      (And.intro
        (trapsAs_of_raised he (fun _ _ _ => rfl) (fun _ _ _ => rfl) (fun c hc => passes_operands (scal_passes hc.2.1))
          (fun _ => rfl) (.guarded (fun _ hc => hc.1) (.inTile (fun _ hc => hc.2.2.1)
            (.skip (fun _ hc => mt bne_iff_ne.mp (not_not_intro hc.2.2.2.1)) (.here (fun _ hc => rangeBad_eq_true.mpr hc.2.2.2.2) .refl)))))
        (trapsAs_of_delivered he (fun _ _ _ => rfl) (fun _ _ _ => rfl) (fun c hc => passes_operands (scal_passes hc.2.1.1))
          (fun c hc _ _ => scal_names_no_drain hc.2.1.1)
          (.guarded (fun _ hc => hc.1.1) (.inTile (fun _ hc => hc.1.2.1.2.1)
            (.skip (fun _ hc => mt bne_iff_ne.mp (not_not_intro hc.1.2.1.2.2.1))
              (.skip (fun _ hc => mt rangeBad_eq_true.mp (not_not_intro hc.1.2.1.2.2.2)) tileChecked_delivers)))))))
  by_contra hn
  obtain ⟨ht, hp⟩ := not_or.mp hn
  obtain ⟨hm, he⟩ := not_not.mp (mt tilesBad_eq_true.mpr ht)
  exact hc.2.2 ⟨hm, he, not_not.mp (mt pitchBad_eq_true.mpr hp)⟩

theorem mwait_traps (tile : Option Nat) : (matrixTraps (.mwait tile)).Forall (TrapsAs (.mwait tile)) := by
  cases tile with
  | none =>
    refine And.intro (fun _ _ _ _ _ _ hc => ?_) (trapsAs_of_delivered (fun _ => rfl) (fun _ _ _ => rfl) (fun _ _ _ => rfl)
      (fun _ _ => passes_plain) (fun _ _ _ _ => rfl) (.guarded (fun _ hc => hc.1.1) (.skip (fun _ _ => Bool.false_ne_true)
        (.skip (fun _ hc => ne_true_of_eq_false hc.1.2.1.2) tileChecked_delivers))))
    obtain ⟨-, n, h, -⟩ := hc
    contradiction
  | some n =>
    refine And.intro
      (reserved_traps (fun _ => rfl) (fun _ _ _ => rfl) (fun _ _ _ => rfl) rfl (fun _ _ => passes_plain) fun c hc => ?_)
      (trapsAs_of_delivered (fun _ => rfl) (fun _ _ _ => rfl) (fun _ _ _ => rfl)
      (fun _ _ => passes_plain) (fun _ _ _ _ => rfl) (.guarded (fun _ hc => hc.1.1) (.skip (fun _ hc => ?_)
        (.skip (fun _ hc => ne_true_of_eq_false hc.1.2.1.2) tileChecked_delivers))))
    · obtain ⟨m, h, hm⟩ := hc
      cases h
      exact decide_eq_true hm
    · exact mt of_decide_eq_true (not_le.mpr (hc.1.2.1.1 n rfl))

section bind
variable {c : Iss} {look : Nat} {d a : Operand} {r : List Nat}

theorem bindOperands_bad : (eightBad a || bindBad r) = true ↔ ¬eight a ∨ bindBad r = true := by
  rw [Bool.or_eq_true, eightBad_eq_true]

theorem bindEff_of_reserved (ha : c.act ≠ 0) (h : ¬eight a ∨ bindBad r = true) :
    bindEff c look d a r = .trap .reservedOperand c.act 0 0 :=
  (if_neg (by simpa using ha)).trans (if_pos (bindOperands_bad.mpr h))

/-- CBIND whose operands are good comes to its data area's alignment. -/
theorem bindEff_of_good (ha : c.act ≠ 0) (he : eight a) (hb : bindBad r = false) : bindEff c look d a r =
    if (bindBlock r).darea % 4096 != 0 then .trap .misaligned c.act (bindBlock r).darea 0
    else match weightWatches c.s c.T.ctx c.T.die (bindBlock r) with
      | .error (k, va) => .trap k c.act va 0
      | .ok _ => match areaSpan c.s c.T.ctx c.T.die (bindBlock r) with
        | .fail k va => .trap k c.act va 0
        | .hold => .stall
        | .ok _ => postSlot c look (.cbind (bindBlock r)) (resultKeys c d 1) :=
  (if_neg (by simpa using ha)).trans
    (if_neg (mt bindOperands_bad.mp (not_or.mpr ⟨not_not_intro he, ne_true_of_eq_false hb⟩)))

theorem bindEff_of_weights (ha : c.act ≠ 0) (he : eight a) (hb : bindBad r = false) (h0 : (bindBlock r).darea % 4096 = 0)
    {k : TrapKind} {va : Nat} (h : weightWatches c.s c.T.ctx c.T.die (bindBlock r) = .error (k, va)) :
    bindEff c look d a r = .trap k c.act va 0 := by
  rw [bindEff_of_good ha he hb, if_neg (mt bne_iff_ne.mp (not_not_intro h0)), h]

theorem bindEff_of_area (ha : c.act ≠ 0) (he : eight a) (hb : bindBad r = false) (h0 : (bindBlock r).darea % 4096 = 0) {w : List Watch}
    {k : TrapKind} {va : Nat} (hw : weightWatches c.s c.T.ctx c.T.die (bindBlock r) = .ok w)
    (h : areaSpan c.s c.T.ctx c.T.die (bindBlock r) = .fail k va) : bindEff c look d a r = .trap k c.act va 0 := by
  rw [bindEff_of_good ha he hb, if_neg (mt bne_iff_ne.mp (not_not_intro h0)), hw, h]

end bind

/-- A form whose trap and address are found together. -/
theorem raised_of_why {uses : Machine.Group → Machine.Path → List Use} {all : Bool} {pre : Iss → Prop} {why : Iss → TrapKind × Nat}
    {c : Iss} {k : TrapKind} {va : Nat} (h : why c = (k, va)) :
    raised { uses := uses, all := all, pre := pre, kind := fun c => (why c).1, addr := fun c => (why c).2 } c = .trap k c.act va 0 := by
  simp only [raised, h]

theorem cbind_traps (look : Nat) (d a : Operand) : (matrixTraps (.cbind look d a)).Forall (TrapsAs (.cbind look d a)) := by
  refine And.intro
    (trapsAs_of_raised (fun _ => rfl) (fun _ _ _ => rfl) (fun _ _ _ => rfl) (fun c hc => passes_operands (by simp [hc.2.1]))
      (fun _ => rfl) (fun c hc => bindEff_of_reserved hc.1 hc.2.2))
    (And.intro
      (trapsAs_of_raised (fun _ => rfl) (fun _ _ _ => rfl) (fun _ _ _ => rfl) (fun c hc => passes_operands (by simp [hc.1.1]))
        (fun _ => rfl) ?_)
      (trapsAs_of_raised (fun _ => rfl) (fun _ _ _ => rfl) (fun _ _ _ => rfl) (fun c hc => passes_operands (by simp [hc.1.1]))
        (fun _ => rfl) ?_))
  · rintro c ⟨⟨-, ha, he, hb⟩, h0⟩
    exact (bindEff_of_good ha he hb).trans (if_pos (bne_iff_ne.mpr h0))
  rintro c ⟨⟨-, ha, he, hb⟩, h0, ⟨⟨k, va⟩, hx⟩ | ⟨⟨w, hw⟩, k, va, hk⟩⟩
  · refine (bindEff_of_weights ha he hb h0 hx).trans (raised_of_why ?_).symm
    generalize hW : (fun c : Iss => weightWatches c.s c.T.ctx c.T.die ((fun c => bindBlock (bindRegs c a)) c)) c = W at hx ⊢
    subst hx
    rfl
  · exact (bindEff_of_area ha he hb h0 hw hk).trans (raised_of_why (by simp only [hw, hk])).symm

theorem matrixTraps_trap (i : Instr) : (matrixTraps i).Forall (TrapsAs i) := by
  induction i with
  | mpass look bar a => exact pass_traps fun _ => rfl
  | mdelta look bar a => exact pass_traps fun _ => rfl
  | mzero look n =>
    exact reserved_traps (fun _ => rfl) (fun _ _ _ => rfl) (fun _ _ _ => rfl) rfl (fun _ _ => passes_plain) fun _ hc => hc
  | mdrain look n =>
    exact And.intro
      (reserved_traps (fun _ => rfl) (fun _ _ _ => rfl) (fun _ _ _ => rfl) rfl (fun _ _ => passes_plain) fun _ hc => hc)
      (trapsAs_of_delivered (fun _ => rfl) (fun _ _ _ => rfl) (fun _ _ _ => rfl) (fun _ _ => passes_plain) (fun _ _ _ _ => rfl)
        (.guarded (fun _ hc => hc.1.1) (.skip (fun _ hc => not_le.mpr hc.1.2.1) tileChecked_delivers)))
  | mstore look n glob col pair bar a => exact move_traps fun _ => rfl
  | mload look n glob col pair bar a => exact move_traps fun _ => rfl
  | mwait tile => exact mwait_traps tile
  | cbind look d a => exact cbind_traps look d a
  | _ => exact trivial

end Sys2Proof
end

section
/-! PROOFS. Words of the marcher, fields and the merge unit trap at their checks (13 R332 to R343, 14 R345, R350), and the five tables together. -/

namespace Sys2Proof
open Machine Safety Claims
set_option tactic.hygienic false

/-! ### Words of the marcher, fields and the merge unit -/

theorem inLanding_eq_false {T : Team} {off n : Nat} (h : T.lsz < off + n) : (!inLanding T off n) = true := by
  simp [inLanding, h]

theorem header_traps {i : Instr} {uses : List Use} {ok : Prop} {a : Operand} {chk : Team → Machine.Group → Machine.Path → Chk}
    {body : Iss → Eff} {go : Iss → Unit → Eff} (he : ∀ s, exec i s = issueWord i chk body s) (hu : ∀ T G P, (chk T G P).uses = uses)
    (hw : ∀ T G P, (chk T G P).waits = false) (hp : ok → ∀ T G P, Passes (chk T G P))
    (hb : body = fun c => if c.act == 0 then .adv c.s else cqChecked c (rd c a 0 0) (go c)) :
    (headerTraps uses ok a).Forall (TrapsAs i) := by
  have hplace : ∀ c : Iss, (rd c a 0 0 % 64 != 0 || !inLanding c.T (rd c a 0 0) 64) = true ↔
      ¬(rd c a 0 0 % 64 = 0 ∧ rd c a 0 0 + 64 ≤ c.T.lsz) := fun c => by
    rw [Bool.or_eq_true, not_and_or]
    simp [inLanding]
  subst hb
  exact And.intro
    (trapsAs_of_raised he hu hw (fun c hc => hp hc.2.1 _ _ _) (fun _ => rfl)
      (.guarded (fun _ hc => hc.1) (.here (fun c hc => (hplace c).mpr hc.2.2) .refl)))
    (And.intro
      (trapsAs_of_raised he hu hw (fun c hc => hp hc.2.1 _ _ _) (fun _ => rfl) (.guarded (fun _ hc => hc.1)
        (.skip (fun c hc => mt (hplace c).mp (not_not_intro hc.2.2.1)) (.here (fun _ hc => hc.2.2.2) .refl))))
      (trapsAs_of_raised he hu hw (fun c hc => hp hc.2.1 _ _ _) (fun _ => rfl) (.guarded (fun _ hc => hc.1)
        (.skip (fun c hc => mt (hplace c).mp (not_not_intro hc.2.2.1))
          (.skip (fun _ hc => ne_true_of_eq_false hc.2.2.2.1) (.here (fun _ hc => hc.2.2.2.2) .refl))))))

theorem ray_traps {i : Instr} {look nd align : Nat} {d a : Operand} {work : List Acc → List (List Nat) → Work}
    (he : ∀ s, exec i s = rayWord i look nd align d a work s) (hn : nd = 4 ∨ nd = 2) :
    (rayTraps look nd align d a).Forall (TrapsAs i) := by
  refine access_traps he (fun _ _ _ => rfl) (fun _ _ _ => rfl) (fun _ _ _ hok => passes_operands ?_) (fun c => ⟨_, rfl⟩)
  rw [Bool.or_eq_false_iff]
  refine ⟨?_, vecOdd_of_vecAt hok.2⟩
  rcases hn with rfl | rfl <;> exact vecOdd_of_vecAt hok.1

theorem fbind_traps (look slot : Nat) (land : Bool) (d a : Operand) :
    (marchTraps (.fbind look slot land d a)).Forall (TrapsAs (.fbind look slot land d a)) := by
  have hodd : ∀ x y : Nat, ((x + 2 ^ 32 * y) % 4 != 0) = true ↔ x % 4 ≠ 0 := fun x y => by
    rw [bne_iff_ne, Nat.add_mod, Nat.mul_mod]
    simp
  cases land with
  | true =>
    refine And.intro
      (trapsAs_of_raised (fun _ => rfl) (fun _ _ _ => rfl) (fun _ _ _ => rfl) (fun c hc => passes_operands (by simp [hc.2.1, hc.2.2.1]))
        (fun _ => rfl) (.guarded (fun _ hc => hc.1) (.either ?_)))
      (fun _ _ _ _ _ _ hc => absurd hc.2.2.2.1 Bool.false_ne_true.symm)
    rintro c ⟨-, -, -, -, hlow | hhigh | hout⟩
    · exact .inl ((hodd _ _).mpr hlow)
    · exact .inr ((Bool.or_eq_true _ _).mpr (.inl (bne_iff_ne.mpr hhigh)))
    · have hout : c.T.lsz < rd c a 0 0 + 2 ^ 32 * rd c a 1 0 + 32 := by omega
      exact .inr ((Bool.or_eq_true _ _).mpr (.inr (inLanding_eq_false hout)))
  | false =>
    exact And.intro (fun _ _ _ _ _ _ hc => absurd hc.2.2.2.1 Bool.false_ne_true)
      (trapsAs_of_raised (fun _ => rfl) (fun _ _ _ => rfl) (fun _ _ _ => rfl) (fun c hc => passes_operands (by simp [hc.1, hc.2.1]))
        (fun _ => rfl) (.guarded (fun _ hc => hc.2.2.1) (.here (fun _ hc => (hodd _ _).mpr hc.2.2.2.2) .refl)))

theorem mstat_traps (look : Nat) (d a : Operand) : (marchTraps (.mstat look d a)).Forall (TrapsAs (.mstat look d a)) := by
  refine And.intro
    (reserved_traps (fun _ => rfl) (fun _ _ _ => rfl) (fun _ _ _ => rfl) rfl (fun c hc => passes_operands (by simp [hc.1]))
      fun _ hc => recordBad_eq_true.mpr hc.2)
    (trapsAs_of_raised (fun _ => rfl) (fun _ _ _ => rfl) (fun _ _ _ => rfl) (fun c hc => passes_operands (by simp [hc.2.1]))
      (fun _ => rfl) (.guarded (fun _ hc => hc.1) (.skip (fun _ hc => mt recordBad_eq_true.mp hc.2.2.1)
        (.skip (fun _ hc => ne_true_of_eq_false hc.2.2.2.1) (.here ?_ .refl)))))
  rintro c ⟨-, -, -, -, hlive, hbad⟩
  simpa [hbad] using hlive

/-! ### VFETCH -/

theorem lanesOf_lanesWhere (m : Mask) (f : Nat → Bool) : lanesOf (lanesWhere m f) = (lanesOf m).filter f := by
  have hl : ∀ l ∈ List.range lanes, (lanesWhere m f).getLsbD l = (f l && m.getLsbD l) := fun l hl => by
    have hl := List.mem_range.mp hl
    rw [lanesWhere, maskOf_getLsbD _ hl, Bool.eq_iff_iff, List.contains_iff_mem, List.mem_filter, mem_lanesOf]
    simp [show l < 96 from hl, and_comm]
  rw [lanesOf, List.filter_congr hl, lanesOf, List.filter_filter]

/-- The points whose addresses are misaligned, of all the points of some lanes. -/
theorem odd_points (ls : List Nat) (f : Nat → List Nat) (g : List Nat → List Nat) :
    ((ls.zip (ls.map f)).filter fun x => (g x.2).any fun y => y % 4 != 0) =
      (ls.filter fun l => ((g (f l)).find? fun y => y % 4 != 0).isSome).map fun l => (l, f l) := by
  rw [← List.map_prod_left_eq_zip, List.filter_map]
  simp only [List.isSome_find?]
  rfl

theorem vfetch_traps (look : Nat) (grad : Bool) (d a : Operand) :
    (marchTraps (.vfetch look grad d a)).Forall (TrapsAs (.vfetch look grad d a)) := by
  have hp : ∀ {c : Iss}, vecAt d 4 ∧ isUniform a = true ∧ memOpsBefore c.s c.G = false → (vecOdd d 4 || !isUniform a) = false :=
    fun h => by simp [vecOdd_of_vecAt h.1, h.2.1]
  refine And.intro
    (trapsAs_of_raised (fun _ => rfl) (fun _ _ _ => rfl) (fun _ _ _ => rfl) (fun c hc => passes_operands (hp hc.2.1))
      (fun _ => rfl) (.guarded (fun _ hc => hc.1) (.skip (fun _ hc => ne_true_of_eq_false hc.2.1.2.2)
        (.here (fun _ hc => recordBad_eq_true.mpr hc.2.2) .refl))))
    (And.intro
      (trapsAs_of_raised (fun _ => rfl) (fun _ _ _ => rfl) (fun _ _ _ => rfl) (fun c hc => passes_operands (hp hc.2.1))
        (fun _ => rfl) (.guarded (fun _ hc => hc.1) (.skip (fun _ hc => ne_true_of_eq_false hc.2.1.2.2)
          (.skip (fun _ hc => mt recordBad_eq_true.mp hc.2.2.1) (.skip (fun _ hc => ne_true_of_eq_false hc.2.2.2.1)
            (.here (fun _ hc => hc.2.2.2.2) .refl))))))
      (And.intro
        (trapsAs_of_raised (fun _ => rfl) (fun _ _ _ => rfl) (fun _ _ _ => rfl) (fun c hc => passes_operands (hp hc.2.1))
          (fun _ => rfl) (.guarded (fun _ hc => hc.1) (.skip (fun _ hc => ne_true_of_eq_false hc.2.1.2.2)
            (.skip (fun _ hc => mt recordBad_eq_true.mp (not_misplaced_of_recordOk hc.2.2.1))
              (.skip (fun _ hc => ne_true_of_eq_false hc.2.2.1.2.2.1) (.skip (fun _ hc => ne_true_of_eq_false hc.2.2.1.2.2.2)
                (.here (fun _ hc => hc.2.2.2) .refl)))))))
        (trapsAs_of_raised (fun _ => rfl) (fun _ _ _ => rfl) (fun _ _ _ => rfl) (fun c hc => passes_operands (hp hc.2.1))
          (fun _ => rfl) (.guarded (fun _ hc => hc.1) (.skip (fun _ hc => ne_true_of_eq_false hc.2.1.2.2)
            (.skip (fun _ hc => mt recordBad_eq_true.mp (not_misplaced_of_recordOk hc.2.2.1))
              (.skip (fun _ hc => ne_true_of_eq_false hc.2.2.1.2.2.1) (.skip (fun _ hc => ne_true_of_eq_false hc.2.2.1.2.2.2)
                (.skip (fun _ hc => ne_true_of_eq_false hc.2.2.2.1)
                  (.skip (fun _ hc => ne_true_of_eq_false (pendFull_of_room hc.2.2.2.2.1)) ?_))))))))))
  rintro c ⟨-, -, -, -, -, hne⟩
  obtain ⟨l, ls, hl⟩ := List.exists_cons_of_ne_nil (lanesOf_ne_nil hne)
  have hlow : lowest _ = l := congrArg (fun ls => ls.head?.getD 0) hl
  have hls := (lanesOf_lanesWhere _ _).symm.trans hl
  have hodd : ((lanesOf c.act).zip (laneGroup c d 3 (lanesOf c.act))).filter
      (fun x => (fetchAddrs (landNat c.T (rd c a 0 0) 32) x.2).any fun y => y % 4 != 0) = _ :=
    (odd_points _ (laneRegs c d 3) _).trans (congrArg (List.map _) hls)
  simp only [hodd, List.map_cons]
  refine congrArg₂ (fun m a => Eff.trap .misaligned m a 0) ((congrArg maskOf ?_).trans (congrArg maskOf hls.symm)) ?_
  · rw [List.map_map]
    exact congrArg (l :: ·) (List.map_id _)
  · exact congrArg (fun l => (((fetchAddrs (landNat c.T (rd c a 0 0) 32) (laneRegs c d 3 l)).find? fun y => y % 4 != 0).getD 0)) hlow.symm

theorem march_traps (look b : Nat) (d a : Operand) : (marchTraps (.march look b d a)).Forall (TrapsAs (.march look b d a)) := by
  refine trapsAs_of_raised (fun _ => rfl) (fun _ _ _ => rfl) (fun _ _ _ => rfl)
    (fun c hc => passes_operands (by simp [vecOdd_of_vecAt hc.2.1, hc.2.2.1])) (fun _ => rfl) (.guarded (fun _ hc => hc.1) (.either ?_))
  rintro c ⟨-, -, -, hbar | hslot | hbad⟩
  · exact .inl ((Bool.or_eq_true _ _).mpr (.inr (noBar_eq_true.mpr hbar)))
  · exact .inl ((Bool.or_eq_true _ _).mpr (.inl hslot))
  · exact .inr (by simpa [inLanding, or_assoc] using hbad)

theorem drop_two_of_eight (f : Nat → Nat) : ((List.range 8).map f).drop 2 = (List.range 6).map fun i => f (i + 2) := rfl

theorem buck_traps (look b slot : Nat) (a : Operand) : (marchTraps (.buck look b slot a)).Forall (TrapsAs (.buck look b slot a)) := by
  refine reserved_traps (fun _ => rfl) (fun _ _ _ => rfl) (fun _ _ _ => rfl) rfl
    (fun c hc => passes_operands (Bool.not_eq_true _ ▸ mt eightBad_eq_true.mp (not_not_intro hc.1))) ?_
  intro c hc
  rw [Bool.or_eq_true, Bool.or_eq_true, Bool.or_eq_true, Bool.or_eq_true]
  obtain ⟨-, hbar | hslot | hodd | hout | hbox⟩ := hc
  · exact .inl (.inl (.inl (.inr (noBar_eq_true.mpr hbar))))
  · exact .inl (.inl (.inl (.inl hslot)))
  · exact .inl (.inl (.inr (bne_iff_ne.mpr hodd)))
  · exact .inl (.inr (inLanding_eq_false (off := rd c a 0 0) (n := rd c a 1 0) hout))
  · exact .inr ((congrArg boxBad (drop_two_of_eight fun i => rd c a i 0)).trans hbox)

theorem visw_traps (look : Nat) (d a : Operand) :
    (accessTraps (fun _ => [{ op := d, n := 2, dst := true }, { op := a, n := 2 }]) (fun _ => isVector d = true ∧ isVector a = true)
      look true .global (fun _ => 8) fun c => pairOf c a).Forall (TrapsAs (.visw look d a)) := by
  have he : ∀ s, exec (.visw look d a) s = execVisw look d a s := fun _ => rfl
  exact access_traps he (fun _ _ _ => rfl) (fun _ _ _ => rfl)
    (fun _ _ _ hok => passes_operands (by rw [hok.1, hok.2]; rfl)) fun c => ⟨_, rfl⟩

theorem merge_traps (look : Nat) (bar : Option Nat) (a : Operand) :
    (marchTraps (.merge look bar a)).Forall (TrapsAs (.merge look bar a)) := by
  cases bar with
  | none => exact record_traps (bad := fun _ x => jobBad x) (fun _ => rfl) rfl
  | some b => exact record_traps (bad := fun _ x => jobBad x) (fun _ => rfl) rfl

theorem marchTraps_trap (i : Instr) : (marchTraps i).Forall (TrapsAs i) := by
  induction i with
  | march look b d a => exact march_traps look b d a
  | buck look b slot a => exact buck_traps look b slot a
  | feval look mode slot d a =>
    exact reserved_traps (fun _ => rfl) (fun _ _ _ => rfl) (fun _ _ _ => rfl) rfl
      (fun c hc => passes_operands (by rw [vecOdd_of_vecAt hc.1, vecOdd_of_vecAt hc.2.1]; rfl)) fun _ hc => hc.2.2
  | fbind look slot land d a => exact fbind_traps look slot land d a
  | cqpop look d a =>
    exact header_traps (fun _ => rfl) (fun _ _ _ => rfl) (fun _ _ _ => rfl)
      (fun h _ _ _ => passes_operands (by rw [vecOdd_of_vecAt h.1, h.2]; rfl)) rfl
  | cqret look d a =>
    exact header_traps (fun _ => rfl) (fun _ _ _ => rfl) (fun _ _ _ => rfl)
      (fun h _ _ _ => passes_operands (by rw [vecOdd_of_vecAt h.1, h.2]; rfl)) rfl
  | boxt look d a => exact ray_traps (fun _ => rfl) (.inr rfl)
  | trit look cull d a => exact ray_traps (fun _ => rfl) (.inl rfl)
  | vfetch look grad d a => exact vfetch_traps look grad d a
  | visw look d a => exact visw_traps look d a
  | merge look bar a => exact merge_traps look bar a
  | mstat look d a => exact mstat_traps look d a
  | _ => exact trivial

/-- Settles O37: each word's entry, its checks in order, against its forms. -/
theorem wordsTrapAtTheirChecks : Obligations.WordsTrapAtTheirChecks := by
  unfold Obligations.WordsTrapAtTheirChecks
  intro forms h
  rcases List.mem_cons.mp h with rfl | h
  · exact trapTable_of_forall memoryTraps_trap
  rcases List.mem_cons.mp h with rfl | h
  · exact trapTable_of_forall controlTraps_trap
  rcases List.mem_cons.mp h with rfl | h
  · exact trapTable_of_forall barrierTraps_trap
  rcases List.mem_cons.mp h with rfl | h
  · exact trapTable_of_forall matrixTraps_trap
  · exact List.mem_singleton.mp h ▸ trapTable_of_forall marchTraps_trap

end Sys2Proof
end

section
/-! PROOFS. Immediates and moves, calls and returns (05 R127 to R129, R132 to R134): each word's entry against its forms. The
entries are written out here for the proofs alone and never run; they are `noncomputable`, so that no code is stored for them
(the compiled text is close to the largest that the check's memory limit allows). -/

namespace Sys2Proof
open Machine Safety Claims

/-! ### A lane instruction's entry against its form -/

/-- The entry of the word i is a lane instruction that reads and writes the operands of the form F, accepts the modes that F
accepts and gives the values that F gives. -/
def LaneEnters (i : Instr) (F : LaneForm) : Prop := ∃ (bad : GM → Bool) (f : Iss → Nat → Nat),
  (∀ s, exec i s = laneOp i { d := F.d, dn := F.n, dsrc := F.dsrc, srcs := F.srcs, modeBad := bad } f s) ∧
    (∀ gm, bad gm = (!F.types gm.type || (F.rounds gm && gm.round == .sto))) ∧ ∀ c l, f c l = F.val c l

theorem laneTable_of_entries {form : Instr → Option LaneForm} (h : ∀ i, (form i).elim True (LaneEnters i)) :
    LaneTable form := by
  intro i F s t g p hF G P hI ho hsc ht hr
  have hi := h i
  rw [hF] at hi
  obtain ⟨bad, f, hentry, hmode, hvalue⟩ := hi
  have hm : bad P.gm = false := by simpa [hmode, ht] using hr
  exact lane_claim (hentry s) rfl rfl rfl rfl rfl rfl hI ho hsc hm fun c l _ _ => hvalue c l

/-! ### Row 0x6 and MOV -/

theorem shlBits_eq (w a n : Nat) : shlBits w a n = if w ≤ n then 0 else a <<< n % 2 ^ w :=
  congrArg (fun x => if w ≤ n then 0 else x % 2 ^ w) (Nat.shiftLeft_eq a n).symm

theorem shrBits_eq (a n : Nat) : shrBits a n = a >>> n := (Nat.shiftRight_eq_div_pow ..).symm

theorem sarBits_eq (w a n : Nat) : sarBits w a n = wrapInt w (sint w a / 2 ^ n) :=
  congrArg (fun k => wrapInt w (sint w a / k)) (Nat.cast_pow 2 n)

theorem laneEnters_of_entry {i : Instr} {F : LaneForm} {bad : GM → Bool} {f : Iss → Nat → Nat}
    (he : ∀ s, exec i s = laneOp i { d := F.d, dn := F.n, dsrc := F.dsrc, srcs := F.srcs, modeBad := bad } f s)
    (hm : ∀ gm, bad gm = (!F.types gm.type || (F.rounds gm && gm.round == .sto))) (hv : ∀ c l, f c l = F.val c l) :
    LaneEnters i F := ⟨bad, f, he, hm, hv⟩

theorem immForm_enters {i : Instr} {d : Operand} {f : Iss → Nat → Nat} {g : GM → Nat → Nat}
    (he : ∀ s, exec i s = laneOp i { d := d, dsrc := true, srcs := [], modeBad := immBad } f s)
    (hv : ∀ c l, f c l = (immForm d g).val c l) : LaneEnters i (immForm d g) :=
  laneEnters_of_entry he (fun _ => (Bool.or_false _).symm) hv

theorem row6_enters (i : Instr) : (row6 i).elim True (LaneEnters i) := by
  induction i with
  | lit d imm | mov d a | flit d imm =>
    change LaneEnters _ _
    exact laneEnters_of_entry (fun _ => rfl) (fun _ => rfl) fun _ _ => rfl
  | lith d imm =>
    change LaneEnters _ _
    exact laneEnters_of_entry (fun _ => rfl) (fun _ => rfl) fun c l => congrArg (rd c d 0 l % 2 ^ 16 + ·) (Nat.mul_comm ..)
  | addi d imm | andi d imm | ori d imm | xori d imm =>
    change LaneEnters _ _
    exact immForm_enters (fun _ => rfl) fun _ _ => rfl
  | shli d n =>
    change LaneEnters _ _
    exact immForm_enters (fun _ => rfl) fun c _ => congrArg (extendElem c.P.gm.type) (shlBits_eq ..)
  | shri d n =>
    change LaneEnters _ _
    exact immForm_enters (fun _ => rfl) fun c _ => congrArg (extendElem c.P.gm.type) (shrBits_eq ..)
  | sari d n =>
    change LaneEnters _ _
    exact immForm_enters (fun _ => rfl) fun c _ => congrArg (extendElem c.P.gm.type) (sarBits_eq ..)
  | _ => exact trivial

/-- Settles O5: each word's entry. -/
theorem immediateRowResults : Obligations.ImmediateRowResults := laneTable_of_entries row6_enters

/-! ### A path that stays in one group -/

theorem lowest_mem {m : Mask} (h : m ≠ 0) : lowest m ∈ lanesOf m := by
  obtain ⟨l, ls, hl⟩ := List.exists_cons_of_ne_nil (lanesOf_ne_nil h)
  rw [lowest, lowLane, hl]
  exact List.mem_cons_self

/-- Where every lane of a path is active and all active lanes have one key, the path is one group. -/
theorem groupLanes_if_active {κ : Type} [DecidableEq κ] {c : Iss} {f : Nat → κ} {x : κ} (h0 : c.act ≠ 0)
    (hall : c.act = c.P.mask) (h : ∀ l ∈ lanesOf c.act, f l = f (lowest c.act)) :
    groupLanes c.P.mask (fun l => if c.act.getLsbD l then f l else x) = [(f (lowest c.act), c.act)] := by
  have hkey : ∀ l ∈ lanesOf c.act, (if c.act.getLsbD l then f l else x) = f (lowest c.act) := fun l hl =>
    (if_pos (mem_lanesOf.mp hl).2).trans (h l hl)
  have hlow := hkey _ (lowest_mem h0)
  rw [← hall, groupLanes_same h0 fun l hl => (hkey l hl).trans hlow.symm]
  exact congrArg (fun k => [(k, c.act)]) hlow

/-! ### CALL -/

/-- A form without operands against an entry that waits for the windows of its path and checks nothing else. -/
theorem plain_form {i : Instr} {F : EffForm} {body : Iss → Eff}
    (he : ∀ s, exec i s = issueWord i (fun _ _ _ => { waits := true }) body s) (hu : F.uses = fun _ => []) (hw : F.all = true)
    (h : ∀ c, F.pre c → body c = effOf F.way (F.eff c)) : Enters i F :=
  ⟨_, _, he, fun _ _ _ => hu ▸ rfl, fun _ _ _ => hw ▸ rfl, fun _ _ => ⟨rfl, rfl, rfl⟩, h⟩

theorem callChecks_ready {c : Iss} {sh : Nat} (go : List (Nat × Nat) → Eff) (h : callReady c sh) :
    callChecks c sh go = go (entryKeys c c.P.ld .wr true) := by
  obtain ⟨hframe, hstore, hdepth, hmem, hkeys⟩ := h
  have hf : callFrameBad c.P sh = false := decide_eq_false (Nat.not_lt.mpr hframe)
  have hs : callStoreBad c.T c.P = false :=
    Bool.or_eq_false_iff.mpr ⟨decide_eq_false (Nat.not_lt.mpr hstore), decide_eq_false (Nat.not_lt.mpr hdepth)⟩
  refine (if_neg (ne_true_of_eq_false hf)).trans ((if_neg (ne_true_of_eq_false hs)).trans
    ((if_neg (ne_true_of_eq_false hmem)).trans ?_))
  rw [hkeys]

/-- CALL past its checks, with the keys of its call entries (05 R132). -/
noncomputable def callGo (sh : Nat) (off : Int) (c : Iss) (keys : List (Nat × Nat)) : Eff :=
  let wrote := writeCalls c.s c sh c.act keys
  let go := callPath sh (wordsFrom c.P.pc off)
  if c.act == c.P.mask then .jump (modPath wrote c.t c.g c.p go)
  else match freeEntries c.G with
    | [] => .wait (stalled c c.s)
    | q :: _ => .adv (splitTo wrote c.t c.g c.p q c.act go)

/-- The entry of CALL. -/
noncomputable def callBody (sh : Nat) (off : Int) (c : Iss) : Eff :=
  if c.act == 0 then .adv c.s else callChecks c sh (callGo sh off c)

theorem exec_call (sh : Nat) (off : Int) (s : State) :
    exec (.call sh off) s = issueWord (.call sh off) (fun _ _ _ => { waits := true }) (callBody sh off) s := rfl

section call
variable {sh : Nat} {off : Int} {c : Iss}

theorem callBody_ready (h0 : c.act ≠ 0) (h : callReady c sh) :
    callBody sh off c = callGo sh off c (entryKeys c c.P.ld .wr true) :=
  (if_neg (mt beq_iff_eq.mp h0)).trans (callChecks_ready _ h)

theorem callGo_splits {keys : List (Nat × Nat)} (hall : c.act ≠ c.P.mask) (hf : freeEntries c.G ≠ []) :
    callGo sh off c keys = .adv (splitTo (writeCalls c.s c sh c.act keys) c.t c.g c.p (nextFree c) c.act
      (callPath sh (wordsFrom c.P.pc off))) := by
  obtain ⟨q, qs, hq⟩ := List.exists_cons_of_ne_nil hf
  refine (if_neg (mt beq_iff_eq.mp hall)).trans ?_
  rw [nextFree, hq]
  rfl

theorem callGo_stalls {keys : List (Nat × Nat)} (hall : c.act ≠ c.P.mask) (hf : freeEntries c.G = []) :
    callGo sh off c keys = .wait (stalled c c.s) := by
  refine (if_neg (mt beq_iff_eq.mp hall)).trans ?_
  rw [hf]

end call

theorem call_entry (sh : Nat) (off : Int) : (calls (.call sh off)).Forall (Enters (.call sh off)) := by
  have he := exec_call sh off
  refine And.intro (plain_form he rfl rfl ?_) (And.intro (plain_form he rfl rfl ?_) (And.intro (plain_form he rfl rfl ?_)
    (plain_form he rfl rfl ?_)))
  · exact fun c h0 => if_pos (beq_iff_eq.mpr h0)
  · rintro c ⟨h0, hall, hr⟩
    exact (callBody_ready h0 hr).trans (if_pos (beq_iff_eq.mpr hall))
  · rintro c ⟨h0, hall, hr, hf⟩
    exact (callBody_ready h0 hr).trans (callGo_splits hall hf)
  · rintro c ⟨h0, hall, hr, hf⟩
    exact (callBody_ready h0 hr).trans (callGo_stalls hall hf)

/-! ### CALLX -/

/-- The entries of the groups of lanes that call, written group by group. -/
noncomputable def calledGroups (c : Iss) (sh : Nat) (keys : List (Nat × Nat)) (gs : List ((Bool × Nat) × Mask)) : State :=
  gs.foldl (fun s x => if x.1.1 then writeCalls s c sh x.2 keys else s) c.s

/-- What each group of lanes of CALLX does to its path: it calls, or goes on at the next word (05 R133). -/
noncomputable def callPaths (sh : Nat) (gs : List ((Bool × Nat) × Mask)) : List (Mask × (Machine.Path → Machine.Path)) :=
  gs.map fun x => (x.2, fun P => if x.1.1 then callPath sh x.1.2 P else { P with pc := x.1.2 })

theorem length_callPaths (sh : Nat) (gs : List ((Bool × Nat) × Mask)) : (callPaths sh gs).length = gs.length :=
  List.length_map ..

/-- The state in which the path of CALLX divides: the groups that find an entry have written theirs; where the path stalls, none
has. -/
noncomputable def callxWrote (sh : Nat) (a : Operand) (c : Iss) (keys : List (Nat × Nat)) : State :=
  let gs := callGroups c a
  let free := (freeEntries c.G).length
  if gs.length ≤ 1 ∨ 0 < free then
    calledGroups c sh keys (if gs.length ≤ free + 1 then gs else (gs.drop 1).take free)
  else c.s

/-- CALLX past its checks (05 R133). -/
noncomputable def callxGo (sh : Nat) (a : Operand) (c : Iss) (keys : List (Nat × Nat)) : Eff :=
  divide c (callxWrote sh a c keys) (callPaths sh (callGroups c a))

section callx
variable {sh : Nat} {a : Operand} {c : Iss} {keys : List (Nat × Nat)}

/-- Where every lane of the path is active and goes to one address, CALLX has one group. -/
theorem callGroups_same (h0 : c.act ≠ 0) (hall : c.act = c.P.mask)
    (h : ∀ l ∈ lanesOf c.act, rd c a 0 l = rd c a 0 (lowest c.act)) :
    callGroups c a = [((true, (c.T.cb + rd c a 0 (lowest c.act)) % 2 ^ 64), c.act)] :=
  groupLanes_if_active (f := fun l => (true, (c.T.cb + rd c a 0 l) % 2 ^ 64)) h0 hall fun l hl => by rw [h l hl]

theorem callx_jumps (h0 : c.act ≠ 0) (hall : c.act = c.P.mask)
    (h : ∀ l ∈ lanesOf c.act, rd c a 0 l = rd c a 0 (lowest c.act)) :
    callxGo sh a c keys = .jump (modPath (writeCalls c.s c sh c.act keys) c.t c.g c.p
      (callPath sh ((c.T.cb + rd c a 0 (lowest c.act)) % 2 ^ 64))) := by
  rw [callxGo, callxWrote, callGroups_same h0 hall h]
  exact congrArg (fun s => divide c s _) ((if_pos (.inl (Nat.le_refl 1))).trans (congrArg _ (if_pos (Nat.le_add_left ..))))

theorem callxWrote_of_divides (h : mayDivide c (callGroups c a).length) :
    callxWrote sh a c keys = calledGroups c sh keys (callGroups c a) := by
  obtain ⟨-, hn, hle⟩ := h
  exact (if_pos (.inr (Nat.lt_of_succ_lt_succ (hn.trans_le hle)))).trans (congrArg _ (if_pos hle))

theorem callxWrote_of_dividesPart (h : dividesPart c (callGroups c a).length) :
    callxWrote sh a c keys = calledGroups c sh keys (((callGroups c a).drop 1).take (freeEntries c.G).length) := by
  obtain ⟨-, hne, hlt⟩ := h
  exact (if_pos (.inr (List.length_pos_iff.mpr hne))).trans (congrArg _ (if_neg hlt.not_ge))

theorem callxWrote_of_stalls (hn : 1 < (callGroups c a).length) (h : noneFree c) : callxWrote sh a c keys = c.s := by
  obtain ⟨-, hf⟩ := h
  exact if_neg (not_or.mpr ⟨hn.not_ge, (List.length_eq_zero_iff.mpr hf).not_gt⟩)

theorem callx_divides (h : mayDivide c (callGroups c a).length) :
    callxGo sh a c keys = .jump (divided c (calledGroups c sh keys (callGroups c a)) (callPaths sh (callGroups c a))) :=
  (congrArg (divide c · _) (callxWrote_of_divides h)).trans (divide_divides (by rwa [length_callPaths]))

theorem callx_dividesPart (h : dividesPart c (callGroups c a).length) :
    callxGo sh a c keys = .jump (dividedPart c
      (calledGroups c sh keys (((callGroups c a).drop 1).take (freeEntries c.G).length)) (callPaths sh (callGroups c a))) :=
  (congrArg (divide c · _) (callxWrote_of_dividesPart h)).trans (divide_dividesPart (by rwa [length_callPaths]))

theorem callx_stalls (hn : 1 < (callGroups c a).length) (h : noneFree c) : callxGo sh a c keys = .wait (stalled c c.s) :=
  (congrArg (divide c · _) (callxWrote_of_stalls hn h)).trans (divide_stalls (by rwa [length_callPaths]) h)

end callx

/-- The checks of CALLX. -/
noncomputable def callxChk (a : Operand) : Chk := { uses := [{ op := a }], opBad := !(isVector a || isScalar a), waits := true }

/-- The entry of CALLX. -/
noncomputable def callxBody (sh : Nat) (a : Operand) (c : Iss) : Eff :=
  let odd := lanesWhere c.act fun l => rd c a 0 l % 4 != 0
  if c.act == 0 then .adv c.s
  else if odd != 0 then .trap .misaligned odd 0 0
  else callChecks c sh (callxGo sh a c)

theorem exec_callx (sh : Nat) (a : Operand) (s : State) :
    exec (.callx sh a) s = issueWord (.callx sh a) (fun _ _ _ => callxChk a) (callxBody sh a) s := rfl

/-- The operand of CALLX passes, a lane is active, the destinations are aligned and the call is ready (05 R133). -/
def callxReady (sh : Nat) (a : Operand) (c : Iss) : Prop :=
  (isVector a || isScalar a) = true ∧ c.act ≠ 0 ∧ (∀ l ∈ lanesOf c.act, rd c a 0 l % 4 = 0) ∧ callReady c sh

theorem callxBody_ready {sh : Nat} {a : Operand} {c : Iss} (h : callxReady sh a c) :
    callxBody sh a c = callxGo sh a c (entryKeys c c.P.ld .wr true) := by
  obtain ⟨-, h0, hal, hr⟩ := h
  have hodd : lanesWhere c.act (fun l => rd c a 0 l % 4 != 0) = 0 :=
    lanesWhere_eq_zero.mpr fun l hl => bne_eq_false_iff_eq.mpr (hal l hl)
  exact (if_neg (mt beq_iff_eq.mp h0)).trans ((if_neg (mt bne_iff_ne.mp (not_not_intro hodd))).trans (callChecks_ready _ hr))

theorem callx_form {sh : Nat} {a : Operand} {F : EffForm} (hu : F.uses = fun _ => [{ op := a }]) (hw : F.all = true)
    (hok : ∀ c, F.pre c → (isVector a || isScalar a) = true)
    (h : ∀ c, F.pre c → callxBody sh a c = effOf F.way (F.eff c)) : Enters (.callx sh a) F :=
  ⟨_, _, exec_callx sh a, fun _ _ _ => hu ▸ rfl, fun _ _ _ => hw ▸ rfl,
    fun c hc => ⟨rfl, congrArg not (hok c hc), rfl⟩, h⟩

/-- What a form of CALLX with an active lane says: it divides its path as the form's effect says. -/
theorem callx_ready_form {sh : Nat} {a : Operand} {F : EffForm} (hu : F.uses = fun _ => [{ op := a }]) (hw : F.all = true)
    (hr : ∀ c, F.pre c → callxReady sh a c)
    (h : ∀ c, F.pre c → callxGo sh a c (entryKeys c c.P.ld .wr true) = effOf F.way (F.eff c)) : Enters (.callx sh a) F :=
  callx_form hu hw (fun c hc => (hr c hc).1) fun c hc => (callxBody_ready (hr c hc)).trans (h c hc)

theorem callx_entry (sh : Nat) (a : Operand) : (calls (.callx sh a)).Forall (Enters (.callx sh a)) := by
  refine And.intro (callx_form rfl rfl (fun _ hc => hc.1) ?_) (And.intro (callx_ready_form rfl rfl (fun _ hc => hc.1) ?_)
    (And.intro (callx_ready_form rfl rfl (fun _ hc => hc.1) ?_) (And.intro (callx_ready_form rfl rfl (fun _ hc => hc.1) ?_)
      (callx_ready_form rfl rfl (fun _ hc => hc.1) ?_))))
  · exact fun _ hc => if_pos (beq_iff_eq.mpr hc.2)
  · rintro c ⟨⟨-, h0, -⟩, hall, hsame⟩
    exact callx_jumps h0 hall hsame
  · exact fun _ hc => callx_divides hc.2
  · exact fun _ hc => callx_dividesPart hc.2
  · rintro c ⟨-, hn, hf⟩
    exact callx_stalls hn hf

/-! ### RET -/

/-- The return address, FS and the shift that a call entry holds (05 R122). -/
noncomputable def entryFields (e : Nat) : Nat × Nat × Nat := (bits e 63 0, bits e 71 64, bits e 75 72)

theorem bits_eq_mod_div {x hi lo : Nat} (h : lo ≤ hi + 1) : bits x hi lo = x % 2 ^ (hi + 1) / 2 ^ lo := by
  rw [bits, ← Nat.mod_mul_right_div_self, ← pow_add, Nat.add_sub_cancel' h]

theorem bits_congr {x y n hi lo : Nat} (h : x ≡ y [MOD 2 ^ n]) (hl : lo ≤ hi + 1) (hn : hi + 1 ≤ n) :
    bits x hi lo = bits y hi lo := by
  rw [bits_eq_mod_div hl, bits_eq_mod_div hl, h.of_dvd (pow_dvd_pow 2 hn)]

theorem entryFields_congr {x y : Nat} (h : x ≡ y [MOD 2 ^ 76]) : entryFields x = entryFields y :=
  congrArg₂ Prod.mk (bits_congr h (by decide) (by decide))
    (congrArg₂ Prod.mk (bits_congr h (by decide) (by decide)) (bits_congr h (by decide) (by decide)))

/-- Where every lane of the path is active and the entries agree in their fields, RET has one group. -/
theorem retGroups_same {c : Iss} {keys : List (Nat × Nat)} (h0 : c.act ≠ 0) (hall : c.act = c.P.mask)
    (h : ∀ l ∈ lanesOf c.act, entryOf c keys l % 2 ^ 76 = entryOf c keys (lowest c.act) % 2 ^ 76) :
    retGroups c keys = [((true, entryFields (entryOf c keys (lowest c.act))), c.act)] :=
  groupLanes_if_active (f := fun l => (true, entryFields (entryOf c keys l))) h0 hall fun l hl =>
    congrArg (Prod.mk true) (entryFields_congr (h l hl))

/-- The keys of the entries that a path returns from. -/
noncomputable def retKeys (c : Iss) : List (Nat × Nat) := entryKeys c (c.P.ld - 1) .rd false

/-- What each group of lanes of RET does to its path: it goes back to what its entries hold, or on at the next word (05 R134). -/
noncomputable def retPaths (gs : List ((Bool × Nat × Nat × Nat) × Mask)) : List (Mask × (Machine.Path → Machine.Path)) :=
  gs.map fun x => (x.2, fun P => if x.1.1 then
      { P with pc := x.1.2.1, fs := x.1.2.2.1, fb := (P.fb + 2 ^ 16 - 16 * x.1.2.2.2) % 2 ^ 16, ld := P.ld - 1 }
    else { P with pc := x.1.2.1 })

theorem length_retPaths (gs : List ((Bool × Nat × Nat × Nat) × Mask)) : (retPaths gs).length = gs.length := List.length_map ..

/-- RET past its checks. -/
noncomputable def retGo (c : Iss) (keys : List (Nat × Nat)) : Eff := divide c (readCalls c keys) (retPaths (retGroups c keys))

/-- The entry of RET. -/
noncomputable def retBody (c : Iss) : Eff :=
  if c.P.ld = 0 then .adv (modGroup c.s c.t c.g fun G => exitLanes G c.p c.act)
  else if c.act == 0 then .adv c.s
  else if memOpsBefore c.s c.G then .stall
  else match translateLanes c.s c.T.ctx c.T.die .group (callAccs c (c.P.ld - 1)) 16 .rd (some 0) false with
    | .hold => .stall
    | .fail k m a => .trap k m a 0
    | .ok keys =>
      let odd := lanesWhere c.act fun l => entryOf c keys l % 4 != 0
      if odd != 0 then .trap .misaligned odd 0 0 else retGo c keys

theorem exec_ret (s : State) : exec .ret s = issueWord .ret (fun _ _ _ => { waits := true }) retBody s := rfl

section ret
variable {c : Iss}

theorem retBody_ready (h : retReady c) : retBody c = retGo c (retKeys c) := by
  obtain ⟨hd, h0, hmem, hkeys, hal⟩ := h
  have hodd : lanesWhere c.act (fun l => entryOf c (retKeys c) l % 4 != 0) = 0 :=
    lanesWhere_eq_zero.mpr fun l hl => bne_eq_false_iff_eq.mpr (hal l hl)
  refine (if_neg hd).trans ((if_neg (mt beq_iff_eq.mp h0)).trans ((if_neg (ne_true_of_eq_false hmem)).trans ?_))
  rw [hkeys]
  exact if_neg (mt bne_iff_ne.mp (not_not_intro hodd))

theorem ret_jumps {keys : List (Nat × Nat)} (h0 : c.act ≠ 0) (hall : c.act = c.P.mask)
    (h : ∀ l ∈ lanesOf c.act, entryOf c keys l % 2 ^ 76 = entryOf c keys (lowest c.act) % 2 ^ 76) :
    let e := entryOf c keys (lowest c.act)
    retGo c keys = .jump (modPath (readCalls c keys) c.t c.g c.p fun P =>
      { P with pc := bits e 63 0, fs := bits e 71 64, fb := (P.fb + 2 ^ 16 - 16 * bits e 75 72) % 2 ^ 16, ld := P.ld - 1 }) := by
  rw [retGo, retGroups_same h0 hall h]
  rfl

theorem ret_divides {keys : List (Nat × Nat)} (h : mayDivide c (retGroups c keys).length) :
    retGo c keys = .jump (divided c (readCalls c keys) (retPaths (retGroups c keys))) :=
  divide_divides (by rwa [length_retPaths])

theorem ret_dividesPart {keys : List (Nat × Nat)} (h : dividesPart c (retGroups c keys).length) :
    retGo c keys = .jump (dividedPart c (readCalls c keys) (retPaths (retGroups c keys))) :=
  divide_dividesPart (by rwa [length_retPaths])

theorem ret_stalls {keys : List (Nat × Nat)} (hn : 1 < (retGroups c keys).length) (h : noneFree c) :
    retGo c keys = .wait (stalled c (readCalls c keys)) := divide_stalls (by rwa [length_retPaths]) h

end ret

theorem ret_entry : (calls .ret).Forall (Enters .ret) := by
  refine And.intro (plain_form exec_ret rfl rfl ?_) (And.intro (plain_form exec_ret rfl rfl ?_)
    (And.intro (plain_form exec_ret rfl rfl ?_) (And.intro (plain_form exec_ret rfl rfl ?_)
      (And.intro (plain_form exec_ret rfl rfl ?_) (plain_form exec_ret rfl rfl ?_)))))
  · exact fun _ hd => if_pos hd
  · rintro c ⟨hd, h0⟩
    exact (if_neg hd).trans (if_pos (beq_iff_eq.mpr h0))
  · rintro c ⟨hr, hall, hsame⟩
    have h0 : c.act ≠ 0 := hr.2.1
    exact (retBody_ready hr).trans (ret_jumps h0 hall hsame)
  · exact fun c hc => (retBody_ready hc.1).trans (ret_divides hc.2)
  · exact fun c hc => (retBody_ready hc.1).trans (ret_dividesPart hc.2)
  · rintro c ⟨hr, hn, hf⟩
    exact (retBody_ready hr).trans (ret_stalls hn hf)

theorem calls_entry (i : Instr) : (calls i).Forall (Enters i) := by
  induction i with
  | call sh off => exact call_entry sh off
  | callx sh a => exact callx_entry sh a
  | ret => exact ret_entry
  | _ => exact trivial

/-- Settles O11: each form's entry. What RET makes of an entry that software altered is log entry 83. -/
theorem callResults : Obligations.CallResults := effTable_of_entries calls_entry

end Sys2Proof
end

section
/-! PROOFS. Floating instructions (06 R146, R147): each word's entry against its form. -/

namespace Sys2Proof
open Machine Safety Claims

-- One theorem with plain binder names, which the cases of the induction share: the compiled text is close to the largest
-- that the check's memory limit allows.
set_option tactic.hygienic false in
/-- Settles O3: each word's entry. -/
theorem floatRowResults : Obligations.FloatRowResults := by
  -- A word whose entry is the lane instruction that its form describes.
  have enters : ∀ (i : Instr) (F : LaneForm),
      (exec i = laneOp i
        { d := F.d, dn := F.n, dsrc := F.dsrc, srcs := F.srcs,
          modeBad := fun gm => bif F.rounds gm then !F.types gm.type || stoBad gm else !F.types gm.type } F.val) →
      LaneEnters i F :=
    fun i F h => laneEnters_of_entry (congrFun h) (fun gm => (F.rounds gm).rec (Bool.or_false _).symm rfl) fun _ _ => rfl
  have hbit : bit = Nat.testBit := funext₂ bit_eq_testBit
  refine laneTable_of_entries fun i => ?_
  induction i with
  | fadd | fsub | fmul | fma | fnma | fmin | fmax | fabs | fclass | frnd | fscale => exact enters _ _ rfl
  | fcpys =>
    refine (?_ : LaneEnters _ _)
    exact hbit ▸ enters (.fcpys d a b) (fbitForm d [a, b] fun t v => signBits t (v a) (bit (v b) (tyWidth t - 1))) rfl
  | fneg =>
    refine (?_ : LaneEnters _ _)
    exact hbit ▸ enters (.fneg d a) (fbitForm d [a] fun t v => signBits t (v a) (!bit (v a) (tyWidth t - 1))) rfl
  | fdot2 =>
    refine (?_ : LaneEnters _ _)
    exact laneEnters_of_entry (fun _ => rfl) (fun gm => congrArg (!· || _) (half?_eq gm.type)) fun _ _ => rfl
  | _ => exact trivial

end Sys2Proof
end
